-- ==== Sys2Proof/Word.lean ====
section
/-!
DEFINITION. The machine's word types (R2, R57, R58, R80).
-/

namespace Sys2Proof

/-- A byte of memory. -/
abbrev Byte := BitVec 8

/-- A 64-bit register value (a dword). -/
abbrev Word := BitVec 64

/-- An environment: bit `a` is set when assumption `a` belongs to it (R57). -/
abbrev Env := BitVec 64

/-- A label handle (R58). -/
abbrev Handle := BitVec 16

/-- The contents of a 512-bit vector register (R80). -/
abbrev Lanes := BitVec 512

/-- The handle ALWAYS (R58). -/
abbrev always : Handle := 0#16

/-- The handle NEVER (R58). -/
abbrev never : Handle := 0xFFFF#16

end Sys2Proof
end

