-- ==== Sys2Proof/Syntax.lean ====
section
/-!
DEFINITION. The instructions and events of the opcode table (R203-R206, R209-R287; 95_what_each_step_holds), one
constructor per row. An encoded form carries the fields its encoding leaves free, lowest bits first (a 16-bit form as
R206 writes it); a step without an encoding carries what picks it out (core, stream, queue position, channel) and the
data that comes from outside the machine.
-/

namespace Sys2Proof

/-- One row of the opcode table. -/
inductive Instr where
  /-- R210: Writes the sum of x[rs] and x[rt], wrapped to 64 bits. -/
  | add (d : BitVec 5) (s : BitVec 5) (t : BitVec 5)
  /-- R210: Writes x[rs] minus x[rt], wrapped to 64 bits. -/
  | sub (d : BitVec 5) (s : BitVec 5) (t : BitVec 5)
  /-- R210: Writes the bitwise exclusive-or of x[rs] and x[rt]. -/
  | xor (d : BitVec 5) (s : BitVec 5) (t : BitVec 5)
  /-- R210: Writes x[rs] AND NOT x[rt]. -/
  | andn (d : BitVec 5) (s : BitVec 5) (t : BitVec 5)
  /-- R210: Writes x[rs] OR NOT x[rt]. -/
  | orn (d : BitVec 5) (s : BitVec 5) (t : BitVec 5)
  /-- R210: Writes NOT (x[rs] XOR x[rt]). -/
  | xnor (d : BitVec 5) (s : BitVec 5) (t : BitVec 5)
  /-- R210: Writes the bitwise or of x[rs] and x[rt]. -/
  | or (d : BitVec 5) (s : BitVec 5) (t : BitVec 5)
  /-- R210: Writes the bitwise and of x[rs] and x[rt]. -/
  | and (d : BitVec 5) (s : BitVec 5) (t : BitVec 5)
  /-- R210: Shifts x[rs] left by x[rt] mod 64. -/
  | shl (d : BitVec 5) (s : BitVec 5) (t : BitVec 5)
  /-- R210: Shifts x[rs] right logically by x[rt] mod 64. -/
  | shr (d : BitVec 5) (s : BitVec 5) (t : BitVec 5)
  /-- R210: Shifts x[rs] right arithmetically by x[rt] mod 64. -/
  | sar (d : BitVec 5) (s : BitVec 5) (t : BitVec 5)
  /-- R210: Rotates x[rs] left by x[rt] mod 64. -/
  | rotl (d : BitVec 5) (s : BitVec 5) (t : BitVec 5)
  /-- R210: Rotates x[rs] right by x[rt] mod 64. -/
  | rotr (d : BitVec 5) (s : BitVec 5) (t : BitVec 5)
  /-- R210: Writes 1 if x[rs] is signed-less than x[rt], else 0. -/
  | cmplt (d : BitVec 5) (s : BitVec 5) (t : BitVec 5)
  /-- R210: Writes 1 if x[rs] is unsigned-less than x[rt], else 0. -/
  | cmpltu (d : BitVec 5) (s : BitVec 5) (t : BitVec 5)
  /-- R210: Writes 1 if x[rs] equals x[rt], else 0. -/
  | cmpeq (d : BitVec 5) (s : BitVec 5) (t : BitVec 5)
  /-- R210: Writes the signed minimum of x[rs] and x[rt]. -/
  | min (d : BitVec 5) (s : BitVec 5) (t : BitVec 5)
  /-- R210: Writes the signed maximum of x[rs] and x[rt]. -/
  | max (d : BitVec 5) (s : BitVec 5) (t : BitVec 5)
  /-- R210: Writes the unsigned minimum of x[rs] and x[rt]. -/
  | minu (d : BitVec 5) (s : BitVec 5) (t : BitVec 5)
  /-- R210: Writes the unsigned maximum of x[rs] and x[rt]. -/
  | maxu (d : BitVec 5) (s : BitVec 5) (t : BitVec 5)
  /-- R210: Counts the leading zero bits of x[rs]. -/
  | clz (d : BitVec 5) (s : BitVec 5)
  /-- R210: Counts the trailing zero bits of x[rs]. -/
  | ctz (d : BitVec 5) (s : BitVec 5)
  /-- R210: Counts the one bits of x[rs]. -/
  | pop (d : BitVec 5) (s : BitVec 5)
  /-- R210: Sign-extends x[rs][7:0]. -/
  | sextB (d : BitVec 5) (s : BitVec 5)
  /-- R210: Sign-extends x[rs][15:0]. -/
  | sextH (d : BitVec 5) (s : BitVec 5)
  /-- R210: Sign-extends x[rs][31:0]. -/
  | sextW (d : BitVec 5) (s : BitVec 5)
  /-- R210: Zero-extends x[rs][7:0]. -/
  | zextB (d : BitVec 5) (s : BitVec 5)
  /-- R210: Zero-extends x[rs][15:0]. -/
  | zextH (d : BitVec 5) (s : BitVec 5)
  /-- R210: Zero-extends x[rs][31:0]. -/
  | zextW (d : BitVec 5) (s : BitVec 5)
  /-- R210: Reverses the byte order of x[rs]. -/
  | bswap (d : BitVec 5) (s : BitVec 5)
  /-- R210: Reverses the bit order of x[rs]. -/
  | bitrev (d : BitVec 5) (s : BitVec 5)
  /-- R210: Writes the low 64 bits of x[rs] times x[rt]. -/
  | mul (d : BitVec 5) (s : BitVec 5) (t : BitVec 5)
  /-- R210: Writes the high 64 bits of the signed-signed product. -/
  | mulxSs (d : BitVec 5) (s : BitVec 5) (t : BitVec 5)
  /-- R210: Writes the high 64 bits of the unsigned-unsigned product. -/
  | mulxUu (d : BitVec 5) (s : BitVec 5) (t : BitVec 5)
  /-- R210: Writes the high 64 bits of the signed-unsigned product. -/
  | mulxSu (d : BitVec 5) (s : BitVec 5) (t : BitVec 5)
  /-- R210: Writes the signed quotient truncated toward zero, 0 for a zero divisor. -/
  | quot (d : BitVec 5) (s : BitVec 5) (t : BitVec 5)
  /-- R210: Writes the unsigned quotient, 0 for a zero divisor. -/
  | quotu (d : BitVec 5) (s : BitVec 5) (t : BitVec 5)
  /-- R210: Writes the signed remainder, the dividend for a zero divisor. -/
  | remd (d : BitVec 5) (s : BitVec 5) (t : BitVec 5)
  /-- R210: Writes the unsigned remainder, the dividend for a zero divisor. -/
  | remdu (d : BitVec 5) (s : BitVec 5) (t : BitVec 5)
  /-- R211: Adds a signed immediate to x[rs]. -/
  | addi (d : BitVec 5) (s : BitVec 5) (i : BitVec 12)
  /-- R211: Shifts x[rs] left by an immediate count. -/
  | slli (d : BitVec 5) (s : BitVec 5) (n : BitVec 6)
  /-- R211: Rotates x[rs] left by an immediate count. -/
  | rotli (d : BitVec 5) (s : BitVec 5) (n : BitVec 6)
  /-- R211: Writes 1 if x[rs] is signed-less than the immediate. -/
  | cmplti (d : BitVec 5) (s : BitVec 5) (i : BitVec 12)
  /-- R211: Writes 1 if x[rs] is unsigned-less than the sign-extended immediate. -/
  | cmpltiu (d : BitVec 5) (s : BitVec 5) (i : BitVec 12)
  /-- R211: Exclusive-ors x[rs] with the immediate. -/
  | xori (d : BitVec 5) (s : BitVec 5) (i : BitVec 12)
  /-- R211: Shifts x[rs] right logically by an immediate count. -/
  | srli (d : BitVec 5) (s : BitVec 5) (n : BitVec 6)
  /-- R211: Shifts x[rs] right arithmetically by an immediate count. -/
  | srai (d : BitVec 5) (s : BitVec 5) (n : BitVec 6)
  /-- R211: Rotates x[rs] right by an immediate count. -/
  | rotri (d : BitVec 5) (s : BitVec 5) (n : BitVec 6)
  /-- R211: Ors x[rs] with the immediate. -/
  | ori (d : BitVec 5) (s : BitVec 5) (i : BitVec 12)
  /-- R211: Ands x[rs] with the immediate. -/
  | andi (d : BitVec 5) (s : BitVec 5) (i : BitVec 12)
  /-- R212: Writes the signed 20-bit immediate times 4,096. -/
  | hiimm (d : BitVec 5) (i : BitVec 20)
  /-- R213: Jumps to a PC-relative target and writes the link P + 4. -/
  | jump (d : BitVec 5) (o : BitVec 20)
  /-- R214: Jumps to x[rs] + imm, folds x[rs]'s label into DEP and writes the link. -/
  | jr (d : BitVec 5) (s : BitVec 5) (i : BitVec 12)
  /-- R214: Writes x[rs] + imm + P − 4. -/
  | pcadd (d : BitVec 5) (s : BitVec 5) (i : BitVec 12)
  /-- R215: Branches if x[rs] equals x[rt], folding both labels into DEP. -/
  | beq (t : BitVec 5) (s : BitVec 5) (o : BitVec 12)
  /-- R215: Branches if x[rs] differs from x[rt]. -/
  | bne (t : BitVec 5) (s : BitVec 5) (o : BitVec 12)
  /-- R215: Branches if x[rs] is signed-less than x[rt]. -/
  | blt (t : BitVec 5) (s : BitVec 5) (o : BitVec 12)
  /-- R215: Branches if x[rs] is signed-greater or equal to x[rt]. -/
  | bge (t : BitVec 5) (s : BitVec 5) (o : BitVec 12)
  /-- R215: Branches if x[rs] is unsigned-less than x[rt]. -/
  | bltu (t : BitVec 5) (s : BitVec 5) (o : BitVec 12)
  /-- R215: Branches if x[rs] is unsigned-greater or equal to x[rt]. -/
  | bgeu (t : BitVec 5) (s : BitVec 5) (o : BitVec 12)
  /-- R217: Sets up hardware loop L with count x[rs] and folds its label into DEP. -/
  | loop (l : BitVec 1) (s : BitVec 5) (o : BitVec 12)
  /-- R217: Sets up hardware loop L with an immediate count. -/
  | loopi (l : BitVec 1) (n : BitVec 5) (o : BitVec 12)
  /-- R217: Sets LC of loop L to 0. -/
  | loopClr (l : BitVec 1)
  /-- R221: Starts the task's access stream at a target. -/
  | forkA (o : BitVec 12)
  /-- R222: Writes x[rs] with its label to the tail of a queue, waiting while full. -/
  | qPut (s : BitVec 5) (q : BitVec 2)
  /-- R222: Removes the head of a queue into rd, waiting while empty. -/
  | qGet (d : BitVec 5) (q : BitVec 2)
  /-- R222: Writes the number of entries of a queue. -/
  | qCnt (d : BitVec 5) (q : BitVec 2)
  /-- R223: Sends a message with header x[rs] and payload from x[rt] onward after a release fence. -/
  | msgSend (s : BitVec 5) (t : BitVec 5)
  /-- R225: Opens the stream port to a package-scratchpad destination. -/
  | spOpen (s : BitVec 5) (t : BitVec 5)
  /-- R225: Puts the next dword on the open stream port. -/
  | spPut (s : BitVec 5)
  /-- R225: Sends the closing marker, waits for acknowledgement and writes the word count. -/
  | spClose (d : BitVec 5)
  /-- R227: Ends the access stream, or the task after waiting for streams and stores. -/
  | taskEnd
  /-- R228: Safe point: restarts the instruction count and pre-empts or retires the task if due. -/
  | safept (s : BitVec 5)
  /-- R42: Waits until the group's peers reach the same align or the bound elapses. -/
  | align (n : BitVec 12)
  /-- R42: The align bound elapses and the waiting core continues. -/
  | alignBound (c : Nat)
  /-- R229: Reads a state register into rd with label DEP. -/
  | srd (d : BitVec 5) (r : BitVec 12)
  /-- R229: Writes a state register, with DEP and CTX rules and a visibility test otherwise. -/
  | swr (s : BitVec 5) (r : BitVec 12)
  /-- R235: Adds 1 to the package PHASE register, saturating. -/
  | phase
  /-- R236: Writes one TLB entry of a tile of the super-group. -/
  | tlbW (d : BitVec 5) (s : BitVec 5) (t : BitVec 5)
  /-- R236: Invalidates matching TLB entries of a tile and waits for accesses through them. -/
  | tlbInv (s : BitVec 5) (t : BitVec 5)
  /-- R240: Loads a sign-extended byte. -/
  | ldB (d : BitVec 5) (s : BitVec 5) (i : BitVec 12)
  /-- R240: Loads a sign-extended halfword. -/
  | ldH (d : BitVec 5) (s : BitVec 5) (i : BitVec 12)
  /-- R240: Loads a sign-extended word. -/
  | ldW (d : BitVec 5) (s : BitVec 5) (i : BitVec 12)
  /-- R240: Loads a dword. -/
  | ldD (d : BitVec 5) (s : BitVec 5) (i : BitVec 12)
  /-- R240: Loads a zero-extended byte. -/
  | ldBu (d : BitVec 5) (s : BitVec 5) (i : BitVec 12)
  /-- R240: Loads a zero-extended halfword. -/
  | ldHu (d : BitVec 5) (s : BitVec 5) (i : BitVec 12)
  /-- R240: Loads a zero-extended word. -/
  | ldWu (d : BitVec 5) (s : BitVec 5) (i : BitVec 12)
  /-- R242: Issues a byte store to the store buffer. -/
  | stB (t : BitVec 5) (s : BitVec 5) (i : BitVec 12)
  /-- R242: Issues a halfword store. -/
  | stH (t : BitVec 5) (s : BitVec 5) (i : BitVec 12)
  /-- R242: Issues a word store. -/
  | stW (t : BitVec 5) (s : BitVec 5) (i : BitVec 12)
  /-- R242: Issues a dword store. -/
  | stD (t : BitVec 5) (s : BitVec 5) (i : BitVec 12)
  /-- R243: Stores a dword to scratchpad and starts an arrival handler there. -/
  | stDh (t : BitVec 5) (s : BitVec 5) (h : BitVec 12)
  /-- R245: Orders earlier loads and stores before later ones within the scope. -/
  | fenceFull (c : BitVec 3)
  /-- R245: Orders earlier accesses before later stores within the scope. -/
  | fenceRel (c : BitVec 3)
  /-- R245: Orders earlier loads before later accesses within the scope. -/
  | fenceAcq (c : BitVec 3)
  /-- R246: Marks a 64 KiB physical unit live or not live. -/
  | mlive (s : BitVec 5) (t : BitVec 5)
  /-- R248: Atomic 64-bit add at a scratchpad bank. -/
  | amoAddD (d : BitVec 5) (s : BitVec 5) (t : BitVec 5)
  /-- R248: Atomic 64-bit and. -/
  | amoAndD (d : BitVec 5) (s : BitVec 5) (t : BitVec 5)
  /-- R248: Atomic 64-bit or. -/
  | amoOrD (d : BitVec 5) (s : BitVec 5) (t : BitVec 5)
  /-- R248: Atomic 64-bit exclusive-or. -/
  | amoXorD (d : BitVec 5) (s : BitVec 5) (t : BitVec 5)
  /-- R248: Atomic 64-bit signed minimum. -/
  | amoMinD (d : BitVec 5) (s : BitVec 5) (t : BitVec 5)
  /-- R248: Atomic 64-bit signed maximum. -/
  | amoMaxD (d : BitVec 5) (s : BitVec 5) (t : BitVec 5)
  /-- R248: Atomic 64-bit swap. -/
  | amoSwapD (d : BitVec 5) (s : BitVec 5) (t : BitVec 5)
  /-- R248: Atomic 64-bit compare and swap. -/
  | amoCasD (d : BitVec 5) (s : BitVec 5) (t : BitVec 5)
  /-- R248: Atomic 32-bit add. -/
  | amoAddW (d : BitVec 5) (s : BitVec 5) (t : BitVec 5)
  /-- R248: Atomic 32-bit and. -/
  | amoAndW (d : BitVec 5) (s : BitVec 5) (t : BitVec 5)
  /-- R248: Atomic 32-bit or. -/
  | amoOrW (d : BitVec 5) (s : BitVec 5) (t : BitVec 5)
  /-- R248: Atomic 32-bit exclusive-or. -/
  | amoXorW (d : BitVec 5) (s : BitVec 5) (t : BitVec 5)
  /-- R248: Atomic 32-bit signed minimum. -/
  | amoMinW (d : BitVec 5) (s : BitVec 5) (t : BitVec 5)
  /-- R248: Atomic 32-bit signed maximum. -/
  | amoMaxW (d : BitVec 5) (s : BitVec 5) (t : BitVec 5)
  /-- R248: Atomic 32-bit swap. -/
  | amoSwapW (d : BitVec 5) (s : BitVec 5) (t : BitVec 5)
  /-- R248: Atomic 32-bit compare and swap. -/
  | amoCasW (d : BitVec 5) (s : BitVec 5) (t : BitVec 5)
  /-- R248: Atomic 64-bit unsigned minimum. -/
  | amoMinuD (d : BitVec 5) (s : BitVec 5) (t : BitVec 5)
  /-- R248: Atomic 64-bit unsigned maximum. -/
  | amoMaxuD (d : BitVec 5) (s : BitVec 5) (t : BitVec 5)
  /-- R248: Atomic 32-bit unsigned minimum. -/
  | amoMinuW (d : BitVec 5) (s : BitVec 5) (t : BitVec 5)
  /-- R248: Atomic 32-bit unsigned maximum. -/
  | amoMaxuW (d : BitVec 5) (s : BitVec 5) (t : BitVec 5)
  /-- R152: Atomic FP32 add at a scratchpad bank. -/
  | amoFadd (d : BitVec 5) (s : BitVec 5) (t : BitVec 5)
  /-- R149: Reads a sluice word. -/
  | syncLd (d : BitVec 5) (s : BitVec 5)
  /-- R149: Sluice 64-bit add. -/
  | syncAdd (d : BitVec 5) (s : BitVec 5) (t : BitVec 5)
  /-- R149: Sluice bitwise and. -/
  | syncAnd (d : BitVec 5) (s : BitVec 5) (t : BitVec 5)
  /-- R149: Sluice bitwise or. -/
  | syncOr (d : BitVec 5) (s : BitVec 5) (t : BitVec 5)
  /-- R149: Sluice bitwise exclusive-or. -/
  | syncXor (d : BitVec 5) (s : BitVec 5) (t : BitVec 5)
  /-- R149: Sluice swap. -/
  | syncSwap (d : BitVec 5) (s : BitVec 5) (t : BitVec 5)
  /-- R149: Sluice compare and swap. -/
  | syncCas (d : BitVec 5) (s : BitVec 5) (t : BitVec 5)
  /-- R149: Sluice FP32 add in the low word. -/
  | syncFadd (d : BitVec 5) (s : BitVec 5) (t : BitVec 5)
  /-- R149: Sluice signed minimum. -/
  | syncMin (d : BitVec 5) (s : BitVec 5) (t : BitVec 5)
  /-- R149: Sluice signed maximum. -/
  | syncMax (d : BitVec 5) (s : BitVec 5) (t : BitVec 5)
  /-- R149: Sluice unsigned minimum. -/
  | syncMinu (d : BitVec 5) (s : BitVec 5) (t : BitVec 5)
  /-- R149: Sluice unsigned maximum. -/
  | syncMaxu (d : BitVec 5) (s : BitVec 5) (t : BitVec 5)
  /-- R151: Blocks on a sluice word's wait queue while it equals rt. -/
  | syncWait (d : BitVec 5) (s : BitVec 5) (t : BitVec 5)
  /-- R151: Releases up to rt waiters of a sluice word. -/
  | syncWake (d : BitVec 5) (s : BitVec 5) (t : BitVec 5)
  /-- R150: The sluice engine performs the highest-class queued word operation. -/
  | sluiceOperation (die : Nat)
  /-- R153: Release fence then one arrival at barrier tag t. -/
  | barArrive (g : BitVec 3)
  /-- R153: Blocks until the generation of the last arrival is released. -/
  | barWait (g : BitVec 3)
  /-- R153: The barrier tree releases a generation after every participant has arrived. -/
  | barrierRelease (b : Nat)
  /-- R145: Boards a variable on the first empty ringdike slot. -/
  | ringBoard (d : BitVec 5) (s : BitVec 5) (t : BitVec 5)
  /-- R147: Captures and reads a matching slot. -/
  | ringCapRead (d : BitVec 5) (s : BitVec 5) (t : BitVec 5)
  /-- R147: Adds rt to a matching slot. -/
  | ringCapAdd (d : BitVec 5) (s : BitVec 5) (t : BitVec 5)
  /-- R147: Takes the signed minimum on a matching slot. -/
  | ringCapMin (d : BitVec 5) (s : BitVec 5) (t : BitVec 5)
  /-- R147: Takes the signed maximum on a matching slot. -/
  | ringCapMax (d : BitVec 5) (s : BitVec 5) (t : BitVec 5)
  /-- R147: Swaps rt into a matching slot. -/
  | ringCapSwap (d : BitVec 5) (s : BitVec 5) (t : BitVec 5)
  /-- R147: Compare and swap on a matching slot. -/
  | ringCapCas (d : BitVec 5) (s : BitVec 5) (t : BitVec 5)
  /-- R145: Takes a variable off its slot and stores it to its home address. -/
  | ringAlight (d : BitVec 5) (s : BitVec 5) (t : BitVec 5)
  /-- R140: An outstanding ring action is taken as a slot passes the station. -/
  | ringAction (c : Nat) (st : Nat)
  /-- R146: No empty slot passes in 512 cycles and ring.board returns status 1. -/
  | ringBoardTimeout (c : Nat) (st : Nat)
  /-- R345: A capture or alight waits 2,048 revolutions without a match and traps 0x22. -/
  | ringAbsent (c : Nat) (st : Nat)
  /-- R77: Interns {{a}} and writes its handle. -/
  | lblAssume (d : BitVec 5) (a : BitVec 6)
  /-- R77: Copies rs under the Product with the label named by rt. -/
  | lblWith (d : BitVec 5) (s : BitVec 5) (t : BitVec 5)
  /-- R77: Copies rs under the Merge of rs's and rt's labels when their values agree. -/
  | lblMerge (d : BitVec 5) (s : BitVec 5) (t : BitVec 5)
  /-- R77: Writes the handle of rs's label. -/
  | lblGet (d : BitVec 5) (s : BitVec 5)
  /-- R77: Writes 1 if rs's label is visible in CTX. -/
  | lblVis (d : BitVec 5) (s : BitVec 5)
  /-- R72: Records nogoods derived from the environment in rs and writes a status. -/
  | lblNogood (d : BitVec 5) (s : BitVec 5)
  /-- R77: Replaces CTX with rs and returns the old CTX. -/
  | lblCtx (d : BitVec 5) (s : BitVec 5)
  /-- R73: The sluice engine commits a nogood instruction's candidates to G in one step. -/
  | nogoodCommit (c : Nat) (st : Nat)
  /-- R74: A core applies a nogood notice, making tasks with no clean DEP environment moot. -/
  | nogoodNotice (c : Nat) (frame : Nat)
  /-- R256: Accepts a launch record into the pending-launch store and writes a status. -/
  | launch (d : BitVec 5) (s : BitVec 5)
  /-- R257: Copies a record bound to a network tag into the armed store. -/
  | arm (d : BitVec 5) (s : BitVec 5) (t : BitVec 5)
  /-- R257: Removes the record armed under a tag. -/
  | disarm (d : BitVec 5) (t : BitVec 5)
  /-- R261: Registers a metered weight region and writes a status. -/
  | meterReg (d : BitVec 5) (s : BitVec 5)
  /-- R262: Writes a signed meter statement of a region. -/
  | meterRead (d : BitVec 5) (s : BitVec 5) (t : BitVec 5)
  /-- R263: Checkpoints every meter to secure storage. -/
  | meterCkpt (d : BitVec 5)
  /-- R263: Writes a signed attestation report over a nonce. -/
  | attest (d : BitVec 5) (s : BitVec 5)
  /-- R268: Loads a 64-byte vector. -/
  | vld (d : BitVec 5) (s : BitVec 5) (e : BitVec 2) (k : BitVec 2)
  /-- R268: Stores a 64-byte vector. -/
  | vst (s : BitVec 5) (t : BitVec 5) (e : BitVec 2) (k : BitVec 2)
  /-- R268: Loads a strided vector. -/
  | vlds (d : BitVec 5) (s : BitVec 5) (t : BitVec 5) (e : BitVec 2) (k : BitVec 2)
  /-- R268: Stores a strided vector. -/
  | vsts (d : BitVec 5) (s : BitVec 5) (t : BitVec 5) (e : BitVec 2) (k : BitVec 2)
  /-- R268: Gathers vector elements by index. -/
  | vgth (d : BitVec 5) (s : BitVec 5) (t : BitVec 5) (e : BitVec 2) (k : BitVec 2)
  /-- R268: Scatters vector elements by index. -/
  | vsct (d : BitVec 5) (s : BitVec 5) (t : BitVec 5) (e : BitVec 2) (k : BitVec 2)
  /-- R268: Broadcasts one loaded element to every enabled lane. -/
  | vbc (d : BitVec 5) (s : BitVec 5) (e : BitVec 2) (k : BitVec 2)
  /-- R271: Lane-wise modular add. -/
  | vadd (d : BitVec 5) (s : BitVec 5) (t : BitVec 5) (e : BitVec 2) (k : BitVec 2)
  /-- R271: Lane-wise modular subtract. -/
  | vsub (d : BitVec 5) (s : BitVec 5) (t : BitVec 5) (e : BitVec 2) (k : BitVec 2)
  /-- R271: Lane-wise low product. -/
  | vmul (d : BitVec 5) (s : BitVec 5) (t : BitVec 5) (e : BitVec 2) (k : BitVec 2)
  /-- R271: Lane-wise signed high product. -/
  | vmulh (d : BitVec 5) (s : BitVec 5) (t : BitVec 5) (e : BitVec 2) (k : BitVec 2)
  /-- R271: Lane-wise signed minimum. -/
  | vmin (d : BitVec 5) (s : BitVec 5) (t : BitVec 5) (e : BitVec 2) (k : BitVec 2)
  /-- R271: Lane-wise signed maximum. -/
  | vmax (d : BitVec 5) (s : BitVec 5) (t : BitVec 5) (e : BitVec 2) (k : BitVec 2)
  /-- R271: Lane-wise unsigned minimum. -/
  | vminu (d : BitVec 5) (s : BitVec 5) (t : BitVec 5) (e : BitVec 2) (k : BitVec 2)
  /-- R271: Lane-wise unsigned maximum. -/
  | vmaxu (d : BitVec 5) (s : BitVec 5) (t : BitVec 5) (e : BitVec 2) (k : BitVec 2)
  /-- R271: Lane-wise signed saturating add. -/
  | vadds (d : BitVec 5) (s : BitVec 5) (t : BitVec 5) (e : BitVec 2) (k : BitVec 2)
  /-- R271: Lane-wise unsigned saturating add. -/
  | vaddus (d : BitVec 5) (s : BitVec 5) (t : BitVec 5) (e : BitVec 2) (k : BitVec 2)
  /-- R271: Lane-wise signed saturating subtract. -/
  | vsubs (d : BitVec 5) (s : BitVec 5) (t : BitVec 5) (e : BitVec 2) (k : BitVec 2)
  /-- R271: Lane-wise unsigned saturating subtract. -/
  | vsubus (d : BitVec 5) (s : BitVec 5) (t : BitVec 5) (e : BitVec 2) (k : BitVec 2)
  /-- R271: Lane-wise and. -/
  | vand (d : BitVec 5) (s : BitVec 5) (t : BitVec 5) (e : BitVec 2) (k : BitVec 2)
  /-- R271: Lane-wise or. -/
  | vor (d : BitVec 5) (s : BitVec 5) (t : BitVec 5) (e : BitVec 2) (k : BitVec 2)
  /-- R271: Lane-wise exclusive-or. -/
  | vxor (d : BitVec 5) (s : BitVec 5) (t : BitVec 5) (e : BitVec 2) (k : BitVec 2)
  /-- R271: Lane-wise and-not. -/
  | vandn (d : BitVec 5) (s : BitVec 5) (t : BitVec 5) (e : BitVec 2) (k : BitVec 2)
  /-- R271: Lane-wise logical left shift. -/
  | vsll (d : BitVec 5) (s : BitVec 5) (t : BitVec 5) (e : BitVec 2) (k : BitVec 2)
  /-- R271: Lane-wise logical right shift. -/
  | vsrl (d : BitVec 5) (s : BitVec 5) (t : BitVec 5) (e : BitVec 2) (k : BitVec 2)
  /-- R271: Lane-wise arithmetic right shift. -/
  | vsra (d : BitVec 5) (s : BitVec 5) (t : BitVec 5) (e : BitVec 2) (k : BitVec 2)
  /-- R271: Writes a mask of lanes where vs equals vt. -/
  | vcmpEq (c : BitVec 2) (s : BitVec 5) (t : BitVec 5) (e : BitVec 2) (k : BitVec 2)
  /-- R271: Writes a mask of lanes where vs differs from vt. -/
  | vcmpNe (c : BitVec 2) (s : BitVec 5) (t : BitVec 5) (e : BitVec 2) (k : BitVec 2)
  /-- R271: Writes a mask of signed less-than lanes. -/
  | vcmpLt (c : BitVec 2) (s : BitVec 5) (t : BitVec 5) (e : BitVec 2) (k : BitVec 2)
  /-- R271: Writes a mask of signed greater-or-equal lanes. -/
  | vcmpGe (c : BitVec 2) (s : BitVec 5) (t : BitVec 5) (e : BitVec 2) (k : BitVec 2)
  /-- R271: Writes a mask of unsigned less-than lanes. -/
  | vcmpLtu (c : BitVec 2) (s : BitVec 5) (t : BitVec 5) (e : BitVec 2) (k : BitVec 2)
  /-- R271: Writes a mask of unsigned greater-or-equal lanes. -/
  | vcmpGeu (c : BitVec 2) (s : BitVec 5) (t : BitVec 5) (e : BitVec 2) (k : BitVec 2)
  /-- R271: Copies x[rs] into every enabled lane. -/
  | vsplat (d : BitVec 5) (s : BitVec 5) (e : BitVec 2) (k : BitVec 2)
  /-- R271: Extracts one lane into an x register. -/
  | vext (d : BitVec 5) (s : BitVec 5) (t : BitVec 5) (e : BitVec 2)
  /-- R271: Inserts x[rs] into one lane. -/
  | vins (d : BitVec 5) (s : BitVec 5) (t : BitVec 5) (e : BitVec 2)
  /-- R271: Copies a vector register. -/
  | vmv (d : BitVec 5) (s : BitVec 5) (e : BitVec 2) (k : BitVec 2)
  /-- R272: Lane-wise floating add. -/
  | vfadd (d : BitVec 5) (s : BitVec 5) (t : BitVec 5) (e : BitVec 2) (k : BitVec 2)
  /-- R272: Lane-wise floating subtract. -/
  | vfsub (d : BitVec 5) (s : BitVec 5) (t : BitVec 5) (e : BitVec 2) (k : BitVec 2)
  /-- R272: Lane-wise floating multiply. -/
  | vfmul (d : BitVec 5) (s : BitVec 5) (t : BitVec 5) (e : BitVec 2) (k : BitVec 2)
  /-- R272: Lane-wise floating divide. -/
  | vfdiv (d : BitVec 5) (s : BitVec 5) (t : BitVec 5) (e : BitVec 2) (k : BitVec 2)
  /-- R272: Lane-wise floating minimum. -/
  | vfmin (d : BitVec 5) (s : BitVec 5) (t : BitVec 5) (e : BitVec 2) (k : BitVec 2)
  /-- R272: Lane-wise floating maximum. -/
  | vfmax (d : BitVec 5) (s : BitVec 5) (t : BitVec 5) (e : BitVec 2) (k : BitVec 2)
  /-- R272: Lane-wise floating square root. -/
  | vfsqrt (d : BitVec 5) (s : BitVec 5) (e : BitVec 2) (k : BitVec 2)
  /-- R272: Lane-wise fused multiply-add into vd. -/
  | vfma (d : BitVec 5) (s : BitVec 5) (t : BitVec 5) (e : BitVec 2) (k : BitVec 2)
  /-- R272: Lane-wise fused vd minus product. -/
  | vfnms (d : BitVec 5) (s : BitVec 5) (t : BitVec 5) (e : BitVec 2) (k : BitVec 2)
  /-- R272: Writes a mask of floating-equal lanes. -/
  | vfcmpEq (c : BitVec 2) (s : BitVec 5) (t : BitVec 5) (e : BitVec 2) (k : BitVec 2)
  /-- R272: Writes a mask of floating less-than lanes. -/
  | vfcmpLt (c : BitVec 2) (s : BitVec 5) (t : BitVec 5) (e : BitVec 2) (k : BitVec 2)
  /-- R272: Writes a mask of floating less-or-equal lanes. -/
  | vfcmpLe (c : BitVec 2) (s : BitVec 5) (t : BitVec 5) (e : BitVec 2) (k : BitVec 2)
  /-- R274: Converts FP16 to FP32. -/
  | vcvtF32F16 (d : BitVec 5) (s : BitVec 5) (p : BitVec 2) (k : BitVec 2)
  /-- R274: Converts BF16 to FP32. -/
  | vcvtF32Bf16 (d : BitVec 5) (s : BitVec 5) (p : BitVec 2) (k : BitVec 2)
  /-- R274: Converts E4M3 to FP32. -/
  | vcvtF32E4m3 (d : BitVec 5) (s : BitVec 5) (p : BitVec 2) (k : BitVec 2)
  /-- R274: Converts E5M2 to FP32. -/
  | vcvtF32E5m2 (d : BitVec 5) (s : BitVec 5) (p : BitVec 2) (k : BitVec 2)
  /-- R274: Converts FP32 to FP16. -/
  | vcvtF16F32 (d : BitVec 5) (s : BitVec 5) (p : BitVec 2) (k : BitVec 2)
  /-- R274: Converts FP32 to BF16. -/
  | vcvtBf16F32 (d : BitVec 5) (s : BitVec 5) (p : BitVec 2) (k : BitVec 2)
  /-- R274: Converts FP32 to E4M3 without carry. -/
  | vcvtE4m3F32 (d : BitVec 5) (s : BitVec 5) (p : BitVec 2) (k : BitVec 2)
  /-- R274: Converts FP32 to E5M2. -/
  | vcvtE5m2F32 (d : BitVec 5) (s : BitVec 5) (p : BitVec 2) (k : BitVec 2)
  /-- R274: Converts FP32 to INT32, rounding to nearest. -/
  | vcvtI32F32 (d : BitVec 5) (s : BitVec 5) (p : BitVec 2) (k : BitVec 2)
  /-- R274: Converts FP32 to INT32, truncating. -/
  | vcvtI32F32Rtz (d : BitVec 5) (s : BitVec 5) (p : BitVec 2) (k : BitVec 2)
  /-- R274: Converts INT32 to FP32. -/
  | vcvtF32I32 (d : BitVec 5) (s : BitVec 5) (p : BitVec 2) (k : BitVec 2)
  /-- R274: Converts FP32 to UINT32, rounding to nearest. -/
  | vcvtUi32F32 (d : BitVec 5) (s : BitVec 5) (p : BitVec 2) (k : BitVec 2)
  /-- R274: Converts FP32 to UINT32, truncating. -/
  | vcvtUi32F32Rtz (d : BitVec 5) (s : BitVec 5) (p : BitVec 2) (k : BitVec 2)
  /-- R274: Converts UINT32 to FP32. -/
  | vcvtF32Ui32 (d : BitVec 5) (s : BitVec 5) (p : BitVec 2) (k : BitVec 2)
  /-- R274: Converts FP32 to INT8, rounding to nearest. -/
  | vcvtI8F32 (d : BitVec 5) (s : BitVec 5) (p : BitVec 2) (k : BitVec 2)
  /-- R274: Converts FP32 to INT8, truncating. -/
  | vcvtI8F32Rtz (d : BitVec 5) (s : BitVec 5) (p : BitVec 2) (k : BitVec 2)
  /-- R274: Converts INT8 to FP32. -/
  | vcvtF32I8 (d : BitVec 5) (s : BitVec 5) (p : BitVec 2) (k : BitVec 2)
  /-- R274: Converts FP32 to UQ0.8, rounding to nearest. -/
  | vcvtUq8F32 (d : BitVec 5) (s : BitVec 5) (p : BitVec 2) (k : BitVec 2)
  /-- R274: Converts FP32 to UQ0.8, truncating. -/
  | vcvtUq8F32Rtz (d : BitVec 5) (s : BitVec 5) (p : BitVec 2) (k : BitVec 2)
  /-- R274: Converts UQ0.8 to FP32. -/
  | vcvtF32Uq8 (d : BitVec 5) (s : BitVec 5) (p : BitVec 2) (k : BitVec 2)
  /-- R274: Converts FP32 to INT16, rounding to nearest. -/
  | vcvtI16F32 (d : BitVec 5) (s : BitVec 5) (p : BitVec 2) (k : BitVec 2)
  /-- R274: Converts FP32 to INT16, truncating. -/
  | vcvtI16F32Rtz (d : BitVec 5) (s : BitVec 5) (p : BitVec 2) (k : BitVec 2)
  /-- R274: Converts INT16 to FP32. -/
  | vcvtF32I16 (d : BitVec 5) (s : BitVec 5) (p : BitVec 2) (k : BitVec 2)
  /-- R274: Sign-extends INT8 to INT32. -/
  | vcvtI32I8 (d : BitVec 5) (s : BitVec 5) (p : BitVec 2) (k : BitVec 2)
  /-- R274: Saturates INT32 to INT8. -/
  | vcvtI8I32 (d : BitVec 5) (s : BitVec 5) (p : BitVec 2) (k : BitVec 2)
  /-- R274: Sign-extends INT16 to INT32. -/
  | vcvtI32I16 (d : BitVec 5) (s : BitVec 5) (p : BitVec 2) (k : BitVec 2)
  /-- R274: Saturates INT32 to INT16. -/
  | vcvtI16I32 (d : BitVec 5) (s : BitVec 5) (p : BitVec 2) (k : BitVec 2)
  /-- R274: Converts FP16 to E4M3. -/
  | vcvtE4m3F16 (d : BitVec 5) (s : BitVec 5) (p : BitVec 2) (k : BitVec 2)
  /-- R274: Converts E4M3 to FP16. -/
  | vcvtF16E4m3 (d : BitVec 5) (s : BitVec 5) (p : BitVec 2) (k : BitVec 2)
  /-- R275: Sets the supplied scale lanes of a residue register. -/
  | qsc (t : BitVec 5) (e : BitVec 2)
  /-- R275: Reads a residue register's status dword. -/
  | qstat (d : BitVec 5) (e : BitVec 2)
  /-- R275: Copies a residue register's carries into a vector. -/
  | qcar (d : BitVec 5) (e : BitVec 2)
  /-- R275: Resets a residue register to its task-start state. -/
  | qclr (e : BitVec 2)
  /-- R90: Adds the exponents of a vector to a residue register's histogram. -/
  | qhist (t : BitVec 5) (e : BitVec 2) (m : BitVec 3)
  /-- R93: Quantises 16 FP32 lanes to E4M3 with error carry and stores them. -/
  | qstE4m3 (d : BitVec 5) (s : BitVec 5) (t : BitVec 5) (e : BitVec 2) (m : BitVec 3)
  /-- R278: Sums the enabled lanes modulo 2^w. -/
  | vredsum (d : BitVec 5) (s : BitVec 5) (e : BitVec 2) (k : BitVec 2)
  /-- R278: Signed minimum of the enabled lanes. -/
  | vredmin (d : BitVec 5) (s : BitVec 5) (e : BitVec 2) (k : BitVec 2)
  /-- R278: Signed maximum of the enabled lanes. -/
  | vredmax (d : BitVec 5) (s : BitVec 5) (e : BitVec 2) (k : BitVec 2)
  /-- R278: Unsigned minimum of the enabled lanes. -/
  | vredminu (d : BitVec 5) (s : BitVec 5) (e : BitVec 2) (k : BitVec 2)
  /-- R278: Unsigned maximum of the enabled lanes. -/
  | vredmaxu (d : BitVec 5) (s : BitVec 5) (e : BitVec 2) (k : BitVec 2)
  /-- R278: Ordered FP32 sum of the enabled lanes. -/
  | vfredsum (d : BitVec 5) (s : BitVec 5) (k : BitVec 2)
  /-- R278: FP32 maximum of the enabled lanes. -/
  | vfredmax (d : BitVec 5) (s : BitVec 5) (k : BitVec 2)
  /-- R278: FP32 minimum of the enabled lanes. -/
  | vfredmin (d : BitVec 5) (s : BitVec 5) (k : BitVec 2)
  /-- R279: Permutes lanes of vs by the indices in vt. -/
  | vperm (d : BitVec 5) (s : BitVec 5) (t : BitVec 5) (e : BitVec 2) (k : BitVec 2)
  /-- R279: Slides lanes of vs by x[rt]. -/
  | vslide (d : BitVec 5) (s : BitVec 5) (t : BitVec 5) (e : BitVec 2) (k : BitVec 2)
  /-- R279: Packs the enabled lanes of vs into the low lanes. -/
  | vcomp (d : BitVec 5) (s : BitVec 5) (e : BitVec 2) (k : BitVec 2)
  /-- R279: Reverses the lanes of vs. -/
  | vrev (d : BitVec 5) (s : BitVec 5) (e : BitVec 2) (k : BitVec 2)
  /-- R280: Ands two mask registers. -/
  | kand (c : BitVec 2) (s : BitVec 2) (t : BitVec 2)
  /-- R280: Ors two mask registers. -/
  | kor (c : BitVec 2) (s : BitVec 2) (t : BitVec 2)
  /-- R280: Exclusive-ors two mask registers. -/
  | kxor (c : BitVec 2) (s : BitVec 2) (t : BitVec 2)
  /-- R280: Inverts a mask register. -/
  | knot (c : BitVec 2) (s : BitVec 2)
  /-- R280: Copies x[rs] into a mask register. -/
  | kfromx (c : BitVec 2) (s : BitVec 5)
  /-- R280: Copies a mask register into an x register. -/
  | ktox (d : BitVec 5) (s : BitVec 2)
  /-- R280: Counts the one bits of a mask register. -/
  | kpop (d : BitVec 5) (s : BitVec 2)
  /-- R176: Captures the next n instructions into the repetition buffer. -/
  | repOpen (n : BitVec 4)
  /-- R176: Reissues the captured sequence count times with stepped register fields. -/
  | repRun (s : BitVec 5) (t : BitVec 5) (p : BitVec 4)
  /-- R123: Loads a tensor map register from memory. -/
  | tmapLd (m : BitVec 3) (s : BitVec 5)
  /-- R282: Reads one dword of a tensor map. -/
  | tmapRd (d : BitVec 5) (n : BitVec 2) (m : BitVec 3)
  /-- R282: Replaces the BASE of a tensor map. -/
  | tmapMov (m : BitVec 3) (s : BitVec 5)
  /-- R158: Gang-issued load of a weight plane from sixteen maps. -/
  | gangWld (m : BitVec 3) (s : BitVec 5) (p : BitVec 3) (r : BitVec 2)
  /-- R159: Gang-issued matrix product of activation rows against weight planes. -/
  | gangMma (m : BitVec 3) (a : BitVec 2) (s : BitVec 5) (p : BitVec 3) (n : BitVec 3) (w : BitVec 6)
  /-- R162: Gang-issued registration of a managed matrix with hot rows on a plane. -/
  | hotReg (m : BitVec 3) (s : BitVec 5) (t : BitVec 5)
  /-- R165: Gang-issued migration instant on a managed plane. -/
  | hotMig (p : BitVec 3)
  /-- R166: Reads one firing counter of the group. -/
  | hotCnt (d : BitVec 5) (s : BitVec 5)
  /-- R161: After the sixteenth arrival the array takes the start step, reading every operand. -/
  | gangStart (g : Nat)
  /-- R161: The array writes tiles, ASTAT, counters and meters at completion. -/
  | gangCompletion (g : Nat)
  /-- R154: The sixteenth arrival has not come within 1,048,576 cycles; arrived cores trap 0x0C. -/
  | gangArrivalBound (g : Nat)
  /-- R165: Every AUTO-th operation the plane re-ranks rows, swaps hot rows and halves counters. -/
  | migrationInstant (g : Nat) (p : Nat)
  /-- R359: A polder unit errs or times out; cold rows are resent or the completion fails. -/
  | polderFailure (g : Nat) (stack : Nat) (u : Nat) (again : Bool)
  /-- R286: Loads one row of an accumulator tile. -/
  | accLd (n : BitVec 2) (s : BitVec 5) (r : BitVec 4)
  /-- R286: Stores one row of an accumulator tile. -/
  | accSt (n : BitVec 2) (s : BitVec 5) (r : BitVec 4)
  /-- R286: Zeroes an accumulator tile and clears INV. -/
  | accZero (n : BitVec 2)
  /-- R286: Fills an accumulator tile with x[rs][31:0]. -/
  | accFill (n : BitVec 2) (s : BitVec 5)
  /-- R286: Copies a tile row into a vector register. -/
  | accTov (n : BitVec 2) (v : BitVec 5) (r : BitVec 4)
  /-- R286: Copies a vector register into a tile row. -/
  | accFromv (n : BitVec 2) (v : BitVec 5) (r : BitVec 4)
  /-- R172: Issues a copy command to the engine block. -/
  | cpy (d : BitVec 5) (s : BitVec 5)
  /-- R172: Issues a gather command. -/
  | gth (d : BitVec 5) (s : BitVec 5)
  /-- R172: Issues a collective command. -/
  | coll (d : BitVec 5) (s : BitVec 5)
  /-- R174: Cancels an engine command and writes a status. -/
  | engCancel (d : BitVec 5) (s : BitVec 5)
  /-- R135: An engine reads a source granule or writes a destination granule. -/
  | engineAccess (sg : Nat) (e : Nat) (i : Nat)
  /-- R135: The command releases its lines and pins and writes its completion deposit. -/
  | engineCompletion (sg : Nat) (e : Nat)
  /-- R356: A command faults, stops writing, releases its lines and pins and writes a faulted deposit. -/
  | engineFault (sg : Nat) (e : Nat) (i : Nat)
  /-- R357: The marked place of an ill-formed command reaches the head and the queue halts. -/
  | engineQueueHalt (sg : Nat) (e : Nat)
  /-- R204: Any major 0x3F encoding executes as a no-operation. -/
  | hint (h : BitVec 25)
  /-- R206: Compressed addi rd, rd, imm. -/
  | cAddi (d : BitVec 5) (i : BitVec 6)
  /-- R206: Compressed addi rd, x0, imm. -/
  | cSet (d : BitVec 5) (i : BitVec 6)
  /-- R206: Compressed register move. -/
  | cMv (d : BitVec 5) (s : BitVec 5)
  /-- R206: Compressed add rd, rd, rs. -/
  | cAdd (d : BitVec 5) (s : BitVec 5)
  /-- R206: Compressed sub rd, rd, rs. -/
  | cSub (d : BitVec 5) (s : BitVec 5)
  /-- R206: Compressed and rd, rd, rs. -/
  | cAnd (d : BitVec 5) (s : BitVec 5)
  /-- R206: Compressed or rd, rd, rs. -/
  | cOr (d : BitVec 5) (s : BitVec 5)
  /-- R206: Compressed xor rd, rd, rs. -/
  | cXor (d : BitVec 5) (s : BitVec 5)
  /-- R206: Compressed slli rd, rd, n. -/
  | cSlli (d : BitVec 5) (n : BitVec 6)
  /-- R206: Compressed srli rd, rd, n. -/
  | cSrli (d : BitVec 5) (n : BitVec 6)
  /-- R206: Compressed dword load. -/
  | cLdD (d : BitVec 3) (s : BitVec 3) (o : BitVec 5)
  /-- R206: Compressed dword store. -/
  | cStD (d : BitVec 3) (s : BitVec 3) (o : BitVec 5)
  /-- R206: Compressed word load. -/
  | cLdW (d : BitVec 3) (s : BitVec 3) (o : BitVec 5)
  /-- R206: Compressed word store. -/
  | cStW (d : BitVec 3) (s : BitVec 3) (o : BitVec 5)
  /-- R206: Compressed branch if zero. -/
  | cBz (s : BitVec 3) (o : BitVec 8)
  /-- R206: Compressed branch if not zero. -/
  | cBnz (s : BitVec 3) (o : BitVec 8)
  /-- R206: Compressed jump x0, target. -/
  | cJump (o : BitVec 11)
  /-- R206: Compressed no-operation. -/
  | cNop
  /-- R206: Compressed task end. -/
  | cTaskEnd
  /-- R346: The 1,025th instruction since a safe point raises trap 0x20. -/
  | safePointBound (c : Nat) (st : Nat)
  /-- R33: An arriving message is accepted into the receive queue or refused. -/
  | messageArrival (i : Nat)
  /-- R34: A refusal reaches the sender and enters the refusal queue or is absorbed. -/
  | refusalArrival (i : Nat)
  /-- R33: The oldest queued message moves into a free run-queue slot. -/
  | messageDispatch (c : Nat)
  /-- R36: A free core selects the ready task of highest effective priority. -/
  | taskSelection (c : Nat)
  /-- R36: Each 4,096 cycles of waiting raises a task's effective priority by one. -/
  | ageing (c : Nat) (slot : Nat)
  /-- R102: Arrival data in a dormant context starts its handler task once a slot is free. -/
  | arrivalHandlerStart (c : Nat)
  /-- R34: A refused launch message is delivered again no sooner than 512 cycles later. -/
  | launchMessageRedelivery (i : Nat)
  /-- R47: When every launched task has ended, the pending entry frees and the completion word is incremented. -/
  | launchCompletion (die : Nat) (e : Nat)
  /-- R126: A store-buffer entry moves into its home's inbound queue. -/
  | drain (c : Nat) (i : Nat)
  /-- R126: The head of an inbound queue performs at its home. -/
  | perform (i : Nat)
  /-- R127: A load reads its bytes and labels from the store buffer or memory. -/
  | loadPerform (c : Nat) (st : Nat)
  /-- R105: An invalidated agent's acknowledgement reaches the home; the last grants exclusive ownership. -/
  | invalidationAcknowledgement (line : Nat) (agent : Nat)
  /-- R106: An L1 eviction notice reaches the home and updates or is discarded. -/
  | evictionNotice (line : Nat) (agent : Nat)
  /-- R106: A modified line's write-back reaches the home, which removes the agent. -/
  | writeBack (line : Nat) (agent : Nat)
  /-- R115: A pseudo-channel idle for 16,384 base-die cycles enters self-refresh. -/
  | selfRefresh (pch : Nat)
  /-- R117: A stalled stream retries its access once the translation service core writes the entry. -/
  | tlbMiss (c : Nat) (st : Nat) (entry : BitVec 8)
  /-- R119: An idle task's context ships to the home package once it accepts. -/
  | taskMigration (c : Nat)
  /-- R355: A home that does not answer a migration within 2^20 cycles makes the access remote. -/
  | migrationTimeout (c : Nat) (st : Nat)
  /-- R355: A remote access unanswered within 2^24 cycles raises cause 0x35. -/
  | remoteAccessTimeout (c : Nat) (st : Nat)
  /-- R335: A refused fault-handler message is sent again no sooner than 512 cycles later. -/
  | faultMessageResend (i : Nat)
  /-- R298: A host access to BAR2 is translated and issued by a host service core. -/
  | hostBar2Access (off : Nat) (write : Bool) (n : Nat) (data : List Byte)
  /-- R297: A host access to BAR4 reaches package scratchpad via a host service core. -/
  | hostBar4Access (off : Nat) (write : Bool) (n : Nat) (data : List Byte)
  /-- R298: Firmware fills the host translation cache and held BAR2 accesses proceed. -/
  | hostTranslationFill (entry : Nat)
  /-- R299: A write of LAUNCHh starts a host launch of a record. -/
  | hostLaunch (h : Nat) (v : Word)
  /-- R4: A host write to a BAR0 register with no behaviour of its own sets its RW fields. -/
  | registerWrite (off : Nat) (v : Word)
  /-- R302: A Giari message lands in a slot of its die and fires an armed launch or is refused. -/
  | giariMessageArrival (src : Nat) (tag : BitVec 16) (payload : List Byte)
  /-- R360: A link retrains and resumes from its replay buffer. -/
  | linkRetraining (l : Nat)
  /-- R360: Retraining fails within 240,000 cycles and the link goes down. -/
  | linkFailure (l : Nat)
  /-- R304: Reset; Bammos verifies the firmware image and meters resume. -/
  | powerOnReset (verified : Bool)
  /-- R304: After memory training the package enters reduced service. -/
  | reducedServiceEntry
  /-- R304: Firmware drains launches, flushes the cache to stack 0 and enters full service. -/
  | fullServiceTransition
  /-- R312: Every 1 ms firmware sets each die's clock state under PCAP and temperature. -/
  | clockStateUpdate (die : Nat) (clk : BitVec 2) (temp : BitVec 8) (power : BitVec 16)
  /-- R322: A meter rising 2^19 above its stored value triggers a checkpoint. -/
  | checkpointCount (stored : Bool)
  /-- R322: 1 s after the last stored checkpoint a checkpoint is taken. -/
  | checkpointTime (stored : Bool)
  /-- R322: A refused checkpoint is retried every 1 ms. -/
  | checkpointRetry (stored : Bool)
  /-- R308: Firmware request writing a frame descriptor and resetting the frame. -/
  | frameCreate (h : Nat)
  /-- R308: Firmware request resetting a frame. -/
  | frameReset (h : Nat)
  /-- R308: Firmware request returning a frame's descriptor, FSTAT and fault-queue descriptor. -/
  | frameRead (h : Nat)
  /-- R308: Firmware request setting a frame's fault-queue descriptor. -/
  | faultqSet (h : Nat)
  /-- R308: Firmware request loading a group's instruction store, routine tables and scratchpad. -/
  | imageLoad (h : Nat)
  /-- R308: Firmware request loading the eviction schedule. -/
  | evictLoad (h : Nat)
  /-- R308: Firmware request writing a die's SPILL once its sluice queues are empty. -/
  | spillSet (h : Nat)
  /-- R308: Firmware request writing a core's TVEC. -/
  | tvecSet (h : Nat)
  /-- R308: Firmware request binding a translation table and invalidating TLBs. -/
  | aspaceSet (h : Nat)
  /-- R308: Firmware request invalidating matching TLB entries. -/
  | tlbInvalidate (h : Nat)
  /-- R308: Firmware request resuming or flushing a halted engine queue. -/
  | engineRestart (h : Nat)
  /-- R308: Firmware request posting a pre-emption request to tasks of a core. -/
  | preempt (h : Nat)
  /-- R308: Firmware request registering a metered region. -/
  | regionRegister (h : Nat) (stored : Bool)
  /-- R308: Firmware request writing a signed meter statement. -/
  | regionRead (h : Nat)
  /-- R324: Firmware request checkpointing, writing a FINAL statement and removing a registration. -/
  | regionRetire (h : Nat) (stored : Bool)
  /-- R308: Firmware request writing a signed attestation report. -/
  | attestRequest (h : Nat)
  /-- R308: Firmware request checkpointing every meter. -/
  | checkpoint (h : Nat) (stored : Bool)
  /-- R308: Firmware request installing an image-signing key. -/
  | keyInstall (h : Nat) (stored : Bool)
  /-- R308: Firmware request copying the device certificate. -/
  | certRead (h : Nat)
  /-- R308: A request with code 0x00 or a reserved code does nothing and returns status 0xFE. -/
  | reservedRequestCode (h : Nat)
  /-- R311: Debug item 0 returns the registers of a halted task. -/
  | debugReadRegisters (h : Nat)
  /-- R311: Debug item 1 returns an accumulator tile and its ASTAT. -/
  | debugReadTile (h : Nat)
  /-- R311: Debug item 2 returns the stream queues' entries. -/
  | debugReadQueues (h : Nat)
  /-- R311: Debug item 3 returns a barrier tag's generation and arrivals. -/
  | debugReadBarrier (h : Nat)
  /-- R311: Debug item 4 returns all ringdike slots of a die in one cycle. -/
  | debugReadRingdike (h : Nat)
  /-- R311: Debug item 5 returns an engine queue's commands and halt state. -/
  | debugReadEngine (h : Nat)
  /-- R311: Debug item 6 returns the waiters of a sluice word. -/
  | debugReadWaitQueue (h : Nat)
  /-- R311: Debug item 7 returns a save store entry. -/
  | debugReadSaveStore (h : Nat)
  /-- R311: Debug item 8 returns a line's directory entry. -/
  | debugReadDirectory (h : Nat)
  /-- R311: Debug item 9 returns the core's trap registers. -/
  | debugReadTrapState (h : Nat)
  /-- R381: Debug item 10 writes a register of a halted task with a given handle. -/
  | debugWriteRegister (h : Nat)
  /-- R377: A write of HALT stops each stream of the selected core at its next boundary. -/
  | halt (c : Nat)
  /-- R376: A write of RESUME clears HALTED. -/
  | resume (c : Nat)
  /-- R376: With STEP set, the core halts again once each running stream retires one instruction. -/
  | stepHalt (c : Nat)
  /-- R377: The instruction at an enabled breakpoint is about to execute and the core halts. -/
  | breakpoint (c : Nat) (st : Nat)
  /-- R203: An encoding that names no instruction is fetched and decoded, and raises the illegal-instruction trap (0x01). -/
  | illegalInstruction (w : BitVec 32)
  /-- R303: A link replays flits from its replay buffer after an error, changing only latency. -/
  | flitReplay (l : Nat)
  /-- R323: Power is lost without orderly shutdown; all volatile state goes and the last stored checkpoint is left unclean. -/
  | powerLoss
  /-- R355: The home package's answer to a remotely served access arrives, completing the access or, if it refuses, raising cause 0x35. -/
  | remoteAccessReply (c : Nat) (st : Nat) (answer : Option (List Byte))
  /-- R100: An access from a Giari sender on another package arrives and is admitted by a window at system scope or refused back through the transport. -/
  | giariAccess (addr : Nat) (write : Bool) (n : Nat) (data : List Byte)
  /-- R119: A task context shipped from another package arrives, and the task continues on a core chosen by the firmware. -/
  | migratedTaskArrival (c : Nat) (ctx : List Word)
  /-- R225: A stream-port transfer's words arrive at the destination core and are written in order, judged against windows, with the closing marker acknowledged. -/
  | streamPortArrival (i : Nat)
  /-- R380: A debugger writes memory as a host request at system scope, invalidating holders of the line first; without data it reads `rd` bytes. -/
  | debugMemoryWrite (va : Nat) (data : List Byte)
  deriving DecidableEq, Repr

end Sys2Proof
end

