-- ==== Sys2Proof/WellFormed.lean ====
section
/-!
DEFINITION. What an encoding must meet beyond its fixed bits to name an instruction: vector fields below 16 (R200),
mask destinations other than k0 (R264, R270), the element codes a form accepts (R264, R267), PART below the ratio of
widths (R274), and an assigned state-register number (R229, R230).
-/

namespace Sys2Proof

/-- A register field names a vector register (R200). -/
def vreg (f : BitVec 5) : Bool := decide (f.toNat < 16)

/-- The state-register number is one that R230 assigns. -/
def assigned (r : BitVec 12) : Bool :=
  decide (r.toNat ≤ 0x00F) || (decide (0x020 ≤ r.toNat) && decide (r.toNat ≤ 0x025)) || r == 0x030#12
    || (decide (0x040 ≤ r.toNat) && decide (r.toNat ≤ 0x044)) || (decide (0x048 ≤ r.toNat) && decide (r.toNat ≤ 0x04B))
    || (decide (0x050 ≤ r.toNat) && decide (r.toNat ≤ 0x057)) || (decide (0x102 ≤ r.toNat) && decide (r.toNat ≤ 0x17F))

/-- The instruction is one that the encoding space assigns (R200-R202). Steps without an encoding meet it. -/
def wellFormed : Instr → Bool
  | .add _ _ _ => true
  | .sub _ _ _ => true
  | .xor _ _ _ => true
  | .andn _ _ _ => true
  | .orn _ _ _ => true
  | .xnor _ _ _ => true
  | .or _ _ _ => true
  | .and _ _ _ => true
  | .shl _ _ _ => true
  | .shr _ _ _ => true
  | .sar _ _ _ => true
  | .rotl _ _ _ => true
  | .rotr _ _ _ => true
  | .cmplt _ _ _ => true
  | .cmpltu _ _ _ => true
  | .cmpeq _ _ _ => true
  | .min _ _ _ => true
  | .max _ _ _ => true
  | .minu _ _ _ => true
  | .maxu _ _ _ => true
  | .clz _ _ => true
  | .ctz _ _ => true
  | .pop _ _ => true
  | .sextB _ _ => true
  | .sextH _ _ => true
  | .sextW _ _ => true
  | .zextB _ _ => true
  | .zextH _ _ => true
  | .zextW _ _ => true
  | .bswap _ _ => true
  | .bitrev _ _ => true
  | .mul _ _ _ => true
  | .mulxSs _ _ _ => true
  | .mulxUu _ _ _ => true
  | .mulxSu _ _ _ => true
  | .quot _ _ _ => true
  | .quotu _ _ _ => true
  | .remd _ _ _ => true
  | .remdu _ _ _ => true
  | .addi _ _ _ => true
  | .slli _ _ _ => true
  | .rotli _ _ _ => true
  | .cmplti _ _ _ => true
  | .cmpltiu _ _ _ => true
  | .xori _ _ _ => true
  | .srli _ _ _ => true
  | .srai _ _ _ => true
  | .rotri _ _ _ => true
  | .ori _ _ _ => true
  | .andi _ _ _ => true
  | .hiimm _ _ => true
  | .jump _ _ => true
  | .jr _ _ _ => true
  | .pcadd _ _ _ => true
  | .beq _ _ _ => true
  | .bne _ _ _ => true
  | .blt _ _ _ => true
  | .bge _ _ _ => true
  | .bltu _ _ _ => true
  | .bgeu _ _ _ => true
  | .loop _ _ _ => true
  | .loopi _ _ _ => true
  | .loopClr _ => true
  | .forkA _ => true
  | .qPut _ _ => true
  | .qGet _ _ => true
  | .qCnt _ _ => true
  | .msgSend _ _ => true
  | .spOpen _ _ => true
  | .spPut _ => true
  | .spClose _ => true
  | .taskEnd => true
  | .safept _ => true
  | .align _ => true
  | .alignBound _ => true
  | .srd _ r => assigned r
  | .swr _ r => assigned r
  | .phase => true
  | .tlbW _ _ _ => true
  | .tlbInv _ _ => true
  | .ldB _ _ _ => true
  | .ldH _ _ _ => true
  | .ldW _ _ _ => true
  | .ldD _ _ _ => true
  | .ldBu _ _ _ => true
  | .ldHu _ _ _ => true
  | .ldWu _ _ _ => true
  | .stB _ _ _ => true
  | .stH _ _ _ => true
  | .stW _ _ _ => true
  | .stD _ _ _ => true
  | .stDh _ _ _ => true
  | .fenceFull _ => true
  | .fenceRel _ => true
  | .fenceAcq _ => true
  | .mlive _ _ => true
  | .amoAddD _ _ _ => true
  | .amoAndD _ _ _ => true
  | .amoOrD _ _ _ => true
  | .amoXorD _ _ _ => true
  | .amoMinD _ _ _ => true
  | .amoMaxD _ _ _ => true
  | .amoSwapD _ _ _ => true
  | .amoCasD _ _ _ => true
  | .amoAddW _ _ _ => true
  | .amoAndW _ _ _ => true
  | .amoOrW _ _ _ => true
  | .amoXorW _ _ _ => true
  | .amoMinW _ _ _ => true
  | .amoMaxW _ _ _ => true
  | .amoSwapW _ _ _ => true
  | .amoCasW _ _ _ => true
  | .amoMinuD _ _ _ => true
  | .amoMaxuD _ _ _ => true
  | .amoMinuW _ _ _ => true
  | .amoMaxuW _ _ _ => true
  | .amoFadd _ _ _ => true
  | .syncLd _ _ => true
  | .syncAdd _ _ _ => true
  | .syncAnd _ _ _ => true
  | .syncOr _ _ _ => true
  | .syncXor _ _ _ => true
  | .syncSwap _ _ _ => true
  | .syncCas _ _ _ => true
  | .syncFadd _ _ _ => true
  | .syncMin _ _ _ => true
  | .syncMax _ _ _ => true
  | .syncMinu _ _ _ => true
  | .syncMaxu _ _ _ => true
  | .syncWait _ _ _ => true
  | .syncWake _ _ _ => true
  | .sluiceOperation _ => true
  | .barArrive _ => true
  | .barWait _ => true
  | .barrierRelease _ => true
  | .ringBoard _ _ _ => true
  | .ringCapRead _ _ _ => true
  | .ringCapAdd _ _ _ => true
  | .ringCapMin _ _ _ => true
  | .ringCapMax _ _ _ => true
  | .ringCapSwap _ _ _ => true
  | .ringCapCas _ _ _ => true
  | .ringAlight _ _ _ => true
  | .ringAction _ _ => true
  | .ringBoardTimeout _ _ => true
  | .ringAbsent _ _ => true
  | .lblAssume _ _ => true
  | .lblWith _ _ _ => true
  | .lblMerge _ _ _ => true
  | .lblGet _ _ => true
  | .lblVis _ _ => true
  | .lblNogood _ _ => true
  | .lblCtx _ _ => true
  | .nogoodCommit _ _ => true
  | .nogoodNotice _ _ => true
  | .launch _ _ => true
  | .arm _ _ _ => true
  | .disarm _ _ => true
  | .meterReg _ _ => true
  | .meterRead _ _ _ => true
  | .meterCkpt _ => true
  | .attest _ _ => true
  | .vld d _ _ _ => vreg d
  | .vst _ t _ _ => vreg t
  | .vlds d _ _ _ _ => vreg d
  | .vsts d _ _ _ _ => vreg d
  | .vgth d _ t e _ => vreg d && vreg t && (e == 0#2 || e == 3#2)
  | .vsct d _ t e _ => vreg d && vreg t && (e == 0#2 || e == 3#2)
  | .vbc d _ _ _ => vreg d
  | .vadd d s t _ _ => vreg d && vreg s && vreg t
  | .vsub d s t _ _ => vreg d && vreg s && vreg t
  | .vmul d s t _ _ => vreg d && vreg s && vreg t
  | .vmulh d s t _ _ => vreg d && vreg s && vreg t
  | .vmin d s t _ _ => vreg d && vreg s && vreg t
  | .vmax d s t _ _ => vreg d && vreg s && vreg t
  | .vminu d s t _ _ => vreg d && vreg s && vreg t
  | .vmaxu d s t _ _ => vreg d && vreg s && vreg t
  | .vadds d s t _ _ => vreg d && vreg s && vreg t
  | .vaddus d s t _ _ => vreg d && vreg s && vreg t
  | .vsubs d s t _ _ => vreg d && vreg s && vreg t
  | .vsubus d s t _ _ => vreg d && vreg s && vreg t
  | .vand d s t _ _ => vreg d && vreg s && vreg t
  | .vor d s t _ _ => vreg d && vreg s && vreg t
  | .vxor d s t _ _ => vreg d && vreg s && vreg t
  | .vandn d s t _ _ => vreg d && vreg s && vreg t
  | .vsll d s t _ _ => vreg d && vreg s && vreg t
  | .vsrl d s t _ _ => vreg d && vreg s && vreg t
  | .vsra d s t _ _ => vreg d && vreg s && vreg t
  | .vcmpEq c s t _ _ => vreg s && vreg t && c != 0#2
  | .vcmpNe c s t _ _ => vreg s && vreg t && c != 0#2
  | .vcmpLt c s t _ _ => vreg s && vreg t && c != 0#2
  | .vcmpGe c s t _ _ => vreg s && vreg t && c != 0#2
  | .vcmpLtu c s t _ _ => vreg s && vreg t && c != 0#2
  | .vcmpGeu c s t _ _ => vreg s && vreg t && c != 0#2
  | .vsplat d _ _ _ => vreg d
  | .vext _ s _ _ => vreg s
  | .vins d _ _ _ => vreg d
  | .vmv d s _ _ => vreg d && vreg s
  | .vfadd d s t e _ => vreg d && vreg s && vreg t && e != 3#2
  | .vfsub d s t e _ => vreg d && vreg s && vreg t && e != 3#2
  | .vfmul d s t e _ => vreg d && vreg s && vreg t && e != 3#2
  | .vfdiv d s t e _ => vreg d && vreg s && vreg t && e != 3#2
  | .vfmin d s t e _ => vreg d && vreg s && vreg t && e != 3#2
  | .vfmax d s t e _ => vreg d && vreg s && vreg t && e != 3#2
  | .vfsqrt d s e _ => vreg d && vreg s && e != 3#2
  | .vfma d s t e _ => vreg d && vreg s && vreg t && e != 3#2
  | .vfnms d s t e _ => vreg d && vreg s && vreg t && e != 3#2
  | .vfcmpEq c s t e _ => vreg s && vreg t && e != 3#2 && c != 0#2
  | .vfcmpLt c s t e _ => vreg s && vreg t && e != 3#2 && c != 0#2
  | .vfcmpLe c s t e _ => vreg s && vreg t && e != 3#2 && c != 0#2
  | .vcvtF32F16 d s p _ => vreg s && vreg d && decide (p.toNat < 2)
  | .vcvtF32Bf16 d s p _ => vreg s && vreg d && decide (p.toNat < 2)
  | .vcvtF32E4m3 d s p _ => vreg s && vreg d && decide (p.toNat < 4)
  | .vcvtF32E5m2 d s p _ => vreg s && vreg d && decide (p.toNat < 4)
  | .vcvtF16F32 d s p _ => vreg s && vreg d && decide (p.toNat < 2)
  | .vcvtBf16F32 d s p _ => vreg s && vreg d && decide (p.toNat < 2)
  | .vcvtE4m3F32 d s p _ => vreg s && vreg d && decide (p.toNat < 4)
  | .vcvtE5m2F32 d s p _ => vreg s && vreg d && decide (p.toNat < 4)
  | .vcvtI32F32 d s p _ => vreg s && vreg d && decide (p.toNat < 1)
  | .vcvtI32F32Rtz d s p _ => vreg s && vreg d && decide (p.toNat < 1)
  | .vcvtF32I32 d s p _ => vreg s && vreg d && decide (p.toNat < 1)
  | .vcvtUi32F32 d s p _ => vreg s && vreg d && decide (p.toNat < 1)
  | .vcvtUi32F32Rtz d s p _ => vreg s && vreg d && decide (p.toNat < 1)
  | .vcvtF32Ui32 d s p _ => vreg s && vreg d && decide (p.toNat < 1)
  | .vcvtI8F32 d s p _ => vreg s && vreg d && decide (p.toNat < 4)
  | .vcvtI8F32Rtz d s p _ => vreg s && vreg d && decide (p.toNat < 4)
  | .vcvtF32I8 d s p _ => vreg s && vreg d && decide (p.toNat < 4)
  | .vcvtUq8F32 d s p _ => vreg s && vreg d && decide (p.toNat < 4)
  | .vcvtUq8F32Rtz d s p _ => vreg s && vreg d && decide (p.toNat < 4)
  | .vcvtF32Uq8 d s p _ => vreg s && vreg d && decide (p.toNat < 4)
  | .vcvtI16F32 d s p _ => vreg s && vreg d && decide (p.toNat < 2)
  | .vcvtI16F32Rtz d s p _ => vreg s && vreg d && decide (p.toNat < 2)
  | .vcvtF32I16 d s p _ => vreg s && vreg d && decide (p.toNat < 2)
  | .vcvtI32I8 d s p _ => vreg s && vreg d && decide (p.toNat < 4)
  | .vcvtI8I32 d s p _ => vreg s && vreg d && decide (p.toNat < 4)
  | .vcvtI32I16 d s p _ => vreg s && vreg d && decide (p.toNat < 2)
  | .vcvtI16I32 d s p _ => vreg s && vreg d && decide (p.toNat < 2)
  | .vcvtE4m3F16 d s p _ => vreg s && vreg d && decide (p.toNat < 2)
  | .vcvtF16E4m3 d s p _ => vreg s && vreg d && decide (p.toNat < 2)
  | .qsc t _ => vreg t
  | .qstat _ _ => true
  | .qcar d _ => vreg d
  | .qclr _ => true
  | .qhist t _ _ => vreg t
  | .qstE4m3 _ _ t _ _ => vreg t
  | .vredsum _ s _ _ => vreg s
  | .vredmin _ s _ _ => vreg s
  | .vredmax _ s _ _ => vreg s
  | .vredminu _ s _ _ => vreg s
  | .vredmaxu _ s _ _ => vreg s
  | .vfredsum _ s _ => vreg s
  | .vfredmax _ s _ => vreg s
  | .vfredmin _ s _ => vreg s
  | .vperm d s t _ _ => vreg d && vreg s && vreg t
  | .vslide d s _ _ _ => vreg d && vreg s
  | .vcomp d s _ _ => vreg d && vreg s
  | .vrev d s _ _ => vreg d && vreg s
  | .kand c _ _ => c != 0#2
  | .kor c _ _ => c != 0#2
  | .kxor c _ _ => c != 0#2
  | .knot c _ => c != 0#2
  | .kfromx c _ => c != 0#2
  | .ktox _ _ => true
  | .kpop _ _ => true
  | .repOpen _ => true
  | .repRun _ _ _ => true
  | .tmapLd _ _ => true
  | .tmapRd _ _ _ => true
  | .tmapMov _ _ => true
  | .gangWld _ _ _ _ => true
  | .gangMma _ _ _ _ _ _ => true
  | .hotReg _ _ _ => true
  | .hotMig _ => true
  | .hotCnt _ _ => true
  | .gangStart _ => true
  | .gangCompletion _ => true
  | .gangArrivalBound _ => true
  | .migrationInstant _ _ => true
  | .polderFailure _ _ _ _ => true
  | .accLd _ _ _ => true
  | .accSt _ _ _ => true
  | .accZero _ => true
  | .accFill _ _ => true
  | .accTov _ v _ => vreg v
  | .accFromv _ v _ => vreg v
  | .cpy _ _ => true
  | .gth _ _ => true
  | .coll _ _ => true
  | .engCancel _ _ => true
  | .engineAccess _ _ _ => true
  | .engineCompletion _ _ => true
  | .engineFault _ _ _ => true
  | .engineQueueHalt _ _ => true
  | .hint _ => true
  | .cAddi _ _ => true
  | .cSet _ _ => true
  | .cMv _ _ => true
  | .cAdd _ _ => true
  | .cSub _ _ => true
  | .cAnd _ _ => true
  | .cOr _ _ => true
  | .cXor _ _ => true
  | .cSlli _ _ => true
  | .cSrli _ _ => true
  | .cLdD _ _ _ => true
  | .cStD _ _ _ => true
  | .cLdW _ _ _ => true
  | .cStW _ _ _ => true
  | .cBz _ _ => true
  | .cBnz _ _ => true
  | .cJump _ => true
  | .cNop => true
  | .cTaskEnd => true
  | .safePointBound _ _ => true
  | .messageArrival _ => true
  | .refusalArrival _ => true
  | .messageDispatch _ => true
  | .taskSelection _ => true
  | .ageing _ _ => true
  | .arrivalHandlerStart _ => true
  | .launchMessageRedelivery _ => true
  | .launchCompletion _ _ => true
  | .drain _ _ => true
  | .perform _ => true
  | .loadPerform _ _ => true
  | .invalidationAcknowledgement _ _ => true
  | .evictionNotice _ _ => true
  | .writeBack _ _ => true
  | .selfRefresh _ => true
  | .tlbMiss _ _ _ => true
  | .taskMigration _ => true
  | .migrationTimeout _ _ => true
  | .remoteAccessTimeout _ _ => true
  | .faultMessageResend _ => true
  | .hostBar2Access _ _ _ _ => true
  | .hostBar4Access _ _ _ _ => true
  | .hostTranslationFill _ => true
  | .hostLaunch _ _ => true
  | .registerWrite _ _ => true
  | .giariMessageArrival _ _ _ => true
  | .linkRetraining _ => true
  | .linkFailure _ => true
  | .powerOnReset _ => true
  | .reducedServiceEntry => true
  | .fullServiceTransition => true
  | .clockStateUpdate _ _ _ _ => true
  | .checkpointCount _ => true
  | .checkpointTime _ => true
  | .checkpointRetry _ => true
  | .frameCreate _ => true
  | .frameReset _ => true
  | .frameRead _ => true
  | .faultqSet _ => true
  | .imageLoad _ => true
  | .evictLoad _ => true
  | .spillSet _ => true
  | .tvecSet _ => true
  | .aspaceSet _ => true
  | .tlbInvalidate _ => true
  | .engineRestart _ => true
  | .preempt _ => true
  | .regionRegister _ _ => true
  | .regionRead _ => true
  | .regionRetire _ _ => true
  | .attestRequest _ => true
  | .checkpoint _ _ => true
  | .keyInstall _ _ => true
  | .certRead _ => true
  | .reservedRequestCode _ => true
  | .debugReadRegisters _ => true
  | .debugReadTile _ => true
  | .debugReadQueues _ => true
  | .debugReadBarrier _ => true
  | .debugReadRingdike _ => true
  | .debugReadEngine _ => true
  | .debugReadWaitQueue _ => true
  | .debugReadSaveStore _ => true
  | .debugReadDirectory _ => true
  | .debugReadTrapState _ => true
  | .debugWriteRegister _ => true
  | .halt _ => true
  | .resume _ => true
  | .stepHalt _ => true
  | .breakpoint _ _ => true
  | .illegalInstruction _ => true
  | .flitReplay _ => true
  | .powerLoss => true
  | .remoteAccessReply _ _ _ => true
  | .giariAccess _ _ _ _ => true
  | .migratedTaskArrival _ _ => true
  | .streamPortArrival _ => true
  | .debugMemoryWrite _ _ => true

end Sys2Proof
end

