-- ==== Sys2Proof/Decode.lean ====
section
/-!
DEFINITION. The decoder, from bytes to an instruction or a named rejection (R194, R203-R206), and the encoder, both
from the encoding tables of the spec (R198, R205, R209-R287). Lean compiles no term that builds a constructor with
fields past the 245th, so what builds an Instr stands in a noncomputable section; the kernel evaluates it all the same.
-/

namespace Sys2Proof

/-- Why bytes name no instruction. -/
inductive Reject where
  /-- The halfwords of the instruction are not all there (R195). -/
  | truncated
  /-- A 16-bit encoding that the compressed map does not assign (R196, R206). -/
  | compressed
  /-- A major opcode that owns no encoding (R204). -/
  | major
  /-- A minor code that the owning chapter does not assign, or a bit shown as 0 that is set (R201, R202). -/
  | minor
  /-- A field whose value the form excludes (R200, R201). -/
  | field
  deriving DecidableEq, Repr

/-- Bits [lo + len - 1 : lo] of an encoding. -/
def fld (w lo len : Nat) : Nat := w / 2 ^ lo % 2 ^ len

/-- The same bits as a field of that width. -/
def bf (w lo len : Nat) : BitVec len := BitVec.ofNat len (fld w lo len)

noncomputable section

/-- Major 0x01 (R210): the form, by f3 and the further fields that separate forms. -/
def decMajor01 (w : Nat) : Option Instr :=
  match fld w 17 3 with
  | 0 =>
    match fld w 25 7 with
    | 0 => some (.add (bf w 7 5) (bf w 12 5) (bf w 20 5))
    | 1 => some (.shl (bf w 7 5) (bf w 12 5) (bf w 20 5))
    | 2 => some (.min (bf w 7 5) (bf w 12 5) (bf w 20 5))
    | 3 => if fld w 20 5 = 0 then some (.sextB (bf w 7 5) (bf w 12 5)) else none
    | 4 => some (.mul (bf w 7 5) (bf w 12 5) (bf w 20 5))
    | 5 => some (.quot (bf w 7 5) (bf w 12 5) (bf w 20 5))
    | _ => none
  | 1 =>
    match fld w 25 7 with
    | 0 => some (.sub (bf w 7 5) (bf w 12 5) (bf w 20 5))
    | 1 => some (.shr (bf w 7 5) (bf w 12 5) (bf w 20 5))
    | 2 => some (.max (bf w 7 5) (bf w 12 5) (bf w 20 5))
    | 3 => if fld w 20 5 = 0 then some (.sextH (bf w 7 5) (bf w 12 5)) else none
    | 4 => some (.mulxSs (bf w 7 5) (bf w 12 5) (bf w 20 5))
    | 5 => some (.quotu (bf w 7 5) (bf w 12 5) (bf w 20 5))
    | _ => none
  | 2 =>
    match fld w 25 7 with
    | 0 => some (.xor (bf w 7 5) (bf w 12 5) (bf w 20 5))
    | 1 => some (.sar (bf w 7 5) (bf w 12 5) (bf w 20 5))
    | 2 => some (.minu (bf w 7 5) (bf w 12 5) (bf w 20 5))
    | 3 => if fld w 20 5 = 0 then some (.sextW (bf w 7 5) (bf w 12 5)) else none
    | 4 => some (.mulxUu (bf w 7 5) (bf w 12 5) (bf w 20 5))
    | 5 => some (.remd (bf w 7 5) (bf w 12 5) (bf w 20 5))
    | _ => none
  | 3 =>
    match fld w 25 7 with
    | 0 => some (.andn (bf w 7 5) (bf w 12 5) (bf w 20 5))
    | 1 => some (.rotl (bf w 7 5) (bf w 12 5) (bf w 20 5))
    | 2 => some (.maxu (bf w 7 5) (bf w 12 5) (bf w 20 5))
    | 3 => if fld w 20 5 = 0 then some (.zextB (bf w 7 5) (bf w 12 5)) else none
    | 4 => some (.mulxSu (bf w 7 5) (bf w 12 5) (bf w 20 5))
    | 5 => some (.remdu (bf w 7 5) (bf w 12 5) (bf w 20 5))
    | _ => none
  | 4 =>
    match fld w 25 7 with
    | 0 => some (.orn (bf w 7 5) (bf w 12 5) (bf w 20 5))
    | 1 => some (.rotr (bf w 7 5) (bf w 12 5) (bf w 20 5))
    | 2 => if fld w 20 5 = 0 then some (.clz (bf w 7 5) (bf w 12 5)) else none
    | 3 => if fld w 20 5 = 0 then some (.zextH (bf w 7 5) (bf w 12 5)) else none
    | _ => none
  | 5 =>
    match fld w 25 7 with
    | 0 => some (.xnor (bf w 7 5) (bf w 12 5) (bf w 20 5))
    | 1 => some (.cmplt (bf w 7 5) (bf w 12 5) (bf w 20 5))
    | 2 => if fld w 20 5 = 0 then some (.ctz (bf w 7 5) (bf w 12 5)) else none
    | 3 => if fld w 20 5 = 0 then some (.zextW (bf w 7 5) (bf w 12 5)) else none
    | _ => none
  | 6 =>
    match fld w 25 7 with
    | 0 => some (.or (bf w 7 5) (bf w 12 5) (bf w 20 5))
    | 1 => some (.cmpltu (bf w 7 5) (bf w 12 5) (bf w 20 5))
    | 2 => if fld w 20 5 = 0 then some (.pop (bf w 7 5) (bf w 12 5)) else none
    | 3 => if fld w 20 5 = 0 then some (.bswap (bf w 7 5) (bf w 12 5)) else none
    | _ => none
  | 7 =>
    match fld w 25 7 with
    | 0 => some (.and (bf w 7 5) (bf w 12 5) (bf w 20 5))
    | 1 => some (.cmpeq (bf w 7 5) (bf w 12 5) (bf w 20 5))
    | 3 => if fld w 20 5 = 0 then some (.bitrev (bf w 7 5) (bf w 12 5)) else none
    | _ => none
  | _ => none

/-- Major 0x02 (R211): the form, by f3 and the further fields that separate forms. -/
def decMajor02 (w : Nat) : Option Instr :=
  match fld w 17 3 with
  | 0 => some (.addi (bf w 7 5) (bf w 12 5) (bf w 20 12))
  | 1 =>
    match fld w 26 6 with
    | 0 => some (.slli (bf w 7 5) (bf w 12 5) (bf w 20 6))
    | 3 => some (.rotli (bf w 7 5) (bf w 12 5) (bf w 20 6))
    | _ => none
  | 2 => some (.cmplti (bf w 7 5) (bf w 12 5) (bf w 20 12))
  | 3 => some (.cmpltiu (bf w 7 5) (bf w 12 5) (bf w 20 12))
  | 4 => some (.xori (bf w 7 5) (bf w 12 5) (bf w 20 12))
  | 5 =>
    match fld w 26 6 with
    | 0 => some (.srli (bf w 7 5) (bf w 12 5) (bf w 20 6))
    | 1 => some (.srai (bf w 7 5) (bf w 12 5) (bf w 20 6))
    | 3 => some (.rotri (bf w 7 5) (bf w 12 5) (bf w 20 6))
    | _ => none
  | 6 => some (.ori (bf w 7 5) (bf w 12 5) (bf w 20 12))
  | 7 => some (.andi (bf w 7 5) (bf w 12 5) (bf w 20 12))
  | _ => none

/-- Major 0x05 (R214): the form, by f3 and the further fields that separate forms. -/
def decMajor05 (w : Nat) : Option Instr :=
  match fld w 17 3 with
  | 0 => some (.jr (bf w 7 5) (bf w 12 5) (bf w 20 12))
  | 1 => some (.pcadd (bf w 7 5) (bf w 12 5) (bf w 20 12))
  | _ => none

/-- Major 0x06 (R215): the form, by f3 and the further fields that separate forms. -/
def decMajor06 (w : Nat) : Option Instr :=
  match fld w 17 3 with
  | 0 => some (.beq (bf w 7 5) (bf w 12 5) (bf w 20 12))
  | 1 => some (.bne (bf w 7 5) (bf w 12 5) (bf w 20 12))
  | 2 => some (.blt (bf w 7 5) (bf w 12 5) (bf w 20 12))
  | 3 => some (.bge (bf w 7 5) (bf w 12 5) (bf w 20 12))
  | 4 => some (.bltu (bf w 7 5) (bf w 12 5) (bf w 20 12))
  | 5 => some (.bgeu (bf w 7 5) (bf w 12 5) (bf w 20 12))
  | _ => none

/-- Major 0x07 (R217): the form, by f3 and the further fields that separate forms. -/
def decMajor07 (w : Nat) : Option Instr :=
  match fld w 17 3 with
  | 0 => if fld w 8 4 = 0 then some (.loop (bf w 7 1) (bf w 12 5) (bf w 20 12)) else none
  | 1 => if fld w 8 4 = 0 then some (.loopi (bf w 7 1) (bf w 12 5) (bf w 20 12)) else none
  | 2 => if fld w 8 9 = 0 ∧ fld w 20 12 = 0 then some (.loopClr (bf w 7 1)) else none
  | _ => none

/-- Major 0x08 (R221, R222): the form, by f3 and the further fields that separate forms. -/
def decMajor08 (w : Nat) : Option Instr :=
  match fld w 17 3 with
  | 0 => if fld w 7 10 = 0 then some (.forkA (bf w 20 12)) else none
  | 1 => if fld w 7 5 = 0 ∧ fld w 22 10 = 0 then some (.qPut (bf w 12 5) (bf w 20 2)) else none
  | 2 => if fld w 12 5 = 0 ∧ fld w 22 10 = 0 then some (.qGet (bf w 7 5) (bf w 20 2)) else none
  | 3 => if fld w 12 5 = 0 ∧ fld w 22 10 = 0 then some (.qCnt (bf w 7 5) (bf w 20 2)) else none
  | _ => none

/-- Major 0x09 (R223, R225): the form, by f3 and the further fields that separate forms. -/
def decMajor09 (w : Nat) : Option Instr :=
  match fld w 17 3 with
  | 0 => if fld w 7 5 = 0 ∧ fld w 25 7 = 0 then some (.msgSend (bf w 12 5) (bf w 20 5)) else none
  | 1 => if fld w 7 5 = 0 ∧ fld w 25 7 = 0 then some (.spOpen (bf w 12 5) (bf w 20 5)) else none
  | 2 => if fld w 7 5 = 0 ∧ fld w 20 12 = 0 then some (.spPut (bf w 12 5)) else none
  | 3 => if fld w 12 5 = 0 ∧ fld w 20 12 = 0 then some (.spClose (bf w 7 5)) else none
  | _ => none

/-- Major 0x0A (R227, R228, R42): the form, by f3 and the further fields that separate forms. -/
def decMajor0A (w : Nat) : Option Instr :=
  match fld w 17 3 with
  | 0 => if fld w 7 10 = 0 ∧ fld w 20 12 = 0 then some (.taskEnd) else none
  | 1 => if fld w 7 5 = 0 ∧ fld w 20 12 = 0 then some (.safept (bf w 12 5)) else none
  | 2 => if fld w 7 10 = 0 then some (.align (bf w 20 12)) else none
  | _ => none

/-- Major 0x0B (R229, R235, R236): the form, by f3 and the further fields that separate forms. -/
def decMajor0B (w : Nat) : Option Instr :=
  match fld w 17 3 with
  | 0 => if fld w 12 5 = 0 then some (.srd (bf w 7 5) (bf w 20 12)) else none
  | 2 => if fld w 7 5 = 0 then some (.swr (bf w 12 5) (bf w 20 12)) else none
  | 3 => if fld w 7 10 = 0 ∧ fld w 20 12 = 0 then some (.phase) else none
  | 4 => if fld w 25 7 = 0 then some (.tlbW (bf w 7 5) (bf w 12 5) (bf w 20 5)) else none
  | 5 => if fld w 7 5 = 0 ∧ fld w 25 7 = 0 then some (.tlbInv (bf w 12 5) (bf w 20 5)) else none
  | _ => none

/-- Major 0x0C (R240): the form, by f3 and the further fields that separate forms. -/
def decMajor0C (w : Nat) : Option Instr :=
  match fld w 17 3 with
  | 0 => some (.ldB (bf w 7 5) (bf w 12 5) (bf w 20 12))
  | 1 => some (.ldH (bf w 7 5) (bf w 12 5) (bf w 20 12))
  | 2 => some (.ldW (bf w 7 5) (bf w 12 5) (bf w 20 12))
  | 3 => some (.ldD (bf w 7 5) (bf w 12 5) (bf w 20 12))
  | 4 => some (.ldBu (bf w 7 5) (bf w 12 5) (bf w 20 12))
  | 5 => some (.ldHu (bf w 7 5) (bf w 12 5) (bf w 20 12))
  | 6 => some (.ldWu (bf w 7 5) (bf w 12 5) (bf w 20 12))
  | _ => none

/-- Major 0x0D (R242, R243): the form, by f3 and the further fields that separate forms. -/
def decMajor0D (w : Nat) : Option Instr :=
  match fld w 17 3 with
  | 0 => some (.stB (bf w 7 5) (bf w 12 5) (bf w 20 12))
  | 1 => some (.stH (bf w 7 5) (bf w 12 5) (bf w 20 12))
  | 2 => some (.stW (bf w 7 5) (bf w 12 5) (bf w 20 12))
  | 3 => some (.stD (bf w 7 5) (bf w 12 5) (bf w 20 12))
  | 4 => some (.stDh (bf w 7 5) (bf w 12 5) (bf w 20 12))
  | _ => none

/-- Major 0x0E (R245, R246): the form, by f3 and the further fields that separate forms. -/
def decMajor0E (w : Nat) : Option Instr :=
  match fld w 17 3 with
  | 0 => if fld w 7 10 = 0 ∧ fld w 23 9 = 0 then some (.fenceFull (bf w 20 3)) else none
  | 1 => if fld w 7 10 = 0 ∧ fld w 23 9 = 0 then some (.fenceRel (bf w 20 3)) else none
  | 2 => if fld w 7 10 = 0 ∧ fld w 23 9 = 0 then some (.fenceAcq (bf w 20 3)) else none
  | 3 => if fld w 7 5 = 0 ∧ fld w 25 7 = 0 then some (.mlive (bf w 12 5) (bf w 20 5)) else none
  | _ => none

/-- Major 0x0F (R152, R248): the form, by f3 and the further fields that separate forms. -/
def decMajor0F (w : Nat) : Option Instr :=
  match fld w 17 3 with
  | 0 =>
    match fld w 25 7 with
    | 0 => some (.amoAddD (bf w 7 5) (bf w 12 5) (bf w 20 5))
    | 1 => some (.amoAddW (bf w 7 5) (bf w 12 5) (bf w 20 5))
    | 4 => some (.amoFadd (bf w 7 5) (bf w 12 5) (bf w 20 5))
    | _ => none
  | 1 =>
    match fld w 25 7 with
    | 0 => some (.amoAndD (bf w 7 5) (bf w 12 5) (bf w 20 5))
    | 1 => some (.amoAndW (bf w 7 5) (bf w 12 5) (bf w 20 5))
    | _ => none
  | 2 =>
    match fld w 25 7 with
    | 0 => some (.amoOrD (bf w 7 5) (bf w 12 5) (bf w 20 5))
    | 1 => some (.amoOrW (bf w 7 5) (bf w 12 5) (bf w 20 5))
    | _ => none
  | 3 =>
    match fld w 25 7 with
    | 0 => some (.amoXorD (bf w 7 5) (bf w 12 5) (bf w 20 5))
    | 1 => some (.amoXorW (bf w 7 5) (bf w 12 5) (bf w 20 5))
    | _ => none
  | 4 =>
    match fld w 25 7 with
    | 0 => some (.amoMinD (bf w 7 5) (bf w 12 5) (bf w 20 5))
    | 1 => some (.amoMinW (bf w 7 5) (bf w 12 5) (bf w 20 5))
    | 2 => some (.amoMinuD (bf w 7 5) (bf w 12 5) (bf w 20 5))
    | 3 => some (.amoMinuW (bf w 7 5) (bf w 12 5) (bf w 20 5))
    | _ => none
  | 5 =>
    match fld w 25 7 with
    | 0 => some (.amoMaxD (bf w 7 5) (bf w 12 5) (bf w 20 5))
    | 1 => some (.amoMaxW (bf w 7 5) (bf w 12 5) (bf w 20 5))
    | 2 => some (.amoMaxuD (bf w 7 5) (bf w 12 5) (bf w 20 5))
    | 3 => some (.amoMaxuW (bf w 7 5) (bf w 12 5) (bf w 20 5))
    | _ => none
  | 6 =>
    match fld w 25 7 with
    | 0 => some (.amoSwapD (bf w 7 5) (bf w 12 5) (bf w 20 5))
    | 1 => some (.amoSwapW (bf w 7 5) (bf w 12 5) (bf w 20 5))
    | _ => none
  | 7 =>
    match fld w 25 7 with
    | 0 => some (.amoCasD (bf w 7 5) (bf w 12 5) (bf w 20 5))
    | 1 => some (.amoCasW (bf w 7 5) (bf w 12 5) (bf w 20 5))
    | _ => none
  | _ => none

/-- Major 0x10 (R149, R151): the form, by f3 and the further fields that separate forms. -/
def decMajor10 (w : Nat) : Option Instr :=
  match fld w 17 3 with
  | 0 =>
    match fld w 25 7 with
    | 0 => if fld w 20 5 = 0 then some (.syncLd (bf w 7 5) (bf w 12 5)) else none
    | 1 => some (.syncMin (bf w 7 5) (bf w 12 5) (bf w 20 5))
    | _ => none
  | 1 =>
    match fld w 25 7 with
    | 0 => some (.syncAdd (bf w 7 5) (bf w 12 5) (bf w 20 5))
    | 1 => some (.syncMax (bf w 7 5) (bf w 12 5) (bf w 20 5))
    | _ => none
  | 2 =>
    match fld w 25 7 with
    | 0 => some (.syncAnd (bf w 7 5) (bf w 12 5) (bf w 20 5))
    | 1 => some (.syncMinu (bf w 7 5) (bf w 12 5) (bf w 20 5))
    | _ => none
  | 3 =>
    match fld w 25 7 with
    | 0 => some (.syncOr (bf w 7 5) (bf w 12 5) (bf w 20 5))
    | 1 => some (.syncMaxu (bf w 7 5) (bf w 12 5) (bf w 20 5))
    | _ => none
  | 4 =>
    match fld w 25 7 with
    | 0 => some (.syncXor (bf w 7 5) (bf w 12 5) (bf w 20 5))
    | 1 => some (.syncWait (bf w 7 5) (bf w 12 5) (bf w 20 5))
    | _ => none
  | 5 =>
    match fld w 25 7 with
    | 0 => some (.syncSwap (bf w 7 5) (bf w 12 5) (bf w 20 5))
    | 1 => some (.syncWake (bf w 7 5) (bf w 12 5) (bf w 20 5))
    | _ => none
  | 6 => if fld w 25 7 = 0 then some (.syncCas (bf w 7 5) (bf w 12 5) (bf w 20 5)) else none
  | 7 => if fld w 25 7 = 0 then some (.syncFadd (bf w 7 5) (bf w 12 5) (bf w 20 5)) else none
  | _ => none

/-- Major 0x11 (R153): the form, by f3 and the further fields that separate forms. -/
def decMajor11 (w : Nat) : Option Instr :=
  match fld w 17 3 with
  | 0 => if fld w 7 10 = 0 ∧ fld w 23 9 = 0 then some (.barArrive (bf w 20 3)) else none
  | 1 => if fld w 7 10 = 0 ∧ fld w 23 9 = 0 then some (.barWait (bf w 20 3)) else none
  | _ => none

/-- Major 0x12 (R145, R147): the form, by f3 and the further fields that separate forms. -/
def decMajor12 (w : Nat) : Option Instr :=
  match fld w 17 3 with
  | 0 => if fld w 25 7 = 0 then some (.ringBoard (bf w 7 5) (bf w 12 5) (bf w 20 5)) else none
  | 1 =>
    match fld w 25 7 with
    | 0 => some (.ringCapRead (bf w 7 5) (bf w 12 5) (bf w 20 5))
    | 1 => some (.ringCapAdd (bf w 7 5) (bf w 12 5) (bf w 20 5))
    | 2 => some (.ringCapMin (bf w 7 5) (bf w 12 5) (bf w 20 5))
    | 3 => some (.ringCapMax (bf w 7 5) (bf w 12 5) (bf w 20 5))
    | 4 => some (.ringCapSwap (bf w 7 5) (bf w 12 5) (bf w 20 5))
    | 5 => some (.ringCapCas (bf w 7 5) (bf w 12 5) (bf w 20 5))
    | _ => none
  | 2 => if fld w 25 7 = 0 then some (.ringAlight (bf w 7 5) (bf w 12 5) (bf w 20 5)) else none
  | _ => none

/-- Major 0x13 (R72, R77): the form, by f3 and the further fields that separate forms. -/
def decMajor13 (w : Nat) : Option Instr :=
  match fld w 17 3 with
  | 0 => if fld w 12 5 = 0 ∧ fld w 26 6 = 0 then some (.lblAssume (bf w 7 5) (bf w 20 6)) else none
  | 1 => if fld w 25 7 = 0 then some (.lblWith (bf w 7 5) (bf w 12 5) (bf w 20 5)) else none
  | 2 => if fld w 25 7 = 0 then some (.lblMerge (bf w 7 5) (bf w 12 5) (bf w 20 5)) else none
  | 3 => if fld w 20 12 = 0 then some (.lblGet (bf w 7 5) (bf w 12 5)) else none
  | 4 => if fld w 20 12 = 0 then some (.lblVis (bf w 7 5) (bf w 12 5)) else none
  | 5 => if fld w 20 12 = 0 then some (.lblNogood (bf w 7 5) (bf w 12 5)) else none
  | 6 => if fld w 20 12 = 0 then some (.lblCtx (bf w 7 5) (bf w 12 5)) else none
  | _ => none

/-- Major 0x14 (R256, R257): the form, by f3 and the further fields that separate forms. -/
def decMajor14 (w : Nat) : Option Instr :=
  match fld w 17 3 with
  | 0 => if fld w 20 12 = 0 then some (.launch (bf w 7 5) (bf w 12 5)) else none
  | 1 => if fld w 25 7 = 0 then some (.arm (bf w 7 5) (bf w 12 5) (bf w 20 5)) else none
  | 2 => if fld w 12 5 = 0 ∧ fld w 25 7 = 0 then some (.disarm (bf w 7 5) (bf w 20 5)) else none
  | _ => none

/-- Major 0x15 (R261, R262, R263): the form, by f3 and the further fields that separate forms. -/
def decMajor15 (w : Nat) : Option Instr :=
  match fld w 17 3 with
  | 0 => if fld w 20 12 = 0 then some (.meterReg (bf w 7 5) (bf w 12 5)) else none
  | 1 => if fld w 25 7 = 0 then some (.meterRead (bf w 7 5) (bf w 12 5) (bf w 20 5)) else none
  | 2 => if fld w 12 5 = 0 ∧ fld w 20 12 = 0 then some (.meterCkpt (bf w 7 5)) else none
  | 3 => if fld w 20 12 = 0 then some (.attest (bf w 7 5) (bf w 12 5)) else none
  | _ => none

/-- Major 0x16 (R268): the form, by f3 and the further fields that separate forms. -/
def decMajor16 (w : Nat) : Option Instr :=
  match fld w 17 3 with
  | 0 => if fld w 20 5 = 0 ∧ fld w 27 3 = 0 then some (.vld (bf w 7 5) (bf w 12 5) (bf w 25 2) (bf w 30 2)) else none
  | 1 => if fld w 7 5 = 0 ∧ fld w 27 3 = 0 then some (.vst (bf w 12 5) (bf w 20 5) (bf w 25 2) (bf w 30 2)) else none
  | 2 => if fld w 27 3 = 0 then some (.vlds (bf w 7 5) (bf w 12 5) (bf w 20 5) (bf w 25 2) (bf w 30 2)) else none
  | 3 => if fld w 27 3 = 0 then some (.vsts (bf w 7 5) (bf w 12 5) (bf w 20 5) (bf w 25 2) (bf w 30 2)) else none
  | 4 => if fld w 27 3 = 0 then some (.vgth (bf w 7 5) (bf w 12 5) (bf w 20 5) (bf w 25 2) (bf w 30 2)) else none
  | 5 => if fld w 27 3 = 0 then some (.vsct (bf w 7 5) (bf w 12 5) (bf w 20 5) (bf w 25 2) (bf w 30 2)) else none
  | 6 => if fld w 20 5 = 0 ∧ fld w 27 3 = 0 then some (.vbc (bf w 7 5) (bf w 12 5) (bf w 25 2) (bf w 30 2)) else none
  | _ => none

/-- Major 0x17 (R271): the form, by f3 and the further fields that separate forms. -/
def decMajor17 (w : Nat) : Option Instr :=
  match fld w 17 3 with
  | 0 =>
    match fld w 27 3 with
    | 0 => some (.vadd (bf w 7 5) (bf w 12 5) (bf w 20 5) (bf w 25 2) (bf w 30 2))
    | 1 => some (.vsub (bf w 7 5) (bf w 12 5) (bf w 20 5) (bf w 25 2) (bf w 30 2))
    | 2 => some (.vmul (bf w 7 5) (bf w 12 5) (bf w 20 5) (bf w 25 2) (bf w 30 2))
    | 3 => some (.vmulh (bf w 7 5) (bf w 12 5) (bf w 20 5) (bf w 25 2) (bf w 30 2))
    | 4 => some (.vmin (bf w 7 5) (bf w 12 5) (bf w 20 5) (bf w 25 2) (bf w 30 2))
    | 5 => some (.vmax (bf w 7 5) (bf w 12 5) (bf w 20 5) (bf w 25 2) (bf w 30 2))
    | 6 => some (.vminu (bf w 7 5) (bf w 12 5) (bf w 20 5) (bf w 25 2) (bf w 30 2))
    | 7 => some (.vmaxu (bf w 7 5) (bf w 12 5) (bf w 20 5) (bf w 25 2) (bf w 30 2))
    | _ => none
  | 1 =>
    match fld w 27 3 with
    | 0 => some (.vadds (bf w 7 5) (bf w 12 5) (bf w 20 5) (bf w 25 2) (bf w 30 2))
    | 1 => some (.vaddus (bf w 7 5) (bf w 12 5) (bf w 20 5) (bf w 25 2) (bf w 30 2))
    | 2 => some (.vsubs (bf w 7 5) (bf w 12 5) (bf w 20 5) (bf w 25 2) (bf w 30 2))
    | 3 => some (.vsubus (bf w 7 5) (bf w 12 5) (bf w 20 5) (bf w 25 2) (bf w 30 2))
    | _ => none
  | 2 =>
    match fld w 27 3 with
    | 0 => some (.vand (bf w 7 5) (bf w 12 5) (bf w 20 5) (bf w 25 2) (bf w 30 2))
    | 1 => some (.vor (bf w 7 5) (bf w 12 5) (bf w 20 5) (bf w 25 2) (bf w 30 2))
    | 2 => some (.vxor (bf w 7 5) (bf w 12 5) (bf w 20 5) (bf w 25 2) (bf w 30 2))
    | 3 => some (.vandn (bf w 7 5) (bf w 12 5) (bf w 20 5) (bf w 25 2) (bf w 30 2))
    | _ => none
  | 3 =>
    match fld w 27 3 with
    | 0 => some (.vsll (bf w 7 5) (bf w 12 5) (bf w 20 5) (bf w 25 2) (bf w 30 2))
    | 1 => some (.vsrl (bf w 7 5) (bf w 12 5) (bf w 20 5) (bf w 25 2) (bf w 30 2))
    | 2 => some (.vsra (bf w 7 5) (bf w 12 5) (bf w 20 5) (bf w 25 2) (bf w 30 2))
    | _ => none
  | 4 =>
    match fld w 27 3 with
    | 0 => if fld w 9 3 = 0 then some (.vcmpEq (bf w 7 2) (bf w 12 5) (bf w 20 5) (bf w 25 2) (bf w 30 2)) else none
    | 1 => if fld w 9 3 = 0 then some (.vcmpNe (bf w 7 2) (bf w 12 5) (bf w 20 5) (bf w 25 2) (bf w 30 2)) else none
    | 2 => if fld w 9 3 = 0 then some (.vcmpLt (bf w 7 2) (bf w 12 5) (bf w 20 5) (bf w 25 2) (bf w 30 2)) else none
    | 3 => if fld w 9 3 = 0 then some (.vcmpGe (bf w 7 2) (bf w 12 5) (bf w 20 5) (bf w 25 2) (bf w 30 2)) else none
    | 4 => if fld w 9 3 = 0 then some (.vcmpLtu (bf w 7 2) (bf w 12 5) (bf w 20 5) (bf w 25 2) (bf w 30 2)) else none
    | 5 => if fld w 9 3 = 0 then some (.vcmpGeu (bf w 7 2) (bf w 12 5) (bf w 20 5) (bf w 25 2) (bf w 30 2)) else none
    | _ => none
  | 5 =>
    match fld w 27 3 with
    | 0 => if fld w 20 5 = 0 then some (.vsplat (bf w 7 5) (bf w 12 5) (bf w 25 2) (bf w 30 2)) else none
    | 1 => if fld w 30 2 = 0 then some (.vext (bf w 7 5) (bf w 12 5) (bf w 20 5) (bf w 25 2)) else none
    | 2 => if fld w 30 2 = 0 then some (.vins (bf w 7 5) (bf w 12 5) (bf w 20 5) (bf w 25 2)) else none
    | 3 => if fld w 20 5 = 0 then some (.vmv (bf w 7 5) (bf w 12 5) (bf w 25 2) (bf w 30 2)) else none
    | _ => none
  | _ => none

/-- Major 0x18 (R272): the form, by f3 and the further fields that separate forms. -/
def decMajor18 (w : Nat) : Option Instr :=
  match fld w 17 3 with
  | 0 =>
    match fld w 27 3 with
    | 0 => some (.vfadd (bf w 7 5) (bf w 12 5) (bf w 20 5) (bf w 25 2) (bf w 30 2))
    | 1 => some (.vfsub (bf w 7 5) (bf w 12 5) (bf w 20 5) (bf w 25 2) (bf w 30 2))
    | 2 => some (.vfmul (bf w 7 5) (bf w 12 5) (bf w 20 5) (bf w 25 2) (bf w 30 2))
    | 3 => some (.vfdiv (bf w 7 5) (bf w 12 5) (bf w 20 5) (bf w 25 2) (bf w 30 2))
    | 4 => some (.vfmin (bf w 7 5) (bf w 12 5) (bf w 20 5) (bf w 25 2) (bf w 30 2))
    | 5 => some (.vfmax (bf w 7 5) (bf w 12 5) (bf w 20 5) (bf w 25 2) (bf w 30 2))
    | 6 => if fld w 20 5 = 0 then some (.vfsqrt (bf w 7 5) (bf w 12 5) (bf w 25 2) (bf w 30 2)) else none
    | _ => none
  | 1 =>
    match fld w 27 3 with
    | 0 => some (.vfma (bf w 7 5) (bf w 12 5) (bf w 20 5) (bf w 25 2) (bf w 30 2))
    | 1 => some (.vfnms (bf w 7 5) (bf w 12 5) (bf w 20 5) (bf w 25 2) (bf w 30 2))
    | _ => none
  | 2 =>
    match fld w 27 3 with
    | 0 => if fld w 9 3 = 0 then some (.vfcmpEq (bf w 7 2) (bf w 12 5) (bf w 20 5) (bf w 25 2) (bf w 30 2)) else none
    | 1 => if fld w 9 3 = 0 then some (.vfcmpLt (bf w 7 2) (bf w 12 5) (bf w 20 5) (bf w 25 2) (bf w 30 2)) else none
    | 2 => if fld w 9 3 = 0 then some (.vfcmpLe (bf w 7 2) (bf w 12 5) (bf w 20 5) (bf w 25 2) (bf w 30 2)) else none
    | _ => none
  | _ => none

/-- Major 0x19 (R274, R275, R90, R93): the form, by f3 and the further fields that separate forms. -/
def decMajor19 (w : Nat) : Option Instr :=
  match fld w 17 3 with
  | 0 =>
    match fld w 25 5 with
    | 0 => if fld w 22 3 = 0 then some (.vcvtF32F16 (bf w 7 5) (bf w 12 5) (bf w 20 2) (bf w 30 2)) else none
    | 1 => if fld w 22 3 = 0 then some (.vcvtF32Bf16 (bf w 7 5) (bf w 12 5) (bf w 20 2) (bf w 30 2)) else none
    | 2 => if fld w 22 3 = 0 then some (.vcvtF32E4m3 (bf w 7 5) (bf w 12 5) (bf w 20 2) (bf w 30 2)) else none
    | 3 => if fld w 22 3 = 0 then some (.vcvtF32E5m2 (bf w 7 5) (bf w 12 5) (bf w 20 2) (bf w 30 2)) else none
    | 4 => if fld w 22 3 = 0 then some (.vcvtF16F32 (bf w 7 5) (bf w 12 5) (bf w 20 2) (bf w 30 2)) else none
    | 5 => if fld w 22 3 = 0 then some (.vcvtBf16F32 (bf w 7 5) (bf w 12 5) (bf w 20 2) (bf w 30 2)) else none
    | 6 => if fld w 22 3 = 0 then some (.vcvtE4m3F32 (bf w 7 5) (bf w 12 5) (bf w 20 2) (bf w 30 2)) else none
    | 7 => if fld w 22 3 = 0 then some (.vcvtE5m2F32 (bf w 7 5) (bf w 12 5) (bf w 20 2) (bf w 30 2)) else none
    | 8 => if fld w 22 3 = 0 then some (.vcvtI32F32 (bf w 7 5) (bf w 12 5) (bf w 20 2) (bf w 30 2)) else none
    | 9 => if fld w 22 3 = 0 then some (.vcvtI32F32Rtz (bf w 7 5) (bf w 12 5) (bf w 20 2) (bf w 30 2)) else none
    | 10 => if fld w 22 3 = 0 then some (.vcvtF32I32 (bf w 7 5) (bf w 12 5) (bf w 20 2) (bf w 30 2)) else none
    | 11 => if fld w 22 3 = 0 then some (.vcvtUi32F32 (bf w 7 5) (bf w 12 5) (bf w 20 2) (bf w 30 2)) else none
    | 12 => if fld w 22 3 = 0 then some (.vcvtUi32F32Rtz (bf w 7 5) (bf w 12 5) (bf w 20 2) (bf w 30 2)) else none
    | 13 => if fld w 22 3 = 0 then some (.vcvtF32Ui32 (bf w 7 5) (bf w 12 5) (bf w 20 2) (bf w 30 2)) else none
    | 14 => if fld w 22 3 = 0 then some (.vcvtI8F32 (bf w 7 5) (bf w 12 5) (bf w 20 2) (bf w 30 2)) else none
    | 15 => if fld w 22 3 = 0 then some (.vcvtI8F32Rtz (bf w 7 5) (bf w 12 5) (bf w 20 2) (bf w 30 2)) else none
    | 16 => if fld w 22 3 = 0 then some (.vcvtF32I8 (bf w 7 5) (bf w 12 5) (bf w 20 2) (bf w 30 2)) else none
    | 17 => if fld w 22 3 = 0 then some (.vcvtUq8F32 (bf w 7 5) (bf w 12 5) (bf w 20 2) (bf w 30 2)) else none
    | 18 => if fld w 22 3 = 0 then some (.vcvtUq8F32Rtz (bf w 7 5) (bf w 12 5) (bf w 20 2) (bf w 30 2)) else none
    | 19 => if fld w 22 3 = 0 then some (.vcvtF32Uq8 (bf w 7 5) (bf w 12 5) (bf w 20 2) (bf w 30 2)) else none
    | 20 => if fld w 22 3 = 0 then some (.vcvtI16F32 (bf w 7 5) (bf w 12 5) (bf w 20 2) (bf w 30 2)) else none
    | 21 => if fld w 22 3 = 0 then some (.vcvtI16F32Rtz (bf w 7 5) (bf w 12 5) (bf w 20 2) (bf w 30 2)) else none
    | 22 => if fld w 22 3 = 0 then some (.vcvtF32I16 (bf w 7 5) (bf w 12 5) (bf w 20 2) (bf w 30 2)) else none
    | 23 => if fld w 22 3 = 0 then some (.vcvtI32I8 (bf w 7 5) (bf w 12 5) (bf w 20 2) (bf w 30 2)) else none
    | 24 => if fld w 22 3 = 0 then some (.vcvtI8I32 (bf w 7 5) (bf w 12 5) (bf w 20 2) (bf w 30 2)) else none
    | 25 => if fld w 22 3 = 0 then some (.vcvtI32I16 (bf w 7 5) (bf w 12 5) (bf w 20 2) (bf w 30 2)) else none
    | 26 => if fld w 22 3 = 0 then some (.vcvtI16I32 (bf w 7 5) (bf w 12 5) (bf w 20 2) (bf w 30 2)) else none
    | 27 => if fld w 22 3 = 0 then some (.vcvtE4m3F16 (bf w 7 5) (bf w 12 5) (bf w 20 2) (bf w 30 2)) else none
    | 28 => if fld w 22 3 = 0 then some (.vcvtF16E4m3 (bf w 7 5) (bf w 12 5) (bf w 20 2) (bf w 30 2)) else none
    | _ => none
  | 1 =>
    match fld w 27 3 with
    | 0 => if fld w 7 10 = 0 ∧ fld w 30 2 = 0 then some (.qsc (bf w 20 5) (bf w 25 2)) else none
    | 1 => if fld w 12 5 = 0 ∧ fld w 20 5 = 0 ∧ fld w 30 2 = 0 then some (.qstat (bf w 7 5) (bf w 25 2)) else none
    | 2 => if fld w 12 5 = 0 ∧ fld w 20 5 = 0 ∧ fld w 30 2 = 0 then some (.qcar (bf w 7 5) (bf w 25 2)) else none
    | 3 => if fld w 7 10 = 0 ∧ fld w 20 5 = 0 ∧ fld w 30 2 = 0 then some (.qclr (bf w 25 2)) else none
    | _ => none
  | 2 => if fld w 7 10 = 0 ∧ fld w 30 2 = 0 then some (.qhist (bf w 20 5) (bf w 25 2) (bf w 27 3)) else none
  | 3 => if fld w 30 2 = 0 then some (.qstE4m3 (bf w 7 5) (bf w 12 5) (bf w 20 5) (bf w 25 2) (bf w 27 3)) else none
  | _ => none

/-- Major 0x1A (R278, R279, R280): the form, by f3 and the further fields that separate forms. -/
def decMajor1A (w : Nat) : Option Instr :=
  match fld w 17 3 with
  | 0 =>
    match fld w 27 3 with
    | 0 => if fld w 20 5 = 0 then some (.vredsum (bf w 7 5) (bf w 12 5) (bf w 25 2) (bf w 30 2)) else none
    | 1 => if fld w 20 5 = 0 then some (.vredmin (bf w 7 5) (bf w 12 5) (bf w 25 2) (bf w 30 2)) else none
    | 2 => if fld w 20 5 = 0 then some (.vredmax (bf w 7 5) (bf w 12 5) (bf w 25 2) (bf w 30 2)) else none
    | 3 => if fld w 20 5 = 0 then some (.vredminu (bf w 7 5) (bf w 12 5) (bf w 25 2) (bf w 30 2)) else none
    | 4 => if fld w 20 5 = 0 then some (.vredmaxu (bf w 7 5) (bf w 12 5) (bf w 25 2) (bf w 30 2)) else none
    | 5 => if fld w 20 7 = 0 then some (.vfredsum (bf w 7 5) (bf w 12 5) (bf w 30 2)) else none
    | 6 => if fld w 20 7 = 0 then some (.vfredmax (bf w 7 5) (bf w 12 5) (bf w 30 2)) else none
    | 7 => if fld w 20 7 = 0 then some (.vfredmin (bf w 7 5) (bf w 12 5) (bf w 30 2)) else none
    | _ => none
  | 1 =>
    match fld w 27 3 with
    | 0 => some (.vperm (bf w 7 5) (bf w 12 5) (bf w 20 5) (bf w 25 2) (bf w 30 2))
    | 1 => some (.vslide (bf w 7 5) (bf w 12 5) (bf w 20 5) (bf w 25 2) (bf w 30 2))
    | 2 => if fld w 20 5 = 0 then some (.vcomp (bf w 7 5) (bf w 12 5) (bf w 25 2) (bf w 30 2)) else none
    | 3 => if fld w 20 5 = 0 then some (.vrev (bf w 7 5) (bf w 12 5) (bf w 25 2) (bf w 30 2)) else none
    | _ => none
  | 2 =>
    match fld w 27 3 with
    | 0 => if fld w 9 3 = 0 ∧ fld w 14 3 = 0 ∧ fld w 22 5 = 0 ∧ fld w 30 2 = 0 then some (.kand (bf w 7 2) (bf w 12 2) (bf w 20 2)) else none
    | 1 => if fld w 9 3 = 0 ∧ fld w 14 3 = 0 ∧ fld w 22 5 = 0 ∧ fld w 30 2 = 0 then some (.kor (bf w 7 2) (bf w 12 2) (bf w 20 2)) else none
    | 2 => if fld w 9 3 = 0 ∧ fld w 14 3 = 0 ∧ fld w 22 5 = 0 ∧ fld w 30 2 = 0 then some (.kxor (bf w 7 2) (bf w 12 2) (bf w 20 2)) else none
    | 3 => if fld w 9 3 = 0 ∧ fld w 14 3 = 0 ∧ fld w 20 7 = 0 ∧ fld w 30 2 = 0 then some (.knot (bf w 7 2) (bf w 12 2)) else none
    | 4 => if fld w 9 3 = 0 ∧ fld w 20 7 = 0 ∧ fld w 30 2 = 0 then some (.kfromx (bf w 7 2) (bf w 12 5)) else none
    | 5 => if fld w 14 3 = 0 ∧ fld w 20 7 = 0 ∧ fld w 30 2 = 0 then some (.ktox (bf w 7 5) (bf w 12 2)) else none
    | 6 => if fld w 14 3 = 0 ∧ fld w 20 7 = 0 ∧ fld w 30 2 = 0 then some (.kpop (bf w 7 5) (bf w 12 2)) else none
    | _ => none
  | _ => none

/-- Major 0x1B (R176): the form, by f3 and the further fields that separate forms. -/
def decMajor1B (w : Nat) : Option Instr :=
  match fld w 17 3 with
  | 0 => if fld w 7 10 = 0 ∧ fld w 24 8 = 0 then some (.repOpen (bf w 20 4)) else none
  | 1 => if fld w 7 5 = 0 ∧ fld w 29 3 = 0 then some (.repRun (bf w 12 5) (bf w 20 5) (bf w 25 4)) else none
  | _ => none

/-- Major 0x1C (R123, R282): the form, by f3 and the further fields that separate forms. -/
def decMajor1C (w : Nat) : Option Instr :=
  match fld w 17 3 with
  | 0 => if fld w 10 2 = 0 ∧ fld w 20 12 = 0 then some (.tmapLd (bf w 7 3) (bf w 12 5)) else none
  | 1 => if fld w 12 5 = 0 ∧ fld w 22 3 = 0 ∧ fld w 28 4 = 0 then some (.tmapRd (bf w 7 5) (bf w 20 2) (bf w 25 3)) else none
  | 2 => if fld w 10 2 = 0 ∧ fld w 20 12 = 0 then some (.tmapMov (bf w 7 3) (bf w 12 5)) else none
  | _ => none

/-- Major 0x1D (R158, R159): the form, by f3 and the further fields that separate forms. -/
def decMajor1D (w : Nat) : Option Instr :=
  match fld w 17 3 with
  | 0 => if fld w 10 2 = 0 ∧ fld w 23 2 = 0 ∧ fld w 27 5 = 0 then some (.gangWld (bf w 7 3) (bf w 12 5) (bf w 20 3) (bf w 25 2)) else none
  | 1 => some (.gangMma (bf w 7 3) (bf w 10 2) (bf w 12 5) (bf w 20 3) (bf w 23 3) (bf w 26 6))
  | _ => none

/-- Major 0x1E (R286): the form, by f3 and the further fields that separate forms. -/
def decMajor1E (w : Nat) : Option Instr :=
  match fld w 17 3 with
  | 0 => if fld w 7 3 = 0 ∧ fld w 24 8 = 0 then some (.accLd (bf w 10 2) (bf w 12 5) (bf w 20 4)) else none
  | 1 => if fld w 7 3 = 0 ∧ fld w 24 8 = 0 then some (.accSt (bf w 10 2) (bf w 12 5) (bf w 20 4)) else none
  | 2 => if fld w 7 3 = 0 ∧ fld w 12 5 = 0 ∧ fld w 20 12 = 0 then some (.accZero (bf w 10 2)) else none
  | 3 => if fld w 7 3 = 0 ∧ fld w 20 12 = 0 then some (.accFill (bf w 10 2) (bf w 12 5)) else none
  | 4 => if fld w 7 3 = 0 ∧ fld w 24 8 = 0 then some (.accTov (bf w 10 2) (bf w 12 5) (bf w 20 4)) else none
  | 5 => if fld w 7 3 = 0 ∧ fld w 24 8 = 0 then some (.accFromv (bf w 10 2) (bf w 12 5) (bf w 20 4)) else none
  | _ => none

/-- Major 0x1F (R162, R165, R166): the form, by f3 and the further fields that separate forms. -/
def decMajor1F (w : Nat) : Option Instr :=
  match fld w 17 3 with
  | 0 => if fld w 10 2 = 0 ∧ fld w 25 7 = 0 then some (.hotReg (bf w 7 3) (bf w 12 5) (bf w 20 5)) else none
  | 1 => if fld w 7 10 = 0 ∧ fld w 23 9 = 0 then some (.hotMig (bf w 20 3)) else none
  | 2 => if fld w 20 12 = 0 then some (.hotCnt (bf w 7 5) (bf w 12 5)) else none
  | _ => none

/-- Major 0x20 (R172, R174): the form, by f3 and the further fields that separate forms. -/
def decMajor20 (w : Nat) : Option Instr :=
  match fld w 17 3 with
  | 0 => if fld w 20 12 = 0 then some (.cpy (bf w 7 5) (bf w 12 5)) else none
  | 1 => if fld w 20 12 = 0 then some (.gth (bf w 7 5) (bf w 12 5)) else none
  | 2 => if fld w 20 12 = 0 then some (.coll (bf w 7 5) (bf w 12 5)) else none
  | 3 => if fld w 20 12 = 0 then some (.engCancel (bf w 7 5) (bf w 12 5)) else none
  | _ => none

/-- A 32-bit encoding, by its major opcode [6:1] (R203, R204). -/
def decode32 (w : Nat) : Except Reject Instr :=
  let sel : Option Instr → Except Reject Instr := fun r =>
    match r with
    | none => .error .minor
    | some i => if wellFormed i then .ok i else .error .field
  match fld w 1 6 with
  | 0x01 => sel (decMajor01 w)
  | 0x02 => sel (decMajor02 w)
  | 0x03 => .ok (.hiimm (bf w 7 5) (bf w 12 20))
  | 0x04 => .ok (.jump (bf w 7 5) (bf w 12 20))
  | 0x05 => sel (decMajor05 w)
  | 0x06 => sel (decMajor06 w)
  | 0x07 => sel (decMajor07 w)
  | 0x08 => sel (decMajor08 w)
  | 0x09 => sel (decMajor09 w)
  | 0x0A => sel (decMajor0A w)
  | 0x0B => sel (decMajor0B w)
  | 0x0C => sel (decMajor0C w)
  | 0x0D => sel (decMajor0D w)
  | 0x0E => sel (decMajor0E w)
  | 0x0F => sel (decMajor0F w)
  | 0x10 => sel (decMajor10 w)
  | 0x11 => sel (decMajor11 w)
  | 0x12 => sel (decMajor12 w)
  | 0x13 => sel (decMajor13 w)
  | 0x14 => sel (decMajor14 w)
  | 0x15 => sel (decMajor15 w)
  | 0x16 => sel (decMajor16 w)
  | 0x17 => sel (decMajor17 w)
  | 0x18 => sel (decMajor18 w)
  | 0x19 => sel (decMajor19 w)
  | 0x1A => sel (decMajor1A w)
  | 0x1B => sel (decMajor1B w)
  | 0x1C => sel (decMajor1C w)
  | 0x1D => sel (decMajor1D w)
  | 0x1E => sel (decMajor1E w)
  | 0x1F => sel (decMajor1F w)
  | 0x20 => sel (decMajor20 w)
  | 0x3F => .ok (.hint (bf w 7 25))
  | _ => .error .major

/-- A 16-bit encoding, by its compressed opcode [4:1] (R205, R206). -/
def decode16 (w : Nat) : Except Reject Instr :=
  match fld w 1 4 with
  | 1 => .ok (.cAddi (bf w 11 5) (bf w 5 6))
  | 2 => .ok (.cSet (bf w 11 5) (bf w 5 6))
  | 3 => if fld w 5 1 = 0 then .ok (.cMv (bf w 11 5) (bf w 6 5)) else .ok (.cAdd (bf w 11 5) (bf w 6 5))
  | 4 => if fld w 5 1 = 0 then .ok (.cSub (bf w 11 5) (bf w 6 5)) else .ok (.cAnd (bf w 11 5) (bf w 6 5))
  | 5 => if fld w 5 1 = 0 then .ok (.cOr (bf w 11 5) (bf w 6 5)) else .ok (.cXor (bf w 11 5) (bf w 6 5))
  | 6 => .ok (.cSlli (bf w 11 5) (bf w 5 6))
  | 7 => .ok (.cSrli (bf w 11 5) (bf w 5 6))
  | 8 => .ok (.cLdD (bf w 13 3) (bf w 10 3) (bf w 5 5))
  | 9 => .ok (.cStD (bf w 13 3) (bf w 10 3) (bf w 5 5))
  | 10 => .ok (.cLdW (bf w 13 3) (bf w 10 3) (bf w 5 5))
  | 11 => .ok (.cStW (bf w 13 3) (bf w 10 3) (bf w 5 5))
  | 12 => .ok (.cBz (bf w 13 3) (bf w 5 8))
  | 13 => .ok (.cBnz (bf w 13 3) (bf w 5 8))
  | 14 => .ok (.cJump (bf w 5 11))
  | 15 => if fld w 5 11 = 0 then .ok .cNop else if fld w 5 11 = 1 then .ok .cTaskEnd else .error .compressed
  | _ => .error .compressed

/-- The bytes of a little-endian number (R2). -/
def leNat : List Byte → Nat
  | [] => 0
  | b :: bs => b.toNat + 256 * leNat bs

/-- The `n` bytes of a number, least significant first (R2). -/
def leBytes : Nat → Nat → List Byte
  | 0, _ => []
  | n + 1, v => BitVec.ofNat 8 v :: leBytes n (v / 256)

/-- The instruction at the head of some bytes, and its length in bytes. Bit 0 of the first halfword decides the length
(R194). -/
def decode (bs : List Byte) : Except Reject (Instr × Nat) :=
  match bs with
  | b0 :: b1 :: rest =>
    let h := leNat [b0, b1]
    if h % 2 = 0 then (decode16 h).map (·, 2)
    else
      match rest with
      | b2 :: b3 :: _ => (decode32 (leNat [b0, b1, b2, b3])).map (·, 4)
      | _ => .error .truncated
  | _ => .error .truncated

/-- The instruction that this decoder reads from an encoding of `nbits` bits laid out as the instruction store holds it,
followed by zero bytes. -/
def decodeTableWord (nbits w : Nat) : Option Instr :=
  match decode (leBytes (nbits / 8) w ++ [0#8, 0#8, 0#8, 0#8]) with
  | .ok (i, _) => some i
  | .error _ => none

end

/-- The length in bits and the encoding of an instruction; none for a step without one (R198, R205). -/
def encode : Instr → Option (Nat × Nat)
  | .add d s t => some (32, 3 + d.toNat * 128 + s.toNat * 4096 + t.toNat * 1048576)
  | .sub d s t => some (32, 131075 + d.toNat * 128 + s.toNat * 4096 + t.toNat * 1048576)
  | .xor d s t => some (32, 262147 + d.toNat * 128 + s.toNat * 4096 + t.toNat * 1048576)
  | .andn d s t => some (32, 393219 + d.toNat * 128 + s.toNat * 4096 + t.toNat * 1048576)
  | .orn d s t => some (32, 524291 + d.toNat * 128 + s.toNat * 4096 + t.toNat * 1048576)
  | .xnor d s t => some (32, 655363 + d.toNat * 128 + s.toNat * 4096 + t.toNat * 1048576)
  | .or d s t => some (32, 786435 + d.toNat * 128 + s.toNat * 4096 + t.toNat * 1048576)
  | .and d s t => some (32, 917507 + d.toNat * 128 + s.toNat * 4096 + t.toNat * 1048576)
  | .shl d s t => some (32, 33554435 + d.toNat * 128 + s.toNat * 4096 + t.toNat * 1048576)
  | .shr d s t => some (32, 33685507 + d.toNat * 128 + s.toNat * 4096 + t.toNat * 1048576)
  | .sar d s t => some (32, 33816579 + d.toNat * 128 + s.toNat * 4096 + t.toNat * 1048576)
  | .rotl d s t => some (32, 33947651 + d.toNat * 128 + s.toNat * 4096 + t.toNat * 1048576)
  | .rotr d s t => some (32, 34078723 + d.toNat * 128 + s.toNat * 4096 + t.toNat * 1048576)
  | .cmplt d s t => some (32, 34209795 + d.toNat * 128 + s.toNat * 4096 + t.toNat * 1048576)
  | .cmpltu d s t => some (32, 34340867 + d.toNat * 128 + s.toNat * 4096 + t.toNat * 1048576)
  | .cmpeq d s t => some (32, 34471939 + d.toNat * 128 + s.toNat * 4096 + t.toNat * 1048576)
  | .min d s t => some (32, 67108867 + d.toNat * 128 + s.toNat * 4096 + t.toNat * 1048576)
  | .max d s t => some (32, 67239939 + d.toNat * 128 + s.toNat * 4096 + t.toNat * 1048576)
  | .minu d s t => some (32, 67371011 + d.toNat * 128 + s.toNat * 4096 + t.toNat * 1048576)
  | .maxu d s t => some (32, 67502083 + d.toNat * 128 + s.toNat * 4096 + t.toNat * 1048576)
  | .clz d s => some (32, 67633155 + d.toNat * 128 + s.toNat * 4096)
  | .ctz d s => some (32, 67764227 + d.toNat * 128 + s.toNat * 4096)
  | .pop d s => some (32, 67895299 + d.toNat * 128 + s.toNat * 4096)
  | .sextB d s => some (32, 100663299 + d.toNat * 128 + s.toNat * 4096)
  | .sextH d s => some (32, 100794371 + d.toNat * 128 + s.toNat * 4096)
  | .sextW d s => some (32, 100925443 + d.toNat * 128 + s.toNat * 4096)
  | .zextB d s => some (32, 101056515 + d.toNat * 128 + s.toNat * 4096)
  | .zextH d s => some (32, 101187587 + d.toNat * 128 + s.toNat * 4096)
  | .zextW d s => some (32, 101318659 + d.toNat * 128 + s.toNat * 4096)
  | .bswap d s => some (32, 101449731 + d.toNat * 128 + s.toNat * 4096)
  | .bitrev d s => some (32, 101580803 + d.toNat * 128 + s.toNat * 4096)
  | .mul d s t => some (32, 134217731 + d.toNat * 128 + s.toNat * 4096 + t.toNat * 1048576)
  | .mulxSs d s t => some (32, 134348803 + d.toNat * 128 + s.toNat * 4096 + t.toNat * 1048576)
  | .mulxUu d s t => some (32, 134479875 + d.toNat * 128 + s.toNat * 4096 + t.toNat * 1048576)
  | .mulxSu d s t => some (32, 134610947 + d.toNat * 128 + s.toNat * 4096 + t.toNat * 1048576)
  | .quot d s t => some (32, 167772163 + d.toNat * 128 + s.toNat * 4096 + t.toNat * 1048576)
  | .quotu d s t => some (32, 167903235 + d.toNat * 128 + s.toNat * 4096 + t.toNat * 1048576)
  | .remd d s t => some (32, 168034307 + d.toNat * 128 + s.toNat * 4096 + t.toNat * 1048576)
  | .remdu d s t => some (32, 168165379 + d.toNat * 128 + s.toNat * 4096 + t.toNat * 1048576)
  | .addi d s i => some (32, 5 + d.toNat * 128 + s.toNat * 4096 + i.toNat * 1048576)
  | .slli d s n => some (32, 131077 + d.toNat * 128 + s.toNat * 4096 + n.toNat * 1048576)
  | .rotli d s n => some (32, 201457669 + d.toNat * 128 + s.toNat * 4096 + n.toNat * 1048576)
  | .cmplti d s i => some (32, 262149 + d.toNat * 128 + s.toNat * 4096 + i.toNat * 1048576)
  | .cmpltiu d s i => some (32, 393221 + d.toNat * 128 + s.toNat * 4096 + i.toNat * 1048576)
  | .xori d s i => some (32, 524293 + d.toNat * 128 + s.toNat * 4096 + i.toNat * 1048576)
  | .srli d s n => some (32, 655365 + d.toNat * 128 + s.toNat * 4096 + n.toNat * 1048576)
  | .srai d s n => some (32, 67764229 + d.toNat * 128 + s.toNat * 4096 + n.toNat * 1048576)
  | .rotri d s n => some (32, 201981957 + d.toNat * 128 + s.toNat * 4096 + n.toNat * 1048576)
  | .ori d s i => some (32, 786437 + d.toNat * 128 + s.toNat * 4096 + i.toNat * 1048576)
  | .andi d s i => some (32, 917509 + d.toNat * 128 + s.toNat * 4096 + i.toNat * 1048576)
  | .hiimm d i => some (32, 7 + d.toNat * 128 + i.toNat * 4096)
  | .jump d o => some (32, 9 + d.toNat * 128 + o.toNat * 4096)
  | .jr d s i => some (32, 11 + d.toNat * 128 + s.toNat * 4096 + i.toNat * 1048576)
  | .pcadd d s i => some (32, 131083 + d.toNat * 128 + s.toNat * 4096 + i.toNat * 1048576)
  | .beq t s o => some (32, 13 + t.toNat * 128 + s.toNat * 4096 + o.toNat * 1048576)
  | .bne t s o => some (32, 131085 + t.toNat * 128 + s.toNat * 4096 + o.toNat * 1048576)
  | .blt t s o => some (32, 262157 + t.toNat * 128 + s.toNat * 4096 + o.toNat * 1048576)
  | .bge t s o => some (32, 393229 + t.toNat * 128 + s.toNat * 4096 + o.toNat * 1048576)
  | .bltu t s o => some (32, 524301 + t.toNat * 128 + s.toNat * 4096 + o.toNat * 1048576)
  | .bgeu t s o => some (32, 655373 + t.toNat * 128 + s.toNat * 4096 + o.toNat * 1048576)
  | .loop l s o => some (32, 15 + l.toNat * 128 + s.toNat * 4096 + o.toNat * 1048576)
  | .loopi l n o => some (32, 131087 + l.toNat * 128 + n.toNat * 4096 + o.toNat * 1048576)
  | .loopClr l => some (32, 262159 + l.toNat * 128)
  | .forkA o => some (32, 17 + o.toNat * 1048576)
  | .qPut s q => some (32, 131089 + s.toNat * 4096 + q.toNat * 1048576)
  | .qGet d q => some (32, 262161 + d.toNat * 128 + q.toNat * 1048576)
  | .qCnt d q => some (32, 393233 + d.toNat * 128 + q.toNat * 1048576)
  | .msgSend s t => some (32, 19 + s.toNat * 4096 + t.toNat * 1048576)
  | .spOpen s t => some (32, 131091 + s.toNat * 4096 + t.toNat * 1048576)
  | .spPut s => some (32, 262163 + s.toNat * 4096)
  | .spClose d => some (32, 393235 + d.toNat * 128)
  | .taskEnd => some (32, 21)
  | .safept s => some (32, 131093 + s.toNat * 4096)
  | .align n => some (32, 262165 + n.toNat * 1048576)
  | .alignBound _ => none
  | .srd d r => some (32, 23 + d.toNat * 128 + r.toNat * 1048576)
  | .swr s r => some (32, 262167 + s.toNat * 4096 + r.toNat * 1048576)
  | .phase => some (32, 393239)
  | .tlbW d s t => some (32, 524311 + d.toNat * 128 + s.toNat * 4096 + t.toNat * 1048576)
  | .tlbInv s t => some (32, 655383 + s.toNat * 4096 + t.toNat * 1048576)
  | .ldB d s i => some (32, 25 + d.toNat * 128 + s.toNat * 4096 + i.toNat * 1048576)
  | .ldH d s i => some (32, 131097 + d.toNat * 128 + s.toNat * 4096 + i.toNat * 1048576)
  | .ldW d s i => some (32, 262169 + d.toNat * 128 + s.toNat * 4096 + i.toNat * 1048576)
  | .ldD d s i => some (32, 393241 + d.toNat * 128 + s.toNat * 4096 + i.toNat * 1048576)
  | .ldBu d s i => some (32, 524313 + d.toNat * 128 + s.toNat * 4096 + i.toNat * 1048576)
  | .ldHu d s i => some (32, 655385 + d.toNat * 128 + s.toNat * 4096 + i.toNat * 1048576)
  | .ldWu d s i => some (32, 786457 + d.toNat * 128 + s.toNat * 4096 + i.toNat * 1048576)
  | .stB t s i => some (32, 27 + t.toNat * 128 + s.toNat * 4096 + i.toNat * 1048576)
  | .stH t s i => some (32, 131099 + t.toNat * 128 + s.toNat * 4096 + i.toNat * 1048576)
  | .stW t s i => some (32, 262171 + t.toNat * 128 + s.toNat * 4096 + i.toNat * 1048576)
  | .stD t s i => some (32, 393243 + t.toNat * 128 + s.toNat * 4096 + i.toNat * 1048576)
  | .stDh t s h => some (32, 524315 + t.toNat * 128 + s.toNat * 4096 + h.toNat * 1048576)
  | .fenceFull c => some (32, 29 + c.toNat * 1048576)
  | .fenceRel c => some (32, 131101 + c.toNat * 1048576)
  | .fenceAcq c => some (32, 262173 + c.toNat * 1048576)
  | .mlive s t => some (32, 393245 + s.toNat * 4096 + t.toNat * 1048576)
  | .amoAddD d s t => some (32, 31 + d.toNat * 128 + s.toNat * 4096 + t.toNat * 1048576)
  | .amoAndD d s t => some (32, 131103 + d.toNat * 128 + s.toNat * 4096 + t.toNat * 1048576)
  | .amoOrD d s t => some (32, 262175 + d.toNat * 128 + s.toNat * 4096 + t.toNat * 1048576)
  | .amoXorD d s t => some (32, 393247 + d.toNat * 128 + s.toNat * 4096 + t.toNat * 1048576)
  | .amoMinD d s t => some (32, 524319 + d.toNat * 128 + s.toNat * 4096 + t.toNat * 1048576)
  | .amoMaxD d s t => some (32, 655391 + d.toNat * 128 + s.toNat * 4096 + t.toNat * 1048576)
  | .amoSwapD d s t => some (32, 786463 + d.toNat * 128 + s.toNat * 4096 + t.toNat * 1048576)
  | .amoCasD d s t => some (32, 917535 + d.toNat * 128 + s.toNat * 4096 + t.toNat * 1048576)
  | .amoAddW d s t => some (32, 33554463 + d.toNat * 128 + s.toNat * 4096 + t.toNat * 1048576)
  | .amoAndW d s t => some (32, 33685535 + d.toNat * 128 + s.toNat * 4096 + t.toNat * 1048576)
  | .amoOrW d s t => some (32, 33816607 + d.toNat * 128 + s.toNat * 4096 + t.toNat * 1048576)
  | .amoXorW d s t => some (32, 33947679 + d.toNat * 128 + s.toNat * 4096 + t.toNat * 1048576)
  | .amoMinW d s t => some (32, 34078751 + d.toNat * 128 + s.toNat * 4096 + t.toNat * 1048576)
  | .amoMaxW d s t => some (32, 34209823 + d.toNat * 128 + s.toNat * 4096 + t.toNat * 1048576)
  | .amoSwapW d s t => some (32, 34340895 + d.toNat * 128 + s.toNat * 4096 + t.toNat * 1048576)
  | .amoCasW d s t => some (32, 34471967 + d.toNat * 128 + s.toNat * 4096 + t.toNat * 1048576)
  | .amoMinuD d s t => some (32, 67633183 + d.toNat * 128 + s.toNat * 4096 + t.toNat * 1048576)
  | .amoMaxuD d s t => some (32, 67764255 + d.toNat * 128 + s.toNat * 4096 + t.toNat * 1048576)
  | .amoMinuW d s t => some (32, 101187615 + d.toNat * 128 + s.toNat * 4096 + t.toNat * 1048576)
  | .amoMaxuW d s t => some (32, 101318687 + d.toNat * 128 + s.toNat * 4096 + t.toNat * 1048576)
  | .amoFadd d s t => some (32, 134217759 + d.toNat * 128 + s.toNat * 4096 + t.toNat * 1048576)
  | .syncLd d s => some (32, 33 + d.toNat * 128 + s.toNat * 4096)
  | .syncAdd d s t => some (32, 131105 + d.toNat * 128 + s.toNat * 4096 + t.toNat * 1048576)
  | .syncAnd d s t => some (32, 262177 + d.toNat * 128 + s.toNat * 4096 + t.toNat * 1048576)
  | .syncOr d s t => some (32, 393249 + d.toNat * 128 + s.toNat * 4096 + t.toNat * 1048576)
  | .syncXor d s t => some (32, 524321 + d.toNat * 128 + s.toNat * 4096 + t.toNat * 1048576)
  | .syncSwap d s t => some (32, 655393 + d.toNat * 128 + s.toNat * 4096 + t.toNat * 1048576)
  | .syncCas d s t => some (32, 786465 + d.toNat * 128 + s.toNat * 4096 + t.toNat * 1048576)
  | .syncFadd d s t => some (32, 917537 + d.toNat * 128 + s.toNat * 4096 + t.toNat * 1048576)
  | .syncMin d s t => some (32, 33554465 + d.toNat * 128 + s.toNat * 4096 + t.toNat * 1048576)
  | .syncMax d s t => some (32, 33685537 + d.toNat * 128 + s.toNat * 4096 + t.toNat * 1048576)
  | .syncMinu d s t => some (32, 33816609 + d.toNat * 128 + s.toNat * 4096 + t.toNat * 1048576)
  | .syncMaxu d s t => some (32, 33947681 + d.toNat * 128 + s.toNat * 4096 + t.toNat * 1048576)
  | .syncWait d s t => some (32, 34078753 + d.toNat * 128 + s.toNat * 4096 + t.toNat * 1048576)
  | .syncWake d s t => some (32, 34209825 + d.toNat * 128 + s.toNat * 4096 + t.toNat * 1048576)
  | .sluiceOperation _ => none
  | .barArrive g => some (32, 35 + g.toNat * 1048576)
  | .barWait g => some (32, 131107 + g.toNat * 1048576)
  | .barrierRelease _ => none
  | .ringBoard d s t => some (32, 37 + d.toNat * 128 + s.toNat * 4096 + t.toNat * 1048576)
  | .ringCapRead d s t => some (32, 131109 + d.toNat * 128 + s.toNat * 4096 + t.toNat * 1048576)
  | .ringCapAdd d s t => some (32, 33685541 + d.toNat * 128 + s.toNat * 4096 + t.toNat * 1048576)
  | .ringCapMin d s t => some (32, 67239973 + d.toNat * 128 + s.toNat * 4096 + t.toNat * 1048576)
  | .ringCapMax d s t => some (32, 100794405 + d.toNat * 128 + s.toNat * 4096 + t.toNat * 1048576)
  | .ringCapSwap d s t => some (32, 134348837 + d.toNat * 128 + s.toNat * 4096 + t.toNat * 1048576)
  | .ringCapCas d s t => some (32, 167903269 + d.toNat * 128 + s.toNat * 4096 + t.toNat * 1048576)
  | .ringAlight d s t => some (32, 262181 + d.toNat * 128 + s.toNat * 4096 + t.toNat * 1048576)
  | .ringAction _ _ => none
  | .ringBoardTimeout _ _ => none
  | .ringAbsent _ _ => none
  | .lblAssume d a => some (32, 39 + d.toNat * 128 + a.toNat * 1048576)
  | .lblWith d s t => some (32, 131111 + d.toNat * 128 + s.toNat * 4096 + t.toNat * 1048576)
  | .lblMerge d s t => some (32, 262183 + d.toNat * 128 + s.toNat * 4096 + t.toNat * 1048576)
  | .lblGet d s => some (32, 393255 + d.toNat * 128 + s.toNat * 4096)
  | .lblVis d s => some (32, 524327 + d.toNat * 128 + s.toNat * 4096)
  | .lblNogood d s => some (32, 655399 + d.toNat * 128 + s.toNat * 4096)
  | .lblCtx d s => some (32, 786471 + d.toNat * 128 + s.toNat * 4096)
  | .nogoodCommit _ _ => none
  | .nogoodNotice _ _ => none
  | .launch d s => some (32, 41 + d.toNat * 128 + s.toNat * 4096)
  | .arm d s t => some (32, 131113 + d.toNat * 128 + s.toNat * 4096 + t.toNat * 1048576)
  | .disarm d t => some (32, 262185 + d.toNat * 128 + t.toNat * 1048576)
  | .meterReg d s => some (32, 43 + d.toNat * 128 + s.toNat * 4096)
  | .meterRead d s t => some (32, 131115 + d.toNat * 128 + s.toNat * 4096 + t.toNat * 1048576)
  | .meterCkpt d => some (32, 262187 + d.toNat * 128)
  | .attest d s => some (32, 393259 + d.toNat * 128 + s.toNat * 4096)
  | .vld d s e k => some (32, 45 + d.toNat * 128 + s.toNat * 4096 + e.toNat * 33554432 + k.toNat * 1073741824)
  | .vst s t e k => some (32, 131117 + s.toNat * 4096 + t.toNat * 1048576 + e.toNat * 33554432 + k.toNat * 1073741824)
  | .vlds d s t e k => some (32, 262189 + d.toNat * 128 + s.toNat * 4096 + t.toNat * 1048576 + e.toNat * 33554432 + k.toNat * 1073741824)
  | .vsts d s t e k => some (32, 393261 + d.toNat * 128 + s.toNat * 4096 + t.toNat * 1048576 + e.toNat * 33554432 + k.toNat * 1073741824)
  | .vgth d s t e k => some (32, 524333 + d.toNat * 128 + s.toNat * 4096 + t.toNat * 1048576 + e.toNat * 33554432 + k.toNat * 1073741824)
  | .vsct d s t e k => some (32, 655405 + d.toNat * 128 + s.toNat * 4096 + t.toNat * 1048576 + e.toNat * 33554432 + k.toNat * 1073741824)
  | .vbc d s e k => some (32, 786477 + d.toNat * 128 + s.toNat * 4096 + e.toNat * 33554432 + k.toNat * 1073741824)
  | .vadd d s t e k => some (32, 47 + d.toNat * 128 + s.toNat * 4096 + t.toNat * 1048576 + e.toNat * 33554432 + k.toNat * 1073741824)
  | .vsub d s t e k => some (32, 134217775 + d.toNat * 128 + s.toNat * 4096 + t.toNat * 1048576 + e.toNat * 33554432 + k.toNat * 1073741824)
  | .vmul d s t e k => some (32, 268435503 + d.toNat * 128 + s.toNat * 4096 + t.toNat * 1048576 + e.toNat * 33554432 + k.toNat * 1073741824)
  | .vmulh d s t e k => some (32, 402653231 + d.toNat * 128 + s.toNat * 4096 + t.toNat * 1048576 + e.toNat * 33554432 + k.toNat * 1073741824)
  | .vmin d s t e k => some (32, 536870959 + d.toNat * 128 + s.toNat * 4096 + t.toNat * 1048576 + e.toNat * 33554432 + k.toNat * 1073741824)
  | .vmax d s t e k => some (32, 671088687 + d.toNat * 128 + s.toNat * 4096 + t.toNat * 1048576 + e.toNat * 33554432 + k.toNat * 1073741824)
  | .vminu d s t e k => some (32, 805306415 + d.toNat * 128 + s.toNat * 4096 + t.toNat * 1048576 + e.toNat * 33554432 + k.toNat * 1073741824)
  | .vmaxu d s t e k => some (32, 939524143 + d.toNat * 128 + s.toNat * 4096 + t.toNat * 1048576 + e.toNat * 33554432 + k.toNat * 1073741824)
  | .vadds d s t e k => some (32, 131119 + d.toNat * 128 + s.toNat * 4096 + t.toNat * 1048576 + e.toNat * 33554432 + k.toNat * 1073741824)
  | .vaddus d s t e k => some (32, 134348847 + d.toNat * 128 + s.toNat * 4096 + t.toNat * 1048576 + e.toNat * 33554432 + k.toNat * 1073741824)
  | .vsubs d s t e k => some (32, 268566575 + d.toNat * 128 + s.toNat * 4096 + t.toNat * 1048576 + e.toNat * 33554432 + k.toNat * 1073741824)
  | .vsubus d s t e k => some (32, 402784303 + d.toNat * 128 + s.toNat * 4096 + t.toNat * 1048576 + e.toNat * 33554432 + k.toNat * 1073741824)
  | .vand d s t e k => some (32, 262191 + d.toNat * 128 + s.toNat * 4096 + t.toNat * 1048576 + e.toNat * 33554432 + k.toNat * 1073741824)
  | .vor d s t e k => some (32, 134479919 + d.toNat * 128 + s.toNat * 4096 + t.toNat * 1048576 + e.toNat * 33554432 + k.toNat * 1073741824)
  | .vxor d s t e k => some (32, 268697647 + d.toNat * 128 + s.toNat * 4096 + t.toNat * 1048576 + e.toNat * 33554432 + k.toNat * 1073741824)
  | .vandn d s t e k => some (32, 402915375 + d.toNat * 128 + s.toNat * 4096 + t.toNat * 1048576 + e.toNat * 33554432 + k.toNat * 1073741824)
  | .vsll d s t e k => some (32, 393263 + d.toNat * 128 + s.toNat * 4096 + t.toNat * 1048576 + e.toNat * 33554432 + k.toNat * 1073741824)
  | .vsrl d s t e k => some (32, 134610991 + d.toNat * 128 + s.toNat * 4096 + t.toNat * 1048576 + e.toNat * 33554432 + k.toNat * 1073741824)
  | .vsra d s t e k => some (32, 268828719 + d.toNat * 128 + s.toNat * 4096 + t.toNat * 1048576 + e.toNat * 33554432 + k.toNat * 1073741824)
  | .vcmpEq c s t e k => some (32, 524335 + c.toNat * 128 + s.toNat * 4096 + t.toNat * 1048576 + e.toNat * 33554432 + k.toNat * 1073741824)
  | .vcmpNe c s t e k => some (32, 134742063 + c.toNat * 128 + s.toNat * 4096 + t.toNat * 1048576 + e.toNat * 33554432 + k.toNat * 1073741824)
  | .vcmpLt c s t e k => some (32, 268959791 + c.toNat * 128 + s.toNat * 4096 + t.toNat * 1048576 + e.toNat * 33554432 + k.toNat * 1073741824)
  | .vcmpGe c s t e k => some (32, 403177519 + c.toNat * 128 + s.toNat * 4096 + t.toNat * 1048576 + e.toNat * 33554432 + k.toNat * 1073741824)
  | .vcmpLtu c s t e k => some (32, 537395247 + c.toNat * 128 + s.toNat * 4096 + t.toNat * 1048576 + e.toNat * 33554432 + k.toNat * 1073741824)
  | .vcmpGeu c s t e k => some (32, 671612975 + c.toNat * 128 + s.toNat * 4096 + t.toNat * 1048576 + e.toNat * 33554432 + k.toNat * 1073741824)
  | .vsplat d s e k => some (32, 655407 + d.toNat * 128 + s.toNat * 4096 + e.toNat * 33554432 + k.toNat * 1073741824)
  | .vext d s t e => some (32, 134873135 + d.toNat * 128 + s.toNat * 4096 + t.toNat * 1048576 + e.toNat * 33554432)
  | .vins d s t e => some (32, 269090863 + d.toNat * 128 + s.toNat * 4096 + t.toNat * 1048576 + e.toNat * 33554432)
  | .vmv d s e k => some (32, 403308591 + d.toNat * 128 + s.toNat * 4096 + e.toNat * 33554432 + k.toNat * 1073741824)
  | .vfadd d s t e k => some (32, 49 + d.toNat * 128 + s.toNat * 4096 + t.toNat * 1048576 + e.toNat * 33554432 + k.toNat * 1073741824)
  | .vfsub d s t e k => some (32, 134217777 + d.toNat * 128 + s.toNat * 4096 + t.toNat * 1048576 + e.toNat * 33554432 + k.toNat * 1073741824)
  | .vfmul d s t e k => some (32, 268435505 + d.toNat * 128 + s.toNat * 4096 + t.toNat * 1048576 + e.toNat * 33554432 + k.toNat * 1073741824)
  | .vfdiv d s t e k => some (32, 402653233 + d.toNat * 128 + s.toNat * 4096 + t.toNat * 1048576 + e.toNat * 33554432 + k.toNat * 1073741824)
  | .vfmin d s t e k => some (32, 536870961 + d.toNat * 128 + s.toNat * 4096 + t.toNat * 1048576 + e.toNat * 33554432 + k.toNat * 1073741824)
  | .vfmax d s t e k => some (32, 671088689 + d.toNat * 128 + s.toNat * 4096 + t.toNat * 1048576 + e.toNat * 33554432 + k.toNat * 1073741824)
  | .vfsqrt d s e k => some (32, 805306417 + d.toNat * 128 + s.toNat * 4096 + e.toNat * 33554432 + k.toNat * 1073741824)
  | .vfma d s t e k => some (32, 131121 + d.toNat * 128 + s.toNat * 4096 + t.toNat * 1048576 + e.toNat * 33554432 + k.toNat * 1073741824)
  | .vfnms d s t e k => some (32, 134348849 + d.toNat * 128 + s.toNat * 4096 + t.toNat * 1048576 + e.toNat * 33554432 + k.toNat * 1073741824)
  | .vfcmpEq c s t e k => some (32, 262193 + c.toNat * 128 + s.toNat * 4096 + t.toNat * 1048576 + e.toNat * 33554432 + k.toNat * 1073741824)
  | .vfcmpLt c s t e k => some (32, 134479921 + c.toNat * 128 + s.toNat * 4096 + t.toNat * 1048576 + e.toNat * 33554432 + k.toNat * 1073741824)
  | .vfcmpLe c s t e k => some (32, 268697649 + c.toNat * 128 + s.toNat * 4096 + t.toNat * 1048576 + e.toNat * 33554432 + k.toNat * 1073741824)
  | .vcvtF32F16 d s p k => some (32, 51 + d.toNat * 128 + s.toNat * 4096 + p.toNat * 1048576 + k.toNat * 1073741824)
  | .vcvtF32Bf16 d s p k => some (32, 33554483 + d.toNat * 128 + s.toNat * 4096 + p.toNat * 1048576 + k.toNat * 1073741824)
  | .vcvtF32E4m3 d s p k => some (32, 67108915 + d.toNat * 128 + s.toNat * 4096 + p.toNat * 1048576 + k.toNat * 1073741824)
  | .vcvtF32E5m2 d s p k => some (32, 100663347 + d.toNat * 128 + s.toNat * 4096 + p.toNat * 1048576 + k.toNat * 1073741824)
  | .vcvtF16F32 d s p k => some (32, 134217779 + d.toNat * 128 + s.toNat * 4096 + p.toNat * 1048576 + k.toNat * 1073741824)
  | .vcvtBf16F32 d s p k => some (32, 167772211 + d.toNat * 128 + s.toNat * 4096 + p.toNat * 1048576 + k.toNat * 1073741824)
  | .vcvtE4m3F32 d s p k => some (32, 201326643 + d.toNat * 128 + s.toNat * 4096 + p.toNat * 1048576 + k.toNat * 1073741824)
  | .vcvtE5m2F32 d s p k => some (32, 234881075 + d.toNat * 128 + s.toNat * 4096 + p.toNat * 1048576 + k.toNat * 1073741824)
  | .vcvtI32F32 d s p k => some (32, 268435507 + d.toNat * 128 + s.toNat * 4096 + p.toNat * 1048576 + k.toNat * 1073741824)
  | .vcvtI32F32Rtz d s p k => some (32, 301989939 + d.toNat * 128 + s.toNat * 4096 + p.toNat * 1048576 + k.toNat * 1073741824)
  | .vcvtF32I32 d s p k => some (32, 335544371 + d.toNat * 128 + s.toNat * 4096 + p.toNat * 1048576 + k.toNat * 1073741824)
  | .vcvtUi32F32 d s p k => some (32, 369098803 + d.toNat * 128 + s.toNat * 4096 + p.toNat * 1048576 + k.toNat * 1073741824)
  | .vcvtUi32F32Rtz d s p k => some (32, 402653235 + d.toNat * 128 + s.toNat * 4096 + p.toNat * 1048576 + k.toNat * 1073741824)
  | .vcvtF32Ui32 d s p k => some (32, 436207667 + d.toNat * 128 + s.toNat * 4096 + p.toNat * 1048576 + k.toNat * 1073741824)
  | .vcvtI8F32 d s p k => some (32, 469762099 + d.toNat * 128 + s.toNat * 4096 + p.toNat * 1048576 + k.toNat * 1073741824)
  | .vcvtI8F32Rtz d s p k => some (32, 503316531 + d.toNat * 128 + s.toNat * 4096 + p.toNat * 1048576 + k.toNat * 1073741824)
  | .vcvtF32I8 d s p k => some (32, 536870963 + d.toNat * 128 + s.toNat * 4096 + p.toNat * 1048576 + k.toNat * 1073741824)
  | .vcvtUq8F32 d s p k => some (32, 570425395 + d.toNat * 128 + s.toNat * 4096 + p.toNat * 1048576 + k.toNat * 1073741824)
  | .vcvtUq8F32Rtz d s p k => some (32, 603979827 + d.toNat * 128 + s.toNat * 4096 + p.toNat * 1048576 + k.toNat * 1073741824)
  | .vcvtF32Uq8 d s p k => some (32, 637534259 + d.toNat * 128 + s.toNat * 4096 + p.toNat * 1048576 + k.toNat * 1073741824)
  | .vcvtI16F32 d s p k => some (32, 671088691 + d.toNat * 128 + s.toNat * 4096 + p.toNat * 1048576 + k.toNat * 1073741824)
  | .vcvtI16F32Rtz d s p k => some (32, 704643123 + d.toNat * 128 + s.toNat * 4096 + p.toNat * 1048576 + k.toNat * 1073741824)
  | .vcvtF32I16 d s p k => some (32, 738197555 + d.toNat * 128 + s.toNat * 4096 + p.toNat * 1048576 + k.toNat * 1073741824)
  | .vcvtI32I8 d s p k => some (32, 771751987 + d.toNat * 128 + s.toNat * 4096 + p.toNat * 1048576 + k.toNat * 1073741824)
  | .vcvtI8I32 d s p k => some (32, 805306419 + d.toNat * 128 + s.toNat * 4096 + p.toNat * 1048576 + k.toNat * 1073741824)
  | .vcvtI32I16 d s p k => some (32, 838860851 + d.toNat * 128 + s.toNat * 4096 + p.toNat * 1048576 + k.toNat * 1073741824)
  | .vcvtI16I32 d s p k => some (32, 872415283 + d.toNat * 128 + s.toNat * 4096 + p.toNat * 1048576 + k.toNat * 1073741824)
  | .vcvtE4m3F16 d s p k => some (32, 905969715 + d.toNat * 128 + s.toNat * 4096 + p.toNat * 1048576 + k.toNat * 1073741824)
  | .vcvtF16E4m3 d s p k => some (32, 939524147 + d.toNat * 128 + s.toNat * 4096 + p.toNat * 1048576 + k.toNat * 1073741824)
  | .qsc t e => some (32, 131123 + t.toNat * 1048576 + e.toNat * 33554432)
  | .qstat d e => some (32, 134348851 + d.toNat * 128 + e.toNat * 33554432)
  | .qcar d e => some (32, 268566579 + d.toNat * 128 + e.toNat * 33554432)
  | .qclr e => some (32, 402784307 + e.toNat * 33554432)
  | .qhist t e m => some (32, 262195 + t.toNat * 1048576 + e.toNat * 33554432 + m.toNat * 134217728)
  | .qstE4m3 d s t e m => some (32, 393267 + d.toNat * 128 + s.toNat * 4096 + t.toNat * 1048576 + e.toNat * 33554432 + m.toNat * 134217728)
  | .vredsum d s e k => some (32, 53 + d.toNat * 128 + s.toNat * 4096 + e.toNat * 33554432 + k.toNat * 1073741824)
  | .vredmin d s e k => some (32, 134217781 + d.toNat * 128 + s.toNat * 4096 + e.toNat * 33554432 + k.toNat * 1073741824)
  | .vredmax d s e k => some (32, 268435509 + d.toNat * 128 + s.toNat * 4096 + e.toNat * 33554432 + k.toNat * 1073741824)
  | .vredminu d s e k => some (32, 402653237 + d.toNat * 128 + s.toNat * 4096 + e.toNat * 33554432 + k.toNat * 1073741824)
  | .vredmaxu d s e k => some (32, 536870965 + d.toNat * 128 + s.toNat * 4096 + e.toNat * 33554432 + k.toNat * 1073741824)
  | .vfredsum d s k => some (32, 671088693 + d.toNat * 128 + s.toNat * 4096 + k.toNat * 1073741824)
  | .vfredmax d s k => some (32, 805306421 + d.toNat * 128 + s.toNat * 4096 + k.toNat * 1073741824)
  | .vfredmin d s k => some (32, 939524149 + d.toNat * 128 + s.toNat * 4096 + k.toNat * 1073741824)
  | .vperm d s t e k => some (32, 131125 + d.toNat * 128 + s.toNat * 4096 + t.toNat * 1048576 + e.toNat * 33554432 + k.toNat * 1073741824)
  | .vslide d s t e k => some (32, 134348853 + d.toNat * 128 + s.toNat * 4096 + t.toNat * 1048576 + e.toNat * 33554432 + k.toNat * 1073741824)
  | .vcomp d s e k => some (32, 268566581 + d.toNat * 128 + s.toNat * 4096 + e.toNat * 33554432 + k.toNat * 1073741824)
  | .vrev d s e k => some (32, 402784309 + d.toNat * 128 + s.toNat * 4096 + e.toNat * 33554432 + k.toNat * 1073741824)
  | .kand c s t => some (32, 262197 + c.toNat * 128 + s.toNat * 4096 + t.toNat * 1048576)
  | .kor c s t => some (32, 134479925 + c.toNat * 128 + s.toNat * 4096 + t.toNat * 1048576)
  | .kxor c s t => some (32, 268697653 + c.toNat * 128 + s.toNat * 4096 + t.toNat * 1048576)
  | .knot c s => some (32, 402915381 + c.toNat * 128 + s.toNat * 4096)
  | .kfromx c s => some (32, 537133109 + c.toNat * 128 + s.toNat * 4096)
  | .ktox d s => some (32, 671350837 + d.toNat * 128 + s.toNat * 4096)
  | .kpop d s => some (32, 805568565 + d.toNat * 128 + s.toNat * 4096)
  | .repOpen n => some (32, 55 + n.toNat * 1048576)
  | .repRun s t p => some (32, 131127 + s.toNat * 4096 + t.toNat * 1048576 + p.toNat * 33554432)
  | .tmapLd m s => some (32, 57 + m.toNat * 128 + s.toNat * 4096)
  | .tmapRd d n m => some (32, 131129 + d.toNat * 128 + n.toNat * 1048576 + m.toNat * 33554432)
  | .tmapMov m s => some (32, 262201 + m.toNat * 128 + s.toNat * 4096)
  | .gangWld m s p r => some (32, 59 + m.toNat * 128 + s.toNat * 4096 + p.toNat * 1048576 + r.toNat * 33554432)
  | .gangMma m a s p n w => some (32, 131131 + m.toNat * 128 + a.toNat * 1024 + s.toNat * 4096 + p.toNat * 1048576 + n.toNat * 8388608 + w.toNat * 67108864)
  | .hotReg m s t => some (32, 63 + m.toNat * 128 + s.toNat * 4096 + t.toNat * 1048576)
  | .hotMig p => some (32, 131135 + p.toNat * 1048576)
  | .hotCnt d s => some (32, 262207 + d.toNat * 128 + s.toNat * 4096)
  | .gangStart _ => none
  | .gangCompletion _ => none
  | .gangArrivalBound _ => none
  | .migrationInstant _ _ => none
  | .polderFailure _ _ _ _ => none
  | .accLd n s r => some (32, 61 + n.toNat * 1024 + s.toNat * 4096 + r.toNat * 1048576)
  | .accSt n s r => some (32, 131133 + n.toNat * 1024 + s.toNat * 4096 + r.toNat * 1048576)
  | .accZero n => some (32, 262205 + n.toNat * 1024)
  | .accFill n s => some (32, 393277 + n.toNat * 1024 + s.toNat * 4096)
  | .accTov n v r => some (32, 524349 + n.toNat * 1024 + v.toNat * 4096 + r.toNat * 1048576)
  | .accFromv n v r => some (32, 655421 + n.toNat * 1024 + v.toNat * 4096 + r.toNat * 1048576)
  | .cpy d s => some (32, 65 + d.toNat * 128 + s.toNat * 4096)
  | .gth d s => some (32, 131137 + d.toNat * 128 + s.toNat * 4096)
  | .coll d s => some (32, 262209 + d.toNat * 128 + s.toNat * 4096)
  | .engCancel d s => some (32, 393281 + d.toNat * 128 + s.toNat * 4096)
  | .engineAccess _ _ _ => none
  | .engineCompletion _ _ => none
  | .engineFault _ _ _ => none
  | .engineQueueHalt _ _ => none
  | .hint h => some (32, 127 + h.toNat * 128)
  | .cAddi d i => some (16, 2 + d.toNat * 2048 + i.toNat * 32)
  | .cSet d i => some (16, 4 + d.toNat * 2048 + i.toNat * 32)
  | .cMv d s => some (16, 6 + d.toNat * 2048 + s.toNat * 64)
  | .cAdd d s => some (16, 38 + d.toNat * 2048 + s.toNat * 64)
  | .cSub d s => some (16, 8 + d.toNat * 2048 + s.toNat * 64)
  | .cAnd d s => some (16, 40 + d.toNat * 2048 + s.toNat * 64)
  | .cOr d s => some (16, 10 + d.toNat * 2048 + s.toNat * 64)
  | .cXor d s => some (16, 42 + d.toNat * 2048 + s.toNat * 64)
  | .cSlli d n => some (16, 12 + d.toNat * 2048 + n.toNat * 32)
  | .cSrli d n => some (16, 14 + d.toNat * 2048 + n.toNat * 32)
  | .cLdD d s o => some (16, 16 + d.toNat * 8192 + s.toNat * 1024 + o.toNat * 32)
  | .cStD d s o => some (16, 18 + d.toNat * 8192 + s.toNat * 1024 + o.toNat * 32)
  | .cLdW d s o => some (16, 20 + d.toNat * 8192 + s.toNat * 1024 + o.toNat * 32)
  | .cStW d s o => some (16, 22 + d.toNat * 8192 + s.toNat * 1024 + o.toNat * 32)
  | .cBz s o => some (16, 24 + s.toNat * 8192 + o.toNat * 32)
  | .cBnz s o => some (16, 26 + s.toNat * 8192 + o.toNat * 32)
  | .cJump o => some (16, 28 + o.toNat * 32)
  | .cNop => some (16, 30)
  | .cTaskEnd => some (16, 62)
  | .safePointBound _ _ => none
  | .messageArrival _ => none
  | .refusalArrival _ => none
  | .messageDispatch _ => none
  | .taskSelection _ => none
  | .ageing _ _ => none
  | .arrivalHandlerStart _ => none
  | .launchMessageRedelivery _ => none
  | .launchCompletion _ _ => none
  | .drain _ _ => none
  | .perform _ => none
  | .loadPerform _ _ => none
  | .invalidationAcknowledgement _ _ => none
  | .evictionNotice _ _ => none
  | .writeBack _ _ => none
  | .selfRefresh _ => none
  | .tlbMiss _ _ _ => none
  | .taskMigration _ => none
  | .migrationTimeout _ _ => none
  | .remoteAccessTimeout _ _ => none
  | .faultMessageResend _ => none
  | .hostBar2Access _ _ _ _ => none
  | .hostBar4Access _ _ _ _ => none
  | .hostTranslationFill _ => none
  | .hostLaunch _ _ => none
  | .registerWrite _ _ => none
  | .giariMessageArrival _ _ _ => none
  | .linkRetraining _ => none
  | .linkFailure _ => none
  | .powerOnReset _ => none
  | .reducedServiceEntry => none
  | .fullServiceTransition => none
  | .clockStateUpdate _ _ _ _ => none
  | .checkpointCount _ => none
  | .checkpointTime _ => none
  | .checkpointRetry _ => none
  | .frameCreate _ => none
  | .frameReset _ => none
  | .frameRead _ => none
  | .faultqSet _ => none
  | .imageLoad _ => none
  | .evictLoad _ => none
  | .spillSet _ => none
  | .tvecSet _ => none
  | .aspaceSet _ => none
  | .tlbInvalidate _ => none
  | .engineRestart _ => none
  | .preempt _ => none
  | .regionRegister _ _ => none
  | .regionRead _ => none
  | .regionRetire _ _ => none
  | .attestRequest _ => none
  | .checkpoint _ _ => none
  | .keyInstall _ _ => none
  | .certRead _ => none
  | .reservedRequestCode _ => none
  | .debugReadRegisters _ => none
  | .debugReadTile _ => none
  | .debugReadQueues _ => none
  | .debugReadBarrier _ => none
  | .debugReadRingdike _ => none
  | .debugReadEngine _ => none
  | .debugReadWaitQueue _ => none
  | .debugReadSaveStore _ => none
  | .debugReadDirectory _ => none
  | .debugReadTrapState _ => none
  | .debugWriteRegister _ => none
  | .halt _ => none
  | .resume _ => none
  | .stepHalt _ => none
  | .breakpoint _ _ => none
  | .illegalInstruction _ => none
  | .flitReplay _ => none
  | .powerLoss => none
  | .remoteAccessReply _ _ _ => none
  | .giariAccess _ _ _ _ => none
  | .migratedTaskArrival _ _ => none
  | .streamPortArrival _ => none
  | .debugMemoryWrite _ _ => none

end Sys2Proof
end

