-- ==== Sys2Proof/Machine/Assoc.lean ====
section
/-!
DEFINITION. Sparse tables: lists of (key, value) pairs with strictly rising keys and no entry equal to the value an
unlisted key reads as. Memory, side handles and every other table of the machine have this one form.
-/

namespace Sys2Proof.Machine

/-- A sparse table. -/
abbrev Tab (α : Type) := List (Nat × α)

/-- What a key reads as; an unlisted key reads `d`. -/
def Tab.get {α : Type} (d : α) : Tab α → Nat → α
  | [], _ => d
  | (k', v) :: t, k => if k' = k then v else if k < k' then d else Tab.get d t k

/-- Writing `v` at `k`; writing the default removes the entry. -/
def Tab.put {α : Type} [DecidableEq α] (d : α) : Tab α → Nat → α → Tab α
  | [], k, v => if v = d then [] else [(k, v)]
  | (k', v') :: t, k, v =>
    if k' < k then (k', v') :: Tab.put d t k v
    else if v = d then ((k', v') :: t).dropWhile (fun p => decide (p.1 ≤ k))
    else (k, v) :: ((k', v') :: t).dropWhile (fun p => decide (p.1 ≤ k))

/-- Rising keys, no default value listed. -/
def Tab.wf {α : Type} [DecidableEq α] (d : α) : Tab α → Bool
  | [] => true
  | [(_, v)] => decide (v ≠ d)
  | (k, v) :: (k', v') :: t => decide (v ≠ d) && decide (k < k') && Tab.wf d ((k', v') :: t)

/-- The `n` entries from `k` upward, as a list. -/
def Tab.range {α : Type} (d : α) (t : Tab α) (k : Nat) : Nat → List α
  | 0 => []
  | n + 1 => Tab.get d t k :: Tab.range d t (k + 1) n

/-- Writing a list of values from `k` upward. -/
def Tab.fill {α : Type} [DecidableEq α] (d : α) (t : Tab α) (k : Nat) : List α → Tab α
  | [] => t
  | v :: vs => Tab.fill d (Tab.put d t k v) (k + 1) vs

end Sys2Proof.Machine
end

