-- ==== Sys2Proof/Machine/Bits.lean ====
section
/-!
DEFINITION. Bit fields, lists of bytes and lanes, and small list tools used by the meanings (R1, R2, R7, R80).
-/

namespace Sys2Proof.Machine

/-- Bits [lo + len - 1 : lo] of a dword, as a number. -/
def bits (w : Word) (lo len : Nat) : Nat := w.toNat / 2 ^ lo % 2 ^ len

/-- Bit `i` of a dword. -/
def bit (w : Word) (i : Nat) : Bool := w.getLsbD i

/-- A number as a dword. -/
def word (n : Nat) : Word := BitVec.ofNat 64 n

/-- An integer as a dword, wrapped (R7, Wrap64). -/
def wrap64 (z : Int) : Word := BitVec.ofInt 64 z

/-- A truth value as 0 or 1. -/
def flag (b : Bool) : Word := if b then 1 else 0

/-- A dword with bits [lo + len - 1 : lo] replaced. -/
def setBits (w : Word) (lo len v : Nat) : Word :=
  word (w.toNat - bits w lo len * 2 ^ lo + v % 2 ^ len * 2 ^ lo)

/-- A field read as a signed number (R199). -/
def sx {n : Nat} (f : BitVec n) : Int := f.toInt

/-- Sat(x, lo, hi) (R7). -/
def sat (x lo hi : Int) : Int := if x < lo then lo else if hi < x then hi else x

/-- The dword that eight bytes spell (R2). -/
def wordOf (bs : List Byte) : Word := word (leNat bs)

/-- The eight bytes of a dword (R2). -/
def bytesOf (w : Word) : List Byte := leBytes 8 w.toNat

/-- Dwords as bytes. -/
def dwordBytes (ws : List Word) : List Byte := ws.flatMap bytesOf

/-- The dwords of a byte string, `n` of them. -/
def dwords : Nat → List Byte → List Word
  | 0, _ => []
  | n + 1, bs => wordOf (bs.take 8) :: dwords n (bs.drop 8)

/-- `n` numbers of `w` bits, from the low bits of a number upward (R80). -/
def unpack (w : Nat) : Nat → Nat → List Nat
  | 0, _ => []
  | n + 1, v => v % 2 ^ w :: unpack w n (v / 2 ^ w)

/-- Numbers of `w` bits packed from the low bits upward (R80). -/
def pack (w : Nat) : List Nat → Nat
  | [] => 0
  | v :: vs => v % 2 ^ w + 2 ^ w * pack w vs

/-- `w` bits read as a signed number (R78). -/
def sgn (w : Nat) (n : Nat) : Int := if n % 2 ^ w < 2 ^ (w - 1) then (n % 2 ^ w : Nat) else (n % 2 ^ w : Nat) - (2 ^ w : Nat)

/-- An integer as `w` bits, wrapped. -/
def wrap (w : Nat) (z : Int) : Nat := (z % (2 ^ w : Nat)).toNat

/-- 0, 1, …, n - 1. -/
def upto (n : Nat) : List Nat := List.range n

/-- Insertion into a list that `le` orders. -/
def insertBy {α : Type} (le : α → α → Bool) (a : α) : List α → List α
  | [] => [a]
  | b :: bs => if le a b then a :: b :: bs else b :: insertBy le a bs

/-- Insertion sort; equal elements keep their order. -/
def sortBy {α : Type} (le : α → α → Bool) : List α → List α
  | [] => []
  | a :: as => insertBy le a (sortBy le as)

/-- The number of one bits of a number below 2^n. -/
def popCount : Nat → Nat → Nat
  | 0, _ => 0
  | n + 1, v => v % 2 + popCount n (v / 2)

/-- A list without its element at a position. -/
def dropAt {α : Type} (l : List α) (i : Nat) : List α := l.take i ++ l.drop (i + 1)

/-- Byte ranges [a, a + m) and [b, b + n) meet. -/
def overlap (a m b n : Nat) : Bool := decide (a < b + n) && decide (b < a + m)

end Sys2Proof.Machine
end

