-- ==== Sys2Proof/Machine/Fp.lean ====
section
/-!
DEFINITION. Floating point (R79, R81-R83): every operation computes exactly and rounds once, to nearest with ties to
even. Encodings are numbers below 2^width.
-/

namespace Sys2Proof.Machine

/-- A floating-point format (R79): width, fraction width, bias, and whether its all-ones exponent holds normal values
(E4M3). -/
structure Fmt where
  width : Nat
  fw : Nat
  bias : Nat
  noInf : Bool := false
  deriving DecidableEq, Repr

/-- FP32 (R79). -/
def fp32 : Fmt := ⟨32, 23, 127, false⟩
/-- FP16 (R79). -/
def fp16 : Fmt := ⟨16, 10, 15, false⟩
/-- BF16 (R79). -/
def bf16 : Fmt := ⟨16, 7, 127, false⟩
/-- E4M3 (R79). -/
def e4m3 : Fmt := ⟨8, 3, 7, true⟩
/-- E5M2 (R79). -/
def e5m2 : Fmt := ⟨8, 2, 15, false⟩

/-- A value: NaN, an infinity, or (−1)^neg × m × 2^e. -/
inductive Fl where
  | nan
  | inf (neg : Bool)
  | fin (neg : Bool) (m : Nat) (e : Int)
  deriving DecidableEq, Repr

/-- The smallest exponent of a normal value. -/
def Fmt.emin (f : Fmt) : Int := 1 - (f.bias : Int)

/-- The encoding of +∞, or the first one past the largest finite value. -/
def Fmt.infBits (f : Fmt) : Nat :=
  if f.noInf then 2 ^ (f.width - 1) - 1 else 2 ^ (f.width - 1) - 2 ^ f.fw

/-- The canonical NaN (R79). -/
def Fmt.nanBits (f : Fmt) : Nat :=
  if f.noInf then 2 ^ (f.width - 1) - 1 else f.infBits + 2 ^ (f.fw - 1)

/-- A sign bit. -/
def Fmt.signBit (f : Fmt) (neg : Bool) : Nat := if neg then 2 ^ (f.width - 1) else 0

/-- The value of an encoding (R79). -/
def Fmt.value (f : Fmt) (x : Nat) : Fl :=
  let mag := x % 2 ^ (f.width - 1)
  let neg := decide (x / 2 ^ (f.width - 1) % 2 = 1)
  let frac := mag % 2 ^ f.fw
  let ex := mag / 2 ^ f.fw
  if f.infBits < mag || (f.noInf && decide (mag = f.infBits)) then .nan
  else if mag = f.infBits then .inf neg
  else if ex = 0 then .fin neg frac (f.emin - f.fw)
  else .fin neg (2 ^ f.fw + frac) ((ex : Int) - f.bias - f.fw)

/-- floor(log2 (p / q × 2^e)) of a positive value. -/
def log2q (p q : Nat) (e : Int) : Int :=
  let k : Int := (Nat.log2 p : Int) - Nat.log2 q
  let big := if 0 ≤ k then decide (q * 2 ^ k.toNat ≤ p) else decide (q ≤ p * 2 ^ (-k).toNat)
  (if big then k else k - 1) + e

/-- num / den to the nearest integer, ties to even. -/
def nearest (num den : Nat) : Nat :=
  let n := num / den
  let r := num % den
  if den < 2 * r || (decide (2 * r = den) && decide (n % 2 = 1)) then n + 1 else n

/-- p / q × 2^e to the nearest integer, ties to even. -/
def nearestAt (p q : Nat) (e : Int) : Nat :=
  if 0 ≤ e then nearest (p * 2 ^ e.toNat) q else nearest p (q * 2 ^ (-e).toNat)

/-- The magnitude p / q × 2^e rounded to nearest even, as the encoding it would have with no bound on the exponent
(R81). -/
def Fmt.roundMag (f : Fmt) (p q : Nat) (e : Int) : Nat :=
  if p = 0 then 0
  else
    let k := max (log2q p q e) f.emin
    (k - f.emin).toNat * 2 ^ f.fw + nearestAt p q (e - (k - f.fw))

/-- RNE of a non-NaN exact value: overflow gives ±∞ (R81); not for E4M3. -/
def Fmt.round (f : Fmt) (neg : Bool) (p q : Nat) (e : Int) : Nat :=
  f.signBit neg + min (f.roundMag p q e) f.infBits

/-- RNE_E4M3 of a finite value: the encoding and whether it saturated (R81). -/
def roundE4m3 (neg : Bool) (p q : Nat) (e : Int) : Nat × Bool :=
  let b := e4m3.roundMag p q e
  (e4m3.signBit neg + min b 0x7E, decide (0x7E < b))

/-- A signed integer multiple of 2^e, and the sign its zero takes, rounded. -/
def Fmt.roundInt (f : Fmt) (z : Int) (q : Nat) (e : Int) (zeroNeg : Bool) : Nat :=
  if z = 0 then f.signBit zeroNeg else f.round (decide (z < 0)) z.natAbs q e

/-- A finite value as an integer multiple of 2^e, for e at or below its exponent. -/
def atExp (neg : Bool) (m : Nat) (ex e : Int) : Int :=
  let v : Int := (m * 2 ^ (ex - e).toNat : Nat)
  if neg then -v else v

/-- An infinity's encoding. -/
def Fmt.inf (f : Fmt) (neg : Bool) : Nat := f.signBit neg + f.infBits

/-- The sum of two values, rounded once (R81, R82). -/
def Fmt.addV (f : Fmt) : Fl → Fl → Nat
  | .nan, _ => f.nanBits
  | _, .nan => f.nanBits
  | .inf a, .inf b => if a = b then f.inf a else f.nanBits
  | .inf a, .fin _ _ _ => f.inf a
  | .fin _ _ _, .inf b => f.inf b
  | .fin sa ma ea, .fin sb mb eb =>
    let e := min ea eb
    f.roundInt (atExp sa ma ea e + atExp sb mb eb e) 1 e (decide (ma = 0) && decide (mb = 0) && sa && sb)

/-- The exact product of two values; the NaN cases are those without a real value (R81). -/
def mulV : Fl → Fl → Fl
  | .nan, _ => .nan
  | _, .nan => .nan
  | .inf a, .inf b => .inf (a != b)
  | .inf a, .fin b m _ => if m = 0 then .nan else .inf (a != b)
  | .fin a m _, .inf b => if m = 0 then .nan else .inf (a != b)
  | .fin a m e, .fin b n g => .fin (a != b) (m * n) (e + g)

/-- A value with its sign changed. -/
def negV : Fl → Fl
  | .nan => .nan
  | .inf a => .inf (!a)
  | .fin a m e => .fin (!a) m e

/-- A value rounded into a format. -/
def Fmt.ofV (f : Fmt) : Fl → Nat
  | .nan => f.nanBits
  | .inf a => f.inf a
  | .fin a m e => f.round a m 1 e

/-- a + b. -/
def Fmt.add (f : Fmt) (a b : Nat) : Nat := f.addV (f.value a) (f.value b)
/-- a − b. -/
def Fmt.sub (f : Fmt) (a b : Nat) : Nat := f.addV (f.value a) (negV (f.value b))
/-- a × b. -/
def Fmt.mul (f : Fmt) (a b : Nat) : Nat := f.ofV (mulV (f.value a) (f.value b))
/-- c + a × b, rounded once. -/
def Fmt.fma (f : Fmt) (c a b : Nat) : Nat := f.addV (f.value c) (mulV (f.value a) (f.value b))
/-- c − a × b, rounded once. -/
def Fmt.fnms (f : Fmt) (c a b : Nat) : Nat := f.addV (f.value c) (negV (mulV (f.value a) (f.value b)))

/-- a / b (R272); zero and ±∞ divided by zero are cases of R81 that have no real value (log 11). -/
def Fmt.div (f : Fmt) (a b : Nat) : Nat :=
  match f.value a, f.value b with
  | .nan, _ => f.nanBits
  | _, .nan => f.nanBits
  | .inf _, .inf _ => f.nanBits
  | .inf x, .fin y n _ => if n = 0 then f.nanBits else f.inf (x != y)
  | .fin x _ _, .inf y => f.signBit (x != y)
  | .fin x m e, .fin y n g =>
    if n = 0 then (if m = 0 then f.nanBits else f.inf (x != y))
    else f.round (x != y) m n (e - g)

/-- floor(sqrt n) by bits: `k` more bits to try above the root `r`. -/
def isqrtFrom (n : Nat) : Nat → Nat → Nat
  | 0, r => r
  | k + 1, r => if (r + 2 ^ k) * (r + 2 ^ k) ≤ n then isqrtFrom n k (r + 2 ^ k) else isqrtFrom n k r

/-- √a (R272): the root to 40 bits and a sticky bit below it. -/
def Fmt.sqrt (f : Fmt) (a : Nat) : Nat :=
  match f.value a with
  | .nan => f.nanBits
  | .inf n => if n then f.nanBits else f.inf false
  | .fin n m e =>
    if m = 0 then f.signBit n
    else if n then f.nanBits
    else
      let sh : Nat := 80 - Nat.log2 m
      let sh := if (e - sh) % 2 = 0 then sh else sh + 1
      let big := m * 2 ^ sh
      let r := isqrtFrom big 42 0
      f.round false (2 * r + (if r * r = big then 0 else 1)) 1 ((e - sh) / 2 - 1)

/-- Order of encodings: −0 and +0 agree. -/
def Fmt.key (f : Fmt) (x : Nat) : Int :=
  let mag : Int := (x % 2 ^ (f.width - 1) : Nat)
  if x / 2 ^ (f.width - 1) % 2 = 1 then -mag else mag

/-- Order of encodings with −0 below +0. -/
def Fmt.strictKey (f : Fmt) (x : Nat) : Int :=
  let mag : Int := (x % 2 ^ (f.width - 1) : Nat)
  if x / 2 ^ (f.width - 1) % 2 = 1 then -mag - 1 else mag

/-- The encoding is a NaN. -/
def Fmt.isNan (f : Fmt) (x : Nat) : Bool := decide (f.value x = .nan)

/-- The smaller value; NaN if either is (R272). -/
def Fmt.min (f : Fmt) (a b : Nat) : Nat :=
  if f.isNan a || f.isNan b then f.nanBits else if f.strictKey b < f.strictKey a then b else a
/-- The larger value; NaN if either is (R272). -/
def Fmt.max (f : Fmt) (a b : Nat) : Nat :=
  if f.isNan a || f.isNan b then f.nanBits else if f.strictKey a < f.strictKey b then b else a

/-- a = b (R272). -/
def Fmt.eq (f : Fmt) (a b : Nat) : Bool := !f.isNan a && !f.isNan b && decide (f.key a = f.key b)
/-- a < b (R272). -/
def Fmt.lt (f : Fmt) (a b : Nat) : Bool := !f.isNan a && !f.isNan b && decide (f.key a < f.key b)
/-- a ≤ b (R272). -/
def Fmt.le (f : Fmt) (a b : Nat) : Bool := !f.isNan a && !f.isNan b && decide (f.key a ≤ f.key b)

/-! ### Conversions (R83) -/

/-- Float to float. -/
def Fmt.cvt (src dst : Fmt) (x : Nat) : Nat :=
  match src.value x with
  | .nan => dst.nanBits
  | .inf n => if dst.noInf then dst.signBit n + 0x7E else dst.inf n
  | .fin n m e =>
    if dst.noInf then (roundE4m3 n m 1 e).1
    else if dst = e5m2 then dst.signBit n + Nat.min (dst.roundMag m 1 e) (dst.infBits - 1)
    else dst.round n m 1 e

/-- A finite value × 2^k to an integer, to nearest even or toward zero. -/
def toInt (rtz : Bool) (n : Bool) (m : Nat) (e : Int) : Int :=
  let q := if rtz then (if 0 ≤ e then m * 2 ^ e.toNat else m / 2 ^ (-e).toNat) else nearestAt m 1 e
  if n then -(q : Int) else q

/-- Float to integer: saturating, NaN to 0; `k` scales by 2^k (8 for UQ0.8). -/
def Fmt.toInt (f : Fmt) (rtz : Bool) (k : Nat) (lo hi : Int) (x : Nat) : Int :=
  match f.value x with
  | .nan => 0
  | .inf n => if n then lo else hi
  | .fin n m e => sat (Machine.toInt rtz n m (e + k)) lo hi

/-- Integer × 2^−k to float. -/
def Fmt.ofInt (f : Fmt) (z : Int) (k : Nat) : Nat :=
  if f.noInf then (if z = 0 then 0 else (roundE4m3 (decide (z < 0)) z.natAbs 1 (-(k : Int))).1)
  else f.roundInt z 1 (-(k : Int)) false

/-- floor(log2 |x|) of a non-zero finite value (R90). -/
def Fmt.exponent (f : Fmt) (x : Nat) : Option Int :=
  match f.value x with
  | .fin _ m e => if m = 0 then none else some ((Nat.log2 m : Int) + e)
  | _ => none

/-- RNE32(old + b), NaN giving the canonical NaN (R149, R152, R248). -/
def fadd32 (a b : Nat) : Nat := fp32.add a b

end Sys2Proof.Machine
end

