-- ==== Sys2Proof/Config.lean ====
section
/-!
DEFINITION. What the spec leaves open (free values, no body) and what lies outside it (cryptography, the device's
identity): uninterpreted constants, so that no proof can see a value of one.
-/

namespace Sys2Proof

/-- Free dwords: the value number `n` of a run (log 4). -/
opaque Config.freeWord : Nat → BitVec 64

/-- Free 8,192-bit values: the cells of a tile whose gang completion failed (R341, R359; log 4). -/
opaque Config.freeTile : Nat → BitVec 8192

/-- Free bytes: what read number `n` of byte `pa` of an enabled spillway's range returns (R148; log 4). -/
opaque Config.freeByte : Nat → Nat → BitVec 8

/-- Free sluice words: what word `off` holds after ordinary write number `n` into the spillway: value, handle, frame
and die bit (R148; log 4). -/
opaque Config.freeSluice : Nat → Nat → BitVec 64 × BitVec 16 × BitVec 8 × Bool

/-- How many words a stream-port route holds under way before a further `sp.put` waits (R225; log 69). -/
opaque Config.routeWords : Nat

/-- The pseudo-channel of the memory stacks that serves a line (R115; log 45). -/
opaque Config.channelOf : Nat → Nat

/-- The power in watts that the firmware estimates for a clock state, by a running number (R312; log 23). -/
opaque Config.estimate : Nat → Nat → Nat

/-- SHA-512 of a byte string, 64 bytes (R314, R318; log 5). -/
opaque Config.sha512 : List (BitVec 8) → List (BitVec 8)

/-- Whether a signature verifies: public key, 64-byte digest, signature (R314; log 5). -/
opaque Config.edVerify : List (BitVec 8) → List (BitVec 8) → List (BitVec 8) → Bool

/-- The device's signature over a 64-byte digest (R314; log 5). -/
opaque Config.edSign : List (BitVec 8) → List (BitVec 8)

/-- Whether a certificate chain leads to the Zwinor root (R318; log 5). -/
opaque Config.chainOk : List (BitVec 8) → Bool

/-- The signing key that a certificate chain carries (R318; log 5). -/
opaque Config.chainKey : List (BitVec 8) → List (BitVec 8)

/-- The device's number, of which SERIAL is made (R313; log 5). -/
opaque Config.number : BitVec 64

/-- SERIAL of the device, which is never 0 (R313; log 5). -/
def Config.serial : BitVec 64 := if Config.number = 0 then 1 else Config.number

/-- DEVKEY, the public key of the device (R313; log 5). -/
opaque Config.devKey : List (BitVec 8)

/-- DEVCERT (R313; log 5). -/
opaque Config.devCert : List (BitVec 8)

/-- SHA-512 digest of the Tuquin image verified at bring-up (R317; log 5). -/
opaque Config.fwDigest : List (BitVec 8)

end Sys2Proof
end

