-- ==== Sys2Proof/Machine/State.lean ====
section
/-!
DEFINITION. The state of the machine: everything the spec gives a CH9 package, as plain data, with the reasons a step
can stop. One core is held in `State.core` (the acting core) and the others in `State.parked`; which core and which
stream that is, and what moves next, is data of the model's own (log 1).
-/

namespace Sys2Proof.Machine

/-- Reasons to stop with a fault. The spec stops the machine nowhere: nobody raises one (safe). -/
inductive Fault where
  /-- Raised by nobody; kept so that the type has a name to print (safe). -/
  | none
  deriving DecidableEq, Repr

/-- Reasons to refuse an instruction. -/
inductive Refusal where
  /-- Raised by `exec` for an instruction that has no meaning yet (safe). -/
  | notModelled (mnemonic : String)
  deriving DecidableEq, Repr

/-! ### Registers -/

/-- A dword with its label: an x register, a mask register, a queue entry (R63). -/
structure XReg where
  val : Word := 0
  lbl : Handle := always
  deriving DecidableEq, Repr

/-- A vector register (R63, R80). -/
structure VReg where
  val : Lanes := 0
  lbl : Handle := always
  deriving DecidableEq, Repr

/-- A tensor-map register (R121). -/
structure MReg where
  d0 : Word := 0
  d1 : Word := 0
  d2 : Word := 0
  d3 : Word := 0
  lbl : Handle := always
  deriving DecidableEq, Repr

/-- An accumulator tile, cell [r][c] in bits [512r + 32c + 31 : 512r + 32c], with its ASTAT (R160, R286). -/
structure AccReg where
  cells : BitVec 8192 := 0
  lbl : Handle := always
  inv : Bool := false
  busy : Bool := false
  sat : Bool := false
  deriving DecidableEq, Repr

/-- The identity of a residue register's last store: map, segment and the position along the axis after it (R88). -/
structure LastStore where
  map : Nat
  seg : Nat
  pos : Nat
  deriving DecidableEq, Repr

/-- A residue register (R88). `hist` counts exponent x of lane i at key 1024 i + x + 512. -/
structure EReg where
  carry : Lanes := 0
  scale : Lanes := 0
  supplied : Lanes := 0
  hist : Tab Nat := []
  satc : BitVec 16 := 0
  nan : Bool := false
  badsc : Bool := false
  axis : Bool := false
  pos : Nat := 0
  last : Option LastStore := none
  lbl : Handle := always
  deriving DecidableEq, Repr

/-! ### Streams and tasks -/

/-- A trap as the cause table gives it: cause, TRAPVAL and the record's detail dwords 5 to 7 (R331, R365). -/
structure Trap where
  cause : BitVec 8
  val : Word := 0
  d5 : Word := 0
  d6 : Word := 0
  d7 : Word := 0
  deriving DecidableEq, Repr

/-- What a stream waits for. -/
inductive WaitKind where
  /-- A queue of the task, or at `task.end` the access stream's end (R38, R40, R222). -/
  | queue
  /-- Stores still to perform at a task's end (R227, R330). -/
  | ending
  /-- The end of the access stream's current instruction, or of a gang operation, at `safept` (R51, R161). -/
  | boundary
  /-- Peers at an `align` (R42). -/
  | align
  /-- Earlier accesses of the stream that must perform first (R132, R135, R137, R139). -/
  | accesses
  /-- A buffered store that a load overlaps, or a fence before the load (R127, R132). -/
  | load
  /-- A line in an ownership set (R135). -/
  | recall
  /-- A TLB entry for an address; `kind` is R355's access kind (R117). -/
  | tlb (va kind : Nat)
  /-- The home package's answer to an access at an address (R119, R355). -/
  | remote (va home : Nat)
  /-- The home package's answer to a migration request that an access at an address has made (R119, R355). -/
  | migrate (va home : Nat)
  /-- A ring slot (R144). -/
  | ring
  /-- The sluice engine's answer (R149). -/
  | sluice
  /-- A wake (R151). -/
  | wake
  /-- A barrier release (R153). -/
  | barrier
  /-- The other gang arrivals (R154). -/
  | gang
  /-- A tile or plane that a gang operation is writing (R161). -/
  | busy
  /-- A place in an engine queue, or a line held by another set (R135, R169). -/
  | engine
  /-- The acknowledgement of a closing marker (R225). -/
  | port
  /-- The other stream's trap handler (R328). -/
  | handler
  /-- A newer checkpoint (R322). -/
  | bammos
  | storage
  /-- The next cycle, at a pending-launch store, a station or a sluice engine that a party later in its order has reached in this one (R50,
  R144, R150). -/
  | launch
  deriving DecidableEq, Repr

/-- A wait and the cycle it began in. -/
structure Wait where
  kind : WaitKind
  since : Nat
  deriving DecidableEq, Repr

/-- What another unit answers a waiting instruction: a value with its label and the DEP that the instruction leaves, the bytes of a
remotely served access, a trap, or a bare completion. -/
inductive Reply where
  | value (v : Word) (lbl dep : Handle)
  | bytes (bs : List Byte)
  | trap (t : Trap)
  | done
  deriving DecidableEq, Repr

/-- An open stream port (R224, R225). -/
structure Port where
  id : Nat
  base : Word
  hv : Bool
  handler : Nat
  put : Nat
  deriving DecidableEq, Repr

/-- What a `ring.alight` holds while its store is under way to another package: value, label, DEP, and the access (R119, R145). -/
structure Kept where
  val : Word
  lbl : Handle
  dep : Handle
  va : Nat
  home : Nat
  deriving DecidableEq, Repr

/-- A fence that a stream has retired while some earlier accesses, `ids`, had still to perform (R132). -/
structure FenceRec where
  loads : Bool
  stores : Bool
  scope : Nat
  ids : List Nat
  deriving DecidableEq, Repr

/-- Where bytes live: main memory by physical address, or a scratchpad by core × 2^16 + offset. -/
inductive Space where
  | main
  | spm
  deriving DecidableEq, Repr

/-- A checked piece of an access: one page, or a run of scratchpad bytes. -/
structure Loc where
  space : Space
  addr : Nat
  len : Nat
  ea : Nat
  kind : Nat
  labelled : Bool
  frm : BitVec 8
  cache : Bool
  owner : Nat
  remote : Option Nat
  deriving DecidableEq, Repr

/-- A granule of a later load that has performed before the instructions ahead of it have retired (R127-R129): the load's PC, and for a
captured one its number in the run, counted from 1; the registers that form its address (x register r as r, vector register as 32 + r, mask
register as 64 + r, the repetition buffer as 100), its place, page kind, bytes and labels, and how many nogoods its frame held then. -/
structure Early where
  pc : Nat
  sub : Nat
  names : List Nat
  space : Space
  addr : Nat
  kind : Nat
  bytes : List Byte
  lbls : List Handle
  seen : Nat
  deriving DecidableEq, Repr

/-- One stream of a task (R38). `holds` marks a wait that was taken while the task could not give up the core (R37, R224, R328), `asks`
one for the answer of accesses under way to their homes (R351). `shared` is the one visibility test of an instruction whose stores go to
other packages as well (R277), `under` the number of nogoods that the label of the load under way is Cleaned against, where some of it has
performed early (R127), `granted` the scratchpad banks (tile × 16 + bank) that the instruction has won so far (R97). The stream steps next in
cycle `due` or later, `lag` cycles being added by the step under way (R17). -/
structure Stream where
  active : Bool := false
  pc : Nat := 0
  dep : Handle := always
  wait : Option Wait := none
  holds : Bool := false
  reply : Option Reply := none
  asks : Bool := false
  kept : Option Kept := none
  shared : Option Bool := none
  under : Option Nat := none
  refs : List (Nat × Option Word) := []
  granted : List Nat := []
  port : Option Port := none
  fences : List FenceRec := []
  early : List Early := []
  due : Nat := 0
  lag : Nat := 0
  deriving DecidableEq, Repr

/-- A level of a launch record (R44). -/
structure Level where
  domain : Nat
  extent : Nat
  origin : Nat
  scope : Nat
  bt : Bool
  tag : Nat
  prio : Nat
  deriving DecidableEq, Repr

/-- The launch a task belongs to (R46, R335). -/
structure LaunchRef where
  die : Nat
  entry : Nat
  seq : Nat
  record : Word
  fclass : Nat
  fcore : Nat
  levels : List Level
  deriving DecidableEq, Repr

/-- A tag of a task's barrier interface: generation of its last arrival, whether that was waited on, and whether a
`bar.wait` is under way (R344). -/
structure BarIf where
  tag : Nat
  gen : Nat
  waited : Bool
  waiting : Bool
  deriving DecidableEq, Repr

/-- Where a task of the run queue stands (R36, R37). -/
inductive Status where
  | running
  | ready
  | blocked
  deriving DecidableEq, Repr

/-- Registers of a task (R16, R30). -/
structure Regs where
  x : Vector XReg 32 := Vector.replicate 32 {}
  v : Vector VReg 16 := Vector.replicate 16 {}
  k : Vector XReg 4 := Vector.replicate 4 {}
  e : Vector EReg 4 := Vector.replicate 4 {}
  m : Vector MReg 8 := Vector.replicate 8 {}
  acc : Vector AccReg 4 := Vector.replicate 4 {}
  deriving DecidableEq, Repr

/-- The loop registers (R234). -/
structure Loops where
  lb0 : BitVec 16 := 0
  le0 : BitVec 16 := 0
  lc0 : Word := 0
  lb1 : BitVec 16 := 0
  le1 : BitVec 16 := 0
  lc1 : Word := 0
  deriving DecidableEq, Repr

/-- The queues between the streams (R38). -/
structure Queues where
  ldq : List XReg := []
  stq : List XReg := []
  bqa : List XReg := []
  bqx : List XReg := []
  deriving DecidableEq, Repr

/-- A `rep.run` under way that waits inside a pass: how many captured instructions it has executed, of how many passes, and
the base step (R176). -/
structure RepRun where
  done : Nat
  count : Nat
  step : Word
  deriving DecidableEq, Repr

/-- The repetition buffer: captured instructions, `none` for a disallowed one, and a run under way (R176, R281). -/
structure RepBuf where
  body : List (Option Instr) := []
  run : Option RepRun := none
  deriving DecidableEq, Repr

/-- How a task came about and where it stands in the run queue. `uid` is the model's own name of the task; `dead` marks one whose
access stream ended with DEP = NEVER (R38, R74). -/
structure TaskInfo where
  uid : Nat := 0
  slot : Nat := 0
  carried : Option (List (BitVec 16)) := none
  launch : Option LaunchRef := none
  status : Status := .ready
  readySince : Nat := 0
  aged : Nat := 0
  preempt : Bool := false
  saved : Bool := false
  dead : Bool := false
  begun : Bool := false
  home : Option Word := none
  deriving DecidableEq, Repr

/-- A task (R30, R36, R65, R231). -/
structure Task where
  info : TaskInfo := {}
  frame : BitVec 8 := 0
  ctx : Word := 0
  supp : Bool := false
  prio : BitVec 4 := 0
  msg : Word := 0
  priv : Bool := false
  regs : Regs := {}
  loops : Loops := {}
  queues : Queues := {}
  rep : RepBuf := {}
  bars : List BarIf := []
  spCount : Nat := 0
  lastSafept : Option Nat := none
  wide : Bool := false
  ex : Stream := {}
  ac : Stream := {}
  deriving DecidableEq, Repr

/-! ### Cores -/

/-- A routine-table entry (R28). -/
structure Routine where
  v : Bool := false
  entry : BitVec 15 := 0
  frame : BitVec 8 := 0
  attested : Bool := false
  ctx : Word := 0
  deriving DecidableEq, Repr

/-- A message: header and seven payload dwords (R25); for a launch message its launch, frame and CTX (R30, R46).
`held` names the task that runs a class-0 message's code from the receive queue (R31); `fault` marks a fault-handler message and
its refusal (R335); `arrived` is the cycle of acceptance (R295). -/
structure Msg where
  hdr : Word
  payload : List Word
  launch : Option (LaunchRef × BitVec 8 × Word) := none
  held : Option Nat := none
  fault : Bool := false
  arrived : Nat := 0
  deriving DecidableEq, Repr

/-- A dormant context taken by arrival data; not `ready` while the data of transfer or command `id` is still arriving (R102). -/
structure Dormant where
  pc : Nat
  frame : BitVec 8
  dep : Handle
  prio : BitVec 4
  addr : Word
  count : Nat
  src : Nat
  ready : Bool := true
  id : Nat := 0
  deriving DecidableEq, Repr

/-- The operations of local atomics (R247). -/
inductive AmoOp where
  | add
  | and
  | or
  | xor
  | min
  | max
  | minu
  | maxu
  | swap
  | cas
  | fadd
  deriving DecidableEq, Repr

/-- What an access that does not retire before its answer does at its home (R102, R248, R351). -/
inductive Want where
  | store
  | handler (pc : Nat) (prio : BitVec 4)
  | amo (op : AmoOp) (w : Nat) (sign : Bool) (opd expected : XReg) (noRd : Bool)
  deriving DecidableEq, Repr

/-- What such an access carries: its purpose, the labels of its address operands, which DEP takes as it performs, whether its
instruction's label is interned wherever the bytes go, its effective address, its first and last atom (R67, R100), the id of its first entry,
and whether its owner has admitted it (R101). -/
structure Asked where
  want : Want
  fold : List Handle
  forms : Bool
  ea : Word
  first : Nat
  last : Nat
  acc : Nat
  admitted : Bool
  deriving DecidableEq, Repr

/-- An issued store that has not performed: one granule (R124, R126, R128). `pre` names the entries that must perform
before it drains (R129, R130, R132); the entry's label is the Product of `lbls`, one interned handle where the space keeps labels (R288).
One with `ask` is answered as it performs; a local atomic is such an entry too. -/
structure SbEntry where
  id : Nat
  core : Nat
  uid : Nat
  stream : Nat
  space : Space
  addr : Nat
  bytes : List Byte
  lbls : List Handle
  frame : BitVec 8
  ctx : Word
  kind : Nat
  labelled : Bool
  cache : Bool
  pre : List Nat
  test : Option Nat
  ask : Option Asked
  deriving DecidableEq, Repr

/-- A fault-handler message that was refused, and when the refusal came back (R335). -/
structure Resend where
  msg : Msg
  since : Nat
  deriving DecidableEq, Repr

/-- State registers of a core (R28, R32, R98, R99, R233, R327). `late` holds the writes to RQLIM, SPFRAME and the windows that land at the end
of the cycle (R35, R101, R130). -/
structure CoreRegs where
  c0r : BitVec 6 := 0
  limit : Nat := 16
  win : Vector Word 4 := Vector.replicate 4 0
  lab : Bool := false
  frm : BitVec 8 := 0
  tvec : BitVec 16 := 0
  trapPc : BitVec 16 := 0
  act : Bool := false
  trapStream : Bool := false
  cause : BitVec 8 := 0
  trapVal : Word := 0
  rout : Tab Routine := []
  late : List (Nat × Word) := []
  deriving DecidableEq, Repr

/-- Debug registers of a core (R376). `stepping` holds from a resume under STEP until the core halts again, `stepped` lists the
streams that have retired an instruction since; `pass` the instructions (task, stream, PC) that a breakpoint has stopped and that a
resume lets execute (R377). -/
structure CoreDebug where
  halted : Bool := false
  step : Bool := false
  stepping : Bool := false
  stepped : List Nat := []
  pass : List (Nat × Nat × Nat) := []
  bp : Vector Word 4 := Vector.replicate 4 0
  deriving DecidableEq, Repr

/-- What a core has done in a cycle: `stage` is 1 after a dispatch, 2 after an acceptance, whose highest SRC is `src`, and 3 after a write
that ends the cycle; `deposits` lists the tasks and registers written by engines, with the commands that wrote them (R35, R141). -/
structure Turn where
  cycle : Nat := 0
  stage : Nat := 0
  src : Nat := 0
  deposits : List ((Nat × Nat) × Nat) := []
  deriving DecidableEq, Repr

/-- A core: application core 0x0000 to 0x0FFF or service core 0x1000 to 0x1047 (R13, R14). -/
structure Core where
  num : Nat := 0
  running : Bool := false
  task : Task := {}
  slots : Tab Task := []
  regs : CoreRegs := {}
  dbg : CoreDebug := {}
  recvq : List Msg := []
  refq : List Msg := []
  dorm : List Dormant := []
  sb : List SbEntry := []
  turn : Turn := {}
  deriving DecidableEq, Repr

/-! ### Dies -/

/-- A frame: descriptor, status, nogood set and fault-queue descriptor (R55, R332). -/
structure Frame where
  v : Bool := false
  policy : Bool := false
  metered : Bool := false
  tbase : BitVec 32 := 0
  cap : BitVec 16 := 1
  inc : Bool := false
  next : BitVec 16 := 1
  nogoods : List Word := []
  fq : Word := 0
  deriving DecidableEq, Repr

/-- A ringdike slot (R142). -/
structure Slot where
  v : Bool := false
  frame : BitVec 8 := 0
  handle : Handle := always
  key : BitVec 32 := 0
  value : Word := 0
  deriving DecidableEq, Repr

/-- The party that waits for an answer: core, task and stream. -/
structure Party where
  core : Nat
  uid : Nat
  stream : Nat
  deriving DecidableEq, Repr

/-- The operations of the ring (R145, R147). -/
inductive RingOp where
  | board
  | read
  | add
  | min
  | max
  | swap
  | cas
  | alight
  deriving DecidableEq, Repr

/-- An outstanding ring action (R144). `fold` holds the labels of its address operands, which DEP takes as the action is taken; an
alight has its store, without data, or the address and home of a store that another package serves. -/
structure RingReq where
  who : Party
  op : RingOp
  frame : BitVec 8
  ctx : Word
  key : BitVec 32
  opd : XReg
  expected : XReg
  dep : Handle
  fold : List Handle
  store : Option SbEntry
  far : Option (Nat × Nat)
  noRd : Bool
  since : Nat
  deriving DecidableEq, Repr

/-- A sluice word (R148). -/
structure SWord where
  val : Word := 0
  lbl : Handle := always
  frame : BitVec 8 := 0
  die : Nat := 0
  deriving DecidableEq, Repr

/-- The operations of the sluice engine (R149, R151). -/
inductive SluiceOp where
  | ld
  | add
  | and
  | or
  | xor
  | swap
  | cas
  | fadd
  | min
  | max
  | minu
  | maxu
  | wait
  | wake
  deriving DecidableEq, Repr

/-- A queued sluice request (R150). `reduce` holds for rd = x0, where the stream does not wait; `fold` is the label of the address, which
DEP takes as the operation performs. -/
structure SluiceReq where
  who : Party
  op : SluiceOp
  off : Nat
  opd : XReg
  expected : XReg
  dep : Handle
  fold : Handle
  frame : BitVec 8
  die : Nat
  prio : Nat
  arrival : Nat
  reduce : Bool
  noRd : Bool
  id : Nat
  deriving DecidableEq, Repr

/-- A waiter of a sluice word, with the label and the DEP that its `sync.wait` leaves (R151). -/
structure Waiter where
  who : Party
  off : Nat
  expected : Word
  lbl : Handle
  dep : Handle
  deriving DecidableEq, Repr

/-- One barrier: a tag over one unit of a launch level (R153). -/
structure Barrier where
  entry : Nat
  tag : Nat
  scope : Nat
  domain : Nat
  cores : List Nat
  gen : Nat := 0
  arrived : List Nat := []
  ended : List Nat := []
  lastAt : Nat := 0
  deriving DecidableEq, Repr

/-- A pending launch (R48). `left` lists the target cores whose task has not ended. -/
structure Pending where
  live : Bool := false
  record : List Word := []
  addr : Word := 0
  seq : Nat := 0
  left : List Nat := []
  cores : List Nat := []
  word : Option (Nat × Bool) := none
  land : Option Nat := none
  deriving DecidableEq, Repr

/-- An armed record (R49). -/
structure Armed where
  live : Bool := false
  record : List Word := []
  addr : Word := 0
  word : Option (Nat × Bool) := none
  deriving DecidableEq, Repr

/-- A launch message that was refused, to be delivered again (R34). -/
structure Redeliver where
  msg : Msg
  since : Nat
  deriving DecidableEq, Repr

/-- The units of one compute die. `wordEcc` marks atoms of the sluice SRAM: 1 correctable, 2 poisoned (R352, R353). `disturbed` holds the free-value number of the last ordinary write into the enabled
spillway, after which what every word holds is open (R148). Four fields keep the order within a cycle: `launchTurn` is the cycle of the last
launch that reached the store, and its place in the order of R50; `ringTurn` the same for the last action taken at each station (R144);
`served` the cycle and the request of the engine's last word operation (R150); and `armTurn` the cycle, plus 1, of the last `arm` or `disarm`
of each tag (R258). -/
structure Die where
  frames : Tab Frame := []
  slots : Tab Slot := []
  spill : Word := 0
  words : Tab (Option SWord) := []
  wordEcc : Tab Nat := []
  disturbed : Option Nat := none
  sluiceq : List SluiceReq := []
  waiters : List Waiter := []
  barriers : List Barrier := []
  pending : Tab Pending := []
  armed : Tab Armed := []
  launchSeq : Nat := 0
  launchTurn : Nat × Nat := (0, 0)
  ringTurn : Tab (Nat × Nat) := []
  served : Option (Nat × SluiceReq) := none
  armTurn : Tab Nat := []
  landUsed : List Nat := []
  redeliver : List Redeliver := []
  deriving DecidableEq, Repr

/-! ### Groups and super-groups -/

/-- A core's columns of a managed matrix as registered: its map, the position, and for each row the physical pieces (address,
length) (R162, R165). -/
structure ColMap where
  core : Nat
  map : MReg
  row0 : Nat
  col0 : Nat
  rows : List (List (Nat × Nat))
  deriving DecidableEq, Repr

/-- A weight plane (R156, R158, R162). `cells` holds the encoding of element (k, n) at key 256 k + n, `scales` the scale of
block b and column n at 256 b + n (an unlisted one is 1.0), `nans` the NaN flags likewise, `counters` the firing counters by row. -/
structure Plane where
  v : Bool := false
  mgd : Bool := false
  fmt : BitVec 3 := 0
  sr : BitVec 2 := 0
  hot : Nat := 0
  auto : BitVec 16 := 0
  frame : BitVec 8 := 0
  lbl : Handle := always
  kext : Nat := 0
  cells : Tab Nat := []
  scales : Tab (BitVec 32) := []
  nans : Tab Bool := []
  counters : Tab Nat := []
  hotset : List Nat := []
  ops : Nat := 0
  maps : List ColMap := []
  rowPa : List Nat := []
  deriving DecidableEq, Repr

/-- A gang-issued instruction (R154, R155). -/
inductive GangOp where
  | wld (sr : BitVec 2) (p : BitVec 3)
  | mma (mr : BitVec 6) (np p : BitVec 3) (n : BitVec 2)
  | reg (rt : Word)
  | mig (p : BitVec 3)
  deriving DecidableEq, Repr

/-- A gang arrival (R154). -/
structure Arrival where
  core : Nat
  uid : Nat
  op : GangOp
  word : Nat
  frame : BitVec 8
  xs : XReg
  map : MReg
  dep : Handle
  since : Nat
  deriving DecidableEq, Repr

/-- A tile that a started gang operation writes at its completion (R161). -/
structure TileWrite where
  core : Nat
  uid : Nat
  tile : Nat
  cells : BitVec 8192
  envs : List Word
  inc : Bool
  sat : Bool
  deriving DecidableEq, Repr

/-- A started `gang.mma`: what its completion step writes: tiles, the rows that fire, the row-activations by row address, and
the stacks whose polder units take part (R161, R163, R168). -/
structure Flight where
  plane : Nat := 0
  tiles : List TileWrite := []
  fires : List Nat := []
  meters : List (Nat × Nat) := []
  polders : List Nat := []
  frame : BitVec 8 := 0
  deriving DecidableEq, Repr

/-- A group: planes, gang wires, the operation in flight, translation table base, image measurement, the cores that trapped at a
gang form, and the planes with a migration instant to come (R18, R118, R165, R319, R372). -/
structure Group where
  planes : Tab Plane := []
  arrivals : List Arrival := []
  flight : Option Flight := none
  aspace : Word := 0
  measure : List Byte := []
  failed : List Party := []
  due : List Nat := []
  deriving DecidableEq, Repr

/-- A translated page of a command: the start of the 64 KiB unit of its virtual address, and its data dword (R173). -/
structure Ref where
  va : Nat
  data : Word
  deriving DecidableEq, Repr

/-- A command of an engine queue (R169-R173). `cls` is the class it is queued under (R46), `lc` the labels whose Product is Lc, one interned
handle unless Lc only decides writes (R288), `ilbls` the labels of each index's atoms. `left` names the units still to be read, `data` those read and not yet written with their
bytes and labels, `pins` and `lines` the pages pinned and the lines owned, `acc` the labels written for a handler, which has `taken` a
dormant context; `ill` marks the place of an ill-formed one (R357). -/
structure Cmd where
  seq : Nat
  code : Nat
  block : Word
  who : Party
  frame : BitVec 8
  ctx : Word
  launch : Option LaunchRef
  prio : BitVec 4
  cls : Nat
  id : Nat
  dst : Nat
  src : Nat
  len : Nat
  op : Nat
  esz : Nat
  depreg : Nat
  hv : Bool
  handler : Nat
  table : Nat
  index : List Nat
  ilbls : List (List Handle)
  lc : List Handle
  refs : List Ref
  pins : List Nat
  lines : List Nat
  left : List Nat
  data : List (Nat × List Byte × List Handle)
  taken : Bool
  acc : List Handle
  ill : Bool
  deriving DecidableEq, Repr

/-- One engine (R169, R174, R357). -/
structure Engine where
  queue : List Cmd := []
  seq : Nat := 0
  issued : Tab Nat := []
  halted : Bool := false
  deriving DecidableEq, Repr

/-! ### Coherence, security, host -/

/-- A directory entry (R104). -/
structure DirEntry where
  state : Nat := 0
  coarse : Bool := false
  ptrs : List Nat := []
  vec : BitVec 44 := 0
  deriving DecidableEq, Repr

/-- The state of an L1 line (R103). -/
inductive LineState where
  | i
  | s
  | e
  | m
  deriving DecidableEq, Repr

/-- A way of a tile's L1 and the order of its fill (R103, R292). -/
structure L1Way where
  line : Nat := 0
  st : LineState := .i
  fill : Nat := 0
  deriving DecidableEq, Repr

/-- A way of a home slice (R108). -/
structure CacheWay where
  v : Bool := false
  line : Nat := 0
  retire : BitVec 32 := 0
  dirty : Bool := false
  deriving DecidableEq, Repr

/-- An exclusive request whose invalidations are not all acknowledged (R105). -/
structure Grant where
  line : Nat
  agent : Nat
  waiting : List Nat
  deriving DecidableEq, Repr

/-- The coherence state (R103-R110). -/
structure Coherence where
  dir : Tab DirEntry := []
  grants : List Grant := []
  notices : List (Nat × Nat) := []
  writeBacks : List (Nat × Nat) := []
  l1 : Tab L1Way := []
  fills : Nat := 0
  msc : Tab CacheWay := []
  evict : List (Word × Word) := []
  deriving DecidableEq, Repr

/-- A registered region and its meter (R260, R316, R320). -/
structure Region where
  live : Bool := false
  base : Nat := 0
  limit : Nat := 0
  count : Nat := 0
  carried : Nat := 0
  baseser : Word := 0
  restarts : Nat := 0
  deriving DecidableEq, Repr

/-- A stored checkpoint (R322). -/
structure Bank where
  regions : Tab Region := []
  seq : Nat := 0
  clean : Bool := true
  deriving DecidableEq, Repr

/-- The Bammos block and its secure storage (R313-R325). `forms` lists the instructions in the block that wait, in their order of arrival
(R263). `triedAt` is the time of the last refusal (R322). -/
structure Security where
  regions : Tab Region := []
  seq : Nat := 0
  bank : Bank := {}
  older : Bank := {}
  carriedOver : List (Word × Nat) := []
  keys : Tab (List Byte) := []
  accepts : Bool := true
  forms : List Party := []
  refusals : Nat := 0
  triedAt : Nat := 0
  lastAt : Nat := 0
  deriving DecidableEq, Repr

/-- A completed host or Giari request as the outside sees it. -/
inductive Answer where
  | data (bs : List Byte)
  | written
  | abort
  | refused (tag : BitVec 16)
  | status (n : Nat)
  deriving DecidableEq, Repr

/-- A request in the host service queue of a service core (R136, R297). -/
structure HostReq where
  space : Space
  addr : Nat
  write : Bool
  n : Nat
  data : List Byte
  deriving DecidableEq, Repr

/-- What stands in a host service queue: an access, or a write of its LAUNCH register (R136, R299). -/
inductive HostJob where
  | access (q : HostReq)
  | launch (v : Word)
  deriving DecidableEq, Repr

/-- A Giari message that has reached the package and not yet been handled (R302, R384). -/
structure Giari where
  src : Nat
  tag : BitVec 16
  payload : List Byte
  deriving DecidableEq, Repr

/-- A firmware request under way: the place of its block and the dwords that the firmware has read there (R307). -/
structure Begun where
  chan : Nat
  pa : Nat
  words : List Word
  deriving DecidableEq, Repr

/-- A BAR2 access that waits for a translation (R298). -/
structure Held where
  off : Nat
  write : Bool
  n : Nat
  data : List Byte
  deriving DecidableEq, Repr

/-- BAR0 registers and the host side (R296-R312, R376). Debug writes have a queue of their own (R305). `closing` holds while the passage to full service drains the launches
(R304), `failed` after a failed verification (R304), `off` while the package is off: after an orderly shutdown or a loss of power, until it
is powered on again (R312, R323). -/
structure HostSide where
  devnum : BitVec 20 := 0
  clk : Vector (BitVec 2) 2 := Vector.replicate 2 2
  phase : Nat := 0
  land : Vector Word 2 := Vector.replicate 2 0
  pcap : BitVec 16 := 0x073A
  temp : BitVec 8 := 0
  power : BitVec 16 := 0
  dsel : BitVec 13 := 0
  launch : Vector Word 8 := Vector.replicate 8 0
  block : Vector Word 8 := Vector.replicate 8 0
  busy : Vector Bool 8 := Vector.replicate 8 false
  done : Vector (BitVec 16) 8 := Vector.replicate 8 0
  status : Vector (BitVec 8) 8 := Vector.replicate 8 0
  aspace : Word := 0
  cache : Tab (Word × Word) := []
  held : List Held := []
  queues : Tab (List HostJob) := []
  debugq : List HostReq := []
  giariq : List Giari := []
  begun : List Begun := []
  closing : Bool := false
  failed : Bool := false
  off : Bool := false
  answers : List Answer := []
  pins : Tab Nat := []
  deriving DecidableEq, Repr

/-- A word of a stream port: its value, the labels whose Product it carries (one interned handle where the owner's scratchpad keeps
labels and lies on the sender's die, R288), and the CTX it was put under (R225). -/
structure PortWord where
  val : Word
  lbls : List Handle
  ctx : Word
  deriving DecidableEq, Repr

/-- A stream-port transfer under way (R225, R138). -/
structure Transfer where
  id : Nat
  who : Party
  frame : BitVec 8
  ctx : Word
  prio : BitVec 4
  base : Nat
  hv : Bool
  handler : Nat
  words : List PortWord
  closed : Bool
  written : Nat
  stopped : Bool
  taken : Bool
  lbls : List Handle
  deriving DecidableEq, Repr

/-- Memories and their side bytes (R95, R113, R114, R194, R353). -/
structure Memories where
  main : List Host.Cell := []
  spm : List Host.Cell := []
  imem : List Host.Cell := []
  mainSide : Tab Handle := []
  spmSide : Tab Handle := []
  mainEcc : Tab Nat := []
  spmEcc : Tab Nat := []
  notLive : Tab Bool := []
  deriving DecidableEq, Repr

/-- What moves next: a stream of a core takes a step, or one whose accesses to other scratchpads are only issued; a granule of a later load
of a stream performs early, by the load's PC, its number among captured instructions (0 for one of the code itself) and the granule's
number (R129); an event of the table happens; another package reports the
end of a task that migrated to it (R119); a debugger reads memory (R380); or only a cycle passes (log 1). -/
inductive Move where
  | stream (core st : Nat)
  | issue (core st : Nat)
  | ahead (core st pc sub no : Nat)
  | event (i : Instr)
  | farEnd (core slot : Nat)
  | debugRead (va n : Nat)
  | tick
  deriving DecidableEq, Repr

/-- Links that are down, polder units out of service, pseudo-channels in self-refresh, and the base-die cycle of each one's last request
(R115, R359, R360). -/
structure Links where
  down : List Nat := []
  polderOut : List Nat := []
  asleep : List Nat := []
  used : Tab Nat := []
  deriving DecidableEq, Repr

/-- The clocks: core cycles of each die and base-die cycles since power-on, the part of a cycle that has passed since, and the time since
power-on, both in units of 1/14.4 ns (R3, R15, R232, R312). -/
structure Clocks where
  cycles : Vector Nat 2 := Vector.replicate 2 0
  part : Vector Nat 2 := Vector.replicate 2 0
  base : Nat := 0
  basePart : Nat := 0
  units : Nat := 0
  deriving DecidableEq, Repr

/-- The state of the package. `past` is the step sequence of R124, oldest first; `banks` holds, for each bank of a tile (tile × 16 + bank), the
cycle of its last grant plus 1, and the core that won it (R97). -/
structure State where
  actStream : Nat := 0
  schedule : List Move := []
  past : List Move := []
  turn : Bool := false
  defer : Bool := false
  free : Nat := 0
  nextId : Nat := 0
  clocks : Clocks := {}
  phase : BitVec 32 := 0
  core : Core := {}
  parked : Tab Core := []
  mem : Memories := {}
  tlb : Tab (Word × Word) := []
  inbound : List SbEntry := []
  banks : Tab (Nat × Nat) := []
  tests : Tab Nat := []
  dies : Vector Die 2 := Vector.replicate 2 {}
  groups : Tab Group := []
  engines : Tab Engine := []
  ringq : List RingReq := []
  channels : List Msg := []
  refusals : List Msg := []
  resend : List Resend := []
  transfers : List Transfer := []
  coh : Coherence := {}
  sec : Security := {}
  host : HostSide := {}
  links : Links := {}
  deriving DecidableEq, Repr

/-- The frame that is valid from power-on: frame 0 with CAP 1 (R55, R56). -/
def frame0 : Frame := { v := true }

/-- The machine right after power-on reset: every field as the spec states it, or as log 2 and log 3 name it. -/
def State.reset : State :=
  { dies := Vector.replicate 2 { frames := [(0, frame0)] } }

end Sys2Proof.Machine
end

