-- ==== Sys2Proof/Machine/Label.lean ====
section
/-!
DEFINITION. Physical memory and the label algebra: bytes of main memory and the units that are not live (R113, R114),
label records, Clean, Minimise, Bound, Product, Merge, Visible, and interning (R56-R62, R75, R288, R341).
-/

namespace Sys2Proof.Machine

/-! ### Units of the package -/

/-- The die of a core: application core, translation or host service core (R13, R14). -/
def dieOf (c : Nat) : Nat :=
  if c < 0x1000 then c / 2048 else if c < 0x1040 then (c - 0x1000) / 32 else (c - 0x1040) / 4

/-- The group of a core; a service core has a number of its own past the groups (log 6). -/
def groupOf (c : Nat) : Nat := if c < 0x1000 then c / 16 else c - 0x1000 + 256

/-- The super-group of a core; for a host service core the first of its quadrant (log 6). -/
def sgOf (c : Nat) : Nat :=
  if c < 0x1000 then c / 64 else if c < 0x1040 then c - 0x1000 else (c - 0x1040) * 8

/-- The tile of a core; a service core has a number of its own past the tiles (log 6). -/
def tileOf (c : Nat) : Nat := if c < 0x1000 then c / 4 else c - 0x1000 + 1024

/-- The unit of level `scope` (R44's codes) that holds a core; service cores belong to what they serve (R137). -/
def unitOf (scope c : Nat) : Nat :=
  match scope with
  | 0 => c
  | 1 => tileOf c
  | 2 => groupOf c
  | 3 => if 0x1040 ≤ c then c else sgOf c
  | 4 => sgOf c / 8
  | 5 => dieOf c
  | _ => 0

/-- Two cores share a unit of level `scope` (R100, R131). -/
def share (scope c d : Nat) : Bool := decide (1 ≤ scope) && decide (unitOf scope c = unitOf scope d)

/-- Frame `f` of die `d`. -/
def State.frameAt (s : State) (d : Nat) (f : BitVec 8) : Frame :=
  Tab.get {} (s.dies.getD d {}).frames f.toNat

/-- A change of one die. -/
def State.modDie (s : State) (d : Nat) (g : Die → Die) : State :=
  { s with dies := s.dies.setIfInBounds d (g (s.dies.getD d {})) }

/-- A die's record. -/
def State.dieAt (s : State) (d : Nat) : Die := s.dies.getD d {}

/-- A new frame record. -/
def State.setFrame (s : State) (d : Nat) (f : BitVec 8) (fr : Frame) : State :=
  s.modDie d fun x => { x with frames := Tab.put {} x.frames f.toNat fr }

/-! ### Main memory -/

/-- PA lies in the enabled spillway of die `d` (R148). -/
def State.inSpill (s : State) (d pa : Nat) : Bool :=
  let w := (s.dieAt d).spill
  bit w 0 && decide (bits w 20 28 * 2 ^ 20 ≤ pa) && decide (pa < bits w 20 28 * 2 ^ 20 + (bits w 8 12 + 1) * 2 ^ 20)

/-- One byte of main memory: zero in a unit that is not live (R114), open in an enabled spillway (R148). -/
def State.mainByte (s : State) (pa : Nat) : Byte :=
  if s.inSpill 0 pa || s.inSpill 1 pa then Config.freeByte s.free pa
  else if Tab.get false s.mem.notLive (pa / 65536) then 0
  else Tab.get 0 s.mem.main pa

/-- `n` bytes of main memory. -/
def State.mainBytes (s : State) (pa : Nat) : Nat → List Byte
  | 0 => []
  | n + 1 => s.mainByte pa :: State.mainBytes s (pa + 1) n

/-- A unit that is not live becomes live before a write: every atom of it reads zero with handle 0 (R114). -/
def State.wakeUnit (s : State) (u : Nat) : State :=
  if Tab.get false s.mem.notLive u then
    { s with mem := { s.mem with
        main := s.mem.main.filter fun p => decide (p.1 / 65536 ≠ u)
        mainSide := s.mem.mainSide.filter fun p => decide (p.1 / 2048 ≠ u)
        mainEcc := s.mem.mainEcc.filter fun p => decide (p.1 / 2048 ≠ u)
        notLive := Tab.put false s.mem.notLive u false } }
  else s

/-- An ordinary write into an enabled spillway leaves every word of that die open (R148). -/
def State.disturb (s : State) (d pa : Nat) : State :=
  if s.inSpill d pa then { (s.modDie d fun x => { x with words := [], disturbed := some s.free }) with free := s.free + 1 }
  else s

/-- Bytes written to main memory; side handles are the caller's. -/
def State.putMain (s : State) (pa : Nat) (bs : List Byte) : State :=
  let s := (s.wakeUnit (pa / 65536)).wakeUnit ((pa + bs.length - 1) / 65536)
  let s := (s.disturb 0 pa).disturb 1 pa
  { s with mem := { s.mem with main := Tab.fill 0 s.mem.main pa bs } }

/-- A write by a party whose atoms carry handle 0x0000, such as a record, a completion word or a host write (R47, R298,
R334). A write of a whole atom clears its poison (R353). -/
def State.putPlain (s : State) (pa : Nat) (bs : List Byte) : State :=
  let s := s.putMain pa bs
  let n := if bs.length = 0 then 0 else (pa + bs.length - 1) / 32 - pa / 32 + 1
  let whole := (upto n).filter fun i => decide (pa ≤ (pa / 32 + i) * 32 ∧ (pa / 32 + i) * 32 + 32 ≤ pa + bs.length)
  { s with mem := { s.mem with
      mainSide := Tab.fill always s.mem.mainSide (pa / 32) (List.replicate n always)
      mainEcc := whole.foldl (fun t i => Tab.put 0 t (pa / 32 + i) 0) s.mem.mainEcc } }

/-! ### Labels -/

/-- A label as its environments and its INC bit (R58, R59). -/
structure Lab where
  envs : List Env
  inc : Bool := false
  deriving DecidableEq, Repr

/-- n ⊆ e. -/
def sub (n e : Env) : Bool := decide (n &&& ~~~e = 0)

/-- Clean(S) (R61). -/
def clean (g : List Word) (s : List Env) : List Env := s.filter fun e => !(g.any fun n => sub n e)

/-- Duplicates removed. -/
def dedup (s : List Env) : List Env := s.foldr (fun e acc => if acc.contains e then acc else e :: acc) []

/-- Minimise(S), in ascending numeric order (R59, R61). -/
def minimise (s : List Env) : List Env :=
  let s := dedup s
  sortBy (fun a b => decide (a.toNat ≤ b.toNat)) (s.filter fun e => !(s.any fun f => decide (f ≠ e) && sub f e))

/-- The members that DROP keeps: the 15 of smallest population, ties to the smaller value (R61). -/
def dropped (s : List Env) : List Env :=
  sortBy (fun a b => decide (a.toNat ≤ b.toNat))
    ((sortBy (fun a b => decide (popCount 64 a.toNat < popCount 64 b.toNat
      ∨ (popCount 64 a.toNat = popCount 64 b.toNat ∧ a.toNat ≤ b.toNat))) s).take 15)

/-- The label that a handle names within a frame; a handle at or above NEXT is taken as NEVER (R56, R58, R59). -/
def State.labOf (s : State) (d : Nat) (f : BitVec 8) (h : Handle) : Lab :=
  let fr := s.frameAt d f
  if h = always then { envs := [0] }
  else if h = never || decide (fr.next.toNat ≤ h.toNat) then { envs := [] }
  else
    let a := fr.tbase.toNat * 65536 + 128 * h.toNat
    let hd := wordOf (s.mainBytes a 8)
    { envs := (dwords 15 (s.mainBytes (a + 8) 120)).take (bits hd 52 4), inc := bit hd 51 }

/-- Every union of one environment from each of two sets. -/
def unions (a b : List Env) : List Env := a.flatMap fun x => b.map fun y => x ||| y

/-- The unions of a list of labels, with the INC of any (R61). -/
def unionAll : List Lab → Lab
  | [] => { envs := [0] }
  | l :: ls =>
    let r := unionAll ls
    { envs := unions l.envs r.envs, inc := l.inc || r.inc }

/-- Clean and Minimise of a set (R61). -/
def State.reduce (s : State) (d : Nat) (f : BitVec 8) (l : Lab) : Lab :=
  { l with envs := minimise (clean (s.frameAt d f).nogoods l.envs) }

/-- The whole set of a Product, not bounded and not interned (R61, R288). -/
def State.rawProduct (s : State) (d : Nat) (f : BitVec 8) (hs : List Handle) : Lab :=
  s.reduce d f (unionAll (hs.map (s.labOf d f)))

/-- Visible(L, E) (R62). -/
def State.visible (s : State) (d : Nat) (f : BitVec 8) (l : Lab) (e : Env) : Bool :=
  (clean (s.frameAt d f).nogoods l.envs).any fun x => sub x e

/-- Why a label cannot be formed (R341): the size before Bound, or a full table. -/
inductive LabErr where
  | overflow (n : Nat)
  | full
  deriving DecidableEq, Repr

/-- The lowest handle whose record is the label (R60). -/
def State.findLab (s : State) (d : Nat) (f : BitVec 8) (l : Lab) : Option Nat :=
  ((upto (s.frameAt d f).next.toNat).drop 1).find? fun h => decide (s.labOf d f (BitVec.ofNat 16 h) = l)

/-- The bytes of a label record (R59). -/
def recordBytes (f : BitVec 8) (h : Nat) (l : Lab) : List Byte :=
  dwordBytes (word (f.toNat * 2 ^ 56 + l.envs.length * 2 ^ 52 + (if l.inc then 2 ^ 51 else 0) + h)
    :: (l.envs ++ List.replicate (15 - l.envs.length) 0))

/-- The handle of a bounded label: ALWAYS, NEVER, an existing record, or record NEXT, written once (R60). -/
def State.intern (s : State) (d : Nat) (f : BitVec 8) (l : Lab) : Except LabErr (Handle × State) :=
  if l.envs = [] then .ok (never, s)
  else if l.envs = [0] then .ok (always, s)
  else
    match s.findLab d f l with
    | some h => .ok (BitVec.ofNat 16 h, s)
    | none =>
      let fr := s.frameAt d f
      if fr.cap.toNat ≤ fr.next.toNat then .error .full
      else
        let h := fr.next.toNat
        let s := s.putPlain (fr.tbase.toNat * 65536 + 128 * h) (recordBytes f h l)
        .ok (fr.next, s.setFrame d f { fr with next := fr.next + 1 })

/-- Bound and interning; `drop` makes Bound act as under DROP (R61, R75, R341). -/
def State.bound (s : State) (d : Nat) (f : BitVec 8) (drop : Bool) (l : Lab) : Except LabErr (Handle × State) :=
  if l.envs.length ≤ 15 then s.intern d f l
  else if drop || !(s.frameAt d f).policy then
    (s.intern d f { envs := dropped l.envs, inc := true }).map fun r =>
      (r.1, r.2.setFrame d f { r.2.frameAt d f with inc := true })
  else .error (.overflow l.envs.length)

/-- Product of handles of one frame (R61). -/
def State.product (s : State) (d : Nat) (f : BitVec 8) (drop : Bool) (hs : List Handle) : Except LabErr (Handle × State) :=
  let hs := hs.filter fun h => decide (h ≠ always)
  if hs = [] then .ok (always, s)
  else if hs.contains never then .ok (never, s)
  else s.bound d f drop (s.rawProduct d f hs)

/-- Product whose first operand is the set of Merge(L1, L2) (R61, R77). -/
def State.mergeProduct (s : State) (d : Nat) (f : BitVec 8) (h1 h2 dep : Handle) : Except LabErr (Handle × State) :=
  let l1 := s.labOf d f h1
  let l2 := s.labOf d f h2
  s.bound d f false (s.reduce d f (unionAll [{ envs := l1.envs ++ l2.envs, inc := l1.inc || l2.inc }, s.labOf d f dep]))

/-- The frame status as FSTAT reads it (R56). -/
def Frame.status (f : Frame) : Word :=
  word (f.nogoods.length * 2 ^ 17 + (if f.inc then 2 ^ 16 else 0) + f.next.toNat)

/-- The label as a trap of the producing instruction (R342). -/
def State.labTrap (s : State) (d : Nat) (f : BitVec 8) : LabErr → Trap
  | .overflow n =>
    { cause := 0x1A, val := word n, d5 := word f.toNat, d6 := (s.frameAt d f).status }
  | .full => { cause := 0x1B, val := word f.toNat, d5 := word (s.frameAt d f).cap.toNat }

/-- A handle that a register operand may name: ALWAYS, NEVER, or below NEXT (R77, R229). -/
def State.handleOk (s : State) (d : Nat) (f : BitVec 8) (v : Word) : Bool :=
  decide (bits v 16 48 = 0) &&
    (decide (bits v 0 16 = 0) || decide (bits v 0 16 = 0xFFFF) || decide (bits v 0 16 < (s.frameAt d f).next.toNat))

end Sys2Proof.Machine
end

