-- ==== Sys2Proof/Machine/Ops.lean ====
section
/-!
DEFINITION. Shared operations: the acting core, task and stream; labels formed by an instruction; registers; fault
records; taking a trap and returning from one; retiring a task; and how an instruction's result becomes the next state
(R7, R52, R63-R67, R74, R203, R208, R218, R326-R335).
-/

namespace Sys2Proof.Machine

/-- Why an instruction does not retire in this step: it traps, having changed nothing; a pass of `rep.run` traps, the
earlier passes standing (R281); or it waits, having changed nothing or left a request. -/
inductive Stop where
  | trap (t : Trap)
  | passed (t : Trap) (s : State)
  | wait (k : WaitKind) (s : Option State)

/-- Where the stream goes on: at the next instruction (loop-backs apply), at a target, or nowhere by itself. -/
inductive Ctl where
  | next
  | jump (t : Nat)
  | stay

/-- The result of an instruction that retires: how many instructions it counts for (R52), and what follows retirement. -/
structure Done where
  st : State
  ctl : Ctl := .next
  counts : Nat := 1
  after : State → State := id

/-- The effect of an instruction on a state. -/
abbrev Body := State → Except Stop Done

/-- A trap of a cause, value and details. -/
def trap {α : Type} (cause : Nat) (val : Word) (d5 d6 : Nat := 0) : Except Stop α :=
  .error (.trap { cause := BitVec.ofNat 8 cause, val := val, d5 := word d5, d6 := word d6 })

/-- A wait that changes nothing else. -/
def wait {α : Type} (k : WaitKind) : Except Stop α := .error (.wait k none)

/-- A wait that leaves a request in the state. -/
def waitAs {α : Type} (k : WaitKind) (s : State) : Except Stop α := .error (.wait k (some s))

/-! ### The acting core, task and stream -/

/-- The core numbered `c`: the acting core, a parked one, or one that nothing has touched since reset. -/
def State.coreAt (s : State) (c : Nat) : Core :=
  if c = s.core.num then s.core
  else match s.parked.find? fun p => decide (p.1 = c) with
    | some p => p.2
    | none => { num := c }

/-- A change of the core numbered `c`. -/
def State.modCore (s : State) (c : Nat) (f : Core → Core) : State :=
  if c = s.core.num then { s with core := f s.core }
  else { s with parked := Tab.put { num := c } s.parked c (f (s.coreAt c)) }

/-- Core `c` becomes the acting core. -/
def State.focus (s : State) (c st : Nat) : State :=
  if c = s.core.num then { s with actStream := st }
  else
    { s with actStream := st, core := s.coreAt c
             parked := Tab.put { num := s.core.num } (Tab.put { num := c } s.parked c { num := c }) s.core.num s.core }

/-- The running task of the acting core. -/
abbrev State.task (s : State) : Task := s.core.task

/-- The acting core's die. -/
def State.die (s : State) : Nat := dieOf s.core.num

/-- The core cycles of a die since power-on (R232). -/
def State.cycleOf (s : State) (die : Nat) : Nat := s.clocks.cycles.getD die 0

/-- The core cycles of the die of core `c`. -/
abbrev State.cycleAt (s : State) (c : Nat) : Nat := s.cycleOf (dieOf c)

/-- The core cycles of the acting core's die. -/
abbrev State.cycle (s : State) : Nat := s.cycleOf s.die

/-- What a core has done in its present cycle. -/
def Core.turnAt (k : Core) (now : Nat) : Turn := if k.turn.cycle = now then k.turn else { cycle := now }

/-- A core's cycle goes on to a stage (R35). -/
def State.enter (s : State) (c : Nat) (f : Turn → Turn) : State :=
  s.modCore c fun k => { k with turn := f (k.turnAt (s.cycleAt c)) }

/-- A change of the running task. -/
def State.modTask (s : State) (f : Task → Task) : State := { s with core := { s.core with task := f s.core.task } }

/-- The acting stream (R38). -/
def State.strm (s : State) : Stream := if s.actStream = 0 then s.task.ex else s.task.ac

/-- The other stream of the running task. -/
def State.otherStrm (s : State) : Stream := if s.actStream = 0 then s.task.ac else s.task.ex

/-- A change of one stream of a task. -/
def Task.modStrm (t : Task) (st : Nat) (f : Stream → Stream) : Task :=
  if st = 0 then { t with ex := f t.ex } else { t with ac := f t.ac }

/-- A change of the acting stream. -/
def State.modStrm (s : State) (f : Stream → Stream) : State := s.modTask fun t => t.modStrm s.actStream f

/-- The acting stream's PC (R195). -/
def State.pc (s : State) : Nat := s.strm.pc

/-- The task is moot: the DEP of a running stream is NEVER, or its access stream ended so (R38, R74). -/
def Task.moot (t : Task) : Bool :=
  t.info.dead || (t.ex.active && decide (t.ex.dep = never)) || (t.ac.active && decide (t.ac.dep = never))

/-- The DEP that results of the acting stream rest on: its own, and NEVER in either stream of a moot task (R65, R74). -/
def State.dep (s : State) : Handle := if s.task.moot then never else s.strm.dep

/-- A task of core `c` by its name. -/
def Core.taskOf (c : Core) (uid : Nat) : Option Task :=
  if c.running && decide (c.task.info.uid = uid) then some c.task
  else (c.slots.find? fun p => decide (p.2.info.uid = uid)).map (·.2)

/-- A change of a task of a core, running or in a slot, named by `uid`; nothing if it has gone. -/
def Core.modTaskOf (c : Core) (uid : Nat) (f : Task → Task) : Core :=
  if c.running && decide (c.task.info.uid = uid) then { c with task := f c.task }
  else { c with slots := c.slots.map fun p => if p.2.info.uid = uid then (p.1, f p.2) else p }

/-- A change of a party's task. -/
def State.modParty (s : State) (w : Party) (f : Task → Task) : State :=
  s.modCore w.core fun c => c.modTaskOf w.uid f

/-- SUPP of a party's task is set, if the task still exists (R70). -/
def State.suppress (s : State) (core uid : Nat) : State :=
  s.modParty ⟨core, uid, 0⟩ fun t => { t with supp := true }

/-- SUPP of the running task is set (R65). -/
def State.supp (s : State) : State := s.modTask fun t => { t with supp := true }

/-- The acting stream as a party. -/
def State.self (s : State) : Party := ⟨s.core.num, s.task.info.uid, s.actStream⟩

/-- An answer reaches a waiting stream; a blocked task becomes ready (R37). -/
def State.answer (s : State) (w : Party) (r : Reply) : State :=
  s.modParty w fun t =>
    let t := t.modStrm w.stream fun x => { x with reply := some r }
    if t.info.status = .blocked then { t with info := { t.info with status := .ready, readySince := s.cycleAt w.core, aged := 0 } } else t

/-! ### Fault records (R332-R335) -/

/-- Who a record concerns (R333); `at'` is the cycle of detection where it is not the present one. -/
structure RecordOf where
  source : Nat
  core : Nat
  die : Nat
  frame : BitVec 8
  launch : Option LaunchRef := none
  pc : Nat := 0
  double : Bool := false
  stream : Nat := 0
  dw4 : Word := 0
  at' : Option Nat := none

/-- The eight dwords of a record (R333). -/
def recordWords (cycle : Nat) (o : RecordOf) (t : Trap) : List Word :=
  [word (t.cause.toNat * 2 ^ 56 + (if o.double then 2 ^ 55 else 0) + o.stream * 2 ^ 54 + o.source * 2 ^ 52
      + o.core % 8192 * 2 ^ 27 + o.frame.toNat * 2 ^ 19 + (match o.launch with | some l => l.seq % 65536 | none => 0)),
   word o.pc, t.val, word cycle, (match o.launch with | some l => l.record | none => o.dw4), t.d5, t.d6, t.d7]

/-- A message header (R25). -/
def header (dest src cls prio len : Nat) (refused : Bool) (frame : BitVec 8) (lbl : Handle) : Word :=
  word (dest % 8192 * 2 ^ 51 + src % 8192 * 2 ^ 38 + cls % 64 * 2 ^ 32 + prio % 16 * 2 ^ 28 + len % 8 * 2 ^ 25
    + (if refused then 2 ^ 24 else 0) + frame.toNat * 2 ^ 16 + lbl.toNat)

/-- Seven payload dwords from up to seven (R25). -/
def payload7 (ws : List Word) : List Word := (ws ++ List.replicate 7 0).take 7

/-- A fault record is written to its frame's queue, TAIL is published, and the record is delivered to the fault-handler
class (R334, R335). -/
def State.writeRecord (s : State) (o : RecordOf) (t : Trap) : State :=
  let q := (s.frameAt o.die o.frame).fq
  let base := bits q 12 36 * 4096
  let n := 2 ^ bits q 8 4
  let tail := leNat (s.mainBytes base 8)
  let head := leNat (s.mainBytes (base + 8) 8)
  let lost := leNat (s.mainBytes (base + 16) 8)
  if !bit q 0 then s
  else if n ≤ (tail + 2 ^ 64 - head) % 2 ^ 64 then
    s.putPlain (base + 16) (leBytes 8 (min (lost + 1) (2 ^ 64 - 1)))
  else
    let ws := recordWords (o.at'.getD (s.cycleOf o.die)) o t
    let s := s.putPlain (base + 64 + 64 * (tail % n)) (dwordBytes ws)
    let s := s.putPlain base (leBytes 8 ((tail + 1) % 2 ^ 64))
    match o.launch with
    | none => s
    | some l =>
      if o.source = 3 || l.fclass = 0 || 0x1000 ≤ l.fcore then s
      else
        { s with channels := s.channels ++
          [{ hdr := header l.fcore o.core l.fclass 15 2 false o.frame always
             payload := payload7 [word tail, ws.headD 0], fault := true }] }

/-! ### Error marks (R352, R353) -/

/-- The die of a line's home in a bring-up phase (R96, R304). -/
def homeDie (phase pa : Nat) : Nat := if phase = 2 then pa / 2 ^ 31 else pa / (48 * 2 ^ 30) / 6

/-- The error mark of an atom: 0 none, 1 correctable, 2 uncorrectable, 3 correctable and found in the memory-side cache. -/
def State.ecc (s : State) : Space → Nat → Nat
  | .main, a => Tab.get 0 s.mem.mainEcc a
  | .spm, a => Tab.get 0 s.mem.spmEcc a

/-- A read of the atom finds one bit in error. -/
def State.mends (s : State) (space : Space) (a : Nat) : Bool := decide (s.ecc space a = 1) || decide (s.ecc space a = 3)

/-- The address by which an atom of a space is reported (log 9 for scratchpad). -/
def physReport : Space → Nat → Nat
  | .main, a => a * 32
  | .spm, a => 0x10000000 + a * 32

/-- An error mark goes. -/
def State.unmark (s : State) (space : Space) (a : Nat) : State :=
  match space with
  | .main => { s with mem := { s.mem with mainEcc := Tab.put 0 s.mem.mainEcc a 0 } }
  | .spm => { s with mem := { s.mem with spmEcc := Tab.put 0 s.mem.spmEcc a 0 } }

/-- The die whose controller finds an atom in error. -/
def State.dieOfAtom (s : State) (space : Space) (a : Nat) : Nat :=
  if space = .main then homeDie s.host.phase (a * 32) else dieOf (a * 32 / 65536)

/-- The store of an atom as the record of R352 names it. -/
def State.storeOf (s : State) (space : Space) (a : Nat) : Nat := if space = .spm then 1 else if s.ecc space a = 3 then 2 else 0

/-- Who a record to frame 0's queue of a die concerns (R332). -/
def deviceOf (die : Nat) : RecordOf := { source := 3, core := die * 2048, die := die, frame := 0 }

/-- The record of a corrected atom (R352). -/
def correctedTrap (space : Space) (a store n : Nat) : Trap :=
  { cause := 0x4A, val := word (physReport space a), d5 := word store, d6 := Config.freeWord n }

/-- A record, once the atom that holds its queue's TAIL, HEAD and LOST is corrected where one of its bits is in error: that correction is
recorded first, in a queue whose own atom may be in error as well, so that `fuel` corrections may come before the record (R334, R352). -/
def State.recordIn : Nat → State → RecordOf → Trap → State
  | 0, s, o, t => s.writeRecord o t
  | fuel + 1, s, o, t =>
    let a := bits (s.frameAt o.die o.frame).fq 12 36 * 128
    let s' := if s.mends .main a then
        State.recordIn fuel { s.unmark .main a with free := s.free + 1 } (deviceOf (s.dieOfAtom .main a))
          (correctedTrap .main a (s.storeOf .main a) s.free)
      else s
    s'.writeRecord o t

/-- A fault record (R334, R335, R352). -/
def State.record (s : State) (o : RecordOf) (t : Trap) : State :=
  if bit (s.frameAt o.die o.frame).fq 0 then State.recordIn 3 s o t else s

/-- A device record to frame 0's queue of a die (R332). -/
def State.deviceRecord (s : State) (die : Nat) (cause : Nat) (val : Word) (d5 d6 : Nat) : State :=
  s.record (deviceOf die) { cause := BitVec.ofNat 8 cause, val := val, d5 := word d5, d6 := word d6 }

/-- A corrected atom is written back, and the record of R352 is written. -/
def State.correct (s : State) (space : Space) (a : Nat) : State :=
  { (s.unmark space a).record (deviceOf (s.dieOfAtom space a)) (correctedTrap space a (s.storeOf space a) s.free) with
    free := s.free + 1 }

/-- The atoms of a list that have one bit in error are corrected (R352). -/
def State.mendAtoms (s : State) (space : Space) (ats : List Nat) : State :=
  ats.foldl (fun s t => if s.mends space t then s.correct space t else s) s

/-! ### Labels and registers of the running task -/

/-- The first atom of the record of a handle of frame `f` of die `d` (R59). -/
def State.recordAtom (s : State) (d : Nat) (f : BitVec 8) (h : Handle) : Nat := ((s.frameAt d f).tbase.toNat * 65536 + 128 * h.toNat) / 32

/-- The address of the first label record named among handles of a frame that holds a poisoned atom (R353). -/
def State.badRecordOf (s : State) (d : Nat) (f : BitVec 8) (hs : List Handle) : Option Nat :=
  (hs.filter fun h => decide (h ≠ always ∧ h ≠ never)).findSome? fun h =>
    let a := s.recordAtom d f h
    if (upto 4).any fun i => decide (s.ecc .main (a + i) = 2) then some (a * 32) else none

/-- The same for handles of the running task's frame. -/
abbrev State.badRecord (s : State) (hs : List Handle) : Option Nat := s.badRecordOf s.die s.task.frame hs

/-- The label records named are read: an atom of one with one bit in error is corrected (R352). -/
def State.readRecords (s : State) (d : Nat) (f : BitVec 8) (hs : List Handle) : State :=
  s.mendAtoms .main ((hs.filter fun h => decide (h ≠ always ∧ h ≠ never)).flatMap fun h => (upto 4).map (s.recordAtom d f h + ·))

/-- Product of labels of one frame, as the producing instruction forms it, or the instruction's trap (R61, R341, R352, R353). -/
def State.form (s : State) (d : Nat) (f : BitVec 8) (drop : Bool) (hs : List Handle) : Except Trap (Handle × State) :=
  match s.badRecordOf d f hs with
  | some a => .error { cause := 0x34, val := word a }
  | none =>
    match (s.readRecords d f hs).product d f drop hs with
    | .ok r => .ok r
    | .error e => .error (s.labTrap d f e)

/-- A label-overflow trap carries FSTAT as the step found it: what the step has interned before is undone with it (R341, R342). -/
def State.found (s : State) (d : Nat) (f : BitVec 8) (t : Trap) : Trap :=
  if t.cause = 0x1A then { t with d6 := (s.frameAt d f).status } else t

/-- Product of labels in the running task's frame (R61). -/
def State.prod (s : State) (hs : List Handle) : Except Stop (Handle × State) :=
  match s.form s.die s.task.frame false hs with
  | .ok r => .ok r
  | .error t => .error (.trap t)

/-- Product of the labels of a load under way: where some of it has performed early, it is Cleaned against the nogoods that its last
granule found, so that later ones leave it as it is (R127). -/
def State.prodLoaded (s : State) (hs : List Handle) : Except Stop (Handle × State) :=
  match s.strm.under with
  | none => s.prod hs
  | some k => do
    let fr := s.frameAt s.die s.task.frame
    let (h, s') ← (s.setFrame s.die s.task.frame { fr with nogoods := fr.nogoods.take k }).prod hs
    .ok (h, s'.setFrame s'.die s'.task.frame { s'.frameAt s'.die s'.task.frame with nogoods := fr.nogoods })

/-- Labels fold into DEP of the acting stream (R67). -/
def State.fold (s : State) (hs : List Handle) : Except Stop State := do
  let (h, s) ← s.prod (s.strm.dep :: hs)
  .ok (s.modStrm fun x => { x with dep := h })

/-- The task of a party is moot (R74). -/
def State.mootParty (s : State) (w : Party) : Bool := ((s.coreAt w.core).taskOf w.uid).any Task.moot

/-- A DEP of which no environment is free of nogoods (R74). -/
def State.depDead (s : State) (die : Nat) (f : BitVec 8) (h : Handle) : Bool :=
  decide (clean (s.frameAt die f).nogoods (s.labOf die f h).envs = [])

/-- The acting stream takes the DEP that an answered instruction leaves; a notice applied while it waited counts for it as well (R67,
R74). -/
def State.takeDep (s : State) (h : Handle) : State :=
  s.modStrm fun x => { x with dep := if x.dep = never || s.depDead s.die s.task.frame h then never else h }

/-- The Product of some labels and DEP is visible in CTX; never interned (R62, R288). -/
def State.sees (s : State) (hs : List Handle) : Bool :=
  s.visible s.die s.task.frame (s.rawProduct s.die s.task.frame (hs ++ [s.dep])) s.task.ctx

/-- The label records that a Product takes in are read: an atom with one bit in error is corrected, a poisoned one traps (R352, R353). -/
def State.records (s : State) (hs : List Handle) : Except Stop State :=
  match s.badRecord hs with
  | some a => trap 0x34 (word a)
  | none => .ok (s.readRecords s.die s.task.frame hs)

/-- The test of the Product of some labels and DEP, with the reads of their records (R62, R352, R353). -/
def State.judge (s : State) (hs : List Handle) : Except Stop (Bool × State) := do
  let s ← s.records (hs ++ [s.dep])
  .ok (s.sees hs, s)

/-- x[r]; x0 reads 0 with label ALWAYS (R63). -/
def State.x (s : State) (r : BitVec 5) : XReg := if r = 0 then {} else s.task.regs.x[r.toNat]'r.isLt

/-- The value of x[r]. -/
abbrev State.xv (s : State) (r : BitVec 5) : Word := (s.x r).val

/-- The label of x[r]. -/
abbrev State.xl (s : State) (r : BitVec 5) : Handle := (s.x r).lbl

/-- x[r] replaced; a write to x0 is discarded (R63). -/
def State.putX (s : State) (r : BitVec 5) (v : XReg) : State :=
  if r = 0 then s
  else s.modTask fun t => { t with regs := { t.regs with x := t.regs.x.set r.toNat v r.isLt } }

/-- A result and its label Product(labels, DEP); a result sent to x0 forms no label (R64, R208). A label that a rule gives as DEP alone is
Product(DEP) here, Cleaned against G and interned like any other (DESIGN CHOICE, log 80: R213 writes DEP, R61 forms every result's label
as a Product). -/
def State.writeX (s : State) (r : BitVec 5) (v : Word) (hs : List Handle) : Except Stop State :=
  if r = 0 then .ok s
  else do
    let (h, s) ← s.prod (hs ++ [s.dep])
    .ok (s.putX r ⟨v, h⟩)

/-- The result of a load with the labels of its atoms and DEP (R68, R127). -/
def State.writeLoaded (s : State) (r : BitVec 5) (v : Word) (hs : List Handle) : Except Stop State :=
  if r = 0 then .ok s
  else do
    let (h, s) ← s.prodLoaded (hs ++ [s.dep])
    .ok (s.putX r ⟨v, h⟩)

/-! ### The values of a trap (R331, R365) -/

/-- An encoding trap comes before the bound of R52; every other trap after it (log 8). -/
def Trap.early (t : Trap) : Bool := t.cause = 0x01 || t.cause = 0x03 || t.cause = 0x04

/-- Causes whose TRAPVAL is the encoding (R331). -/
def Trap.valued (t : Trap) : Bool := t.early || t.cause = 0x0B || t.cause = 0x0D || t.cause = 0x1D

/-- The values that every trap of its cause has in common: TRAPVAL, and dword 5 of R365, R343 and, for a class-0 task,
R347. -/
def Trap.fill (t : Trap) (enc : Nat) (k : Task) : Trap :=
  let t := if t.valued then { t with val := word enc } else t
  if t.cause = 0x03 && k.info.carried.isSome then { t with d5 := k.msg }
  else if decide (1 ≤ t.cause.toNat) && decide (t.cause.toNat ≤ 0x10) then { t with d5 := word enc }
  else if t.cause = 0x18 || t.cause = 0x19 || t.cause = 0x1C then { t with d5 := word k.frame.toNat }
  else t

/-! ### Gang wires (R154, R372) -/

/-- Every arrived core raises a trap, and the arrivals go (R154, R372). -/
def State.gangFail (s : State) (g : Nat) (tr : Arrival → Trap) : State :=
  let k := Tab.get {} s.groups g
  let s' := k.arrivals.foldl (fun s a => s.modParty ⟨a.core, a.uid, 0⟩ fun t => t.modStrm 0 fun x =>
    { x with reply := some (.trap ((tr a).fill a.word t)) }) s
  { s' with groups := Tab.put {} s'.groups g { k with arrivals := [], failed := [] } }

/-- The cycles that the arrivals of a group have waited since the first, and the gang-arrival trap (R154). -/
def State.arrivalTrap (s : State) (g : Nat) : Trap :=
  let as := (Tab.get ({} : Group) s.groups g).arrivals
  let now := s.cycleAt (16 * g)
  { cause := 0x0C, val := word (now - ((as.head?.map (·.since)).getD now)), d6 := word as.length }

/-- A task is retired: where it had arrived at a gang form, or had trapped at one, the arrived cores raise the gang-arrival trap at
once (R372). -/
def State.gangDrop (s : State) (c uid : Nat) : State :=
  let g := groupOf c
  let k := Tab.get ({} : Group) s.groups g
  if k.failed.any (fun w => decide (w.core = c ∧ w.uid = uid)) || k.arrivals.any (fun a => decide (a.core = c ∧ a.uid = uid))
  then s.gangFail g fun _ => s.arrivalTrap g
  else s

/-- The running task ends at its own `task.end`, past a gang form at which it may have trapped: the arrived cores go on waiting (R154,
R372). -/
def State.gangPass (s : State) : State :=
  let g := groupOf s.core.num
  let k := Tab.get ({} : Group) s.groups g
  let me : Party := ⟨s.core.num, s.task.info.uid, 0⟩
  if k.failed.contains me then { s with groups := Tab.put {} s.groups g { k with failed := k.failed.filter fun w => decide (w ≠ me) } }
  else s

/-- A gang operation in flight is to write a tile of a task of core `c` (R161). -/
def State.inFlight (s : State) (c uid : Nat) : Bool :=
  (Tab.get ({} : Group) s.groups (groupOf c)).flight.any fun f => f.tiles.any fun w => decide (w.core = c ∧ w.uid = uid)

/-- The launch of a task of core `c` (R335). -/
def State.launchOf (s : State) (c uid : Nat) : Option LaunchRef := ((s.coreAt c).taskOf uid).bind (·.info.launch)

/-- A trap answers a waiting party; one that has arrived at a gang form shares it with all sixteen cores (R372). -/
def State.answerTrap (s : State) (w : Party) (t : Trap) : State :=
  let k := Tab.get ({} : Group) s.groups (groupOf w.core)
  if w.stream = 0 && k.arrivals.any (fun a => decide (a.core = w.core ∧ a.uid = w.uid)) then s.gangFail (groupOf w.core) fun _ => t
  else s.answer w (.trap t)

/-! ### Ending a task -/

/-- A core leaves a barrier that it takes part in: it counts as arrived from now on, and where it had not arrived in the generation
under way, this is its arrival (R23, R153). -/
def Barrier.leave (now c : Nat) (b : Barrier) : Barrier :=
  if b.cores.contains c && !b.ended.contains c then
    { b with ended := c :: b.ended, lastAt := if b.arrived.contains c then b.lastAt else now }
  else b

/-- A reduction of the task has not performed (R134, R149). -/
def State.reductionsLeft (s : State) (core uid : Nat) : Bool :=
  s.dies.toList.any fun d => d.sluiceq.any fun q => q.reduce && decide (q.who.core = core ∧ q.who.uid = uid)

/-- A store of the task has not performed (R134). -/
def State.storesLeft (s : State) (core uid : Nat) : Bool :=
  (s.coreAt core).sb.any (fun e => decide (e.uid = uid)) || s.inbound.any (fun e => decide (e.core = core ∧ e.uid = uid))
    || s.ringq.any (fun q => decide (q.who.core = core ∧ q.who.uid = uid) && q.store.isSome)
    || s.reductionsLeft core uid

/-- An ended task counts towards its launch's completion (R47, R74) and leaves its barriers (R153). -/
def State.countEnd (s : State) (l : Option LaunchRef) (core : Nat) : State :=
  match l with
  | none => s
  | some l =>
    s.modDie l.die fun d =>
      let p := Tab.get {} d.pending l.entry
      { d with
        pending := if p.live && decide (p.seq = l.seq) then Tab.put {} d.pending l.entry { p with left := p.left.erase core }
                   else d.pending
        barriers := d.barriers.map fun b => if b.entry = l.entry then b.leave (s.cycleOf l.die) core else b }

/-- Everything that waits on behalf of a task is withdrawn: ring actions, sluice requests that its streams wait for, and
wait-queue places; a reduction stands (R74, R149). -/
def State.withdraw (s : State) (core uid : Nat) : State :=
  let mine := fun (w : Party) => decide (w.core = core ∧ w.uid = uid)
  { s with
    ringq := s.ringq.filter fun q => !mine q.who
    transfers := s.transfers.map fun t => if mine t.who then { t with closed := true } else t
    dies := s.dies.map fun d => { d with
      sluiceq := d.sluiceq.filter fun q => q.reduce || !mine q.who
      waiters := d.waiters.filter fun q => !mine q.who } }

/-- What a stream of a task waits for from another unit is withdrawn: a ring action, a sluice request, a place in a wait queue, accesses that
are to be answered, and an arrival at a gang form (R326). -/
def State.withdrawStream (s : State) (w : Party) : State :=
  let asked := fun (e : SbEntry) => decide (e.core = w.core ∧ e.uid = w.uid ∧ e.stream = w.stream) && e.ask.isSome
  let s := s.modCore w.core fun k => { k with sb := k.sb.filter fun e => !asked e }
  let g := Tab.get ({} : Group) s.groups (groupOf w.core)
  { s with
    ringq := s.ringq.filter fun q => decide (q.who ≠ w)
    inbound := s.inbound.filter fun e => !asked e
    dies := s.dies.map fun d => { d with
      sluiceq := d.sluiceq.filter fun q => q.reduce || decide (q.who ≠ w)
      waiters := d.waiters.filter fun q => decide (q.who ≠ w) }
    groups := if w.stream = 0 && g.arrivals.any (fun a => decide (a.core = w.core ∧ a.uid = w.uid)) then
        Tab.put {} s.groups (groupOf w.core) { g with arrivals := g.arrivals.filter fun a => decide (¬(a.core = w.core ∧ a.uid = w.uid)) }
      else s.groups }

/-- The engine commands of a task that ends keep the CTX it had, against which their writes are tested (R135, R172; log 61). -/
def State.keepCtx (s : State) (core uid : Nat) (ctx : Word) : State :=
  { s with engines := s.engines.map fun p => (p.1, { p.2 with
      queue := p.2.queue.map fun c => if c.who.core = core ∧ c.who.uid = uid then { c with ctx := ctx } else c }) }

/-- The end step of a task of core `c`: its streams, queues and waits go, the slot and the message slot are freed, a
class-0 message leaves the receive queue, and the end counts for launch and barriers (R31, R47, R74, R227). -/
def State.endTask (s : State) (c uid : Nat) : State :=
  match (s.coreAt c).taskOf uid with
  | none => s
  | some t =>
    let s := ((s.withdraw c uid).keepCtx c uid t.ctx).gangDrop c uid
    let s := s.modCore c fun k =>
      let k := { k with
        recvq := k.recvq.filter fun m => decide (m.held ≠ some uid)
        dbg := { k.dbg with pass := k.dbg.pass.filter fun p => decide (p.1 ≠ uid) } }
      if k.running && decide (k.task.info.uid = uid) then
        { k with running := false, task := {}, regs := { k.regs with act := false } }
      else { k with slots := k.slots.filter fun p => decide (p.2.info.uid ≠ uid) }
    s.countEnd t.info.launch c

/-! ### Taking a trap and returning from one (R326-R330) -/

/-- The trap registers of the acting core as a trap at `pc` sets them (R326, R327, R330). -/
def State.setTrapRegs (s : State) (t : Trap) (active : Bool) : State :=
  { s with core := { s.core with regs := { s.core.regs with
      trapPc := BitVec.ofNat 16 s.pc, cause := t.cause, trapStream := decide (s.actStream = 1), act := active
      trapVal := t.val } } }

/-- A trap that answers a captured instruction in pass i of a `rep.run` carries i as its dword 5 (R281, R348). -/
def State.passTrap (s : State) (t : Trap) : Trap :=
  match s.task.rep.run with
  | some k => if s.actStream = 0 then { t with d5 := word (k.done / s.task.rep.body.length) } else t
  | none => t

/-- The stream has begun to wait for its task's stores at the task's end. -/
def Stream.isEnding (x : Stream) : Bool :=
  match x.wait with
  | some w => decide (w.kind = .ending)
  | none => false

/-- The stream's task is being retired by a trap that has its record, and waits for its stores (R330). -/
def Stream.retiring (x : Stream) : Bool :=
  x.isEnding && match x.reply with
    | some (.trap _) => true
    | _ => false

/-- A trap of the acting stream: it stays at its instruction while the other stream's handler runs, and is taken after it (R328); it
enters the handler at TVEC (R326), what its instruction may have asked of other units being withdrawn; or the task is retired, with a record
unless it is moot: the record is written at once, so that records of one queue keep their order, and the task ends once its stores have
performed (R134, R330, R334). -/
def State.takeTrap (s : State) (t : Trap) : State :=
  let k := s.core.regs
  let here := decide (k.trapStream = decide (s.actStream = 1))
  if k.act && !here then s.modStrm fun x => { x with wait := some ⟨.handler, s.cycle⟩, reply := some (.trap t) }
  else if k.act || k.tvec = 0 || s.task.info.carried.isSome || s.task.moot then
    let o : RecordOf := {
      source := 0, core := s.core.num, die := s.die, frame := s.task.frame, launch := s.task.info.launch
      pc := s.pc, double := k.act, stream := s.actStream }
    let s' := if s.strm.retiring || s.task.moot then s else s.record o t
    if s.storesLeft s.core.num s.task.info.uid then
      s'.modStrm fun x => { x with wait := some ⟨.ending, s.cycle⟩, reply := some (.trap t) }
    else (s'.setTrapRegs t false).endTask s.core.num s.task.info.uid
  else
    let s := s.setTrapRegs t true
    let s := if t.cause = 0x20 then (s.withdrawStream s.self).modTask fun x => { x with spCount := 0 } else s
    let s := if s.actStream = 0 then s.modTask fun x => { x with rep := { x.rep with run := none } } else s
    s.modStrm fun x => { x with pc := k.tvec.toNat, wait := none, reply := none, asks := false, kept := none, shared := none, under := none, refs := [], granted := [] }

/-- The return from a trap: ACT is cleared and the stream goes on at TRAPPC.ADDR × 2 (R329), after cause 0x20 with a new count of R52
(R346). -/
def State.trapReturn (s : State) : Done :=
  { st := { s with core := { s.core with regs := { s.core.regs with act := false } } }
    ctl := .jump (s.core.regs.trapPc.toNat / 2 * 2)
    after := if s.core.regs.cause = 0x20 then fun x => x.modTask fun t => { t with spCount := 0 } else id }

/-! ### Retirement -/

/-- The loop-back that follows an instruction at `pc` that retires in sequence: the loops after it and the target (R218). -/
def Loops.back (l : Loops) (pc : Nat) : Loops × Option Nat :=
  let hit0 := decide (l.lc0 ≠ 0) && decide (pc = l.le0.toNat)
  let l := if hit0 then { l with lc0 := l.lc0 - 1 } else l
  if hit0 && decide (l.lc0 ≠ 0) then (l, some l.lb0.toNat)
  else
    let hit1 := decide (l.lc1 ≠ 0) && decide (pc = l.le1.toNat)
    let l := if hit1 then { l with lc1 := l.lc1 - 1 } else l
    if hit1 && decide (l.lc1 ≠ 0) then (l, some l.lb1.toNat) else (l, none)

/-- The count of R52 after `n` more instructions; SPDIST reads at most 1,024 (R232). -/
def count52 (c n : Nat) : Nat := min (c + n) 1024

/-- The stream goes on at `pc`, its wait and answer gone. -/
def State.goto (s : State) (pc : Nat) : State := s.modStrm fun x => { x with pc := pc, wait := none, reply := none, asks := false, kept := none, shared := none, under := none, refs := [], granted := [] }

/-- Every running stream has retired an instruction since the resume. -/
def Core.steppedOut (k : Core) : Bool :=
  !k.running || ((!k.task.ex.active || k.dbg.stepped.contains 0) && (!k.task.ac.active || k.dbg.stepped.contains 1))

/-- The core halts again once each running stream has retired one instruction (R376). -/
def Core.stepHalt (k : Core) : Core :=
  if k.dbg.stepping && k.steppedOut then { k with dbg := { k.dbg with halted := true, stepping := false, stepped := [] } } else k

/-- A retirement by a stream of a task, as the debug registers see it (R376, R377). -/
def State.stepRetire (s : State) (c uid st : Nat) : State :=
  s.modCore c fun k =>
    let k := { k with dbg := { k.dbg with pass := k.dbg.pass.filter fun p => decide (¬(p.1 = uid ∧ p.2.1 = st)) } }
    if k.dbg.stepping then { k with dbg := { k.dbg with stepped := st :: k.dbg.stepped } }.stepHalt else k

/-- A wait that begins now holds the core: the access stream runs, a stream port is open, or a handler runs (R37, R224, R328). -/
def Core.mustHold (k : Core) : Bool := k.task.ac.active || k.task.ex.port.isSome || k.regs.act

/-- The stream begins to wait. -/
def State.beginWait (s : State) (k : WaitKind) : State :=
  s.modStrm fun x => { x with wait := some ⟨k, s.cycle⟩, holds := s.core.mustHold }

/-- The stream is about to wait; a wait already under way keeps its first cycle. -/
def State.block (s : State) (k : WaitKind) : State :=
  match s.strm.wait with
  | some w => if w.kind = k then s else s.beginWait k
  | none => s.beginWait k

/-- A task in a blocking wait gives up its core, its whole state saved, unless its wait holds the core until it completes (R37, R224,
R328). -/
def Core.yield (c : Core) : Core :=
  if c.task.ex.holds || !c.running then c
  else
    let t := { c.task with info := { c.task.info with status := .blocked, saved := true } }
    { c with running := false, task := {}, slots := Tab.put {} c.slots t.info.slot t }

/-- The acting core's task gives up the core. -/
def State.yieldCore (s : State) : State := { s with core := s.core.yield }

/-- A wait begins or goes on; a blocking wait of the execute stream gives up the core (R37). A wait for a ring slot becomes one
later (R145). -/
def State.await (s : State) (k : WaitKind) : State :=
  let s := s.block k
  if (k = .wake || k = .barrier) && decide (s.actStream = 0) then s.yieldCore else s

/-- Retirement of an instruction of `len` bytes at the stream's PC, with the loop-back of R218 and the count of R52. -/
def State.retire (s : State) (len : Nat) (d : Done) : State :=
  let s' := match d.ctl with
    | .stay => d.st
    | .jump t => (d.st.goto t).modTask fun k => { k with spCount := count52 k.spCount d.counts }
    | .next =>
      if s.actStream = 0 && !d.st.core.regs.act then
        let (l, b) := d.st.task.loops.back s.pc
        let s' := d.st.modTask fun k =>
          { k with loops := l, spCount := count52 k.spCount (if b.isSome then d.counts + 1 else d.counts) }
        s'.goto (b.getD (s.pc + len))
      else (d.st.goto (s.pc + len)).modTask fun k => { k with spCount := count52 k.spCount d.counts }
  d.after (s'.stepRetire s.core.num s.task.info.uid s.actStream)

/-- The stream waits in a blocking wait (R37, R145). -/
def Stream.blocked (x : Stream) (now : Nat) : Bool :=
  x.active && match x.wait with
    | some w => w.kind = .wake || w.kind = .barrier || (w.kind = .ring && decide (w.since + 512 ≤ now))
    | none => false

/-- The end of the running task once its stores have performed (R134, R227). -/
def State.finish (s : State) : Except Stop Done :=
  if s.storesLeft s.core.num s.task.info.uid then wait .ending
  else .ok { st := s.endTask s.core.num s.task.info.uid, ctl := .stay }

/-- A moot task in a blocking wait that nobody has answered leaves it and is retired (R74). -/
def State.leaves (s : State) : Bool := s.task.moot && (s.strm.blocked s.cycle || s.strm.isEnding) && s.strm.reply.isNone

/-- Its place in the wait goes at once, and its end comes when its stores have performed (R74, R134). -/
def State.leave (s : State) : Except Stop Done :=
  if s.storesLeft s.core.num s.task.info.uid then waitAs .ending (s.withdraw s.core.num s.task.info.uid) else s.finish

/-- What a step does that begins or continues a wait: a moot task stays in no blocking wait, and is retired at once (R74). -/
def State.awaits (s : State) (k : WaitKind) : Except Stop Done :=
  if s.task.moot && (k = .wake || k = .barrier) then s.leave else waitAs k s

/-- A task leaves its wait: it is retired at once if its stores have performed, else it goes on to its end (R74, R134). -/
def State.leaveWait (s : State) (c uid : Nat) : State :=
  let s := s.withdraw c uid
  if s.storesLeft c uid then
    s.modCore c fun k => k.modTaskOf uid fun t =>
      if t.info.status = .blocked then { t with info := { t.info with status := .ready, readySince := s.cycleAt c, aged := 0 } } else t
  else s.endTask c uid

/-- The trap of the 1,025th instruction (R52, R346). -/
def State.boundTrap (s : State) : Trap :=
  { cause := 0x20, val := 1025, d5 := match s.task.lastSafept with | some a => word a | none => BitVec.allOnes 64 }

/-- The next state of an instruction of `len` bytes and encoding `enc`: its trap, its wait, or its retirement. An answer
that is a trap is taken first, and the bound of R52 acts before anything retires (R203, R326, R346). -/
def State.complete (s : State) (len enc : Nat) (b : Body) : Host.Outcome State Fault Refusal :=
  match s.strm.reply with
  | some (.trap t) => .next (s.takeTrap (s.passTrap t))
  | _ =>
    let past := decide (1024 ≤ s.task.spCount)
    match (if s.leaves then s.leave else match b s with
      | .error (.wait k s') => (s'.getD s).awaits k
      | r => r) with
    | .error (.trap t) => .next (s.takeTrap (if !t.early && past then s.boundTrap else s.found s.die s.task.frame (t.fill enc s.task)))
    | .error (.passed t s') => .next (if past then s.takeTrap s.boundTrap else s'.takeTrap t)
    | .error (.wait k s') => .next (if past then s.takeTrap s.boundTrap else (s'.getD s).await k)
    | .ok d => .next (if past then s.takeTrap s.boundTrap else s.retire len d)

/-! ### Granules of loads that have performed early (R127-R129) -/

/-- The registers that a form writes, as far as a later load's address may rest on them: x register r as r, vector register as 32 + r, mask
register as 64 + r, the repetition buffer as 100. A later load may perform ahead of these forms, unless one of them produces its address
(R125, R129); none performs ahead of a task's end (log 17). -/
def writesOf : Instr → Option (List Nat)
  | .add d _ _ | .sub d _ _ | .xor d _ _ | .andn d _ _ | .orn d _ _ | .xnor d _ _ | .or d _ _ | .and d _ _ | .shl d _ _
  | .shr d _ _ | .sar d _ _ | .rotl d _ _ | .rotr d _ _ | .cmplt d _ _ | .cmpltu d _ _ | .cmpeq d _ _ | .min d _ _ | .max d _ _
  | .minu d _ _ | .maxu d _ _ | .mul d _ _ | .mulxSs d _ _ | .mulxUu d _ _ | .mulxSu d _ _ | .quot d _ _ | .quotu d _ _
  | .remd d _ _ | .remdu d _ _ | .addi d _ _ | .slli d _ _ | .rotli d _ _ | .cmplti d _ _ | .cmpltiu d _ _ | .xori d _ _
  | .srli d _ _ | .srai d _ _ | .rotri d _ _ | .ori d _ _ | .andi d _ _ | .ldB d _ _ | .ldH d _ _ | .ldW d _ _ | .ldD d _ _
  | .ldBu d _ _ | .ldHu d _ _ | .ldWu d _ _ | .jr d _ _ | .pcadd d _ _ | .amoAddD d _ _ | .amoAndD d _ _ | .amoOrD d _ _
  | .amoXorD d _ _ | .amoMinD d _ _ | .amoMaxD d _ _ | .amoSwapD d _ _ | .amoCasD d _ _ | .amoAddW d _ _ | .amoAndW d _ _
  | .amoOrW d _ _ | .amoXorW d _ _ | .amoMinW d _ _ | .amoMaxW d _ _ | .amoSwapW d _ _ | .amoCasW d _ _ | .amoMinuD d _ _
  | .amoMaxuD d _ _ | .amoMinuW d _ _ | .amoMaxuW d _ _ | .amoFadd d _ _ | .clz d _ | .ctz d _ | .pop d _ | .sextB d _
  | .sextH d _ | .sextW d _ | .zextB d _ | .zextH d _ | .zextW d _ | .bswap d _ | .bitrev d _ | .hiimm d _ | .jump d _
  | .cAddi d _ | .cSet d _ | .cMv d _ | .cAdd d _ | .cSub d _ | .cAnd d _ | .cOr d _ | .cXor d _ | .cSlli d _ | .cSrli d _
  | .kpop d _ | .ktox d _ | .vext d _ _ _ | .vredsum d _ _ _ | .vredmin d _ _ _
  | .vredmax d _ _ _ | .vredminu d _ _ _ | .vredmaxu d _ _ _ | .vfredsum d _ _ | .vfredmax d _ _ | .vfredmin d _ _ | .qGet d _
  | .qCnt d _ | .spClose d | .srd d _ | .syncLd d _ | .syncAdd d _ _ | .syncAnd d _ _ | .syncOr d _ _ | .syncXor d _ _
  | .syncSwap d _ _ | .syncCas d _ _ | .syncFadd d _ _ | .syncMin d _ _ | .syncMax d _ _ | .syncMinu d _ _ | .syncMaxu d _ _
  | .syncWait d _ _ | .syncWake d _ _ | .ringBoard d _ _ | .ringCapRead d _ _ | .ringCapAdd d _ _ | .ringCapMin d _ _
  | .ringCapMax d _ _ | .ringCapSwap d _ _ | .ringCapCas d _ _ | .ringAlight d _ _ | .lblAssume d _ | .lblWith d _ _
  | .lblMerge d _ _ | .lblGet d _ | .lblVis d _ | .lblNogood d _ | .lblCtx d _ | .launch d _ | .arm d _ _ | .disarm d _
  | .meterReg d _ | .meterRead d _ _ | .meterCkpt d | .attest d _ | .qstat d _ | .qstE4m3 d _ _ _ _ | .tmapRd d _ _ | .hotCnt d _
  | .cpy d _ | .gth d _ | .coll d _ | .engCancel d _ => some [d.toNat]
  | .cLdD d _ _ | .cLdW d _ _ => some [8 + d.toNat]
  | .vlds d _ _ _ _ | .vgth d _ _ _ _ | .vadd d _ _ _ _ | .vsub d _ _ _ _ | .vmul d _ _ _ _ | .vmulh d _ _ _ _ | .vmin d _ _ _ _
  | .vmax d _ _ _ _ | .vminu d _ _ _ _ | .vmaxu d _ _ _ _ | .vadds d _ _ _ _ | .vaddus d _ _ _ _ | .vsubs d _ _ _ _
  | .vsubus d _ _ _ _ | .vand d _ _ _ _ | .vor d _ _ _ _ | .vxor d _ _ _ _ | .vandn d _ _ _ _ | .vsll d _ _ _ _
  | .vsrl d _ _ _ _ | .vsra d _ _ _ _ | .vfadd d _ _ _ _ | .vfsub d _ _ _ _ | .vfmul d _ _ _ _ | .vfdiv d _ _ _ _
  | .vfmin d _ _ _ _ | .vfmax d _ _ _ _ | .vfma d _ _ _ _ | .vfnms d _ _ _ _ | .vperm d _ _ _ _ | .vslide d _ _ _ _
  | .vld d _ _ _ | .vbc d _ _ _ | .vsplat d _ _ _ | .vins d _ _ _ | .vmv d _ _ _ | .vfsqrt d _ _ _ | .vcomp d _ _ _
  | .vrev d _ _ _ | .vcvtF32F16 d _ _ _ | .vcvtF32Bf16 d _ _ _ | .vcvtF32E4m3 d _ _ _ | .vcvtF32E5m2 d _ _ _
  | .vcvtF16F32 d _ _ _ | .vcvtBf16F32 d _ _ _ | .vcvtE4m3F32 d _ _ _ | .vcvtE5m2F32 d _ _ _ | .vcvtI32F32 d _ _ _
  | .vcvtI32F32Rtz d _ _ _ | .vcvtF32I32 d _ _ _ | .vcvtUi32F32 d _ _ _ | .vcvtUi32F32Rtz d _ _ _ | .vcvtF32Ui32 d _ _ _
  | .vcvtI8F32 d _ _ _ | .vcvtI8F32Rtz d _ _ _ | .vcvtF32I8 d _ _ _ | .vcvtUq8F32 d _ _ _ | .vcvtUq8F32Rtz d _ _ _
  | .vcvtF32Uq8 d _ _ _ | .vcvtI16F32 d _ _ _ | .vcvtI16F32Rtz d _ _ _ | .vcvtF32I16 d _ _ _ | .vcvtI32I8 d _ _ _
  | .vcvtI8I32 d _ _ _ | .vcvtI32I16 d _ _ _ | .vcvtI16I32 d _ _ _ | .vcvtE4m3F16 d _ _ _ | .vcvtF16E4m3 d _ _ _
  | .accTov _ d _ | .qcar d _ => some [32 + d.toNat]
  | .vcmpEq d _ _ _ _ | .vcmpNe d _ _ _ _ | .vcmpLt d _ _ _ _ | .vcmpGe d _ _ _ _ | .vcmpLtu d _ _ _ _ | .vcmpGeu d _ _ _ _
  | .vfcmpEq d _ _ _ _ | .vfcmpLt d _ _ _ _ | .vfcmpLe d _ _ _ _ | .kand d _ _ | .kor d _ _ | .kxor d _ _ | .knot d _
  | .kfromx d _ => some [64 + d.toNat]
  | .beq _ _ _ | .bne _ _ _ | .blt _ _ _ | .bge _ _ _ | .bltu _ _ _ | .bgeu _ _ _ | .stB _ _ _ | .stH _ _ _ | .stW _ _ _
  | .stD _ _ _ | .stDh _ _ _ | .fenceFull _ | .fenceRel _ | .fenceAcq _ | .vst _ _ _ _ | .vsts _ _ _ _ _ | .vsct _ _ _ _ _
  | .accLd _ _ _ | .accSt _ _ _ | .accZero _ | .accFill _ _ | .accFromv _ _ _ | .cStD _ _ _ | .cStW _ _ _ | .cBz _ _ | .cBnz _ _
  | .cJump _ | .cNop | .hint _ | .loop _ _ _ | .loopi _ _ _ | .loopClr _ | .forkA _ | .qPut _ _ | .msgSend _ _ | .spOpen _ _
  | .spPut _ | .safept _ | .align _ | .swr _ _ | .phase | .tlbW _ _ _ | .tlbInv _ _ | .mlive _ _ | .barArrive _ | .barWait _ | .qsc _ _
  | .qclr _ | .qhist _ _ _ | .repRun _ _ _ | .tmapLd _ _ | .tmapMov _ _ | .gangWld _ _ _ _ | .gangMma _ _ _ _ _ _ | .hotReg _ _ _
  | .hotMig _ => some []
  | .repOpen _ => some [100]
  | _ => none

/-- The sluice operations, whose words are of the strong kind (R128, R129). -/
def sluiceForm : Instr → Bool
  | .syncLd _ _ | .syncAdd _ _ _ | .syncAnd _ _ _ | .syncOr _ _ _ | .syncXor _ _ _ | .syncSwap _ _ _ | .syncCas _ _ _
  | .syncFadd _ _ _ | .syncMin _ _ _ | .syncMax _ _ _ | .syncMinu _ _ _ | .syncMaxu _ _ _ | .syncWait _ _ _ | .syncWake _ _ _ => true
  | _ => false

/-- The early granules of the acting stream that an instruction leaves: its own are taken, and those stay whose address it does not
produce and which R129 does not order after it. -/
def State.passEarly (s : State) (pc : Nat) (i : Instr) : State :=
  if s.strm.early = [] then s
  else s.modStrm fun x => { x with early := match writesOf i with
    | none => []
    | some w => x.early.filter fun e => decide (e.pc ≠ pc) && !w.any e.names.contains && !(sluiceForm i && decide (e.kind = 0)) }

/-- The number of the captured instruction under way in the acting stream's run, counted from 1; 0 outside a run. -/
def State.subNo (s : State) : Nat :=
  match s.task.rep.run with
  | some r => if s.actStream = 0 then r.done + 1 else 0
  | none => 0

/-- An access of the acting stream performs after the early granules that it may not follow are forgotten: those it overlaps, and for a
load those that R129 orders after it. -/
def State.overtake (s : State) (load : Bool) (space : Space) (addr n kind : Nat) : State :=
  if s.strm.early = [] then s
  else s.modStrm fun x => { x with early := x.early.filter fun e => decide (load ∧ e.pc = s.pc ∧ e.sub = s.subNo) ||
    !((decide (e.space = space) && overlap e.addr e.bytes.length addr n)
      || (load && (decide (kind = 1) || (decide (kind = 0) && decide (e.kind = 0))))) }

/-- An encoded instruction: what `encode` gives for it decides length and encoding; carried code may use 16-bit forms
only, and a term that no encoding stands for is illegal (R194, R201, R203). -/
def State.run (s : State) (i : Instr) (b : Body) : Host.Outcome State Fault Refusal :=
  let e := (encode i).getD (32, 0)
  s.complete (e.1 / 8) e.2
    (if s.task.info.carried.isSome && decide (e.1 = 32) then fun _ => trap 0x03 0
     else if wellFormed i then fun s => (b s).map fun d => { d with st := d.st.passEarly s.pc i }
     else fun _ => trap 0x01 0)

end Sys2Proof.Machine
end

