-- ==== Sys2Proof/Machine/Access.lean ====
section
/-!
DEFINITION. Addresses, translation, the checks of an access in their order, coherence, and the ordering machine's loads
and stores (R95-R120, R126-R135, R292, R349-R355, R384).
-/

namespace Sys2Proof.Machine

/-! ### Places -/

/-- The home slice of a physical address in a bring-up phase (R96, R304). -/
def homeSlice (phase pa : Nat) : Nat :=
  if phase = 2 then pa / 2 ^ 26 else Nat.xor (pa / 128 % 32) (pa / 4096 % 32) + 32 * homeDie phase pa

/-- The virtual spaces (R95); each core's package scratchpad counts as one (R350). -/
inductive VSpace where
  | own
  | pkg (core : Nat)
  | global
  | hole
  deriving DecidableEq, Repr

/-- The space of a virtual address (R95). -/
def vspace (a : Nat) : VSpace :=
  if a < 0x10000 then .own
  else if a < 0x10000000 then .hole
  else if a < 0x20000000 then .pkg ((a - 0x10000000) / 0x10000)
  else if a < 0x100000000 then .hole
  else if a < 0x1000000000000 then .global
  else .hole

/-- What an access does: the right it needs (R100, R116). -/
inductive Acc where
  | load
  | store
  | atomic
  | handler
  deriving DecidableEq, Repr

/-! ### Windows (R99, R100, R351) -/

/-- A window covers both atoms (R100). -/
def winCovers (w : Word) (first last : Nat) : Bool :=
  bit w 63 && decide (bits w 0 11 ≤ first) && decide (last ≤ bits w 11 11)

/-- A window grants a right. -/
def winRight (w : Word) : Acc → Bool
  | .load => bit w 52
  | .store => bit w 53
  | .atomic => bit w 54
  | .handler => bit w 55

/-- A window's SCOPE admits a requester: a core, or a party at system scope (R100). -/
def winScope (w : Word) (owner : Nat) : Option Nat → Bool
  | some c => share (bits w 56 3) owner c
  | none => decide (bits w 56 3 = 7)

/-- Whether the windows of `owner` admit an access to atoms first to last, or why not (R100, R351). -/
def State.windowRefusal (s : State) (owner first last : Nat) (acc : Acc) (who : Option Nat) : Option Nat :=
  let ws := (s.coreAt owner).regs.win.toList.filter fun w => winCovers w first last
  if ws.any fun w => winRight w acc && winScope w owner who then none
  else match ws with
    | [] => some 0
    | w :: _ => if winRight w acc then some 2 else some 1

/-! ### Translation (R116-R119) -/

/-- A TLB entry matches an address (R116). -/
def tlbMatch (tag data : Word) (va : Nat) : Bool :=
  bit tag 0 && (if bit data 3 then decide (va / 2 ^ 24 = bits tag 24 24) else decide (va / 2 ^ 16 = bits tag 16 32))

/-- The lowest matching entry of a tile (R117). -/
def State.tlbFind (s : State) (tile va : Nat) : Option Word :=
  (s.tlb.find? fun p => decide (p.1 / 256 = tile) && tlbMatch p.2.1 p.2.2 va).map fun p => p.2.2

/-- The page size of a data dword. -/
def pageSize (data : Word) : Nat := if bit data 3 then 2 ^ 24 else 2 ^ 16

/-- The physical address of `va` through a data dword (R116). -/
def physOf (data : Word) (va : Nat) : Nat :=
  if bit data 3 then bits data 24 16 * 2 ^ 24 + va % 2 ^ 24 else bits data 16 24 * 2 ^ 16 + va % 2 ^ 16

/-- An access through the entry has the translation-format fault (R116). -/
def badFormat (data : Word) : Bool := decide (bits data 4 2 = 3) || (bit data 3 && decide (bits data 16 8 ≠ 0))

/-- The physical address is one the package serves now (R96, R304). -/
def State.paOk (s : State) (pa : Nat) : Bool :=
  decide (pa < (if s.host.phase = 2 then 4 * 2 ^ 30 else 576 * 2 ^ 30))

/-- The table walk of a level-1 base for an address: the level-3 entry, or the level where it stops (R118, R355). -/
def State.walk (s : State) (base : Word) (va : Nat) : Except Nat Word :=
  let at' := fun (t : Word) (i : Nat) => wordOf (s.mainBytes (bits t 13 35 * 8192 + 8 * i) 8)
  let e1 := at' base (va / 2 ^ 38 % 1024)
  let e2 := at' e1 (va / 2 ^ 28 % 1024)
  let e3 := at' e2 (va / 2 ^ 16 % 4096)
  if !bit base 0 || !bit e1 0 then .error 1 else if !bit e2 0 then .error 2 else if !bit e3 0 then .error 3 else .ok e3

/-- The atoms of the tables that a walk reads until it stops (R118, R352). -/
def State.walkAtoms (s : State) (base : Word) (va : Nat) : List Nat :=
  let place := fun (t : Word) (i : Nat) => bits t 13 35 * 8192 + 8 * i
  let next := fun (t : Word) (i : Nat) => wordOf (s.mainBytes (place t i) 8)
  let i1 := va / 2 ^ 38 % 1024
  let i2 := va / 2 ^ 28 % 1024
  let e1 := next base i1
  let e2 := next e1 i2
  if !bit base 0 then []
  else if !bit e1 0 then [place base i1 / 32]
  else if !bit e2 0 then [place base i1 / 32, place e1 i2 / 32]
  else [place base i1 / 32, place e1 i2 / 32, place e2 (va / 2 ^ 16 % 4096) / 32]

/-- A walk has read its entries: those of their atoms that have one bit in error are corrected (R352). -/
def State.walked (s : State) (base : Word) (va : Nat) : State := s.mendAtoms .main (s.walkAtoms base va)

/-- The table base that a core's translations start from (R118, R308). -/
def State.tableOf (s : State) (c : Nat) : Word := (Tab.get ({} : Group) s.groups (groupOf c)).aspace

/-- Step 4 of R349 for the page holding `va`: its data dword. `n` bytes from `ea` are accessed. -/
def State.pageCheck (s : State) (tile : Nat) (acc : Acc) (va : Nat) : Except Stop Word :=
  match s.tlbFind tile va with
  | none => wait (.tlb va (if acc = .load then 0 else 1))
  | some d =>
    if badFormat d then trap 0x32 (word va)
    else
      let kind := if acc = .load then 0 else 1
      if !(if acc = .load then bit d 1 else bit d 2) then trap 0x33 (word va) 0 kind
      else if decide (bits d 44 20 = s.host.devnum.toNat) && !s.paOk (physOf d va) then trap 0x33 (word va) 0 kind
      else .ok d

/-- The region that holds a physical address (R260). -/
def State.regionOf (s : State) (pa : Nat) : Option Nat :=
  (s.sec.regions.find? fun p => p.2.live && decide (p.2.base ≤ pa / 65536 ∧ pa / 65536 ≤ p.2.limit)).map (·.1)

/-- Step 5 of R349 for one page: the piece of the access there. -/
def State.frameOk (s : State) (d : Word) (va n : Nat) : Except Stop Loc :=
  let home := bits d 44 20
  let remote := decide (home ≠ s.host.devnum.toNat)
  let frm := BitVec.ofNat 8 (bits d 8 8)
  let f := s.task.frame
  if bit d 7 && (decide (frm ≠ f) || remote) then trap 0x18 (word va) f.toNat frm.toNat
  else .ok {
    space := .main, addr := physOf d va, len := n, ea := va, kind := bits d 4 2, labelled := bit d 7, frm := frm
    cache := bit d 6 && decide (s.core.num < 0x1000), owner := s.core.num, remote := if remote then some home else none }

/-- The metered-region test of a piece that is loaded (R319, R363). -/
def State.meterOk (s : State) (acc : Acc) (l : Loc) : Except Stop Unit :=
  match (if l.remote.isSome || acc ≠ .load || (s.frameAt s.die s.task.frame).metered then none
         else (s.regionOf l.addr).orElse fun _ => s.regionOf (l.addr + l.len - 1)) with
  | some r => trap 0x10 (word l.ea) 0 r
  | none => .ok ()

/-- Both tests for an access to one page. -/
def State.frameCheck (s : State) (acc : Acc) (d : Word) (va n : Nat) : Except Stop Loc := do
  let l ← s.frameOk d va n
  s.meterOk acc l
  .ok l

/-- Steps 3 to 6 of R349 for `n` bytes at `ea`, through the TLB of the core's tile: the pieces of the access, one per page. FRM of a labelled
scratchpad is compared as a number, also where its owner is a core of the other die (DESIGN CHOICE, log 95: R54 makes the frames of the dies
unrelated, and R98 does not say whose frame FRM names). -/
def State.resolve (s : State) (acc : Acc) (ea : Word) (n : Nat) : Except Stop (List Loc) :=
  let a := ea.toNat
  let z := a + n - 1
  let tile := tileOf s.core.num
  let hole : Except Stop (List Loc) := trap 0x30 ea z n
  let spm (owner off : Nat) : Except Stop (List Loc) :=
    let k := (s.coreAt owner).regs
    if k.lab && decide (k.frm ≠ s.task.frame) then trap 0x18 ea s.task.frame.toNat k.frm.toNat
    else
      let l : Loc := {
        space := .spm, addr := owner * 65536 + off, len := n, ea := a, kind := 0, labelled := k.lab, frm := k.frm
        cache := false, owner := owner, remote := none }
      if owner = s.core.num then .ok [l]
      else match s.windowRefusal owner (off / 32) ((off + n - 1) / 32) acc (some s.core.num) with
        | none => .ok [l]
        | some r => trap 0x31 ea owner r
  match vspace a with
  | .hole => hole
  | .own => if vspace z = .own then spm s.core.num a else hole
  | .pkg c => if vspace z = .pkg c then spm c (a % 65536) else hole
  | .global =>
    if vspace z ≠ .global then hole
    else do
      let d ← s.pageCheck tile acc a
      let b := (a / pageSize d + 1) * pageSize d
      if z < b then
        let l ← s.frameCheck acc d a n
        .ok [l]
      else
        let d' ← s.pageCheck tile acc b
        let l ← s.frameOk d a (b - a)
        let l' ← s.frameOk d' b (z + 1 - b)
        s.meterOk acc l
        s.meterOk acc l'
        .ok [l, l']

/-- The granules of a piece: lines of main memory, atoms of scratchpad, in ascending order (R128); `fuel` bounds them. -/
def granules (size : Nat) : Nat → Nat → Nat → List (Nat × Nat)
  | 0, _, _ => []
  | fuel + 1, a, n =>
    if n = 0 then [] else
      let m := min n (size - a % size)
      (a, m) :: granules size fuel (a + m) (n - m)

/-- The granule size of a space (R128). -/
def Space.grain : Space → Nat
  | .main => 128
  | .spm => 32

/-- The granules of a location. -/
def Loc.granules (l : Loc) : List (Nat × Nat) := Machine.granules l.space.grain l.len l.addr l.len

/-! ### Coherence (R103-R110, R292) -/

/-- The L1 way of a tile that holds a line, if any. -/
def Coherence.way (c : Coherence) (tile line : Nat) : Option (Nat × L1Way) :=
  (upto 8).findSome? fun w =>
    let k := tile * 512 + line % 64 * 8 + w
    let x := Tab.get {} c.l1 k
    if x.st ≠ .i && decide (x.line = line) then some (k, x) else none

/-- A directory entry left with no holder is uncached (R104, R106). -/
def DirEntry.norm (e : DirEntry) : DirEntry := if !e.coarse && e.ptrs = [] then {} else e

/-- A line leaves an L1; a modified copy is written back at once, so memory already holds its data (R125). -/
def Coherence.dropWay (c : Coherence) (tile line : Nat) : Coherence :=
  match c.way tile line with
  | some (k, _) => { c with l1 := Tab.put {} c.l1 k {} }
  | none => c

/-- A line is filled into a tile's L1: the lowest invalid way, else the way filled longest ago, whose line leaves with a
notice or a write-back (R106, R292). -/
def Coherence.fillWay (c : Coherence) (tile line : Nat) (st : LineState) : Coherence :=
  let base := tile * 512 + line % 64 * 8
  let ws := (upto 8).map fun w => (base + w, Tab.get {} c.l1 (base + w))
  let new : L1Way := ⟨line, st, c.fills + 1⟩
  match c.way tile line with
  | some (k, x) => { c with l1 := Tab.put {} c.l1 k { x with st := st } }
  | none =>
    let c := { c with
      notices := c.notices.filter fun p => decide (p ≠ (line, tile))
      writeBacks := c.writeBacks.filter fun p => decide (p ≠ (line, tile)) }
    match ws.find? fun p => decide (p.2.st = .i) with
    | some (k, _) => { c with l1 := Tab.put {} c.l1 k new, fills := c.fills + 1 }
    | none =>
      match sortBy (fun a b => decide (a.2.fill ≤ b.2.fill)) ws with
      | [] => c
      | (k, x) :: _ =>
        let c := { c with l1 := Tab.put {} c.l1 k new, fills := c.fills + 1 }
        if x.st = .m then { c with writeBacks := c.writeBacks ++ [(x.line, tile)] }
        else { c with notices := c.notices ++ [(x.line, tile)] }

/-- The agents that a directory entry makes the home invalidate for an exclusive request by `w` (R105). -/
def DirEntry.others (e : DirEntry) (w : Nat) : List Nat :=
  if e.coarse then (upto 1088).filter fun a => e.vec.getLsbD (a / 32) && decide (a ≠ w)
  else e.ptrs.filter fun a => decide (a ≠ w)

/-- A new sharer: the next pointer, or the coarse vector from the fifth on (R105). -/
def DirEntry.addSharer (e : DirEntry) (a : Nat) : DirEntry :=
  if e.coarse then { e with state := 1, vec := e.vec ||| BitVec.ofNat 44 (2 ^ (a / 32)) }
  else if e.ptrs.contains a then { e with state := 1 }
  else if e.ptrs.length < 4 then { e with state := 1, ptrs := e.ptrs ++ [a] }
  else
    { state := 1, coarse := true, ptrs := []
      vec := (a :: e.ptrs).foldl (fun v x => v ||| BitVec.ofNat 44 (2 ^ (x / 32))) 0 }

/-- An entry held exclusively by one agent (R105). -/
def DirEntry.exclusive (w : Nat) : DirEntry := { state := 2, ptrs := [w] }

/-- A load of a cacheable line by a tile: a hit changes nothing; a miss gets E when nobody else is recorded as a holder and S otherwise
(R103). -/
def Coherence.read (c : Coherence) (tile line : Nat) : Coherence :=
  if (c.way tile line).isSome then c
  else
    let e := Tab.get {} c.dir line
    if e.others tile = [] then { (c.fillWay tile line .e) with dir := Tab.put {} c.dir line (DirEntry.exclusive tile) }
    else
      let c := if e.state = 2 then
          e.ptrs.foldl (fun c a => match c.way a line with
            | some (k, x) => { c with l1 := Tab.put {} c.l1 k { x with st := .s } }
            | none => c) c
        else c
      { (c.fillWay tile line .s) with dir := Tab.put {} c.dir line (e.addSharer tile) }

/-- Exclusive ownership is granted: the entry names the agent alone (R105). -/
def Coherence.grant (c : Coherence) (line w : Nat) : Coherence := { c with dir := Tab.put {} c.dir line (DirEntry.exclusive w) }

/-- The invalidations of an exclusive request are sent: every other holder's copy goes, and the acknowledgements are
awaited (R105). -/
def Coherence.invalidate (c : Coherence) (line w : Nat) : Coherence :=
  let os := (Tab.get {} c.dir line).others w
  let c := os.foldl (fun c a => c.dropWay a line) c
  { c with grants := c.grants ++ [⟨line, w, os⟩] }

/-- Another agent than `w` holds the line, or acknowledgements for it are awaited (R105). -/
def Coherence.busy (c : Coherence) (w line : Nat) : Bool :=
  c.grants.any (fun g => decide (g.line = line)) || decide ((Tab.get {} c.dir line).others w ≠ [])

/-- What must happen before agent `w`, or a party that is no agent, may have lines: their invalidations, sent where none is under way
(R105, R384); nothing if no other agent holds one. -/
def Coherence.recall (c : Coherence) (w : Nat) (lines : List Nat) : Option Coherence :=
  match lines.filter (c.busy w) with
  | [] => none
  | ls => some (ls.foldl (fun c l => if c.grants.any fun g => decide (g.line = l) then c else c.invalidate l w) c)

/-- The number that stands for a party that is no coherence agent. -/
def noAgent : Nat := 2000

/-- The 128-byte lines of a byte range. -/
def linesOf (a n : Nat) : List Nat := (upto ((a + n - 1) / 128 - a / 128 + 1)).map (a / 128 + ·)

/-- A write at a line's home by a party that is not a coherence agent, or an engine's release: every holder goes and the
entry reads uncached (R107, R384). -/
def Coherence.uncache (c : Coherence) (line : Nat) : Coherence :=
  let os := (Tab.get {} c.dir line).others noAgent
  let c := os.foldl (fun c a => c.dropWay a line) c
  { c with dir := Tab.put {} c.dir line {}, grants := c.grants.filter fun g => decide (g.line ≠ line) }

/-- DELTA of a line: the first valid schedule entry that covers it (R108, R109). -/
def Coherence.delta (c : Coherence) (pa : Nat) : Nat :=
  match c.evict.find? fun p => bit p.2 48 && decide (bits p.1 16 32 ≤ pa / 65536 ∧ pa / 65536 ≤ bits p.2 16 32) with
  | some p => bits p.1 48 16
  | none => 0

/-- The retire phase of a fill (R108). -/
def retirePhase (phase : BitVec 32) (delta : Nat) : BitVec 32 :=
  if delta = 0xFFFF then 0xFFFFFFFF else BitVec.ofNat 32 (min (phase.toNat + delta) 0xFFFFFFFF)

/-- A request reaches the pseudo-channel of a line: it leaves self-refresh, and its idle count restarts (R115). -/
def State.useChannel (s : State) (line : Nat) : State :=
  let p := Config.channelOf line
  { s with links := { s.links with asleep := s.links.asleep.erase p, used := Tab.put 0 s.links.used p s.clocks.base } }

/-- A fill reads the stacks, and a modified victim is written to them (R108, R115). -/
def State.replaces (s : State) (old : CacheWay) (pa : Nat) : State :=
  (if old.v && old.dirty then s.useChannel old.line else s).useChannel (pa / 128)

/-- An access reaches a home slice in full service: a hit, or a fill that chooses its victim by retire phase (R108-R110). -/
def State.sliceTouch (s : State) (pa : Nat) (dirty : Bool) : State :=
  if s.host.phase ≠ 3 then s
  else
    let base := (homeSlice 3 pa * 32768 + pa / 2 ^ 17 % 32768) * 16
    let ws := (upto 16).map fun w => (base + w, Tab.get {} s.coh.msc (base + w))
    let new : CacheWay := ⟨true, pa / 128, retirePhase s.phase (s.coh.delta pa), dirty⟩
    let put := fun (k : Nat) (x : CacheWay) => { s with coh := { s.coh with msc := Tab.put {} s.coh.msc k x } }
    match ws.find? fun p => p.2.v && decide (p.2.line = pa / 128) with
    | some (k, x) => put k { x with dirty := x.dirty || dirty }
    | none =>
      match (ws.find? fun p => !p.2.v).orElse fun _ => ws.find? fun p => decide (p.2.retire ≤ s.phase) with
      | some (k, x) => (put k new).replaces x pa
      | none =>
        match sortBy (fun a b => decide (a.2.retire ≤ b.2.retire)) ws with
        | [] => s
        | (k, x) :: _ => (put k new).replaces x pa

/-- A line of main memory is in an engine's ownership set (R135). -/
def State.owned (s : State) (line : Nat) : Bool := s.engines.any fun p => p.2.queue.any fun c => c.lines.contains line

/-! ### Scopes and earlier accesses (R131, R132) -/

/-- A scope, seen from a core, covers a location (R131); task scope holds nothing back (R132). -/
def covers (phase scope core : Nat) (space : Space) (addr : Nat) : Bool :=
  match scope with
  | 0 => false
  | 1 | 2 | 3 | 4 => decide (space = .spm) && share scope core (addr / 65536)
  | 5 => if space = .spm then share 5 core (addr / 65536) else decide (homeDie phase addr = dieOf core)
  | _ => true

/-- The stores of a core that have not performed, oldest first. -/
def State.waiting (s : State) : List SbEntry :=
  (s.inbound.filter fun e => decide (e.core = s.core.num)) ++ s.core.sb

/-- The stores of the acting stream that have not performed. -/
def State.mine (s : State) : List SbEntry :=
  s.waiting.filter fun e => decide (e.uid = s.task.info.uid ∧ e.stream = s.actStream)

/-- The ids of the acting stream's reductions that the sluice engines have not performed, on words that a scope covers (R131, R149,
R250). -/
def State.reductionsIn (s : State) (scope : Nat) : List Nat :=
  s.dies.toList.zipIdx.flatMap fun p =>
    if decide (6 ≤ scope) || (decide (scope = 5) && decide (p.2 = s.die)) then
      (p.1.sluiceq.filter fun q => q.reduce && decide (q.who = s.self)).map (·.id)
    else []

/-- Some such reduction has not performed. -/
def State.myReductions (s : State) (scope : Nat) : Bool := !(s.reductionsIn scope).isEmpty

/-- The ids of the acting stream's accesses that have not performed. -/
def State.openIds (s : State) : List Nat := s.mine.map (·.id) ++ s.reductionsIn 7

/-- An earlier store of the stream to a location that the scope covers has not performed (R132, R137). -/
def State.heldIn (s : State) (scope : Nat) : Bool :=
  (s.mine.any fun e => covers s.host.phase scope s.core.num e.space e.addr) || s.myReductions scope

/-- A fence: the earlier accesses of the stream that its scope covers, loads alone for an acquire, hold its later loads, stores or both
back until they have performed (R132). -/
def State.pushFence (s : State) (acq loads stores : Bool) (scope : Nat) : State :=
  let old := s.mine.filter fun e => covers s.host.phase scope s.core.num e.space e.addr
  let ids := (if acq then [] else old.map (·.id)) ++ s.reductionsIn scope
  let live := fun (f : FenceRec) => f.ids.any s.openIds.contains
  s.modStrm fun x => { x with
    fences := (x.fences ++ [(⟨loads, stores, scope, ids⟩ : FenceRec)]).filter live
    early := x.early.filter fun e => !(loads && covers s.host.phase scope s.core.num e.space e.addr) }

/-- The ids of the accesses for which a fence of the stream holds a later access to a location (R132). -/
def State.fenced (s : State) (store : Bool) (space : Space) (addr : Nat) : List Nat :=
  s.strm.fences.flatMap fun f =>
    if (if store then f.stores else f.loads) && covers s.host.phase f.scope s.core.num space addr then f.ids else []

/-! ### Links (R360) -/

/-- The memory-side cache holds a line, so that no stack is read for it (R108, R304). -/
def State.sliceHit (s : State) (pa : Nat) : Bool :=
  decide (s.host.phase = 2) || (decide (s.host.phase = 3) &&
    (upto 16).any fun w =>
      let x := Tab.get {} s.coh.msc ((homeSlice 3 pa * 32768 + pa / 2 ^ 17 % 32768) * 16 + w)
      x.v && decide (x.line = pa / 128))

/-- A tile's L1 holds a line, exclusively where `own` is set: an access of the tile needs no link for it (R103). -/
def State.l1Hit (s : State) (tile line : Nat) (own : Bool) : Bool :=
  match s.coh.way tile line with
  | some (_, x) => !own || decide (x.st = .e) || decide (x.st = .m)
  | none => false

/-- The link that an access of a core to a physical address needs at the home and that is down (R360). -/
def State.linkDown (s : State) (core pa : Nat) : Option Nat :=
  if decide (dieOf core ≠ homeDie s.host.phase pa) && s.links.down.contains 0 then some 0
  else if s.sliceHit pa then none
  else if s.links.down.contains (1 + pa / (48 * 2 ^ 30)) then some (1 + pa / (48 * 2 ^ 30))
  else none

/-- The same for a core's access to a scratchpad: that of a core of the other die lies beyond the die-to-die link. -/
def State.linkAcross (s : State) (core owner : Nat) : Option Nat :=
  if decide (dieOf core ≠ dieOf owner) && s.links.down.contains 0 then some 0 else none

/-- The link that an access of a core to a place needs and that is down. -/
def State.linkCut (s : State) (core : Nat) (space : Space) (addr owner : Nat) : Option Nat :=
  match space with
  | .main => s.linkDown core addr
  | .spm => s.linkAcross core owner

/-- The atoms of a byte range. -/
def atomsOf (a n : Nat) : List Nat := (upto ((a + n - 1) / 32 - a / 32 + 1)).map (a / 32 + ·)

/-- The label of an atom as a load reads it: its handle in a labelled space, ALWAYS otherwise, NEVER in a unit that is not
live (R63, R68, R114). An atom of an enabled spillway has the handle that the side store holds, the bytes alone being open (DESIGN CHOICE, log 94:
R148 leaves open what a read there returns). -/
def State.atomLabel (s : State) (space : Space) (labelled : Bool) (a : Nat) : Handle :=
  match space with
  | .main => if Tab.get false s.mem.notLive (a * 32 / 65536) then never
             else if labelled then Tab.get always s.mem.mainSide a else always
  | .spm => if labelled then Tab.get always s.mem.spmSide a else always

/-- `n` bytes of a space. -/
def State.spaceBytes (s : State) (space : Space) (a n : Nat) : List Byte :=
  match space with
  | .main => s.mainBytes a n
  | .spm => Tab.range 0 s.mem.spm a n

/-! ### Pages of other packages (R119) -/

/-- The running task is idle: it can be shipped to the home package (R119). -/
def State.idle (s : State) : Bool :=
  let t := s.task
  decide (t.frame = 0) && !t.ac.active && t.queues.ldq.isEmpty && t.queues.stq.isEmpty && t.queues.bqa.isEmpty
    && t.queues.bqx.isEmpty && !t.wide && !s.core.regs.act && !s.inFlight s.core.num t.info.uid
    && !((Tab.get ({} : Group) s.groups (groupOf s.core.num)).arrivals.any fun a => decide (a.core = s.core.num ∧ a.uid = t.info.uid))
    && !(s.engines.any fun p => p.2.queue.any fun c => decide (c.who.core = s.core.num ∧ c.who.uid = t.info.uid))

/-- The wait for another package: an idle task asks to migrate first; once that has failed the access is served remotely
(R119, R355). -/
def State.farWait (s : State) (va home : Nat) : WaitKind :=
  match s.strm.wait with
  | some ⟨.remote v h, _⟩ => .remote v h
  | _ => if s.idle && s.strm.reply.isNone then .migrate va home else .remote va home

/-- The cycles beyond one that an access to another core's scratchpad takes: 3 within the group and 5 within the super-group; beyond it
the latency varies (R17). -/
def spmLag (core owner : Nat) : Nat :=
  if tileOf core = tileOf owner then 0 else if groupOf core = groupOf owner then 2 else if sgOf core = sgOf owner then 4 else 0

/-- The acting stream accesses a piece: it overtakes its early granules, and its step takes the fixed latency of the distance (R17, R129). -/
def State.accessed (s : State) (load : Bool) (l : Loc) : State :=
  let s := s.overtake load l.space l.addr l.len l.kind
  if l.space = .spm && decide (0 < spmLag s.core.num l.owner) then
    s.modStrm fun x => { x with lag := max x.lag (spmLag s.core.num l.owner) }
  else s

/-! ### Loads (R127, R240) -/

/-- A load of one granule from memory: poison and dead links trap, correctable errors are corrected; the bytes and the
labels of the atoms. -/
def State.readGranule (s : State) (l : Loc) (a n : Nat) : Except Stop (List Byte × List Handle × State) :=
  match (if l.space = .main && l.cache && s.l1Hit (tileOf s.core.num) (a / 128) false then none
         else s.linkCut s.core.num l.space a l.owner) with
  | some k => trap 0x34 (word (physReport l.space (a / 32))) 0x47 k
  | none =>
    let ats := atomsOf a n
    match ats.find? fun t => decide (s.ecc l.space t = 2) with
    | some t => trap 0x34 (word (physReport l.space t))
    | none =>
      let s := (ats.filter (s.mends l.space)).foldl (fun s t => s.correct l.space t) s
      let bs := s.spaceBytes l.space a n
      let ls := ats.map (s.atomLabel l.space l.labelled)
      let s := if l.space = .main then
          let s := { s with free := if s.inSpill 0 a || s.inSpill 1 a then s.free + 1 else s.free }
          let hit := l.cache && (s.coh.way (tileOf s.core.num) (a / 128)).isSome
          let s := if hit then s else s.sliceTouch a false
          if l.cache then { s with coh := s.coh.read (tileOf s.core.num) (a / 128) } else s
        else s
      .ok (bs, ls, s)

/-- The load step of one granule (R127): a store of the task that covers it gives bytes and label; any other unperformed
store of the core that overlaps holds it; otherwise memory. Fences (R132) and recall (R135) hold it as well, and a miss on a line for
which the home awaits acknowledgements, until it has granted (R105). -/
def State.loadGranule (s : State) (l : Loc) (a n : Nat) : Except Stop (List Byte × List Handle × State) :=
  let q := s.waiting.filter fun e => decide (e.space = l.space) && overlap e.addr e.bytes.length a n
  let fen := s.fenced false l.space a
  if l.space = .main && s.owned (a / 128) then wait .recall
  else if l.space = .main && l.cache && (s.coh.way (tileOf s.core.num) (a / 128)).isNone
      && s.coh.grants.any (fun g => decide (g.line = a / 128)) then wait .recall
  else if l.kind = 0 && s.myReductions 7 then wait .load
  else if fen.any s.openIds.contains then wait .load
  else match q.getLast? with
    | none => s.readGranule l a n
    | some e =>
      if s.core.sb.contains e && decide (e.uid = s.task.info.uid) && decide (e.addr ≤ a ∧ a + n ≤ e.addr + e.bytes.length)
      then .ok ((e.bytes.drop (a - e.addr)).take n, e.lbls, s)
      else wait .load

/-- What the acting stream's instruction has read early of a granule (R128, R129). -/
def State.earlyAt (s : State) (l : Loc) (a n : Nat) : Option Early :=
  s.strm.early.find? fun e => decide (e.pc = s.pc ∧ e.sub = s.subNo ∧ e.space = l.space ∧ e.addr = a ∧ e.bytes.length = n)

/-- The instruction takes a granule that it has read early: another of the same place and size has a record of its own. Its label is the one
that the nogoods of that step left (R127). -/
def State.takeEarly (s : State) (e : Early) : State :=
  s.modStrm fun x => { x with early := x.early.erase e, under := some (max e.seen (x.under.getD 0)) }

/-- The number of nogoods of the running task's frame (R72). -/
def State.nogoodCount (s : State) : Nat := (s.frameAt s.die s.task.frame).nogoods.length

/-- The instruction has read a granule now: its label takes the nogoods as they stand, whatever it has read early (R127). -/
def State.readNow (s : State) : State :=
  if s.strm.early = [] && s.strm.under.isNone then s else s.modStrm fun x => { x with under := some s.nogoodCount }

/-- The granules of one piece, in ascending order. -/
def State.loadGranules (s : State) (l : Loc) : List (Nat × Nat) → Except Stop (List Byte × List Handle × State)
  | [] => .ok ([], [], s)
  | (a, n) :: gs => do
    let (b, h, s) ← (match s.earlyAt l a n with
      | some e => .ok (e.bytes, e.lbls, s.takeEarly e)
      | none => (s.loadGranule l a n).map fun r => (r.1, r.2.1, r.2.2.readNow))
    let (b', h', s) ← s.loadGranules l gs
    .ok (b ++ b', h ++ h', s)

/-- The ids of the accesses for which a fence of system scope holds an access to a page of another package (R131, R132). -/
def State.farFenced (s : State) (store : Bool) : List Nat :=
  s.strm.fences.flatMap fun f => if (if store then f.stores else f.loads) && decide (7 ≤ f.scope) then f.ids else []

/-- The ids of the earlier stores that must perform before a store of the acting stream to a page of another package (R129, R132). -/
def State.farPreds (s : State) (kind : Nat) : List Nat :=
  ((s.mine.filter fun e => (decide (e.kind = 0) && decide (kind = 0)) || decide (kind = 1)).map (·.id)) ++ s.farFenced true
    ++ (if kind ≤ 1 then s.reductionsIn 7 else [])

/-- A load from a page of another package may not leave yet (R129, R132). -/
def State.farHeld (s : State) (l : Loc) : Bool :=
  (decide (l.kind = 0) && s.myReductions 7) || (s.farFenced false).any s.openIds.contains

/-- The pieces of an access, in ascending order; what another package serves waits for its answer, whose bytes are those
of the remote pieces in order, `used` of them taken (R119). A load from a page of another package is ordered as its kind says (R129,
R133). -/
def State.loadLocs (s : State) (used : Nat) : List Loc → Except Stop (List Byte × List Handle × State)
  | [] => .ok ([], [], s)
  | l :: ls => do
    let (b, h, s) ← (match l.remote with
      | none => (s.loadGranules l l.granules).map fun r => (r.1, r.2.1, r.2.2.accessed true l)
      | some home => match s.strm.reply with
        | some (.bytes bs) => .ok ((bs.drop used).take l.len, [], s.overtake true .main 0 0 l.kind)
        | _ => if s.farHeld l then wait .load else wait (s.farWait l.ea home))
    let (b', h', s) ← s.loadLocs (if l.remote.isSome then used + l.len else used) ls
    .ok (b ++ b', h ++ h', s)

/-- `n` bytes at `ea` with the labels of the atoms read (R240). -/
def State.load (s : State) (ea : Word) (n : Nat) : Except Stop (List Byte × List Handle × State) := do
  let ls ← s.resolve .load ea n
  s.loadLocs 0 ls

/-! ### Stores (R126, R242) -/

/-- The ids of the earlier stores that must perform before a store of the acting stream drains (R129, R132). -/
def State.preds (s : State) (space : Space) (addr n kind : Nat) : List Nat :=
  ((s.mine.filter fun e => (decide (e.space = space) && overlap e.addr e.bytes.length addr n) ||
    (decide (e.kind = 0) && decide (kind = 0)) || decide (kind = 1)).map (·.id)) ++ s.fenced true space addr
    ++ (if kind ≤ 1 then s.reductionsIn 7 else [])

/-- The entry of one granule of a store (R126). -/
def State.entry (s : State) (l : Loc) (a : Nat) (bs : List Byte) (lbls : List Handle) (prev : List Nat)
    (test : Option Nat) (ask : Option Asked := none) : SbEntry :=
  { id := s.nextId, core := s.core.num, uid := s.task.info.uid, stream := s.actStream, space := l.space, addr := a
    bytes := bs, lbls := lbls, frame := s.task.frame, ctx := s.task.ctx, kind := l.kind, labelled := l.labelled
    cache := l.cache, pre := prev ++ s.preds l.space a bs.length l.kind, test := test, ask := ask }

/-- The visibility test of a store to an unlabelled space: its own, or the one its instruction's stores share (R70, R277). -/
def State.testStore (s : State) (e : SbEntry) : Bool × State :=
  let now := s.visible (dieOf e.core) e.frame (s.rawProduct (dieOf e.core) e.frame e.lbls) e.ctx
  match e.test with
  | none => (now, s)
  | some k =>
    match Tab.get 0 s.tests k with
    | 1 => (true, s)
    | 2 => (false, s)
    | _ => (now, { s with tests := Tab.put 0 s.tests k (if now then 1 else 2) })

/-- Bytes written to a space. -/
def State.putSpace (s : State) (space : Space) (a : Nat) (bs : List Byte) : State :=
  match space with
  | .main => s.putMain a bs
  | .spm => { s with mem := { s.mem with spm := Tab.fill 0 s.mem.spm a bs } }

/-- The side handle of an atom replaced. -/
def State.putSide (s : State) (space : Space) (t : Nat) (h : Handle) : State :=
  match space with
  | .main => { s with mem := { s.mem with mainSide := Tab.put always s.mem.mainSide t h } }
  | .spm => { s with mem := { s.mem with spmSide := Tab.put always s.mem.spmSide t h } }

/-- The error mark of an atom cleared by a write of the whole atom (R353). -/
def State.clearEcc (s : State) (space : Space) (t : Nat) : State :=
  match space with
  | .main => { s with mem := { s.mem with mainEcc := Tab.put 0 s.mem.mainEcc t 0 } }
  | .spm => { s with mem := { s.mem with spmEcc := Tab.put 0 s.mem.spmEcc t 0 } }

/-- The part of bytes at `pa` that falls into atom `t`: its first address and its bytes. -/
def piece (pa : Nat) (bs : List Byte) (t : Nat) : Nat × List Byte :=
  let lo := max pa (t * 32)
  let hi := min (pa + bs.length) (t * 32 + 32)
  (lo, (bs.drop (lo - pa)).take (hi - lo))

/-- The part of a store that falls into atom `t`. -/
def SbEntry.part (e : SbEntry) (t : Nat) : Nat × List Byte := piece e.addr e.bytes t

/-- A part of an atom is written over what a read of the atom finds: one bit in error is corrected (R352). -/
def State.mendPart (s : State) (whole : Bool) (space : Space) (t : Nat) : State :=
  if !whole && s.mends space t then s.correct space t else s

/-- The label that a store gives an atom: the one it was issued with for a whole atom, the Product with the atom's for a part (R69,
R126). It is formed in the table of the sender's die and frame, also for a scratchpad of the other die (DESIGN CHOICE, log 95: R69 and R98 do
not say in whose table). -/
def State.storeLabel (s : State) (e : SbEntry) (whole : Bool) (old : Handle) : Except LabErr (Handle × State) :=
  match whole, e.lbls with
  | true, [h] => .ok (h, s)
  | true, hs => s.product (dieOf e.core) e.frame true hs
  | false, hs => (s.readRecords (dieOf e.core) e.frame (old :: hs)).product (dieOf e.core) e.frame true (old :: hs)

/-- A store writes one atom of a labelled space under R69; a table found full leaves the atom and sets SUPP (R341). A part
of a poisoned atom is not written (R353). -/
def State.writeLabelled (s : State) (e : SbEntry) (t : Nat) : State :=
  let (a, bs) := e.part t
  let whole := decide (bs.length = 32)
  if !whole && decide (s.ecc e.space t = 2) then s
  else
    let s := s.mendPart whole e.space t
    let s0 := if e.space = .main then s.wakeUnit (t * 32 / 65536) else s
    match s0.storeLabel e whole (s0.atomLabel e.space true t) with
    | .error _ => s.suppress e.core e.uid
    | .ok (h, s1) =>
      let s1 := (s1.putSpace e.space a bs).putSide e.space t h
      if whole then s1.clearEcc e.space t else s1

/-- A store writes one atom of an unlabelled space; the atom's handle is 0x0000 (R63, R70). -/
def State.writePlainAtom (s : State) (e : SbEntry) (t : Nat) : State :=
  let (a, bs) := e.part t
  let whole := decide (bs.length = 32)
  if !whole && decide (s.ecc e.space t = 2) then s
  else
    let s := ((s.mendPart whole e.space t).putSpace e.space a bs).putSide e.space t always
    if whole then s.clearEcc e.space t else s

/-- The right that an answered access needs at another core's scratchpad (R100, R102). -/
def Asked.right (a : Asked) : Acc :=
  match a.want with
  | .handler _ _ => .handler
  | .amo _ _ _ _ _ _ => .atomic
  | .store => .store

/-- The right that an entry needs there. -/
def SbEntry.right (e : SbEntry) : Acc := (e.ask.map Asked.right).getD .store

/-- A window refuses a store as it performs: a negative acknowledgement (R100, R126). -/
def State.refusesStore (s : State) (e : SbEntry) : Bool :=
  decide (e.space = .spm) && decide (e.addr / 65536 ≠ e.core) &&
    (s.windowRefusal (e.addr / 65536) (e.addr % 65536 / 32) ((e.addr % 65536 + e.bytes.length - 1) / 32) e.right (some e.core)).isSome

/-- The perform step of a store (R69, R70, R126, R139). SPFRAME of the owner decides how scratchpad is labelled as it
stands then (R98). -/
def State.applyStore (s : State) (e : SbEntry) : State :=
  let labelled := if e.space = .spm then (s.coreAt (e.addr / 65536)).regs.lab else e.labelled
  let ats := atomsOf e.addr e.bytes.length
  match (if e.space = .main && e.cache && s.l1Hit (tileOf e.core) (e.addr / 128) true then none
         else s.linkCut e.core e.space e.addr (e.addr / 65536)) with
  | some k =>
    s.record { source := 0, core := e.core, die := dieOf e.core, frame := e.frame, launch := s.launchOf e.core e.uid }
      { cause := 0x47, val := word k, d5 := word (if e.space = .main then e.addr else 0x10000000 + e.addr) }
  | none =>
    let s := if e.space = .main then s.sliceTouch e.addr true else s
    if s.refusesStore e then s
    else if labelled then ats.foldl (fun s t => s.writeLabelled e t) s
    else
      let (v, s) := (s.readRecords (dieOf e.core) e.frame e.lbls).testStore e
      if v then ats.foldl (fun s t => s.writePlainAtom e t) s else s.suppress e.core e.uid

/-- The entries of the granules of one store are issued; each later one follows the one before it (R128). -/
def State.issueGranules (s : State) (l : Loc) (bs : List Byte) (lbls : List Handle) (test : Option Nat) (ask : Option Asked)
    (prev : List Nat) : List (Nat × Nat) → State
  | [] => s
  | (a, n) :: gs =>
    let e := s.entry l a (bs.take n) lbls prev test ask
    State.issueGranules { s with nextId := s.nextId + 1, core := { s.core with sb := s.core.sb ++ [e] } }
      l (bs.drop n) lbls test ask [e.id] gs

/-- The granules of a store to another core's scratchpad perform in the instruction's own step, in ascending order. -/
def State.performGranules (s : State) (l : Loc) (bs : List Byte) (lbls : List Handle) (test : Option Nat) :
    List (Nat × Nat) → State
  | [] => s
  | (a, n) :: gs => (s.applyStore (s.entry l a (bs.take n) lbls [] test)).performGranules l (bs.drop n) lbls test gs

/-- What still holds a store that is to perform in the instruction's own step: an unperformed store of the core that
overlaps it, one of the stream that must come first, or an ownership set (R126, R129, R132, R135). -/
def State.holds (s : State) (l : Loc) : Option WaitKind :=
  if s.waiting.any (fun x => decide (x.space = l.space) && overlap x.addr x.bytes.length l.addr l.len) then some .accesses
  else if (s.preds l.space l.addr l.len l.kind).any s.openIds.contains then some .accesses
  else if l.space = .main && l.granules.any (fun g => s.owned (g.1 / 128)) then some .recall
  else none

/-- The access names another core's scratchpad (R351). -/
def State.foreign (s : State) (l : Loc) : Bool := decide (l.space = .spm) && decide (l.owner ≠ s.core.num)

/-- The trap of an access that does not retire before another core's scratchpad answers, where the link to it is down (R351, R360;
log 66). -/
def State.cutOff (s : State) (l : Loc) : Option Trap :=
  if l.space = .spm then
    (s.linkAcross s.core.num l.owner).map fun k => { cause := 0x34, val := word (physReport .spm (l.addr / 32)), d5 := 0x47, d6 := word k }
  else none

/-- A store of some bytes to one checked piece (R126, R242): issued to the store buffer, behind the entries `prev` of the same access, or
for another core's scratchpad performed in this step when `now`; one to another package leaves once what must come before it has performed,
is tested (R70) and waits for its answer (R119, R129). -/
def State.storeLoc (s : State) (now : Bool) (l : Loc) (bs : List Byte) (hs : List Handle) (test : Option Nat) (prev : List Nat) :
    Except Stop State := do
  let (lbls, s) ← (if l.labelled then do
      let (h, s) ← s.prod (hs ++ [s.dep])
      .ok ([h], s)
    else do
      let s ← s.records (hs ++ [s.dep])
      .ok ((hs ++ [s.dep]).filter fun h => decide (h ≠ always), s))
  match l.remote with
  | some home =>
    match s.strm.reply with
    | some (.bytes _) => .ok s
    | _ =>
      if (s.farPreds l.kind).any s.openIds.contains then wait .accesses
      else if s.strm.shared.getD (s.sees hs) then wait (s.farWait l.ea home)
      else .ok s.supp
  | none =>
    let s := s.accessed false l
    if now && s.foreign l then .ok (s.performGranules l bs lbls test l.granules)
    else .ok (s.issueGranules l bs lbls test none prev l.granules)

/-- A store of some bytes to the pieces of an access, in ascending order (R128). -/
def State.storeLocs (s : State) (now : Bool) (bs : List Byte) (hs : List Handle) (test : Option Nat) (prev : List Nat) :
    List Loc → Except Stop State
  | [] => .ok s
  | l :: ls => do
    let s' ← s.storeLoc now l (bs.take l.len) hs test prev
    s'.storeLocs now (bs.drop l.len) hs test (if s'.nextId = s.nextId then prev else [s'.nextId - 1]) ls

/-- The stores of an instruction, in ascending order of its elements (R269, R277). -/
def State.storeElems (s : State) (now : Bool) (hs : List Handle) (test : Option Nat) : List (List Byte × List Loc) → Except Stop State
  | [] => .ok s
  | (b, ls) :: rest => do
    let s ← s.storeLocs now b hs test [] ls
    s.storeElems now hs test rest

/-! ### Accesses that do not retire before their answer (R351) -/

/-- An instruction whose accesses are under way goes on with their answer; any other begins. -/
def State.asked {α : Type} (s : State) (done : Word → Handle → State → Except Stop α) (b : State → Except Stop α) : Except Stop α :=
  if s.strm.asks then match s.strm.reply with
    | some (.value v h d) => done v h (s.takeDep d)
    | _ => wait .accesses
  else b s

/-- What an access to a piece carries; `acc` is the id of its first entry. -/
def Loc.asks (l : Loc) (want : Want) (fold : List Handle) (forms : Bool) (acc : Nat) : Asked :=
  { want := want, fold := fold, forms := forms, ea := word l.ea
    first := l.addr % 65536 / 32, last := (l.addr % 65536 + l.len - 1) / 32, acc := acc, admitted := false }

/-- The store of some bytes to the pieces of an access is issued to the store buffer, to be answered; `h` is its label where one has been
formed. -/
def State.askLocs (s : State) (fold : List Handle) (forms : Bool) (bs : List Byte) (h : Handle) (lbls : List Handle) (test : Option Nat)
    (prev : List Nat) : List Loc → State
  | [] => s
  | l :: ls =>
    let s' := (s.accessed false l).issueGranules l (bs.take l.len) (if forms || l.labelled then [h] else lbls) test
      (some (l.asks .store fold forms s.nextId)) prev l.granules
    s'.askLocs fold forms (bs.drop l.len) h lbls test (if s'.nextId = s.nextId then prev else [s'.nextId - 1]) ls

/-- The stores of an instruction are issued, to be answered. Where some of the bytes go to a labelled space, or the instruction's label is its
result's, the label is formed at this step; a failure of it, or of DEP's label, is the instruction's trap, before anything is written (R126,
R341). DEP takes the address's labels with the answer. -/
def State.askStores (s : State) (fold : List Handle) (forms : Bool) (hs : List Handle) (plan : List (List Byte × List Loc)) :
    Except Stop State := do
  let all := hs ++ s.dep :: fold
  let _ ← s.fold fold
  let (h, s) ← (if forms || plan.any fun p => p.2.any (·.labelled) then s.prod all else .ok (always, s))
  let test := if forms then some s.nextId else none
  let s := if forms then { s with nextId := s.nextId + 1 } else s
  .ok ((plan.foldl (fun s p => s.askLocs fold forms p.1 h (all.filter fun h => decide (h ≠ always)) test [] p.2) s).modStrm
    fun x => { x with asks := true })

/-- The one visibility test of stores of which some go to another package: it is made as those leave, which perform first, and stays with the
stream until they are answered (R277). -/
def State.shareTest (s : State) (hs : List Handle) (plan : List (List Byte × List Loc)) : Except Stop State :=
  match (plan.flatMap (·.2)).find? fun l => l.remote.isSome with
  | none => .ok s
  | some l =>
    let seen := s.strm.shared.getD (s.sees hs)
    let sent := match s.strm.reply with
      | some (.bytes _) => true
      | _ => false
    if seen && !sent && !(s.farPreds l.kind).any s.openIds.contains then
      waitAs (s.farWait l.ea (l.remote.getD 0)) (s.modStrm fun x => { x with shared := some true })
    else if seen && !sent then wait .accesses
    else .ok { s with tests := Tab.put 0 s.tests s.nextId (if seen then 1 else 2) }

/-- The stores of an instruction, checked (R126, R242, R351): those to own scratchpad and to memory are issued to the store buffer; those to
another core's scratchpad perform in this step once nothing holds them, or they are issued and the instruction waits for the answers
where the schedule says so or they stand among others. `forms` holds for the stores that share one label and one test (R277). The label
and the state. -/
def State.stores (s : State) (fold : List Handle) (forms : Bool) (hs : List Handle) (plan : List (List Byte × List Loc)) :
    Except Stop (Handle × State) := do
  let ls := plan.flatMap (·.2)
  let now := ls.any s.foreign
  if now then
    match ls.findSome? s.cutOff with
    | some t => .error (.trap t)
    | none =>
      if (s.defer || !ls.all s.foreign) && !ls.any fun l => l.remote.isSome then do
        let s ← s.askStores fold forms hs plan
        waitAs .accesses s
      else match ls.findSome? s.holds with
        | some k => wait k
        | none => .ok ()
  let s ← s.fold fold
  if forms then
    let (l, s) ← s.prod (hs ++ [s.dep])
    let s ← s.shareTest [l] plan
    let s ← ({ s with nextId := s.nextId + 1 }).storeElems now [l] (some s.nextId) plan
    .ok (l, s)
  else
    let s ← s.storeElems now hs none plan
    .ok (always, s)

/-! ### Drain and perform (R126, R129) -/

/-- An entry's home: its slice or its owning core (R124). -/
def SbEntry.home (phase : Nat) (e : SbEntry) : Space × Nat :=
  (e.space, match e.space with | .main => homeSlice phase e.addr | .spm => e.addr / 65536)

/-- An access that must perform before an entry has not (R129, R132). -/
def State.held (s : State) (e : SbEntry) : Bool :=
  (s.coreAt e.core).sb.any (fun x => e.pre.contains x.id)
    || s.inbound.any (fun x => decide (x.core = e.core) && e.pre.contains x.id)
    || s.dies.toList.any (fun d => d.sluiceq.any fun q => q.reduce && e.pre.contains q.id)

/-- Entry `i` of core `c`'s store buffer moves into its home's inbound queue, unless an entry that must perform first has
not, or an earlier entry of the buffer overlaps it (R126, R129). -/
def State.drain (s : State) (c i : Nat) : State :=
  let k := s.coreAt c
  match k.sb[i]? with
  | none => s
  | some e =>
    if s.held e || (k.sb.take i).any (fun x => decide (x.space = e.space) && overlap x.addr x.bytes.length e.addr e.bytes.length)
    then s
    else
      let s := s.modCore c fun k => { k with sb := dropAt k.sb i }
      { s with inbound := s.inbound ++ [e] }

/-- The bank of an atom's tile that holds a scratchpad byte (R97). -/
def bankOf (a : Nat) : Nat := tileOf (a / 65536) * 16 + a / 32 % 16

/-- A bank of core `owner`'s tile has granted an access in this cycle. -/
def State.bankTaken (s : State) (owner bank : Nat) : Bool := decide ((Tab.get (0, 0) s.banks bank).1 = s.cycleAt owner + 1)

/-- Core `c` wins a bank of core `owner`'s tile in this cycle. -/
def State.grantBank (s : State) (c owner bank : Nat) : State :=
  { s with banks := Tab.put (0, 0) s.banks bank (s.cycleAt owner + 1, c) }

/-- Where a core stands in the order in which a bank grants contending accesses: round-robin from the core after the last winner (R97; before a
first grant from core 0, DESIGN CHOICE, log 82). -/
def State.bankRank (s : State) (bank c : Nat) : Nat :=
  let g := Tab.get (0, 0) s.banks bank
  if g.1 = 0 then c else (c + 0x2000 - (g.2 + 1)) % 0x2000

/-- An earlier entry of the same queue stands before an entry: all do, but one that an older entry of its stream holds back lets that
entry pass (R126, R140: a `ring.alight` puts its store into the queue as the slot passes). -/
def SbEntry.heads (s : State) (x e : SbEntry) : Bool :=
  decide (x.home s.host.phase = e.home s.host.phase ∧ x.core = e.core) && !(s.held x && decide (e.id < x.id))

/-- Another core's entry that heads its queue and that nothing holds comes before an entry at their scratchpad bank (R97). -/
def State.bankRival (s : State) (e : SbEntry) : Bool :=
  s.inbound.zipIdx.any fun p =>
    decide (p.1.space = .spm ∧ bankOf p.1.addr = bankOf e.addr ∧ s.bankRank (bankOf e.addr) p.1.core < s.bankRank (bankOf e.addr) e.core)
      && !s.held p.1 && !(s.inbound.take p.2).any fun x => x.heads s p.1

/-- Element `i` of the inbound queues performs, as `f` says, if it heads its queue and nothing holds it: first the invalidations of its
line's other holders are sent, and once they are acknowledged the entry performs (R105, R125, R126, R135); at a scratchpad bank it is the
one access of this cycle, granted in the bank's order (R97). -/
def State.performBy (s : State) (i : Nat) (f : State → SbEntry → State) : State :=
  match s.inbound[i]? with
  | none => s
  | some e =>
    let line := e.addr / 128
    let tile := tileOf e.core
    let cut := (s.linkDown e.core e.addr).isSome && !s.l1Hit tile line true
    if s.held e || (s.inbound.take i).any (fun x => x.heads s e) then s
    else if e.space = .spm && (s.bankTaken (e.addr / 65536) (bankOf e.addr) || s.bankRival e) then s
    else if e.space = .main && s.owned line then s
    else if e.space = .main && e.cache && s.coh.grants.any (fun g => decide (g.line = line)) then s
    else if e.space = .main && e.cache && !cut && decide ((Tab.get {} s.coh.dir line).others tile ≠ []) then
      { s with coh := s.coh.invalidate line tile }
    else
      let s := { s with inbound := dropAt s.inbound i }
      let s := if e.space = .main && e.cache && !cut then
          { s with coh := (s.coh.grant line tile).fillWay tile line .m } else s
      let s := if e.space = .spm then
          s.grantBank e.core (e.addr / 65536) (bankOf e.addr) else s
      f s e

/-- A write at the home of its lines by a party that is not a coherence agent: every holder goes first, each atom gets
handle 0x0000, a part is written over what a read of its atom finds, and a part of a poisoned atom is not written (R47, R107, R352, R353,
R384). -/
def State.homeWrite (s : State) (pa : Nat) (bs : List Byte) : State :=
  (atomsOf pa bs.length).foldl (fun s t =>
    let (a, b) := piece pa bs t
    let s := { s with coh := s.coh.uncache (a / 128) }
    let whole := decide (b.length = 32)
    if !whole && decide (s.ecc .main t = 2) then s else ((s.mendPart whole .main t).sliceTouch a true).putPlain a b) s

/-! ### Other parties' address translation (R45, R298, R319) -/

/-- The data dword by which a party translates a virtual address. -/
abbrev Xlate := Nat → Option Word

/-- The physical address of a byte of global memory that the own device holds with the right wanted, and whether the page is
labelled; nothing where the translation, the right, the format or the home fails. -/
def State.place (s : State) (x : Xlate) (write : Bool) (va : Nat) : Option (Nat × Bool) :=
  match (if vspace va = .global then x va else none) with
  | none => none
  | some d =>
    if !badFormat d && (if write then bit d 2 else bit d 1) && decide (bits d 44 20 = s.host.devnum.toNat)
        && s.paOk (physOf d va) then some (physOf d va, bit d 7)
    else none

/-- `n` bytes at a virtual address. -/
def State.vaBytes (s : State) (x : Xlate) (va n : Nat) : Option (List Byte) :=
  (upto n).mapM fun i => (s.place x false (va + i)).map fun p => s.mainByte p.1

/-- The table walks for `n` bytes at a virtual address by a party that translates by the entries of `hit`, or by the table behind them (R118,
R352). -/
def State.walksVa (s : State) (hit : Xlate) (base : Word) (va n : Nat) : State :=
  (granules 65536 (n / 65536 + 2) va n).foldl (fun s p => if (hit p.1).isSome then s else s.walked base p.1) s

/-- The reads of `n` bytes there: atoms of the walks and of the bytes that have one bit in error are corrected (R352). -/
def State.mendVa (s : State) (x hit : Xlate) (base : Word) (va n : Nat) : State :=
  let ps := granules 65536 (n / 65536 + 2) va n
  let s := s.walksVa hit base va n
  s.mendAtoms .main (ps.flatMap fun p => match s.place x false p.1 with
    | some (pa, _) => atomsOf pa p.2
    | none => [])

/-- The acting core's translation: its tile's TLB, or the table behind it (R117, R118). -/
def State.tileXlate (s : State) : Xlate := fun va =>
  match s.tlbFind (tileOf s.core.num) va with
  | some d => some d
  | none => (s.walk (s.tableOf s.core.num) va).toOption

end Sys2Proof.Machine
end

