-- ==== Sys2Proof/Machine/Operands.lean ====
section
/-!
DEFINITION. Operand forms: immediates and code targets (R199), the checks that come before an instruction's operands
(R31, R363, R364), vector, mask and tile operands (R63, R80, R264, R265), and tensor-map operands (R121, R122).
-/

namespace Sys2Proof.Machine

/-! ### Immediates and code targets -/

/-- A signed immediate as a dword (R199). -/
def simm {n : Nat} (i : BitVec n) : Word := i.signExtend 64

/-- The dword of a register number or count. -/
def uimm {n : Nat} (i : BitVec n) : Word := i.setWidth 64

/-- The register field one past another's by `k`, wrapping past 31. -/
def regOff (r : BitVec 5) (k : Nat) : BitVec 5 := r + BitVec.ofNat 5 k

/-- x8 to x15 from a 3-bit code (R200). -/
def creg (c : BitVec 3) : BitVec 5 := BitVec.ofNat 5 (8 + c.toNat)

/-- A code target counted in halfwords from P (R199). -/
def State.codeTarget {n : Nat} (s : State) (o : BitVec n) : Int := s.pc + 2 * o.toInt

/-- A target lies in the instruction store (R195). -/
def inStore (t : Int) : Bool := decide (0 ≤ t) && decide (t ≤ 0xFFFE)

/-- An effective address: base and signed offset (R240). -/
def State.ea {n : Nat} (s : State) (r : BitVec 5) (i : BitVec n) : Word := s.xv r + simm i

/-! ### Checks before the operands -/

/-- The executing task runs carried code (R31). -/
def State.carried (s : State) : Bool := s.task.info.carried.isSome

/-- A form that carried code may not use (R31). -/
def State.noCarried (s : State) : Except Stop Unit := if s.carried then trap 0x03 0 else .ok ()

/-- A backward target in carried code, offset 0 included (R31, R206). -/
def State.forward {n : Nat} (s : State) (o : BitVec n) : Except Stop Unit :=
  if s.carried && decide (o.toInt ≤ 0) then trap 0x03 0 else .ok ()

/-- A form of the execute stream alone (R364). -/
def State.execOnly (s : State) : Except Stop Unit := if s.actStream = 0 then .ok () else trap 0x1D 0

/-- A privileged form (R207). -/
def State.privileged (s : State) : Except Stop Unit := if s.task.priv then .ok () else trap 0x04 0

/-- An alignment that the form requires (R349, step 1). -/
def aligned (a : Word) (n : Nat) : Except Stop Unit := if a.toNat % n = 0 then .ok () else trap 0x05 a 0 n

/-- The address names scratchpad, own or package (R95). -/
def inScratch (a : Word) : Bool :=
  match vspace a.toNat with
  | .own | .pkg _ => true
  | _ => false

/-- A load or store of carried code outside scratchpad (R31, R206). -/
def State.carriedAddr (s : State) (a : Word) : Except Stop Unit :=
  if s.carried && !inScratch a then trap 0x03 0 else .ok ()

/-! ### Vector, mask and accumulator operands -/

/-- v[r] (R200); a field above 15 names no register and its form is illegal. -/
def State.v (s : State) (r : BitVec 5) : VReg := s.task.regs.v.getD r.toNat {}

/-- v[r] replaced. -/
def State.putV (s : State) (r : BitVec 5) (x : VReg) : State :=
  s.modTask fun t => { t with regs := { t.regs with v := t.regs.v.setIfInBounds r.toNat x }, wide := true }

/-- k[r]; k0 reads as all ones with label ALWAYS (R264). -/
def State.kreg (s : State) (r : BitVec 2) : XReg :=
  if r = 0 then { val := BitVec.allOnes 64 } else s.task.regs.k.getD r.toNat {}

/-- k[r] replaced; k0 is no destination. -/
def State.putK (s : State) (r : BitVec 2) (x : XReg) : State :=
  if r = 0 then s
  else s.modTask fun t => { t with regs := { t.regs with k := t.regs.k.setIfInBounds r.toNat x }, wide := true }

/-- e[r] (R88). -/
def State.ereg (s : State) (r : BitVec 2) : EReg := s.task.regs.e.getD r.toNat {}

/-- e[r] replaced. -/
def State.putE (s : State) (r : BitVec 2) (x : EReg) : State :=
  s.modTask fun t => { t with regs := { t.regs with e := t.regs.e.setIfInBounds r.toNat x }, wide := true }

/-- m[r]; m0 names no map (R89). -/
def State.mreg (s : State) (r : BitVec 3) : MReg := if r = 0 then {} else s.task.regs.m.getD r.toNat {}

/-- m[r] replaced. -/
def State.putM (s : State) (r : BitVec 3) (x : MReg) : State :=
  s.modTask fun t => { t with regs := { t.regs with m := t.regs.m.setIfInBounds r.toNat x } }

/-- acc[n] (R286). -/
def State.acc (s : State) (n : BitVec 2) : AccReg := s.task.regs.acc.getD n.toNat {}

/-- acc[n] replaced. -/
def State.putAcc (s : State) (n : BitVec 2) (x : AccReg) : State :=
  s.modTask fun t => { t with regs := { t.regs with acc := t.regs.acc.setIfInBounds n.toNat x }, wide := true }

/-- The label of a mask operand (R264). -/
def State.kl (s : State) (k : BitVec 2) : Handle := (s.kreg k).lbl

/-- Lane `i` is enabled under mask `k` (R264). -/
def State.enabled (s : State) (k : BitVec 2) (i : Nat) : Bool := bit (s.kreg k).val i

/-- The lanes below `n` that mask `k` enables. -/
def State.lanesOn (s : State) (k : BitVec 2) (n : Nat) : List Nat := (upto n).filter (s.enabled k)

/-- The lanes of width `w` of a register (R80). -/
def lanes (w : Nat) (v : Lanes) : List Nat := unpack w (512 / w) v.toNat

/-- A register from its lanes (R80). -/
def ofLanes (w : Nat) (l : List Nat) : Lanes := BitVec.ofNat 512 (pack w l)

/-- The width of an element code (R264). -/
def eltBits (e : BitVec 2) : Nat := match e.toNat with | 0 => 32 | 1 => 16 | 2 => 8 | _ => 64

end Sys2Proof.Machine
end

