-- ==== Sys2Proof/Machine/Flags.lean ====
section
/-!
DEFINITION. Status and state registers as the dwords software sees: their layouts, their read values and what a write
changes (R4, R28, R32, R55, R65, R88, R98, R99, R156, R160, R230-R234, R327).
-/

namespace Sys2Proof.Machine

/-- The group numbered `g`. -/
def State.groupAt (s : State) (g : Nat) : Group := Tab.get {} s.groups g

/-- A change of one group. -/
def State.modGroup (s : State) (g : Nat) (f : Group → Group) : State :=
  { s with groups := Tab.put {} s.groups g (f (s.groupAt g)) }

/-- Plane `p` of group `g`. -/
def State.planeAt (s : State) (g p : Nat) : Plane := Tab.get {} (s.groupAt g).planes p

/-- A plane replaced. -/
def State.putPlane (s : State) (g p : Nat) (x : Plane) : State :=
  s.modGroup g fun k => { k with planes := Tab.put {} k.planes p x }

/-- PSTAT of a plane (R156). -/
def Plane.status (p : Plane) : Word :=
  word ((if p.v then 2 ^ 63 else 0) + (if p.mgd then 2 ^ 62 else 0) + p.fmt.toNat * 2 ^ 59 + p.sr.toNat * 2 ^ 57
    + p.hot % 512 * 2 ^ 48 + p.auto.toNat * 2 ^ 32 + p.frame.toNat * 2 ^ 24 + p.lbl.toNat)

/-- ASTAT of a tile (R160). -/
def AccReg.status (a : AccReg) : Word :=
  word ((if a.inv then 128 else 0) + (if a.busy then 64 else 0) + (if a.sat then 32 else 0))

/-- The frame descriptor's first dword (R55). -/
def Frame.descriptor (f : Frame) : Word :=
  word ((if f.v then 2 ^ 63 else 0) + (if f.policy then 2 ^ 62 else 0) + (if f.metered then 2 ^ 61 else 0)
    + f.tbase.toNat * 2 ^ 16 + f.cap.toNat)

/-- The status dword of a residue register (R88). -/
def EReg.status (e : EReg) : Word :=
  word (e.satc.toNat * 2 ^ 48 + (if e.nan then 2 ^ 47 else 0) + (if e.badsc then 2 ^ 46 else 0)
    + (if e.axis then 2 ^ 45 else 0) + e.pos % 512 * 2 ^ 32 + e.scale.toNat % 2 ^ 32)

/-- TRAPCAUSE (R327). -/
def CoreRegs.causeWord (k : CoreRegs) : Word :=
  word ((if k.act then 2 ^ 17 else 0) + (if k.trapStream then 2 ^ 16 else 0) + k.cause.toNat)

/-- RQLIM (R32). -/
def CoreRegs.rqlim (k : CoreRegs) : Word := word (k.c0r.toNat * 256 + k.limit)

/-- SPFRAME (R98). -/
def CoreRegs.spframe (k : CoreRegs) : Word := word ((if k.lab then 256 else 0) + k.frm.toNat)

/-- Dword 0 of a routine-table entry (R28). -/
def Routine.word0 (r : Routine) : Word :=
  word ((if r.v then 2 ^ 63 else 0) + r.entry.toNat * 2 ^ 48 + r.frame.toNat * 2 ^ 40 + (if r.attested then 2 ^ 39 else 0))

/-- TASK as the acting stream reads it (R231). -/
def State.taskWord (s : State) : Word :=
  word ((if s.task.priv then 512 else 0) + (if s.actStream = 0 then 0 else 256) + s.task.info.slot)

/-- The entries of the four queues, a byte each in R200's order (R331). -/
def Queues.counts (q : Queues) : Word :=
  word (q.ldq.length + q.stq.length * 2 ^ 8 + q.bqa.length * 2 ^ 16 + q.bqx.length * 2 ^ 24)

/-- Some queue holds an entry. -/
def Queues.some (q : Queues) : Bool := !(q.ldq.isEmpty && q.stq.isEmpty && q.bqa.isEmpty && q.bqx.isEmpty)

/-- What `srd` of a state register reads (R230). -/
def State.readReg (s : State) (r : Nat) : Word :=
  let t := s.task
  let k := s.core.regs
  match r with
  | 0x000 => t.ctx
  | 0x001 => s.strm.dep.setWidth 64
  | 0x002 => t.frame.setWidth 64
  | 0x003 => s.taskWord
  | 0x004 => t.msg
  | 0x005 => t.prio.setWidth 64
  | 0x006 => k.rqlim
  | 0x007 => flag t.supp
  | 0x008 => word (k.trapPc.toNat / 2 * 2)
  | 0x009 => k.causeWord
  | 0x00A => k.trapVal
  | 0x00B => word (k.tvec.toNat / 2 * 2)
  | 0x00C => word s.cycle
  | 0x00D => s.phase.setWidth 64
  | 0x00E => (s.frameAt s.die t.frame).status
  | 0x00F => word s.core.num
  | 0x020 => t.loops.lb0.setWidth 64
  | 0x021 => t.loops.le0.setWidth 64
  | 0x022 => t.loops.lc0
  | 0x023 => t.loops.lb1.setWidth 64
  | 0x024 => t.loops.le1.setWidth 64
  | 0x025 => t.loops.lc1
  | 0x030 => word t.spCount
  | 0x040 | 0x041 | 0x042 | 0x043 => k.win.getD (r - 0x040) 0
  | 0x044 => k.spframe
  | 0x048 | 0x049 | 0x04A | 0x04B => (s.acc (BitVec.ofNat 2 (r - 0x048))).status
  | _ =>
    if 0x050 ≤ r ∧ r ≤ 0x057 then (s.planeAt (groupOf s.core.num) (r - 0x050)).status
    else if 0x102 ≤ r ∧ r ≤ 0x17F then
      let e := Tab.get {} k.rout ((r - 0x100) / 2)
      if r % 2 = 0 then e.word0 else e.ctx
    else 0

/-- The writable bits of a window register (R99). -/
def winMask : Word := 0x87F00000003FFFFF

/-- LIMIT as a write of RQLIM leaves it (R32). -/
def limitOf (v : Word) : Nat := if bits v 0 5 = 0 then 1 else min (bits v 0 5) 16

/-- A change of the acting core's state registers. -/
def State.modRegs (s : State) (f : CoreRegs → CoreRegs) : State := { s with core := { s.core with regs := f s.core.regs } }

/-- A change of the running task's loop registers. -/
def State.modLoops (s : State) (f : Loops → Loops) : State := s.modTask fun t => { t with loops := f t.loops }

/-- Bits [15:1] of a dword, as an even offset. -/
def evenOff (v : Word) : BitVec 16 := BitVec.ofNat 16 (bits v 1 15 * 2)

/-- A routine-table write by `swr`: dword 0 leaves ATTESTED clear (R28, R319). -/
def Routine.write (e : Routine) (hi : Bool) (v : Word) : Routine :=
  if hi then { e with ctx := v }
  else { e with v := bit v 63, entry := BitVec.ofNat 15 (bits v 48 15), frame := BitVec.ofNat 8 (bits v 40 8), attested := false }

/-- A write of RQLIM, a window or SPFRAME (R32, R98, R99). -/
def CoreRegs.write (k : CoreRegs) (r : Nat) (v : Word) : CoreRegs :=
  if r = 0x006 then { k with c0r := BitVec.ofNat 6 (bits v 8 6), limit := limitOf v }
  else if r = 0x044 then { k with lab := bit v 8, frm := BitVec.ofNat 8 (bits v 0 8) }
  else { k with win := k.win.setIfInBounds (r - 0x040) (v &&& winMask) }

/-- The writes of a cycle land at its end (R35, R101, R130). -/
def CoreRegs.land (k : CoreRegs) : CoreRegs := { k.late.foldl (fun k p => k.write p.1 p.2) k with late := [] }

/-- A write of a state register other than DEP, CTX and TRAPCAUSE (R4, R230). A register shown RO keeps its value. -/
def State.writeReg (s : State) (r : Nat) (v : Word) : State :=
  match r with
  | 0x006 => s.modRegs fun k => k.write 0x006 v
  | 0x007 => if bit v 0 then s.modTask fun t => { t with supp := false } else s
  | 0x008 => s.modRegs fun k => { k with trapPc := evenOff v }
  | 0x00A => s
  | 0x00B => s.modRegs fun k => { k with tvec := evenOff v }
  | 0x020 => s.modLoops fun l => { l with lb0 := evenOff v }
  | 0x021 => s.modLoops fun l => { l with le0 := evenOff v }
  | 0x022 => s.modLoops fun l => { l with lc0 := v }
  | 0x023 => s.modLoops fun l => { l with lb1 := evenOff v }
  | 0x024 => s.modLoops fun l => { l with le1 := evenOff v }
  | 0x025 => s.modLoops fun l => { l with lc1 := v }
  | 0x040 | 0x041 | 0x042 | 0x043 | 0x044 => s.modRegs fun k => k.write r v
  | 0x048 | 0x049 | 0x04A | 0x04B =>
    let n := r - 0x048
    if bit v 5 then
      s.modTask fun t => { t with regs := { t.regs with
        acc := t.regs.acc.setIfInBounds n { t.regs.acc.getD n {} with sat := false } } }
    else s
  | _ =>
    if 0x102 ≤ r ∧ r ≤ 0x17F then
      s.modRegs fun k =>
        let c := (r - 0x100) / 2
        { k with rout := Tab.put {} k.rout c ((Tab.get {} k.rout c).write (decide (r % 2 = 1)) v) }
    else s

end Sys2Proof.Machine
end

