-- ==== Sys2Proof/Machine/Control.lean ====
section
/-!
DEFINITION. Majors 0x07 to 0x0B: hardware loops, streams and queues, messages and stream ports, tasks, safe points and
`align`, state registers, `phase` and the TLB (R42, R51, R137, R216-R236).
-/

namespace Sys2Proof.Machine

/-! ### The instruction store -/

/-- A byte of a group's instruction store (R194). -/
def State.imemByte (s : State) (g off : Nat) : Byte := Tab.get 0 s.mem.imem (g * 65536 + off)

/-- The length in bytes of the instruction at an offset of the acting core's group (R194). -/
def State.lenAt (s : State) (off : Nat) : Nat := if (s.imemByte (groupOf s.core.num) off).toNat % 2 = 1 then 4 else 2

/-! ### The run queue (R36, R37, R51) -/

/-- Effective priority of a waiting task (R36). -/
def Task.effective (t : Task) : Nat := min 15 (t.prio.toNat + t.info.aged)

/-- A pre-emption is due: a ready task outranks the running one, or the firmware posted a request (R37). -/
def Core.due (c : Core) : Bool :=
  c.task.info.preempt
    || c.slots.any fun p => decide (p.2.info.status = .ready) && decide (c.task.prio.toNat < p.2.effective)

/-- What a pre-empting safe point saves: the live x registers, and the state of R51; the rest reads zero after it. -/
def Task.savedAt (t : Task) (live now : Nat) : Task :=
  let keep := fun i => decide (26 ≤ i) || (decide (1 ≤ i) && decide (live / 2 ^ i % 2 = 1))
  let x := Vector.ofFn fun (i : Fin 32) => if keep i.val then t.regs.x[i] else {}
  { t with
    regs := { x := x }, rep := {}, wide := false, ex := { t.ex with early := [] }, ac := { t.ac with early := [] }
    info := { t.info with status := .ready, readySince := now, aged := 0, preempt := false, saved := true } }

/-- The running task gives up the core and becomes ready (R37, R51). -/
def State.preempt (s : State) (live : Nat) : State :=
  let t := s.task.savedAt live s.cycle
  { s with core := { s.core with running := false, task := {}, slots := Tab.put {} s.core.slots t.info.slot t } }

noncomputable section

/-! ### Hardware loops (R216-R219) -/

/-- Loop `l`'s registers set up. -/
def Loops.setup (x : Loops) (l : BitVec 1) (lb le : BitVec 16) (n : Word) : Loops :=
  if l = 0 then { x with lb0 := lb, le0 := le, lc0 := n } else { x with lb1 := lb, le1 := le, lc1 := n }

/-- A loop set-up; with a count of 0 the body is skipped (R217). Where the set-up stands at the other loop's LE, the skip counts as a jump: that
loop makes no loop-back and keeps its LC (DESIGN CHOICE, log 83: R218 excludes a jump, R217 sets next PC). -/
def setupLoop (l : BitVec 1) (n : State → Word) (hs : State → List Handle) (o : BitVec 12) : Body := fun s => do
  s.execOnly
  let le := s.codeTarget o
  if le < s.pc + 4 then trap 0x09 (wrap64 le) 0 s.pc
  else if 0xFFFE < le then trap 0x02 (wrap64 le)
  else
    let s' ← (if hs s = [] then .ok s else s.fold (hs s))
    let s' := s'.modLoops fun x => x.setup l (BitVec.ofNat 16 (s.pc + 4)) (BitVec.ofNat 16 le.toNat) (n s)
    if n s = 0 then .ok { st := s', ctl := .jump (le.toNat + s.lenAt le.toNat) } else .ok { st := s' }

def execLoop (l : BitVec 1) (r : BitVec 5) (o : BitVec 12) (s : State) :=
  s.run (.loop l r o) (setupLoop l (fun s => s.xv r) (fun s => [s.xl r]) o)
def execLoopi (l : BitVec 1) (n : BitVec 5) (o : BitVec 12) (s : State) :=
  s.run (.loopi l n o) (setupLoop l (fun _ => uimm n) (fun _ => []) o)

/-- LC of loop `l` := 0. -/
def loopClear (l : BitVec 1) : Body := fun s => do
  s.execOnly
  .ok { st := s.modLoops fun x => if l = 0 then { x with lc0 := 0 } else { x with lc1 := 0 } }

def execLoopClr (l : BitVec 1) (s : State) := s.run (.loopClr l) (loopClear l)

/-! ### Streams and queues (R220-R222) -/

/-- The access stream starts at a target with the execute stream's DEP, from the next cycle on (R38, R221). -/
def forkAccess (o : BitVec 12) : Body := fun s => do
  s.execOnly
  if s.task.ac.active then trap 0x1D 0
  else
    let t := s.codeTarget o
    if inStore t then .ok { st := s.modTask fun k => { k with ac := { active := true, pc := t.toNat, dep := k.ex.dep, due := s.cycle + 1 } } }
    else trap 0x02 (wrap64 t)

def execForkA (o : BitVec 12) (s : State) := s.run (.forkA o) (forkAccess o)

/-- The entries of a queue (R200's numbering). -/
def Queues.get (q : Queues) (n : BitVec 2) : List XReg :=
  match n.toNat with
  | 0 => q.ldq
  | 1 => q.stq
  | 2 => q.bqa
  | _ => q.bqx

/-- The entries of a queue replaced. -/
def Queues.set (q : Queues) (n : BitVec 2) (l : List XReg) : Queues :=
  match n.toNat with
  | 0 => { q with ldq := l }
  | 1 => { q with stq := l }
  | 2 => { q with bqa := l }
  | _ => { q with bqx := l }

/-- The depth of a queue (R38). -/
def queueDepth (n : BitVec 2) : Nat := if n.toNat < 2 then 8 else 4

/-- The stream that writes a queue (R222). -/
def queueWriter (n : BitVec 2) : Nat := if n.toNat % 2 = 0 then 1 else 0

/-- The queue-misuse trap. -/
def State.queueMisuse {α : Type} (s : State) : Except Stop α := trap 0x1E s.task.queues.counts

/-- A queue wait; when the other stream is in one as well, the deadlock trap goes to the execute stream (R40). -/
def State.queueWait {α : Type} (s : State) : Except Stop α :=
  let o := s.otherStrm
  let stuck := o.active && (match o.wait with | some w => decide (w.kind = .queue) | none => false) && o.reply.isNone
  if !stuck then wait .queue
  else if s.actStream = 0 then trap 0x1F s.task.queues.counts
  else waitAs .queue (s.modTask fun k =>
    { k with ex := { k.ex with reply := some (.trap { cause := 0x1F, val := s.task.queues.counts }) } })

/-- After a queue has changed, or a stream has ended, the other stream's queue wait is looked at anew. -/
def State.stirOther (s : State) : State :=
  s.modTask fun k => k.modStrm (1 - s.actStream) fun x =>
    match x.wait with
    | some w => if w.kind = .queue then { x with wait := none } else x
    | none => x

/-- `q.put` (R222). -/
def queuePut (r : BitVec 5) (q : BitVec 2) : Body := fun s => do
  let l := s.task.queues.get q
  if s.actStream ≠ queueWriter q || !s.otherStrm.active then s.queueMisuse
  else if queueDepth q ≤ l.length then s.queueWait
  else
    let (h, s') ← s.prod [s.xl r, s.dep]
    let s' := s'.modTask fun k => { k with queues := k.queues.set q (l ++ [⟨s.xv r, h⟩]) }
    .ok { st := s'.stirOther }

/-- `q.get` (R222); a branch outcome folds its label (R38). -/
def queueGet (d : BitVec 5) (q : BitVec 2) : Body := fun s => do
  if s.actStream = queueWriter q then s.queueMisuse
  else match s.task.queues.get q with
    | [] => if s.otherStrm.active then s.queueWait else s.queueMisuse
    | e :: l =>
      let s' := s.modTask fun k => { k with queues := k.queues.set q l }
      let s' ← (if 2 ≤ q.toNat then s'.fold [e.lbl] else .ok s')
      let s' ← s'.writeX d e.val [e.lbl]
      .ok { st := s'.stirOther }

/-- `q.cnt` (R222). -/
def queueCount (d : BitVec 5) (q : BitVec 2) : Body := fun s => do
  let s' ← s.writeX d (word (s.task.queues.get q).length) []
  .ok { st := s' }

def execQPut (r : BitVec 5) (q : BitVec 2) (s : State) := s.run (.qPut r q) (queuePut r q)
def execQGet (d : BitVec 5) (q : BitVec 2) (s : State) := s.run (.qGet d q) (queueGet d q)
def execQCnt (d : BitVec 5) (q : BitVec 2) (s : State) := s.run (.qCnt d q) (queueCount d q)

/-! ### Messages (R26, R27, R71, R137, R223) -/

/-- The smallest scope that holds two cores, at least tile scope (R137). -/
def sendScope (c d : Nat) : Nat := ((upto 7).find? fun k => share k c d).getD 6

/-- A message joins the tail of its channel. -/
def State.send (s : State) (m : Msg) : State := { s with channels := s.channels ++ [m] }

/-- `msg.send`: the release fence, then the send step (R137, R223). -/
def sendMessage (r t : BitVec 5) : Body := fun s => do
  let h := s.xv r
  let n := bits h 25 3
  let dest := bits h 51 13
  if 0x1048 ≤ dest then trap 0x08 h 0 0
  else if 0 < n && decide (31 < t.toNat + n - 1) then trap 0x08 h 0 1
  else if s.heldIn (sendScope s.core.num dest) then wait .accesses
  else
    let ps := (upto n).map fun i => s.x (regOff t i)
    let ls := s.xl r :: ps.map (·.lbl)
    let msg := fun (l : Handle) => ({
      hdr := header dest s.core.num (bits h 32 6) (bits h 28 4) n false s.task.frame l
      payload := payload7 (ps.map (·.val)) } : Msg)
    if dieOf dest = s.die then
      let (l, s') ← s.prod (ls ++ [s.dep])
      if l = never then .ok { st := s.supp } else .ok { st := s'.send (msg l) }
    else
      let (seen, s') ← s.judge ls
      .ok { st := if seen then s'.send (msg always) else s'.supp }

def execMsgSend (r t : BitVec 5) (s : State) := s.run (.msgSend r t) (sendMessage r t)

/-! ### Stream ports (R224, R225) -/

/-- `sp.open`: the transfer begins (R138, R225). -/
def portOpen (r t : BitVec 5) : Body := fun s => do
  let a := s.xv r
  let w := s.xv t
  if s.strm.port.isSome || decide (bits w 16 48 ≠ 0) || !(decide (0x10000000 ≤ a.toNat) && decide (a.toNat < 0x20000000)) then
    trap 0x1D 0
  else
    aligned a 8
    let s' ← s.fold [s.xl r, s.xl t]
    let hd := bits w 0 15 * 2
    let tr : Transfer := {
      id := s'.nextId, who := s.self, frame := s.task.frame, ctx := s.task.ctx, prio := s.task.prio
      base := a.toNat - 0x10000000, hv := bit w 15, handler := hd, words := [], closed := false, written := 0
      stopped := false, taken := false, lbls := [] }
    let s' := s'.modStrm fun x => { x with port := some ⟨s'.nextId, a, bit w 15, hd, 0⟩ }
    .ok { st := { s' with nextId := s'.nextId + 1, transfers := s'.transfers ++ [tr] } }

/-- A change of the transfer named by `id`. -/
def State.modTransfer (s : State) (id : Nat) (f : Transfer → Transfer) : State :=
  { s with transfers := s.transfers.map fun t => if t.id = id then f t else t }

/-- Two transfers take one route: the same source core and the same destination core (R138). -/
def Transfer.sameRoute (a b : Transfer) : Bool := decide (a.who.core = b.who.core ∧ a.base / 65536 = b.base / 65536)

/-- The transfer named by `id` holds its route: no older one on it waits for its closing marker (R138). -/
def State.holdsRoute (s : State) (id : Nat) : Bool :=
  s.transfers.all fun t => !(decide (t.id = id)) || (s.transfers.takeWhile fun x => decide (x.id ≠ id)).all fun x => !x.sameRoute t

/-- The route of a transfer accepts another word: it is held, and not more words than the network takes are under way (R225). -/
def State.routeAccepts (s : State) (id : Nat) : Bool :=
  s.holdsRoute id && s.transfers.all fun t => decide (t.id ≠ id) || decide (t.words.length ≤ Config.routeWords)

/-- The labels that a word put on a port carries: interned where the owner's scratchpad keeps labels on the sender's die (R225, R288). -/
def State.portLabels (s : State) (base : Word) (hs : List Handle) : Except Stop (List Handle × State) :=
  let owner := (base.toNat - 0x10000000) / 65536
  if decide (dieOf owner = s.die) && (s.coreAt owner).regs.lab then do
    let (h, s) ← s.prod (hs ++ [s.dep])
    .ok ([h], s)
  else .ok ((hs ++ [s.dep]).filter fun h => decide (h ≠ always), s)

/-- `sp.put`: the next word of the transfer, once the route accepts it (R225). -/
def portPut (r : BitVec 5) : Body := fun s => do
  match s.strm.port with
  | none => trap 0x1D 0
  | some p =>
    if !s.routeAccepts p.id then wait .port
    else
      let (ls, s') ← s.portLabels p.base [s.xl r]
      let s' := s'.modTransfer p.id fun t => { t with words := t.words ++ [⟨s.xv r, ls, s.task.ctx⟩] }
      .ok { st := s'.modStrm fun x => { x with port := some { p with put := p.put + 1 } } }

/-- `sp.close`: the closing marker is sent, and the destination's acknowledgement carries the count (R225). -/
def portClose (d : BitVec 5) : Body := fun s => do
  match s.strm.port with
  | none => trap 0x1D 0
  | some p =>
    match s.strm.reply with
    | some (.value n _ _) =>
      let s' ← s.writeX d n []
      .ok { st := s'.modStrm fun x => { x with port := none } }
    | _ => waitAs .port (s.modTransfer p.id fun t => { t with closed := true })

def execSpOpen (r t : BitVec 5) (s : State) := s.run (.spOpen r t) (portOpen r t)
def execSpPut (r : BitVec 5) (s : State) := s.run (.spPut r) (portPut r)
def execSpClose (d : BitVec 5) (s : State) := s.run (.spClose d) (portClose d)

/-! ### Task end, safe points and `align` (R42, R51, R226-R228) -/

/-- The access stream ends; the execute stream's waits are looked at anew, and a task that it leaves moot stays so (R38, R74). The
`task.end` counts for R52. -/
def State.endAccess (s : State) : State :=
  (s.stirOther.modStrm fun x => { x with active := false, wait := none, reply := none, asks := false, kept := none, shared := none, under := none, refs := [], granted := [] }).modTask fun t => { t with
    info := { t.info with dead := s.task.moot }, spCount := count52 t.spCount 1 }

/-- A trap handler runs in the acting stream (R327). -/
def State.handling (s : State) : Bool := s.core.regs.act && decide (s.core.regs.trapStream = decide (s.actStream = 1))

/-- The end of the task by its `task.end`: queues, port, then stores (R40, R134, R227); a moot task is retired, port and queues
discarded (R74). -/
def State.endChecks (s : State) : Except Stop Done :=
  if !s.task.moot && s.task.queues.some then s.queueMisuse
  else if !s.task.moot && s.strm.port.isSome then trap 0x1D 0
  else if s.task.moot then s.finish
  else s.gangPass.finish

/-- `task.end` (R227; log 25). In a handler of the access stream it ends the task (R329). -/
def taskEnds : Body := fun s => do
  if s.actStream ≠ 0 && !s.handling then
    if s.strm.port.isSome then trap 0x1D 0 else .ok { st := s.endAccess, ctl := .stay }
  else if s.actStream = 0 && s.task.ac.active then s.queueWait
  else s.endChecks

def execTaskEnd (s : State) := s.run .taskEnd taskEnds

/-- The access stream waits on another party, or has a transfer under way, so that no pre-emption is taken (R51; log 68). -/
def Stream.elsewhere (x : Stream) : Bool :=
  x.active && match x.wait with
    | some w => w.kind = .queue || w.kind = .wake || w.kind = .ring || w.kind = .port || w.kind = .handler
    | none => x.port.isSome

/-- The live mask of `safept` (R228). -/
def State.liveMask (s : State) (r : BitVec 5) : Nat := if r = 0 then 0x3FFFFFE else (s.xv r).toNat % 2 ^ 26

/-- `safept` (R51, R228). -/
def safePoint (r : BitVec 5) : Body := fun s => do
  s.execOnly
  if s.inFlight s.core.num s.task.info.uid then wait .boundary
  else if s.task.moot then s.finish
  else if s.task.ex.port.isSome then trap 0x1D 0
  else if s.task.ac.active && s.task.ac.wait.isSome && !s.task.ac.elsewhere then wait .boundary
  else if s.task.queues.some then s.queueMisuse
  else
    let s' := s.modTask fun k => { k with spCount := 0, lastSafept := some s.pc }
    let due := s.core.due && !s.core.regs.act && !s.task.ac.elsewhere
    let live := s.liveMask r
    .ok { st := s', counts := 0, after := if due then fun x => x.preempt live else id }

def execSafept (r : BitVec 5) (s : State) := s.run (.safept r) (safePoint r)

/-- Two tasks belong to one launch. -/
def sameLaunch (a b : Option LaunchRef) : Bool :=
  match a, b with
  | some x, some y => decide (x.die = y.die ∧ x.entry = y.entry ∧ x.seq = y.seq)
  | _, _ => false

/-- The other cores of the acting core's group that run a task of the same launch (R42). -/
def State.peers (s : State) : List Core :=
  ((upto 16).map fun i => s.coreAt (s.core.num / 16 * 16 + i)).filter fun c =>
    decide (c.num ≠ s.core.num) && c.running && sameLaunch c.task.info.launch s.task.info.launch

/-- The execute stream waits in a blocking wait (R37). -/
def Task.inBlock (t : Task) : Bool :=
  match t.ex.wait with
  | some w => w.kind = .wake || w.kind = .barrier || w.kind = .ring
  | none => false

/-- The task has reached an `align` at `pc`. -/
def Task.alignedAt (t : Task) (pc : Nat) : Bool :=
  match t.ex.wait with
  | some w => decide (w.kind = .align) && decide (t.ex.pc = pc)
  | none => false

/-- `align` (R42, R228): it completes when every peer has reached it or is blocked, or when the bound has elapsed; whoever
arrives last releases the peers that wait there. -/
def alignTo (n : BitVec 12) : Body := fun s => do
  if s.actStream ≠ 0 then .ok { st := s }
  else
    let ps := s.peers
    let here := ps.filter fun c => c.task.alignedAt s.pc
    let past := match s.strm.wait with
      | some w => decide (w.since + n.toNat ≤ s.cycle)
      | none => decide (n = 0)
    match s.strm.reply with
    | some .done => .ok { st := s }
    | _ =>
      if ps.all fun c => c.task.alignedAt s.pc || c.task.inBlock then
        .ok { st := here.foldl (fun x c => x.answer ⟨c.num, c.task.info.uid, 0⟩ .done) s }
      else if past then .ok { st := s }
      else wait .align

def execAlign (n : BitVec 12) (s : State) := s.run (.align n) (alignTo n)

/-! ### State registers, `phase` and the TLB (R229-R236) -/

/-- `srd` (R229). -/
def readState (d : BitVec 5) (r : BitVec 12) : Body := fun s => do
  let s' ← s.writeX d (s.readReg r.toNat) []
  .ok { st := s' }

def execSrd (d : BitVec 5) (r : BitVec 12) (s : State) := s.run (.srd d r) (readState d r)

/-- State registers that only a privileged task writes (R229). -/
def swrPriv (r : BitVec 12) : Bool := r == 0x00B#12 || (decide (0x102 ≤ r.toNat) && decide (r.toNat ≤ 0x17F))

/-- State registers whose write is ordered as a strong store to the own scratchpad (R130). -/
def swrOrdered (r : BitVec 12) : Bool :=
  r == 0x006#12 || (decide (0x040 ≤ r.toNat) && decide (r.toNat ≤ 0x044))

/-- State registers that the retirement of R218 reads: their write lands after it, at the end of the cycle (R35, R229). -/
def swrLate (r : BitVec 12) : Bool := decide (0x020 ≤ r.toNat) && decide (r.toNat ≤ 0x025)

/-- `swr TRAPCAUSE` (R329); a set ACT lands after the loop-back of R218, at the end of the cycle (R35, R229). -/
def State.writeCause (s : State) (v : Word) : Done :=
  if bit v 17 then { st := s, after := fun x => x.modRegs fun k => { k with act := true } }
  else if s.core.regs.act then s.trapReturn
  else { st := s }

/-- `swr` (R35, R66, R130, R229, R329; log 55). A write of RQLIM, a window or SPFRAME performs as a strong store does and lands at the end of
the cycle, so that an access which reaches the owner before that meets the old window (R101). -/
def writeState (r : BitVec 5) (n : BitVec 12) : Body := fun s => do
  if swrPriv n && !s.task.priv then trap 0x04 0
  else
    let v := s.xv r
    if n = 1 then
      if s.handleOk s.die s.task.frame v then
        let s' ← s.fold [v.setWidth 16, s.xl r]
        .ok { st := s' }
      else trap 0x19 v
    else if n = 0 then
      let s' ← s.fold [s.xl r]
      .ok { st := s'.modTask fun k => { k with ctx := v } }
    else if swrOrdered n && (s.preds .spm (s.core.num * 65536) 0 0).any s.openIds.contains then wait .accesses
    else
      let (seen, s') ← s.judge [s.xl r]
      if !seen then .ok { st := s'.supp }
      else if n = 9 then .ok (s'.writeCause v)
      else if swrOrdered n then .ok { st := s'.modRegs fun k => { k with late := k.late ++ [(n.toNat, v)] } }
      else if swrLate n then .ok { st := s', after := fun x => x.writeReg n.toNat v }
      else .ok { st := s'.writeReg n.toNat v }

def execSwr (r : BitVec 5) (n : BitVec 12) (s : State) := s.run (.swr r n) (writeState r n)

/-- `phase` (R111, R235). -/
def addPhase : Body := fun s =>
  .ok { st := { s with phase := if s.phase = BitVec.allOnes 32 then s.phase else s.phase + 1 } }

def execPhase (s : State) := s.run .phase addPhase

/-- A translation service core executes (R236). -/
def State.translator (s : State) : Except Stop Unit :=
  if s.task.priv && decide (0x1000 ≤ s.core.num) && decide (s.core.num < 0x1040) then .ok () else trap 0x04 0

/-- A tile belongs to the executing core's super-group. -/
def State.ownTile (s : State) (t : Nat) : Bool := decide (t / 16 = sgOf s.core.num)

/-- Written bits of a TLB tag (R116). -/
def tagMask : Word := 0x0000FFFFFFFF0001

/-- Written bits of a TLB data dword (R116). -/
def dataMask : Word := 0xFFFFF0FFFFFFFFFE

/-- What a tile's streams have translated for engine commands that they have not yet issued is forgotten. -/
def State.forgetRefs (s : State) (tile : Nat) : State :=
  ((upto 4).map (tile * 4 + ·)).foldl (fun s c =>
    let t := (s.coreAt c).task
    if t.ex.refs = [] && t.ac.refs = [] then s
    else s.modCore c fun k => { k with task := { k.task with ex := { k.task.ex with refs := [] }, ac := { k.task.ac with refs := [] } } }) s

/-- `tlb.w` (R236); what the tile has translated for commands still to be issued is translated anew. -/
def tlbWrite (d r t : BitVec 5) : Body := fun s => do
  s.translator
  let i := s.xv d
  if decide (bits i 18 46 ≠ 0) || !s.ownTile (bits i 8 10) then trap 0x07 i 0 3
  else
    let (seen, s') ← s.judge [s.xl d, s.xl r, s.xl t]
    if !seen then .ok { st := s'.supp }
    else .ok { st := (({ s' with tlb := Tab.put (0, 0) s'.tlb (bits i 8 10 * 256 + bits i 0 8) (s.xv r &&& tagMask, s.xv t &&& dataMask) } : State).forgetRefs (bits i 8 10)) }

/-- The entries of a tile that match an address, with their data dwords. -/
def State.tlbMatches (s : State) (tile va : Nat) : List (Nat × Word) :=
  (s.tlb.filter fun p => decide (p.1 / 256 = tile) && tlbMatch p.2.1 p.2.2 va).map fun p => (p.1, p.2.2)

/-- The commands of the engine queues, without the marks of ill-formed ones (R357). -/
def State.commands (s : State) : List Cmd := (s.engines.flatMap fun p => p.2.queue).filter fun c => !c.ill

/-- The unperformed accesses that a tile's cores have issued through a page: the ids of stores to it, those of waiting `ring.alight`s among
them, and of engine commands, whose pages the issuing tile translated (R173, R236). -/
def State.through (s : State) (tile : Nat) (data : Word) (va : Nat) : List Nat :=
  let base := physOf data 0
  let all := s.inbound ++ ((upto 4).flatMap fun i => (s.coreAt (tile * 4 + i)).sb) ++ s.ringq.filterMap (·.store)
  ((all.filter fun e => decide (tileOf e.core = tile ∧ e.space = .main) && overlap e.addr e.bytes.length base (pageSize data)).map (·.id))
    ++ (s.commands.filter fun c => decide (tileOf c.who.core = tile) && c.refs.any fun r =>
      decide (r.data = data ∧ r.va * 65536 / pageSize data = va / pageSize data)).map (·.id)

/-- Entries are invalidated: V := 0 (R236). -/
def State.tlbDrop (s : State) (ks : List Nat) : State :=
  let s := (ks.map (· / 256)).foldl State.forgetRefs s
  { s with tlb := ks.foldl (fun t k => let e := Tab.get (0, 0) t k
                                      Tab.put (0, 0) t k (if e.1 &&& ~~~1 = 0 && e.2 = 0 then (0, 0) else (e.1 &&& ~~~1, e.2))) s.tlb }

/-- A store or a command with this id has still to perform somewhere. -/
def State.pendingId (s : State) (id : Nat) : Bool :=
  (s.inbound ++ s.core.sb ++ (s.parked.flatMap fun p => p.2.sb) ++ s.ringq.filterMap (·.store)).any (fun e => decide (e.id = id))
    || s.commands.any fun c => decide (c.id = id)

/-- A stream of a tile's cores waits for another package to serve an access that the tile translated through a page of `data` (R119). -/
def State.farThrough (s : State) (tile : Nat) (data : Word) (va : Nat) : Bool :=
  let page := pageSize data
  let on := fun (x : Stream) => match x.wait with
    | some ⟨.remote v _, _⟩ | some ⟨.migrate v _, _⟩ => decide (v / page = va / page)
    | _ => false
  let far := fun (q : RingReq) => match q.far with
    | some (v, _) => decide (tileOf q.who.core = tile) && decide (v / page = va / page)
    | none => false
  (((upto 4).map fun i => s.coreAt (tile * 4 + i)).any fun c => c.running && (on c.task.ex || on c.task.ac)) || s.ringq.any far

/-- `tlb.inv`: the entries go, and the instruction retires when every access translated through them has performed (R236): it first
waits for those that another package serves, then drops the entries, then waits for the stores issued through them, which stand on
the stream as a fence that holds nothing back. -/
def tlbInvalid (r t : BitVec 5) : Body := fun s => do
  s.translator
  let w := s.xv t
  if decide (bits w 10 54 ≠ 0) || !s.ownTile (bits w 0 10) then trap 0x07 w 0 2
  else
    let va := (s.xv r).toNat
    let (seen, s) ← s.judge [s.xl r, s.xl t]
    if !seen then .ok { st := s.supp }
    else
    let ms := s.tlbMatches (bits w 0 10) va
    let old := (s.strm.fences.filter fun f => !f.loads && !f.stores).flatMap (·.ids)
    let ids := (old ++ ms.flatMap fun m => s.through (bits w 0 10) m.2 va).filter s.pendingId
    let s' := s.tlbDrop (ms.map (·.1))
    let rest := s.strm.fences.filter fun f => f.loads || f.stores
    if ms.any fun m => s.farThrough (bits w 0 10) m.2 va then wait .accesses
    else if ids = [] then .ok { st := s'.modStrm fun x => { x with fences := rest } }
    else waitAs .accesses (s'.modStrm fun x => { x with fences := rest ++ [⟨false, false, 0, ids⟩] })

def execTlbW (d r t : BitVec 5) (s : State) := s.run (.tlbW d r t) (tlbWrite d r t)
def execTlbInv (r t : BitVec 5) (s : State) := s.run (.tlbInv r t) (tlbInvalid r t)

end

end Sys2Proof.Machine
end

