-- ==== Sys2Proof/Machine/Scalar.lean ====
section
/-!
DEFINITION. Majors 0x01 to 0x06: integer register and immediate operations, upper immediate, jumps and branches
(R209-R215).
-/

namespace Sys2Proof.Machine

noncomputable section

/-! ### Integer operations (R210) -/

/-- Leading zero bits below bit `n`. -/
def leadZeros (v : Word) : Nat → Nat
  | 0 => 0
  | n + 1 => if v.getLsbD n then 0 else 1 + leadZeros v n

/-- Trailing zero bits from bit `64 - n` upward. -/
def trailZeros (v : Word) : Nat → Nat
  | 0 => 0
  | n + 1 => if v.getLsbD (63 - n) then 0 else 1 + trailZeros v n

/-- The bits of a dword in reverse order. -/
def bitrev64 (v : Word) : Word := word (pack 1 (unpack 1 64 v.toNat).reverse)

/-- The bytes of a dword in reverse order. -/
def bswap64 (v : Word) : Word := wordOf (bytesOf v).reverse

/-- The shift count of a register operand: x[rt] mod 64. -/
def cnt (b : Word) : Nat := b.toNat % 64

/-- floor(p / 2^64) of a product, wrapped (`mulx`). -/
def high64 (p : Int) : Word := wrap64 (p / 2 ^ 64)

/-- Quotient truncated toward zero; 0 for a zero divisor. -/
def quotS (a b : Word) : Word := if b = 0 then 0 else wrap64 (Int.tdiv a.toInt b.toInt)

/-- Remainder of the truncated quotient; the dividend for a zero divisor. -/
def remdS (a b : Word) : Word := if b = 0 then a else wrap64 (a.toInt - b.toInt * Int.tdiv a.toInt b.toInt)

/-- Unsigned quotient; 0 for a zero divisor. -/
def quotU (a b : Word) : Word := if b = 0 then 0 else word (a.toNat / b.toNat)

/-- Unsigned remainder; the dividend for a zero divisor. -/
def remdU (a b : Word) : Word := if b = 0 then a else word (a.toNat % b.toNat)

/-- x[rd] := f(x[rs], x[rt]), label Product of both and DEP (R64, R210). -/
def binOp (f : Word → Word → Word) (d r t : BitVec 5) : Body := fun s => do
  let s' ← s.writeX d (f (s.xv r) (s.xv t)) [s.xl r, s.xl t]
  .ok { st := s' }

/-- x[rd] := f(x[rs]), label Product of it and DEP (R64, R210, R211). -/
def unOp (f : Word → Word) (d r : BitVec 5) : Body := fun s => do
  let s' ← s.writeX d (f (s.xv r)) [s.xl r]
  .ok { st := s' }

def execAdd (d r t : BitVec 5) (s : State) := s.run (.add d r t) (binOp (fun a b => a + b) d r t)
def execSub (d r t : BitVec 5) (s : State) := s.run (.sub d r t) (binOp (fun a b => a - b) d r t)
def execXor (d r t : BitVec 5) (s : State) := s.run (.xor d r t) (binOp (fun a b => a ^^^ b) d r t)
def execAndn (d r t : BitVec 5) (s : State) := s.run (.andn d r t) (binOp (fun a b => a &&& ~~~b) d r t)
def execOrn (d r t : BitVec 5) (s : State) := s.run (.orn d r t) (binOp (fun a b => a ||| ~~~b) d r t)
def execXnor (d r t : BitVec 5) (s : State) := s.run (.xnor d r t) (binOp (fun a b => ~~~(a ^^^ b)) d r t)
def execOr (d r t : BitVec 5) (s : State) := s.run (.or d r t) (binOp (fun a b => a ||| b) d r t)
def execAnd (d r t : BitVec 5) (s : State) := s.run (.and d r t) (binOp (fun a b => a &&& b) d r t)
def execShl (d r t : BitVec 5) (s : State) := s.run (.shl d r t) (binOp (fun a b => a <<< cnt b) d r t)
def execShr (d r t : BitVec 5) (s : State) := s.run (.shr d r t) (binOp (fun a b => a >>> cnt b) d r t)
def execSar (d r t : BitVec 5) (s : State) := s.run (.sar d r t) (binOp (fun a b => a.sshiftRight (cnt b)) d r t)
def execRotl (d r t : BitVec 5) (s : State) := s.run (.rotl d r t) (binOp (fun a b => a.rotateLeft (cnt b)) d r t)
def execRotr (d r t : BitVec 5) (s : State) := s.run (.rotr d r t) (binOp (fun a b => a.rotateRight (cnt b)) d r t)
def execCmplt (d r t : BitVec 5) (s : State) :=
  s.run (.cmplt d r t) (binOp (fun a b => flag (decide (a.toInt < b.toInt))) d r t)
def execCmpltu (d r t : BitVec 5) (s : State) :=
  s.run (.cmpltu d r t) (binOp (fun a b => flag (decide (a.toNat < b.toNat))) d r t)
def execCmpeq (d r t : BitVec 5) (s : State) := s.run (.cmpeq d r t) (binOp (fun a b => flag (decide (a = b))) d r t)
def execMin (d r t : BitVec 5) (s : State) :=
  s.run (.min d r t) (binOp (fun a b => if a.toInt ≤ b.toInt then a else b) d r t)
def execMax (d r t : BitVec 5) (s : State) :=
  s.run (.max d r t) (binOp (fun a b => if a.toInt ≤ b.toInt then b else a) d r t)
def execMinu (d r t : BitVec 5) (s : State) :=
  s.run (.minu d r t) (binOp (fun a b => if a.toNat ≤ b.toNat then a else b) d r t)
def execMaxu (d r t : BitVec 5) (s : State) :=
  s.run (.maxu d r t) (binOp (fun a b => if a.toNat ≤ b.toNat then b else a) d r t)
def execClz (d r : BitVec 5) (s : State) := s.run (.clz d r) (unOp (fun a => word (leadZeros a 64)) d r)
def execCtz (d r : BitVec 5) (s : State) := s.run (.ctz d r) (unOp (fun a => word (trailZeros a 64)) d r)
def execPop (d r : BitVec 5) (s : State) := s.run (.pop d r) (unOp (fun a => word (popCount 64 a.toNat)) d r)
def execSextB (d r : BitVec 5) (s : State) := s.run (.sextB d r) (unOp (fun a => simm (a.setWidth 8)) d r)
def execSextH (d r : BitVec 5) (s : State) := s.run (.sextH d r) (unOp (fun a => simm (a.setWidth 16)) d r)
def execSextW (d r : BitVec 5) (s : State) := s.run (.sextW d r) (unOp (fun a => simm (a.setWidth 32)) d r)
def execZextB (d r : BitVec 5) (s : State) := s.run (.zextB d r) (unOp (fun a => uimm (a.setWidth 8)) d r)
def execZextH (d r : BitVec 5) (s : State) := s.run (.zextH d r) (unOp (fun a => uimm (a.setWidth 16)) d r)
def execZextW (d r : BitVec 5) (s : State) := s.run (.zextW d r) (unOp (fun a => uimm (a.setWidth 32)) d r)
def execBswap (d r : BitVec 5) (s : State) := s.run (.bswap d r) (unOp bswap64 d r)
def execBitrev (d r : BitVec 5) (s : State) := s.run (.bitrev d r) (unOp bitrev64 d r)
def execMul (d r t : BitVec 5) (s : State) := s.run (.mul d r t) (binOp (fun a b => a * b) d r t)
def execMulxSs (d r t : BitVec 5) (s : State) :=
  s.run (.mulxSs d r t) (binOp (fun a b => high64 (a.toInt * b.toInt)) d r t)
def execMulxUu (d r t : BitVec 5) (s : State) :=
  s.run (.mulxUu d r t) (binOp (fun a b => high64 ((a.toNat : Int) * b.toNat)) d r t)
def execMulxSu (d r t : BitVec 5) (s : State) :=
  s.run (.mulxSu d r t) (binOp (fun a b => high64 (a.toInt * b.toNat)) d r t)
def execQuot (d r t : BitVec 5) (s : State) := s.run (.quot d r t) (binOp quotS d r t)
def execQuotu (d r t : BitVec 5) (s : State) := s.run (.quotu d r t) (binOp quotU d r t)
def execRemd (d r t : BitVec 5) (s : State) := s.run (.remd d r t) (binOp remdS d r t)
def execRemdu (d r t : BitVec 5) (s : State) := s.run (.remdu d r t) (binOp remdU d r t)

/-! ### Immediate operations (R211, R212) -/

def execAddi (d r : BitVec 5) (i : BitVec 12) (s : State) := s.run (.addi d r i) (unOp (fun a => a + simm i) d r)
def execSlli (d r : BitVec 5) (n : BitVec 6) (s : State) := s.run (.slli d r n) (unOp (fun a => a <<< n.toNat) d r)
def execRotli (d r : BitVec 5) (n : BitVec 6) (s : State) := s.run (.rotli d r n) (unOp (fun a => a.rotateLeft n.toNat) d r)
def execCmplti (d r : BitVec 5) (i : BitVec 12) (s : State) :=
  s.run (.cmplti d r i) (unOp (fun a => flag (decide (a.toInt < i.toInt))) d r)
def execCmpltiu (d r : BitVec 5) (i : BitVec 12) (s : State) :=
  s.run (.cmpltiu d r i) (unOp (fun a => flag (decide (a.toNat < (simm i).toNat))) d r)
def execXori (d r : BitVec 5) (i : BitVec 12) (s : State) := s.run (.xori d r i) (unOp (fun a => a ^^^ simm i) d r)
def execSrli (d r : BitVec 5) (n : BitVec 6) (s : State) := s.run (.srli d r n) (unOp (fun a => a >>> n.toNat) d r)
def execSrai (d r : BitVec 5) (n : BitVec 6) (s : State) :=
  s.run (.srai d r n) (unOp (fun a => a.sshiftRight n.toNat) d r)
def execRotri (d r : BitVec 5) (n : BitVec 6) (s : State) :=
  s.run (.rotri d r n) (unOp (fun a => a.rotateRight n.toNat) d r)
def execOri (d r : BitVec 5) (i : BitVec 12) (s : State) := s.run (.ori d r i) (unOp (fun a => a ||| simm i) d r)
def execAndi (d r : BitVec 5) (i : BitVec 12) (s : State) := s.run (.andi d r i) (unOp (fun a => a &&& simm i) d r)

/-- x[rd] := v with label DEP. -/
def constOp (v : Word) (d : BitVec 5) : Body := fun s => do
  let s' ← s.writeX d v []
  .ok { st := s' }

def execHiimm (d : BitVec 5) (i : BitVec 20) (s : State) := s.run (.hiimm d i) (constOp (wrap64 (i.toInt * 4096)) d)

/-! ### Jumps (R213, R214) -/

/-- A jump to P + 2 × offset with the link P + 4 (R213). -/
def jumpTo {n : Nat} (d : BitVec 5) (o : BitVec n) : Body := fun s => do
  s.forward o
  let t := s.codeTarget o
  if inStore t then
    let s' ← s.writeX d (word (s.pc + 4)) []
    .ok { st := s', ctl := .jump t.toNat }
  else trap 0x02 (wrap64 t)

/-- `jr`: target, fold, link (R214). -/
def jumpReg (d r : BitVec 5) (i : BitVec 12) : Body := fun s => do
  let t := s.ea r i
  if bit t 0 || decide (0xFFFE < t.toNat) then trap 0x02 t
  else
    let s' ← s.fold [s.xl r]
    let s' ← s'.writeX d (word (s.pc + 4)) []
    .ok { st := s', ctl := .jump t.toNat }

/-- `pcadd`: x[rs] + imm + P − 4 (R214). -/
def pcAdd (d r : BitVec 5) (i : BitVec 12) : Body := fun s => do
  let s' ← s.writeX d (s.ea r i + word s.pc - 4) [s.xl r]
  .ok { st := s' }

def execJump (d : BitVec 5) (o : BitVec 20) (s : State) := s.run (.jump d o) (jumpTo d o)
def execJr (d r : BitVec 5) (i : BitVec 12) (s : State) := s.run (.jr d r i) (jumpReg d r i)
def execPcadd (d r : BitVec 5) (i : BitVec 12) (s : State) := s.run (.pcadd d r i) (pcAdd d r i)

/-! ### Branches (R215) -/

/-- A conditional branch on x[rs] and x[rt]; both labels fold into DEP, taken or not (R67, R215). -/
def branch {n : Nat} (c : Word → Word → Bool) (t r : BitVec 5) (o : BitVec n) : Body := fun s => do
  s.forward o
  let g := s.codeTarget o
  let taken := c (s.xv r) (s.xv t)
  if taken && !inStore g then trap 0x02 (wrap64 g)
  else
    let s' ← s.fold [s.xl r, s.xl t]
    .ok { st := s', ctl := if taken then .jump g.toNat else .next }

def execBeq (t r : BitVec 5) (o : BitVec 12) (s : State) := s.run (.beq t r o) (branch (fun a b => decide (a = b)) t r o)
def execBne (t r : BitVec 5) (o : BitVec 12) (s : State) := s.run (.bne t r o) (branch (fun a b => decide (a ≠ b)) t r o)
def execBlt (t r : BitVec 5) (o : BitVec 12) (s : State) :=
  s.run (.blt t r o) (branch (fun a b => decide (a.toInt < b.toInt)) t r o)
def execBge (t r : BitVec 5) (o : BitVec 12) (s : State) :=
  s.run (.bge t r o) (branch (fun a b => decide (b.toInt ≤ a.toInt)) t r o)
def execBltu (t r : BitVec 5) (o : BitVec 12) (s : State) :=
  s.run (.bltu t r o) (branch (fun a b => decide (a.toNat < b.toNat)) t r o)
def execBgeu (t r : BitVec 5) (o : BitVec 12) (s : State) :=
  s.run (.bgeu t r o) (branch (fun a b => decide (b.toNat ≤ a.toNat)) t r o)

/-! ### Hints (R204) -/

/-- Major 0x3F: no register is read, nothing is folded. -/
def execHint (h : BitVec 25) (s : State) := s.run (.hint h) (fun s => .ok { st := s })

end

end Sys2Proof.Machine
end

