-- ==== Sys2Proof/Machine/Memory.lean ====
section
/-!
DEFINITION. Majors 0x0C to 0x0F and the 16-bit forms: loads, stores, arrival-handler stores, fences, `mlive` and local
atomics (R102, R114, R206, R237-R248).
-/

namespace Sys2Proof.Machine

noncomputable section

/-! ### Loads (R239, R240) -/

/-- Bytes sign-extended to a dword. -/
def sextBytes (bs : List Byte) : Word := wrap64 (sgn (8 * bs.length) (leNat bs))

/-- Bytes zero-extended to a dword. -/
def zextBytes (bs : List Byte) : Word := word (leNat bs)

/-- A load of `n` bytes at x[rs] + off (R240). -/
def loadX (n : Nat) (ext : List Byte → Word) (d r : BitVec 5) (off : Word) : Body := fun s => do
  let ea := s.xv r + off
  s.carriedAddr ea
  let (bs, ls, s') ← s.load ea n
  let s' ← s'.fold [s.xl r]
  let s' ← s'.writeLoaded d (ext bs) ls
  .ok { st := s' }

def execLdB (d r : BitVec 5) (i : BitVec 12) (s : State) := s.run (.ldB d r i) (loadX 1 sextBytes d r (simm i))
def execLdH (d r : BitVec 5) (i : BitVec 12) (s : State) := s.run (.ldH d r i) (loadX 2 sextBytes d r (simm i))
def execLdW (d r : BitVec 5) (i : BitVec 12) (s : State) := s.run (.ldW d r i) (loadX 4 sextBytes d r (simm i))
def execLdD (d r : BitVec 5) (i : BitVec 12) (s : State) := s.run (.ldD d r i) (loadX 8 zextBytes d r (simm i))
def execLdBu (d r : BitVec 5) (i : BitVec 12) (s : State) := s.run (.ldBu d r i) (loadX 1 zextBytes d r (simm i))
def execLdHu (d r : BitVec 5) (i : BitVec 12) (s : State) := s.run (.ldHu d r i) (loadX 2 zextBytes d r (simm i))
def execLdWu (d r : BitVec 5) (i : BitVec 12) (s : State) := s.run (.ldWu d r i) (loadX 4 zextBytes d r (simm i))

/-! ### Stores (R241, R242) -/

/-- A store of the low `n` bytes of x[data] at x[rs] + off (R242). -/
def storeX (n : Nat) (t r : BitVec 5) (off : Word) : Body := fun s => s.asked (fun _ _ s => .ok { st := s }) fun s => do
  let ea := s.xv r + off
  s.carriedAddr ea
  let ls ← s.resolve .store ea n
  let (_, s') ← s.stores [s.xl r] false [s.xl t] [((bytesOf (s.xv t)).take n, ls)]
  .ok { st := s' }

def execStB (t r : BitVec 5) (i : BitVec 12) (s : State) := s.run (.stB t r i) (storeX 1 t r (simm i))
def execStH (t r : BitVec 5) (i : BitVec 12) (s : State) := s.run (.stH t r i) (storeX 2 t r (simm i))
def execStW (t r : BitVec 5) (i : BitVec 12) (s : State) := s.run (.stW t r i) (storeX 4 t r (simm i))
def execStD (t r : BitVec 5) (i : BitVec 12) (s : State) := s.run (.stD t r i) (storeX 8 t r (simm i))

/-- A scratchpad address (R349, step 2). -/
def scratchOnly (a : Word) : Except Stop Unit := if inScratch a then .ok () else trap 0x06 a 0 0

/-- The scratchpad piece that an access of one aligned word or less resolves to. -/
def State.resolveOne (s : State) (acc : Acc) (a : Word) (n : Nat) : Except Stop Loc := do
  match ← s.resolve acc a n with
  | l :: _ => .ok l
  | [] => trap 0x30 a

/-- A dormant context of a core is taken (R102). -/
def State.addDormant (s : State) (c : Nat) (d : Dormant) : State := s.modCore c fun k => { k with dorm := k.dorm ++ [d] }


/-! ### Fences and `mlive` (R132, R244-R246) -/

/-- A fence (R132). -/
def fence (acq loads stores : Bool) (c : BitVec 3) : Body := fun s => .ok { st := s.pushFence acq loads stores c.toNat }

def execFenceFull (c : BitVec 3) (s : State) := s.run (.fenceFull c) (fence false true true c)
def execFenceRel (c : BitVec 3) (s : State) := s.run (.fenceRel c) (fence false false true c)

def execFenceAcq (c : BitVec 3) (s : State) := s.run (.fenceAcq c) (fence true true true c)

/-- A unit stops being live: its lines leave every cache, and its poison goes (R107, R114, R354). -/
def State.killUnit (s : State) (u : Nat) : State :=
  let inU := fun (line : Nat) => decide (line / 512 = u)
  { s with
    mem := { s.mem with
      notLive := Tab.put false s.mem.notLive u true
      mainEcc := s.mem.mainEcc.filter fun p => decide (p.1 / 2048 ≠ u) }
    coh := { s.coh with
      l1 := s.coh.l1.filter fun p => !inU p.2.line
      dir := s.coh.dir.filter fun p => !inU p.1
      grants := s.coh.grants.filter fun g => !inU g.line
      notices := s.coh.notices.filter fun p => !inU p.1
      writeBacks := s.coh.writeBacks.filter fun p => !inU p.1
      msc := s.coh.msc.filter fun p => !(p.2.v && inU p.2.line) } }

/-- An address of global memory lies on a page whose HOME is another device (step 2 of R349, where the form refuses one). -/
def State.farPage (s : State) (va : Nat) : Bool :=
  (s.tlbFind (tileOf s.core.num) va).any fun d => decide (bits d 44 20 ≠ s.host.devnum.toNat)

/-- Space of `mlive` (R246, R349): global memory. -/
def globalOnly (a : Word) : Except Stop Unit := if vspace a.toNat = .global then .ok () else trap 0x06 a 0 1

/-- `mlive`: one store step over a whole unit, of the page's kind (R246). It performs in its own step, once every access
that must precede it has (log 12). Over a unit inside an enabled spillway it leaves every sluice word as it was (DESIGN CHOICE, log 84: R148
leaves the effect of a write there open). -/
def markLive (r t : BitVec 5) : Body := fun s => do
  let a := s.xv r
  globalOnly a
  if s.farPage a.toNat then trap 0x06 a 0 1
  else
    let d ← s.pageCheck (tileOf s.core.num) .store a.toNat
    let l ← s.frameCheck .store d a.toNat 1
    let u := l.addr / 65536
    let unit : Loc := { l with addr := u * 65536, len := 65536 }
    if s.waiting.any (fun e => decide (e.space = .main) && overlap e.addr e.bytes.length (u * 65536) 65536) then wait .accesses
    else if (s.preds .main (u * 65536) 65536 l.kind).any s.openIds.contains then wait .accesses
    else if s.engines.any (fun p => p.2.queue.any fun c => c.lines.any fun n => decide (n / 512 = u)) then wait .recall
    else
      match s.linkDown s.core.num unit.addr with
      | some k => trap 0x34 (word unit.addr) 0x47 k
      | none =>
        let s' ← s.fold [s.xl r]
        let (seen, s') ← s'.judge [s.xl t]
        let s' := s'.overtake false .main (u * 65536) 65536 l.kind
        if !seen then .ok { st := s'.supp }
        else if !bit (s.xv t) 0 then .ok { st := s'.killUnit u }
        else .ok { st := s'.wakeUnit u }

def execMlive (r t : BitVec 5) (s : State) := s.run (.mlive r t) (markLive r t)

/-! ### Local atomics (R247, R248) -/

/-- What an atomic computes: the new `w` bits from the old ones and x[rt]'s. -/
abbrev AmoFn := Nat → Nat → Nat → Nat

def amoAdd : AmoFn := fun w a b => (a + b) % 2 ^ w
def amoAnd : AmoFn := fun _ a b => Nat.land a b
def amoOr : AmoFn := fun _ a b => Nat.lor a b
def amoXor : AmoFn := fun _ a b => Nat.xor a b
def amoMin : AmoFn := fun w a b => if sgn w a ≤ sgn w b then a else b
def amoMax : AmoFn := fun w a b => if sgn w a ≤ sgn w b then b else a
def amoMinu : AmoFn := fun _ a b => Nat.min a b
def amoMaxu : AmoFn := fun _ a b => Nat.max a b
def amoSwap : AmoFn := fun _ _ b => b
def amoFadd : AmoFn := fun _ a b => fadd32 a b

/-- The function of an operation. -/
def AmoOp.fn : AmoOp → AmoFn
  | .add => amoAdd
  | .and => amoAnd
  | .or => amoOr
  | .xor => amoXor
  | .min => amoMin
  | .max => amoMax
  | .minu => amoMinu
  | .maxu => amoMaxu
  | .swap | .cas => amoSwap
  | .fadd => amoFadd

/-- What still holds an atomic: as a store and as a load of the strong kind (R129, R132, R248). -/
def State.holdsAtomic (s : State) (l : Loc) : Option WaitKind :=
  match s.holds l with
  | some k => some k
  | none => if (s.fenced false l.space l.addr).any s.openIds.contains then some .load else none

/-- The write of an atomic into its atom: under LAB = 1 the new handle is interned, NEVER writes nothing, and Bound and a full
table act as at the perform step of a store to part of an atom; under LAB = 0 the write needs visibility (R248, R341; log 62). -/
def State.amoWrite (s : State) (labelled : Bool) (addr : Nat) (bs : List Byte) (hs : List Handle) : Except Stop State := do
  let t := addr / 32
  if labelled then
    let s ← s.records (hs ++ [s.dep])
    match s.product s.die s.task.frame true (hs ++ [s.dep]) with
    | .error _ => .ok s.supp
    | .ok (h, s') => if h = never then .ok s.supp else .ok ((s'.putSpace .spm addr bs).putSide .spm t h)
  else
    let (seen, s) ← s.judge hs
    if seen then .ok ((s.putSpace .spm addr bs).putSide .spm t always) else .ok s.supp

/-- The perform step of an atomic of `w` bits at a place: the old value, extended, its label, and the state. `cas` writes only where the
old value equals the incoming x[rd] (R248). -/
def State.amoDo (s : State) (l : Loc) (op : AmoOp) (w : Nat) (sign : Bool) (opd expected : XReg) (noRd : Bool) :
    Except Stop (Word × Handle × State) := do
  let (bs, ls, s) ← s.readGranule l l.addr (w / 8)
  let old := leNat bs
  let cas := decide (op = .cas)
  let new := op.fn w old (opd.val.toNat % 2 ^ w)
  let hs := ls ++ [opd.lbl] ++ (if cas then [expected.lbl] else [])
  let s ← (if cas && decide (old ≠ expected.val.toNat % 2 ^ w) then .ok s
           else s.amoWrite l.labelled l.addr (leBytes (w / 8) new) hs)
  let (h, s) ← (if noRd then .ok (always, s) else s.prod (ls ++ [s.dep]))
  .ok (if sign then wrap64 (sgn w old) else word old, h, s)

/-- The perform step of `st.dh`: the data is written and a dormant context of the owner taken (R102, R243). Labels cross dies as
visibility (R27), tested in the CTX of the entry's issue (R126). Where nothing is labelled the test has been made, once for the data and the
context. -/
def State.handlerDo (s : State) (e : SbEntry) (hs : List Handle) (pc : Nat) (prio : BitVec 4) : Except Stop State := do
  let owner := e.addr / 65536
  let cross := decide (dieOf owner ≠ s.die)
  let labelled := (s.coreAt owner).regs.lab
  let s ← s.records (hs ++ [s.dep])
  let seen := s.visible s.die s.task.frame (s.rawProduct s.die s.task.frame (hs ++ [s.dep])) e.ctx
  if (cross || !labelled) && !seen then .ok s.supp
  else
    let (h, s) ← (if cross then .ok (always, s) else s.prod (hs ++ [s.dep]))
    let s := s.applyStore { e with lbls := if labelled then [h] else [] }
    .ok (s.addDormant owner {
      pc := pc, frame := e.frame, dep := h, prio := prio
      addr := word (e.addr % 65536), count := e.bytes.length, src := e.core })

/-- The owner of a scratchpad refuses an access as it performs: the link to it is down, its frame is another, no window admits it, or no
dormant context is free (R98, R100, R102, R351, R360). An access that it has admitted completes whatever becomes of the window (R101). -/
def State.ownerRefuses (s : State) (e : SbEntry) (a : Asked) : Option Trap :=
  let owner := e.addr / 65536
  let k := s.coreAt owner
  match s.linkAcross e.core owner with
  | some n => some { cause := 0x34, val := word (physReport .spm (e.addr / 32)), d5 := 0x47, d6 := word n }
  | none =>
    if k.regs.lab && decide (k.regs.frm ≠ e.frame) then
      some { cause := 0x18, val := a.ea, d5 := word e.frame.toNat, d6 := word k.regs.frm.toNat }
    else
      match (if owner = e.core || a.admitted then none else s.windowRefusal owner a.first a.last e.right (some e.core)) with
      | some r => some { cause := 0x31, val := a.ea, d5 := word owner, d6 := word r }
      | none =>
        if decide (e.right = .handler) && decide (4 ≤ k.dorm.length) then
          some { cause := 0x31, val := a.ea, d5 := word owner, d6 := 3 }
        else none

/-- The perform step of an entry of the acting stream that is answered: the value and label of the answer, and the state with the labels
of the address in DEP (R126, R248, R351). -/
def State.askDo (s : State) (e : SbEntry) (a : Asked) : Except Stop (Word × Handle × State) := do
  match (if e.space = .spm then s.ownerRefuses e a else none) with
  | some t => .error (.trap t)
  | none =>
    let s ← s.fold a.fold
    let labelled := if e.space = .spm then (s.coreAt (e.addr / 65536)).regs.lab else e.labelled
    match a.want with
    | .store =>
      let s ← (if labelled then .ok s else s.records e.lbls)
      .ok (0, if a.forms then e.lbls.headD always else always, s.applyStore e)
    | .handler pc prio =>
      let s ← s.handlerDo e e.lbls pc prio
      .ok (0, always, s)
    | .amo op w sign opd expected noRd =>
      s.amoDo {
        space := .spm, addr := e.addr, len := w / 8, ea := a.ea.toNat, kind := 0, labelled := labelled
        frm := e.frame, cache := false, owner := e.addr / 65536, remote := none } op w sign opd expected noRd

/-- Another entry of an instruction of which one has performed: DEP has taken the address's labels, and where it belongs to the same access,
the owner has admitted it (R67, R101). -/
def SbEntry.after (a : Asked) (x : SbEntry) : SbEntry :=
  { x with ask := x.ask.map fun b => { b with fold := [], admitted := b.admitted || decide (b.acc = a.acc) } }

/-- An entry that is answered performs: the party has its answer with the last one, or the trap, which withdraws the others (R351). -/
def State.askPerform (s : State) (e : SbEntry) (a : Asked) : State :=
  let w : Party := ⟨e.core, e.uid, e.stream⟩
  let mine := fun (x : SbEntry) => decide (x.core = e.core ∧ x.uid = e.uid ∧ x.stream = e.stream) && x.ask.isSome
  let on := fun (x : SbEntry) => if mine x then x.after a else x
  let s1 := match (s.focus e.core e.stream).askDo e a with
    | .ok (v, h, s') =>
      if s'.waiting.any mine then { s' with inbound := s'.inbound.map on, core := { s'.core with sb := s'.core.sb.map on } }
      else s'.answer w (.value v h s'.strm.dep)
    | .error (.trap t) =>
      let s' := s.focus e.core e.stream
      { s' with inbound := s'.inbound.filter fun x => !mine x
                core := { s'.core with sb := s'.core.sb.filter fun x => !mine x } }.answerTrap w (s.found (dieOf e.core) e.frame t)
    | .error _ => s
  s1.focus s.core.num s.actStream

/-- The perform step of a store or an atomic. -/
def State.applyEntry (s : State) (e : SbEntry) : State :=
  match e.ask with
  | none => s.applyStore e
  | some a => s.askPerform e a

/-- Element `i` of the inbound queues performs (R126). -/
def State.perform (s : State) (i : Nat) : State := s.performBy i State.applyEntry

/-- An access of one granule to scratchpad that performs at once, or is issued and answered where the schedule says so: a store into the
store buffer, an atomic, once nothing holds it, into its home's queue (R126, R248, R351). -/
def State.single (s : State) (l : Loc) (want : Want) (fold hs : List Handle) (bs : List Byte)
    (held : Option WaitKind) : Except Stop (Word × Handle × State) :=
  match s.cutOff l with
  | some t => .error (.trap t)
  | none =>
    let a := l.asks want fold false s.nextId
    let s1 := (s.accessed (decide (a.right = .atomic)) l).accessed false l
    let issued := ({ s1 with nextId := s1.nextId + 1 } : State).modStrm fun x => { x with asks := true }
    let e := s1.entry l l.addr bs (hs ++ s.dep :: fold) [] none (some a)
    if s.defer && decide (a.right ≠ .atomic) then
      waitAs .accesses { issued with core := { issued.core with sb := issued.core.sb ++ [e] } }
    else match held with
      | some k => wait k
      | none =>
        if s.defer then waitAs .accesses { issued with inbound := issued.inbound ++ [e] }
        else s1.askDo (s1.entry l l.addr bs hs [] none (some a)) a

/-- `st.dh`: the data and, with it, an arrival handler; refused whole when no dormant context is free (R102, R243, R351). Issued as a store
(R126), it performs at its home. -/
def storeHandler (t r : BitVec 5) (i : BitVec 12) : Body := fun s => s.asked (fun _ _ s => .ok { st := s }) fun s => do
  let a := s.xv r
  aligned a 8
  scratchOnly a
  let l ← s.resolveOne .handler a 8
  let (_, _, s') ← s.single l (.handler (i.toNat * 16) s.task.prio) [s.xl r] [s.xl t] (bytesOf (s.xv t))
    (if 4 ≤ (s.coreAt l.owner).dorm.length then none else s.holds l)
  .ok { st := s' }

def execStDh (t r : BitVec 5) (i : BitVec 12) (s : State) := s.run (.stDh t r i) (storeHandler t r i)

/-- A local atomic of `w` bits (R248). -/
def amo (w : Nat) (sign : Bool) (op : AmoOp) (d r t : BitVec 5) : Body := fun s =>
  s.asked (fun v h s => .ok { st := s.putX d ⟨v, h⟩ }) fun s => do
    let a := s.xv r
    aligned a (w / 8)
    scratchOnly a
    let l ← s.resolveOne .atomic a (w / 8)
    let (v, h, s') ← s.single l (.amo op w sign (s.x t) (s.x d) (decide (d = 0))) [s.xl r] [] (List.replicate (w / 8) 0)
      (s.holdsAtomic l)
    .ok { st := s'.putX d ⟨v, h⟩ }

def execAmoAddD (d r t : BitVec 5) (s : State) := s.run (.amoAddD d r t) (amo 64 false .add d r t)
def execAmoAndD (d r t : BitVec 5) (s : State) := s.run (.amoAndD d r t) (amo 64 false .and d r t)
def execAmoOrD (d r t : BitVec 5) (s : State) := s.run (.amoOrD d r t) (amo 64 false .or d r t)
def execAmoXorD (d r t : BitVec 5) (s : State) := s.run (.amoXorD d r t) (amo 64 false .xor d r t)
def execAmoMinD (d r t : BitVec 5) (s : State) := s.run (.amoMinD d r t) (amo 64 false .min d r t)
def execAmoMaxD (d r t : BitVec 5) (s : State) := s.run (.amoMaxD d r t) (amo 64 false .max d r t)
def execAmoSwapD (d r t : BitVec 5) (s : State) := s.run (.amoSwapD d r t) (amo 64 false .swap d r t)
def execAmoCasD (d r t : BitVec 5) (s : State) := s.run (.amoCasD d r t) (amo 64 false .cas d r t)
def execAmoAddW (d r t : BitVec 5) (s : State) := s.run (.amoAddW d r t) (amo 32 true .add d r t)
def execAmoAndW (d r t : BitVec 5) (s : State) := s.run (.amoAndW d r t) (amo 32 true .and d r t)
def execAmoOrW (d r t : BitVec 5) (s : State) := s.run (.amoOrW d r t) (amo 32 true .or d r t)
def execAmoXorW (d r t : BitVec 5) (s : State) := s.run (.amoXorW d r t) (amo 32 true .xor d r t)
def execAmoMinW (d r t : BitVec 5) (s : State) := s.run (.amoMinW d r t) (amo 32 true .min d r t)
def execAmoMaxW (d r t : BitVec 5) (s : State) := s.run (.amoMaxW d r t) (amo 32 true .max d r t)
def execAmoSwapW (d r t : BitVec 5) (s : State) := s.run (.amoSwapW d r t) (amo 32 true .swap d r t)
def execAmoCasW (d r t : BitVec 5) (s : State) := s.run (.amoCasW d r t) (amo 32 true .cas d r t)
def execAmoMinuD (d r t : BitVec 5) (s : State) := s.run (.amoMinuD d r t) (amo 64 false .minu d r t)
def execAmoMaxuD (d r t : BitVec 5) (s : State) := s.run (.amoMaxuD d r t) (amo 64 false .maxu d r t)
def execAmoMinuW (d r t : BitVec 5) (s : State) := s.run (.amoMinuW d r t) (amo 32 false .minu d r t)
def execAmoMaxuW (d r t : BitVec 5) (s : State) := s.run (.amoMaxuW d r t) (amo 32 false .maxu d r t)
def execAmoFadd (d r t : BitVec 5) (s : State) := s.run (.amoFadd d r t) (amo 32 false .fadd d r t)

/-! ### The 16-bit forms (R206, R237) -/

def execCAddi (d : BitVec 5) (i : BitVec 6) (s : State) := s.run (.cAddi d i) (unOp (fun a => a + simm i) d d)
def execCSet (d : BitVec 5) (i : BitVec 6) (s : State) := s.run (.cSet d i) (unOp (fun a => a + simm i) d 0)
def execCMv (d r : BitVec 5) (s : State) := s.run (.cMv d r) (unOp (fun a => a) d r)
def execCAdd (d r : BitVec 5) (s : State) := s.run (.cAdd d r) (binOp (fun a b => a + b) d d r)
def execCSub (d r : BitVec 5) (s : State) := s.run (.cSub d r) (binOp (fun a b => a - b) d d r)
def execCAnd (d r : BitVec 5) (s : State) := s.run (.cAnd d r) (binOp (fun a b => a &&& b) d d r)
def execCOr (d r : BitVec 5) (s : State) := s.run (.cOr d r) (binOp (fun a b => a ||| b) d d r)
def execCXor (d r : BitVec 5) (s : State) := s.run (.cXor d r) (binOp (fun a b => a ^^^ b) d d r)
def execCSlli (d : BitVec 5) (n : BitVec 6) (s : State) := s.run (.cSlli d n) (unOp (fun a => a <<< n.toNat) d d)
def execCSrli (d : BitVec 5) (n : BitVec 6) (s : State) := s.run (.cSrli d n) (unOp (fun a => a >>> n.toNat) d d)
def execCLdD (d r : BitVec 3) (o : BitVec 5) (s : State) :=
  s.run (.cLdD d r o) (loadX 8 zextBytes (creg d) (creg r) (word (8 * o.toNat)))
def execCStD (d r : BitVec 3) (o : BitVec 5) (s : State) :=
  s.run (.cStD d r o) (storeX 8 (creg d) (creg r) (word (8 * o.toNat)))
def execCLdW (d r : BitVec 3) (o : BitVec 5) (s : State) :=
  s.run (.cLdW d r o) (loadX 4 sextBytes (creg d) (creg r) (word (4 * o.toNat)))
def execCStW (d r : BitVec 3) (o : BitVec 5) (s : State) :=
  s.run (.cStW d r o) (storeX 4 (creg d) (creg r) (word (4 * o.toNat)))
def execCBz (r : BitVec 3) (o : BitVec 8) (s : State) := s.run (.cBz r o) (branch (fun a b => decide (a = b)) 0 (creg r) o)
def execCBnz (r : BitVec 3) (o : BitVec 8) (s : State) := s.run (.cBnz r o) (branch (fun a b => decide (a ≠ b)) 0 (creg r) o)
def execCJump (o : BitVec 11) (s : State) := s.run (.cJump o) (jumpTo 0 o)
def execCNop (s : State) := s.run .cNop (fun s => .ok { st := s })
def execCTaskEnd (s : State) := s.run .cTaskEnd taskEnds

end

end Sys2Proof.Machine
end

