-- ==== Sys2Proof/Machine/Vector.lean ====
section
/-!
DEFINITION. Majors 0x16, 0x17 and 0x18: vector memory, vector integer and vector floating forms (R264-R272).
-/

namespace Sys2Proof.Machine

/-! ### Lanes under a mask (R264, R265) -/

/-- The mask's label where a mask governs (R265). -/
def State.kls (s : State) (k : BitVec 2) : List Handle := if k = 0 then [] else [s.kl k]

/-- The write covers each of `n` lanes (R265). -/
def State.covering (s : State) (k : BitVec 2) (n : Nat) : Bool := decide (k = 0) || (upto n).all (s.enabled k)

/-- v[d] takes lanes of width `w`, under the label of R265; a load's is the one its granules found (R127). -/
def State.putLanes (s : State) (d : BitVec 5) (full : Bool) (w : Nat) (ls : List Nat) (hs : List Handle) : Except Stop State := do
  let (h, s') ← s.prodLoaded ((if full then hs else (s.v d).lbl :: hs) ++ [s.dep])
  .ok (s'.putV d ⟨ofLanes w ls, h⟩)

/-- The lanes of v[d], those enabled replaced by `f` of their index. -/
def State.blend (s : State) (d : BitVec 5) (w : Nat) (k : BitVec 2) (f : Nat → Nat) : List Nat :=
  (lanes w (s.v d).val).zipIdx.map fun p => if s.enabled k p.2 then f p.2 else p.1

/-- k[c] takes a value under W (R265, R271). -/
def State.writeK (s : State) (c : BitVec 2) (v : Word) (hs : List Handle) : Except Stop State := do
  let (h, s') ← s.prod (hs ++ [s.dep])
  .ok (s'.putK c ⟨v, h⟩)

/-- Truth values as the low bits of a dword. -/
def maskOf (bs : List Bool) : Word := word (pack 1 (bs.map fun b => if b then 1 else 0))

/-! ### Vector memory (R267-R269) -/

/-- An element of a vector access: its address and its bytes. -/
abbrev Elem := Word × Nat

/-- The checks of every enabled element, in ascending order, before any access (R268, R349). -/
def State.checkElems (s : State) (acc : Acc) (al : Bool) : List Elem → Except Stop (List (List Loc))
  | [] => .ok []
  | (a, n) :: es => do
    if al then aligned a n
    let ls ← s.resolve acc a n
    let rest ← s.checkElems acc al es
    .ok (ls :: rest)

/-- The elements' loads in ascending order, with the labels of their atoms (R269). -/
def State.loadElems (s : State) (used : Nat) : List (List Loc) → Except Stop (List (List Byte) × List Handle × State)
  | [] => .ok ([], [], s)
  | ls :: rest => do
    let (b, h, s) ← s.loadLocs used ls
    let taken := (ls.filter fun l => l.remote.isSome).foldl (fun n l => n + l.len) used
    let (bs, hs, s) ← s.loadElems taken rest
    .ok (b :: bs, h ++ hs, s)

/-- How a vector memory form forms its element addresses. -/
inductive Pattern where
  /-- Consecutive elements: `vld`, `vst`. -/
  | unit
  /-- A stride in x[rt]: `vlds`, `vsts`. -/
  | stride (t : BitVec 5)
  /-- Indices in v[rt]: `vgth`, `vsct`. -/
  | index (t : BitVec 5)
  /-- One element: `vbc`. -/
  | splat
  deriving DecidableEq, Repr

/-- The labels that a form folds into DEP (R268). -/
def State.patternLabels (s : State) (p : Pattern) (r : BitVec 5) : List Handle :=
  s.xl r :: match p with
    | .stride t => [s.xl t]
    | .index t => [(s.v t).lbl]
    | .unit | .splat => []

/-- The address of element `i` of `b` bytes (R267). -/
def State.elemAddr (s : State) (p : Pattern) (base : Word) (b i : Nat) : Word :=
  match p with
  | .unit => base + word (i * b)
  | .stride t => base + word i * s.xv t
  | .index t => base + word ((lanes 32 (s.v t).val).getD i 0 * b)
  | .splat => base

/-- The elements of a form in ascending order: all 64 bytes at once for `vld` and `vst` under k0 (R268). -/
def State.elems (s : State) (p : Pattern) (base : Word) (w : Nat) (k : BitVec 2) : List Elem :=
  let on := s.lanesOn k (512 / w)
  match p with
  | .unit => if k = 0 then [(base, 64)] else on.map fun i => (s.elemAddr p base (w / 8) i, w / 8)
  | .splat => if on = [] then [] else [(base, w / 8)]
  | _ => on.map fun i => (s.elemAddr p base (w / 8) i, w / 8)

/-- A vector load at x[rs] + off; `off` is the base step of `rep.run` (R176, R268). -/
def vecLoad (p : Pattern) (d r : BitVec 5) (e k : BitVec 2) (off : Word) : Body := fun s => do
  let w := eltBits e
  let base := s.xv r + off
  if p = .unit then aligned base 64
  let es := s.elems p base w k
  let ls ← s.checkElems .load (p != .unit) es
  let (bs, hs, s') ← s.loadElems 0 ls
  let s' ← s'.fold (s.patternLabels p r)
  let vals := if p = .unit && decide (k = 0) then lanes w (BitVec.ofNat 512 (leNat bs.flatten)) else bs.map leNat
  let on := s.lanesOn k (512 / w)
  let at' := fun i => if p = .splat then vals.headD 0 else vals.getD (on.idxOf i) 0
  let s' ← s'.putLanes d (decide (k = 0)) w (s'.blend d w k at') (hs ++ s.kls k)
  .ok { st := s' }

/-- A vector store of v[data] at x[rs] + off (R268). -/
def vecStore (p : Pattern) (v r : BitVec 5) (e k : BitVec 2) (off : Word) : Body := fun s => s.asked (fun _ _ s => .ok { st := s }) fun s => do
  let w := eltBits e
  let base := s.xv r + off
  if p = .unit then aligned base 64
  let es := s.elems p base w k
  let ls ← s.checkElems .store (p != .unit) es
  let data := lanes w (s.v v).val
  let bs := if p = .unit && decide (k = 0) then [leBytes 64 (s.v v).val.toNat]
    else (s.lanesOn k (512 / w)).map fun i => leBytes (w / 8) (data.getD i 0)
  let (_, s') ← s.stores (s.patternLabels p r) false ((s.v v).lbl :: s.kls k) (bs.zip ls)
  .ok { st := s' }

noncomputable section

def execVld (d r : BitVec 5) (e k : BitVec 2) (s : State) := s.run (.vld d r e k) (vecLoad .unit d r e k 0)
def execVst (r t : BitVec 5) (e k : BitVec 2) (s : State) := s.run (.vst r t e k) (vecStore .unit t r e k 0)
def execVlds (d r t : BitVec 5) (e k : BitVec 2) (s : State) := s.run (.vlds d r t e k) (vecLoad (.stride t) d r e k 0)
def execVsts (d r t : BitVec 5) (e k : BitVec 2) (s : State) := s.run (.vsts d r t e k) (vecStore (.stride t) d r e k 0)
def execVgth (d r t : BitVec 5) (e k : BitVec 2) (s : State) := s.run (.vgth d r t e k) (vecLoad (.index t) d r e k 0)
def execVsct (d r t : BitVec 5) (e k : BitVec 2) (s : State) := s.run (.vsct d r t e k) (vecStore (.index t) d r e k 0)
def execVbc (d r : BitVec 5) (e k : BitVec 2) (s : State) := s.run (.vbc d r e k) (vecLoad .splat d r e k 0)

end

/-! ### Vector integer (R270, R271) -/

/-- A two-operand lane function of width `w`. -/
abbrev LaneFn := Nat → Nat → Nat → Nat

/-- A lane operation on v[rs] and v[rt] (R264, R265). -/
def vecBin (f : LaneFn) (w : Nat) (d r t : BitVec 5) (k : BitVec 2) : Body := fun s => do
  let a := lanes w (s.v r).val
  let b := lanes w (s.v t).val
  let s' ← s.putLanes d (s.covering k (512 / w)) w (s.blend d w k fun i => f w (a.getD i 0) (b.getD i 0))
    ([(s.v r).lbl, (s.v t).lbl] ++ s.kls k)
  .ok { st := s' }

/-- A lane operation on v[rs]. -/
def vecUn (f : Nat → Nat) (w : Nat) (d r : BitVec 5) (k : BitVec 2) : Body := fun s => do
  let a := lanes w (s.v r).val
  let s' ← s.putLanes d (s.covering k (512 / w)) w (s.blend d w k fun i => f (a.getD i 0)) ((s.v r).lbl :: s.kls k)
  .ok { st := s' }

/-- A lane compare into a mask register: disabled lanes and the bits past the lanes are 0 (R271). -/
def vecCmp (f : Nat → Nat → Bool) (w : Nat) (c : BitVec 2) (r t : BitVec 5) (k : BitVec 2) : Body := fun s => do
  let a := lanes w (s.v r).val
  let b := lanes w (s.v t).val
  let m := maskOf ((upto (512 / w)).map fun i => s.enabled k i && f (a.getD i 0) (b.getD i 0))
  let s' ← s.writeK c m ([(s.v r).lbl, (s.v t).lbl] ++ s.kls k)
  .ok { st := s' }

def laneAdd : LaneFn := fun w a b => (a + b) % 2 ^ w
def laneSub : LaneFn := fun w a b => (a + 2 ^ w - b) % 2 ^ w
def laneMul : LaneFn := fun w a b => a * b % 2 ^ w
def laneMulh : LaneFn := fun w a b => wrap w ((sgn w a * sgn w b).fdiv (2 ^ w : Nat))
def laneMin : LaneFn := fun w a b => if sgn w a ≤ sgn w b then a else b
def laneMax : LaneFn := fun w a b => if sgn w a < sgn w b then b else a
def laneMinu : LaneFn := fun _ a b => min a b
def laneMaxu : LaneFn := fun _ a b => max a b
def laneAdds : LaneFn := fun w a b => wrap w (sat (sgn w a + sgn w b) (-(2 ^ (w - 1) : Nat)) ((2 ^ (w - 1) : Nat) - 1))
def laneAddus : LaneFn := fun w a b => min (a + b) (2 ^ w - 1)
def laneSubs : LaneFn := fun w a b => wrap w (sat (sgn w a - sgn w b) (-(2 ^ (w - 1) : Nat)) ((2 ^ (w - 1) : Nat) - 1))
def laneSubus : LaneFn := fun _ a b => a - b
def laneAnd : LaneFn := fun _ a b => Nat.land a b
def laneOr : LaneFn := fun _ a b => Nat.lor a b
def laneXor : LaneFn := fun _ a b => Nat.xor a b
def laneAndn : LaneFn := fun w a b => Nat.land a (2 ^ w - 1 - b)
def laneSll : LaneFn := fun w a b => a * 2 ^ (b % w) % 2 ^ w
def laneSrl : LaneFn := fun w a b => a / 2 ^ (b % w)
def laneSra : LaneFn := fun w a b => wrap w ((sgn w a).fdiv (2 ^ (b % w) : Nat))

/-- `vsplat` (R271). -/
def vecSplat (d r : BitVec 5) (e k : BitVec 2) : Body := fun s => do
  let w := eltBits e
  let x := (s.xv r).toNat % 2 ^ w
  let s' ← s.putLanes d (s.covering k (512 / w)) w (s.blend d w k fun _ => x) (s.xl r :: s.kls k)
  .ok { st := s' }

/-- `vext` (R271). -/
def vecExtract (d r t : BitVec 5) (e : BitVec 2) : Body := fun s => do
  let w := eltBits e
  let x := (lanes w (s.v r).val).getD ((s.xv t).toNat % (512 / w)) 0
  let s' ← s.writeX d (wrap64 (sgn w x)) [(s.v r).lbl, s.xl t]
  .ok { st := s' }

/-- `vins`: a partial write (R265, R271). -/
def vecInsert (d r t : BitVec 5) (e : BitVec 2) : Body := fun s => do
  let w := eltBits e
  let ls := (lanes w (s.v d).val).set ((s.xv t).toNat % (512 / w)) ((s.xv r).toNat % 2 ^ w)
  let s' ← s.putLanes d false w ls [s.xl r, s.xl t]
  .ok { st := s' }

noncomputable section

def execVadd (d r t : BitVec 5) (e k : BitVec 2) (s : State) := s.run (.vadd d r t e k) (vecBin laneAdd (eltBits e) d r t k)
def execVsub (d r t : BitVec 5) (e k : BitVec 2) (s : State) := s.run (.vsub d r t e k) (vecBin laneSub (eltBits e) d r t k)
def execVmul (d r t : BitVec 5) (e k : BitVec 2) (s : State) := s.run (.vmul d r t e k) (vecBin laneMul (eltBits e) d r t k)
def execVmulh (d r t : BitVec 5) (e k : BitVec 2) (s : State) := s.run (.vmulh d r t e k) (vecBin laneMulh (eltBits e) d r t k)
def execVmin (d r t : BitVec 5) (e k : BitVec 2) (s : State) := s.run (.vmin d r t e k) (vecBin laneMin (eltBits e) d r t k)
def execVmax (d r t : BitVec 5) (e k : BitVec 2) (s : State) := s.run (.vmax d r t e k) (vecBin laneMax (eltBits e) d r t k)
def execVminu (d r t : BitVec 5) (e k : BitVec 2) (s : State) := s.run (.vminu d r t e k) (vecBin laneMinu (eltBits e) d r t k)
def execVmaxu (d r t : BitVec 5) (e k : BitVec 2) (s : State) := s.run (.vmaxu d r t e k) (vecBin laneMaxu (eltBits e) d r t k)
def execVadds (d r t : BitVec 5) (e k : BitVec 2) (s : State) := s.run (.vadds d r t e k) (vecBin laneAdds (eltBits e) d r t k)
def execVaddus (d r t : BitVec 5) (e k : BitVec 2) (s : State) := s.run (.vaddus d r t e k) (vecBin laneAddus (eltBits e) d r t k)
def execVsubs (d r t : BitVec 5) (e k : BitVec 2) (s : State) := s.run (.vsubs d r t e k) (vecBin laneSubs (eltBits e) d r t k)
def execVsubus (d r t : BitVec 5) (e k : BitVec 2) (s : State) := s.run (.vsubus d r t e k) (vecBin laneSubus (eltBits e) d r t k)
def execVand (d r t : BitVec 5) (e k : BitVec 2) (s : State) := s.run (.vand d r t e k) (vecBin laneAnd (eltBits e) d r t k)
def execVor (d r t : BitVec 5) (e k : BitVec 2) (s : State) := s.run (.vor d r t e k) (vecBin laneOr (eltBits e) d r t k)
def execVxor (d r t : BitVec 5) (e k : BitVec 2) (s : State) := s.run (.vxor d r t e k) (vecBin laneXor (eltBits e) d r t k)
def execVandn (d r t : BitVec 5) (e k : BitVec 2) (s : State) := s.run (.vandn d r t e k) (vecBin laneAndn (eltBits e) d r t k)
def execVsll (d r t : BitVec 5) (e k : BitVec 2) (s : State) := s.run (.vsll d r t e k) (vecBin laneSll (eltBits e) d r t k)
def execVsrl (d r t : BitVec 5) (e k : BitVec 2) (s : State) := s.run (.vsrl d r t e k) (vecBin laneSrl (eltBits e) d r t k)
def execVsra (d r t : BitVec 5) (e k : BitVec 2) (s : State) := s.run (.vsra d r t e k) (vecBin laneSra (eltBits e) d r t k)

/-- a = b. -/
def cmpEq : Nat → Nat → Nat → Bool := fun _ a b => decide (a = b)
/-- a ≠ b. -/
def cmpNe : Nat → Nat → Nat → Bool := fun _ a b => decide (a ≠ b)
/-- a < b, signed. -/
def cmpLt : Nat → Nat → Nat → Bool := fun w a b => decide (sgn w a < sgn w b)
/-- a ≥ b, signed. -/
def cmpGe : Nat → Nat → Nat → Bool := fun w a b => decide (sgn w b ≤ sgn w a)
/-- a < b, unsigned. -/
def cmpLtu : Nat → Nat → Nat → Bool := fun _ a b => decide (a < b)
/-- a ≥ b, unsigned. -/
def cmpGeu : Nat → Nat → Nat → Bool := fun _ a b => decide (b ≤ a)

def execVcmpEq (c : BitVec 2) (r t : BitVec 5) (e k : BitVec 2) (s : State) :=
  s.run (.vcmpEq c r t e k) (vecCmp (cmpEq (eltBits e)) (eltBits e) c r t k)
def execVcmpNe (c : BitVec 2) (r t : BitVec 5) (e k : BitVec 2) (s : State) :=
  s.run (.vcmpNe c r t e k) (vecCmp (cmpNe (eltBits e)) (eltBits e) c r t k)
def execVcmpLt (c : BitVec 2) (r t : BitVec 5) (e k : BitVec 2) (s : State) :=
  s.run (.vcmpLt c r t e k) (vecCmp (cmpLt (eltBits e)) (eltBits e) c r t k)
def execVcmpGe (c : BitVec 2) (r t : BitVec 5) (e k : BitVec 2) (s : State) :=
  s.run (.vcmpGe c r t e k) (vecCmp (cmpGe (eltBits e)) (eltBits e) c r t k)
def execVcmpLtu (c : BitVec 2) (r t : BitVec 5) (e k : BitVec 2) (s : State) :=
  s.run (.vcmpLtu c r t e k) (vecCmp (cmpLtu (eltBits e)) (eltBits e) c r t k)
def execVcmpGeu (c : BitVec 2) (r t : BitVec 5) (e k : BitVec 2) (s : State) :=
  s.run (.vcmpGeu c r t e k) (vecCmp (cmpGeu (eltBits e)) (eltBits e) c r t k)
def execVsplat (d r : BitVec 5) (e k : BitVec 2) (s : State) := s.run (.vsplat d r e k) (vecSplat d r e k)
def execVext (d r t : BitVec 5) (e : BitVec 2) (s : State) := s.run (.vext d r t e) (vecExtract d r t e)
def execVins (d r t : BitVec 5) (e : BitVec 2) (s : State) := s.run (.vins d r t e) (vecInsert d r t e)
def execVmv (d r : BitVec 5) (e k : BitVec 2) (s : State) := s.run (.vmv d r e k) (vecUn (fun a => a) (eltBits e) d r k)

end

/-! ### Vector floating (R272) -/

/-- The format of FT (R264). -/
def ftFmt (e : BitVec 2) : Fmt := match e.toNat with | 0 => fp32 | 1 => fp16 | _ => bf16

/-- `vfma`, `vfnms`: v[rd] is a source as well (R272). -/
def vecFma (f : Nat → Nat → Nat → Nat) (w : Nat) (d r t : BitVec 5) (k : BitVec 2) : Body := fun s => do
  let a := lanes w (s.v r).val
  let b := lanes w (s.v t).val
  let c := lanes w (s.v d).val
  let s' ← s.putLanes d (s.covering k (512 / w)) w (s.blend d w k fun i => f (c.getD i 0) (a.getD i 0) (b.getD i 0))
    ([(s.v d).lbl, (s.v r).lbl, (s.v t).lbl] ++ s.kls k)
  .ok { st := s' }

noncomputable section

def execVfadd (d r t : BitVec 5) (e k : BitVec 2) (s : State) :=
  s.run (.vfadd d r t e k) (vecBin (fun _ => (ftFmt e).add) (ftFmt e).width d r t k)
def execVfsub (d r t : BitVec 5) (e k : BitVec 2) (s : State) :=
  s.run (.vfsub d r t e k) (vecBin (fun _ => (ftFmt e).sub) (ftFmt e).width d r t k)
def execVfmul (d r t : BitVec 5) (e k : BitVec 2) (s : State) :=
  s.run (.vfmul d r t e k) (vecBin (fun _ => (ftFmt e).mul) (ftFmt e).width d r t k)
def execVfdiv (d r t : BitVec 5) (e k : BitVec 2) (s : State) :=
  s.run (.vfdiv d r t e k) (vecBin (fun _ => (ftFmt e).div) (ftFmt e).width d r t k)
def execVfmin (d r t : BitVec 5) (e k : BitVec 2) (s : State) :=
  s.run (.vfmin d r t e k) (vecBin (fun _ => (ftFmt e).min) (ftFmt e).width d r t k)
def execVfmax (d r t : BitVec 5) (e k : BitVec 2) (s : State) :=
  s.run (.vfmax d r t e k) (vecBin (fun _ => (ftFmt e).max) (ftFmt e).width d r t k)
def execVfsqrt (d r : BitVec 5) (e k : BitVec 2) (s : State) :=
  s.run (.vfsqrt d r e k) (vecUn (ftFmt e).sqrt (ftFmt e).width d r k)
def execVfma (d r t : BitVec 5) (e k : BitVec 2) (s : State) :=
  s.run (.vfma d r t e k) (vecFma (ftFmt e).fma (ftFmt e).width d r t k)
def execVfnms (d r t : BitVec 5) (e k : BitVec 2) (s : State) :=
  s.run (.vfnms d r t e k) (vecFma (ftFmt e).fnms (ftFmt e).width d r t k)
def execVfcmpEq (c : BitVec 2) (r t : BitVec 5) (e k : BitVec 2) (s : State) :=
  s.run (.vfcmpEq c r t e k) (vecCmp (ftFmt e).eq (ftFmt e).width c r t k)
def execVfcmpLt (c : BitVec 2) (r t : BitVec 5) (e k : BitVec 2) (s : State) :=
  s.run (.vfcmpLt c r t e k) (vecCmp (ftFmt e).lt (ftFmt e).width c r t k)
def execVfcmpLe (c : BitVec 2) (r t : BitVec 5) (e k : BitVec 2) (s : State) :=
  s.run (.vfcmpLe c r t e k) (vecCmp (ftFmt e).le (ftFmt e).width c r t k)

end

end Sys2Proof.Machine
end

