-- ==== Sys2Proof/Machine/Acc.lean ====
section
/-!
DEFINITION. Major 0x1E: accumulator tiles (R160, R161, R285, R286).
-/

namespace Sys2Proof.Machine

/-- Row `r` of a tile (R286). -/
def AccReg.row (a : AccReg) (r : Nat) : Lanes := BitVec.ofNat 512 (a.cells.toNat / 2 ^ (512 * r))

/-- Row `r` of a tile replaced. -/
def AccReg.putRow (a : AccReg) (r : Nat) (v : Lanes) : AccReg :=
  { a with cells := BitVec.ofNat 8192 (a.cells.toNat - (a.row r).toNat * 2 ^ (512 * r) + v.toNat * 2 ^ (512 * r)) }

/-- A tile that a gang operation is writing makes the form wait (R161). -/
def State.tileFree (s : State) (n : BitVec 2) : Except Stop Unit := if (s.acc n).busy then wait .busy else .ok ()

/-- A form that reads the tile needs valid contents (R286). -/
def State.tileValid (s : State) (n : BitVec 2) : Except Stop Unit :=
  if (s.acc n).inv then trap 0x0F (word n.toNat) 0 (s.core.num % 16) else .ok ()

/-- `acc.ld` at x[rs] + off (R176, R286). -/
def accLoads (n : BitVec 2) (r : BitVec 5) (row : BitVec 4) (off : Word) : Body := fun s => do
  s.tileFree n
  s.tileValid n
  let a := s.xv r + off
  aligned a 64
  let (bs, hs, s') ← s.load a 64
  let s' ← s'.fold [s.xl r]
  let x := s.acc n
  let (h, s') ← s'.prodLoaded (x.lbl :: hs ++ [s'.dep])
  .ok { st := s'.putAcc n { x.putRow row.toNat (BitVec.ofNat 512 (leNat bs)) with lbl := h } }

/-- `acc.st` at x[rs] + off (R176, R286). -/
def accStores (n : BitVec 2) (r : BitVec 5) (row : BitVec 4) (off : Word) : Body := fun s => s.asked (fun _ _ s => .ok { st := s }) fun s => do
  s.tileFree n
  s.tileValid n
  let a := s.xv r + off
  aligned a 64
  let ls ← s.resolve .store a 64
  let (_, s') ← s.stores [s.xl r] false [(s.acc n).lbl] [(leBytes 64 ((s.acc n).row row.toNat).toNat, ls)]
  .ok { st := s' }

/-- Every cell of a tile takes one value (R286). -/
def accFills (n : BitVec 2) (v : State → Nat) (hs : State → List Handle) : Body := fun s => do
  s.tileFree n
  let (h, s') ← s.prod (hs s ++ [s.dep])
  let cells := BitVec.ofNat 8192 (pack 32 (List.replicate 256 (v s)))
  .ok { st := s'.putAcc n { s.acc n with cells := cells, lbl := h, inv := false } }

/-- `acc.tov` (R286). -/
def accToVec (n : BitVec 2) (v : BitVec 5) (row : BitVec 4) : Body := fun s => do
  s.tileFree n
  s.tileValid n
  let s' ← s.putLanes v true 32 (lanes 32 ((s.acc n).row row.toNat)) [(s.acc n).lbl]
  .ok { st := s' }

/-- `acc.fromv` (R286). -/
def accFromVec (n : BitVec 2) (v : BitVec 5) (row : BitVec 4) : Body := fun s => do
  s.tileFree n
  s.tileValid n
  let x := s.acc n
  let (h, s') ← s.prod [x.lbl, (s.v v).lbl, s.dep]
  .ok { st := s'.putAcc n { x.putRow row.toNat (s.v v).val with lbl := h } }

noncomputable section

def execAccLd (n : BitVec 2) (r : BitVec 5) (row : BitVec 4) (s : State) := s.run (.accLd n r row) (accLoads n r row 0)
def execAccSt (n : BitVec 2) (r : BitVec 5) (row : BitVec 4) (s : State) := s.run (.accSt n r row) (accStores n r row 0)
def execAccZero (n : BitVec 2) (s : State) := s.run (.accZero n) (accFills n (fun _ => 0) fun _ => [])
def execAccFill (n : BitVec 2) (r : BitVec 5) (s : State) :=
  s.run (.accFill n r) (accFills n (fun s => (s.xv r).toNat % 2 ^ 32) fun s => [s.xl r])
def execAccTov (n : BitVec 2) (v : BitVec 5) (row : BitVec 4) (s : State) := s.run (.accTov n v row) (accToVec n v row)
def execAccFromv (n : BitVec 2) (v : BitVec 5) (row : BitVec 4) (s : State) := s.run (.accFromv n v row) (accFromVec n v row)

end

end Sys2Proof.Machine
end

