-- ==== Sys2Proof/Machine/Launch.lean ====
section
/-!
DEFINITION. Major 0x14: launch records, target cores, barriers bound by levels, acceptance, armed records and completion
(R43-R50, R153, R255-R258, R319, R338).
-/

namespace Sys2Proof.Machine

/-! ### Launch records (R43-R45) -/

/-- Dword `i` of a record. -/
def recAt (rec : List Word) (i : Nat) : Word := rec.getD i 0

/-- A level descriptor (R44). -/
def levelOf (w : Word) : Level :=
  { domain := bits w 61 3, extent := bits w 53 8, origin := bits w 45 8, scope := bits w 42 3, bt := bit w 41
    tag := bits w 38 3, prio := bits w 34 4 }

/-- The number of levels. -/
def recLevels (rec : List Word) : Nat := bits (recAt rec 0) 52 4

/-- The levels of a record. -/
def levelsOf (rec : List Word) : List Level := (upto (recLevels rec)).map fun i => levelOf (recAt rec (8 + i))

/-- The cores of a unit of a domain. -/
def domainSize (d : Nat) : Nat :=
  match d with
  | 0 => 1
  | 1 => 4
  | 2 => 16
  | 3 => 64
  | 4 => 512
  | 5 => 2048
  | _ => 4096

/-- Conditions 2 to 5 of R45 on the levels from one upward. -/
def levelsOk : List Level → Bool
  | [] => true
  | l :: ls =>
    let above := (ls.head?.map (·.domain)).getD 6
    (match ls.head? with
      | some m => decide (l.domain < m.domain)
      | none => true)
    && decide (l.origin + l.extent + 1 ≤ domainSize above / domainSize l.domain)
    && (decide (l.domain ≠ 7) || decide (l.extent = 0 ∧ l.origin = 0)) && decide (l.domain ≤ l.scope) && levelsOk ls

/-- Conditions 1 to 6 of R45. -/
def recordOk (rec : List Word) : Bool :=
  let c := recAt rec 0
  let ls := levelsOf rec
  (decide (bits c 56 8 = 0xC9) || (decide (bits c 56 8 = 0) && ls.all fun l => !l.bt || decide (l.tag ≤ 3)))
    && decide (1 ≤ recLevels rec ∧ recLevels rec ≤ 8) && levelsOk ls
    && decide (bits c 17 2 = 0 ∧ bits c 0 16 = 0) && decide (bits (recAt rec 7) 16 48 = 0)
    && ((upto (recLevels rec)).all fun i => decide (bits (recAt rec (8 + i)) 0 34 = 0))
    && ((upto 15).all fun i => decide (recAt rec (17 + i) = 0)) && decide (bits c 46 6 ≠ 0)

/-- FRAME of a record. -/
def recFrame (rec : List Word) : BitVec 8 := BitVec.ofNat 8 (bits (recAt rec 0) 19 8)

/-- The units that levels select, level 0 varying fastest: first core and coordinates (R46). -/
def unitsOf : List Level → List (Nat × Nat)
  | [] => [(0, 0)]
  | l :: ls => (unitsOf ls).flatMap fun u => (upto (l.extent + 1)).map fun j =>
      (u.1 + (l.origin + j) * domainSize l.domain, u.2 * 256 + j)

/-- The target cores of a record with their coordinates, in sending order (R46). -/
def targetsOf (ls : List Level) : List (Nat × Nat) :=
  (unitsOf ls).flatMap fun u => (upto (domainSize ((ls.head?.map (·.domain)).getD 0))).map fun k => (u.1 + k, u.2)

/-! ### Barriers of a launch (R153) -/

/-- The levels that bind a tag: of several that name it, the lowest. -/
def binding : List Level → List Level
  | [] => []
  | l :: ls => if l.bt then l :: (binding ls).filter fun m => decide (m.tag ≠ l.tag) else binding ls

/-- The barriers that a launch of entry `e` binds: one for each unit of a binding level that holds target cores. -/
def barriersOf (e : Nat) (ls : List Level) (cores : List Nat) : List Barrier :=
  (binding ls).flatMap fun l =>
    let z := domainSize l.domain
    let us := (cores.map (· / z)).eraseDups
    us.map fun u => { entry := e, tag := l.tag, scope := l.scope, domain := l.domain, cores := cores.filter fun c => decide (c / z = u) }

/-- Two barriers of one tag stand over overlapping units (R48, status 3). -/
def Barrier.clash (a b : Barrier) : Bool :=
  let z := domainSize a.domain
  let y := domainSize b.domain
  decide (a.tag = b.tag) && overlap (a.cores.headD 0 / z * z) z (b.cores.headD 0 / y * y) y

/-- A tag of the record is held by a live launch over overlapping units. -/
def State.tagHeld (s : State) (bs : List Barrier) : Bool :=
  s.dies.toList.any fun d => d.barriers.any fun b => bs.any fun a => a.clash b

/-! ### Measurement of metered launches (R318, R319) -/

/-- The type and version of a statement (R315). -/
def statementHead (st : List Byte) : Word := wordOf ((st.drop 0x10).take 8)

/-- A statement's signature verifies under a key (R314). -/
def signedBy (key st : List Byte) : Bool := Config.edVerify key (Config.sha512 (st.take 0xC0)) ((st.drop 0xC0).take 64)

/-- A measurement statement that verifies under the image-signing key it names (R315, R318). -/
def State.measured (s : State) (st : List Byte) : Bool :=
  let key := Tab.get [] s.sec.keys (bits (wordOf ((st.drop 0x18).take 8)) 0 4)
  decide (bits (statementHead st) 56 8 = 3) && !key.isEmpty && signedBy key st

/-- MEAS of a measurement statement. -/
def measOf (st : List Byte) : List Byte := (st.drop 0x40).take 64

/-- A launch is metered: FRAME has METERED = 1 on a die that holds a target core (R319). -/
def State.meteredLaunch (s : State) (f : BitVec 8) (cores : List Nat) : Bool :=
  (upto 2).any fun d => (s.frameAt d f).metered && cores.any fun c => decide (dieOf c = d)

/-- The measurement check of a metered launch (R319). -/
def State.measureOk (s : State) (x : Xlate) (rec : List Word) (cores : List Nat) : Bool :=
  if recAt rec 16 = 0 then false
  else match s.vaBytes x (recAt rec 16).toNat 256 with
    | none => false
    | some st => s.measured st && cores.all fun c =>
        decide ((Tab.get ({} : Group) s.groups (groupOf c)).measure = measOf st)
          && (Tab.get {} (s.coreAt c).regs.rout (bits (recAt rec 0) 46 6)).attested

/-! ### Acceptance (R46-R48) -/

/-- The completion word as the launching party translates it: ill-formed, none, or its place (R45, condition 7). -/
def State.completionWord (s : State) (x : Xlate) (rec : List Word) : Option (Option (Nat × Bool)) :=
  let a := (recAt rec 1).toNat
  if a = 0 then some none
  else if a % 8 ≠ 0 then none
  else (s.place x true a).map some

/-- What judging a record reads beside it, by a party's translation: the walk to its completion word, and the measurement statement of a
metered launch; atoms of these with one bit in error are corrected (R319, R352). -/
def State.mendRecord (s : State) (x hit : Xlate) (base : Word) (rec : List Word) : State :=
  let cores := (targetsOf (levelsOf rec)).map (·.1)
  if !recordOk rec then s
  else
    let s := if recAt rec 1 = 0 then s else s.walksVa hit base (recAt rec 1).toNat 8
    if recAt rec 16 ≠ 0 && s.meteredLaunch (recFrame rec) cores then s.mendVa x hit base (recAt rec 16).toNat 256 else s

/-- The launch message to one target (R46). -/
def launchMsg (ref : LaunchRef) (rec : List Word) (t : Nat × Nat) : Msg :=
  let f := recFrame rec
  { hdr := header t.1 0x1FFE (bits (recAt rec 0) 46 6) ((ref.levels.head?.map (·.prio)).getD 0) 7 false f
      (BitVec.ofNat 16 (bits (recAt rec 7) 0 16))
    payload := [recAt rec 2, recAt rec 3, recAt rec 4, recAt rec 5, word t.2, ref.record, word ref.seq]
    launch := some (ref, f, recAt rec 6) }

/-- The two serving quadrants of reduced service hold the target cores (R304). -/
def State.served (s : State) (cores : List Nat) : Bool :=
  decide (s.host.phase ≠ 2) || cores.all fun c => decide (sgOf c / 8 % 4 = 0)

/-- A free entry of a die's pending-launch store, unless the passage to full service drains it (R304). -/
def State.freeEntry (s : State) (die : Nat) : Option Nat :=
  if s.host.closing then none else (upto 512).find? fun e => !(Tab.get {} (s.dieAt die).pending e).live

/-- The acceptance of a launch into entry `e` of die `die` (R46, R48, R153). -/
def State.accept (s : State) (die e : Nat) (rec : List Word) (addr : Word) (w : Option (Nat × Bool)) (land : Option Nat) : State :=
  let d := s.dieAt die
  let ls := levelsOf rec
  let ts := targetsOf ls
  let cores := ts.map (·.1)
  let ref : LaunchRef := {
    die := die, entry := e, seq := d.launchSeq, record := addr, fclass := bits (recAt rec 0) 40 6
    fcore := bits (recAt rec 0) 27 13, levels := ls }
  let p : Pending := { live := true, record := rec, addr := addr, seq := d.launchSeq, left := cores, cores := cores, word := w, land := land }
  let s := s.modDie die fun d => { d with
    pending := Tab.put {} d.pending e p, launchSeq := d.launchSeq + 1, barriers := d.barriers ++ barriersOf e ls cores }
  { s with channels := s.channels ++ ts.map (launchMsg ref rec) }

/-- The place of a launch in the order in which launches of one cycle reach a store: host service core `h`, network tag, core (R50). -/
def hostRank (h : Nat) : Nat := h
def tagRank (tag : BitVec 16) : Nat := 0x100 + tag.toNat
def coreRank (c : Nat) : Nat := 0x20000 + c

/-- No launch that comes later in that order has reached the store in this cycle. -/
def State.inTurn (s : State) (die rank : Nat) : Bool :=
  let t := (s.dieAt die).launchTurn
  decide (t.1 ≠ s.cycleOf die ∨ t.2 ≤ rank)

/-- A launch reaches the store. -/
def State.reaches (s : State) (die rank : Nat) : State := s.modDie die fun d => { d with launchTurn := (s.cycleOf die, rank) }

/-- A launch by a party with translation `x`: the status of R48 in the order of R256, and the state after it. -/
def State.tryLaunch (s : State) (die rank : Nat) (x : Xlate) (rec : List Word) (addr : Word) : Nat × State :=
  let ls := levelsOf rec
  match (if recordOk rec then s.completionWord x rec else none) with
  | none => (2, s)
  | some w =>
    let cores := (targetsOf ls).map (·.1)
    if !s.served cores then (2, s)
    else if s.meteredLaunch (recFrame rec) cores && !s.measureOk x rec cores then (4, s)
    else if s.tagHeld (barriersOf 0 ls cores) then (3, s)
    else match s.freeEntry die with
      | none => (1, s.reaches die rank)
      | some e => (0, (s.reaches die rank).accept die e rec addr w none)

/-- A die whose store or landing area a tag selects (R301). -/
def tagDie (tag : Nat) : Nat := if tag < 0x8000 then 0 else 1

/-- An arming with translation `x`: the status of R49 in the order of R257, and the state after it. -/
def State.tryArm (s : State) (tag : Nat) (x : Xlate) (rec : List Word) (addr : Word) : Nat × State :=
  let d := s.dieAt (tagDie tag)
  match (if recordOk rec then s.completionWord x rec else none) with
  | none => (2, s)
  | some w =>
    if (Tab.get {} d.armed tag).live then (3, s)
    else if 256 ≤ d.armed.length then (1, s)
    else (0, s.modDie (tagDie tag) fun d => { d with armed := Tab.put {} d.armed tag ⟨true, rec, addr, w⟩ })

/-! ### The instructions (R255-R258) -/

/-- What the acting core's tile and the table behind it give a record's judgement to read. -/
def State.mendTile (s : State) (rec : List Word) : State :=
  s.mendRecord s.tileXlate (s.tlbFind (tileOf s.core.num)) (s.tableOf s.core.num) rec

/-- The page of a record's completion word that the issuing tile's TLB misses (R45, R117); the table walk has answered where it holds no
mapping. -/
def State.wordMiss (s : State) (rec : List Word) : Option Nat :=
  let a := (recAt rec 1).toNat
  if recordOk rec && decide (a ≠ 0 ∧ a % 8 = 0) && decide (vspace a = .global) && (s.tlbFind (tileOf s.core.num) a).isNone
      && s.strm.reply.isNone then some a
  else none

/-- The common part of `launch` and `arm`: the fence, the record read in one step, the test of its label, the status (R256,
R257). -/
def recordOp (d r : BitVec 5) (hidden : Nat) (tag : List Handle) (turn : State → Bool) (go : State → List Word → Nat × State) : Body :=
  fun s => do
    let a := s.xv r
    aligned a 256
    let ls ← s.resolve .load a 256
    if s.heldIn 6 then wait .accesses
    else if !turn s then wait .launch
    else
      let (bs, hs, s') ← s.loadLocs 0 ls
      let s' ← s'.fold [s.xl r]
      let rc := dwords 32 bs
      let (seen, s') ← s'.judge hs
      if !seen then
        let s' ← s'.supp.writeX d (word hidden) tag
        .ok { st := s' }
      else match s'.wordMiss rc with
        | some a => wait (.tlb a 3)
        | none =>
          let (status, s') := go (s'.mendTile rc) rc
          let s' ← s'.writeX d (word status) tag
          .ok { st := s' }

/-- `launch` (R50, R256). -/
def launches (d r : BitVec 5) : Body := fun s =>
  let rank := coreRank s.core.num
  recordOp d r 5 [] (fun s => s.inTurn s.die rank) (fun s' rec => s'.tryLaunch s.die rank s.tileXlate rec (s.xv r)) s

/-- A tag is armed or disarmed in this cycle, after which no message fires it in the same one (R258). -/
def State.armsTag (s : State) (tag : Nat) : State :=
  s.modDie (tagDie tag) fun d => { d with armTurn := Tab.put 0 d.armTurn tag (s.cycleOf (tagDie tag) + 1) }

/-- `arm` (R257, R258). -/
def arms (d r t : BitVec 5) : Body := fun s =>
  let tag := bits (s.xv t) 0 16
  recordOp d r 4 [s.xl t] (fun _ => true) (fun s' rec =>
    let (st, s') := s'.tryArm tag s.tileXlate rec (s.xv r)
    (st, s'.armsTag tag)) s

/-- `disarm` (R257, R258). -/
def disarms (d t : BitVec 5) : Body := fun s => do
  let tag := bits (s.xv t) 0 16
  let live := (Tab.get {} (s.dieAt (tagDie tag)).armed tag).live
  let s' := s.modDie (tagDie tag) fun d => { d with armed := Tab.put {} d.armed tag {} }
  let s' ← (s'.armsTag tag).writeX d (if live then 0 else 1) [s.xl t]
  .ok { st := s' }

noncomputable section

def execLaunch (d r : BitVec 5) (s : State) := s.run (.launch d r) (launches d r)
def execArm (d r t : BitVec 5) (s : State) := s.run (.arm d r t) (arms d r t)
def execDisarm (d t : BitVec 5) (s : State) := s.run (.disarm d t) (disarms d t)

end

/-! ### Completion (R47) -/

/-- A launch whose tasks have all ended can complete now; its word's line is in no ownership set. -/
def State.canComplete (s : State) (p : Pending) : Bool :=
  p.live && p.left.isEmpty && match p.word with
    | some w => !s.owned (w.1 / 128)
    | none => true

/-- The completion of entry `e` of a die; the holders of its word's line are invalidated first (R47, R302, R384). -/
def State.completeLaunch (s : State) (die e : Nat) : State :=
  let p := Tab.get {} (s.dieAt die).pending e
  if !s.canComplete p then s
  else match (match p.word with
      | some w => s.coh.recall noAgent [w.1 / 128]
      | none => none) with
  | some c => { s with coh := c }
  | none =>
    let s := match p.word with
      | some w => s.homeWrite w.1 (bytesOf (wordOf (s.mainBytes w.1 8) + 1))
      | none => s
    s.modDie die fun d => { d with
      pending := Tab.put {} d.pending e {}
      barriers := d.barriers.filter fun b => decide (b.entry ≠ e)
      landUsed := match p.land with
        | some k => d.landUsed.erase k
        | none => d.landUsed }

/-- LAUNCH_COMPLETION (R47). -/
def execLaunchCompletion (die e : Nat) (s : State) : Host.Outcome State Fault Refusal := .next (s.completeLaunch die e)

end Sys2Proof.Machine
end

