-- ==== Sys2Proof/Machine/Meters.lean ====
section
/-!
DEFINITION. Major 0x15: registered regions, meters, signed statements and checkpoints (R259-R263, R313-R325, R361).
-/

namespace Sys2Proof.Machine

/-! ### Statements (R314-R317) -/

/-- The first `n` bytes of a list, filled with zeros. -/
def fit (n : Nat) (bs : List Byte) : List Byte := (bs ++ List.replicate n 0).take n

/-- HEAD of a statement (R315). -/
def headWord (type : Nat) (final : Bool) : Word := word (type * 2 ^ 56 + 2 ^ 48 + if final then 1 else 0)

/-- A statement signed by the device (R314). -/
def signed (nonce : List Byte) (head : Word) (body : List Byte) : List Byte :=
  let m := fit 16 nonce ++ bytesOf head ++ fit 136 body ++ fit 32 Config.devKey
  m ++ fit 64 (Config.edSign (Config.sha512 m))

/-- The body of a meter statement (R316). -/
def meterBody (r : Nat) (x : Region) (seq : Word) : List Byte :=
  dwordBytes [Config.serial, word r, word x.count, seq, word x.carried, x.baseser, word (x.limit * 2 ^ 32 + x.base), word x.restarts]

/-- A region's record. -/
def State.region (s : State) (r : Nat) : Region := Tab.get {} s.sec.regions r

/-- The number of registered regions. -/
def State.regionCount (s : State) : Nat := (s.sec.regions.filter fun p => p.2.live).length

/-- The body of an attestation report (R317). -/
def State.reportBody (s : State) (seq : Word) : List Byte :=
  dwordBytes [Config.serial, seq, word (s.regionCount * 8 + s.host.phase % 8), 0, 0] ++ fit 64 Config.fwDigest

/-- SEQ cannot be raised before a newer checkpoint is stored (R322). -/
def State.seqHeld (s : State) : Bool := decide (s.sec.bank.seq + 2 ^ 20 < s.sec.seq + 1)

/-- SEQ raised by one (R321). -/
def State.nextSeq (s : State) : State := { s with sec := { s.sec with seq := s.sec.seq + 1 } }

/-! ### Checkpoints (R322, R361) -/

/-- A checkpoint is stored in the older bank (R322). -/
def State.storeCkpt (s : State) (clean : Bool) : State :=
  { s with sec := { s.sec with
      older := s.sec.bank, bank := ⟨s.sec.regions, s.sec.seq, clean⟩, refusals := 0, lastAt := s.clocks.units } }

/-- The storage refuses a checkpoint (R361). -/
def State.refuseCkpt (s : State) : State :=
  let n := s.sec.refusals + 1
  let s := { s with sec := { s.sec with refusals := n, triedAt := s.clocks.units } }
  if (n - 1) % 1000 = 0 then s.deviceRecord 0 0x49 0 n 0 else s

/-- A checkpoint is tried. -/
def State.tryCkpt (s : State) (clean : Bool) : Bool × State :=
  if s.sec.accepts then (true, s.storeCkpt clean) else (false, s.refuseCkpt)

/-! ### Registration (R260, R261, R325) -/

/-- A region descriptor is ill-formed (R261, status 2). -/
def State.badDescriptor (s : State) (w0 w1 w3 : Word) : Bool :=
  let b := bits w0 16 32
  let l := bits w1 16 32
  decide (bits w0 48 16 ≠ 0 ∨ bits w0 12 4 ≠ 0 ∨ bits w1 48 16 ≠ 0 ∨ bits w1 0 16 ≠ 0 ∨ w3 ≠ 0) || decide (l < b)
    || decide (576 * 2 ^ 30 < (l + 1) * 65536)
    || s.sec.regions.any fun p => p.2.live && decide (p.2.base ≤ l ∧ b ≤ p.2.limit)

/-- Field at an offset of a statement. -/
def stAt (st : List Byte) (off : Nat) : Word := wordOf ((st.drop off).take 8)

/-- A carried statement is not acceptable for region `r` (R261, status 3; R325). -/
def State.badCarry (s : State) (r : Nat) (st : List Byte) : Bool :=
  !signedBy ((st.drop 0xA0).take 32) st || decide (bits (statementHead st) 56 8 ≠ 1) || decide (stAt st 0x20 ≠ word r)
    || s.sec.carriedOver.contains (stAt st 0x18, r)

/-- A descriptor that statuses 1 and 2 turn away, whatever CARRY names (R261). -/
def State.refusesRegion (s : State) (ds : List Word) : Bool :=
  let w := fun i => ds.getD i 0
  (s.region (bits (w 0) 0 12)).live || s.badDescriptor (w 0) (w 1) (w 3)

/-- A registration: the status of R261 and the state after it; `carry` is the carried statement, if one is named and
readable. The checkpoint that stores it is the caller's. -/
def State.tryRegister (s : State) (ds : List Word) (carry : Option (List Byte)) : Nat × State :=
  let w := fun i => ds.getD i 0
  let r := bits (w 0) 0 12
  if (s.region r).live then (1, s)
  else if s.badDescriptor (w 0) (w 1) (w 3) then (2, s)
  else
    let put := fun (s : State) (x : Region) => { s with sec := { s.sec with regions := Tab.put {} s.sec.regions r x } }
    let x : Region := { live := true, base := bits (w 0) 16 32, limit := bits (w 1) 16 32 }
    if w 2 = 0 then (0, put s x)
    else match carry with
      | none => (3, s)
      | some st =>
        if s.badCarry r st then (3, s)
        else
          let n := (stAt st 0x28).toNat
          let s := { s with sec := { s.sec with carriedOver := s.sec.carriedOver ++ [(stAt st 0x18, r)] } }
          (0, put s { x with count := n, carried := n, baseser := stAt st 0x18 })

/-! ### The instructions (R259-R263) -/

/-- The pages of `n` bytes at `a` are global memory homed on the own device; a TLB miss comes first (R117, R259, R349). -/
def State.ownGlobal (s : State) (acc : Acc) (a : Word) (n : Nat) : Except Stop Unit := do
  globalOnly a
  let z := a.toNat + n - 1
  (if a.toNat / 65536 = z / 65536 then [a.toNat] else [a.toNat, z / 65536 * 65536]).forM fun va =>
    match s.tlbFind (tileOf s.core.num) va with
    | none => if vspace va = .global then wait (.tlb va (if acc = .load then 0 else 1)) else .ok ()
    | some d => if bits d 44 20 ≠ s.host.devnum.toNat then trap 0x06 a 0 1 else .ok ()

/-- The forms in the Bammos block that still wait, in their order of arrival (R263). -/
def State.formsIn (s : State) : List Party :=
  s.sec.forms.filter fun w => match (s.coreAt w.core).taskOf w.uid with
    | some t => match (if w.stream = 0 then t.ex else t.ac).wait with
      | some x => decide (x.kind = .bammos ∨ x.kind = .storage)
      | none => false
    | none => false

/-- A form that must wait joins the block, once. -/
def State.joinForms (s : State) : State :=
  let q := s.formsIn
  { s with sec := { s.sec with forms := if q.contains s.self then q else q ++ [s.self] } }

/-- A form whose turn in the block has come goes on with `s'`; any other waits behind the one that is served (R263). -/
def State.enterForms (s s' : State) : Except Stop State :=
  let q := s.formsIn
  if q.headD s.self = s.self then .ok { s' with sec := { s'.sec with forms := q.filter fun w => decide (w ≠ s.self) } }
  else waitAs .bammos s.joinForms

/-- The wait for a newer checkpoint (R322). -/
def State.storageWait {α : Type} (s : State) : Except Stop α := waitAs .storage s.joinForms

/-- The wait for a checkpoint that the storage has refused; the refusal is counted once for each wait. -/
def State.refusedWait {α : Type} (s : State) : Except Stop α :=
  match s.strm.wait with
  | some ⟨.storage, _⟩ => s.storageWait
  | _ => s.refuseCkpt.storageWait

/-- `meter.reg` (R260, R261). CARRY names global memory of the own device as every address does (R259); a descriptor of status 1 or 2 is turned
away before it is read. -/
def meterRegs (d r : BitVec 5) : Body := fun s => do
  s.privileged
  let a := s.xv r
  aligned a 32
  s.ownGlobal .load a 32
  let (bs, _, s') ← s.load a 32
  let ds := dwords 4 bs
  let ca := ds.getD 2 0
  let (cb, s') ← (if ca = 0 || s'.refusesRegion ds then .ok (none, s') else do
    s.ownGlobal .load ca 256
    let (cb, _, s') ← s'.load ca 256
    .ok (some cb, s'))
  let s' ← s'.fold [s.xl r]
  let s' ← s.enterForms s'
  let (st, s') := s'.tryRegister ds cb
  if decide (st = 0) && !s.sec.accepts then s.refusedWait
  else
    let s' ← (if st = 0 then s'.storeCkpt false else s').writeX d (word st) []
    .ok { st := s' }

/-- The buffer of a signed statement: its nonce and where it lies (R262, R263). -/
def State.stBuffer (s : State) (a : Word) : Except Stop (List Byte × List Loc × State) := do
  aligned a 64
  s.ownGlobal .load a 256
  let _ ← s.resolve .load a 256
  let ls ← s.resolve .store a 256
  if s.heldIn 6 then wait .accesses
  else
    let (bs, _, s') ← s.load a 256
    .ok (bs.take 16, ls, s')

/-- A statement is written over a buffer, with handle 0x0000. -/
def State.putStatement (s : State) (st : List Byte) : List Loc → State
  | [] => s
  | l :: ls => (s.homeWrite l.addr (st.take l.len)).putStatement (st.drop l.len) ls

/-- `meter.read` (R262). -/
def meterReads (d r t : BitVec 5) : Body := fun s => do
  s.privileged
  let k := s.xv t
  if bits k 12 52 ≠ 0 then trap 0x07 k 0 2
  else
    let (nonce, ls, s') ← s.stBuffer (s.xv r)
    let s' ← s.enterForms s'
    let x := s.region (bits k 0 12)
    if !x.live then
      let s' ← s'.fold [s.xl r]
      let s' ← s'.writeX d 1 []
      .ok { st := s' }
    else if s.seqHeld then s.storageWait
    else
      let s' := s'.nextSeq
      let s' := s'.putStatement (signed nonce (headWord 1 false) (meterBody (bits k 0 12) x (word s'.sec.seq))) ls
      let s' ← s'.fold [s.xl r]
      let s' ← s'.writeX d 0 []
      .ok { st := s' }

/-- `meter.ckpt` (R263). -/
def meterCkpts (d : BitVec 5) : Body := fun s => do
  s.privileged
  if s.heldIn 6 then wait .accesses
  else
    let s' ← s.enterForms s
    let (ok, s') := s'.tryCkpt false
    let s' ← s'.writeX d (if ok then 0 else 1) []
    .ok { st := s' }

/-- `attest` (R263). -/
def attests (d r : BitVec 5) : Body := fun s => do
  s.privileged
  let (nonce, ls, s') ← s.stBuffer (s.xv r)
  let s' ← s.enterForms s'
  if s.seqHeld then s.storageWait
  else
    let s' := s'.nextSeq
    let s' := s'.putStatement (signed nonce (headWord 2 false) (s.reportBody (word s'.sec.seq))) ls
    let s' ← s'.fold [s.xl r]
    let s' ← s'.writeX d 0 []
    .ok { st := s' }

noncomputable section

def execMeterReg (d r : BitVec 5) (s : State) := s.run (.meterReg d r) (meterRegs d r)
def execMeterRead (d r t : BitVec 5) (s : State) := s.run (.meterRead d r t) (meterReads d r t)
def execMeterCkpt (d : BitVec 5) (s : State) := s.run (.meterCkpt d) (meterCkpts d)
def execAttest (d r : BitVec 5) (s : State) := s.run (.attest d r) (attests d r)

end

end Sys2Proof.Machine
end

