-- ==== Sys2Proof/Machine/Outside.lean ====
section
/-!
DEFINITION. What reaches the package from outside: BAR2 and BAR4 accesses and the host service queues, BAR0 registers, host launches,
Giari messages and accesses, and debug writes to memory (R100, R136, R296-R302, R306, R312, R338, R340, R351, R353, R376-R381, R384).
-/

namespace Sys2Proof.Machine

/-! ### The host address space (R298) -/

/-- The lowest entry of the host translation cache that matches. -/
def State.hostFind (s : State) (va : Nat) : Option Word :=
  (s.host.cache.find? fun p => tlbMatch p.2.1 p.2.2 va).map fun p => p.2.2

/-- The translation that LAUNCHh, firmware requests and debug writes use: the cache, or the table behind it. -/
def State.hostXlate (s : State) : Xlate := fun va =>
  match s.hostFind va with
  | some d => some d
  | none => (s.walk s.host.aspace va).toOption

/-- The physical pieces, one per 64 KiB unit, of `n` bytes at a virtual address. -/
def State.vaPieces (s : State) (x : Xlate) (write : Bool) (va n : Nat) : Option (List (Nat × Nat)) :=
  (granules 65536 (n / 65536 + 2) va n).mapM fun p => (s.place x write p.1).map fun q => (q.1, p.2)

/-- The reads of `n` bytes at a host address: atoms of the walks and of the bytes that have one bit in error are corrected (R352). -/
def State.mendHost (s : State) (va n : Nat) : State := s.mendVa s.hostXlate s.hostFind s.host.aspace va n

/-- The table walks for `n` bytes at a host address. -/
def State.walksHost (s : State) (va n : Nat) : State := s.walksVa s.hostFind s.host.aspace va n

/-- Bytes written over physical pieces in order, with handle 0x0000. -/
def State.putPieces (s : State) (bs : List Byte) : List (Nat × Nat) → State
  | [] => s
  | (a, n) :: ps => (s.homeWrite a (bs.take n)).putPieces (bs.drop n) ps

/-! ### Host service queues (R136, R297, R351, R353) -/

/-- An answer leaves the package. -/
def State.reply (s : State) (a : Answer) : State := { s with host := { s.host with answers := s.host.answers ++ [a] } }

/-- Some atom of a byte range is poisoned. -/
def State.poisoned (s : State) (space : Space) (a n : Nat) : Bool := (atomsOf a n).any fun t => decide (s.ecc space t = 2)

/-- The correctable errors of a byte range are corrected. -/
def State.correctAll (s : State) (space : Space) (a n : Nat) : State :=
  ((atomsOf a n).filter (s.mends space)).foldl (fun s t => s.correct space t) s

/-- Bytes stored to scratchpad with handle 0x0000, whatever SPFRAME holds (R297); a part is written over what a read of its atom finds, and a
part of a poisoned atom is not written (R352, R353). -/
def State.spmWrite (s : State) (a : Nat) (bs : List Byte) : State :=
  (atomsOf a bs.length).foldl (fun s t =>
    let (lo, b) := piece a bs t
    if decide (b.length ≠ 32) && decide (s.ecc .spm t = 2) then s
    else
      let s := ((s.mendPart (decide (b.length = 32)) .spm t).putSpace .spm lo b).putSide .spm t always
      if b.length = 32 then s.clearEcc .spm t else s) s

/-- The windows of an owner admit a party at system scope (R100). -/
def State.admitsOutside (s : State) (q : HostReq) : Bool :=
  (s.windowRefusal (q.addr / 65536) (q.addr % 65536 / 32) ((q.addr % 65536 + q.n - 1) / 32) (if q.write then .store else .load)
    none).isNone

/-- A read's answer and the state after it; poison aborts (R353). -/
def State.readOutside (s : State) (q : HostReq) : State :=
  if s.poisoned q.space q.addr q.n then s.reply .abort
  else
    let s := s.correctAll q.space q.addr q.n
    let bs := s.spaceBytes q.space q.addr q.n
    let s := if q.space = .main then
        let s := { s with free := if s.inSpill 0 q.addr || s.inSpill 1 q.addr then s.free + 1 else s.free }
        s.sliceTouch q.addr false
      else s
    s.reply (.data bs)

/-- An access performs, issued by service core `0x1040 + h`; it waits while an engine holds the line, or an agent's acknowledgement is
awaited (R135, R384). -/
def State.performHost (s : State) (h : Nat) (q : HostReq) : Except State State :=
  match q.space with
  | .main =>
    if s.owned (q.addr / 128) then .error s
    else if (s.linkDown (0x1040 + h) q.addr).isSome then .ok (s.reply .abort)
    else if q.write then
      match s.coh.recall noAgent (linesOf q.addr q.data.length) with
      | some c => .error { s with coh := c }
      | none => .ok ((s.homeWrite q.addr q.data).reply .written)
    else .ok (s.readOutside q)
  | .spm =>
    if !s.admitsOutside q then .ok (s.reply .abort)
    else if q.write then .ok ((s.spmWrite q.addr q.data).reply .written)
    else .ok (s.readOutside q)

/-! ### Host launches (R299) -/

/-- A launch of the record at a host address through channel `h`: its status and the state after it. -/
def State.hostLaunch (s : State) (h a : Nat) : Nat × State :=
  if a % 256 ≠ 0 then (2, s)
  else match s.vaBytes s.hostXlate a 256 with
    | none => (2, s)
    | some bs =>
      let s := (s.mendHost a 256).mendRecord s.hostXlate s.hostFind s.host.aspace (dwords 32 bs)
      s.tryLaunch (h / 4) (hostRank h) s.hostXlate (dwords 32 bs) (word a)

/-- A launch through LAUNCHh is judged, once its turn in the cycle has come (R50). -/
def State.performLaunch (s : State) (h : Nat) (v : Word) : Except State State :=
  if !s.inTurn (h / 4) (hostRank h) then .error s
  else
    let a := bits v 0 48
    let (st, s) := s.hostLaunch h a
    .ok { s with host := { s.host with launch := s.host.launch.setIfInBounds h (word (st * 2 ^ 56 + a)) } }

/-- What heads queue `h` performs. -/
def State.performJob (s : State) (h : Nat) : HostJob → Except State State
  | .access q => s.performHost h q
  | .launch v => s.performLaunch h v

/-! ### Service -/

/-- The jobs of queue `h` perform in order until one must wait (R136). -/
def State.serveQueue (s : State) (h : Nat) : List HostJob → State
  | [] => { s with host := { s.host with queues := Tab.put [] s.host.queues h [] } }
  | q :: qs =>
    match s.performJob h q with
    | .ok s => s.serveQueue h qs
    | .error s => { s with host := { s.host with queues := Tab.put [] s.host.queues h (q :: qs) } }

/-- A job joins the queue of service core `h`, which goes on. -/
def State.queueJob (s : State) (h : Nat) (q : HostJob) : State := s.serveQueue h (Tab.get [] s.host.queues h ++ [q])

/-- The host service core that issues a request (R297). -/
def State.serviceOf (s : State) (space : Space) (addr : Nat) : Nat :=
  match space with
  | .main => let q := homeSlice s.host.phase addr; q / 32 * 4 + q % 32 / 8
  | .spm => let c := addr / 65536; dieOf c * 4 + sgOf c / 8 % 4

/-- A request joins the queue of its service core, which goes on. -/
def State.queueHost (s : State) (q : HostReq) : State :=
  let h := s.serviceOf q.space q.addr
  s.queueJob h (.access q)

/-! ### BAR2 and BAR4 (R297, R298) -/

/-- The first address of BAR2's range of the host address space. -/
def bar2Base : Nat := 0x100000000

/-- A translated BAR2 access goes to a service core, or completes with an abort (R298). -/
def State.issueBar2 (s : State) (a : Held) (x : Xlate) : State :=
  match s.place x a.write (bar2Base + a.off) with
  | none => s.reply .abort
  | some (pa, _) => s.queueHost ⟨.main, pa, a.write, a.n, a.data⟩

/-- A BAR2 access within one line: held behind a miss, or issued (R298). -/
def State.bar2 (s : State) (a : Held) : State :=
  match s.host.held, s.hostFind (bar2Base + a.off) with
  | [], some d => s.issueBar2 a fun _ => some d
  | _, _ => { s with host := { s.host with held := s.host.held ++ [a] } }

/-- `n` bytes of written data. -/
def dataOf (n : Nat) (bs : List Byte) : List Byte := (bs ++ List.replicate n 0).take n

/-- HOST_BAR2_ACCESS: one mesh request for each line of the access (R297, R298). -/
def execHostBar2Access (off : Nat) (write : Bool) (n : Nat) (data : List Byte) (s : State) : Host.Outcome State Fault Refusal :=
  .next (if n = 0 || decide (64 * 2 ^ 30 < off + n) then s
    else (granules 128 n off n).foldl (fun s g => s.bar2 ⟨g.1, write, g.2, (dataOf n data).drop (g.1 - off) |>.take g.2⟩) s)

/-- HOST_BAR4_ACCESS: package scratchpad, one request for each owner's bytes (R297). -/
def execHostBar4Access (off : Nat) (write : Bool) (n : Nat) (data : List Byte) (s : State) : Host.Outcome State Fault Refusal :=
  .next (if n = 0 || decide (256 * 2 ^ 20 < off + n) then s
    else if off / 65536 ≠ (off + n - 1) / 65536 then s.reply .abort
    else s.queueHost ⟨.spm, off, write, n, dataOf n data⟩)

/-- The held accesses that hit proceed in their order of arrival. -/
def State.release (s : State) : List Held → State
  | [] => { s with host := { s.host with held := [] } }
  | a :: as =>
    match s.hostFind (bar2Base + a.off) with
    | some d => (s.issueBar2 a fun _ => some d).release as
    | none => { s with host := { s.host with held := a :: as } }

/-- HOST_TRANSLATION_FILL: the firmware of 0x1040 walks the table for the first held access, writes an invalid entry, or entry `entry`
where all are valid, or lets the access abort, and the others proceed (R298). -/
def State.hostFill (s : State) (entry : Nat) : State :=
  match s.host.held with
  | [] => s
  | a :: as =>
    let va := bar2Base + a.off
    let s := s.walked s.host.aspace va
    match s.walk s.host.aspace va with
    | .error _ => (s.reply .abort).release as
    | .ok d =>
      let e := (word (va / 65536 * 65536 + 1), d)
      let free := (upto 1024).find? fun i => !bit (Tab.get (0, 0) s.host.cache i).1 0
      { s with host := { s.host with cache := Tab.put (0, 0) s.host.cache (free.getD (entry % 1024)) e } }.release (a :: as)

def execHostTranslationFill (entry : Nat) (s : State) : Host.Outcome State Fault Refusal := .next (s.hostFill entry)

/-- HOST_LAUNCH: the launch joins its service core's queue, with BUSY until it is judged; a write while BUSY = 1 is ignored (R136,
R299). -/
def State.writeLaunch (s : State) (h : Nat) (v : Word) : State :=
  let old := s.host.launch.getD h 0
  if bit old 55 then s
  else
    let busy := word (bits old 56 8 * 2 ^ 56 + 2 ^ 55 + bits v 0 48)
    { s with host := { s.host with launch := s.host.launch.setIfInBounds h busy } }.queueJob h (.launch v)

def execHostLaunch (h : Nat) (v : Word) (s : State) : Host.Outcome State Fault Refusal :=
  .next (if h < 8 then s.writeLaunch h v else s)

/-! ### Debug registers (R376, R377) -/

/-- A halt: the streams stop at their instruction boundary. -/
def Core.halt (k : Core) : Core := { k with dbg := { k.dbg with halted := true, stepping := false, stepped := [] } }

/-- A resume; under STEP the core halts again after one instruction of each running stream. -/
def Core.resume (k : Core) : Core := { k with dbg := { k.dbg with halted := false, stepping := k.dbg.step, stepped := [] } }

/-- A write of the debug control register of a core. -/
def Core.debugControl (v : Word) (k : Core) : Core :=
  let k := { k with dbg := { k.dbg with step := bit v 2 } }
  let k := if bit v 1 then k.resume else k
  if bit v 0 then k.halt else k

/-- The debug control register of a core. -/
def CoreDebug.control (d : CoreDebug) : Word := word ((if d.halted then 8 else 0) + if d.step then 4 else 0)

/-! ### BAR0 (R296, R299, R300, R302, R306, R312, R376) -/

/-- DEVNUM and CLK and PHASE (R300); CLK is the slower die's. -/
def HostSide.dstat (h : HostSide) : Word :=
  word (h.devnum.toNat * 2 ^ 44 + max h.clk[0].toNat h.clk[1].toNat * 64 + h.phase % 8)

/-- FWSTAT of a channel (R306). -/
def HostSide.fwstat (h : HostSide) (c : Nat) : Word :=
  word ((if h.busy.getD c false then 2 ^ 63 else 0) + (h.done.getD c 0).toNat * 2 ^ 32 + (h.status.getD c 0).toNat)

/-- What a BAR0 offset reads. -/
def State.bar0 (s : State) (off : Nat) : Word :=
  let d := (s.coreAt s.host.dsel.toNat).dbg
  if off = 0x0000 then s.host.dstat
  else if off = 0x0010 then s.host.land[0]
  else if off = 0x0018 then s.host.land[1]
  else if off = 0x0020 then word (s.host.temp.toNat * 2 ^ 32 + s.host.pcap.toNat * 2 ^ 16 + s.host.power.toNat)
  else if off = 0x0040 then s.host.dsel.setWidth 64
  else if off = 0x0048 then { d with halted := d.halted || s.host.failed }.control
  else if off % 8 ≠ 0 then 0
  else if 0x0050 ≤ off ∧ off ≤ 0x0068 then d.bp.getD ((off - 0x0050) / 8) 0
  else if 0x0100 ≤ off ∧ off < 0x0140 then s.host.launch.getD ((off - 0x0100) / 8) 0
  else if 0x0400 ≤ off ∧ off < 0x0480 then
    let c := (off - 0x0400) / 16
    if off % 16 = 0 then s.host.block.getD c 0 else s.host.fwstat c
  else 0

/-- The written bits of a landing register (R302). -/
def landMask : Word := 0x0000FFFFFFFFFF01

/-- The written bits of a breakpoint register (R376). -/
def bpMask : Word := 0x800000000000FFFE

/-- A write of BLOCK and GO of a channel; while BUSY = 1 the whole write is ignored (R306). -/
def State.writeBlock (s : State) (c : Nat) (v : Word) : State :=
  if s.host.busy.getD c false then s
  else { s with host := { s.host with
    block := s.host.block.setIfInBounds c (v &&& 0x0000FFFFFFFFFF80), busy := s.host.busy.setIfInBounds c (bit v 0) } }

/-- A host write to a BAR0 offset; an offset that the manual does not assign ignores it (R4, R296). -/
def State.writeBar0 (s : State) (off : Nat) (v : Word) : State :=
  let land := fun (d : Nat) => { s with host := { s.host with land := s.host.land.setIfInBounds d (v &&& landMask) } }
  if off = 0x0000 then
    if bit s.host.land[0] 0 || bit s.host.land[1] 0 then s
    else { s with host := { s.host with devnum := BitVec.ofNat 20 (bits v 44 20) } }
  else if off = 0x0010 then land 0
  else if off = 0x0018 then land 1
  else if off = 0x0020 then { s with host := { s.host with pcap := BitVec.ofNat 16 (bits v 16 16) } }
  else if off = 0x0040 then
    if bits v 0 13 ≤ 0x1047 then { s with host := { s.host with dsel := BitVec.ofNat 13 (bits v 0 13) } } else s
  else if off = 0x0048 then s.modCore s.host.dsel.toNat (Core.debugControl v)
  else if off % 8 ≠ 0 then s
  else if 0x0050 ≤ off ∧ off ≤ 0x0068 then
    s.modCore s.host.dsel.toNat fun k =>
      { k with dbg := { k.dbg with bp := k.dbg.bp.setIfInBounds ((off - 0x0050) / 8) (v &&& bpMask) } }
  else if 0x0100 ≤ off ∧ off < 0x0140 then s.writeLaunch ((off - 0x0100) / 8) v
  else if 0x0400 ≤ off ∧ off < 0x0480 ∧ off % 16 = 0 then s.writeBlock ((off - 0x0400) / 16) v
  else s

/-- REGISTER_WRITE (R4, R296); a package that is off takes none. -/
def execRegisterWrite (off : Nat) (v : Word) (s : State) : Host.Outcome State Fault Refusal :=
  .next (if s.host.off then s else s.writeBar0 off v)

/-! ### Giari (R100, R301, R302, R338, R340, R384) -/

/-- The lowest free slot of a die's landing area (R302). -/
def State.freeLand (s : State) (die : Nat) : Option Nat :=
  let l := s.host.land.getD die 0
  if bit l 0 then (upto (bits l 8 8 + 1)).find? fun i => !(s.dieAt die).landUsed.contains i else none

/-- The virtual address of a slot. -/
def State.landVa (s : State) (die i : Nat) : Nat := bits (s.host.land.getD die 0) 16 32 * 65536 + 4096 * i

/-- The record that an armed tag launches: argument 0 is the slot's address (R49). -/
def armedRecord (a : Armed) (va : Nat) : List Word := a.record.set 2 (word va)

/-- The firing of an armed tag: launched, refused, or consumed with the record of a failed measurement (R49, R257, R338, R340). -/
def State.fire (s : State) (die src : Nat) (tag : BitVec 16) (a : Armed) (slot va : Nat) : State :=
  let rc := armedRecord a va
  let ls := levelsOf rc
  let cores := (targetsOf ls).map (·.1)
  let f := recFrame rc
  let s := if s.meteredLaunch f cores && recAt rc 16 ≠ 0 then s.mendHost (recAt rc 16).toNat 256 else s
  if s.meteredLaunch f cores && !s.measureOk s.hostXlate rc cores then
    (s.record { source := 2, core := cores.headD 0, die := die, frame := f, dw4 := a.addr }
      { cause := 0x43, val := tag.setWidth 64, d5 := word src }).reply (.refused tag)
  else if !s.served cores || s.tagHeld (barriersOf 0 ls cores) then s.reply (.refused tag)
  else match s.freeEntry die with
    | none => (s.reaches die (tagRank tag)).reply (.refused tag)
    | some e =>
      let s := (s.reaches die (tagRank tag)).accept die e rc a.addr a.word (some slot)
      s.modDie die fun d => { d with
        landUsed := slot :: d.landUsed
        armed := if bit (recAt a.record 0) 16 then d.armed else Tab.put {} d.armed tag.toNat {} }

/-- A Giari message is handled: its payload lands in a slot of the tag's die, and an armed tag fires; every other message is refused back
(R302). One that an armed tag cannot launch for want of a free entry may or may not have written the slot first: R302 says that it writes
nothing, R338 that the slot is written and freed, so a free value decides (log 49). It waits for the acknowledgements of the slot's lines
(R384) and for its turn in the cycle: no launch that comes later in R50's order has gone before it, nor an `arm` or `disarm` of its tag
(R258). -/
def State.giariServe (s : State) (m : Giari) : Except State State :=
  let die := tagDie m.tag.toNat
  let a := Tab.get {} (s.dieAt die).armed m.tag.toNat
  let full := a.live && (s.freeEntry die).isNone
  let early := full && (Config.freeWord s.free).getLsbD 0
  let s' := if full then { s with free := s.free + 1 } else s
  if Tab.get 0 (s.dieAt die).armTurn m.tag.toNat = s.cycleOf die + 1 then .error s
  else match (if early then none else s.freeLand die) with
  | none => .ok (s'.reply (.refused m.tag))
  | some i =>
    let va := s.landVa die i
    match s.vaPieces s.hostXlate true va 4096 with
    | none => .ok (s'.reply (.refused m.tag))
    | some ps =>
      match s.coh.recall noAgent (ps.flatMap fun p => linesOf p.1 p.2) with
      | some c => .error { s with coh := c }
      | none =>
        if a.live && !s.inTurn die (tagRank m.tag) then .error s
        else
          let s := (s'.walksHost va 4096).putPieces (dataOf 4096 m.payload) ps
          .ok (if a.live then s.fire die m.src m.tag a i va else s.reply (.refused m.tag))

/-- Giari messages are handled in order until one must wait. -/
def State.serveGiari (s : State) : List Giari → State
  | [] => { s with host := { s.host with giariq := [] } }
  | m :: ms =>
    match s.giariServe m with
    | .ok s => s.serveGiari ms
    | .error s => { s with host := { s.host with giariq := m :: ms } }

/-- A message that crosses the die-to-die link from its port to its tag's die is lost where the link is down (R301, R360). Which port it
arrives on is not in the spec's event: a free value says whether it crosses. -/
def State.giariMessage (s : State) (src : Nat) (tag : BitVec 16) (payload : List Byte) : State :=
  let down := s.links.down.contains 0
  if down && (Config.freeWord s.free).getLsbD 0 then { s with free := s.free + 1 }
  else
    let s := if down then { s with free := s.free + 1 } else s
    s.serveGiari (s.host.giariq ++ [⟨src, tag, payload⟩])

/-- GIARI_MESSAGE_ARRIVAL (R301, R302). -/
def execGiariMessageArrival (src : Nat) (tag : BitVec 16) (payload : List Byte) (s : State) : Host.Outcome State Fault Refusal :=
  .next (if 64 ≤ payload.length ∧ payload.length ≤ 4096 then s.giariMessage src tag payload else s)

/-- GIARI_ACCESS: an access to package scratchpad by a sender at system scope, admitted by a window or refused back (R100, R351). -/
def State.giariReach (s : State) (addr : Nat) (write : Bool) (n : Nat) (data : List Byte) : State :=
  let q : HostReq := ⟨.spm, addr - 0x10000000, write, n, dataOf n data⟩
  if n = 0 || decide (vspace addr = .own) || decide (vspace addr ≠ vspace (addr + n - 1)) then s.reply (.refused 0)
  else match vspace addr with
    | .pkg _ =>
      if !s.admitsOutside q || (!write && s.poisoned .spm q.addr n) then s.reply (.refused 0)
      else if write then (s.spmWrite q.addr q.data).reply .written
      else s.readOutside q
    | _ => s.reply (.refused 0)

def execGiariAccess (addr : Nat) (write : Bool) (n : Nat) (data : List Byte) (s : State) : Host.Outcome State Fault Refusal :=
  .next (s.giariReach addr write n data)

/-! ### Debug accesses to memory (R380, R381) -/

/-- The debug writes perform in order, on a channel of their own, until one must wait (R305). -/
def State.serveDebug (s : State) : List HostReq → State
  | [] => { s with host := { s.host with debugq := [] } }
  | q :: qs =>
    match s.performHost (s.serviceOf q.space q.addr) q with
    | .ok s => s.serveDebug qs
    | .error s => { s with host := { s.host with debugq := q :: qs } }

/-- A debug write joins the queue of the debug channel. -/
def State.queueDebug (s : State) (q : HostReq) : State := s.serveDebug (s.host.debugq ++ [q])

/-- A debug write to global memory; one that touches a registered region returns status 1 and nothing (R381). -/
def State.debugWrite (s : State) (va : Nat) (bs : List Byte) : State :=
  let s := s.walksHost va bs.length
  match s.vaPieces s.hostXlate true va bs.length with
  | none => s.reply .abort
  | some ps =>
    if ps.any fun p => (s.regionOf p.1).isSome || (s.regionOf (p.1 + p.2 - 1)).isSome then s.reply (.status 1)
    else
      let gs := ps.flatMap fun p => granules 128 p.2 p.1 p.2
      (gs.foldl (fun (r : State × List Byte) g =>
        (r.1.queueDebug ⟨.main, g.1, true, g.2, r.2.take g.2⟩, r.2.drop g.2)) (s, bs)).1

/-- The bytes that a debug read finds, with no change but of the free values it takes; poison aborts (R353, R380). -/
def State.debugBytes (s : State) (space : Space) (ps : List (Nat × Nat)) : State :=
  if ps.any fun p => s.poisoned space p.1 p.2 then s.reply .abort
  else
    let s' := s.reply (.data (ps.flatMap fun p => s.spaceBytes space p.1 p.2))
    if decide (space = .main) && ps.any (fun p => s.inSpill 0 p.1 || s.inSpill 1 p.1) then { s' with free := s.free + 1 } else s'

/-- A debug read: no window is consulted, and no directory, L1 or slice state changes (R380); one that touches a registered region returns
status 1 and nothing (R381). The table has no row for it, so that it is a move of the schedule (log 51). -/
def State.debugRead (s : State) (va n : Nat) : State :=
  match vspace va with
  | .pkg c => if vspace (va + n - 1) = .pkg c then s.debugBytes .spm [(va - 0x10000000, n)] else s.reply .abort
  | .global =>
    let s := s.walksHost va n
    match s.vaPieces s.hostXlate false va n with
    | none => s.reply .abort
    | some ps =>
      if ps.any fun p => (s.regionOf p.1).isSome || (s.regionOf (p.1 + p.2 - 1)).isSome then s.reply (.status 1)
      else s.debugBytes .main ps
  | _ => s.reply .abort

/-- DEBUG_MEMORY_WRITE: a host request at system scope (R380); one to package scratchpad goes as through BAR4. -/
def execDebugMemoryWrite (va : Nat) (data : List Byte) (s : State) : Host.Outcome State Fault Refusal :=
  .next (if data.isEmpty then s
  else match vspace va with
  | .pkg c =>
    if vspace (va + data.length - 1) = .pkg c then s.queueDebug ⟨.spm, va - 0x10000000, true, data.length, data⟩
    else s.reply .abort
  | .global => s.debugWrite va data
  | _ => s.reply .abort)

/-! ### Queues that go on by themselves -/

/-- Every host service queue, the debug channel and the Giari messages go on. -/
def State.serveHost (s : State) : State :=
  let s := (upto 8).foldl (fun s h => match Tab.get [] s.host.queues h with
    | [] => s
    | qs => s.serveQueue h qs) s
  let s := if s.host.debugq = [] then s else s.serveDebug s.host.debugq
  if s.host.giariq = [] then s else s.serveGiari s.host.giariq

end Sys2Proof.Machine
end

