-- ==== Sys2Proof/Machine/Bringup.lean ====
section
/-!
DEFINITION. Reset and bring-up, clocks and temperature, power loss, and the checkpoints that Bammos takes by itself (R304, R312,
R315-R323, R361).
-/

namespace Sys2Proof.Machine

/-! ### Reset and resumption (R304, R323) -/

/-- A region as Bammos resumes it (R323). -/
def Region.resumed (clean : Bool) (r : Region) : Region :=
  if clean || !r.live then r else { r with count := min (r.count + 2 ^ 20) (2 ^ 64 - 1), restarts := r.restarts + 1 }

/-- SEQ as Bammos resumes it (R323). -/
def seqResumed (clean : Bool) (n : Nat) : Nat := if clean then n else min (n + 2 ^ 20) (2 ^ 64 - 1)

/-- The secure storage alone: what no reset clears. -/
def Security.stored (x : Security) : Security :=
  { bank := x.bank, older := x.older, carriedOver := x.carriedOver, keys := x.keys, accepts := x.accepts }

/-- Meters, SEQ and registrations resume from the last stored checkpoint, and what they resume at is stored (R323). -/
def Security.resume (x : Security) : Security :=
  let b := x.bank
  let rs := b.regions.map fun p => (p.1, p.2.resumed b.clean)
  let n := seqResumed b.clean b.seq
  { x.stored with regions := rs, seq := n, older := b, bank := ⟨rs, n, false⟩ }

/-- Everything volatile is as reset leaves it; the secure storage and the model's own counters stay. -/
def State.cleared (s : State) : State :=
  { State.reset with schedule := s.schedule, free := s.free, nextId := s.nextId, sec := s.sec.stored }

/-- POWER_ON_RESET: meters resume; a verified image starts the firmware, a failed verification leaves PHASE at 0 (R304, R323). -/
def State.powerOn (s : State) (verified : Bool) : State :=
  let s' := s.cleared
  { s' with sec := s.sec.resume, host := { s'.host with phase := if verified then 1 else 0, failed := !verified } }

def execPowerOnReset (verified : Bool) (s : State) : Host.Outcome State Fault Refusal := .next (s.powerOn verified)

/-- POWER_LOSS: all volatile state goes, and the last stored checkpoint is left unclean, unless the package was off already, after an orderly
shutdown or an earlier loss (R323). -/
def State.losePower (s : State) : State :=
  let s' := s.cleared
  let s' := { s' with host := { off := true } }
  if s.host.off then s' else { s' with sec := { s'.sec with bank := { s'.sec.bank with clean := false } } }

def execPowerLoss (s : State) : Host.Outcome State Fault Refusal := .next s.losePower

/-- The end of reduced service's memory. -/
def reducedTop : Nat := 4 * 2 ^ 30

/-- REDUCED_SERVICE_ENTRY: every line of PA 0 to 4 GiB - 1 is written as zero with handle 0x0000; the cores run at 1.2 GHz (R15, R304). -/
def State.enterReduced (s : State) : State :=
  if s.host.phase ≠ 1 then s
  else
    { s with
      host := { s.host with phase := 2, clk := Vector.replicate 2 2 }
      mem := { s.mem with
        main := s.mem.main.filter fun p => decide (reducedTop ≤ p.1)
        mainSide := s.mem.mainSide.filter fun p => decide (reducedTop ≤ p.1 * 32)
        mainEcc := s.mem.mainEcc.filter fun p => decide (reducedTop ≤ p.1 * 32)
        notLive := s.mem.notLive.filter fun p => decide (reducedTop ≤ p.1 * 65536) } }

def execReducedServiceEntry (s : State) : Host.Outcome State Fault Refusal := .next s.enterReduced

/-- A pending launch has not completed. -/
def State.launchesPending (s : State) : Bool := s.dies.toList.any fun d => !d.pending.isEmpty

/-- FULL_SERVICE_TRANSITION: launches are turned away until none is pending; then L1s and cache are flushed and invalidated, memory
keeps its contents, the clocks rise and PHASE is 3 (R304). -/
def State.enterFull (s : State) : State :=
  if s.host.phase ≠ 2 then s
  else if s.launchesPending then { s with host := { s.host with closing := true } }
  else
    { s with
      host := { s.host with phase := 3, closing := false, clk := Vector.replicate 2 0 }
      coh := { evict := s.coh.evict } }

def execFullServiceTransition (s : State) : Host.Outcome State Fault Refusal := .next s.enterFull

/-! ### Clocks and temperature (R312) -/

/-- The fastest clock state whose estimated power keeps the package within PCAP, a value below 220 acting as 220; `clk` is the estimate's
answer for the full 1,850 W (R312). -/
def State.withinCap (s : State) (clk : BitVec 2) : BitVec 2 :=
  let cap := max 220 s.host.pcap.toNat
  if 1850 ≤ cap then clk
  else
    let fit : BitVec 2 := if Config.estimate s.free 0 ≤ cap then 0 else if Config.estimate s.free 1 ≤ cap then 1 else 2
    if clk.toNat ≤ fit.toNat then fit else clk

/-- The clock state that the firmware sets: at 105 °C or more and in reduced service, P2; 3 is never set (R15, R304, R312). -/
def clockFor (phase : Nat) (clk : BitVec 2) (temp : BitVec 8) : BitVec 2 :=
  if phase = 2 || 105 ≤ temp.toNat || clk = 3 then 2 else clk

/-- CLOCK_STATE_UPDATE: the state that the firmware's estimate and PCAP choose takes effect on the die; at 115 °C or more every meter is
checkpointed clean and the package shuts down in order (R312, R322). A package that is off has no firmware to do so. -/
def State.updateClock (s : State) (die : Nat) (clk : BitVec 2) (temp : BitVec 8) (power : BitVec 16) : State :=
  if s.host.off then s
  else
  let s := { s with
    free := s.free + 1
    host := { s.host with
      clk := s.host.clk.setIfInBounds die (clockFor s.host.phase (s.withinCap clk) temp), temp := temp, power := power } }
  if 115 ≤ temp.toNat then
    let (ok, s) := s.tryCkpt true
    if ok then { s.cleared with host := { off := true } } else s
  else s

def execClockStateUpdate (die : Nat) (clk : BitVec 2) (temp : BitVec 8) (power : BitVec 16) (s : State) :
    Host.Outcome State Fault Refusal := .next (s.updateClock die clk temp power)

/-! ### Checkpoints by cause (R322, R361) -/

/-- A checkpoint that the storage accepts or refuses, as `stored` says. -/
def State.checkpointBy (s : State) (stored : Bool) : Bool × State :=
  { s with sec := { s.sec with accepts := stored } }.tryCkpt false

/-- Some meter has risen 2^19 above its value in the last stored checkpoint (R322). -/
def State.countCause (s : State) : Bool :=
  s.sec.regions.any fun p => decide ((Tab.get {} s.sec.bank.regions p.1).count + 2 ^ 19 ≤ p.2.count)

def execCheckpointCount (stored : Bool) (s : State) : Host.Outcome State Fault Refusal :=
  .next (if !s.host.off && s.countCause then (s.checkpointBy stored).2 else s)

/-- One second in units of 1/14.4 ns (R322). -/
def secondUnits : Nat := 14400000000

def execCheckpointTime (stored : Bool) (s : State) : Host.Outcome State Fault Refusal :=
  .next (if !s.host.off && decide (s.sec.lastAt + secondUnits ≤ s.clocks.units) then (s.checkpointBy stored).2 else s)

/-- One millisecond in the same units (R322). -/
def milliUnits : Nat := 14400000

def execCheckpointRetry (stored : Bool) (s : State) : Host.Outcome State Fault Refusal :=
  .next (if !s.host.off && decide (s.sec.refusals ≠ 0 ∧ s.sec.triedAt + milliUnits ≤ s.clocks.units) then (s.checkpointBy stored).2 else s)

end Sys2Proof.Machine
end

