-- ==== Sys2Proof/Machine/Convert.lean ====
section
/-!
DEFINITION. The conversions of major 0x19 and major 0x1A: reductions, permutes and mask forms (R83, R273, R274, R278-R280).
-/

namespace Sys2Proof.Machine

/-! ### Conversions (R83, R273, R274) -/

/-- A conversion of elements of `ws` bits to elements of `wd` bits (R274). -/
def vecCvt (ws wd : Nat) (f : Nat → Nat) (d r : BitVec 5) (p k : BitVec 2) : Body := fun s => do
  let n := 512 / max ws wd
  let src := lanes ws (s.v r).val
  let narrow := decide (wd < ws)
  let ls := (lanes wd (s.v d).val).zipIdx.map fun q =>
    let i := if narrow then q.2 - p.toNat * n else q.2
    let here := if narrow then decide (p.toNat * n ≤ q.2) && decide (q.2 < p.toNat * n + n) else true
    let j := if ws < wd then p.toNat * n + i else i
    if here && s.enabled k i then f (src.getD j 0) else q.1
  let s' ← s.putLanes d (!narrow && s.covering k n) wd ls ((s.v r).lbl :: s.kls k)
  .ok { st := s' }

/-- FP32 to an integer of `w` bits, 2^k times the value (R83). -/
def f32ToInt (w k : Nat) (signed rtz : Bool) (x : Nat) : Nat :=
  let lo : Int := if signed then -(2 ^ (w - 1) : Nat) else 0
  let hi : Int := if signed then (2 ^ (w - 1) : Nat) - 1 else (2 ^ w : Nat) - 1
  wrap w (fp32.toInt rtz k lo hi x)

/-- A signed integer of `w` bits saturated to `v` bits. -/
def satInt (w v : Nat) (x : Nat) : Nat := wrap v (sat (sgn w x) (-(2 ^ (v - 1) : Nat)) ((2 ^ (v - 1) : Nat) - 1))

/-- A signed integer of `w` bits extended to `v` bits. -/
def sextInt (w v : Nat) (x : Nat) : Nat := wrap v (sgn w x)

noncomputable section

def execVcvtF32F16 (d r : BitVec 5) (p k : BitVec 2) (s : State) :=
  s.run (.vcvtF32F16 d r p k) (vecCvt 16 32 (fp16.cvt fp32) d r p k)
def execVcvtF32Bf16 (d r : BitVec 5) (p k : BitVec 2) (s : State) :=
  s.run (.vcvtF32Bf16 d r p k) (vecCvt 16 32 (bf16.cvt fp32) d r p k)
def execVcvtF32E4m3 (d r : BitVec 5) (p k : BitVec 2) (s : State) :=
  s.run (.vcvtF32E4m3 d r p k) (vecCvt 8 32 (e4m3.cvt fp32) d r p k)
def execVcvtF32E5m2 (d r : BitVec 5) (p k : BitVec 2) (s : State) :=
  s.run (.vcvtF32E5m2 d r p k) (vecCvt 8 32 (e5m2.cvt fp32) d r p k)
def execVcvtF16F32 (d r : BitVec 5) (p k : BitVec 2) (s : State) :=
  s.run (.vcvtF16F32 d r p k) (vecCvt 32 16 (fp32.cvt fp16) d r p k)
def execVcvtBf16F32 (d r : BitVec 5) (p k : BitVec 2) (s : State) :=
  s.run (.vcvtBf16F32 d r p k) (vecCvt 32 16 (fp32.cvt bf16) d r p k)
def execVcvtE4m3F32 (d r : BitVec 5) (p k : BitVec 2) (s : State) :=
  s.run (.vcvtE4m3F32 d r p k) (vecCvt 32 8 (fp32.cvt e4m3) d r p k)
def execVcvtE5m2F32 (d r : BitVec 5) (p k : BitVec 2) (s : State) :=
  s.run (.vcvtE5m2F32 d r p k) (vecCvt 32 8 (fp32.cvt e5m2) d r p k)
def execVcvtI32F32 (d r : BitVec 5) (p k : BitVec 2) (s : State) :=
  s.run (.vcvtI32F32 d r p k) (vecCvt 32 32 (f32ToInt 32 0 true false) d r p k)
def execVcvtI32F32Rtz (d r : BitVec 5) (p k : BitVec 2) (s : State) :=
  s.run (.vcvtI32F32Rtz d r p k) (vecCvt 32 32 (f32ToInt 32 0 true true) d r p k)
def execVcvtF32I32 (d r : BitVec 5) (p k : BitVec 2) (s : State) :=
  s.run (.vcvtF32I32 d r p k) (vecCvt 32 32 (fun x => fp32.ofInt (sgn 32 x) 0) d r p k)
def execVcvtUi32F32 (d r : BitVec 5) (p k : BitVec 2) (s : State) :=
  s.run (.vcvtUi32F32 d r p k) (vecCvt 32 32 (f32ToInt 32 0 false false) d r p k)
def execVcvtUi32F32Rtz (d r : BitVec 5) (p k : BitVec 2) (s : State) :=
  s.run (.vcvtUi32F32Rtz d r p k) (vecCvt 32 32 (f32ToInt 32 0 false true) d r p k)
def execVcvtF32Ui32 (d r : BitVec 5) (p k : BitVec 2) (s : State) :=
  s.run (.vcvtF32Ui32 d r p k) (vecCvt 32 32 (fun x => fp32.ofInt x 0) d r p k)
def execVcvtI8F32 (d r : BitVec 5) (p k : BitVec 2) (s : State) :=
  s.run (.vcvtI8F32 d r p k) (vecCvt 32 8 (f32ToInt 8 0 true false) d r p k)
def execVcvtI8F32Rtz (d r : BitVec 5) (p k : BitVec 2) (s : State) :=
  s.run (.vcvtI8F32Rtz d r p k) (vecCvt 32 8 (f32ToInt 8 0 true true) d r p k)
def execVcvtF32I8 (d r : BitVec 5) (p k : BitVec 2) (s : State) :=
  s.run (.vcvtF32I8 d r p k) (vecCvt 8 32 (fun x => fp32.ofInt (sgn 8 x) 0) d r p k)
def execVcvtUq8F32 (d r : BitVec 5) (p k : BitVec 2) (s : State) :=
  s.run (.vcvtUq8F32 d r p k) (vecCvt 32 8 (f32ToInt 8 8 false false) d r p k)
def execVcvtUq8F32Rtz (d r : BitVec 5) (p k : BitVec 2) (s : State) :=
  s.run (.vcvtUq8F32Rtz d r p k) (vecCvt 32 8 (f32ToInt 8 8 false true) d r p k)
def execVcvtF32Uq8 (d r : BitVec 5) (p k : BitVec 2) (s : State) :=
  s.run (.vcvtF32Uq8 d r p k) (vecCvt 8 32 (fun x => fp32.ofInt x 8) d r p k)
def execVcvtI16F32 (d r : BitVec 5) (p k : BitVec 2) (s : State) :=
  s.run (.vcvtI16F32 d r p k) (vecCvt 32 16 (f32ToInt 16 0 true false) d r p k)
def execVcvtI16F32Rtz (d r : BitVec 5) (p k : BitVec 2) (s : State) :=
  s.run (.vcvtI16F32Rtz d r p k) (vecCvt 32 16 (f32ToInt 16 0 true true) d r p k)
def execVcvtF32I16 (d r : BitVec 5) (p k : BitVec 2) (s : State) :=
  s.run (.vcvtF32I16 d r p k) (vecCvt 16 32 (fun x => fp32.ofInt (sgn 16 x) 0) d r p k)
def execVcvtI32I8 (d r : BitVec 5) (p k : BitVec 2) (s : State) :=
  s.run (.vcvtI32I8 d r p k) (vecCvt 8 32 (sextInt 8 32) d r p k)
def execVcvtI8I32 (d r : BitVec 5) (p k : BitVec 2) (s : State) :=
  s.run (.vcvtI8I32 d r p k) (vecCvt 32 8 (satInt 32 8) d r p k)
def execVcvtI32I16 (d r : BitVec 5) (p k : BitVec 2) (s : State) :=
  s.run (.vcvtI32I16 d r p k) (vecCvt 16 32 (sextInt 16 32) d r p k)
def execVcvtI16I32 (d r : BitVec 5) (p k : BitVec 2) (s : State) :=
  s.run (.vcvtI16I32 d r p k) (vecCvt 32 16 (satInt 32 16) d r p k)
def execVcvtE4m3F16 (d r : BitVec 5) (p k : BitVec 2) (s : State) :=
  s.run (.vcvtE4m3F16 d r p k) (vecCvt 16 8 (fp16.cvt e4m3) d r p k)
def execVcvtF16E4m3 (d r : BitVec 5) (p k : BitVec 2) (s : State) :=
  s.run (.vcvtF16E4m3 d r p k) (vecCvt 8 16 (e4m3.cvt fp16) d r p k)

end

/-! ### Reductions (R278) -/

/-- A reduction of the enabled lanes to a dword under W (R265, R278). -/
def vecRed (w : Nat) (f : List Nat → Word) (d r : BitVec 5) (k : BitVec 2) : Body := fun s => do
  let a := lanes w (s.v r).val
  let s' ← s.writeX d (f ((s.lanesOn k (512 / w)).map fun i => a.getD i 0)) ((s.v r).lbl :: s.kls k)
  .ok { st := s' }

/-- A signed `w`-bit result as a dword. -/
def redSigned (w : Nat) (n : Nat) : Word := wrap64 (sgn w n)

def redSum (w : Nat) (l : List Nat) : Word := redSigned w (l.foldl (· + ·) 0)
def redMin (w : Nat) (l : List Nat) : Word := redSigned w (l.foldl (laneMin w) (2 ^ (w - 1) - 1))
def redMax (w : Nat) (l : List Nat) : Word := redSigned w (l.foldl (laneMax w) (2 ^ (w - 1)))
def redMinu (w : Nat) (l : List Nat) : Word := word (l.foldl min (2 ^ w - 1))
def redMaxu (_w : Nat) (l : List Nat) : Word := word (l.foldl max 0)

/-- `vfredsum`: lane after lane from the first enabled one; a NaN first lane gives the canonical NaN (R278). -/
def redFsum : List Nat → Word
  | [] => 0
  | x :: xs => word (xs.foldl fp32.add (if fp32.isNan x then fp32.nanBits else x))

def redFmax (l : List Nat) : Word := word (l.foldl fp32.max (fp32.inf true))
def redFmin (l : List Nat) : Word := word (l.foldl fp32.min (fp32.inf false))

noncomputable section

def execVredsum (d r : BitVec 5) (e k : BitVec 2) (s : State) := s.run (.vredsum d r e k) (vecRed (eltBits e) (redSum (eltBits e)) d r k)
def execVredmin (d r : BitVec 5) (e k : BitVec 2) (s : State) := s.run (.vredmin d r e k) (vecRed (eltBits e) (redMin (eltBits e)) d r k)
def execVredmax (d r : BitVec 5) (e k : BitVec 2) (s : State) := s.run (.vredmax d r e k) (vecRed (eltBits e) (redMax (eltBits e)) d r k)
def execVredminu (d r : BitVec 5) (e k : BitVec 2) (s : State) :=
  s.run (.vredminu d r e k) (vecRed (eltBits e) (redMinu (eltBits e)) d r k)
def execVredmaxu (d r : BitVec 5) (e k : BitVec 2) (s : State) :=
  s.run (.vredmaxu d r e k) (vecRed (eltBits e) (redMaxu (eltBits e)) d r k)
def execVfredsum (d r : BitVec 5) (k : BitVec 2) (s : State) := s.run (.vfredsum d r k) (vecRed 32 redFsum d r k)
def execVfredmax (d r : BitVec 5) (k : BitVec 2) (s : State) := s.run (.vfredmax d r k) (vecRed 32 redFmax d r k)
def execVfredmin (d r : BitVec 5) (k : BitVec 2) (s : State) := s.run (.vfredmin d r k) (vecRed 32 redFmin d r k)

end

/-! ### Permutes (R279) -/

/-- `vperm` (R279). -/
def vecPerm (d r t : BitVec 5) (e k : BitVec 2) : Body := fun s => do
  let w := eltBits e
  let a := lanes w (s.v r).val
  let b := lanes w (s.v t).val
  let n := 512 / w
  let s' ← s.putLanes d (s.covering k n) w (s.blend d w k fun i => a.getD (b.getD i 0 % n) 0) ([(s.v r).lbl, (s.v t).lbl] ++ s.kls k)
  .ok { st := s' }

/-- `vslide` (R279). -/
def vecSlide (d r t : BitVec 5) (e k : BitVec 2) : Body := fun s => do
  let w := eltBits e
  let a := lanes w (s.v r).val
  let n := 512 / w
  let at' := fun (i : Nat) =>
    let j : Int := i + (s.xv t).toInt
    if 0 ≤ j ∧ j < n then a.getD j.toNat 0 else 0
  let s' ← s.putLanes d (s.covering k n) w (s.blend d w k at') ([(s.v r).lbl, s.xl t] ++ s.kls k)
  .ok { st := s' }

/-- `vcomp`: the mask selects, and the whole register is written (R279). -/
def vecComp (d r : BitVec 5) (e k : BitVec 2) : Body := fun s => do
  let w := eltBits e
  let a := lanes w (s.v r).val
  let n := 512 / w
  let picked := (s.lanesOn k n).map fun i => a.getD i 0
  let s' ← s.putLanes d true w (picked ++ List.replicate (n - picked.length) 0) ((s.v r).lbl :: s.kls k)
  .ok { st := s' }

/-- `vrev` (R279). -/
def vecRev (d r : BitVec 5) (e k : BitVec 2) : Body := fun s => do
  let w := eltBits e
  let a := lanes w (s.v r).val
  let n := 512 / w
  let s' ← s.putLanes d (s.covering k n) w (s.blend d w k fun i => a.getD (n - 1 - i) 0) ((s.v r).lbl :: s.kls k)
  .ok { st := s' }

/-! ### Mask forms (R280) -/

/-- A mask operation of two masks. -/
def maskBin (f : Word → Word → Word) (c r t : BitVec 2) : Body := fun s => do
  let s' ← s.writeK c (f (s.kreg r).val (s.kreg t).val) [s.kl r, s.kl t]
  .ok { st := s' }

/-- `knot`. -/
def maskNot (c r : BitVec 2) : Body := fun s => do
  let s' ← s.writeK c (~~~(s.kreg r).val) [s.kl r]
  .ok { st := s' }

/-- `kfromx`. -/
def maskFromX (c : BitVec 2) (r : BitVec 5) : Body := fun s => do
  let s' ← s.writeK c (s.xv r) [s.xl r]
  .ok { st := s' }

/-- `ktox`, `kpop`. -/
def maskToX (f : Word → Word) (d : BitVec 5) (r : BitVec 2) : Body := fun s => do
  let s' ← s.writeX d (f (s.kreg r).val) [s.kl r]
  .ok { st := s' }

noncomputable section

def execVperm (d r t : BitVec 5) (e k : BitVec 2) (s : State) := s.run (.vperm d r t e k) (vecPerm d r t e k)
def execVslide (d r t : BitVec 5) (e k : BitVec 2) (s : State) := s.run (.vslide d r t e k) (vecSlide d r t e k)
def execVcomp (d r : BitVec 5) (e k : BitVec 2) (s : State) := s.run (.vcomp d r e k) (vecComp d r e k)
def execVrev (d r : BitVec 5) (e k : BitVec 2) (s : State) := s.run (.vrev d r e k) (vecRev d r e k)
def execKand (c r t : BitVec 2) (s : State) := s.run (.kand c r t) (maskBin (fun a b => a &&& b) c r t)
def execKor (c r t : BitVec 2) (s : State) := s.run (.kor c r t) (maskBin (fun a b => a ||| b) c r t)
def execKxor (c r t : BitVec 2) (s : State) := s.run (.kxor c r t) (maskBin (fun a b => a ^^^ b) c r t)
def execKnot (c r : BitVec 2) (s : State) := s.run (.knot c r) (maskNot c r)
def execKfromx (c : BitVec 2) (r : BitVec 5) (s : State) := s.run (.kfromx c r) (maskFromX c r)
def execKtox (d : BitVec 5) (r : BitVec 2) (s : State) := s.run (.ktox d r) (maskToX (fun a => a) d r)
def execKpop (d : BitVec 5) (r : BitVec 2) (s : State) := s.run (.kpop d r) (maskToX (fun a => word (popCount 64 a.toNat)) d r)

end

end Sys2Proof.Machine
end

