-- ==== Sys2Proof/Machine/Engines.lean ====
section
/-!
DEFINITION. Major 0x20 and its events: the copy, gather and collective engines with their faults, cancels and pins (R107, R120,
R135, R169-R175, R287, R355-R358, R362).
-/

namespace Sys2Proof.Machine

/-! ### Engines and command blocks (R169-R171) -/

/-- The engine of a super-group with a code. -/
def State.engineAt (s : State) (sg e : Nat) : Engine := Tab.get {} s.engines (sg * 4 + e)

/-- A change of one engine. -/
def State.modEngine (s : State) (sg e : Nat) (f : Engine → Engine) : State :=
  { s with engines := Tab.put {} s.engines (sg * 4 + e) (f (s.engineAt sg e)) }

/-- A cancel handle (R171). -/
def cmdHandle (sg e seq : Nat) : Word := word (2 ^ 24 + seq % 65536 * 256 + e * 64 + sg)

/-- The handle of a command. -/
def Cmd.handle (c : Cmd) : Word := cmdHandle (sgOf c.who.core) c.code c.seq

/-- The offence of a command block, of the first five of R357, or 0. A field that does not apply to the command and is not zero counts as
offence 1, the reserved fields' code (DESIGN CHOICE, log 70: R170 says that it must be zero, R357 gives it no code of its own). HANDLER applies
to a copy whatever HV holds, so that one with HV = 0 is well-formed (DESIGN CHOICE, log 87). -/
def blockOffence (e : Nat) (d : Nat → Word) : Nat :=
  let op := bits (d 2) 61 3
  let esz := bits (d 2) 50 3
  let spare := bits (d 0) 48 16 + bits (d 1) 48 16 + bits (d 2) 58 3 + bits (d 2) 48 2 + bits (d 3) 48 8
  let other := (if e = 2 then 0 else op) + (if e = 1 then 0 else esz + (d 3).toNat) + (if e = 0 then 0 else bits (d 2) 32 16)
  if spare + other ≠ 0 then 1
  else if e = 2 && decide (4 < op) then 2
  else if e = 1 && (esz < 2 || 5 < esz) then 3
  else if bits (d 0) 0 5 ≠ 0 || decide (bits (d 1) 0 (if e = 1 then 2 else 5) ≠ 0) || decide (bits (d 3) 0 16 ≠ 0) then 4
  else if e ≠ 1 && decide (bits (d 2) 0 5 ≠ 0) then 5
  else 0

/-- The command that a block describes; nothing is translated yet. -/
def State.cmdOf (s : State) (e : Nat) (block : Word) (d : Nat → Word) (lc : List Handle) : Cmd :=
  let len := bits (d 2) 0 32
  let op := bits (d 2) 61 3
  let esz := if e = 1 then bits (d 2) 50 3 else if e = 2 then (if op = 1 then 2 else 3) else 5
  { seq := (s.engineAt (sgOf s.core.num) e).seq, code := e, block := block, who := s.self, frame := s.task.frame, ctx := s.task.ctx
    launch := s.task.info.launch, prio := s.task.prio, cls := s.task.prio.toNat, id := s.nextId, dst := bits (d 0) 0 48, src := bits (d 1) 0 48, len := len
    op := op, esz := esz, depreg := bits (d 2) 53 5, hv := bit (d 2) 47, handler := bits (d 2) 32 15 * 2, table := bits (d 3) 0 48
    index := [], ilbls := [], lc := lc, refs := [], pins := [], lines := []
    left := upto (if e = 1 then len else len / 2 ^ esz), data := [], taken := false, acc := [], ill := false }

/-- The bytes of a command's destination. -/
def Cmd.dstLen (c : Cmd) : Nat := if c.code = 1 then c.len * 2 ^ c.esz else c.len

/-- The table extent of a gather block (R170). -/
def tableLen (d3 : Word) : Nat := (bits d3 56 8 + 1) * 65536

/-- The ranges a command reads. -/
def Cmd.sources (c : Cmd) (d3 : Word) : List (Nat × Nat) :=
  if c.code = 1 then [(c.src, 4 * c.len), (c.table, tableLen d3)] else [(c.src, c.len)]

/-- Source and destination overlap (R170): judged on the block's own addresses, so that two names of the same bytes do not overlap (DESIGN
CHOICE, log 71). -/
def Cmd.overlaps (c : Cmd) (d3 : Word) : Bool := (c.sources d3).any fun r => overlap r.1 r.2 c.dst c.dstLen

/-- The 64 KiB units of global memory that byte ranges touch, each once. -/
def unitsOfRanges (rs : List (Nat × Nat)) : List Nat :=
  (rs.flatMap fun r => if r.2 = 0 then [] else (upto ((r.1 + r.2 - 1) / 65536 - r.1 / 65536 + 1)).map (r.1 / 65536 + ·)).eraseDups.filter
    fun u => decide (vspace (u * 65536) = .global)

/-! ### Places of a command's bytes (R100, R172, R173, R356) -/

/-- A fault of an engine access: the underlying cause and the address (R356). -/
abbrev EngFault := Nat × Nat

/-- What an engine access reaches. -/
structure EngLoc where
  space : Space
  addr : Nat
  labelled : Bool
  cache : Bool := false

/-- Where the byte at `a` lies for the issuing core, if the command's pages say so. -/
def State.engSite (s : State) (c : Cmd) (a : Nat) : Except EngFault EngLoc :=
  let spm := fun (owner off : Nat) => .ok ⟨.spm, owner * 65536 + off, (s.coreAt owner).regs.lab, false⟩
  match vspace a with
  | .hole => .error (0x30, a)
  | .own => spm c.who.core a
  | .pkg o => spm o (a % 65536)
  | .global => match c.refs.find? fun r => decide (r.va = a / 65536) with
    | none => .error (0x33, a)
    | some r => .ok ⟨.main, physOf r.data a, bit r.data 7, bit r.data 6⟩

/-- `n` bytes at `a`, within one atom, for the issuing core: the checks of R349 as the engine meets them (R172, R356). -/
def State.engLoc (s : State) (c : Cmd) (acc : Acc) (a n : Nat) : Except EngFault EngLoc :=
  let spm := fun (owner off : Nat) =>
    let k := (s.coreAt owner).regs
    if k.lab && decide (k.frm ≠ c.frame) then .error (0x18, a)
    else if (s.linkAcross c.who.core owner).isSome then .error (0x47, a)
    else if decide (owner ≠ c.who.core) && (s.windowRefusal owner (off / 32) ((off + n - 1) / 32) acc (some c.who.core)).isSome
    then .error (0x31, a)
    else s.engSite c a
  match vspace a with
  | .hole => .error (0x30, a)
  | .own => spm c.who.core a
  | .pkg o => spm o (a % 65536)
  | .global =>
    match c.refs.find? fun r => decide (r.va = a / 65536) with
    | none => .error (0x33, a)
    | some r =>
      let pa := physOf r.data a
      let frm := BitVec.ofNat 8 (bits r.data 8 8)
      if badFormat r.data then .error (0x32, a)
      else if !(if acc = .load then bit r.data 1 else bit r.data 2) then .error (0x33, a)
      else if bits r.data 44 20 ≠ s.host.devnum.toNat then .error (0x35, a)
      else if !s.paOk pa then .error (0x33, a)
      else if bit r.data 7 && decide (frm ≠ c.frame) then .error (0x18, a)
      else if (acc = .load || acc = .atomic) && !(s.frameAt (dieOf c.who.core) c.frame).metered && (s.regionOf pa).isSome then .error (0x10, a)
      else if (s.linkDown c.who.core pa).isSome then .error (0x47, a)
      else s.engSite c a

/-- An engine read of `n` bytes: bytes and labels; poison faults, a correctable error is corrected (R352, R353, R356). -/
def State.engRead (s : State) (l : EngLoc) (a n : Nat) : Except EngFault (List Byte × List Handle × State) :=
  let ats := atomsOf l.addr n
  if ats.any fun t => decide (s.ecc l.space t = 2) then .error (0x34, a)
  else
    let s1 := (ats.filter (s.mends l.space)).foldl (fun s t => s.correct l.space t) s
    let s2 := if l.space = .main then
        { (s1.sliceTouch l.addr false) with free := if s.inSpill 0 l.addr || s.inSpill 1 l.addr then s1.free + 1 else s1.free } else s1
    .ok (s1.spaceBytes l.space l.addr n, ats.map (s1.atomLabel l.space l.labelled), s2)

/-- SUPP of the issuing task is set while it exists (R135, R354). -/
def State.engSupp (s : State) (c : Cmd) : State := s.suppress c.who.core c.who.uid

/-- CTX of the issuing task as it stands, or as it stood when the task ended (R135, R172; log 61). -/
def State.engCtx (s : State) (c : Cmd) : Word :=
  match (s.coreAt c.who.core).taskOf c.who.uid with
  | some t => t.ctx
  | none => c.ctx

/-- An engine write of bytes within one atom under some labels (R70, R135, R172, R341); a labelled destination takes the label as given on
either die. A part of an atom is written over what a read of it finds: one bit in error is corrected (R352), a poisoned atom stays as it
is; a poisoned label record is a fault (R353). -/
def State.engWrite (s : State) (c : Cmd) (l : EngLoc) (a : Nat) (bs : List Byte) (hs : List Handle) : Except EngFault State :=
  let t := l.addr / 32
  let whole := decide (bs.length = 32)
  let die := dieOf c.who.core
  let put := fun (s : State) (h : Handle) =>
    let s := if l.space = .main then s.sliceTouch l.addr true else s
    let s := (s.putSpace l.space l.addr bs).putSide l.space t h
    if whole then s.clearEcc l.space t else s
  if !whole && decide (s.ecc l.space t = 2) then .ok s
  else
  let s := s.mendPart whole l.space t
  if l.labelled then
    let s0 := if l.space = .main then s.wakeUnit (l.addr / 65536) else s
    match s0.form die c.frame true (if whole then hs else s0.atomLabel l.space true t :: hs) with
    | .error t => .error (t.cause.toNat, if t.cause = 0x34 then t.val.toNat else a)
    | .ok (h, s1) => .ok (put s1 h)
  else match s.badRecordOf die c.frame hs with
    | some r => .error (0x34, r)
    | none =>
      let s := s.readRecords die c.frame hs
      if s.visible die c.frame (s.rawProduct die c.frame hs) (s.engCtx c) then .ok (put s always) else .ok (s.engSupp c)

/-- The result of a collective operation on an element (R170, R172). -/
def collOp (op : Nat) (old src : Nat) : Nat :=
  match op with
  | 0 => (old + src) % 2 ^ 64
  | 1 => fadd32 old src
  | 2 => if sgn 64 old ≤ sgn 64 src then old else src
  | 3 => if sgn 64 old < sgn 64 src then src else old
  | _ => Nat.lor old src

/-- The owner of a copy's scratchpad destination. -/
def Cmd.owner (c : Cmd) : Option Nat :=
  match vspace c.dst with
  | .own => some c.who.core
  | .pkg o => some o
  | _ => none

/-- The units of a command. -/
def Cmd.units (c : Cmd) : Nat := if c.code = 1 then c.len else c.len / 2 ^ c.esz

/-- The units of the destination atom into which unit `i` falls. -/
def Cmd.mates (c : Cmd) (i : Nat) : List Nat :=
  let k := 32 / 2 ^ c.esz
  ((upto k).map (i / k * k + ·)).filter fun j => decide (j < c.units)

/-- Unit `i` has been read and not written. -/
def Cmd.holds (c : Cmd) (i : Nat) : Bool := c.data.any fun p => decide (p.1 = i)

/-- The destination atom of unit `i` can be written: all its units have been read (R135). -/
def Cmd.ripe (c : Cmd) (i : Nat) : Bool := c.holds i && (c.mates i).all fun j => !c.left.contains j

/-- The destination atom of unit `i` has some, not all, of its elements combined (R172). -/
def Cmd.tornAt (c : Cmd) (i : Nat) : Bool := c.ripe i && (c.mates i).any fun j => !c.holds j

/-- Some destination atom is so; neither a cancel nor a fault of another unit comes between (R135, R356). -/
def Cmd.torn (c : Cmd) : Bool := c.data.any fun p => c.tornAt p.1

/-- The read of unit `i`'s source (R135, R172). -/
def State.engTake (s : State) (c : Cmd) (i : Nat) : Except EngFault (State × Cmd) := do
  let n := 2 ^ c.esz
  let a := if c.code = 1 then c.table + c.index.getD i 0 * n else c.src + n * i
  let l ← s.engLoc c .load a n
  let (bs, hs, s1) ← s.engRead l a n
  let hs := hs ++ (if c.code = 1 then c.ilbls.getD i [] else []) ++ c.lc
  .ok (s1, { c with left := c.left.erase i, data := c.data ++ [(i, bs, hs)] })

/-- A copy with a handler takes a dormant context with its first write, or is refused whole (R102). -/
def State.takeDormant (s : State) (c : Cmd) : Except EngFault State :=
  match (if c.hv && !c.taken then c.owner else none) with
  | none => .ok s
  | some o =>
    if 4 ≤ (s.coreAt o).dorm.length then .error (0x31, c.dst)
    else .ok (s.addDormant o {
      pc := c.handler, frame := c.frame, dep := always, prio := c.prio, addr := word (c.dst % 65536), count := c.len
      src := c.who.core, ready := false, id := c.id })

/-- The write of the destination atom of unit `i` by a copy or a gather (R135, R172); the labels written are kept for a handler. -/
def State.engPut (s : State) (c : Cmd) (i : Nat) : Except EngFault (State × Cmd) := do
  let us := c.mates i
  let parts := c.data.filter fun p => us.contains p.1
  let bs := us.flatMap fun j => ((parts.find? fun p => decide (p.1 = j)).map (·.2.1)).getD []
  let hs := (parts.flatMap (·.2.2)).eraseDups
  let d := c.dst + 2 ^ c.esz * us.headD i
  let s ← s.takeDormant c
  let l ← s.engLoc c (if c.hv then .handler else .store) d bs.length
  let s1 ← s.engWrite c l d bs hs
  .ok (s1, { c with
    data := c.data.filter fun p => !us.contains p.1, taken := true, acc := if c.hv then (c.acc ++ hs).eraseDups else [] })

/-- The atomic step of element `i` of a collective command (R172); an element of an atom of which one has been combined is admitted with it. -/
def State.engElement (s : State) (c : Cmd) (i : Nat) : Except EngFault (State × Cmd) := do
  let n := 2 ^ c.esz
  let d := c.dst + n * i
  let (bs, hs) := ((c.data.find? fun p => decide (p.1 = i)).map (·.2)).getD ([], [])
  let l ← if c.tornAt i then s.engSite c d else s.engLoc c .atomic d n
  let (old, ls, s1) ← s.engRead l d n
  let s2 ← s1.engWrite c l d (leBytes n (collOp c.op (leNat old) (leNat bs))) (ls ++ hs)
  .ok (s2, { c with data := c.data.filter fun p => decide (p.1 ≠ i), taken := true })

/-- The elements of a list combine one after the other. -/
def State.engElements (s : State) (c : Cmd) : List Nat → Except EngFault (State × Cmd)
  | [] => .ok (s, c)
  | i :: is => do
    let (s, c) ← s.engElement c i
    s.engElements c is

/-- The step of element `i`: the first one of an atom is taken only where all of the atom can be, so that a fault leaves the atom as it was
(R172, R356). -/
def State.engCombine (s : State) (c : Cmd) (i : Nat) : Except EngFault (State × Cmd) :=
  if c.tornAt i then s.engElement c i
  else match s.engElements c (i :: (c.mates i).erase i) with
    | .error f => .error f
    | .ok _ => s.engElement c i

/-- The access of a command that unit `i` is due: its read, or the write of its atom once that can be taken (R135). -/
def State.engStep (s : State) (c : Cmd) (i : Nat) : Except EngFault (State × Cmd) :=
  if c.left.contains i then s.engTake c i
  else if !c.ripe i then .ok (s, c)
  else if c.code = 2 then s.engCombine c i
  else s.engPut c i

/-! ### Ends of a command (R107, R120, R135, R171, R173, R356) -/

/-- Pins are released. -/
def State.unpin (s : State) (sg : Nat) (ps : List Nat) : State :=
  { s with host := { s.host with pins := ps.foldl (fun t p =>
      Tab.put 0 t (sg * 2 ^ 24 + p) (Tab.get 0 t (sg * 2 ^ 24 + p) - 1)) s.host.pins } }

/-- The deposit of a command in x[DEPREG] of its task, under Lc Cleaned; a moot, retired or ended task gets none (R171, R173). It ends the
core's cycle, and of two of one task's register in one cycle that of the later-issued command remains (R141). Where the label needs a record and the table is
full, the deposit takes Lc as it is (DESIGN CHOICE, log 72: R341 has no row for a deposit). -/
def State.deposit (s : State) (c : Cmd) (status : Nat) : State :=
  let die := dieOf c.who.core
  match (s.coreAt c.who.core).taskOf c.who.uid with
  | none => s
  | some t =>
    let ds := ((s.coreAt c.who.core).turnAt (s.cycleAt c.who.core)).deposits
    if t.moot || decide (c.depreg = 0) || ds.any (fun p => decide (p.1 = (c.who.uid, c.depreg) ∧ c.id < p.2)) then s
    else
      let s := s.enter c.who.core fun k => { k with stage := 3, deposits := k.deposits ++ [((c.who.uid, c.depreg), c.id)] }
      let (h, s1) := match s.product die c.frame true c.lc with
        | .ok r => r
        | .error _ => (c.lc.headD always, s)
      s1.modParty c.who fun t => { t with regs := { t.regs with
        x := t.regs.x.setIfInBounds c.depreg ⟨word (status * 2 ^ 62) + c.handle, h⟩ } }

/-- Another command of the ownership set of a command's engine agent names a line (R107, R135). -/
def State.shared (s : State) (c : Cmd) (line : Nat) : Bool :=
  s.engines.any fun p => decide (p.1 / 4 = sgOf c.who.core) && p.2.queue.any fun x => decide (x.id ≠ c.id) && x.lines.contains line

/-- A command ends with a status: the lines that no other command of its set names leave it, its pins go, the deposit is written. -/
def State.endCmd (s : State) (c : Cmd) (status : Nat) : State :=
  let sg := sgOf c.who.core
  let s := { s with coh := (c.lines.filter fun n => !s.shared c n).foldl (fun k n => k.uncache n) s.coh }
  let s := (s.unpin sg c.pins).modEngine sg c.code fun e => { e with queue := e.queue.filter fun x => decide (x.id ≠ c.id) }
  s.deposit c status

/-- A dormant context that a command has taken is freed again. -/
def State.dropDormant (s : State) (c : Cmd) : State :=
  match (if c.hv && c.taken then c.owner else none) with
  | some o => s.modCore o fun k => { k with dorm := k.dorm.filter fun d => decide (d.ready ∨ d.id ≠ c.id) }
  | none => s

/-- A record of an engine (R333, R356, R357, R362). -/
def State.engRecord (s : State) (c : Cmd) (cause : Nat) (val : Word) (d5 d6 d7 : Nat) : State :=
  s.record { source := 1, core := c.who.core, die := dieOf c.who.core, frame := c.frame, launch := c.launch }
    { cause := BitVec.ofNat 8 cause, val := val, d5 := word d5, d6 := word d6, d7 := word d7 }

/-- The fault step of a command (R356). -/
def State.faultCmd (s : State) (c : Cmd) (f : EngFault) : State :=
  ((s.dropDormant c).endCmd c 3).engRecord c 0x44 c.handle f.1 f.2 c.block.toNat

/-- The label of arrived data as a handler's DEP: across dies it has travelled as visibility (R27, R102). -/
def State.arrivedLabel (s : State) (die owner : Nat) (f : BitVec 8) (hs : List Handle) : Handle × State :=
  if dieOf owner ≠ die then (always, s)
  else match s.product die f true hs with
    | .ok r => r
    | .error _ => (never, s)

/-- The dormant context of a completed copy becomes ready (R102). -/
def State.readyDormant (s : State) (c : Cmd) : State :=
  match (if c.hv && c.taken then c.owner else none) with
  | none => s
  | some o =>
    let (h, s) := s.arrivedLabel (dieOf c.who.core) o c.frame c.acc
    s.modCore o fun k => { k with dorm := k.dorm.map fun d => if decide (d.id = c.id) && !d.ready then { d with ready := true, dep := h } else d }

/-! ### Issue (R135, R169, R172, R173, R357, R362) -/

/-- The block read of the issue step; a miss and a page fault are those of an engine block (R355). -/
def State.blockRead (s : State) (a : Word) : Except Stop (List Byte × List Handle × State) :=
  match s.load a 32 with
  | .error (.wait (.tlb va _) r) => .error (.wait (.tlb va 2) r)
  | .error (.trap t) => .error (.trap (if t.cause = 0x33 then { t with d6 := 2 } else t))
  | r => r

/-- What a range page of a command is translated to by the issuing tile's TLB, or, where its walk has ended so, to nothing; the first page
that the TLB misses, with what stands so far (R117, R173). -/
def State.engXlate (s : State) : List Nat → List (Nat × Option Word) → Except (Nat × List (Nat × Option Word)) (List (Nat × Option Word))
  | [], rs => .ok rs
  | u :: us, rs =>
    if rs.any fun r => decide (r.1 = u) then s.engXlate us rs
    else match s.tlbFind (tileOf s.core.num) (u * 65536) with
      | some d => s.engXlate us (rs ++ [(u, some d)])
      | none => .error (u, rs)

/-- The fault of a command at its issue step: a page that no table maps, or one whose HOME is another device (R173, R356). -/
def refFault (devnum : Nat) (ranges : List (Nat × Nat)) (rs : List (Nat × Option Word)) : Option EngFault :=
  rs.findSome? fun r =>
    let at0 := match ranges.find? fun g => decide (g.2 ≠ 0 ∧ g.1 / 65536 ≤ r.1 ∧ r.1 ≤ (g.1 + g.2 - 1) / 65536) with
      | some g => max g.1 (r.1 * 65536)
      | none => r.1 * 65536
    match r.2 with
    | none => some (0x33, at0)
    | some d => if bits d 44 20 = devnum then none else some (0x35, at0)

/-- The indices of a gather, with all the labels of each one's atom, a buffered store's unformed ones among them: loads of the issuing stream (R127, R135, R172). A fault of one is the
command's, at the index's address (R356). -/
def State.readIndex (s : State) (c : Cmd) : Nat → Nat → Except Stop (List Nat × List (List Handle) × State)
  | 0, _ => .ok ([], [], s)
  | n + 1, i => do
    let a := c.src + 4 * i
    let at0 := fun (f : EngFault) => Stop.trap { cause := BitVec.ofNat 8 f.1, val := word f.2 }
    let l ← (match s.engLoc c .load a 4 with
      | .error f => .error (at0 f)
      | .ok l => .ok l)
    let loc : Loc := {
      space := l.space, addr := l.addr, len := 4, ea := a, kind := 2, labelled := l.labelled, frm := c.frame
      cache := l.cache && decide (c.who.core < 0x1000), owner := l.addr / 65536, remote := none }
    let (bs, hs, s1) ← (match s.loadGranule loc l.addr 4 with
      | .error (.trap t) => .error (at0 (t.cause.toNat, a))
      | r => r)
    let (is, ls, s2) ← (s1.accessed true loc).readIndex c n (i + 1)
    .ok (leNat bs :: is, hs :: ls, s2)

/-- What the issue step finds: a block that is ill-formed with an offence, nothing to do, a fault, a page whose pin count is full, or a
command that is queued (R135, R170, R356, R357, R362). -/
inductive Verdict where
  | ill (code : Nat)
  | empty
  | fault (f : EngFault)
  | full (page : Nat)
  | queued

/-- The class that a command is queued under: the PRIO of the lowest level of its launch whose SCOPE covers the destination's first byte; a task
with no such level uses its own PRIO (DEDUCED, log 88: R46 queues engine operations by class, R150 says how a class is found). -/
def State.engineClass (s : State) (c : Cmd) : Nat :=
  match c.launch, s.engSite c c.dst with
  | some l, .ok p => ((l.levels.find? fun v => covers s.host.phase v.scope c.who.core p.space p.addr).map (·.prio)).getD c.cls
  | _, _ => c.cls

/-- A command joins an engine's queue: behind the one that the engine runs and those of its own class and higher (R46, R169; log 88). -/
def Cmd.join (c : Cmd) : List Cmd → List Cmd
  | [] => [c]
  | h :: q => h :: insertBy (fun a b => decide (b.cls < a.cls)) c q

/-- The issue step: `rd` gets the handle, and the command is queued, completed, faulted or marked. One with LEN = 0 completes here,
without a handler even where HV = 1 (DESIGN CHOICE, log 73: nothing is written that could start one). For the stream's later loads the step of a
queued one is a store to each destination line (R129, R135). -/
def State.issueCmd (s : State) (e : Nat) (c : Cmd) (rd : BitVec 5) (v : Verdict) : State :=
  let sg := sgOf s.core.num
  let s := { s with nextId := s.nextId + 1 }
  let s := s.modEngine sg e fun k => { k with seq := (k.seq + 1) % 65536, issued := Tab.put 0 k.issued c.seq (c.who.uid + 1) }
  let s := s.putX rd ⟨c.handle, c.lc.headD always⟩
  let enqueue := fun (s : State) (c : Cmd) => s.modEngine sg e fun k => { k with queue := c.join k.queue }
  let bare := { c with left := [], lines := [], pins := [] }
  match v with
  | .ill code => enqueue ((s.deposit c 3).engRecord c 0x45 c.handle code c.block.toNat 0) { bare with ill := true }
  | .empty => s.deposit c 1
  | .fault f => s.faultCmd bare f
  | .full p => (s.deposit c 3).engRecord c 0x48 (word p) 0xFFFF 0 0
  | .queued =>
    let s := c.lines.foldl (fun s n => s.overtake false .main (n * 128) 128 2) s
    enqueue { s with
      host := { s.host with pins := c.pins.foldl (fun t p => Tab.put 0 t (sg * 2 ^ 24 + p) (Tab.get 0 t (sg * 2 ^ 24 + p) + 1)) s.host.pins }
      coh := c.lines.foldl (fun k n => k.grant n (1024 + sg)) s.coh } c

/-- The destination lines of main memory that a command owns. -/
def State.cmdLines (s : State) (c : Cmd) : List Nat :=
  let first := c.dst / 128
  ((upto (if c.dstLen = 0 then 0 else (c.dst + c.dstLen - 1) / 128 - first + 1)).filterMap fun i =>
    let a := max c.dst ((first + i) * 128)
    (if vspace a = .global then c.refs.find? fun r => decide (r.va = a / 65536) else none).bind fun r =>
      if s.paOk (physOf r.data a) then some (physOf r.data a / 128) else none).eraseDups

/-- A line stands in the ownership set of another engine agent than that of a super-group (R135). -/
def State.ownedBut (s : State) (sg line : Nat) : Bool :=
  s.engines.any fun p => decide (p.1 / 4 ≠ sg) && p.2.queue.any fun c => c.lines.contains line

/-- A byte of a command's destination lies in labelled space. -/
def State.dstLabelled (s : State) (c : Cmd) : Bool :=
  match vspace c.dst with
  | .own => (s.coreAt c.who.core).regs.lab
  | .pkg o => (s.coreAt o).regs.lab
  | .global => c.refs.any fun r => bit r.data 7 && overlap (r.va * 65536) 65536 c.dst c.dstLen
  | .hole => false

/-- The Product Lc is formed where something takes it as a label: rd, the deposit, or a labelled destination; where it only decides whether
unlabelled bytes are written, it is carried unformed (R70, R171, R208, R288). -/
def State.formLc (s : State) (formed : Bool) (c : Cmd) : Except Stop (Cmd × State) :=
  if formed then do
    let (h, s) ← s.prod c.lc
    .ok ({ c with lc := [h] }, s)
  else .ok (c, s)

/-- A well-formed command that moves something: its pages are translated, a gather's indices read, its pins counted and its lines waited
for (R107, R135, R172, R173). -/
def State.submit (s s' : State) (e : Nat) (c : Cmd) (d3 : Word) (rd : BitVec 5) : Except Stop Done :=
  let sg := sgOf s.core.num
  let ranges := (c.dst, c.dstLen) :: c.sources d3
  let done := fun (s : State) (c : Cmd) (v : Verdict) => .ok { st := s.issueCmd e c rd v }
  match s'.engXlate (unitsOfRanges ranges) s.strm.refs with
  | .error (u, rs) => waitAs (.tlb (u * 65536) 4) (s.modStrm fun x => { x with refs := rs })
  | .ok rs =>
    match refFault s.host.devnum.toNat ranges rs with
    | some f => done s' c (.fault f)
    | none =>
      let c := { c with refs := rs.filterMap fun r => r.2.map fun d => ⟨r.1, d⟩ }
      match (if e = 1 then s'.readIndex c c.len 0 else .ok ([], [], s')) with
      | .error (.trap t) => done s' c (.fault (t.cause.toNat, t.val.toNat))
      | .error r => .error r
      | .ok (is, ls, s') =>
        let pages := (c.refs.map fun r => physOf r.data (r.va * 65536 / pageSize r.data * pageSize r.data) / 65536).eraseDups
        if is.any fun x => decide (tableLen d3 < (x + 1) * 2 ^ c.esz) then done s' c (.ill 7)
        else match pages.find? fun p => decide (0xFFFF ≤ Tab.get 0 s.host.pins (sg * 2 ^ 24 + p)) with
          | some p => done s' c (.full p)
          | none =>
            let lines := s.cmdLines c
            if lines.any (s.ownedBut sg) then wait .engine
            else match s.coh.recall (1024 + sg) lines with
              | some coh => waitAs .engine { s with coh := coh }
              | none => do
                let (c, s') ← s'.formLc (decide (rd = 0) && decide (c.depreg = 0) && s.dstLabelled c) c
                done s' { c with index := is, ilbls := ls, pins := pages, lines := lines, cls := s.engineClass c } .queued

/-- `cpy`, `gth` and `coll` (R135, R169, R287). -/
def engineCommand (e : Nat) (d r : BitVec 5) : Body := fun s => do
  let a := s.xv r
  aligned a 32
  let (bs, hs, s') ← s.blockRead a
  if decide (s.mine ≠ []) || s.myReductions 7 then wait .accesses
  else if 64 ≤ (s.engineAt (sgOf s.core.num) e).queue.length then wait .engine
  else
    let s' ← s'.fold [s.xl r]
    let w := fun i => (dwords 4 bs).getD i 0
    let c := s'.cmdOf e a w ((hs ++ [s'.dep]).filter fun h => decide (h ≠ always))
    let (c, s') ← s'.formLc (decide (d ≠ 0) || decide (c.depreg ≠ 0)) c
    let off := blockOffence e w
    if off ≠ 0 then .ok { st := s'.issueCmd e c d (.ill off) }
    else if c.len = 0 then .ok { st := s'.issueCmd e c d .empty }
    else if c.overlaps (w 3) then .ok { st := s'.issueCmd e c d (.ill 6) }
    else s.submit s' e c (w 3) d

/-- The status of a cancel, and the command it takes off (R174, R358). -/
def State.cancelStatus (s : State) (h : Word) : Nat × Option Cmd :=
  let e := bits h 6 2
  let k := s.engineAt (bits h 0 6) e
  let q := bits h 8 16
  if decide (bits h 25 39 ≠ 0) || !bit h 24 || decide (e = 3) || decide (Tab.get 0 k.issued q ≠ s.task.info.uid + 1) then (2, none)
  else match k.queue.find? fun c => decide (c.seq = q) && !c.ill with
    | some c => (0, some c)
    | none => (1, none)

/-- The cancel step of a command (R135). -/
def State.cancelCmd (s : State) (c : Cmd) : State := (s.dropDormant c).endCmd c 2

/-- `eng.cancel` (R174, R287). A cancel step is not taken between the elements of one atom. The status is written first and the cancelled
deposit after it, so that the deposit remains where `rd` is DEPREG (DEDUCED, log 74: R141 has a deposit outlast a write of its cycle). -/
def engineCancel (d r : BitVec 5) : Body := fun s => do
  let (n, c) := s.cancelStatus (s.xv r)
  if c.any Cmd.torn then wait .engine
  else
    let s' ← s.writeX d (word n) []
    .ok { st := match c with
      | some c => s'.cancelCmd c
      | none => s' }

noncomputable section

def execCpy (d r : BitVec 5) (s : State) := s.run (.cpy d r) (engineCommand 0 d r)
def execGth (d r : BitVec 5) (s : State) := s.run (.gth d r) (engineCommand 1 d r)
def execColl (d r : BitVec 5) (s : State) := s.run (.coll d r) (engineCommand 2 d r)
def execEngCancel (d r : BitVec 5) (s : State) := s.run (.engCancel d r) (engineCancel d r)

end

/-! ### Engine steps (R135, R356, R357) -/

/-- The command that an engine runs: the head of a queue that is not halted. -/
def State.engHead (s : State) (sg e : Nat) : Option Cmd :=
  let k := s.engineAt sg e
  if k.halted then none else k.queue.head?

/-- ENGINE_ACCESS: the next access of a unit of the head command, if it meets no fault (R135). -/
def execEngineAccess (sg e i : Nat) (s : State) : Host.Outcome State Fault Refusal :=
  .next (match s.engHead sg e with
  | none => s
  | some c =>
    if c.ill then s
    else match s.engStep c i with
    | .error _ => s
    | .ok (s', c') => s'.modEngine sg e fun k => { k with queue := k.queue.map fun x => if x.id = c.id then c' else x })

/-- ENGINE_FAULT: the next access of a unit of the head command meets a fault, and no atom stands between two of its elements (R356). -/
def execEngineFault (sg e i : Nat) (s : State) : Host.Outcome State Fault Refusal :=
  .next (match s.engHead sg e with
  | none => s
  | some c =>
    if c.ill || (c.torn && !c.tornAt i) then s
    else match s.engStep c i with
    | .error f => s.faultCmd c f
    | .ok _ => s)

/-- ENGINE_COMPLETION (R135). -/
def execEngineCompletion (sg e : Nat) (s : State) : Host.Outcome State Fault Refusal :=
  .next (match s.engHead sg e with
  | none => s
  | some c => if c.ill || decide (c.left ≠ [] ∨ c.data ≠ []) then s else (s.readyDormant c).endCmd c 1)

/-- ENGINE_QUEUE_HALT (R357). -/
def execEngineQueueHalt (sg e : Nat) (s : State) : Host.Outcome State Fault Refusal :=
  .next (match s.engHead sg e with
  | none => s
  | some c => if c.ill then s.modEngine sg e fun k => { k with halted := true } else s)

/-- A halted queue is released: the ill-formed head goes, and with `flush` every queued command takes the cancel step; how many did
(R308, R357). -/
def State.restartEngine (s : State) (sg e : Nat) (flush : Bool) : Nat × State :=
  let k := s.engineAt sg e
  let s := s.modEngine sg e fun k => { k with halted := false, queue := if k.halted then k.queue.drop 1 else k.queue }
  if flush then
    let q := (s.engineAt sg e).queue
    let live := q.filter fun c => !c.ill
    (live.length, (live.foldl (fun s c => s.cancelCmd c) s).modEngine sg e fun k => { k with queue := [] })
  else
    let _ := k
    (0, s)

end Sys2Proof.Machine
end

