-- ==== Sys2Proof/Machine/Firmware.lean ====
section
/-!
DEFINITION. The firmware requests of R306 to R310, codes 0x00 to 0x13: frames, images, translation, eviction schedule, spillway,
engine restarts, pre-emption, meters, attestation, keys and certificates (R37, R55, R56, R109, R118, R120, R148, R182, R197, R233,
R236, R260-R263, R313-R325, R332, R357).
-/

namespace Sys2Proof.Machine

/-! ### Requests (R306, R307, R309) -/

/-- A request as the firmware has read it: its channel, TARGET and arguments. -/
structure Ask where
  chan : Nat
  target : Nat
  arg : Nat → Word

/-- What a request ends with: status, result, DATA dwords and the state its effect leaves. -/
structure Answered where
  status : Nat
  result : Nat := 0
  data : List Word := []
  st : State

/-- A request's effect; nothing where its condition says to wait. -/
abbrev Serve := Ask → State → Option Answered

/-- A request that ends with a status and no effect. -/
def stop (n : Nat) (s : State) : Option Answered := some { status := n, st := s }

/-- The virtual address of a channel's block. -/
def State.blockVa (s : State) (h : Nat) : Nat := (s.host.block.getD h 0).toNat

/-- A channel's block as the firmware reads it: its place, an unlabelled page of the own device, and its sixteen dwords; of a request under
way, what was read when it started (R307). -/
def State.reqBlock (s : State) (h : Nat) : Option (Nat × List Word) :=
  match s.host.begun.find? fun b => decide (b.chan = h) with
  | some b => some (b.pa, b.words)
  | none => match s.place s.hostXlate true (s.blockVa h), s.vaBytes s.hostXlate (s.blockVa h) 128 with
    | some (pa, false), some bs => some (pa, dwords 16 bs)
    | _, _ => none

/-- Host writes made through service core `0x1040 + h`, or not yet given to a service core, have still to perform (R310). -/
def State.hostBehind (s : State) (h : Nat) : Bool :=
  decide (Tab.get [] s.host.queues h ≠ []) || s.host.held.any (·.write)

/-- The request completes: STATUS, DONE and BUSY (R306). -/
def State.finishRequest (s : State) (h status : Nat) : State :=
  { s with host := { s.host with
    busy := s.host.busy.setIfInBounds h false, done := s.host.done.setIfInBounds h (s.host.done.getD h 0 + 1)
    status := s.host.status.setIfInBounds h (BitVec.ofNat 8 status), begun := s.host.begun.filter fun b => decide (b.chan ≠ h) } }

/-- DATA, then RESULT, then completion; the block stands at physical address `pa` (R307). -/
def Answered.finish (a : Answered) (h pa : Nat) : State :=
  let s := a.st
  let s := if a.data.isEmpty then s else s.homeWrite (pa + 0x40) (dwordBytes a.data)
  let s := s.homeWrite (pa + 8) (bytesOf (word (a.status * 2 ^ 56 + a.result % 2 ^ 56)))
  s.finishRequest h a.status

/-- Arguments `used` upward to ARG5 are zero. -/
def unusedZero (used : Nat) (arg : Nat → Word) : Bool := (upto 6).all fun i => decide (i < used) || decide (arg i = 0)

/-- The firmware reads byte ranges at host addresses: an atom with one bit in error is corrected (R352). -/
def State.mendReads (s : State) (rs : List (Word × Nat)) : State :=
  rs.foldl (fun s r => if r.1 = 0 || r.2 = 0 then s else s.mendHost r.1.toNat r.2) s

/-- A request on channel `h` of a code that `owns` accepts, `used` arguments wide: the firmware reads the block once, when the host's
earlier writes have performed, checks it and serves it; a request that must wait keeps what was read (R307, R310). A block of another
code, or a channel without a request, leaves the event without effect. -/
def State.request (s : State) (h : Nat) (owns : Nat → Bool) (used : Nat) (serve : Serve) : State :=
  let fresh := s.host.begun.all fun b => decide (b.chan ≠ h)
  if !s.host.busy.getD h false || decide (s.host.phase = 0) || (fresh && s.hostBehind h) then s
  else match s.reqBlock h with
    | none => s.finishRequest h 2
    | some (pa, ws) =>
      let hd := ws.headD 0
      let q : Ask := ⟨h, bits hd 32 16, fun i => ws.getD (2 + i) 0⟩
      if !owns (bits hd 56 8) then s
      else
      let s := if fresh then s.mendReads [(s.host.block.getD h 0, 128)] else s
      if decide (bits hd 48 8 ≠ 0) || !unusedZero used q.arg then
        ({ status := if owns 0 then 0xFE else 2, st := s } : Answered).finish h pa
      else match serve q s with
        | some a => a.finish h pa
        | none => if fresh then { s with host := { s.host with begun := s.host.begun ++ [⟨h, pa, ws⟩] } } else s

/-- A request of one code. -/
def State.requestOf (s : State) (h code used : Nat) (serve : Serve) : State := s.request h (fun c => decide (c = code)) used serve

/-- `n` bytes at a host virtual address. -/
def State.hostBytes (s : State) (va : Word) (n : Nat) : Option (List Byte) := s.vaBytes s.hostXlate va.toNat n

/-! ### Frames (R55, R56, R332) -/

/-- Every core that something has touched since reset. -/
def State.cores (s : State) : List Core := s.core :: s.parked.map (·.2)

/-- Every task of a core. -/
def Core.tasks (k : Core) : List Task := (if k.running then [k.task] else []) ++ k.slots.map (·.2)

/-- A frame has a task in a run queue of its die (R56). -/
def State.frameUsed (s : State) (die : Nat) (f : BitVec 8) : Bool :=
  s.cores.any fun k => decide (dieOf k.num = die) && k.tasks.any fun t => decide (t.frame = f)

/-- The frame that ARG0 names, if it is a frame number and TARGET a die. -/
def Ask.frame (q : Ask) : Option (BitVec 8) :=
  if q.target < 2 ∧ (q.arg 0).toNat < 256 then some (BitVec.ofNat 8 (q.arg 0).toNat) else none

/-- A frame reset (R56). -/
def Frame.reset (f : Frame) : Frame := { f with inc := false, next := 1, nogoods := [] }

/-- A frame under a new descriptor (R55). -/
def Frame.describe (f : Frame) (w : Word) : Frame :=
  { f with v := bit w 63, policy := bit w 62, metered := bit w 61, tbase := BitVec.ofNat 32 (bits w 16 32), cap := BitVec.ofNat 16 (bits w 0 16) }

def frameCreate : Serve := fun q s =>
  match q.frame with
  | none => stop 2 s
  | some f =>
    if !bit (q.arg 1) 63 || decide (bits (q.arg 1) 48 13 ≠ 0) then stop 2 s
    else if s.frameUsed q.target f then stop 5 s
    else stop 0 (s.setFrame q.target f ((s.frameAt q.target f).describe (q.arg 1)).reset)

def frameReset : Serve := fun q s =>
  match q.frame with
  | none => stop 2 s
  | some f =>
    if bits (q.arg 1) 1 63 ≠ 0 then stop 2 s
    else if s.frameUsed q.target f then stop 5 s
    else
      let fr := (s.frameAt q.target f).reset
      stop 0 (s.setFrame q.target f (if bit (q.arg 1) 0 then { fr with v := false } else fr))

def frameRead : Serve := fun q s =>
  match q.frame with
  | none => stop 2 s
  | some f =>
    let fr := s.frameAt q.target f
    some { status := 0, data := [fr.descriptor, fr.status, fr.fq], st := s }

/-- A change of EN from 0 to 1 clears TAIL, HEAD and LOST (R332). -/
def State.openQueue (s : State) (old new : Word) : State :=
  if !bit old 0 && bit new 0 then s.putPlain (bits new 12 36 * 4096) (List.replicate 24 0) else s

def faultqSet : Serve := fun q s =>
  match q.frame with
  | none => stop 2 s
  | some f =>
    let w := q.arg 1
    if bits w 48 16 ≠ 0 ∨ bits w 1 7 ≠ 0 then stop 2 s
    else
      let fr := s.frameAt q.target f
      stop 0 ((s.setFrame q.target f { fr with fq := w }).openQueue fr.fq w)

def execFrameCreate (h : Nat) (s : State) : Host.Outcome State Fault Refusal := .next (s.requestOf h 0x01 2 frameCreate)
def execFrameReset (h : Nat) (s : State) : Host.Outcome State Fault Refusal := .next (s.requestOf h 0x02 2 frameReset)
def execFrameRead (h : Nat) (s : State) : Host.Outcome State Fault Refusal := .next (s.requestOf h 0x03 1 frameRead)
def execFaultqSet (h : Nat) (s : State) : Host.Outcome State Fault Refusal := .next (s.requestOf h 0x04 2 faultqSet)

/-! ### Images (R182, R183, R197, R318, R319) -/

/-- The application cores of a group. -/
def groupCores (g : Nat) : List Nat := (upto 16).map fun i => g * 16 + i

/-- A run queue of the group holds a task (R197). -/
def State.groupUsed (s : State) (g : Nat) : Bool := (groupCores g).any fun c => !(s.coreAt c).tasks.isEmpty

/-- The entries of a `.routab` image written into a routine table: those with V = 1, with ATTESTED as decided (R28, R183, R308). -/
def loadRoutines (img : List Word) (att : Bool) (t : Tab Routine) : Tab Routine :=
  (upto 63).foldl (fun t i =>
    let w := img.getD (2 * i) 0
    if bit w 63 then
      Tab.put {} t (i + 1) { v := true, entry := BitVec.ofNat 15 (bits w 48 15), frame := BitVec.ofNat 8 (bits w 40 8),
                             attested := att, ctx := img.getD (2 * i + 1) 0 }
    else t) t

/-- The optional parts of an image: absent at address 0; nothing where an address does not translate. -/
def State.optional (s : State) (va : Word) (n : Nat) : Option (List Byte) := if va = 0 then some [] else s.hostBytes va n

/-- The image at one group (R182, R308, R319). The atoms of its scratchpad part carry handle 0x0000, whatever SPFRAME holds, as those of a
host write do (DESIGN CHOICE, log 89: R182 copies bytes and names no handle). -/
def State.loadImage (s : State) (g : Nat) (text tab spm : List Byte) (att : Bool) (digest : List Byte) : State :=
  let s := { s with mem := { s.mem with imem := Tab.fill 0 s.mem.imem (g * 65536) text } }
  let s := s.modGroup g fun k => { k with measure := digest }
  (groupCores g).foldl (fun s c =>
    let s := s.modCore c fun k => { k with regs := { k.regs with rout := loadRoutines (dwords 126 tab) att k.regs.rout } }
    if spm.isEmpty then s else s.spmWrite (c * 65536) spm) s

def imageLoad : Serve := fun q s =>
  let n := (q.arg 1).toNat
  let m := (q.arg 5).toNat
  if 256 ≤ q.target ∨ n % 2 ≠ 0 ∨ 0x10000 < n ∨ 0xF000 < m then stop 2 s
  else
  let s := s.mendReads [(q.arg 0, n), (q.arg 2, 1008), (q.arg 3, 256), (q.arg 4, m)]
  match (if n = 0 then some [] else s.hostBytes (q.arg 0) n), s.optional (q.arg 2) 1008, s.optional (q.arg 3) 256,
      (if m = 0 then some [] else s.optional (q.arg 4) m) with
    | some text, some tab, some stm, some spm =>
      let digest := Config.sha512 (text ++ tab)
      if s.groupUsed q.target then stop 5 s
      else if !stm.isEmpty && !s.measured stm then stop 3 s
      else
        let att := !stm.isEmpty && decide (measOf stm = digest)
        let sets := (upto 63).any fun i => bit ((dwords 126 tab).getD (2 * i) 0) 63
        some { status := 0, result := if att && sets then 1 else 0, st := s.loadImage q.target text tab spm att digest }
    | _, _, _, _ => stop 2 s

def execImageLoad (h : Nat) (s : State) : Host.Outcome State Fault Refusal := .next (s.requestOf h 0x05 6 imageLoad)

/-! ### Eviction schedule, spillway, TVEC (R109, R148, R233) -/

/-- Pairs of dwords as schedule entries, reserved bits zero. -/
def entries : List Word → List (Word × Word)
  | a :: b :: ws => (a &&& 0xFFFFFFFFFFFF0000, b &&& 0x0001FFFFFFFF0000) :: entries ws
  | _ => []

def evictLoad : Serve := fun q s =>
  let n := (q.arg 1).toNat
  if 1024 < n then stop 2 s
  else
  let s := s.mendReads [(q.arg 0, 16 * n)]
  match (if n = 0 then some [] else s.hostBytes (q.arg 0) (16 * n)) with
    | none => stop 2 s
    | some bs => stop 0 { s with coh := { s.coh with evict := entries (dwords (2 * n) bs) } }

/-- SPILL written: a change of EN from 0 to 1 makes every word read zero with label ALWAYS (R148). -/
def Die.setSpill (d : Die) (w : Word) : Die :=
  if !bit d.spill 0 && bit w 0 then { d with spill := w, words := [], wordEcc := [], disturbed := none } else { d with spill := w }

def spillSet : Serve := fun q s =>
  let w := q.arg 0
  if 2 ≤ q.target ∨ bits w 48 16 ≠ 0 ∨ bits w 1 7 ≠ 0 then stop 2 s
  else
    let d := s.dieAt q.target
    if !d.sluiceq.isEmpty || !d.waiters.isEmpty then none
    else stop 0 (s.modDie q.target fun d => d.setSpill w)

def tvecSet : Serve := fun q s =>
  let w := q.arg 0
  if 0x1047 < q.target ∨ w &&& ~~~0xFFFE ≠ 0 then stop 2 s
  else stop 0 (s.modCore q.target fun k => { k with regs := { k.regs with tvec := evenOff w } })

def execEvictLoad (h : Nat) (s : State) : Host.Outcome State Fault Refusal := .next (s.requestOf h 0x06 2 evictLoad)
def execSpillSet (h : Nat) (s : State) : Host.Outcome State Fault Refusal := .next (s.requestOf h 0x07 1 spillSet)
def execTvecSet (h : Nat) (s : State) : Host.Outcome State Fault Refusal := .next (s.requestOf h 0x08 1 tvecSet)

/-! ### Translation (R118, R120, R236) -/

/-- A translation service core's page-lock table holds a count (R120). -/
def State.pinned (s : State) (sg : Nat) : Bool := s.host.pins.any fun p => decide (p.1 / 2 ^ 24 = sg)

/-- The TLB entries of a group's four tiles go. -/
def State.dropGroup (s : State) (g : Nat) : State :=
  let s := ((upto 4).map (g * 4 + ·)).foldl State.forgetRefs s
  { s with tlb := s.tlb.filter fun p => decide (p.1 / 256 / 4 ≠ g) }

/-- The base is bound. A group's binding waits while a page of its super-group is pinned (R120). -/
def aspaceSet : Serve := fun q s =>
  let w := q.arg 0
  if w &&& ~~~0x0000FFFFFFFFE001 ≠ 0 ∨ (256 ≤ q.target ∧ q.target ≠ 0xFFFF) then stop 2 s
  else if q.target = 0xFFFF then stop 0 { s with host := { s.host with aspace := w, cache := [] } }
  else if s.pinned (q.target / 4) then none
  else stop 0 ((s.modGroup q.target fun k => { k with aspace := w }).dropGroup q.target)

/-- The entries of a tile that a TLB-INVALIDATE names. -/
def State.named (s : State) (all : Bool) (va tile : Nat) : List (Nat × Word) :=
  if all then (s.tlb.filter fun p => decide (p.1 / 256 = tile) && bit p.2.1 0).map fun p => (p.1, p.2.2) else s.tlbMatches tile va

/-- A host access that was translated through a page stands in a service core's queue (R236, R298). -/
def State.hostThrough (s : State) (data : Word) : Bool :=
  s.host.queues.any fun p => p.2.any fun j => match j with
    | .access q => decide (q.space = .main) && overlap q.addr q.n (physOf data 0) (pageSize data)
    | .launch _ => false

/-- The entries go once no access issued through one of them is still to perform (R236). -/
def tlbInvalidate : Serve := fun q s =>
  let all := bit (q.arg 1) 0
  let va := (q.arg 0).toNat
  if bits (q.arg 1) 1 63 ≠ 0 ∨ (256 ≤ q.target ∧ q.target ≠ 0xFFFF) then stop 2 s
  else if q.target = 0xFFFF then
    let named := s.host.cache.filter fun p => bit p.2.1 0 && (all || tlbMatch p.2.1 p.2.2 va)
    if named.any fun p => s.hostThrough p.2.2 then none
    else stop 0 { s with host := { s.host with cache := s.host.cache.filter fun p => !named.contains p } }
  else
    let ms := (upto 4).map fun i => (q.target * 4 + i, s.named all va (q.target * 4 + i))
    let at0 := fun (e : Nat × Word) => bits (Tab.get (0, 0) s.tlb e.1).1 16 32 * 65536
    if ms.any fun m => m.2.any fun e => !(s.through m.1 e.2 (at0 e)).isEmpty || s.farThrough m.1 e.2 (at0 e)
    then none
    else stop 0 (s.tlbDrop (ms.flatMap fun m => m.2.map (·.1)))

def execAspaceSet (h : Nat) (s : State) : Host.Outcome State Fault Refusal := .next (s.requestOf h 0x09 1 aspaceSet)
def execTlbInvalidate (h : Nat) (s : State) : Host.Outcome State Fault Refusal := .next (s.requestOf h 0x0A 2 tlbInvalidate)

/-! ### Engines and pre-emption (R37, R357) -/

def engineRestart : Serve := fun q s =>
  let w := q.arg 0
  if 64 ≤ q.target ∨ w &&& ~~~0x103 ≠ 0 ∨ bits w 0 2 = 3 then stop 2 s
  else if (s.engineAt q.target (bits w 0 2)).halted then
    let (n, s) := s.restartEngine q.target (bits w 0 2) (bit w 8)
    some { status := 0, result := n, st := s }
  else stop 0 s

/-- A pre-emption request posted to a task in a slot, or to every task. -/
def Task.ask (slot : Nat) (t : Task) : Task :=
  if slot = 0xFF ∨ t.info.slot = slot then { t with info := { t.info with preempt := true } } else t

def preemptTasks : Serve := fun q s =>
  let n := (q.arg 0).toNat
  if 0x1047 < q.target ∨ (64 ≤ n ∧ n ≠ 0xFF) then stop 2 s
  else stop 0 (s.modCore q.target fun k =>
    { k with task := if k.running then k.task.ask n else k.task, slots := k.slots.map fun p => (p.1, p.2.ask n) })

def execEngineRestart (h : Nat) (s : State) : Host.Outcome State Fault Refusal := .next (s.requestOf h 0x0B 1 engineRestart)
def execPreempt (h : Nat) (s : State) : Host.Outcome State Fault Refusal := .next (s.requestOf h 0x0C 1 preemptTasks)

/-! ### Meters, attestation and keys (R260-R263, R313, R318, R324) -/

/-- A registration takes effect only if the storage accepts its checkpoint (R261, R309). -/
def regionRegister (stored : Bool) : Serve := fun q s =>
  if (q.arg 0).toNat % 32 ≠ 0 then stop 2 s
  else match s.hostBytes (q.arg 0) 32 with
    | none => stop 2 s
    | some bs =>
      if s.formsIn ≠ [] then none
      else
      let ds := dwords 4 bs
      let s := s.mendReads [(q.arg 0, 32), if s.refusesRegion ds then (0, 0) else (ds.getD 2 0, 256)]
      let (st, s') := s.tryRegister ds (s.hostBytes (ds.getD 2 0) 256)
      if st ≠ 0 then some { status := 0, result := st, st := s }
      else
        let (ok, s'') := s'.checkpointBy stored
        if ok then stop 0 s'' else stop 4 (s.checkpointBy stored).2

/-- The buffer of a signed statement: its nonce and its pieces. -/
def State.hostBuffer (s : State) (va : Word) : Option (List Byte × List (Nat × Nat)) :=
  if va.toNat % 64 ≠ 0 then none
  else match s.hostBytes va 16, s.vaPieces s.hostXlate true va.toNat 256 with
    | some n, some ps => some (n, ps)
    | _, _ => none

def regionRead : Serve := fun q s =>
  if 4096 ≤ q.target then stop 2 s
  else
    let s := s.mendReads [(q.arg 0, 16)]
    match s.hostBuffer (q.arg 0) with
    | none => stop 2 s
    | some (nonce, ps) =>
      let x := s.region q.target
      if s.formsIn ≠ [] then none
      else if !x.live then some { status := 0, result := 1, st := s }
      else if s.seqHeld then none
      else
        let s := s.nextSeq
        stop 0 (s.putPieces (signed nonce (headWord 1 false) (meterBody q.target x (word s.sec.seq))) ps)

/-- A launch of a metered frame is pending on the package (R324). -/
def State.meteredPending (s : State) : Bool :=
  s.dies.toList.any fun d => d.pending.any fun p => p.2.live && s.meteredLaunch (recFrame p.2.record) p.2.cores

/-- Checkpoint, FINAL statement, removal (R324). -/
def regionRetire (stored : Bool) : Serve := fun q s =>
  if 4096 ≤ q.target ∨ !(s.region q.target).live then stop 2 s
  else
    let s := s.mendReads [(q.arg 0, 16)]
    match s.hostBuffer (q.arg 0) with
    | none => stop 2 s
    | some (nonce, ps) =>
      if s.meteredPending then stop 5 s
      else
        let (ok, s) := s.checkpointBy stored
        if !ok then stop 4 s
        else
          let s := s.nextSeq
          let m := signed nonce (headWord 1 true) (meterBody q.target (s.region q.target) (word s.sec.seq))
          let s := s.putPieces m ps
          stop 0 { s with sec := { s.sec with regions := Tab.put {} s.sec.regions q.target {} } }

def attestRequest : Serve := fun q s =>
  let s := s.mendReads [(q.arg 0, 16)]
  match s.hostBuffer (q.arg 0) with
  | none => stop 2 s
  | some (nonce, ps) =>
    if s.formsIn ≠ [] || s.seqHeld then none
    else
      let s := s.nextSeq
      stop 0 (s.putPieces (signed nonce (headWord 2 false) (s.reportBody (word s.sec.seq))) ps)

def checkpointRequest (stored : Bool) : Serve := fun _ s =>
  if s.formsIn ≠ [] then none
  else
  let (ok, s) := s.checkpointBy stored
  some { status := if ok then 0 else 4, result := if ok then 0 else 1, st := s }

/-- A key is installed if its chain leads to the Zwinor root (R318). -/
def keyInstall (stored : Bool) : Serve := fun q s =>
  let n := (q.arg 1).toNat
  if 16 ≤ q.target ∨ 8192 < n then stop 2 s
  else
    let s := s.mendReads [(q.arg 0, n)]
    match s.hostBytes (q.arg 0) n with
    | none => stop 2 s
    | some bs =>
      if !Config.chainOk bs then stop 3 s
      else if !stored then stop 4 s
      else stop 0 { s with sec := { s.sec with keys := Tab.put [] s.sec.keys q.target (Config.chainKey bs) } }

/-- DEVCERT, at most 1 KiB (R313). -/
def deviceCert : List Byte := Config.devCert.take 1024

def certRead : Serve := fun q s =>
  let n := deviceCert.length
  if (q.arg 1).toNat < n then stop 2 s
  else
    let s := s.walksHost (q.arg 0).toNat n
    match s.vaPieces s.hostXlate true (q.arg 0).toNat n with
    | none => stop 2 s
    | some ps => some { status := 0, result := n, st := s.putPieces deviceCert ps }

def execRegionRegister (h : Nat) (stored : Bool) (s : State) : Host.Outcome State Fault Refusal :=
  .next (s.requestOf h 0x0D 1 (regionRegister stored))
def execRegionRead (h : Nat) (s : State) : Host.Outcome State Fault Refusal := .next (s.requestOf h 0x0E 1 regionRead)
def execRegionRetire (h : Nat) (stored : Bool) (s : State) : Host.Outcome State Fault Refusal :=
  .next (s.requestOf h 0x0F 1 (regionRetire stored))
def execAttestRequest (h : Nat) (s : State) : Host.Outcome State Fault Refusal := .next (s.requestOf h 0x10 1 attestRequest)
def execCheckpoint (h : Nat) (stored : Bool) (s : State) : Host.Outcome State Fault Refusal :=
  .next (s.requestOf h 0x11 0 (checkpointRequest stored))
def execKeyInstall (h : Nat) (stored : Bool) (s : State) : Host.Outcome State Fault Refusal :=
  .next (s.requestOf h 0x12 2 (keyInstall stored))
def execCertRead (h : Nat) (s : State) : Host.Outcome State Fault Refusal := .next (s.requestOf h 0x13 2 certRead)

/-! ### Reserved codes (R308, R309) -/

/-- CODE is 0x00 or reserved. -/
def reservedCode (c : Nat) : Bool := decide (c = 0) || decide (0x15 ≤ c)

def execReservedRequestCode (h : Nat) (s : State) : Host.Outcome State Fault Refusal :=
  .next (s.request h reservedCode 6 fun _ s => stop 0xFE s)

end Sys2Proof.Machine
end

