-- ==== Sys2Proof/Machine/Ring.lean ====
section
/-!
DEFINITION. Major 0x12 and its events: boarding, capturing and alighting on the ringdike (R22, R140, R142-R147, R252, R345).
-/

namespace Sys2Proof.Machine

/-- The station of a core (R22; log 6 for service cores). -/
def station (c : Nat) : Nat := tileOf c % 512

/-- The slot that passes station `t` in cycle `c` (R143). -/
def slotAt (t c : Nat) : Option Nat :=
  let k := (t + 512 - c % 512) % 512
  if k % 2 = 0 then some (k / 2) else none

/-- Slot `j` of a die. -/
def State.slot (s : State) (die j : Nat) : Slot := Tab.get {} (s.dieAt die).slots j

/-- A slot replaced. -/
def State.putSlot (s : State) (die j : Nat) (x : Slot) : State :=
  s.modDie die fun d => { d with slots := Tab.put {} d.slots j x }

/-- The slot carries the action's variable (R143). -/
def RingReq.matches (q : RingReq) (x : Slot) : Bool := x.v && decide (x.frame = q.frame ∧ x.key = q.key)

/-- f3 and f7 of an operation as dword 5 of a record (R345). -/
def RingOp.code : RingOp → Nat
  | .board => 0
  | .read => 1
  | .add => 1 + 8
  | .min => 1 + 16
  | .max => 1 + 24
  | .swap => 1 + 32
  | .cas => 1 + 40
  | .alight => 2

/-- The order of two actions of one station (R144). -/
def RingReq.first (a b : RingReq) : Bool :=
  decide (a.who.core < b.who.core) || (decide (a.who.core = b.who.core) && decide (a.who.stream ≤ b.who.stream))

/-- Two actions share a station. -/
def RingReq.together (a b : RingReq) : Bool :=
  decide (dieOf a.who.core = dieOf b.who.core ∧ station a.who.core = station b.who.core)

/-- The action of `q` leaves the station. -/
def State.ringLeave (s : State) (q : RingReq) : State := { s with ringq := s.ringq.filter fun x => decide (x.who ≠ q.who) }

/-- An action under DEP with the address operands' labels folded in; where any of its labels cannot be formed, it has touched nothing and
the instruction traps (R67, R147, R341, R342). `fold` is then the DEP that the instruction leaves. -/
def State.ringDo (s : State) (q : RingReq) (go : State → RingReq → Except Trap State) : State :=
  match s.form (dieOf q.who.core) q.frame false (q.dep :: q.fold) with
  | .error t => s.answer q.who (.trap (s.found (dieOf q.who.core) q.frame t))
  | .ok (dep, s1) =>
    match go s1 { q with dep := if s.mootParty q.who then never else dep, fold := [dep] } with
    | .error t => s.answer q.who (.trap (s.found (dieOf q.who.core) q.frame t))
    | .ok s2 => s2

/-- An action is answered with its value under the Product of some labels and DEP (R147, R208). -/
def State.ringEnds (s : State) (q : RingReq) (v : Word) (hs : List Handle) : Except Trap State := do
  let (h, s) ← (if q.noRd then .ok (always, s) else s.form (dieOf q.who.core) q.frame false (hs ++ [q.dep]))
  .ok (s.answer q.who (.value v h (q.fold.headD always)))

/-- What a capture makes of the old value: the new value and the labels of the new HANDLE beside DEP, or nothing (R147). -/
def RingReq.change (q : RingReq) (x : Slot) : Option (Word × List Handle) :=
  let b := q.opd.val
  let l := [x.handle, q.opd.lbl]
  match q.op with
  | .add => some (x.value + b, l)
  | .min => some (if x.value.toInt ≤ b.toInt then x.value else b, l)
  | .max => some (if x.value.toInt < b.toInt then b else x.value, l)
  | .swap => some (b, [q.opd.lbl])
  | .cas => if x.value = q.expected.val then some (b, [x.handle, q.expected.lbl, q.opd.lbl]) else none
  | .board | .read | .alight => none

/-- A slot action that writes a HANDLE: on NEVER, `onNever`; else the slot and the result. -/
def State.ringWrite (s : State) (q : RingReq) (hs : List Handle) (onNever : State → Except Trap State)
    (go : Handle → State → Except Trap State) : Except Trap State := do
  let (h, s1) ← s.form (dieOf q.who.core) q.frame false (hs ++ [q.dep])
  if h = never then onNever (s1.suppress q.who.core q.who.uid) else go h s1

/-- The stream's alight has a store for another package: it waits for the home's answer, its result kept (R119). -/
def State.ringSends (s : State) (q : RingReq) (k : Kept) : State :=
  s.modParty q.who fun t =>
    let t := t.modStrm q.who.stream fun x => { x with kept := some k, wait := some ⟨.remote k.va k.home, s.cycleAt q.who.core⟩ }
    if t.info.status = .blocked then { t with info := { t.info with status := .ready, readySince := s.cycleAt q.who.core, aged := 0 } } else t

/-- The effect of an alight on the slot `x` it meets (R70, R119, R145, R208, R288, R353). The store of an unlabelled home carries its labels
unformed; one for another package makes its visibility test here, as it leaves. -/
def State.ringAlight (s : State) (q : RingReq) (j : Nat) (x : Slot) : Except Trap State := do
  let d := dieOf q.who.core
  let hs := [x.handle, q.dep]
  let kept := q.store.any (·.labelled)
  let (h, s) ← (if !(q.noRd && !kept) then s.form d q.frame false hs
    else match s.badRecordOf d q.frame hs with
      | some a => .error { cause := 0x34, val := word a }
      | none => .ok (always, s.readRecords d q.frame hs))
  let s := s.putSlot d j { x with v := false }
  let dep := q.fold.headD always
  let place := fun (s : State) (e : SbEntry) => { s with
    inbound := s.inbound ++ [{ e with bytes := bytesOf x.value, lbls := if kept then [h] else hs.filter fun l => decide (l ≠ always) }] }
  match q.store, q.far with
  | some e, _ => .ok ((place s e).answer q.who (.value x.value h dep))
  | none, some (va, home) =>
    if s.visible d q.frame (s.rawProduct d q.frame hs) q.ctx then .ok (s.ringSends q ⟨x.value, h, dep, va, home⟩)
    else .ok ((s.suppress q.who.core q.who.uid).answer q.who (.value x.value h dep))
  | none, none => .ok (s.answer q.who (.value x.value h dep))

/-- The effect of action `q` on slot `j` as it passes, or nothing where the slot does not satisfy it (R145-R147). -/
def State.ringTake (s : State) (q : RingReq) (j : Nat) : Option State :=
  let d := dieOf q.who.core
  let x := s.slot d j
  match q.op with
  | .board =>
    if !x.v then
      some (s.ringDo q fun s q => s.ringWrite q [q.opd.lbl] (fun s1 => s1.ringEnds q 3 []) fun h s1 =>
        (s1.putSlot d j ⟨true, q.frame, h, q.key, q.opd.val⟩).ringEnds q 0 [])
    else if q.matches x then some (s.ringDo q fun s q => s.ringEnds q 2 []) else none
  | .alight => if !q.matches x then none else some (s.ringDo q fun s q => s.ringAlight q j x)
  | _ =>
    if !q.matches x then none
    else match q.change x with
      | none => some (s.ringDo q fun s q => s.ringEnds q x.value [x.handle])
      | some (v, hs) =>
        some (s.ringDo q fun s q => s.ringWrite q hs (fun s1 => s1.ringEnds q x.value [x.handle]) fun h s1 =>
          (s1.putSlot d j { x with value := v, handle := h }).ringEnds q x.value [x.handle])

/-- The place of a stream in the order of a station's actions: core by core, the execute stream before the access stream (R144). -/
def Party.rank (w : Party) : Nat := w.core * 2 + w.stream

/-- An action that comes after those of the stream has been taken in this cycle's passage (R144). -/
def State.ringLate (s : State) (w : Party) : Bool :=
  let t := Tab.get (0, 0) (s.dieAt (dieOf w.core)).ringTurn (station w.core)
  decide (t.1 = s.cycleAt w.core ∧ w.rank < t.2)

/-- An action of the stream is taken in this cycle's passage. -/
def State.ringTurns (s : State) (w : Party) : State :=
  s.modDie (dieOf w.core) fun d => { d with ringTurn := Tab.put (0, 0) d.ringTurn (station w.core) (s.cycleAt w.core, w.rank) }

/-- The slot that passes now takes the action, if it satisfies it and its turn in the passage has not gone by (R140, R144). -/
def State.ringTry (s : State) (q : RingReq) : Option State :=
  match slotAt (station q.who.core) (s.cycleAt q.who.core) with
  | none => none
  | some j => if s.ringLate q.who then none else ((s.ringLeave q).ringTurns q.who).ringTake q j

/-- A board has met no empty slot in 512 cycles (R146). -/
def State.boardOver (s : State) (q : RingReq) : Bool := decide (q.op = .board) && decide (q.since + 512 ≤ s.cycleAt q.who.core)

/-- A capture or alight meets a passage at or after its bound (R345). -/
def State.ringOver (s : State) (q : RingReq) : Bool :=
  decide (q.op ≠ .board) && decide (q.since + 1048576 ≤ s.cycleAt q.who.core) && (slotAt (station q.who.core) (s.cycleAt q.who.core)).isSome

/-- The trap of the bound (R345). -/
def RingReq.absent (q : RingReq) : Trap :=
  { cause := 0x22, val := q.key.setWidth 64, d5 := word q.op.code, d6 := word (station q.who.core) }

/-- A board that has met no empty slot ends with status 1 (R146). -/
def State.boardEnds (s : State) (q : RingReq) : State := (s.ringLeave q).ringDo q fun s q => s.ringEnds q 1 []

/-- What the current cycle does to an outstanding action: status 1, the action, the bound's trap, or nothing. -/
def State.ringServe (s : State) (q : RingReq) : State :=
  if s.boardOver q then s.boardEnds q
  else match s.ringTry q with
    | some s' => s'
    | none => if s.ringOver q then (s.ringLeave q).answer q.who (.trap q.absent) else s

/-- A capture or alight that has met no matching slot in a revolution is a blocking wait from then on: whether it holds the core is settled
now; if not, it gives it up, and a moot task leaves it (R37, R74, R145). -/
def State.ringYield (s : State) (q : RingReq) : State :=
  let k := s.coreAt q.who.core
  let now := s.cycleAt q.who.core
  if q.op ≠ .board && decide (q.since + 512 ≤ now) && decide (q.who.stream = 0) && k.running && decide (k.task.info.uid = q.who.uid) then
    if k.task.moot then s.leaveWait q.who.core q.who.uid
    else s.modCore q.who.core fun c =>
      (if q.since + 512 = now then { c with task := c.task.modStrm 0 fun x => { x with holds := c.mustHold } } else c).yield
  else s

/-- Every action left in this cycle of the dies of `on` is looked at, core by core, the execute stream before the access stream (R144). -/
def State.ringCycle (s : State) (on : Nat → Bool) : State :=
  let mine := fun (q : RingReq) => on (dieOf q.who.core)
  let s := (sortBy RingReq.first (s.ringq.filter mine)).foldl State.ringServe s
  (s.ringq.filter mine).foldl State.ringYield s

/-- The home of an alight, checked at issue: its store, without data, which R129 orders as a store of the home page's kind; or the address
and home of one that another package serves (R119, R140, R252). The store is tested in the CTX of the issue, whatever the other stream writes
to CTX before the slot passes (DESIGN CHOICE, log 86: R145 has the store placed at the passage, R126 gives an entry the CTX of its issue). -/
def State.alightStore (s : State) (a : Word) : Except Stop (Option SbEntry × Option (Nat × Nat)) := do
  aligned a 8
  let l ← s.resolveOne .store a 8
  match l.remote with
  | some home => .ok (none, some (a.toNat, home))
  | none => .ok (some (s.entry l l.addr (bytesOf 0) [] [] none), none)

/-- What a waiting ring instruction waits for: the slot, or the home of an alight's store. -/
def State.ringWait (s : State) : WaitKind :=
  match s.strm.kept with
  | some k => .remote k.va k.home
  | none => .ring

/-- A ring instruction (R140, R144, R145, R252): the action is taken at once if the slot that passes satisfies it and no
action of the station comes before it; otherwise the stream waits for its answer, which holds value, label and DEP. Where an action that comes
after it has been taken in this cycle, it is issued in the next. -/
def ringOp (op : RingOp) (d r t : BitVec 5) : Body := fun s =>
  match s.strm.reply, s.strm.kept with
    | some (.value v h dep), _ => .ok { st := (s.takeDep dep).putX d ⟨v, h⟩ }
    | some (.bytes _), some k => .ok { st := (s.takeDep k.dep).putX d ⟨k.val, k.lbl⟩ }
    | _, some _ => wait s.ringWait
    | _, none => do
      let key := s.xv r
      let hs := if op = .alight then [s.xl r, s.xl t] else [s.xl r]
      if s.ringq.any (fun q => decide (q.who = s.self)) then wait .ring
      else if bits key 32 32 ≠ 0 then trap 0x07 key 0 1
      else
        let (store, far) ← (if op = .alight then s.alightStore (s.xv t) else .ok (none, none))
        if s.strm.fences.any (fun f => decide (5 ≤ f.scope) && f.ids.any s.openIds.contains) then wait .accesses
        else if s.ringLate s.self then wait .launch
        else
          let q : RingReq := {
            who := s.self, op := op, frame := s.task.frame, ctx := s.task.ctx, key := BitVec.ofNat 32 key.toNat, opd := s.x t
            expected := s.x d, dep := s.strm.dep, fold := hs, store := store, far := far, noRd := decide (d = 0), since := s.cycle }
          let s1 := { s with ringq := s.ringq ++ [q], nextId := if store.isSome then s.nextId + 1 else s.nextId }
          let s2 := if s.ringq.any (fun x => x.together q && x.first q) then s1 else s1.ringServe q
          match s2.strm.reply with
          | some (.value v h dep) => .ok { st := (s2.modStrm fun x => { x with dep := dep }).putX d ⟨v, h⟩ }
          | some (.trap tr) => .error (.trap tr)
          | _ => waitAs s2.ringWait s2

noncomputable section

def execRingBoard (d r t : BitVec 5) (s : State) := s.run (.ringBoard d r t) (ringOp .board d r t)
def execRingCapRead (d r t : BitVec 5) (s : State) := s.run (.ringCapRead d r t) (ringOp .read d r t)
def execRingCapAdd (d r t : BitVec 5) (s : State) := s.run (.ringCapAdd d r t) (ringOp .add d r t)
def execRingCapMin (d r t : BitVec 5) (s : State) := s.run (.ringCapMin d r t) (ringOp .min d r t)
def execRingCapMax (d r t : BitVec 5) (s : State) := s.run (.ringCapMax d r t) (ringOp .max d r t)
def execRingCapSwap (d r t : BitVec 5) (s : State) := s.run (.ringCapSwap d r t) (ringOp .swap d r t)
def execRingCapCas (d r t : BitVec 5) (s : State) := s.run (.ringCapCas d r t) (ringOp .cas d r t)
def execRingAlight (d r t : BitVec 5) (s : State) := s.run (.ringAlight d r t) (ringOp .alight d r t)

/-- The outstanding action of a stream. -/
def State.ringOf (s : State) (c st : Nat) : Option RingReq := s.ringq.find? fun q => decide (q.who.core = c ∧ q.who.stream = st)

/-- RING_ACTION: the stream's action is taken if the passing slot satisfies it and no action that comes before it is left
(R140, R144). -/
def execRingAction (c st : Nat) (s : State) : Host.Outcome State Fault Refusal :=
  match s.ringOf c st with
  | none => .next s
  | some q =>
    if s.boardOver q || s.ringq.any (fun x => decide (x.who ≠ q.who) && x.together q && x.first q && (s.ringTry x).isSome) then .next s
    else .next ((s.ringTry q).getD s)

/-- RING_BOARD_TIMEOUT: status 1 after 512 cycles (R146). -/
def execRingBoardTimeout (c st : Nat) (s : State) : Host.Outcome State Fault Refusal :=
  match s.ringOf c st with
  | none => .next s
  | some q => .next (if s.boardOver q then s.boardEnds q else s)

/-- RING_ABSENT: the trap of the bound, at a passage of a slot that does not match (R345). -/
def execRingAbsent (c st : Nat) (s : State) : Host.Outcome State Fault Refusal :=
  match s.ringOf c st with
  | none => .next s
  | some q => .next (if s.ringOver q && (s.ringTry q).isNone then (s.ringLeave q).answer q.who (.trap q.absent) else s)

end

end Sys2Proof.Machine
end

