-- ==== Sys2Proof/Machine/Sync.lean ====
section
/-!
DEFINITION. Majors 0x10 and 0x11 and their events: the sluice engine with its queues, wait queues and reductions
(R148-R151, R249, R250), and the barrier tree (R23, R133, R153, R251, R344).
-/

namespace Sys2Proof.Machine

/-! ### Sluice words (R148) -/

/-- A word whose content a write into the enabled spillway has left open (R148; log 4). -/
def freeSWord (n off : Nat) : SWord :=
  let f := Config.freeSluice n off
  { val := f.1, lbl := f.2.1, frame := f.2.2.1, die := if f.2.2.2 then 1 else 0 }

/-- A sluice word of die `k`. -/
def State.sword (s : State) (k off : Nat) : SWord :=
  match Tab.get none (s.dieAt k).words off with
  | some w => w
  | none => match (s.dieAt k).disturbed with
    | some n => freeSWord n off
    | none => {}

/-- A sluice word written; a word that holds ALWAYS belongs to no frame (R148). -/
def State.putSWord (s : State) (k off : Nat) (w : SWord) : State :=
  let w := if w.lbl = always then { w with frame := 0, die := 0 } else w
  s.modDie k fun d => { d with
    words := Tab.put none d.words off (if d.disturbed.isNone && decide (w = {}) then none else some w) }

/-- A request's task may operate on the word (R148). -/
def SluiceReq.mayUse (q : SluiceReq) (w : SWord) : Bool :=
  decide (w.lbl = always) || (decide (w.frame = q.frame) && decide (w.die = q.die))

/-- The address of a sluice word as a register holds it. -/
def swordAddr (k off : Nat) : Word := word (k * 2 ^ 32 + off)

/-- What a value operation computes (R149). -/
def SluiceOp.value (op : SluiceOp) (old b : Word) : Word :=
  match op with
  | .add => old + b
  | .and => old &&& b
  | .or => old ||| b
  | .xor => old ^^^ b
  | .min => if old.toInt ≤ b.toInt then old else b
  | .max => if old.toInt ≤ b.toInt then b else old
  | .minu => if old.toNat ≤ b.toNat then old else b
  | .maxu => if old.toNat ≤ b.toNat then b else old
  | .fadd => word (old.toNat / 2 ^ 32 * 2 ^ 32 + fadd32 (old.toNat % 2 ^ 32) (b.toNat % 2 ^ 32))
  | .swap | .cas => b
  | .ld | .wait | .wake => old

/-- The label of a request's result, formed only when a register takes it (R149, R208). -/
def State.resultLabel (s : State) (q : SluiceReq) (hs : List Handle) : Except Trap (Handle × State) :=
  if q.noRd then .ok (always, s) else s.form q.die q.frame false (hs ++ [q.dep])

/-- A request is answered with a trap, and nothing else changes, or, being a reduction, sets SUPP (R149, R250, R341, R342). -/
def State.sluiceFails (s : State) (q : SluiceReq) (t : Trap) : State :=
  if q.reduce then s.suppress q.who.core q.who.uid else s.answer q.who (.trap (s.found q.die q.frame t))

/-- A request's effect under DEP with the address's label folded in; where any of its labels cannot be formed, the request fails and
touches nothing (R67, R238, R341). A reduction has folded it already. -/
def State.sluiceDo (s : State) (q : SluiceReq) (go : State → SluiceReq → Except Trap State) : State :=
  match (if q.reduce then .ok (q.dep, s) else s.form q.die q.frame false [q.dep, q.fold]) with
  | .error t => s.sluiceFails q t
  | .ok (dep, s1) =>
    match go s1 { q with dep := if s.mootParty q.who then never else dep, fold := dep } with
    | .error t => s.sluiceFails q t
    | .ok s2 => s2

/-- A request is answered with a value and its label; a reduction is not. -/
def State.sluiceAnswer (s : State) (q : SluiceReq) (v : Word) (h : Handle) : State :=
  if q.reduce then s else s.answer q.who (.value v h q.fold)

/-- A word operation that writes: new label, then word and result (R149). -/
def State.sluiceWrite (s : State) (k : Nat) (q : SluiceReq) (w : SWord) (v : Word) (hs : List Handle) : Except Trap State := do
  let (h, s1) ← s.form q.die q.frame q.reduce (hs ++ [q.dep])
  let (r, s2) ← s1.resultLabel q [w.lbl]
  let s3 := if h = never then s2.suppress q.who.core q.who.uid
    else s2.putSWord k q.off { val := v, lbl := h, frame := q.frame, die := q.die }
  .ok (s3.sluiceAnswer q w.val r)

/-- A result without a write. -/
def State.sluiceRead (s : State) (q : SluiceReq) (v : Word) (hs : List Handle) : Except Trap State := do
  let (r, s1) ← s.resultLabel q hs
  .ok (s1.sluiceAnswer q v r)

/-- An atom of the sluice engine's SRAM is corrected, with its record; the address of an atom there is open (R148, R352; log 4). -/
def State.correctWord (s : State) (k a : Nat) : State :=
  let s' := s.modDie k fun d => { d with wordEcc := Tab.put 0 d.wordEcc a 0 }
  { (s'.deviceRecord k 0x4A (Config.freeWord s.free) 3 (Config.freeWord (s.free + 1)).toNat) with free := s.free + 2 }

/-- A waiter of a word of die `k` is released: rd := 0, with an acquire at the word's scope, so that granules which its stream has read early are
read anew; over a link that is down its reply is lost (R129, R151, R360; log 66). -/
def State.letGo (s : State) (k : Nat) (x : Waiter) : State :=
  let scope := if dieOf x.who.core = k then 5 else 6
  if decide (dieOf x.who.core ≠ k) && s.links.down.contains 0 then
    { s with free := s.free + 1 }.answerTrap x.who { cause := 0x34, val := Config.freeWord s.free, d5 := 0x47 }
  else
    (s.modParty x.who fun t => t.modStrm x.who.stream fun y => { y with
      early := y.early.filter fun e => !covers s.host.phase scope x.who.core e.space e.addr }).answer x.who (.value 0 x.lbl x.dep)

/-- A moot task does not wait: its DEP is NEVER as the address's label leaves it, and its stream goes on to the task's retirement (R74, R151). -/
def State.waitsNot (s : State) (q : SluiceReq) : State :=
  (s.modParty q.who fun t => t.modStrm q.who.stream fun x => { x with dep := if q.fold = never then never else x.dep }).answer q.who .done

/-- What a request does to its word, whose old content is `w` (R149, R151). A waiter that is moot uses no wake. -/
def State.sluiceEffect (s : State) (k : Nat) (q : SluiceReq) (w : SWord) : Except Trap State :=
  let b := q.opd
  match q.op with
  | .ld => s.sluiceRead q w.val [w.lbl]
  | .wait =>
    if w.val = b.val then do
      if s.mootParty q.who || q.fold = never then return s.waitsNot q
      let (r, s1) ← s.resultLabel q [w.lbl, b.lbl]
      .ok (s1.modDie k fun d => { d with waiters := d.waiters ++ [⟨q.who, q.off, b.val, r, q.fold⟩] })
    else s.sluiceRead q 1 [w.lbl, b.lbl]
  | .wake => do
    let ws := (s.dieAt k).waiters.filter fun x => decide (x.off = q.off) && !s.mootParty x.who
    let go := ws.take b.val.toNat
    let (r, s1) ← s.resultLabel q [b.lbl]
    let s2 := s1.modDie k fun d => { d with waiters := d.waiters.filter fun x => !(go.any fun y => decide (y.who = x.who)) }
    let s3 := go.foldl (fun s x => s.letGo k x) s2
    .ok (s3.sluiceAnswer q (word go.length) r)
  | .cas =>
    if w.val = q.expected.val then s.sluiceWrite k q w b.val [w.lbl, q.expected.lbl, b.lbl] else s.sluiceRead q w.val [w.lbl]
  | .swap => s.sluiceWrite k q w b.val [b.lbl]
  | op => s.sluiceWrite k q w (op.value w.val b.val) [w.lbl, b.lbl]

/-- The perform step of a request at the engine of die `k` (R149, R151); a poisoned word traps, and a reduction that finds one is
suppressed (R353; log 56). -/
def State.sluiceServe (s : State) (k : Nat) (q : SluiceReq) : State :=
  let w := s.sword k q.off
  let m := Tab.get 0 (s.dieAt k).wordEcc (q.off / 32)
  let s := if m = 1 then s.correctWord k (q.off / 32) else s
  if m = 2 then { s with free := s.free + 1 }.sluiceFails q { cause := 0x34, val := Config.freeWord s.free }
  else if !q.mayUse w then
    s.sluiceFails q { cause := 0x18, val := swordAddr k q.off, d5 := word q.frame.toNat, d6 := word w.frame.toNat }
  else
    s.sluiceDo q fun s q => s.sluiceEffect k q w

/-- The class of a waiting request (R150). -/
def SluiceReq.cls (q : SluiceReq) (now : Nat) : Nat := min 15 (q.prio + (now - q.arrival) / 4096)

/-- `a` is served before `b` (R150). -/
def SluiceReq.before (now : Nat) (a b : SluiceReq) : Bool :=
  decide (b.cls now < a.cls now) || (decide (a.cls now = b.cls now) &&
    (decide (a.arrival < b.arrival) || (decide (a.arrival = b.arrival) && decide (a.who.core ≤ b.who.core))))

/-- The request that an engine serves next, of those left (R150). -/
def sluicePick (now : Nat) : List SluiceReq → Option SluiceReq
  | [] => none
  | q :: qs =>
    match sluicePick now qs with
    | none => some q
    | some r => if q.before now r then some q else some r

/-- The request that the engine of die `k` has served in this cycle (R150). -/
def State.sluiceServed (s : State) (k : Nat) : Option SluiceReq :=
  match (s.dieAt k).served with
  | some (c, r) => if c = s.cycleOf k then some r else none
  | none => none

/-- The word operation of the engine of die `k` in this cycle, if a request waits and none has been served (R150). -/
def State.sluiceStep (s : State) (k : Nat) : State :=
  match s.sluiceServed k, sluicePick (s.cycleOf k) (s.dieAt k).sluiceq with
  | none, some q =>
    (s.modDie k fun d => { d with
      sluiceq := d.sluiceq.filter fun x => decide (x.id ≠ q.id), served := some (s.cycleOf k, q) }).sluiceServe k q
  | _, _ => s

/-! ### The sluice instructions (R249, R250) -/

/-- The class of a task's operations on a word of die `k` (R150). -/
def State.sluiceClass (s : State) (k : Nat) : Nat :=
  let need := if k = s.die then 5 else 6
  match s.task.info.launch with
  | some l => ((l.levels.find? fun v => decide (need ≤ v.scope)).map (·.prio)).getD s.task.prio.toNat
  | none => s.task.prio.toNat

/-- Space checks of a sluice address (R250): its die and offset. -/
def State.sluiceAddr (s : State) (a : Word) : Except Stop (Nat × Nat) := do
  aligned a 8
  let k := bits a 32 1
  let off := bits a 0 32
  let w := (s.dieAt k).spill
  if decide (bits a 33 31 ≠ 0) || !bit w 0 || decide ((bits w 8 12 + 1) * 2 ^ 20 ≤ off) then trap 0x06 a 0 2
  else .ok (k, off)

/-- A request of the acting stream stands in an engine's queue, or its record in a wait queue. -/
def State.sluicePending (s : State) : Option WaitKind :=
  if s.dies.toList.any (fun d => d.sluiceq.any fun q => !q.reduce && decide (q.who = s.self)) then some .sluice
  else if s.dies.toList.any (fun d => d.waiters.any fun w => decide (w.who = s.self)) then some .wake
  else none

/-- What still holds a sluice operation: strong-kind accesses of the stream, a fence over the engine's die, and for a wake
the accesses it releases (R129, R131, R132, R151). -/
def State.sluiceHeld (s : State) (k : Nat) (op : SluiceOp) : Bool :=
  let scope := if k = s.die then 5 else 6
  s.mine.any (fun e => decide (e.kind = 0)) || s.myReductions 7
    || (s.strm.fences.any fun f => decide (scope ≤ f.scope) && f.ids.any s.openIds.contains)
    || (decide (op = .wake) && s.heldIn scope)

/-- A sluice operation (R149-R151, R249, R250): the request joins its engine's queue and is served at once when it is the
engine's next; otherwise the stream waits for the answer, which holds value, label and DEP, unless it is a reduction. Where the engine has
served one in this cycle that comes after it, the operation is issued in the next. -/
def sluiceOp (op : SluiceOp) (d r t : BitVec 5) : Body := fun s => do
  match s.strm.reply with
  | some (.value v h dep) => .ok { st := (s.takeDep dep).putX d ⟨v, h⟩ }
  | some .done => wait .wake
  | _ =>
    match s.sluicePending with
    | some w => wait w
    | none =>
      let a := s.xv r
      let (k, off) ← s.sluiceAddr a
      if s.sluiceHeld k op then wait .accesses
      else
        let reduce := decide (d = 0) && op != .ld && op != .wait
        let s' ← (if reduce then s.fold [s.xl r] else .ok s)
        let q : SluiceReq := {
          who := s.self, op := op, off := off, opd := s.x t, expected := s.x d, dep := s'.strm.dep, fold := s.xl r, frame := s.task.frame
          die := s.die, prio := s.sluiceClass k, arrival := s.cycleOf k, reduce := reduce, noRd := decide (d = 0), id := s'.nextId }
        if decide (k ≠ s.die) && s.links.down.contains 0 then
          if reduce then
            let o : RecordOf := {
              source := 0, core := s.core.num, die := s.die, frame := s.task.frame, launch := s.task.info.launch }
            .ok { st := s'.record o { cause := 0x47, val := 0, d5 := a } }
          else .error (.passed { cause := 0x34, val := Config.freeWord s.free, d5 := 0x47 } { s with free := s.free + 1 })
        else if (s.sluiceServed k).any fun x => !x.before (s.cycleOf k) q then wait .launch
        else
          let s1 := { s'.modDie k (fun x => { x with sluiceq := x.sluiceq ++ [q] }) with nextId := s'.nextId + 1 }
          let next := (sluicePick (s.cycleOf k) (s1.dieAt k).sluiceq).map (·.id) = some q.id
          let s2 := if next then s1.sluiceStep k else s1
          if reduce then .ok { st := s2 }
          else match s2.strm.reply with
            | some (.value v h dep) => .ok { st := (s2.modStrm fun x => { x with dep := dep }).putX d ⟨v, h⟩ }
            | some (.trap tr) => .error (.passed tr { s with free := s2.free })
            | some .done => waitAs .wake s2
            | _ => waitAs (s2.sluicePending.getD .sluice) s2

noncomputable section

def execSyncLd (d r : BitVec 5) (s : State) := s.run (.syncLd d r) (sluiceOp .ld d r 0)
def execSyncAdd (d r t : BitVec 5) (s : State) := s.run (.syncAdd d r t) (sluiceOp .add d r t)
def execSyncAnd (d r t : BitVec 5) (s : State) := s.run (.syncAnd d r t) (sluiceOp .and d r t)
def execSyncOr (d r t : BitVec 5) (s : State) := s.run (.syncOr d r t) (sluiceOp .or d r t)
def execSyncXor (d r t : BitVec 5) (s : State) := s.run (.syncXor d r t) (sluiceOp .xor d r t)
def execSyncSwap (d r t : BitVec 5) (s : State) := s.run (.syncSwap d r t) (sluiceOp .swap d r t)
def execSyncCas (d r t : BitVec 5) (s : State) := s.run (.syncCas d r t) (sluiceOp .cas d r t)
def execSyncFadd (d r t : BitVec 5) (s : State) := s.run (.syncFadd d r t) (sluiceOp .fadd d r t)
def execSyncMin (d r t : BitVec 5) (s : State) := s.run (.syncMin d r t) (sluiceOp .min d r t)
def execSyncMax (d r t : BitVec 5) (s : State) := s.run (.syncMax d r t) (sluiceOp .max d r t)
def execSyncMinu (d r t : BitVec 5) (s : State) := s.run (.syncMinu d r t) (sluiceOp .minu d r t)
def execSyncMaxu (d r t : BitVec 5) (s : State) := s.run (.syncMaxu d r t) (sluiceOp .maxu d r t)
def execSyncWait (d r t : BitVec 5) (s : State) := s.run (.syncWait d r t) (sluiceOp .wait d r t)
def execSyncWake (d r t : BitVec 5) (s : State) := s.run (.syncWake d r t) (sluiceOp .wake d r t)

/-- SLUICE_OPERATION: the engine of a die performs its next word operation (R150). -/
def execSluiceOperation (die : Nat) (s : State) : Host.Outcome State Fault Refusal := .next (s.sluiceStep die)

end

/-! ### Barriers (R153, R251) -/

/-- The level that binds a tag: the lowest that names it with BT set (R153). -/
def bindingLevel (ls : List Level) (tag : Nat) : Option Level := ls.find? fun l => l.bt && decide (l.tag = tag)

/-- The barrier of the running task's launch that a tag names, and its place in its die's list. -/
def State.barrierOf (s : State) (tag : Nat) : Option (Nat × Nat × Barrier) :=
  match s.task.info.launch with
  | none => none
  | some l =>
    let bs := (s.dieAt l.die).barriers
    ((upto bs.length).findSome? fun i => match bs[i]? with
      | some b => if decide (b.entry = l.entry ∧ b.tag = tag) && b.cores.contains s.core.num then some (i, b) else none
      | none => none).map fun p => (l.die, p.1, p.2)

/-- A change of one barrier. -/
def State.modBarrier (s : State) (die i : Nat) (f : Barrier → Barrier) : State :=
  s.modDie die fun d => { d with barriers := d.barriers.modify i f }

/-- A task's interface record of a tag. -/
def Task.barIf (t : Task) (tag : Nat) : Option BarIf := t.bars.find? fun b => decide (b.tag = tag)

/-- A task's interface record replaced. -/
def Task.putBarIf (t : Task) (b : BarIf) : Task := { t with bars := b :: t.bars.filter fun x => decide (x.tag ≠ b.tag) }

/-- The barrier-misuse trap of a kind (R344). -/
def barMisuse {α : Type} (tag kind : Nat) : Except Stop α := trap 0x21 (word tag) kind

/-- `bar.arrive` (R133, R153, R344). -/
def barArrives (g : BitVec 3) : Body := fun s => do
  s.execOnly
  let tag := g.toNat
  match s.barrierOf tag with
  | none => barMisuse tag 0
  | some (die, i, b) =>
    if (match s.task.barIf tag with | some x => decide (x.gen = b.gen) | none => false) then barMisuse tag 2
    else if s.heldIn b.scope then wait .accesses
    else
      let s' := s.modBarrier die i fun b => { b with arrived := s.core.num :: b.arrived, lastAt := s.cycleOf die }
      .ok { st := s'.modTask fun t => t.putBarIf ⟨tag, b.gen, false, false⟩ }

/-- `bar.wait`: its completion is an acquire fence at the tag's scope (R133, R153, R344). -/
def barWaits (g : BitVec 3) : Body := fun s => do
  s.execOnly
  let tag := g.toNat
  match s.barrierOf tag with
  | none => barMisuse tag 0
  | some (_, _, b) =>
    match s.task.barIf tag with
    | none => barMisuse tag 1
    | some x =>
      if x.waited then barMisuse tag 1
      else if x.gen < b.gen then
        let s' := if s.reductionsIn b.scope = [] && s.strm.early = [] then s else s.pushFence true true true b.scope
        .ok { st := s'.modTask fun t => t.putBarIf { x with waited := true, waiting := false } }
      else waitAs .barrier (s.modTask fun t => t.putBarIf { x with waiting := true })

noncomputable section

def execBarArrive (g : BitVec 3) (s : State) := s.run (.barArrive g) (barArrives g)
def execBarWait (g : BitVec 3) (s : State) := s.run (.barWait g) (barWaits g)

end

/-- The latency of the tree by the binding level's DOMAIN (R23). -/
def barLatency (domain : Nat) : Nat :=
  match domain with
  | 0 | 1 => 2
  | 2 => 4
  | 3 => 6
  | 4 => 10
  | 5 => 16
  | _ => 96

/-- Every participant has arrived or ended (R153). -/
def Barrier.full (b : Barrier) : Bool := b.cores.all fun c => b.arrived.contains c || b.ended.contains c

/-- The generation can be released: somebody is left to release, and the latency has passed (R23, R153). -/
def State.barReady (s : State) (die : Nat) (b : Barrier) : Bool :=
  b.full && (b.cores.any fun c => !b.ended.contains c) && decide (b.lastAt + barLatency b.domain ≤ s.cycleOf die)

/-- A task that waits at the released barrier's tag is answered; a blocked one becomes ready (R37, R153). -/
def Task.released (die : Nat) (b : Barrier) (now : Nat) (t : Task) : Task :=
  let mine := match t.info.launch with
    | some l => decide (l.die = die ∧ l.entry = b.entry)
    | none => false
  let waits := match t.barIf b.tag with
    | some x => x.waiting
    | none => false
  if mine && waits && decide (t.info.status = .blocked) then
    { t with info := { t.info with status := .ready, readySince := now, aged := 0 } }
  else t

/-- The release step of barrier `i` of die `die`: the generation ends, and its waiters go on (R153). -/
def State.barRelease (s : State) (die i : Nat) : State :=
  match (s.dieAt die).barriers[i]? with
  | none => s
  | some b =>
    if !s.barReady die b then s
    else
      let s := s.modBarrier die i fun b => { b with gen := b.gen + 1, arrived := [] }
      b.cores.foldl (fun s c => s.modCore c fun k => { k with slots := k.slots.map fun p => (p.1, p.2.released die b (s.cycleAt c)) }) s

/-- BARRIER_RELEASE: barrier b / 2 of die b % 2 (R153). -/
def execBarrierRelease (b : Nat) (s : State) : Host.Outcome State Fault Refusal := .next (s.barRelease (b % 2) (b / 2))

end Sys2Proof.Machine
end

