-- ==== Sys2Proof/Machine/Debug.lean ====
section
/-!
DEFINITION. The debug request (code 0x14) and its items, and halting, resuming, stepping and breakpoints (R104, R142, R143, R160,
R171, R311, R337, R344, R376-R381).
-/

namespace Sys2Proof.Machine

/-! ### Items as dwords (R311) -/

/-- `n` dwords of a wide value, lowest first. -/
def wideWords (n v : Nat) : List Word := (unpack 64 n v).map word

/-- A handle as a dword. -/
def handleWord (h : Handle) : Word := h.setWidth 64

/-- A register's value dwords and its handle. -/
def XReg.words (x : XReg) : List Word := [x.val, handleWord x.lbl]
def VReg.words (v : VReg) : List Word := wideWords 8 v.val.toNat ++ [handleWord v.lbl]
def EReg.words (e : EReg) : List Word := wideWords 8 e.carry.toNat ++ [e.status, handleWord e.lbl]
def MReg.words (m : MReg) : List Word := [m.d0, m.d1, m.d2, m.d3, handleWord m.lbl]
def AccReg.words (a : AccReg) : List Word := wideWords 128 a.cells.toNat ++ [handleWord a.lbl]

/-- k0 to k3 as they read: k0 is all ones (R264). -/
def Regs.masks (r : Regs) : List XReg := { val := BitVec.allOnes 64 } :: r.k.toList.drop 1

/-- Item 0: registers, PCs, CTX, DEPs, SUPP and loop registers. -/
def Task.image (t : Task) : List Word :=
  (t.regs.x.toList.drop 1).flatMap XReg.words ++ t.regs.v.toList.flatMap VReg.words ++ t.regs.masks.flatMap XReg.words
    ++ t.regs.e.toList.flatMap EReg.words ++ (t.regs.m.toList.drop 1).flatMap MReg.words ++ t.regs.acc.toList.flatMap AccReg.words
    ++ [word t.ex.pc, if t.ac.active then word t.ac.pc else BitVec.allOnes 64, t.ctx, handleWord t.ex.dep, handleWord t.ac.dep
        , flag t.supp, t.loops.lb0.setWidth 64, t.loops.le0.setWidth 64, t.loops.lc0, t.loops.lb1.setWidth 64
        , t.loops.le1.setWidth 64, t.loops.lc1]

/-- Item 2: each queue's count and entries, oldest first. -/
def Queues.words (q : Queues) : List Word :=
  [q.ldq, q.stq, q.bqa, q.bqx].flatMap fun l => word l.length :: l.flatMap XReg.words

/-- The dwords of a ringdike slot (R142). -/
def Slot.words (x : Slot) : List Word :=
  [word (x.frame.toNat * 2 ^ 56 + (if x.v then 2 ^ 55 else 0) + x.handle.toNat * 2 ^ 32 + x.key.toNat), x.value]

/-- Item 4: slots with their stations (R143). -/
def State.ringWords (s : State) (die : Nat) : List Word :=
  (upto 256).flatMap fun j => (Tab.get {} (s.dieAt die).slots j).words ++ [word ((2 * j + s.cycleOf die) % 512)]

/-- Item 5: halt state and commands. -/
def Engine.words (e : Engine) : List Word :=
  flag e.halted :: (e.queue.filter fun c => !c.ill).flatMap fun c => [c.handle, c.block, word c.lines.length]

/-- Item 8: a directory entry (R104). -/
def DirEntry.word (e : DirEntry) : Word :=
  Machine.word (e.state * 2 ^ 62 + if e.coarse then 2 ^ 61 + e.vec.toNat % 2 ^ 34
    else e.ptrs.length * 2 ^ 58 + (e.ptrs.zipIdx.foldl (fun n p => n + p.1 * 2 ^ (11 * p.2)) 0))

/-- Item 9: the trap registers. -/
def CoreRegs.trapWords (k : CoreRegs) : List Word := [word (k.trapPc.toNat / 2 * 2), k.causeWord, k.trapVal]

/-- The running task of a core, or the task in a slot. -/
def Core.inSlot (k : Core) (slot : Nat) : Option Task :=
  if k.running && decide (k.task.info.slot = slot) then some k.task
  else (k.slots.find? fun p => decide (p.1 = slot)).map (·.2)

/-- A participant's dwords of item 3: core, last-arrival generation and waited bit (R344). The generation of a task that has not
arrived is open. -/
def State.partWords (s : State) (l : LaunchRef) (b : Barrier) (c : Nat) : List Word :=
  match ((s.coreAt c).tasks.find? fun t => sameLaunch t.info.launch (some l)).bind fun t => t.barIf b.tag with
  | some x => [word c, word x.gen, flag x.waited]
  | none => [word c, Config.freeWord s.free, 0]

/-- Item 3: the barrier of a tag of a task's launch. -/
def State.barWords (s : State) (c tag : Nat) (t : Task) : Option (List Word) :=
  match t.info.launch with
  | none => none
  | some l =>
    ((s.dieAt l.die).barriers.find? fun b => decide (b.entry = l.entry ∧ b.tag = tag) && b.cores.contains c).map fun b =>
      [word b.gen, word b.cores.length, word (b.cores.filter fun c => b.arrived.contains c || b.ended.contains c).length]
        ++ b.cores.flatMap (s.partWords l b)

/-- The slot that a waiter's task holds. -/
def State.slotOf (s : State) (w : Party) : Nat := (((s.coreAt w.core).taskOf w.uid).map (·.info.slot)).getD 0

/-- Item 6: the waiters of a sluice word in order of arrival. -/
def State.waitWords (s : State) (die off : Nat) : List Word :=
  let ws := (s.dieAt die).waiters.filter fun w => decide (w.off = off)
  word ws.length :: ws.flatMap fun w => [word w.who.core, word (s.slotOf w.who), w.expected]

/-! ### The debug request (R309, R311, R379, R381) -/

/-- The task that a debug request names; slot numbers are 0 to 63. -/
def Ask.named (q : Ask) (s : State) : Option Task := if 64 ≤ (q.arg 0).toNat then none else (s.coreAt q.target).inSlot (q.arg 0).toNat

/-- A task of a metered frame (R381). -/
def State.meteredTask (s : State) (c : Nat) (t : Task) : Bool := (s.frameAt (dieOf c) t.frame).metered

/-- Dwords returned to the buffer, which must be long enough (R311). -/
def give (q : Ask) (s : State) (ws : List Word) : Option Answered :=
  if (q.arg 4).toNat < 8 * ws.length then stop 2 s
  else match s.vaPieces s.hostXlate true (q.arg 3).toNat (8 * ws.length) with
    | none => stop 2 s
    | some ps => some { status := 0, result := 8 * ws.length, st := s.putPieces (dwordBytes ws) ps }

/-- A debug request of one item. -/
def State.debugOf (s : State) (h item : Nat) (serve : Serve) : State :=
  match (s.reqBlock h).map fun b => b.2.getD 3 0 with
  | none => s.requestOf h 0x14 6 serve
  | some w =>
    if w.toNat = item then
      s.requestOf h 0x14 6 fun q s => if 0x1047 < q.target ∨ (item ≠ 10 ∧ q.arg 5 ≠ 0) then stop 2 s else serve q s
    else if 10 < w.toNat ∧ item = 0 then s.requestOf h 0x14 6 fun _ s => stop 2 s
    else s

/-- An item of a task. -/
def itemOfTask (halted metered : Bool) (give : Ask → State → Task → Option Answered) : Serve := fun q s =>
  match q.named s with
  | none => stop 2 s
  | some t =>
    if metered && s.meteredTask q.target t then stop 1 s
    else if halted && !(s.coreAt q.target).dbg.halted then stop 5 s
    else give q s t

/-- DEBUG_READ_REGISTERS; an item above 10, which no event of its own serves, returns status 2 here. -/
def execDebugReadRegisters (h : Nat) (s : State) : Host.Outcome State Fault Refusal :=
  .next (s.debugOf h 0 (itemOfTask true true fun q s t => give q s t.image))

def execDebugReadTile (h : Nat) (s : State) : Host.Outcome State Fault Refusal :=
  .next (s.debugOf h 1 (itemOfTask false true fun q s t =>
    match t.regs.acc.toList[(q.arg 2).toNat]? with
    | some a => give q s (a.status :: a.words)
    | none => stop 2 s))

def execDebugReadQueues (h : Nat) (s : State) : Host.Outcome State Fault Refusal :=
  .next (s.debugOf h 2 (itemOfTask false true fun q s t => give q s t.queues.words))

def execDebugReadBarrier (h : Nat) (s : State) : Host.Outcome State Fault Refusal :=
  .next (s.debugOf h 3 (itemOfTask false true fun q s t =>
    match (if (q.arg 2).toNat < 8 then s.barWords q.target (q.arg 2).toNat t else none) with
    | some ws => (give q s ws).map fun a => { a with st := { a.st with free := a.st.free + 1 } }
    | none => stop 2 s))

def execDebugReadRingdike (h : Nat) (s : State) : Host.Outcome State Fault Refusal :=
  .next (s.debugOf h 4 fun q s => if (q.arg 2).toNat < 2 then give q s (s.ringWords (q.arg 2).toNat) else stop 2 s)

def execDebugReadEngine (h : Nat) (s : State) : Host.Outcome State Fault Refusal :=
  .next (s.debugOf h 5 fun q s =>
    let w := q.arg 2
    if w &&& ~~~0x3F03 ≠ 0 ∨ bits w 0 2 = 3 then stop 2 s else give q s (s.engineAt (bits w 8 6) (bits w 0 2)).words)

def execDebugReadWaitQueue (h : Nat) (s : State) : Host.Outcome State Fault Refusal :=
  .next (s.debugOf h 6 fun q s =>
    let a := q.arg 2
    if bits a 33 31 ≠ 0 ∨ a.toNat % 8 ≠ 0 then stop 2 s else give q s (s.waitWords (bits a 32 1) (bits a 0 32)))

/-- DEBUG_READ_SAVE_STORE: the entry of a task that a pre-empting safe point or a blocking wait has saved (R337). -/
def execDebugReadSaveStore (h : Nat) (s : State) : Host.Outcome State Fault Refusal :=
  .next (s.debugOf h 7 (itemOfTask false true fun q s t =>
    if decide (t.info.status ≠ .running) && t.info.saved then give q s t.image else stop 2 s))

def execDebugReadDirectory (h : Nat) (s : State) : Host.Outcome State Fault Refusal :=
  .next (s.debugOf h 8 fun q s =>
    if 576 * 2 ^ 30 ≤ (q.arg 2).toNat then stop 2 s
    else if (s.regionOf (q.arg 2).toNat).isSome then stop 1 s
    else give q s [(Tab.get {} s.coh.dir ((q.arg 2).toNat / 128)).word])

def execDebugReadTrapState (h : Nat) (s : State) : Host.Outcome State Fault Refusal :=
  .next (s.debugOf h 9 fun q s => give q s (s.coreAt q.target).regs.trapWords)

/-- A state register written by a debugger: CTX, DEP, TRAPCAUSE and the rest as a `swr` writes them, without its folds and tests. -/
def State.pokeReg (s : State) (r : Nat) (v : Word) : State :=
  match r with
  | 0 => s.modTask fun t => { t with ctx := v }
  | 1 => s.modStrm fun x => { x with dep := v.setWidth 16 }
  | 9 => s.modRegs fun k => { k with act := bit v 17 }
  | r => s.writeReg r v

/-- A change of the task in a slot of core `c`, made as if that task ran there on the execute stream. -/
def State.inTask (s : State) (c : Nat) (t : Task) (f : State → State) : State :=
  let old := s.core.num
  let st := s.actStream
  let s1 := s.focus c 0
  let run := s1.core.running && decide (s1.core.task.info.uid = t.info.uid)
  let back := s1.core.task
  let s2 := f { s1 with core := { s1.core with task := t } }
  let t' := s2.core.task
  let s3 := if run then s2
    else { s2 with core := { s2.core with task := back, slots := Tab.put {} s2.core.slots t.info.slot t' } }
  s3.focus old st

/-- Item 10 (R381): the register code and the handle that a debugger supplies. -/
def debugWriteReg : Ask → State → Task → Option Answered := fun q s t =>
  let r := (q.arg 2).toNat
  let h := q.arg 5
  let die := dieOf q.target
  if (q.arg 4).toNat < 8 then stop 2 s
  else match s.hostBytes (q.arg 3) 8 with
    | none => stop 2 s
    | some bs =>
      let v := wordOf bs
      if bits h 16 48 ≠ 0 then stop 2 s
      else if !s.handleOk die t.frame h then stop 1 s
      else if 0x200 ≤ r ∧ r < 0x220 then
        some { status := 0, st := s.inTask q.target t fun x => x.putX (BitVec.ofNat 5 (r - 0x200)) ⟨v, h.setWidth 16⟩ }
      else if 0x1000 ≤ r || !assigned (BitVec.ofNat 12 r) then stop 2 s
      else if r = 1 ∧ !s.handleOk die t.frame v then stop 1 s
      else some { status := 0, st := s.inTask q.target t fun x => x.pokeReg r v }

def execDebugWriteRegister (h : Nat) (s : State) : Host.Outcome State Fault Refusal :=
  .next (s.debugOf h 10 (itemOfTask true true debugWriteReg))

/-! ### Halting (R376-R378) -/

/-- HALT, RESUME and STEP_HALT of a core (R376, R377). -/
def execHalt (c : Nat) (s : State) : Host.Outcome State Fault Refusal :=
  .next (if c ≤ 0x1047 then s.modCore c Core.halt else s)
def execResume (c : Nat) (s : State) : Host.Outcome State Fault Refusal :=
  .next (if c ≤ 0x1047 then s.modCore c Core.resume else s)
def execStepHalt (c : Nat) (s : State) : Host.Outcome State Fault Refusal :=
  .next (if c ≤ 0x1047 then s.modCore c Core.stepHalt else s)

/-- A stream of the running task, if it is active. -/
def Core.activeStream (k : Core) (st : Nat) : Option Stream :=
  let x := if st = 0 then k.task.ex else k.task.ac
  if k.running && x.active then some x else none

/-- An enabled breakpoint stands at a stream's next instruction, and no resume has let it pass (R377). Carried code does not come
from the instruction store. -/
def Core.atBreak (k : Core) (st : Nat) : Bool :=
  match k.activeStream st with
  | none => false
  | some x => k.task.info.carried.isNone && !k.dbg.pass.contains (k.task.info.uid, st, x.pc)
      && k.dbg.bp.toList.any fun b => bit b 63 && decide (bits b 1 15 * 2 = x.pc)

/-- BREAKPOINT: the core halts before the instruction, which a resume lets execute (R377). -/
def Core.breakpoint (k : Core) (st : Nat) : Core :=
  match k.activeStream st with
  | none => k
  | some x =>
    if k.atBreak st && !k.dbg.halted then
      let k := k.halt
      { k with dbg := { k.dbg with pass := (k.task.info.uid, st, x.pc) :: k.dbg.pass } }
    else k

def execBreakpoint (c st : Nat) (s : State) : Host.Outcome State Fault Refusal := .next (s.modCore c fun k => k.breakpoint st)

end Sys2Proof.Machine
end

