-- ==== Sys2Proof/Machine/Labels.lean ====
section
/-!
DEFINITION. Major 0x13: the label instructions, nogoods and their notices (R72-R77, R139, R253, R254, R341-R343).
-/

namespace Sys2Proof.Machine

/-! ### Registers under new labels (R77, R254) -/

/-- `lbl.assume` (R77, R254). -/
def lblAssumes (d : BitVec 5) (a : BitVec 6) : Body := fun s => do
  if d = 0 then .ok { st := s }
  else
    let l := s.reduce s.die s.task.frame { envs := [BitVec.ofNat 64 (2 ^ a.toNat)] }
    match s.intern s.die s.task.frame l with
    | .error e => .error (.trap (s.labTrap s.die s.task.frame e))
    | .ok (h, s') =>
      let s' ← s'.writeX d (h.setWidth 64) []
      .ok { st := s' }

/-- `lbl.with` (R77). -/
def lblWiths (d r t : BitVec 5) : Body := fun s => do
  if !s.handleOk s.die s.task.frame (s.xv t) then trap 0x19 (s.xv t)
  else
    let s' ← s.writeX d (s.xv r) [s.xl r, s.xl t, (s.xv t).setWidth 16]
    .ok { st := s' }

/-- `lbl.merge` (R61, R77, R254). -/
def lblMerges (d r t : BitVec 5) : Body := fun s => do
  if s.xv r ≠ s.xv t then trap 0x1C (s.xv r ^^^ s.xv t)
  else if d = 0 then .ok { st := s }
  else match s.badRecord [s.xl r, s.xl t, s.dep] with
    | some a => trap 0x34 (word a)
    | none =>
      match (s.readRecords s.die s.task.frame [s.xl r, s.xl t, s.dep]).mergeProduct s.die s.task.frame (s.xl r) (s.xl t) s.dep with
      | .error e => .error (.trap (s.labTrap s.die s.task.frame e))
      | .ok (h, s') => .ok { st := s'.putX d ⟨s.xv r, h⟩ }

/-- `lbl.get` (R77). -/
def lblGets (d r : BitVec 5) : Body := fun s => do
  let s' ← s.writeX d ((s.xl r).setWidth 64) []
  .ok { st := s' }

/-- `lbl.vis` reads the record of the label (R62, R77, R352, R353). -/
def lblSees (d r : BitVec 5) : Body := fun s => do
  let s ← s.records [s.xl r]
  let s' ← s.writeX d (flag (s.visible s.die s.task.frame (s.labOf s.die s.task.frame (s.xl r)) s.task.ctx)) []
  .ok { st := s' }

/-- `lbl.ctx` (R66, R77). -/
def lblCtxs (d r : BitVec 5) : Body := fun s => do
  let s' ← s.fold [s.xl r]
  let s' ← (s'.modTask fun t => { t with ctx := s.xv r }).writeX d s.task.ctx []
  .ok { st := s' }

/-! ### Nogoods (R72-R74) -/

/-- The candidates of R72 after both reductions. -/
def candidates (g : List Word) (n : Env) (p : List Env) : List Env :=
  clean g (minimise (p.map fun d => n ||| d))

/-- A stream's DEP after a notice (R74). -/
def State.noticeStream (s : State) (die : Nat) (f : BitVec 8) (x : Stream) : Stream :=
  if s.depDead die f x.dep then { x with dep := never } else x

/-- A task after a notice (R74). -/
def State.noticeTask (s : State) (die : Nat) (f : BitVec 8) (t : Task) : Task :=
  if t.frame = f then { t with ex := s.noticeStream die f t.ex, ac := s.noticeStream die f t.ac } else t

/-- A moot task that is blocked in a wait (R74). -/
def Task.stuck (t : Task) (now : Nat) : Bool := t.moot && (t.ex.blocked now || t.ac.blocked now)

/-- A core applies a nogood notice of a frame (R74). The acting core's running task leaves its wait when the step is done. -/
def State.notice (s : State) (c : Nat) (f : BitVec 8) : State :=
  let s := s.modCore c fun k =>
    { k with task := s.noticeTask (dieOf c) f k.task, slots := k.slots.map fun p => (p.1, s.noticeTask (dieOf c) f p.2) }
  let k := s.coreAt c
  let ts := (if k.running && decide (c ≠ s.core.num) then [k.task] else []) ++ k.slots.map (·.2)
  (ts.filter fun t => t.frame = f && t.stuck (s.cycleAt c)).foldl (fun s t => s.leaveWait c t.info.uid) s

/-- The cores that hold a task. -/
def State.busyCores (s : State) : List Nat :=
  s.core.num :: (s.parked.map (·.1)).filter fun c => decide (c ≠ s.core.num)

/-- A nogood notice reaches every core of a die. -/
def State.noticeAll (s : State) (die : Nat) (f : BitVec 8) : State :=
  (s.busyCores.filter fun c => decide (dieOf c = die)).foldl (fun s c => s.notice c f) s

/-- The acting core's running task, made moot while its other stream stands in a wait, leaves the wait and is retired (R74). -/
def State.leaveStuck (s : State) : State :=
  if s.core.running && s.task.stuck s.cycle then s.leaveWait s.core.num s.task.info.uid else s

/-- `lbl.nogood`: the status, after the commit and its notices (R72-R74, R139, R343). DESIGN CHOICE (log 67): P is formed as every
instruction forms a Product, so a new one takes a handle and may raise 0x1A or 0x1B. -/
def lblNogoods (d r : BitVec 5) : Body := fun s => do
  if s.heldIn 5 then wait .accesses
  else
    let f := s.task.frame
    let (p, s') ← s.prod [s.xl r, s.dep]
    let fr := s'.frameAt s.die f
    let ps := (s'.labOf s.die f p).envs
    let cs := candidates fr.nogoods (s.xv r) ps
    let status : Nat :=
      if ps = [] then 2
      else if (ps.map fun e => s.xv r ||| e).contains 0 then 3
      else if 256 < fr.nogoods.length + cs.length then 1
      else 0
    let s' := if status = 0 && decide (cs ≠ []) then (s'.setFrame s.die f { fr with nogoods := fr.nogoods ++ cs }).noticeAll s.die f
      else s'
    let s' ← s'.writeX d (word status) []
    .ok { st := s', after := State.leaveStuck }

noncomputable section

def execLblAssume (d : BitVec 5) (a : BitVec 6) (s : State) := s.run (.lblAssume d a) (lblAssumes d a)
def execLblWith (d r t : BitVec 5) (s : State) := s.run (.lblWith d r t) (lblWiths d r t)
def execLblMerge (d r t : BitVec 5) (s : State) := s.run (.lblMerge d r t) (lblMerges d r t)
def execLblGet (d r : BitVec 5) (s : State) := s.run (.lblGet d r) (lblGets d r)
def execLblVis (d r : BitVec 5) (s : State) := s.run (.lblVis d r) (lblSees d r)
def execLblNogood (d r : BitVec 5) (s : State) := s.run (.lblNogood d r) (lblNogoods d r)
def execLblCtx (d r : BitVec 5) (s : State) := s.run (.lblCtx d r) (lblCtxs d r)

end

/-- NOGOOD_NOTICE: a core applies a notice of a frame of its die (R74). -/
def execNogoodNotice (c frame : Nat) (s : State) : Host.Outcome State Fault Refusal := .next (s.notice c (BitVec.ofNat 8 frame))

end Sys2Proof.Machine
end

