-- ==== Sys2Proof/Machine/Delivery.lean ====
section
/-!
DEFINITION. Messages on their way to tasks: acceptance and refusal, dispatch, selection, ageing, arrival handlers, redelivery, and
the words of stream ports (R28-R37, R102, R138, R207, R225, R295, R319, R335, R340).
-/

namespace Sys2Proof.Machine

/-! ### Header fields (R25) -/

def Msg.dest (m : Msg) : Nat := bits m.hdr 51 13
def Msg.src (m : Msg) : Nat := bits m.hdr 38 13
def Msg.cls (m : Msg) : Nat := bits m.hdr 32 6
def Msg.prio (m : Msg) : Nat := bits m.hdr 28 4
def Msg.len (m : Msg) : Nat := bits m.hdr 25 3
def Msg.refused (m : Msg) : Bool := bit m.hdr 24
def Msg.frame (m : Msg) : BitVec 8 := BitVec.ofNat 8 (bits m.hdr 16 8)
def Msg.lbl (m : Msg) : Handle := BitVec.ofNat 16 (bits m.hdr 0 16)

/-- Two messages travel on one channel (R137). -/
def Msg.sameChannel (a b : Msg) : Bool := decide (a.src = b.src ∧ a.dest = b.dest ∧ a.cls = b.cls)

/-- Element `i` of a list of channels heads its channel. -/
def headOf (l : List Msg) (i : Nat) : Option Msg :=
  match l[i]? with
  | some m => if (l.take i).any m.sameChannel then none else some m
  | none => none

/-! ### Acceptance and refusal (R33, R34, R335) -/

/-- The refusal of a message by core `c` (R34); that of a fault-handler message keeps what its sender sends again (R335). -/
def Msg.refusal (m : Msg) (c : Nat) : Msg :=
  { hdr := header m.src c m.cls m.prio 1 true m.frame always, payload := payload7 (if m.fault then m.hdr :: m.payload else [m.hdr])
    fault := m.fault }

/-- A stream-port transfer holds the route of a message: it has been opened, and its closing marker has not been delivered (R138). -/
def State.routeHeld (s : State) (m : Msg) : Bool :=
  s.transfers.any fun t => decide (t.who.core = m.src ∧ t.base / 65536 = m.dest)

/-- The message crosses the die-to-die link, which is down: it is lost, and nobody is told (R360; log 66). -/
def State.msgLost (s : State) (m : Msg) : Bool :=
  let from' := match m.launch with
    | some (l, _, _) => l.die * 2048
    | none => if m.src < 0x1048 then m.src else m.dest
  (s.linkAcross from' m.dest).isSome

/-- The lowest free run-queue slot of a core (R36, R295). -/
def Core.freeSlot (k : Core) : Option Nat :=
  (upto 64).find? fun i => !(k.running && decide (k.task.info.slot = i)) && !(k.slots.any fun p => decide (p.1 = i))

/-- The next message to dispatch: from the receive queue or, if it arrived earlier, from the refusal queue; and the core without it
(R33, R295). -/
def Core.nextMsg (k : Core) : Option (Msg × Core) :=
  let q := k.recvq.find? fun m => m.held.isNone
  let fromR := fun (m : Msg) => some (m, { k with recvq := k.recvq.erase m })
  match q, k.refq with
  | some m, r :: rs => if m.arrived ≤ r.arrived then fromR m else some (r, { k with refq := rs })
  | some m, [] => fromR m
  | none, r :: rs => some (r, { k with refq := rs })
  | none, [] => none

/-- A message of the core is due for dispatch in this cycle: what arrives in it comes after (R33, R35, R295). -/
def State.dispatchDue (s : State) (c : Nat) : Bool :=
  let k := s.coreAt c
  decide ((k.turnAt (s.cycleAt c)).stage = 0) && k.freeSlot.isSome && k.nextMsg.isSome

/-- MESSAGE_ARRIVAL: the head of a channel is accepted, or refused (R32-R34, R137); in one cycle after the core's dispatch where one is due, in ascending SRC
order, and before the writes that end the cycle (R35). A refused launch message goes back to the launch
unit; a refused external one leaves through the Giari transport. -/
def State.arrive (s : State) (i : Nat) : State :=
  match headOf s.channels i with
  | none => s
  | some m =>
    let t := (s.coreAt m.dest).turnAt (s.cycleAt m.dest)
    if s.routeHeld m then s
    else if s.msgLost m then { s with channels := dropAt s.channels i }
    else if 3 ≤ t.stage || decide (m.src < t.src) || s.dispatchDue m.dest then s
    else
      let s := { s with channels := dropAt s.channels i }.enter m.dest fun t => { t with stage := 2, src := m.src }
      let k := s.coreAt m.dest
      if k.recvq.length < k.regs.limit then
        s.modCore m.dest fun k => { k with recvq := k.recvq ++ [{ m with arrived := s.cycleAt m.dest }] }
      else match m.launch with
        | some (l, _, _) => s.modDie l.die fun d => { d with redeliver := d.redeliver ++ [⟨m, s.cycleOf l.die⟩] }
        | none => if m.src = 0x1FFF then { s with host := { s.host with answers := s.host.answers ++ [.refused 0] } }
                  else { s with refusals := s.refusals ++ [m.refusal m.dest] }

def execMessageArrival (i : Nat) (s : State) : Host.Outcome State Fault Refusal := .next (s.arrive i)

/-- The fault-handler message that a refusal stands for (R335). -/
def Msg.original (m : Msg) (ps : List Word) : Msg := { hdr := m.payload.headD 0, payload := payload7 ps, fault := true }

/-- REFUSAL_ARRIVAL (R34, R335): a fault-handler message's refusal is absorbed; another waits while the refusal queue is full, and comes after
the core's dispatch and before the writes that end the cycle (R35, R295). -/
def State.refusalArrives (s : State) (i : Nat) : State :=
  match headOf s.refusals i with
  | none => s
  | some m =>
    let s' := { s with refusals := dropAt s.refusals i }
    if s.routeHeld m then s
    else if s.msgLost m then s'
    else if m.fault then { s' with resend := s'.resend ++ [⟨m, s.cycleAt m.dest⟩] }
    else if 8 ≤ (s.coreAt m.dest).refq.length then s
    else if 3 ≤ ((s.coreAt m.dest).turnAt (s.cycleAt m.dest)).stage || s.dispatchDue m.dest then s
    else (s'.enter m.dest fun t => { t with stage := 2 }).modCore m.dest fun k => { k with refq := k.refq ++ [{ m with arrived := s.cycleAt m.dest }] }

def execRefusalArrival (i : Nat) (s : State) : Host.Outcome State Fault Refusal := .next (s.refusalArrives i)

/-- FAULT_MESSAGE_RESEND: no sooner than 512 cycles after its refusal the message is sent again (R335). -/
def State.resendFault (s : State) (i : Nat) : State :=
  match s.resend[i]? with
  | none => s
  | some r =>
    if s.cycleAt r.msg.dest < r.since + 512 then s
    else (s.send (r.msg.original r.msg.payload.tail)) |> fun s => { s with resend := dropAt s.resend i }

def execFaultMessageResend (i : Nat) (s : State) : Host.Outcome State Fault Refusal := .next (s.resendFault i)

/-- LAUNCH_MESSAGE_REDELIVERY: no sooner than 512 cycles after its refusal a launch message is delivered again (R34). Element `i`
counts die 0's before die 1's. -/
def State.redeliverLaunch (s : State) (i : Nat) : State :=
  let n := (s.dieAt 0).redeliver.length
  let d := if i < n then 0 else 1
  let j := if i < n then i else i - n
  match (s.dieAt d).redeliver[j]? with
  | none => s
  | some r =>
    if s.cycleOf d < r.since + 512 then s
    else (s.send r.msg).modDie d fun x => { x with redeliver := dropAt x.redeliver j }

def execLaunchMessageRedelivery (i : Nat) (s : State) : Host.Outcome State Fault Refusal := .next (s.redeliverLaunch i)

/-! ### Dispatch (R28-R33, R295, R319, R340) -/

/-- The whole message is written into the message slot of a task, with the handle that SPFRAME decides (R30). -/
def State.writeSlot (s : State) (c slot : Nat) (f : BitVec 8) (m : Msg) : State :=
  let a := c * 65536 + 0xF000 + 64 * slot
  let k := (s.coreAt c).regs
  let h := if !k.lab then always else if k.frm = f then m.lbl else never
  [a / 32, a / 32 + 1].foldl (fun s t => (s.putSide .spm t h).clearEcc .spm t) (s.putSpace .spm a (dwordBytes (m.hdr :: m.payload)))

/-- The registers that a new task finds (R30). -/
def startRegs (x3 : Word) (args : List Word) (dep : Handle) : Regs :=
  let x := (Vector.replicate 32 ({} : XReg)).set 3 ⟨x3, always⟩
  { x := (upto 4).foldl (fun v i => v.setIfInBounds (4 + i) ⟨args.getD i 0, dep⟩) x }

/-- A new task takes slot `slot` of core `c`, ready (R30, R36). -/
def State.addTask (s : State) (c slot : Nat) (t : Task) : State :=
  let s := s.modCore c fun k => { k with slots := Tab.put {} k.slots slot { t with info := { t.info with
    uid := s.nextId, slot := slot, status := .ready, readySince := s.cycleAt c, aged := 0 } } }
  { s with nextId := s.nextId + 1 }

/-- The task is privileged (R207). -/
def privFor (c cls src : Nat) : Bool := decide (0x1000 ≤ c) || (decide (cls = 63) && decide (0x1000 ≤ src ∧ src < 0x1048))

/-- The task that a message starts (R30). -/
def taskOfMsg (c slot entry : Nat) (f : BitVec 8) (ctx : Word) (m : Msg) : Task :=
  { info := { launch := m.launch.map (·.1) }
    frame := f, ctx := ctx, prio := BitVec.ofNat 4 m.prio, msg := m.hdr, priv := privFor c m.cls m.src
    regs := startRegs (word (0xF000 + 64 * slot)) m.payload m.lbl
    ex := { active := true, pc := entry, dep := m.lbl } }

/-- The halfwords that a class-0 message carries (R31). -/
def Msg.code (m : Msg) : List (BitVec 16) :=
  ((m.payload.drop 1).take (m.len - 1)).flatMap fun w => (unpack 16 4 w.toNat).map (BitVec.ofNat 16)

/-- The message is consumed with a record, and starts no task; a launch message counts as an ended task (R29, R340). -/
def State.consume (s : State) (c : Nat) (f : BitVec 8) (m : Msg) (cause d5 d6 : Nat) : State :=
  let o : RecordOf := { source := 2, core := c, die := dieOf c, frame := f, launch := m.launch.map (·.1) }
  (s.record o { cause := BitVec.ofNat 8 cause, val := m.hdr, d5 := word d5, d6 := word d6 }).countEnd (m.launch.map (·.1)) c

/-- A message of class `cls` at dispatch: its routine-table entry decides (R28-R30, R319). -/
def State.startClass (s : State) (c slot cls : Nat) (m : Msg) : State :=
  let e := Tab.get {} (s.coreAt c).regs.rout cls
  let f := match m.launch with | some (_, f, _) => f | none => e.frame
  let ctx := match m.launch with | some (_, _, x) => x | none => e.ctx
  let die := dieOf c
  let metered := (s.frameAt die f).metered || (s.frameAt die e.frame).metered
  if !e.v then s.consume c m.frame m 0x40 (m.payload.headD 0).toNat 0
  else if m.frame ≠ f && decide (m.lbl ≠ always) then s.consume c f m 0x41 m.frame.toNat f.toNat
  else if metered && !e.attested then
    s.consume c (if (s.frameAt die e.frame).metered then e.frame else f) m 0x42 (m.payload.headD 0).toNat 0
  else (s.writeSlot c slot f m).addTask c slot (taskOfMsg c slot (e.entry.toNat * 2) f ctx m)

/-- A class-0 message at dispatch: it stays in the receive queue until its task ends (R31, R33). -/
def State.startCarried (s : State) (c slot : Nat) (m : Msg) : State :=
  if (s.frameAt (dieOf c) m.frame).metered then s.consume c m.frame m 0x42 (m.payload.headD 0).toNat 0
  else
    let held := { m with held := some s.nextId }
    let t := taskOfMsg c slot 8 m.frame 0 m
    let s := s.modCore c fun k => { k with recvq := held :: k.recvq }
    (s.writeSlot c slot m.frame m).addTask c slot { t with info := { t.info with carried := some m.code }, priv := privFor c 0 m.src }

/-- MESSAGE_DISPATCH: one message moves into the run queue if a slot is free, once in a cycle and before the core's acceptances
(R33, R35, R36). -/
def State.dispatch (s : State) (c : Nat) : State :=
  if decide (((s.coreAt c).turnAt (s.cycleAt c)).stage ≠ 0) then s
  else match (s.coreAt c).freeSlot, (s.coreAt c).nextMsg with
  | some slot, some (m, k) =>
    let s := (s.modCore c fun _ => k).enter c fun t => { t with stage := 1 }
    if m.refused then
      let cls := if m.cls = 0 then k.regs.c0r.toNat else m.cls
      if cls = 0 then s else s.startClass c slot cls m
    else if m.cls = 0 then s.startCarried c slot m
    else s.startClass c slot m.cls m
  | _, _ => s

def execMessageDispatch (c : Nat) (s : State) : Host.Outcome State Fault Refusal := .next (s.dispatch c)

/-! ### Arrival handlers (R102) -/

/-- The header that an arrival handler reads as MSG (R102). -/
def Dormant.header (d : Dormant) (c : Nat) : Word := Machine.header c d.src 0 d.prio.toNat 0 false d.frame d.dep

/-- The task of an arrival handler (R102). -/
def Dormant.task (d : Dormant) (c : Nat) : Task :=
  { frame := d.frame, prio := d.prio, msg := d.header c
    regs := startRegs 0 [d.addr, word d.count] d.dep
    ex := { active := true, pc := d.pc, dep := d.dep } }

/-- ARRIVAL_HANDLER_START (R102). -/
def State.startHandler (s : State) (c : Nat) : State :=
  let k := s.coreAt c
  match k.freeSlot, k.dorm.find? (·.ready) with
  | some slot, some d => (s.modCore c fun k => { k with dorm := k.dorm.erase d }).addTask c slot (d.task c)
  | _, _ => s

def execArrivalHandlerStart (c : Nat) (s : State) : Host.Outcome State Fault Refusal := .next (s.startHandler c)

/-! ### Selection and ageing (R36, R377, R378) -/

/-- `a` is selected before `b` (R36). -/
def Task.before (a b : Task) : Bool :=
  decide (b.effective < a.effective) || (decide (a.effective = b.effective) &&
    (decide (a.info.readySince < b.info.readySince) ||
      (decide (a.info.readySince = b.info.readySince) && decide (a.info.slot ≤ b.info.slot))))

/-- The ready task that a free core selects. -/
def Core.select (k : Core) : Option Task :=
  (sortBy Task.before ((k.slots.map (·.2)).filter fun t => decide (t.info.status = .ready))).head?

/-- A ready task becomes the running one. -/
def Core.start (t : Task) (k : Core) : Core :=
  { k with
    running := true, slots := k.slots.filter fun p => decide (p.1 ≠ t.info.slot)
    task := { t with info := { t.info with status := .running, begun := true } } }

/-- A free core that is not halted takes its next task (R36, R378); one whose initial DEP has no environment free of nogoods is
retired before its first instruction (R74). -/
def State.selectTask (s : State) (c : Nat) : State :=
  let k := s.coreAt c
  if k.running || k.dbg.halted then s
  else match k.select with
    | none => s
    | some t =>
      if !t.info.begun && s.depDead (dieOf c) t.frame t.ex.dep then s.endTask c t.info.uid else s.modCore c (Core.start t)

/-- TASK_SELECTION (R36). -/
def execTaskSelection (c : Nat) (s : State) : Host.Outcome State Fault Refusal := .next (s.selectTask c)

/-- A waiting task's effective priority as its wait has raised it (R36). -/
def Task.age (now : Nat) (t : Task) : Task :=
  if t.info.status = .ready then { t with info := { t.info with aged := min 15 ((now - t.info.readySince) / 4096) } } else t

/-- AGEING of the task in a slot (R36). -/
def execAgeing (c slot : Nat) (s : State) : Host.Outcome State Fault Refusal :=
  .next (s.modCore c fun k => { k with slots := k.slots.map fun p => if p.1 = slot then (p.1, p.2.age (s.cycleAt c)) else p })

/-! ### Stream ports (R27, R102, R138, R225) -/

/-- Why a word ends the writing of its transfer, or the owner's state with the dormant context it takes (R102, R225). -/
def State.portAdmits (s : State) (t : Transfer) : Option State :=
  let owner := t.base / 65536
  let off := t.base % 65536 + 8 * t.written
  let k := (s.coreAt owner).regs
  if t.stopped || decide (65536 < off + 8) then none
  else if k.lab && decide (k.frm ≠ t.frame) then none
  else if decide (owner ≠ t.who.core) &&
      (s.windowRefusal owner (off / 32) (off / 32) (if t.hv then .handler else .store) (some t.who.core)).isSome then none
  else if t.hv && !t.taken then
    if 4 ≤ (s.coreAt owner).dorm.length then none
    else some (s.addDormant owner {
      pc := t.handler, frame := t.frame, dep := always, prio := t.prio, addr := word (t.base % 65536), count := 0
      src := t.who.core, ready := false, id := t.id })
  else some s

/-- One word is written at the owner: a store of 8 bytes under R69 or R70, over what a read of its atom finds; across dies its label travels as
visibility (R27, R352). -/
def State.portWrite (s : State) (t : Transfer) (w : PortWord) : State :=
  let owner := t.base / 65536
  let addr := owner * 65536 + t.base % 65536 + 8 * t.written
  let die := dieOf t.who.core
  if dieOf owner ≠ die then
    let s := s.readRecords die t.frame w.lbls
    if !s.visible die t.frame (s.rawProduct die t.frame w.lbls) w.ctx then s.suppress t.who.core t.who.uid
    else if s.ecc .spm (addr / 32) = 2 then s
    else
      let s' := (s.mendPart false .spm (addr / 32)).putSpace .spm addr (bytesOf w.val)
      if (s.coreAt owner).regs.lab then s' else s'.putSide .spm (addr / 32) always
  else s.applyStore {
    id := 0, core := t.who.core, uid := t.who.uid, stream := t.who.stream, space := .spm, addr := addr, bytes := bytesOf w.val
    lbls := w.lbls, frame := t.frame, ctx := w.ctx, kind := 0, labelled := true, cache := false, pre := [], test := none
    ask := if t.hv then some { want := .handler t.handler t.prio, fold := [], forms := false, ea := 0, first := 0, last := 0, acc := 0, admitted := false } else none }

/-- The end of a transfer: the closing marker is acknowledged with the count, and the handler's context becomes ready. -/
def State.portEnd (s : State) (t : Transfer) : State :=
  let owner := t.base / 65536
  let s := { s with transfers := s.transfers.filter fun x => decide (x.id ≠ t.id) }
  let s := if !t.taken then s
    else if t.written = 0 then s.modCore owner fun k => { k with dorm := k.dorm.filter fun d => decide (d.ready ∨ d.id ≠ t.id) }
    else
      let (h, s) := s.arrivedLabel (dieOf t.who.core) owner t.frame t.lbls
      let fill := fun (d : Dormant) =>
        if decide (d.id = t.id) && !d.ready then { d with ready := true, dep := h, count := 8 * t.written } else d
      s.modCore owner fun k => { k with dorm := k.dorm.map fill }
  s.answer t.who (.value (word t.written) always always)

/-- The next word, or the closing marker, of a transfer over a link that is down: a word is lost as a retired store is, with its record,
and the stream that waits for the marker's acknowledgement traps (R360; log 66). -/
def State.portLost (s : State) (t : Transfer) : State :=
  let owner := t.base / 65536
  match t.words with
  | [] =>
    if t.closed then
      let s := { s with transfers := s.transfers.filter fun x => decide (x.id ≠ t.id) }
      let s := s.modCore owner fun k => { k with dorm := k.dorm.filter fun d => decide (d.ready ∨ d.id ≠ t.id) }
      s.answerTrap t.who { cause := 0x34, val := word (physReport .spm (t.base / 32)), d5 := 0x47 }
    else s
  | _ :: ws =>
    let o : RecordOf := {
      source := 0, core := t.who.core, die := dieOf t.who.core, frame := t.frame, launch := s.launchOf t.who.core t.who.uid }
    (s.record o { cause := 0x47, val := 0, d5 := word (0x10000000 + t.base + 8 * t.written) }).modTransfer t.id fun t =>
      { t with words := ws, stopped := true }

/-- STREAM_PORT_ARRIVAL: the next word of a transfer that holds its route, or its closing marker (R138, R225). -/
def State.portArrive (s : State) (i : Nat) : State :=
  match s.transfers[i]? with
  | none => s
  | some t =>
    if !s.holdsRoute t.id then s
    else if (s.linkAcross t.who.core (t.base / 65536)).isSome then s.portLost t
    else match t.words with
    | [] => if t.closed then s.portEnd t else s
    | w :: ws =>
      match s.portAdmits t with
      | none => s.modTransfer t.id fun t => { t with words := ws, stopped := true }
      | some s' => (s'.portWrite t w).modTransfer t.id fun t =>
          { t with words := ws, written := t.written + 1, taken := t.hv, lbls := (t.lbls ++ w.lbls).eraseDups }

def execStreamPortArrival (i : Nat) (s : State) : Host.Outcome State Fault Refusal := .next (s.portArrive i)

end Sys2Proof.Machine
end

