-- ==== Sys2Proof/Machine/Fetch.lean ====
section
/-!
DEFINITION. Fetching: the bytes at a stream's PC and the instruction they spell (R31, R194-R196, R203).
-/

namespace Sys2Proof.Machine

/-- What a fetch finds: an instruction, an encoding that names none, or a place outside the store (R203). -/
inductive Fetched where
  | instr (i : Instr)
  | illegal (w : BitVec 32)
  | outside
  deriving DecidableEq, Repr

noncomputable section

/-- What four bytes from a PC spell. -/
def fetchedOf (bs : List Byte) : Fetched :=
  match decode bs with
  | .ok (i, _) => .instr i
  | .error _ => .illegal (BitVec.ofNat 32 (if leNat (bs.take 1) % 2 = 1 then leNat (bs.take 4) else leNat (bs.take 2)))

/-- Four bytes of the group's instruction store from an offset; beyond its end they read zero. -/
def State.codeBytes (s : State) (off : Nat) : List Byte :=
  (upto 4).map fun i => if off + i < 65536 then s.imemByte (groupOf s.core.num) (off + i) else 0

/-- The bytes of carried code from halfword `k`; past its last halfword they read zero, also as the second halfword of an encoding that a trap
reports (R31; DESIGN CHOICE, log 92: R203 and R347 do not say what stands there). -/
def carriedBytes (hs : List (BitVec 16)) (k : Nat) : List Byte :=
  [hs.getD k 0, hs.getD (k + 1) 0].flatMap fun h => leBytes 2 h.toNat

/-- The fetch of the running task at a PC. Carried code starts at offset 8 of its message and ends with the task after its last
halfword (R31). -/
def State.fetchFrom (s : State) (pc : Nat) : Fetched :=
  match s.task.info.carried with
  | some hs =>
    let k := (pc - 8) / 2
    if hs.length ≤ k then .instr .cTaskEnd else fetchedOf (carriedBytes hs k)
  | none => if 65536 < pc + s.lenAt pc then .outside else fetchedOf (s.codeBytes pc)

/-- The fetch of the acting stream. -/
def State.fetch (s : State) : Fetched := s.fetchFrom s.pc

/-- The trap of a fetch outside the instruction store (R195). -/
def State.fetchTrap (s : State) : Trap := { cause := 0x02, val := word s.pc }

/-- ILLEGAL_INSTRUCTION: an encoding that names no instruction; in a class-0 task a 32-bit one is a carried-code trap (R203). -/
def execIllegalInstruction (w : BitVec 32) (s : State) : Host.Outcome State Fault Refusal :=
  let long := w.getLsbD 0
  s.complete (if long then 4 else 2) (if long then w.toNat else w.toNat % 65536)
    fun s => if s.task.info.carried.isSome && long then trap 0x03 0 else trap 0x01 0

end

end Sys2Proof.Machine
end

