-- ==== Sys2Proof/Machine/Residue.lean ====
section
/-!
DEFINITION. Tensor maps (major 0x1C) and the residue forms of major 0x19 with the shaped store (R88-R94, R121-R123, R275-R277,
R282, R367).
-/

namespace Sys2Proof.Machine

/-! ### Tensor maps (R121, R122) -/

/-- BASE. -/
def MReg.base (m : MReg) : Nat := bits m.d0 0 48
/-- THRESH. -/
def MReg.thresh (m : MReg) : Nat := bits m.d1 56 8
/-- SCALES. -/
def MReg.scales (m : MReg) : Nat := bits m.d1 0 48
/-- The number of columns. -/
def MReg.cols (m : MReg) : Nat := bits m.d2 48 16 + 1
/-- The number of rows. -/
def MReg.rows (m : MReg) : Nat := bits m.d2 32 16 + 1
/-- RSTRIDE. -/
def MReg.rstride (m : MReg) : Nat := bits m.d2 0 32
/-- FMT. -/
def MReg.fmt (m : MReg) : Nat := bits m.d3 61 3
/-- AXIS: across stores. -/
def MReg.across (m : MReg) : Bool := bit m.d3 60
/-- CONT. -/
def MReg.cont (m : MReg) : Bool := bit m.d3 59
/-- SCSRC: supplied. -/
def MReg.suppliedScale (m : MReg) : Bool := bit m.d3 58
/-- CLIP. -/
def MReg.clip (m : MReg) : Nat := bits m.d3 50 8
/-- The blocks of a tile. -/
def MReg.tile (m : MReg) : Nat := bits m.d3 42 8 + 1
/-- V. -/
def MReg.valid (m : MReg) : Bool := bit m.d3 0

/-- Bytes of an element; Boolean elements are bits (R80, R122). -/
def eltBytes (fmt : Nat) : Nat := if fmt = 2 then 2 else 1

/-- The row and column of an address under a map (R122). A byte offset that is no multiple of the element size gives the column of the
element it lies in (DESIGN CHOICE, log 79: R122's division is not whole there). -/
def MReg.position (m : MReg) (a : Nat) : Nat × Nat :=
  let off := a - m.base
  (off / m.rstride, if m.fmt = 4 then 8 * (off % m.rstride) else off % m.rstride / eltBytes m.fmt)

/-- The extent along the axis. -/
def MReg.extent (m : MReg) : Nat := if m.across then m.rows else m.cols

/-- NB. -/
def MReg.blocks (m : MReg) : Nat := (m.extent + 255) / 256

/-- The address of the scale of block `b` of segment `g` (R122). -/
def MReg.scaleAddr (m : MReg) (g b : Nat) : Word := word (m.scales + 4 * (g * m.blocks + b))

/-- The tensor-map trap (R331, R365, R367). -/
def mapTrap {α : Type} (a : Word) (m : BitVec 3) (kind : Nat) : Except Stop α := trap 0x0A a 0 (kind * 256 + m.toNat)

/-! ### The tensor-map forms (R123, R282) -/

/-- A rewritten map: residue registers whose last store named it hold no last store (R92, R123). -/
def State.rewriteMap (s : State) (m : BitVec 3) : State :=
  s.modTask fun t => { t with regs := { t.regs with e := t.regs.e.map fun e =>
    match e.last with
    | some l => if l.map = m.toNat then { e with last := none } else e
    | none => e } }

/-- `tmap.ld` (R123). -/
def mapLoads (m : BitVec 3) (r : BitVec 5) : Body := fun s => do
  let a := s.xv r
  if m = 0 then mapTrap a m 1
  else
    aligned a 32
    let (bs, hs, s') ← s.load a 32
    let s' ← s'.fold [s.xl r]
    let (h, s') ← s'.prodLoaded (hs ++ [s'.dep])
    let w := fun i => (dwords 4 bs).getD i 0
    let x : MReg := ⟨w 0 &&& 0x0000FFFFFFFFFFFF, w 1 &&& 0xFF00FFFFFFFFFFFF, w 2, w 3 &&& 0xFFFFFC0000000001, h⟩
    .ok { st := (s'.rewriteMap m).putM m x }

/-- `tmap.rd` (R282). -/
def mapReads (d : BitVec 5) (n : BitVec 2) (m : BitVec 3) : Body := fun s => do
  if m = 0 then mapTrap 0 m 1
  else
    let x := s.mreg m
    let s' ← s.writeX d (match n.toNat with | 0 => x.d0 | 1 => x.d1 | 2 => x.d2 | _ => x.d3) [x.lbl]
    .ok { st := s' }

/-- `tmap.mov` (R282). -/
def mapMoves (m : BitVec 3) (r : BitVec 5) : Body := fun s => do
  if bits (s.xv r) 48 16 ≠ 0 then trap 0x07 (s.xv r) 0 1
  else if m = 0 then mapTrap 0 m 1
  else
    let x := s.mreg m
    let (h, s') ← s.prod [x.lbl, s.xl r, s.dep]
    .ok { st := (s'.rewriteMap m).putM m { x with d0 := s.xv r, lbl := h } }

noncomputable section

def execTmapLd (m : BitVec 3) (r : BitVec 5) (s : State) := s.run (.tmapLd m r) (mapLoads m r)
def execTmapRd (d : BitVec 5) (n : BitVec 2) (m : BitVec 3) (s : State) := s.run (.tmapRd d n m) (mapReads d n m)
def execTmapMov (m : BitVec 3) (r : BitVec 5) (s : State) := s.run (.tmapMov m r) (mapMoves m r)

end

/-! ### Residue forms (R88, R275) -/

/-- `qsc` (R275). -/
def resScale (t : BitVec 5) (e : BitVec 2) : Body := fun s => do
  let x := s.ereg e
  let (h, s') ← s.prod [x.lbl, (s.v t).lbl, s.dep]
  .ok { st := s'.putE e { x with supplied := (s.v t).val, lbl := h } }

/-- `qstat` (R275). -/
def resStatus (d : BitVec 5) (e : BitVec 2) : Body := fun s => do
  let s' ← s.writeX d (s.ereg e).status [(s.ereg e).lbl]
  .ok { st := s' }

/-- `qcar` (R275). -/
def resCarry (d : BitVec 5) (e : BitVec 2) : Body := fun s => do
  let s' ← s.putLanes d true 32 (lanes 32 (s.ereg e).carry) [(s.ereg e).lbl]
  .ok { st := s' }

/-- `qclr` (R275). -/
def resClear (e : BitVec 2) : Body := fun s => do
  let (h, s') ← s.prod [s.dep]
  .ok { st := s'.putE e { lbl := h } }

/-- The map of `qhist` or `qst.e4m3`: none for m0; V and FMT checked (R276, R277). -/
def State.quantMap (s : State) (a : Word) (m : BitVec 3) : Except Stop (Option MReg) :=
  if m = 0 then .ok none
  else
    let x := s.mreg m
    if !x.valid then mapTrap a m 2 else if x.fmt ≠ 0 then mapTrap a m 3 else .ok (some x)

/-- The label of a named map. -/
def State.mapLabel (s : State) (m : BitVec 3) : List Handle := if m = 0 then [] else [(s.mreg m).lbl]

/-- The key of exponent `x` in the histogram of lane `i`. -/
def histKey (i : Nat) (x : Int) : Nat := 1024 * i + (x + 512).toNat

/-- One more element of exponent `x` in a histogram. -/
def histAdd (h : Tab Nat) (i : Nat) (x : Int) : Tab Nat := Tab.put 0 h (histKey i x) (Tab.get 0 h (histKey i x) + 1)

/-- `qhist` (R90, R276). -/
def resHist (t : BitVec 5) (e : BitVec 2) (m : BitVec 3) : Body := fun s => do
  let map ← s.quantMap 0 m
  let across := match map with | some x => x.across | none => false
  let x := s.ereg e
  let h := (lanes 32 (s.v t).val).zipIdx.foldl (fun h p => match fp32.exponent p.1 with
    | some z => histAdd h (if across then p.2 else 0) z
    | none => h) x.hist
  let (l, s') ← s.prod ([x.lbl, (s.v t).lbl] ++ s.mapLabel m ++ [s.dep])
  .ok { st := s'.putE e { x with hist := h, lbl := l } }

/-! ### The shaped store (R91-R93, R277) -/

/-- The element at place `n` of a multiset that (exponent key, count) pairs give, largest first; the last one past its end. -/
def pickDesc : List (Nat × Nat) → Nat → Option Nat
  | [], _ => none
  | [(k, _)], _ => some k
  | (k, c) :: r, n => if n < c then some k else pickDesc r (n - c)

/-- The scale that a histogram gives (R91). -/
def histScale (h : Tab Nat) (i clip : Nat) : Nat :=
  match pickDesc (h.filter fun p => decide (p.1 / 1024 = i)).reverse clip with
  | none => 0x3F800000
  | some k => fp32.round false 1 1 (max ((k % 1024 : Nat) - 512 - 7) (-149))

/-- A supplied scale must be a positive normal FP32 value (R91). -/
def goodScale (x : Nat) : Bool := decide (0x00800000 ≤ x) && decide (x < 0x7F800000)

/-- RNE32(v / scale + c), the sum exact (R93). -/
def quantStep (v scale c : Nat) : Nat :=
  match fp32.value v, fp32.value scale, fp32.value c with
  | .fin sv mv ev, .fin _ ms es, .fin sc mc ec =>
    let e := min (ev - es) ec
    fp32.roundInt (atExp sv mv (ev - es) e + atExp sc (mc * ms) ec e) ms e
      (decide (mv = 0) && decide (mc = 0) && sv && sc)
  | .inf n, .fin .., .inf k => if n = k then fp32.inf n else fp32.nanBits
  | .inf n, .fin .., .fin .. => fp32.inf n
  | .fin .., .fin .., .inf n => fp32.inf n
  | _, _, _ => fp32.nanBits

/-- RNE32(C × old / new) (R92). -/
def rescale (c old new : Nat) : Nat :=
  match fp32.value c, fp32.value old, fp32.value new with
  | .fin n m e, .fin _ a x, .fin _ b y => if b = 0 then c else fp32.round n (m * a) b (e + x - y)
  | _, _, _ => c

/-- What a conversion does to NAN and SATC. -/
inductive Quant where
  | plain
  | sat
  | nan
  deriving DecidableEq, Repr

/-- One element: its E4M3 encoding, the carry after it, and what happened (R93). -/
def quantOne (v scale c : Nat) : Nat × Nat × Quant :=
  let v1 := quantStep v scale c
  match fp32.value v1 with
  | .nan => (0x7F, 0, .nan)
  | .inf n => (e4m3.signBit n + 0x7E, 0, .sat)
  | .fin n m e =>
    let (q, st) := roundE4m3 n m 1 e
    if st then (q, 0, .sat) else (q, fp32.sub v1 (e4m3.cvt fp32 q), .plain)

/-- Sixteen elements along lanes: one carry passes through all of them (R89). -/
def quantAlong (scale : Nat) : List Nat → Nat → List (Nat × Quant) × Nat
  | [], c => ([], c)
  | v :: vs, c =>
    let (q, c, k) := quantOne v scale c
    let (r, c) := quantAlong scale vs c
    ((q, k) :: r, c)

/-- Where a store stands: segment and position along the axis. -/
structure Spot where
  seg : Nat
  pos : Nat
  step : Nat
  extent : Nat
  tile : Nat

/-- The store is at the next position of its predecessor, within the tile of it (R92, Continue). Tiles are told apart along the axis only: a
store along lanes whose lanes straddle two tiles continues like any other (DESIGN CHOICE, log 78: R92 does not say which is its tile). -/
def EReg.continues (x : EReg) (m : Nat) (p : Spot) : Bool :=
  match x.last with
  | some l => decide (m ≠ 0 ∧ l.map = m ∧ l.seg = p.seg ∧ l.pos = p.pos ∧ p.pos % (256 * p.tile) ≠ 0)
  | none => false

/-- The store is at the first position of the tile after the one its predecessor ended (R92, Hand-over). -/
def EReg.handsOver (x : EReg) (m : Nat) (cont : Bool) (p : Spot) : Bool :=
  match x.last with
  | some l => cont && decide (m ≠ 0 ∧ l.map = m ∧ l.seg = p.seg ∧ l.pos = p.pos ∧ p.pos % (256 * p.tile) = 0)
  | none => false

/-- The checks of a position under the map and where it is (R277). -/
def quantSpot (a : Word) (m : BitVec 3) : Option MReg → Except Stop Spot
  | none => .ok ⟨0, 0, 16, 16, 1⟩
  | some x =>
    if x.rstride = 0 then mapTrap a m 3
    else if a.toNat < x.base then mapTrap a m 6
    else
      let (row, col) := x.position a.toNat
      if x.cols < col + 16 || x.rows ≤ row then mapTrap a m 6
      else .ok (if x.across then ⟨col, row, 1, x.rows, x.tile⟩ else ⟨row, col, 16, x.cols, x.tile⟩)

/-- The scale lanes of a block that opens, and whether a supplied scale was replaced (R91). -/
def openScales (x : EReg) (map : Option MReg) : List Nat × Bool :=
  let across := match map with | some y => y.across | none => false
  let clip := match map with | some y => y.clip | none => 0
  if match map with | some y => y.suppliedScale | none => false then
    let sup := lanes 32 x.supplied
    let used := if across then sup else List.replicate 16 (sup.headD 0)
    (used.map fun k => if goodScale k then k else 0x3F800000, !(used.all goodScale))
  else
    ((upto 16).map fun i => histScale x.hist (if across then i else 0) clip, false)

/-- The carries of a register whose block opens: kept ones are rescaled (R92). -/
def openCarry (x : EReg) (keep : Bool) (new : List Nat) : List Nat :=
  if keep then ((lanes 32 x.carry).zip ((lanes 32 x.scale).zip new)).map fun p => rescale p.1 p.2.1 p.2.2
  else List.replicate 16 0

/-- Everything that a shaped store computes: the register after it, its 16 bytes and the scale words of an opened block. A block that opens at
a position which is no multiple of 256 has its scale written to the slot of the 256 elements that hold its first one (DESIGN CHOICE, log 85:
R122 numbers the slots by whole blocks, R93 opens a block wherever a New store stands). -/
def EReg.shape (x : EReg) (v : Lanes) (m : BitVec 3) (map : Option MReg) (p : Spot) : EReg × List Byte × List (Word × Nat) :=
  let across := match map with | some y => y.across | none => false
  let cont := x.continues m.toNat p
  let hand := x.handsOver m.toNat (match map with | some y => y.cont | none => false) p
  let opens := !cont || decide (256 ≤ x.pos)
  let (sc, bad) := if opens then openScales x map else (lanes 32 x.scale, false)
  let cs := if opens then openCarry x (cont || hand) sc else lanes 32 x.carry
  let vs := lanes 32 v
  let (qs, cs') := if across then
      let r := (vs.zip (sc.zip cs)).map fun z => quantOne z.1 z.2.1 z.2.2
      (r.map fun z => (z.1, z.2.2), r.map fun z => z.2.1)
    else
      let (r, c) := quantAlong (sc.headD 0) vs (cs.headD 0)
      (r, c :: List.replicate 15 0)
  let sats := (qs.filter fun z => z.2 = .sat).length
  let x' : EReg := { x with
    carry := ofLanes 32 cs', scale := ofLanes 32 sc, hist := if opens then [] else x.hist
    satc := BitVec.ofNat 16 (min (x.satc.toNat + sats) 0xFFFF), nan := x.nan || qs.any fun z => z.2 = .nan
    badsc := x.badsc || bad, axis := across, pos := (if opens then 0 else x.pos) + p.step
    last := if m = 0 then none else some ⟨m.toNat, p.seg, p.pos + p.step⟩ }
  let ws := match map with
    | some y => if opens then
        (if across then (upto 16).map fun i => (y.scaleAddr (p.seg + i) (p.pos / 256), sc.getD i 0)
         else [(y.scaleAddr p.seg (p.pos / 256), sc.headD 0)])
        else []
    | none => []
  (x', qs.map fun z => BitVec.ofNat 8 z.1, ws)

/-- The pieces of the stores of a `qst.e4m3`: the scales of a block that opens, then the elements (R93, R277). -/
def State.shapedPieces (s : State) (r t : BitVec 5) (e : BitVec 2) (m : BitVec 3) (off : Word) : Except Stop (List (List Loc)) := do
  let a := s.xv r + off
  let map ← s.quantMap a m
  let p ← quantSpot a m map
  aligned a 16
  let ls ← s.resolve .store a 16
  let sl ← s.checkElems .store false (((s.ereg e).shape (s.v t).val m map p).2.2.map fun w => (w.1, 4))
  .ok (sl ++ [ls])

/-- `qst.e4m3` at x[rs] + off (R93, R176, R277). -/
def shapedStore (d r t : BitVec 5) (e : BitVec 2) (m : BitVec 3) (off : Word) : Body := fun s => do
  let a := s.xv r + off
  let map ← s.quantMap a m
  let p ← quantSpot a m map
  let x := s.ereg e
  let (x', bs, ws) := x.shape (s.v t).val m map p
  let leave := fun (l : Handle) (s : State) =>
    (s.putE e { x' with lbl := l }).putX d ⟨word (x'.scale.toNat % 2 ^ 32), l⟩
  s.asked (fun _ l s => .ok { st := leave l s }) fun s => do
    aligned a 16
    let ls ← s.resolve .store a 16
    let sl ← s.checkElems .store false (ws.map fun w => (w.1, 4))
    let (l, s') ← s.stores [s.xl r] true ([(s.v t).lbl, x.lbl] ++ s.mapLabel m)
      ((ws.map fun (w : Word × Nat) => leBytes 4 w.2).zip sl ++ [(bs, ls)])
    .ok { st := leave l s' }

noncomputable section

def execQsc (t : BitVec 5) (e : BitVec 2) (s : State) := s.run (.qsc t e) (resScale t e)
def execQstat (d : BitVec 5) (e : BitVec 2) (s : State) := s.run (.qstat d e) (resStatus d e)
def execQcar (d : BitVec 5) (e : BitVec 2) (s : State) := s.run (.qcar d e) (resCarry d e)
def execQclr (e : BitVec 2) (s : State) := s.run (.qclr e) (resClear e)
def execQhist (t : BitVec 5) (e : BitVec 2) (m : BitVec 3) (s : State) := s.run (.qhist t e m) (resHist t e m)
def execQstE4m3 (d r t : BitVec 5) (e : BitVec 2) (m : BitVec 3) (s : State) := s.run (.qstE4m3 d r t e m) (shapedStore d r t e m 0)

end

end Sys2Proof.Machine
end

