-- ==== Sys2Proof/Machine/Gang.lean ====
section
/-!
DEFINITION. Majors 0x1D and 0x1F and their events: gang issue, weight planes, streamed activations, managed matrices and their
migration, and what the meters count (R85-R87, R154-R168, R283, R284, R359, R372).
-/

namespace Sys2Proof.Machine

/-! ### Elements and cells (R79, R84-R87, R157) -/

/-- A semiring accepts a format (R157). -/
def srFits (sr fmt : Nat) : Bool :=
  match sr with
  | 0 => decide (fmt ≤ 1)
  | 1 => decide (fmt = 2)
  | 2 => decide (fmt = 3)
  | _ => decide (fmt = 4)

/-- The semiring that a format has (R157). -/
def srOf (fmt : Nat) : Nat := if fmt ≤ 1 then 0 else fmt - 1

/-- The encoding of Z (R157). -/
def zOf (fmt : Nat) : Nat := if fmt = 2 then 0x7FFF else 0

/-- The bits of an element. -/
def fmtBits (fmt : Nat) : Nat := match fmt with | 2 => 16 | 4 => 1 | _ => 8

/-- An E4M3 encoding as a multiple of 2^−9 (R79); 0 for a NaN. -/
def e4m3Int (x : Nat) : Int := match e4m3.value x with | .fin n m e => atExp n m e (-9) | _ => 0

/-- An element encoding is an E4M3 NaN. -/
def eltNan (fmt x : Nat) : Bool := decide (fmt = 0) && decide (x % 128 = 127)

/-- P of R85, with the NaN test of the block done. A scale that is a zero makes the product of a non-zero sum an exact zero, whose sign is
the exclusive-or of the three signs (R81); a zero sum gives +0. -/
def promoted (nan : Bool) (sum : Int) (sa sb : Nat) : Nat :=
  if nan then fp32.nanBits
  else match fp32.value sa, fp32.value sb with
  | .fin x m e, .fin y n g => fp32.roundInt ((if x != y then -sum else sum) * (m * n : Nat)) 1 (e + g - 18)
      (decide (sum ≠ 0) && (decide (sum < 0) != (x != y)))
  | x, y =>
    if decide (sum = 0) || decide (x = .nan) || decide (y = .nan) then fp32.nanBits
    else fp32.inf (decide (sum < 0) != (decide (2 ^ 31 ≤ sa) != decide (2 ^ 31 ≤ sb)))

/-- What one block brings to a cell: activations and weights side by side, the NaN flag, the scales. -/
structure BlockIn where
  acts : List Nat
  weights : List Nat
  nan : Bool
  sa : Nat
  sb : Nat

/-- The exact sum of products of a block (R85, R86). -/
def BlockIn.sum (b : BlockIn) (val : Nat → Int) : Int :=
  (b.acts.zip b.weights).foldl (fun z p => z + val p.1 * val p.2) 0

/-- a ⊗ b of min-plus (R87). -/
def minPlus (a b : Nat) : Int :=
  if a = 0x7FFF || b = 0x7FFF then 32767 else sat (sgn 16 a + sgn 16 b) (-32768) 32767

/-- One block combined into a cell: the cell after it, and whether an INT8 addition saturated (R85-R87). -/
def cellStep (sr fmt : Nat) (cell : Nat) (b : BlockIn) : Nat × Bool :=
  let ps := b.acts.zip b.weights
  match sr with
  | 0 =>
    if fmt = 0 then
      let nan := b.nan || ps.any fun p => eltNan 0 p.1 || eltNan 0 p.2
      (fp32.add cell (promoted nan (b.sum e4m3Int) b.sa b.sb), false)
    else
      let z := sgn 32 cell + b.sum (sgn 8)
      let v := sat z (-(2 ^ 31)) (2 ^ 31 - 1)
      (wrap 32 v, decide (v ≠ z))
  | 1 => (wrap 32 (ps.foldl (fun m p => min m (minPlus p.1 p.2)) (sat (sgn 32 cell) (-32768) 32767)), false)
  | 2 => (ps.foldl (fun m p => max m ((p.1 * p.2 + 128) / 256)) (sat (sgn 32 cell) 0 255).toNat, false)
  | _ => (if decide (cell % 2 ^ 32 ≠ 0) || ps.any (fun p => decide (p.1 = 1 ∧ p.2 = 1)) then 1 else 0, false)

/-- The blocks of a cell, in ascending K order. -/
def cellSteps (sr fmt : Nat) (cell : Nat) (bs : List BlockIn) : Nat × Bool :=
  bs.foldl (fun c b => let r := cellStep sr fmt c.1 b
                       (r.1, c.2 || r.2)) (cell, false)

/-! ### Arrival (R154, R161, R372) -/

/-- The encoding without xs and M. -/
def gangKey (w : Nat) : Nat := w - w / 2 ^ 12 % 32 * 2 ^ 12 - w / 2 ^ 7 % 8 * 2 ^ 7

/-- The map register that an arrival names. -/
def Arrival.m (a : Arrival) : Nat := a.word / 2 ^ 7 % 8

/-- The core's index within its group (R18). -/
def Arrival.idx (a : Arrival) : Nat := a.core % 16

/-- The position of an arrival's xs under its map. -/
def Arrival.pos (a : Arrival) : Nat × Nat := a.map.position a.xs.val.toNat

/-- The gang-operand trap of a kind (R365). -/
def gangOperand (kind : Nat) : Trap := { cause := 0x0D, d6 := word kind }

/-- The first-stage check of a map and a position (R367, R372). -/
def mapCheck (x : MReg) (m : Nat) (a : Word) (across : Bool) : Option Trap :=
  let no := fun (kind : Nat) => some ({ cause := 0x0A, val := a, d6 := word (kind * 256 + m) } : Trap)
  if m = 0 then no 1
  else if !x.valid then no 2
  else if 4 < x.fmt || decide (x.rstride = 0) then no 3
  else if x.across != across then no 4
  else if a.toNat < x.base then no 6
  else if (if across then (x.position a.toNat).1 else (x.position a.toNat).2) % 256 ≠ 0 then no 5
  else none

/-- The first stage of R372, at a core's own arrival. -/
def State.gangCheck (s : State) (op : GangOp) (m : BitVec 3) (r : BitVec 5) : Option Trap :=
  let g := groupOf s.core.num
  let map := mapCheck (s.mreg m) m.toNat (s.xv r)
  if s.actStream ≠ 0 then some { cause := 0x1D }
  else match op with
  | .wld _ _ => map true
  | .mma mr np p n =>
    if 4 < n.toNat + (mr.toNat + 16) / 16 then some (gangOperand 1)
    else if 7 < p.toNat + np.toNat then some (gangOperand 2)
    else if decide (0 < np.toNat) && (upto (np.toNat + 1)).any (fun i => (s.planeAt g (p.toNat + i)).mgd) then some (gangOperand 3)
    else if s.core.num % 16 ≤ mr.toNat then map false
    else none
  | .reg w => if w &&& ~~~0xFFFF07FF ≠ 0 then some (gangOperand 4) else map true
  | .mig p => if !(s.planeAt g p.toNat).mgd then some (gangOperand 5) else none

/-- The acting task has arrived. -/
def State.arrived (s : State) : Bool :=
  (s.groupAt (groupOf s.core.num)).arrivals.any fun a => decide (a.core = s.core.num ∧ a.uid = s.task.info.uid)

/-- The acting task has trapped at a gang form, or no longer stands so (R372). -/
def State.setFailed (s : State) (b : Bool) : State :=
  let me : Party := ⟨s.core.num, s.task.info.uid, 0⟩
  s.modGroup (groupOf s.core.num) fun k =>
    let rest := k.failed.filter fun w => decide (w ≠ me)
    { k with failed := if b then me :: rest else rest }

/-- A gang-issued form of encoding `enc`: the wait for an earlier operation, the first stage, the release fence at package scope,
the arrival, and the wait for the start step (R154, R161, R372). -/
def gangForm (enc : Nat) (op : State → GangOp) (m : BitVec 3) (r : BitVec 5) : Body := fun s =>
  match s.strm.reply with
  | some .done => .ok { st := s }
  | _ =>
    if s.actStream = 0 && s.arrived then
      match s.strm.wait with
      | some w => wait w.kind
      | none => wait .gang
    else if s.actStream = 0 && (s.groupAt (groupOf s.core.num)).flight.isSome then wait .busy
    else match s.gangCheck (op s) m r with
    | some t => .error (.passed (t.fill enc s.task) (s.setFailed true))
    | none =>
      if s.heldIn 6 then wait .accesses
      else
        let a : Arrival := {
          core := s.core.num, uid := s.task.info.uid, op := op s, word := enc, frame := s.task.frame, xs := s.x r
          map := s.mreg m, dep := s.dep, since := s.cycle }
        waitAs .gang (((s.setFailed false).modGroup (groupOf s.core.num) fun k => { k with arrivals := k.arrivals ++ [a] }).modStrm
          fun x => { x with wait := none })

noncomputable section

/-- The encoding of an instruction. -/
def encOf (i : Instr) : Nat := ((encode i).getD (32, 0)).2

def execGangWld (m : BitVec 3) (r : BitVec 5) (p : BitVec 3) (q : BitVec 2) (s : State) :=
  s.run (.gangWld m r p q) (gangForm (encOf (.gangWld m r p q)) (fun _ => .wld q p) m r)
def execGangMma (m : BitVec 3) (a : BitVec 2) (r : BitVec 5) (p n : BitVec 3) (w : BitVec 6) (s : State) :=
  s.run (.gangMma m a r p n w) (gangForm (encOf (.gangMma m a r p n w)) (fun _ => .mma w n p a) m r)
def execHotReg (m : BitVec 3) (r t : BitVec 5) (s : State) :=
  s.run (.hotReg m r t) (gangForm (encOf (.hotReg m r t)) (fun s => .reg (s.xv t)) m r)
def execHotMig (p : BitVec 3) (s : State) := s.run (.hotMig p) (gangForm (encOf (.hotMig p)) (fun _ => .mig p) 0 0)

end

/-- The firing counter of a row as `hot.cnt` gives it (R166). -/
def Plane.counted (q : Plane) (k : Nat) : Word :=
  if q.mgd && decide (k < q.kext) then
    word (Tab.get 0 q.counters k + (if q.hotset.contains k then 2 ^ 16 else 0) + 2 ^ 17)
  else 0

/-- `hot.cnt` (R166, R284). -/
def hotCounts (d r : BitVec 5) : Body := fun s => do
  let v := s.xv r
  if v &&& ~~~0x77FF ≠ 0 then trap 0x07 v 0 1
  else
    let s' ← s.writeX d ((s.planeAt (groupOf s.core.num) (bits v 12 3)).counted (bits v 0 11)) [s.xl r]
    .ok { st := s' }

noncomputable section

def execHotCnt (d r : BitVec 5) (s : State) := s.run (.hotCnt d r) (hotCounts d r)

end

/-! ### The second stage (R157-R159, R162, R372) -/

/-- The array-format trap (R331, R365). -/
def formatTrap (fmt sr plane : Nat) : Trap := { cause := 0x0E, val := word (fmt + sr * 256), d6 := word plane }

/-- What must agree between arrivals (R154). -/
def Arrival.key (a : Arrival) : Nat × BitVec 8 × Word := (gangKey a.word, a.frame, match a.op with | .reg w => w | _ => 0)

/-- The lowest tile with INV = 1 among `k` from `n` of an arrived task. -/
def State.invTile (s : State) (a : Arrival) (n k : Nat) : Option Nat :=
  match (s.coreAt a.core).taskOf a.uid with
  | none => none
  | some t => ((upto k).map (n + ·)).find? fun i => (t.regs.acc.getD i {}).inv

/-- The format checks of a `gang.mma` (R157, R159). -/
def State.mmaFormats (s : State) (g : Nat) (as : List Arrival) (rows p np : Nat) : Option Trap :=
  let q0 := s.planeAt g p
  (upto np).findSome? fun i =>
    let q := s.planeAt g (p + i)
    let sup := as.filter fun a => decide (a.idx < rows)
    if !q.v then some (formatTrap (((sup.head?).map fun a => a.map.fmt).getD 0) q.sr.toNat (p + i))
    else match sup.find? fun a => decide (a.map.fmt ≠ q.fmt.toNat) with
      | some a => some (formatTrap a.map.fmt q.sr.toNat (p + i))
      | none => if q.sr ≠ q0.sr || q.fmt ≠ q0.fmt then some (formatTrap q.fmt.toNat q.sr.toNat (p + i)) else none

/-- The format checks of a plane load under semiring `sr` (R157, R158, R162). -/
def loadFormats (as : List Arrival) (sr p : Nat) : Option Trap :=
  let f := (as.head?.map fun a => a.map.fmt).getD 0
  (as.find? fun a => decide (a.map.fmt ≠ f) || !srFits sr a.map.fmt).map fun a => formatTrap a.map.fmt sr p

/-- The bytes of `n` elements of a map's row from a column: address, length, and how many lie in the extent (R122). -/
def MReg.piece (m : MReg) (row col n : Nat) : Nat × Nat × Nat :=
  let k := if m.rows ≤ row then 0 else min n (m.cols - col)
  (m.base + row * m.rstride + col * fmtBits m.fmt / 8, (k * fmtBits m.fmt + 7) / 8, k)

/-- A byte of a managed matrix lies in main memory homed on the own device, as far as a translation exists (R162). -/
def State.ownPage (s : State) (core a : Nat) : Bool :=
  decide (vspace a = .global) &&
    match s.tlbFind (tileOf core) a with
    | some d => decide (bits d 44 20 = s.host.devnum.toNat)
    | none => match s.walk (s.tableOf core) a with
      | .ok d => decide (bits d 44 20 = s.host.devnum.toNat)
      | .error _ => true

/-- Kext of an arrival's map (R162). -/
def Arrival.kext (a : Arrival) : Nat := a.map.rows - a.pos.1

/-- An arrival breaks the Kext or the home condition of R162. -/
def State.badMatrix (s : State) (kext : Nat) (a : Arrival) : Bool :=
  decide (a.kext ≠ kext ∨ a.kext = 0 ∨ 2048 < a.kext) ||
    (upto a.kext).any fun k =>
      let (b, n, e) := a.map.piece (a.pos.1 + k) (a.pos.2 + 16 * a.idx) 16
      decide (e ≠ 0) && !(s.ownPage a.core b && s.ownPage a.core (b + n - 1))

/-- The second stage of R372 over the sixteen arrivals in core order: the trap that each core raises. -/
def State.gangStage2 (s : State) (g : Nat) (as : List Arrival) : Option (Arrival → Trap) :=
  let a0 := as.head?
  match as.find? fun a => decide (some a.key ≠ a0.map (·.key)) with
  | some a => some fun _ => { cause := 0x0B, d6 := word a.idx }
  | none =>
    match a0.map Arrival.op with
    | none => none
    | some (.mma mr np p n) =>
      match as.findSome? fun a => (s.invTile a n.toNat ((mr.toNat + 16) / 16)).map fun i => (i, a.idx) with
      | some (i, c) => some fun _ => { cause := 0x0F, val := word i, d6 := word c }
      | none => (s.mmaFormats g as (mr.toNat + 1) p.toNat (np.toNat + 1)).map fun t _ => t
    | some (.wld sr p) => (loadFormats as sr.toNat p.toNat).map fun t _ => t
    | some (.reg w) =>
      let f := (as.head?.map fun a => a.map.fmt).getD 0
      match loadFormats as (srOf f) (bits w 8 3) with
      | some t => some fun _ => t
      | none =>
        if as.any (s.badMatrix ((a0.map (·.kext)).getD 0)) then
          some fun a => { cause := 0x0A, val := a.xs.val, d6 := word (7 * 256 + a.m) }
        else none
    | some (.mig _) => none

/-! ### Operand reads at the start step (R161, R372) -/

/-- What a core's reads have given so far: the state, the bytes taken of a remote answer, the labels. -/
structure GReads where
  st : State
  used : Nat := 0
  lbls : List Handle := []

/-- One read by core `c`, in its task's frame and through its tile's TLB: the bytes and the pieces of main memory read. A miss
whose walk stops is a page fault (R355). -/
def GReads.read (x : GReads) (c a n : Nat) : Except Stop (List Byte × List (Nat × Nat) × GReads) :=
  if n = 0 then .ok ([], [], x)
  else
    let s := x.st.focus c 0
    match s.resolve .load (word a) n with
    | .error (.wait (.tlb va k) r) =>
      match s.walk (s.tableOf c) va with
      | .error l => .error (.trap { cause := 0x33, val := word va, d5 := word l, d6 := word k })
      | .ok _ => .error (.wait (.tlb va k) r)
    | .error e => .error e
    | .ok ls => do
      let (bs, hs, s') ← s.loadLocs x.used ls
      let far := (ls.filter fun l => l.remote.isSome).foldl (fun k l => k + l.len) 0
      .ok (bs, (ls.filter fun l => decide (l.space = .main) && l.remote.isNone).map fun l => (l.addr, l.len),
        { st := s', used := x.used + far, lbls := x.lbls ++ hs })

/-- `n` elements of a map's row from a column, with Z outside the extent, and the pieces read (R158, R159). -/
def GReads.row (x : GReads) (c : Nat) (m : MReg) (row col n : Nat) : Except Stop ((List Nat × List (Nat × Nat)) × GReads) := do
  let (a, len, k) := m.piece row col n
  let (bs, ps, x') ← x.read c a len
  .ok ((unpack (fmtBits m.fmt) k (leNat bs) ++ List.replicate (n - k) (zOf m.fmt), ps), x')

/-- One scale, and 1.0 outside the extent (R122, R158, R159). -/
def GReads.scale (x : GReads) (c : Nat) (m : MReg) (inside : Bool) (seg blk : Nat) : Except Stop (Nat × GReads) :=
  if m.fmt = 0 && inside then do
    let (bs, _, x') ← x.read c (m.scaleAddr seg blk).toNat 4
    .ok (leNat bs, x')
  else .ok (0x3F800000, x)

/-- A list of reads in turn. -/
def GReads.each {α β : Type} (f : GReads → α → Except Stop (β × GReads)) : GReads → List α → Except Stop (List β × GReads)
  | x, [] => .ok ([], x)
  | x, a :: as => do
    let (b, x) ← f x a
    let (bs, x) ← GReads.each f x as
    .ok (b :: bs, x)

/-- One core's columns of a weight matrix: the given rows (counted from row0) with their pieces, and the scales of `nb` blocks,
16 to each (R158, R162). -/
def GReads.columns (x : GReads) (c idx : Nat) (m : MReg) (row0 col0 : Nat) (ks : List Nat) (nb : Nat) :
    Except Stop ((List (List Nat × List (Nat × Nat)) × List Nat) × GReads) := do
  let (rs, x) ← x.each (fun x k => x.row c m (row0 + k) (col0 + 16 * idx) 16) ks
  let (sc, x) ← x.each (fun x i => x.scale c m (decide (col0 + 16 * idx + i % 16 < m.cols)) (col0 + 16 * idx + i % 16) (row0 / 256 + i / 16))
    (upto (16 * nb))
  .ok ((rs, sc), x)

/-- Why a start step is not taken: which core, whether the read was of a cold row, and its stop. -/
abbrev GFail := Nat × Bool × Stop

/-- The failure that counts: the lowest core's, activations first (R372). -/
def firstFail : List GFail → Option GFail
  | [] => none
  | f :: fs => match firstFail fs with
    | none => some f
    | some h => if f.1 < h.1 || (decide (f.1 = h.1) && (!f.2.1 || h.2.1)) then some f else some h

/-- A read that has to wait. -/
def Stop.waits : Stop → Bool
  | .wait _ _ => true
  | _ => false

/-- A wait for a translation or for another package. -/
def WaitKind.outside : WaitKind → Bool
  | .tlb _ _ | .remote _ _ | .migrate _ _ => true
  | _ => false

/-- A start step that is not taken: a participant's read waits (R117, R119), or all sixteen cores raise the trap of the failing
one (R372). A walk that stops has read the entries on its way (R352). -/
def State.gangRefuse (s : State) (g : Nat) (as : List Arrival) (fs : List GFail) : State :=
  match fs.find? fun f => f.2.2.waits with
  | some (c, _, .wait k _) =>
    match as.find? fun a => decide (a.core = c) with
    | some a =>
      if k.outside then
        s.modParty ⟨c, a.uid, 0⟩ fun t => t.modStrm 0 fun x =>
          if (x.wait.map (·.kind)) = some k then x else { x with wait := some ⟨k, s.cycleAt a.core⟩, reply := none }
      else s
    | none => s
  | _ => match firstFail fs with
    | some (c, _, .trap t) =>
      (if t.cause = 0x33 ∧ t.d5 ≠ 0 then s.walked (s.tableOf c) t.val.toNat else s).gangFail g fun _ => t
    | _ => s

/-- The participants retire and the arrivals go (R161). -/
def State.gangGo (s : State) (g : Nat) (as : List Arrival) : State :=
  as.foldl (fun s a => s.answer ⟨a.core, a.uid, 0⟩ .done) (s.modGroup g fun k => { k with arrivals := [] })

/-- The acting core and stream become those they were. -/
def State.refocus (s : State) (c st : Nat) : State := s.focus c st

/-! ### Loading planes (R158, R162) -/

/-- The cells of rows read by sixteen cores, `ks` naming the rows. -/
def cellsOf (ks : List Nat) (cs : List (Nat × List (List Nat))) (t : Tab Nat) : Tab Nat :=
  cs.foldl (fun t c => (ks.zip c.2).foldl (fun t r => (r.2.zipIdx).foldl (fun t e => Tab.put 0 t (256 * r.1 + 16 * c.1 + e.2) e.1) t) t) t

/-- The scales of sixteen cores' columns. -/
def scalesOf (cs : List (Nat × List Nat)) : Tab (BitVec 32) :=
  cs.foldl (fun t c => c.2.zipIdx.foldl (fun t e =>
    Tab.put 0x3F800000 t (256 * (e.2 / 16) + 16 * c.1 + e.2 % 16) (BitVec.ofNat 32 e.1)) t) []

/-- The NaN flag of each block and column over rows read (R162). -/
def nansOf (fmt : Nat) (ks : List Nat) (cs : List (Nat × List (List Nat))) : Tab Bool :=
  cs.foldl (fun t c => (ks.zip c.2).foldl (fun t r => r.2.zipIdx.foldl (fun t e =>
    if eltNan fmt e.1 then Tab.put false t (256 * (r.1 / 256) + 16 * c.1 + e.2) true else t) t) t) []

/-- The address of each row: its first byte in the lowest core's columns that hold it (DESIGN CHOICE, log 75: R168 counts by the address
of a row, whose columns may lie apart). -/
def rowPas (ks : List Nat) (cs : List (List (List (Nat × Nat)))) : List Nat :=
  ks.filterMap fun k => cs.findSome? fun c => ((c.getD k []).head?).map (·.1)

/-- The reads of a plane load by all sixteen cores. -/
def GReads.planeReads (x : GReads) (as : List Arrival) (ks : List Nat) (nb : Nat) :
    Except GFail (List (List (List Nat × List (Nat × Nat)) × List Nat) × GReads) :=
  match as with
  | [] => .ok ([], x)
  | a :: as =>
    match ({ x with used := 0 } : GReads).columns a.core a.idx a.map a.pos.1 a.pos.2 ks nb with
    | .error e => .error (a.core, false, e)
    | .ok (r, x) =>
      match x.planeReads as ks nb with
      | .error e => .error e
      | .ok (rs, x) => .ok (r :: rs, x)

/-- Modified copies of the matrix's lines are written back: the L1 copies become clean, and the home slices' ways too (R162). -/
def State.cleanLines (s : State) (ps : List (Nat × Nat)) : State :=
  let hit := fun (line : Nat) => ps.any fun p => overlap p.1 p.2 (line * 128) 128
  { s with coh := { s.coh with
      l1 := s.coh.l1.map fun e => if decide (e.2.st = .m) && hit e.2.line then (e.1, { e.2 with st := .e }) else e
      msc := s.coh.msc.map fun e => if e.2.dirty && hit e.2.line then (e.1, { e.2 with dirty := false }) else e } }

/-- The start step of `gang.wld` and `hot.reg` (R158, R162). `managed` is H and AUTO for the latter. -/
def State.startLoad (s : State) (g : Nat) (as : List Arrival) (sr p : Nat) (managed : Option (Nat × Nat)) : State :=
  let fmt := (as.head?.map fun a => a.map.fmt).getD 0
  let frame := (as.head?.map (·.frame)).getD 0
  let kext := if managed.isSome then (as.head?.map (·.kext)).getD 0 else (as.map fun a => min 256 a.kext).foldl max 0
  let ks := upto (if managed.isSome then kext else 256)
  let nb := if managed.isSome then (kext + 255) / 256 else 1
  match ({ st := s } : GReads).planeReads as ks nb with
  | .error f => s.gangRefuse g as [f]
  | .ok (rs, x) =>
    let s1 := x.st.refocus s.core.num s.actStream
    let die := (as.head?.map fun a => dieOf a.core).getD 0
    let hs := x.lbls ++ (as.map fun a => a.map.lbl) ++ as.map fun a => a.dep
    match s1.form die frame false hs with
    | .error t => s.gangFail g fun _ => t
    | .ok (h, s2) =>
      let cols := as.zip rs
      let raws := cols.map fun c => (c.1.idx, c.2.1.map (·.1))
      let hot := match managed with | some (h, _) => min h kext | none => 0
      let keep := if managed.isSome then upto hot else ks
      let q : Plane := {
        v := true, mgd := managed.isSome, fmt := BitVec.ofNat 3 fmt, sr := BitVec.ofNat 2 sr, hot := hot
        auto := BitVec.ofNat 16 ((managed.map (·.2)).getD 0), frame := frame, lbl := h, kext := kext
        cells := cellsOf keep raws [], scales := scalesOf (cols.map fun c => (c.1.idx, c.2.2))
        nans := if managed.isSome then nansOf fmt ks raws else []
        hotset := if managed.isSome then keep else []
        maps := if managed.isSome then cols.map fun c => ⟨c.1.core, c.1.map, c.1.pos.1, c.1.pos.2, c.2.1.map (·.2)⟩ else []
        rowPa := rowPas ks (cols.map fun c => c.2.1.map (·.2)) }
      let s3 := if managed.isSome then s2.cleanLines (cols.flatMap fun c => c.2.1.flatMap (·.2)) else s2
      (s3.putPlane g p q).gangGo g as

/-! ### Streaming activations (R159, R163, R164) -/

/-- One activation row: M chunk, row of the chunk, elements, scales. -/
structure ActRow where
  m : Nat
  r : Nat
  elts : List Nat
  scales : List Nat

/-- The rows that one core supplies (R159). -/
def GReads.actRows (x : GReads) (a : Arrival) (rows k nb : Nat) : Except Stop (List ActRow × GReads) :=
  x.each (fun x m => do
    let row := a.pos.1 + m
    let ((es, _), x) ← x.row a.core a.map row a.pos.2 k
    let (sc, x) ← x.each (fun x b => x.scale a.core a.map (decide (row < a.map.rows ∧ a.pos.2 + 256 * b < a.map.cols)) row (a.pos.2 / 256 + b))
      (upto nb)
    .ok (⟨m, a.idx, es, sc⟩, x)) (upto ((rows - 1 - a.idx) / 16 + 1))

/-- The activations of all supplying cores, with what failed. -/
def GReads.acts (x : GReads) (as : List Arrival) (rows k nb : Nat) : List ActRow × List GFail × GReads :=
  as.foldl (fun acc a =>
    match ({ acc.2.2 with used := 0 } : GReads).actRows a rows k nb with
    | .ok (r, x) => (acc.1 ++ r, acc.2.1, x)
    | .error e => (acc.1, acc.2.1 ++ [(a.core, false, e)], acc.2.2)) ([], [], x)

/-- An activation is live (R163). -/
def eltLive (fmt e : Nat) : Bool := if fmt = 0 then decide (e % 128 ≠ 0) else if fmt = 2 then decide (e ≠ 0x7FFF) else decide (e ≠ 0)

/-- A live activation fires under a threshold (R163); a negative E4M3 threshold is met by every magnitude, a NaN by none. -/
def eltFires (fmt thresh e : Nat) : Bool :=
  eltLive fmt e && (decide (fmt = 2 ∨ fmt = 4 ∨ thresh = 0) ||
    (if fmt = 0 then eltNan 0 e || (decide (thresh % 128 ≠ 127) && decide (128 ≤ thresh ∨ thresh ≤ e % 128))
     else if fmt = 1 then decide (thresh ≤ (sgn 8 e).natAbs) else decide (thresh ≤ e)))

/-- The matrix rows that are live in a native operation. -/
def liveRows (fmt m kext : Nat) (acts : List ActRow) : List Nat :=
  (upto kext).filter fun k => acts.any fun a => decide (a.m = m) && eltLive fmt (a.elts.getD k (zOf fmt))

/-- The cold rows read by the polder units, for one core's columns: through the registered map, translated at this start step as every
operand read is (R161, R372; DEDUCED, log 40). -/
def GReads.cold (x : GReads) (c : ColMap) (ks : List Nat) : Except Stop (List (List Nat) × GReads) := do
  let (rs, x) ← x.each (fun x k => x.row c.core c.map (c.row0 + k) (c.col0 + 16 * (c.core % 16)) 16) ks
  .ok (rs.map (·.1), x)

/-- The cold rows of all sixteen slices, with what failed. -/
def GReads.colds (x : GReads) (cs : List ColMap) (ks : List Nat) : List (Nat × List (List Nat)) × List GFail × GReads :=
  cs.foldl (fun acc c =>
    match ({ acc.2.2 with used := 0 } : GReads).cold c ks with
    | .ok (r, x) => (acc.1 ++ [(c.core % 16, r)], acc.2.1, x)
    | .error e => (acc.1, acc.2.1 ++ [(c.core, true, e)], acc.2.2)) ([], [], x)

/-- What block `b` of plane `q` brings to column `n` for one activation row; `cold` holds the live cold rows read, `live` the rows
live in the native operation (R159, R164, R167). -/
def Plane.block (q : Plane) (a : ActRow) (i b n : Nat) (cold : Tab Nat) (live : List Nat) : BlockIn :=
  let z := zOf q.fmt.toNat
  let w := fun (k : Nat) =>
    if !q.mgd then Tab.get 0 q.cells (256 * k + n)
    else if q.kext ≤ 256 * b + k then z
    else if q.hotset.contains (256 * b + k) then Tab.get 0 q.cells (256 * (256 * b + k) + n)
    else if live.contains (256 * b + k) then Tab.get 0 cold (256 * (256 * b + k) + n)
    else z
  { acts := (upto 256).map fun k => a.elts.getD (256 * i + k) z
    weights := (upto 256).map w
    nan := Tab.get false q.nans (256 * b + n)
    sa := a.scales.getD i 0x3F800000
    sb := (Tab.get 0x3F800000 q.scales (256 * b + n)).toNat }

/-- The blocks that one activation row meets in column `n`: one to a plane, or one to each 256 rows of a managed matrix. -/
def gangBlocks (qs : List Plane) (nb : Nat) (a : ActRow) (n : Nat) (cold : Tab Nat) (live : List Nat) : List BlockIn :=
  match qs with
  | [q] => if q.mgd then (upto nb).map fun b => q.block a b b n cold live else [q.block a 0 0 n cold live]
  | qs => qs.zipIdx.map fun q => q.1.block a q.2 0 n cold live

/-- A tile after the rows of its chunk: cells and SAT (R159). -/
def gangTile (qs : List Plane) (nb idx : Nat) (cells : BitVec 8192) (acts : List ActRow) (cold : Tab Nat) (live : List Nat) :
    BitVec 8192 × Bool :=
  let sr := (qs.head?.map fun q => q.sr.toNat).getD 0
  let fmt := (qs.head?.map fun q => q.fmt.toNat).getD 0
  let old := unpack 32 256 cells.toNat
  let new := (upto 256).map fun i =>
    match acts.find? fun a => decide (a.r = i / 16) with
    | some a => cellSteps sr fmt (old.getD i 0) (gangBlocks qs nb a (16 * idx + i % 16) cold live)
    | none => (old.getD i 0, false)
  (BitVec.ofNat 8192 (pack 32 (new.map (·.1))), new.any (·.2))

/-- A set of environments bounded as a start step bounds it: Bound acts as under DROP (R341). -/
def Lab.bounded (l : Lab) : Lab := if l.envs.length ≤ 15 then l else { envs := dropped l.envs, inc := true }

/-- The label of a tile of an operation, not yet interned: for each plane in turn the Product of its own, L_act, the plane's in its frame,
and DEP (R159). L_act stands for its operands (log 40). -/
def State.tileLab (s : State) (die : Nat) (f : BitVec 8) (old dep : Handle) (act : List Handle) (qs : List Plane) : Lab :=
  qs.foldl (fun l q => (s.reduce die f (unionAll [l, s.rawProduct die f (dep :: act), s.labOf die q.frame q.lbl])).bounded)
    (s.rawProduct die f [old])

/-- The trap of a start step that reads a poisoned label record of the operands' labels or of a plane's (R353). -/
def State.badLabel (s : State) (die : Nat) (f : BitVec 8) (hs : List Handle) (qs : List Plane) : Option Trap :=
  ((s.badRecordOf die f hs).orElse fun _ => qs.findSome? fun q => s.badRecordOf die q.frame [q.lbl]).map fun a =>
    { cause := 0x34, val := word a }

/-- The stacks that hold some of the named rows of a managed plane: every slice's columns count (R163, R359). They are those of the physical
addresses at the registration, whatever a translation has become since (DESIGN CHOICE, log 91: R163 does not say which stack a cold row is
sent to then). -/
def Plane.stacksOf (q : Plane) (ks : List Nat) : List Nat :=
  (q.maps.flatMap fun c => ks.flatMap fun k => (c.rows.getD k []).map fun p => p.1 / (48 * 2 ^ 30)).eraseDups

/-- The start step of `gang.mma` (R159-R164, R168). -/
def State.startMma (s : State) (g : Nat) (as : List Arrival) (rows p np n : Nat) : State :=
  let qs := (upto np).map fun i => s.planeAt g (p + i)
  let q0 := s.planeAt g p
  let fmt := q0.fmt.toNat
  let k := if q0.mgd then q0.kext else 256 * np
  let nb := (k + 255) / 256
  let nm := (rows + 15) / 16
  let sup := as.filter fun a => decide (a.idx < rows)
  let frame := (as.head?.map (·.frame)).getD 0
  let die := (as.head?.map fun a => dieOf a.core).getD 0
  let (acts, f1, x1) := ({ st := s } : GReads).acts sup rows k nb
  let lives := (upto nm).map fun m => if q0.mgd then liveRows fmt m k acts else []
  let need := (upto k).filter fun i => q0.mgd && !q0.hotset.contains i && lives.any fun l => l.contains i
  let (cold, f2, x2) := if need = [] then ([], [], x1) else ({ x1 with lbls := [] } : GReads).colds q0.maps need
  if f1 ++ f2 ≠ [] then s.gangRefuse g as (f1 ++ f2)
  else
    let s1 := x2.st.refocus s.core.num s.actStream
    let coldT := cellsOf need cold []
    let lact := x1.lbls ++ sup.flatMap fun a => [a.map.lbl, a.dep]
    let tileOf := fun (a : Arrival) (m : Nat) => (((s1.coreAt a.core).taskOf a.uid).getD {}).regs.acc.getD (n + m) {}
    let used := lact ++ as.flatMap fun a => a.dep :: (upto nm).map fun m => (tileOf a m).lbl
    match s1.badLabel die frame used qs with
    | some t => s.gangFail g fun _ => t
    | none =>
    let thr := fun (r : Nat) => ((sup.find? fun a => decide (a.idx = r)).map fun a => a.map.thresh).getD 0
    let fires := if q0.mgd then (upto nm).flatMap fun m => (upto k).filter fun i =>
        acts.any fun a => decide (a.m = m) && eltFires fmt (thr a.r) (a.elts.getD i (zOf fmt)) else []
    let tiles : List TileWrite := as.flatMap fun a => (upto nm).map fun m =>
      let old := tileOf a m
      let c := gangTile qs nb a.idx old.cells (acts.filter fun r => decide (r.m = m)) coldT (lives.getD m [])
      let l := s1.tileLab die frame old.lbl a.dep lact qs
      ⟨a.core, a.uid, n + m, c.1, l.envs, l.inc, c.2⟩
    let busy := fun (s : State) (w : TileWrite) => s.modParty ⟨w.core, w.uid, 0⟩ fun t => { t with regs := { t.regs with
      acc := t.regs.acc.setIfInBounds w.tile { t.regs.acc.getD w.tile {} with busy := true } } }
    let fl : Flight := {
      plane := p, tiles := tiles, fires := fires, frame := frame
      meters := qs.flatMap fun q => q.rowPa.map fun a => (a, rows)
      polders := q0.stacksOf need }
    let s1 := qs.foldl (fun s q => s.readRecords die q.frame [q.lbl]) (s1.readRecords die frame used)
    ((tiles.foldl busy s1).modGroup g fun x => { x with flight := some fl }).gangGo g as

/-- GANG_START: the checks after the sixteenth arrival and the start step (R161, R372). It waits while an operation is in flight or
a migration instant is to come. -/
def State.gangStart (s : State) (g : Nat) : State :=
  let k := s.groupAt g
  let as := sortBy (fun a b : Arrival => decide (a.idx ≤ b.idx)) k.arrivals
  if as.length < 16 || k.flight.isSome || decide (k.due ≠ []) then s
  else match s.gangStage2 g as with
  | some t => s.gangFail g t
  | none => match as.head?.map Arrival.op with
    | some (.wld sr p) => s.startLoad g as sr.toNat p.toNat none
    | some (.mma mr np p n) => s.startMma g as (mr.toNat + 1) p.toNat (np.toNat + 1) n.toNat
    | some (.reg w) =>
      let f := (as.head?.map fun a => a.map.fmt).getD 0
      s.startLoad g as (srOf f) (bits w 8 3) (some (bits w 0 8 + 1, bits w 16 16))
    | some (.mig p) => (s.gangGo g as).modGroup g fun k => { k with due := [p.toNat] }
    | none => s

def execGangStart (g : Nat) (s : State) : Host.Outcome State Fault Refusal := .next (s.gangStart g)

/-! ### Completion (R161, R165, R168, R320, R322, R341, R359) -/

/-- One tile is written: its label Cleaned and interned; a full table leaves it invalid, and so does a failed operation; its values
are then open (R161, R341, R359; log 4). -/
def State.writeTile (s : State) (f : BitVec 8) (fail : Bool) (w : TileWrite) : State :=
  let die := dieOf w.core
  let put := fun (s : State) (h : AccReg → AccReg) => s.modParty ⟨w.core, w.uid, 0⟩ fun t =>
    let a := { t.regs.acc.getD w.tile {} with busy := false }
    { t with wide := true, regs := { t.regs with acc := t.regs.acc.setIfInBounds w.tile (h a) } }
  let lost := fun (s : State) => { (put s fun a => { a with cells := Config.freeTile s.free, inv := true }) with free := s.free + 1 }

  if fail then lost s
  else match s.intern die f (s.reduce die f { envs := w.envs, inc := w.inc }) with
    | .error _ => lost s
    | .ok (h, s1) =>
      let s2 := if w.inc then s1.setFrame die f { s1.frameAt die f with inc := true } else s1
      put s2 fun a => { a with cells := w.cells, lbl := h, sat := a.sat || w.sat }

/-- The row-activations that a completion adds to region `r` (R168). -/
def State.activations (s : State) (fl : Flight) (r : Nat) : Nat :=
  (fl.meters.filter fun p => decide (s.regionOf p.1 = some r)).foldl (fun n p => n + p.2) 0

/-- The completion would take a meter more than 2^20 above its stored value (R322). -/
def State.meterHeld (s : State) (fl : Flight) : Bool :=
  s.sec.regions.any fun p => p.2.live && decide (s.activations fl p.1 ≠ 0)
    && decide ((Tab.get {} s.sec.bank.regions p.1).count + 2 ^ 20 < p.2.count + s.activations fl p.1)

/-- The meters after a completion (R320). -/
def State.addMeters (s : State) (fl : Flight) : State :=
  { s with sec := { s.sec with regions := s.sec.regions.map fun p =>
      if p.2.live then (p.1, { p.2 with count := min (p.2.count + s.activations fl p.1) (2 ^ 64 - 1) }) else p } }

/-- The firing counters and the operation count of a managed plane after a completion (R163, R165). -/
def State.addFires (s : State) (g : Nat) (fl : Flight) : State :=
  let q := s.planeAt g fl.plane
  if !q.mgd then s
  else
    let c := fl.fires.foldl (fun t k => Tab.put 0 t k (min (Tab.get 0 t k + 1) 0xFFFF)) q.counters
    let due := decide (q.auto.toNat ≠ 0 ∧ q.auto.toNat ≤ q.ops + 1)
    let s := s.putPlane g fl.plane { q with counters := c, ops := q.ops + 1 }
    if due then s.modGroup g fun k => { k with due := k.due ++ [fl.plane] } else s

/-- The completion step of the operation in flight; `fail` is the failure of R359. It is one step for all native operations of a
`gang.mma`, and all their row-activations count there (DEDUCED, log 76: R161 and R165 give an operation one completion step, R168 counts
at a native operation's). -/
def State.gangFinish (s : State) (g : Nat) (fail : Bool) : State :=
  match (s.groupAt g).flight with
  | none => s
  | some fl =>
    let s1 := (fl.tiles.foldl (fun s w => s.writeTile fl.frame fail w) s).modGroup g fun k => { k with flight := none }
    if fail then s1 else (s1.addMeters fl).addFires g fl

/-- The record of a failed operation (R359). -/
def State.polderRecord (s : State) (stack unit d5 : Nat) : State := s.deviceRecord (stack / 6) 0x46 (word (stack * 16 + unit)) d5 0

/-- Every polder unit of a stack is out of service (R359). -/
def State.stackOut (s : State) (stack : Nat) : Bool := (upto 16).all fun u => s.links.polderOut.contains (stack * 16 + u)

/-- GANG_COMPLETION (R161): a failure where a stack that it needs has no unit in service (R359; the record names unit 0, log 77); it waits
for a newer checkpoint where R322 says so. -/
def execGangCompletion (g : Nat) (s : State) : Host.Outcome State Fault Refusal :=
  match (s.groupAt g).flight with
  | none => .next s
  | some fl => .next (match fl.polders.find? s.stackOut with
    | some k => (s.gangFinish g true).polderRecord k 0 1
    | none => if s.meterHeld fl then s else s.gangFinish g false)

/-- The cycles that the arrivals wait for the sixteenth (R154). -/
def gangBound : Nat := 1048576

/-- The bound on the arrivals of a group has passed (R154). -/
def State.gangLate (s : State) (g : Nat) : Bool :=
  let as := (s.groupAt g).arrivals
  let now := s.cycleAt (16 * g)
  decide (0 < as.length ∧ as.length < 16) && decide (((as.head?.map (·.since)).getD now) + gangBound ≤ now)

/-- GANG_ARRIVAL_BOUND (R154). -/
def execGangArrivalBound (g : Nat) (s : State) : Host.Outcome State Fault Refusal :=
  .next (if s.gangLate g then s.gangFail g fun _ => s.arrivalTrap g else s)

/-! ### Migration instants (R165) -/

/-- The rows of a managed plane by counter, descending, ties to the lower row. -/
def Plane.ranked (q : Plane) : List Nat :=
  sortBy (fun a b => decide (Tab.get 0 q.counters b < Tab.get 0 q.counters a) ||
    (decide (Tab.get 0 q.counters a = Tab.get 0 q.counters b) && decide (a ≤ b))) (upto q.kext)

/-- A row of a managed plane holds a poisoned atom. -/
def State.rowPoisoned (s : State) (q : Plane) (k : Nat) : Bool :=
  q.maps.any fun c => (c.rows.getD k []).any fun p => (atomsOf p.1 p.2).any fun t => decide (s.ecc .main t = 2)

/-- A row's elements in one core's columns, as memory holds them at the physical addresses of the registration. -/
def State.rowAt (s : State) (c : ColMap) (k : Nat) : List Nat :=
  let bs := (c.rows.getD k []).flatMap fun p => s.mainBytes p.1 p.2
  let n := (c.map.piece (c.row0 + k) (c.col0 + 16 * (c.core % 16)) 16).2.2
  unpack (fmtBits c.map.fmt) n (leNat bs) ++ List.replicate (16 - n) (zOf c.map.fmt)

/-- The plane after a migration instant. New hot rows take the cells of displaced ones pairwise, in ascending row order; a row that
cannot be read leaves its counterpart hot (R165). -/
def State.migrated (s : State) (q : Plane) : Plane :=
  let want := q.ranked.take q.hot
  let asc := sortBy (fun a b : Nat => decide (a ≤ b))
  let gone := asc (q.hotset.filter fun k => !want.contains k)
  let come := asc (want.filter fun k => !q.hotset.contains k)
  let pairs := (come.zip gone).filter fun p => !s.rowPoisoned q p.1
  let out := pairs.map (·.2)
  let new := pairs.map (·.1)
  let kept := q.cells.filter fun e => !out.contains (e.1 / 256)
  { q with
    cells := cellsOf new (q.maps.map fun c => (c.core % 16, new.map (s.rowAt c))) kept
    hotset := asc ((q.hotset.filter fun k => !out.contains k) ++ new)
    counters := q.counters.foldl (fun t e => Tab.put 0 t e.1 (e.2 / 2)) [], ops := 0 }

/-- The atoms of the rows that a migration instant has read; those with one bit in error are corrected (R352). -/
def State.correctRows (s : State) (q : Plane) (ks : List Nat) : State :=
  (q.maps.flatMap fun c => ks.flatMap fun k => (c.rows.getD k []).flatMap fun p => atomsOf p.1 p.2).foldl
    (fun s t => if s.mends .main t then s.correct .main t else s) s

/-- MIGRATION_INSTANT (R165). -/
def execMigrationInstant (g p : Nat) (s : State) : Host.Outcome State Fault Refusal :=
  .next (if (s.groupAt g).due.contains p then
    let s := s.modGroup g fun k => { k with due := k.due.erase p }
    let q := s.planeAt g p
    let q' := s.migrated q
    if q.mgd then (s.putPlane g p q').correctRows q (q'.hotset.filter fun k => !q.hotset.contains k) else s
  else s)

/-! ### Polder units (R359) -/

/-- The next unit of a stack in service after unit `u`, in ascending order modulo 16. -/
def nextUnit (out : List Nat) (stack u : Nat) : Option Nat :=
  ((upto 15).map fun i => (u + 1 + i) % 16).find? fun v => !out.contains (stack * 16 + v)

/-- POLDER_FAILURE: unit `u` of a stack fails while an operation is in flight that sends it rows; `again` tells that the resend fails
too (R359). -/
def execPolderFailure (g stack u : Nat) (again : Bool) (s : State) : Host.Outcome State Fault Refusal :=
  .next (match (s.groupAt g).flight with
  | none => s
  | some fl =>
    if !fl.polders.contains stack || 16 ≤ u || s.links.polderOut.contains (stack * 16 + u) then s
    else
      let mark := fun (s : State) (v : Nat) => { s with links := { s.links with polderOut := (stack * 16 + v) :: s.links.polderOut } }
      let s := mark s u
      let rcd := fun (s : State) (d5 : Nat) => s.polderRecord stack u d5
      match nextUnit s.links.polderOut stack u with
      | none => rcd (s.gangFinish g true) 1
      | some v => if again then rcd ((mark s v).gangFinish g true) 1 else rcd s 0)

end Sys2Proof.Machine
end

