-- ==== Sys2Proof/Machine/Home.lean ====
section
/-!
DEFINITION. Events of the memory system: drain and perform, coherence traffic, self-refresh, TLB misses, pages of other packages and
links (R105, R106, R115, R117, R119, R126, R303, R355, R360).
-/

namespace Sys2Proof.Machine

/-- DRAIN: entry `i` of a core's store buffer (R126). -/
def execDrain (c i : Nat) (s : State) : Host.Outcome State Fault Refusal := .next (s.drain c i)

/-- PERFORM: element `i` of the inbound queues (R126). -/
def execPerform (i : Nat) (s : State) : Host.Outcome State Fault Refusal := .next (s.perform i)

/-! ### Coherence (R105, R106) -/

/-- An acknowledgement reaches the home; the last one grants, and for a party that is no agent leaves the line uncached (R105, R384). -/
def Coherence.acknowledge (c : Coherence) (line agent : Nat) : Coherence :=
  match c.grants.find? fun g => decide (g.line = line) && g.waiting.contains agent with
  | none => c
  | some g =>
    let left := g.waiting.erase agent
    if left = [] then
      let c := { c with grants := c.grants.erase g }
      if g.agent = noAgent then { c with dir := Tab.put {} c.dir line {} } else c.grant line g.agent
    else { c with grants := c.grants.map fun x => if x = g then { g with waiting := left } else x }

def execInvalidationAcknowledgement (line agent : Nat) (s : State) : Host.Outcome State Fault Refusal :=
  .next { s with coh := s.coh.acknowledge line agent }

/-- The home awaits an agent's acknowledgement for a line. -/
def Coherence.awaits (c : Coherence) (line agent : Nat) : Bool :=
  c.grants.any fun g => decide (g.line = line) && g.waiting.contains agent

/-- The home removes an agent's pointer (R106); the pointers after it move down a slot (DESIGN CHOICE, log 90: R106 does not say which slots the
others occupy then). -/
def Coherence.removeAgent (c : Coherence) (line agent : Nat) : Coherence :=
  let e := Tab.get {} c.dir line
  if e.coarse || c.awaits line agent || !e.ptrs.contains agent then c
  else { c with dir := Tab.put {} c.dir line ({ e with ptrs := e.ptrs.erase agent } : DirEntry).norm }

def execEvictionNotice (line agent : Nat) (s : State) : Host.Outcome State Fault Refusal :=
  .next (if s.coh.notices.contains (line, agent) then
    { s with coh := { s.coh with notices := s.coh.notices.erase (line, agent) }.removeAgent line agent } else s)

def execWriteBack (line agent : Nat) (s : State) : Host.Outcome State Fault Refusal :=
  .next (if s.coh.writeBacks.contains (line, agent) then
    let s := { s with coh := { s.coh with writeBacks := s.coh.writeBacks.erase (line, agent) }.removeAgent line agent }
    s.sliceTouch (line * 128) true else s)

/-- SELF_REFRESH: a pseudo-channel of the stacks idle for 16,384 base-die cycles sleeps (R115). -/
def execSelfRefresh (pch : Nat) (s : State) : Host.Outcome State Fault Refusal :=
  .next (if s.links.asleep.contains pch || decide (s.clocks.base < Tab.get 0 s.links.used pch + 16384) then s else { s with links := { s.links with asleep := pch :: s.links.asleep } })

/-! ### TLB misses (R117, R118, R355) -/

/-- The party of a stream of core `c`'s running task, its wait, if nothing has answered it yet. -/
def State.waiter (s : State) (c st : Nat) : Option (Party × WaitKind × Nat) :=
  let k := s.coreAt c
  let x := if st = 0 then k.task.ex else k.task.ac
  match x.wait, x.reply with
  | some w, none => if k.running && decide (st ≤ 1) then some (⟨c, k.task.info.uid, st⟩, w.kind, w.since) else none
  | _, _ => none

/-- A stream's wait is over without an answer: it tries again. -/
def State.retry (s : State) (w : Party) : State := s.modParty w fun t => t.modStrm w.stream fun x => { x with wait := none }

/-- The party of a stream of core `c`'s running task that waits for a translation, with the address and the kind of its access. An answer
it has had before, for an access that another package serves, stays. -/
def State.missed (s : State) (c st : Nat) : Option (Party × Nat × Nat) :=
  let k := s.coreAt c
  match (if st = 0 then k.task.ex else k.task.ac).wait with
  | some ⟨.tlb va kind, _⟩ => if k.running && decide (st ≤ 1) then some (⟨c, k.task.info.uid, st⟩, va, kind) else none
  | _ => none

/-- TLB_MISS: the translation service core walks the table; it writes entry `entry` of the tile, or the access has a page fault
(R117, R355). A completion word (kind 3) has no fault of its own: its record is then ill-formed (R45); nor has a page of an engine
command's ranges (kind 4): its command then faults (R356). -/
def State.serveMiss (s : State) (c st : Nat) (entry : BitVec 8) : State :=
  match s.missed c st with
  | some (w, va, kind) =>
    let s := s.walked (s.tableOf c) va
    match s.walk (s.tableOf c) va with
    | .error l =>
      if kind = 3 then s.answer w .done
      else if kind = 4 then
        (s.modParty w fun t => t.modStrm w.stream fun x => { x with refs := x.refs ++ [(va / 65536, none)] }).retry w
      else s.answerTrap w { cause := 0x33, val := word va, d5 := word l, d6 := word kind }
    | .ok d =>
      let tag := word (va / 65536 * 65536 + 1) &&& tagMask
      { s with tlb := Tab.put (0, 0) s.tlb (tileOf c * 256 + entry.toNat) (tag, d &&& dataMask) }.retry w
  | none => s

def execTlbMiss (c st : Nat) (entry : BitVec 8) (s : State) : Host.Outcome State Fault Refusal := .next (s.serveMiss c st entry)

/-! ### Pages of other packages (R119, R355) -/

/-- A wait for another package becomes one for the remotely served access. -/
def State.serveFar (s : State) (w : Party) (va home : Nat) : State :=
  s.modParty w fun t => t.modStrm w.stream fun x => { x with wait := some ⟨.remote va home, s.cycleAt w.core⟩ }

/-- TASK_MIGRATION: the home package has accepted; the context leaves, and the run-queue slot stays occupied (R119). -/
def State.migrateTask (s : State) (c : Nat) : State :=
  match s.waiter c 0 with
  | some (_, .migrate _ home, _) => s.modCore c fun k =>
      let t := { k.task with info := { k.task.info with status := .blocked, home := some (word home) } }
      { k with running := false, task := {}, slots := Tab.put {} k.slots t.info.slot t }
  | _ => s

def execTaskMigration (c : Nat) (s : State) : Host.Outcome State Fault Refusal := .next (s.migrateTask c)

/-- MIGRATION_TIMEOUT: no answer within 2^20 cycles; the access is served remotely (R355). -/
def execMigrationTimeout (c st : Nat) (s : State) : Host.Outcome State Fault Refusal :=
  .next (match s.waiter c st with
  | some (w, .migrate va home, since) => if since + 2 ^ 20 ≤ s.cycleAt c then s.serveFar w va home else s
  | _ => s)

/-- The remote-access trap (R355). -/
def remoteTrap (va home reason : Nat) : Trap := { cause := 0x35, val := word va, d5 := word home, d6 := word reason }

/-- REMOTE_ACCESS_TIMEOUT: no answer within 2^24 cycles (R355). -/
def execRemoteAccessTimeout (c st : Nat) (s : State) : Host.Outcome State Fault Refusal :=
  .next (match s.waiter c st with
  | some (w, .remote va home, since) => if since + 2 ^ 24 ≤ s.cycleAt c then s.answerTrap w (remoteTrap va home 0) else s
  | _ => s)

/-- REMOTE_ACCESS_REPLY: the bytes of a load, or for a store any list; a refusal traps, and a refused migration becomes a remotely
served access (R119, R355). -/
def State.farReply (s : State) (c st : Nat) (a : Option (List Byte)) : State :=
  match s.waiter c st, a with
  | some (w, .remote _ _, _), some bs => s.answer w (.bytes bs)
  | some (w, .remote va home, _), none => s.answerTrap w (remoteTrap va home 1)
  | some (w, .migrate va home, _), none => s.serveFar w va home
  | _, _ => s

def execRemoteAccessReply (c st : Nat) (a : Option (List Byte)) (s : State) : Host.Outcome State Fault Refusal :=
  .next (s.farReply c st a)

/-- The home package reports the end of a task that has migrated from a slot: the slot is freed and the end counts here (R47, R119), once
every store the task had issued here has performed (R134). -/
def State.farEnd (s : State) (c slot : Nat) : State :=
  match (s.coreAt c).slots.find? fun p => decide (p.1 = slot) && p.2.info.home.isSome with
  | some p => if s.storesLeft c p.2.info.uid then s else s.endTask c p.2.info.uid
  | none => s

/-- A handle that arrives with a context of frame 0: ALWAYS, or NEVER. -/
def farHandle (w : Word) : Handle := if w = 0 then always else never

/-- The task of a context that another package has shipped. Its dwords are taken in this order: PC, x1-x31, their labels, CTX, DEP,
PRIO, SUPP, LB0, LE0, LC0, LB1, LE1, LC1 (R119). -/
def taskOfContext (w : List Word) : Task :=
  let g := fun i => w.getD i 0
  let off := fun i => BitVec.ofNat 16 (bits (g i) 1 15 * 2)
  { info := { begun := true }, frame := 0, ctx := g 63, supp := bit (g 66) 0, prio := BitVec.ofNat 4 (bits (g 65) 0 4)
    regs := { x := Vector.ofFn fun (i : Fin 32) => if i.val = 0 then {} else ⟨g i.val, farHandle (g (31 + i.val))⟩ }
    loops := { lb0 := off 67, le0 := off 68, lc0 := g 69, lb1 := off 70, le1 := off 71, lc1 := g 72 }
    ex := { active := true, pc := bits (g 0) 1 15 * 2, dep := farHandle (g 64) } }

/-- MIGRATED_TASK_ARRIVAL (R119): the task continues on a core with a free slot, privileged on a service core (R207). -/
def execMigratedTaskArrival (c : Nat) (w : List Word) (s : State) : Host.Outcome State Fault Refusal :=
  .next (match (s.coreAt c).freeSlot with
  | some slot => s.addTask c slot { taskOfContext w with priv := decide (0x1000 ≤ c) }
  | none => s)

/-! ### Links (R303, R360) -/

/-- LINK_RETRAINING and FLIT_REPLAY change latency only (R303, R360). -/
def execLinkRetraining (_l : Nat) (s : State) : Host.Outcome State Fault Refusal := .next s

def execFlitReplay (_l : Nat) (s : State) : Host.Outcome State Fault Refusal := .next s

/-- What crosses a failed die-to-die link for one sluice request is lost: the reply's trap, or a reduction's record (R360). -/
def State.loseRequest (s : State) (k : Nat) (q : SluiceReq) : State :=
  let a := swordAddr k q.off
  if q.reduce then
    s.record { source := 0, core := q.who.core, die := q.die, frame := q.frame, launch := s.launchOf q.who.core q.who.uid } { cause := 0x47, val := 0, d5 := a }
  else ({ s with free := s.free + 1 }).answerTrap q.who { cause := 0x34, val := Config.freeWord s.free, d5 := 0x47 }

/-- The requests of the other die in one engine's queue are lost. -/
def State.loseRequests (s : State) (k : Nat) : State :=
  let far := (s.dieAt k).sluiceq.filter fun q => decide (q.die ≠ k)
  far.foldl (fun s q => s.loseRequest k q) (s.modDie k fun d => { d with sluiceq := d.sluiceq.filter fun q => decide (q.die = k) })

/-- LINK_FAILURE: the link is down until reset; each die's frame 0 gets a record (R360). -/
def State.failLink (s : State) (l : Nat) : State :=
  if s.links.down.contains l || decide (12 < l) then s
  else
    let s := { s with links := { s.links with down := l :: s.links.down } }
    let s := (s.deviceRecord 0 0x47 (word l) 0 0).deviceRecord 1 0x47 (word l) 0 0
    if l = 0 then (s.loseRequests 0).loseRequests 1 else s

def execLinkFailure (l : Nat) (s : State) : Host.Outcome State Fault Refusal := .next (s.failLink l)

end Sys2Proof.Machine
end

