-- ==== Sys2Proof/Machine/Repeat.lean ====
section
/-!
DEFINITION. Major 0x1B: the repetition buffer (R176, R281, R348).
-/

namespace Sys2Proof.Machine

/-- A vector register field on a pass: `n` is pass × s (R176). -/
def vreg16 (n : Nat) (v : BitVec 5) : BitVec 5 := BitVec.ofNat 5 ((v.toNat + n) % 16)

/-- An accumulator field on a pass (R176). -/
def acc4 (n : Nat) (q : BitVec 2) : BitVec 2 := BitVec.ofNat 2 (q.toNat + n)

/-- The effect of a captured instruction on a pass: `n` is pass × s, `off` is pass × x[rt]; nothing for an instruction outside
majors 0x16 to 0x1A and 0x1E (R176). -/
def captured (n : Nat) (off : Word) : Instr → Option Body
  | .vld d r e k => some (vecLoad .unit (vreg16 n d) r e k off)
  | .vst r t e k => some (vecStore .unit (vreg16 n t) r e k off)
  | .vlds d r t e k => some (vecLoad (.stride t) (vreg16 n d) r e k off)
  | .vsts d r t e k => some (vecStore (.stride t) (vreg16 n d) r e k off)
  | .vgth d r t e k => some (vecLoad (.index (vreg16 n t)) (vreg16 n d) r e k off)
  | .vsct d r t e k => some (vecStore (.index (vreg16 n t)) (vreg16 n d) r e k off)
  | .vbc d r e k => some (vecLoad .splat (vreg16 n d) r e k off)
  | .vadd d r t e k => some (vecBin laneAdd (eltBits e) (vreg16 n d) (vreg16 n r) (vreg16 n t) k)
  | .vsub d r t e k => some (vecBin laneSub (eltBits e) (vreg16 n d) (vreg16 n r) (vreg16 n t) k)
  | .vmul d r t e k => some (vecBin laneMul (eltBits e) (vreg16 n d) (vreg16 n r) (vreg16 n t) k)
  | .vmulh d r t e k => some (vecBin laneMulh (eltBits e) (vreg16 n d) (vreg16 n r) (vreg16 n t) k)
  | .vmin d r t e k => some (vecBin laneMin (eltBits e) (vreg16 n d) (vreg16 n r) (vreg16 n t) k)
  | .vmax d r t e k => some (vecBin laneMax (eltBits e) (vreg16 n d) (vreg16 n r) (vreg16 n t) k)
  | .vminu d r t e k => some (vecBin laneMinu (eltBits e) (vreg16 n d) (vreg16 n r) (vreg16 n t) k)
  | .vmaxu d r t e k => some (vecBin laneMaxu (eltBits e) (vreg16 n d) (vreg16 n r) (vreg16 n t) k)
  | .vadds d r t e k => some (vecBin laneAdds (eltBits e) (vreg16 n d) (vreg16 n r) (vreg16 n t) k)
  | .vaddus d r t e k => some (vecBin laneAddus (eltBits e) (vreg16 n d) (vreg16 n r) (vreg16 n t) k)
  | .vsubs d r t e k => some (vecBin laneSubs (eltBits e) (vreg16 n d) (vreg16 n r) (vreg16 n t) k)
  | .vsubus d r t e k => some (vecBin laneSubus (eltBits e) (vreg16 n d) (vreg16 n r) (vreg16 n t) k)
  | .vand d r t e k => some (vecBin laneAnd (eltBits e) (vreg16 n d) (vreg16 n r) (vreg16 n t) k)
  | .vor d r t e k => some (vecBin laneOr (eltBits e) (vreg16 n d) (vreg16 n r) (vreg16 n t) k)
  | .vxor d r t e k => some (vecBin laneXor (eltBits e) (vreg16 n d) (vreg16 n r) (vreg16 n t) k)
  | .vandn d r t e k => some (vecBin laneAndn (eltBits e) (vreg16 n d) (vreg16 n r) (vreg16 n t) k)
  | .vsll d r t e k => some (vecBin laneSll (eltBits e) (vreg16 n d) (vreg16 n r) (vreg16 n t) k)
  | .vsrl d r t e k => some (vecBin laneSrl (eltBits e) (vreg16 n d) (vreg16 n r) (vreg16 n t) k)
  | .vsra d r t e k => some (vecBin laneSra (eltBits e) (vreg16 n d) (vreg16 n r) (vreg16 n t) k)
  | .vcmpEq c r t e k => some (vecCmp (cmpEq (eltBits e)) (eltBits e) c (vreg16 n r) (vreg16 n t) k)
  | .vcmpNe c r t e k => some (vecCmp (cmpNe (eltBits e)) (eltBits e) c (vreg16 n r) (vreg16 n t) k)
  | .vcmpLt c r t e k => some (vecCmp (cmpLt (eltBits e)) (eltBits e) c (vreg16 n r) (vreg16 n t) k)
  | .vcmpGe c r t e k => some (vecCmp (cmpGe (eltBits e)) (eltBits e) c (vreg16 n r) (vreg16 n t) k)
  | .vcmpLtu c r t e k => some (vecCmp (cmpLtu (eltBits e)) (eltBits e) c (vreg16 n r) (vreg16 n t) k)
  | .vcmpGeu c r t e k => some (vecCmp (cmpGeu (eltBits e)) (eltBits e) c (vreg16 n r) (vreg16 n t) k)
  | .vsplat d r e k => some (vecSplat (vreg16 n d) r e k)
  | .vext d r t e => some (vecExtract d (vreg16 n r) t e)
  | .vins d r t e => some (vecInsert (vreg16 n d) r t e)
  | .vmv d r e k => some (vecUn (fun a => a) (eltBits e) (vreg16 n d) (vreg16 n r) k)
  | .vfadd d r t e k => some (vecBin (fun _ => (ftFmt e).add) (ftFmt e).width (vreg16 n d) (vreg16 n r) (vreg16 n t) k)
  | .vfsub d r t e k => some (vecBin (fun _ => (ftFmt e).sub) (ftFmt e).width (vreg16 n d) (vreg16 n r) (vreg16 n t) k)
  | .vfmul d r t e k => some (vecBin (fun _ => (ftFmt e).mul) (ftFmt e).width (vreg16 n d) (vreg16 n r) (vreg16 n t) k)
  | .vfdiv d r t e k => some (vecBin (fun _ => (ftFmt e).div) (ftFmt e).width (vreg16 n d) (vreg16 n r) (vreg16 n t) k)
  | .vfmin d r t e k => some (vecBin (fun _ => (ftFmt e).min) (ftFmt e).width (vreg16 n d) (vreg16 n r) (vreg16 n t) k)
  | .vfmax d r t e k => some (vecBin (fun _ => (ftFmt e).max) (ftFmt e).width (vreg16 n d) (vreg16 n r) (vreg16 n t) k)
  | .vfsqrt d r e k => some (vecUn (ftFmt e).sqrt (ftFmt e).width (vreg16 n d) (vreg16 n r) k)
  | .vfma d r t e k => some (vecFma (ftFmt e).fma (ftFmt e).width (vreg16 n d) (vreg16 n r) (vreg16 n t) k)
  | .vfnms d r t e k => some (vecFma (ftFmt e).fnms (ftFmt e).width (vreg16 n d) (vreg16 n r) (vreg16 n t) k)
  | .vfcmpEq c r t e k => some (vecCmp (ftFmt e).eq (ftFmt e).width c (vreg16 n r) (vreg16 n t) k)
  | .vfcmpLt c r t e k => some (vecCmp (ftFmt e).lt (ftFmt e).width c (vreg16 n r) (vreg16 n t) k)
  | .vfcmpLe c r t e k => some (vecCmp (ftFmt e).le (ftFmt e).width c (vreg16 n r) (vreg16 n t) k)
  | .vcvtF32F16 d r p k => some (vecCvt 16 32 (fp16.cvt fp32) (vreg16 n d) (vreg16 n r) p k)
  | .vcvtF32Bf16 d r p k => some (vecCvt 16 32 (bf16.cvt fp32) (vreg16 n d) (vreg16 n r) p k)
  | .vcvtF32E4m3 d r p k => some (vecCvt 8 32 (e4m3.cvt fp32) (vreg16 n d) (vreg16 n r) p k)
  | .vcvtF32E5m2 d r p k => some (vecCvt 8 32 (e5m2.cvt fp32) (vreg16 n d) (vreg16 n r) p k)
  | .vcvtF16F32 d r p k => some (vecCvt 32 16 (fp32.cvt fp16) (vreg16 n d) (vreg16 n r) p k)
  | .vcvtBf16F32 d r p k => some (vecCvt 32 16 (fp32.cvt bf16) (vreg16 n d) (vreg16 n r) p k)
  | .vcvtE4m3F32 d r p k => some (vecCvt 32 8 (fp32.cvt e4m3) (vreg16 n d) (vreg16 n r) p k)
  | .vcvtE5m2F32 d r p k => some (vecCvt 32 8 (fp32.cvt e5m2) (vreg16 n d) (vreg16 n r) p k)
  | .vcvtI32F32 d r p k => some (vecCvt 32 32 (f32ToInt 32 0 true false) (vreg16 n d) (vreg16 n r) p k)
  | .vcvtI32F32Rtz d r p k => some (vecCvt 32 32 (f32ToInt 32 0 true true) (vreg16 n d) (vreg16 n r) p k)
  | .vcvtF32I32 d r p k => some (vecCvt 32 32 (fun x => fp32.ofInt (sgn 32 x) 0) (vreg16 n d) (vreg16 n r) p k)
  | .vcvtUi32F32 d r p k => some (vecCvt 32 32 (f32ToInt 32 0 false false) (vreg16 n d) (vreg16 n r) p k)
  | .vcvtUi32F32Rtz d r p k => some (vecCvt 32 32 (f32ToInt 32 0 false true) (vreg16 n d) (vreg16 n r) p k)
  | .vcvtF32Ui32 d r p k => some (vecCvt 32 32 (fun x => fp32.ofInt x 0) (vreg16 n d) (vreg16 n r) p k)
  | .vcvtI8F32 d r p k => some (vecCvt 32 8 (f32ToInt 8 0 true false) (vreg16 n d) (vreg16 n r) p k)
  | .vcvtI8F32Rtz d r p k => some (vecCvt 32 8 (f32ToInt 8 0 true true) (vreg16 n d) (vreg16 n r) p k)
  | .vcvtF32I8 d r p k => some (vecCvt 8 32 (fun x => fp32.ofInt (sgn 8 x) 0) (vreg16 n d) (vreg16 n r) p k)
  | .vcvtUq8F32 d r p k => some (vecCvt 32 8 (f32ToInt 8 8 false false) (vreg16 n d) (vreg16 n r) p k)
  | .vcvtUq8F32Rtz d r p k => some (vecCvt 32 8 (f32ToInt 8 8 false true) (vreg16 n d) (vreg16 n r) p k)
  | .vcvtF32Uq8 d r p k => some (vecCvt 8 32 (fun x => fp32.ofInt x 8) (vreg16 n d) (vreg16 n r) p k)
  | .vcvtI16F32 d r p k => some (vecCvt 32 16 (f32ToInt 16 0 true false) (vreg16 n d) (vreg16 n r) p k)
  | .vcvtI16F32Rtz d r p k => some (vecCvt 32 16 (f32ToInt 16 0 true true) (vreg16 n d) (vreg16 n r) p k)
  | .vcvtF32I16 d r p k => some (vecCvt 16 32 (fun x => fp32.ofInt (sgn 16 x) 0) (vreg16 n d) (vreg16 n r) p k)
  | .vcvtI32I8 d r p k => some (vecCvt 8 32 (sextInt 8 32) (vreg16 n d) (vreg16 n r) p k)
  | .vcvtI8I32 d r p k => some (vecCvt 32 8 (satInt 32 8) (vreg16 n d) (vreg16 n r) p k)
  | .vcvtI32I16 d r p k => some (vecCvt 16 32 (sextInt 16 32) (vreg16 n d) (vreg16 n r) p k)
  | .vcvtI16I32 d r p k => some (vecCvt 32 16 (satInt 32 16) (vreg16 n d) (vreg16 n r) p k)
  | .vcvtE4m3F16 d r p k => some (vecCvt 16 8 (fp16.cvt e4m3) (vreg16 n d) (vreg16 n r) p k)
  | .vcvtF16E4m3 d r p k => some (vecCvt 8 16 (e4m3.cvt fp16) (vreg16 n d) (vreg16 n r) p k)
  | .vredsum d r e k => some (vecRed (eltBits e) (redSum (eltBits e)) d (vreg16 n r) k)
  | .vredmin d r e k => some (vecRed (eltBits e) (redMin (eltBits e)) d (vreg16 n r) k)
  | .vredmax d r e k => some (vecRed (eltBits e) (redMax (eltBits e)) d (vreg16 n r) k)
  | .vredminu d r e k => some (vecRed (eltBits e) (redMinu (eltBits e)) d (vreg16 n r) k)
  | .vredmaxu d r e k => some (vecRed (eltBits e) (redMaxu (eltBits e)) d (vreg16 n r) k)
  | .vfredsum d r k => some (vecRed 32 redFsum d (vreg16 n r) k)
  | .vfredmax d r k => some (vecRed 32 redFmax d (vreg16 n r) k)
  | .vfredmin d r k => some (vecRed 32 redFmin d (vreg16 n r) k)
  | .vperm d r t e k => some (vecPerm (vreg16 n d) (vreg16 n r) (vreg16 n t) e k)
  | .vslide d r t e k => some (vecSlide (vreg16 n d) (vreg16 n r) t e k)
  | .vcomp d r e k => some (vecComp (vreg16 n d) (vreg16 n r) e k)
  | .vrev d r e k => some (vecRev (vreg16 n d) (vreg16 n r) e k)
  | .kand c r t => some (maskBin (fun a b => a &&& b) c r t)
  | .kor c r t => some (maskBin (fun a b => a ||| b) c r t)
  | .kxor c r t => some (maskBin (fun a b => a ^^^ b) c r t)
  | .knot c r => some (maskNot c r)
  | .kfromx c r => some (maskFromX c r)
  | .ktox d r => some (maskToX (fun a => a) d r)
  | .kpop d r => some (maskToX (fun a => word (popCount 64 a.toNat)) d r)
  | .qsc t e => some (resScale (vreg16 n t) e)
  | .qstat d e => some (resStatus d e)
  | .qcar d e => some (resCarry (vreg16 n d) e)
  | .qclr e => some (resClear e)
  | .qhist t e m => some (resHist (vreg16 n t) e m)
  | .qstE4m3 d r t e m => some (shapedStore d r (vreg16 n t) e m off)
  | .accLd q r row => some (accLoads (acc4 n q) r row off)
  | .accSt q r row => some (accStores (acc4 n q) r row off)
  | .accZero q => some (accFills (acc4 n q) (fun _ => 0) fun _ => [])
  | .accFill q r => some (accFills (acc4 n q) (fun s => (s.xv r).toNat % 2 ^ 32) fun s => [s.xl r])
  | .accTov q v row => some (accToVec (acc4 n q) (vreg16 n v) row)
  | .accFromv q v row => some (accFromVec (acc4 n q) (vreg16 n v) row)
  | _ => none

/-- The instruction may stand in the repetition buffer (R176, R348). -/
def capturable (i : Instr) : Bool := (captured 0 0 i).isSome

noncomputable section

/-- The instruction at an offset of the acting core's group and its length, if it decodes; one that does not fit in the instruction store
traps like a fetch there (R194, R195; DESIGN CHOICE, log 93: neither R176 nor R281 says that a capture does). -/
def State.fetchAt (s : State) (off : Nat) : Except Stop (Option Instr × Nat) :=
  let n := s.lenAt off
  if 0x10000 < off + n then trap 0x02 (word off)
  else match decode ((upto n).map fun i => s.imemByte (groupOf s.core.num) (off + i)) with
    | .ok r => .ok (some r.1, n)
    | .error _ => .ok (none, n)

/-- The next `n` instructions from an offset upward, disallowed ones as `none`, and the offset after them (R176, R281). -/
def State.capture (s : State) : Nat → Nat → Except Stop (List (Option Instr) × Nat)
  | 0, off => .ok ([], off)
  | n + 1, off => do
    let (i, len) ← s.fetchAt off
    let (is, e) ← s.capture n (off + len)
    .ok (i.filter capturable :: is, e)

/-- `rep.open` (R176). -/
def repOpens (n : BitVec 4) : Body := fun s => do
  s.execOnly
  let (is, e) ← s.capture (n.toNat + 1) (s.pc + 4)
  .ok { st := s.modTask fun t => { t with rep := { body := is } }, ctl := .jump e }

end

/-- A change of the run under way. -/
def State.setRun (s : State) (r : Option RepRun) : State := s.modTask fun t => { t with rep := { t.rep with run := r } }

/-- What a captured instruction writes, as `writesOf` numbers it, on a pass: `n` is pass × s (R176). -/
def capturedWrites (n : Nat) (i : Instr) : List Nat :=
  ((writesOf i).getD []).map fun k => if 32 ≤ k ∧ k < 64 then 32 + (k - 32 + n) % 16 else k

/-- The early granules that captured instruction number `sub` leaves: its own are taken, and those go whose address it produces. -/
def State.passCaptured (s : State) (sub n : Nat) (i : Instr) : State :=
  if s.strm.early = [] then s
  else
    let stays := fun (e : Early) => decide (¬(e.pc = s.pc ∧ e.sub = sub)) && !(capturedWrites n i).any e.names.contains
    s.modStrm fun x => { x with early := x.early.filter stays }

/-- `fuel` captured instructions from number `r.done` on; `q` is the register step (R176, R281, R348). They are taken in one step, or one by
one where the schedule says so. A load of which some granules have performed early finds them (R129). -/
def repSteps (q : Nat) (r : RepRun) : Nat → State → Except Stop State
  | 0, s => .ok (s.setRun none)
  | fuel + 1, s =>
    let len := s.task.rep.body.length
    let pass := r.done / len
    let i := (s.task.rep.body[r.done % len]?).getD none
    match i.bind (captured (pass * q) (word pass * r.step)) with
    | none => .ok (s.setRun none)
    | some b =>
      let s := if s.strm.early = [] then s else s.setRun (some r)
      match b s with
      | .ok d =>
        let s := (d.st.passCaptured (r.done + 1) (pass * q) (i.getD .cNop)).modStrm fun x =>
          { x with wait := none, reply := none, asks := false, shared := none, under := none }
        let r := { r with done := r.done + 1 }
        if s.defer && decide (fuel ≠ 0) then .error (.wait .accesses (some (s.setRun (some r)))) else repSteps q r fuel s
      | .error (.trap t) => .error (.passed { (s.found s.die s.task.frame t) with d5 := word pass } (s.setRun none))
      | .error (.passed t s') => .error (.passed t s')
      | .error (.wait k s') => .error (.wait k (some ((s'.getD s).setRun (some r))))

/-- The repetition-buffer trap of a kind (R348). -/
def repTrap {α : Type} (kind : Nat) (d6 : Nat) : Except Stop α := trap 0x23 0 kind d6

/-- `rep.run` (R176, R281, R348). -/
def repRuns (r t : BitVec 5) (p : BitVec 4) : Body := fun s => do
  s.execOnly
  let is := s.task.rep.body
  match s.task.rep.run with
  | some k =>
    let s' ← repSteps p.toNat k (k.count * is.length - k.done) s
    .ok { st := s' }
  | none =>
    if is = [] then repTrap 0 0
    else if bits (s.xv r) 16 48 ≠ 0 then repTrap 1 (s.xv r).toNat
    else match is.idxOf? none with
      | some k => repTrap 2 k
      | none =>
        let s' ← s.fold [s.xl r, s.xl t]
        let count := bits (s.xv r) 0 16
        let s' ← repSteps p.toNat ⟨0, count, s.xv t⟩ (count * is.length) s'
        .ok { st := s' }

noncomputable section

def execRepOpen (n : BitVec 4) (s : State) := s.run (.repOpen n) (repOpens n)
def execRepRun (r t : BitVec 5) (p : BitVec 4) (s : State) := s.run (.repRun r t p) (repRuns r t p)

end

end Sys2Proof.Machine
end

