-- ==== Sys2Proof/Machine/Redispatch.lean ====
section
/-!
DEFINITION. Steps of a waiting stream that the opcode table names as events: a load's perform step, a nogood's commit, the bound of
`align` and the safe-point bound. Each takes the stream's instruction up again (R42, R73, R127, R139, R346). And the granules of later
loads that perform early (R127-R129).
-/

namespace Sys2Proof.Machine

/-! ### Steps of a stream -/

/-- The acting stream is active and its core neither halted nor without a task. -/
def State.steps (s : State) : Bool := s.core.running && !s.core.dbg.halted && s.strm.active

/-- The acting stream can step now: its last step is over, nothing has ended its core's cycle, and at a `safept` that waits for the access
stream's instruction, that stream starts no other (R17, R35, R51, R141). -/
def State.runnable (s : State) : Bool :=
  s.steps && decide (s.strm.due ≤ s.cycle) && decide ((s.core.turnAt s.cycle).stage < 3)
    && !(decide (s.actStream = 1) && s.task.ac.wait.isNone && match s.task.ex.wait with
      | some w => decide (w.kind = .boundary)
      | none => false)

/-- The streams of a core that can step, as core × 2 + stream. -/
def Core.steppers (k : Core) : List Nat :=
  if k.running && !k.dbg.halted then (if k.task.ex.active then [k.num * 2] else []) ++ (if k.task.ac.active then [k.num * 2 + 1] else [])
  else []

/-- The step of a stream of core `c` is over: its next one comes a cycle later, or as much later as the step's latency says; a `swr` ends
the core's cycle (R17, R35, R141). -/
def State.spent (s : State) (c st : Nat) (ends : Bool) : State :=
  s.modCore c fun k =>
    let now := s.cycleAt c
    let k := if ends then { k with turn := { k.turnAt now with stage := 3 } } else k
    if k.running then { k with task := k.task.modStrm st fun x => { x with due := now + 1 + x.lag, lag := 0 } } else k

/-- A change of the next state. -/
def onNext (f : State → State) : Host.Outcome State Fault Refusal → Host.Outcome State Fault Refusal
  | .next s => .next (f s)
  | .fault r => .fault r
  | .refused r => .refused r

noncomputable section

/-- The load that a fetch found; nothing for any other instruction (R127). -/
def State.performLoad (s : State) : Option (Host.Outcome State Fault Refusal) :=
  match s.fetch with
  | .instr (.ldB d r i) => some (execLdB d r i s)
  | .instr (.ldH d r i) => some (execLdH d r i s)
  | .instr (.ldW d r i) => some (execLdW d r i s)
  | .instr (.ldD d r i) => some (execLdD d r i s)
  | .instr (.ldBu d r i) => some (execLdBu d r i s)
  | .instr (.ldHu d r i) => some (execLdHu d r i s)
  | .instr (.ldWu d r i) => some (execLdWu d r i s)
  | .instr (.cLdD d r o) => some (execCLdD d r o s)
  | .instr (.cLdW d r o) => some (execCLdW d r o s)
  | .instr (.vld d r e k) => some (execVld d r e k s)
  | .instr (.vlds d r t e k) => some (execVlds d r t e k s)
  | .instr (.vgth d r t e k) => some (execVgth d r t e k s)
  | .instr (.vbc d r e k) => some (execVbc d r e k s)
  | .instr (.accLd n r row) => some (execAccLd n r row s)
  | .instr (.tmapLd m r) => some (execTmapLd m r s)
  | _ => none

/-! ### The accesses that an instruction makes -/

/-- One access of `n` bytes, aligned where `al` is set. -/
def State.oneAccess (s : State) (acc : Acc) (al : Bool) (n : Nat) (r : BitVec 5) (off : Word) : Option (Acc × List (List Loc) × List Nat) :=
  (s.checkElems acc al [(s.xv r + off, n)]).toOption.map fun l => (acc, l, [r.toNat])

/-- The accesses of a vector form. -/
def State.vecAccess (s : State) (acc : Acc) (p : Pattern) (r : BitVec 5) (e k : BitVec 2) (off : Word) (names : List Nat) :
    Option (Acc × List (List Loc) × List Nat) :=
  if p = .unit && decide ((s.xv r + off).toNat % 64 ≠ 0) then none
  else (s.checkElems acc (p != .unit) (s.elems p (s.xv r + off) (eltBits e) k)).toOption.map fun l =>
    (acc, l, r.toNat :: (64 + k.toNat) :: names)

/-- The right that a memory form needs, the pieces of its accesses with the registers as they stand, and the registers that form its addresses,
as `writesOf` numbers them; nothing for any other instruction, or where a check fails (R125, R240, R242, R248, R268, R277, R286). On a pass of
`rep.run`, `n` is pass × s and `off` pass × x[rt] (R176). -/
def State.accesses (s : State) (n : Nat) (off : Word) : Instr → Option (Acc × List (List Loc) × List Nat)
  | .ldB _ r i | .ldBu _ r i => s.oneAccess .load false 1 r (simm i)
  | .ldH _ r i | .ldHu _ r i => s.oneAccess .load false 2 r (simm i)
  | .ldW _ r i | .ldWu _ r i => s.oneAccess .load false 4 r (simm i)
  | .ldD _ r i => s.oneAccess .load false 8 r (simm i)
  | .cLdD _ r o => s.oneAccess .load false 8 (creg r) (word (8 * o.toNat))
  | .cLdW _ r o => s.oneAccess .load false 4 (creg r) (word (4 * o.toNat))
  | .tmapLd m r => if m = 0 then none else s.oneAccess .load true 32 r 0
  | .accLd _ r _ => s.oneAccess .load true 64 r off
  | .vld _ r e k => s.vecAccess .load .unit r e k off []
  | .vlds _ r t e k => s.vecAccess .load (.stride t) r e k off [t.toNat]
  | .vgth _ r t e k => s.vecAccess .load (.index (vreg16 n t)) r e k off [32 + (vreg16 n t).toNat]
  | .vbc _ r e k => s.vecAccess .load .splat r e k off []
  | .stB _ r i => s.oneAccess .store false 1 r (simm i)
  | .stH _ r i => s.oneAccess .store false 2 r (simm i)
  | .stW _ r i => s.oneAccess .store false 4 r (simm i)
  | .stD _ r i => s.oneAccess .store false 8 r (simm i)
  | .cStD _ r o => s.oneAccess .store false 8 (creg r) (word (8 * o.toNat))
  | .cStW _ r o => s.oneAccess .store false 4 (creg r) (word (4 * o.toNat))
  | .accSt _ r _ => s.oneAccess .store true 64 r off
  | .vst _ r e k => s.vecAccess .store .unit r e k off []
  | .vsts _ r t e k => s.vecAccess .store (.stride t) r e k off []
  | .vsct _ r t e k => s.vecAccess .store (.index (vreg16 n t)) r e k off []
  | .qstE4m3 _ r t e m => (s.shapedPieces r (vreg16 n t) e m off).toOption.map fun l => (.store, l, [r.toNat])
  | .stDh _ r _ => s.oneAccess .handler true 8 r 0
  | .amoAddD _ r _ | .amoAndD _ r _ | .amoOrD _ r _ | .amoXorD _ r _ | .amoMinD _ r _ | .amoMaxD _ r _ | .amoSwapD _ r _
  | .amoCasD _ r _ | .amoMinuD _ r _ | .amoMaxuD _ r _ => s.oneAccess .atomic true 8 r 0
  | .amoAddW _ r _ | .amoAndW _ r _ | .amoOrW _ r _ | .amoXorW _ r _ | .amoMinW _ r _ | .amoMaxW _ r _ | .amoSwapW _ r _
  | .amoCasW _ r _ | .amoMinuW _ r _ | .amoMaxuW _ r _ | .amoFadd _ r _ => s.oneAccess .atomic true 4 r 0
  | _ => none

/-- The pieces of a load's accesses and the registers that form its addresses. -/
def State.loadPieces (s : State) (n : Nat) (off : Word) (i : Instr) : Option (List (List Loc) × List Nat) :=
  match s.accesses n off i with
  | some (.load, ls, names) => some (ls, names)
  | _ => none

/-! ### Scratchpad banks (R97) -/

/-- The atoms of scratchpad that the acting stream's instruction accesses in its own step: a load's that no buffered store gives and that have
not performed early, an atomic's, and those of stores to other cores' scratchpads where the schedule does not only issue them (log 82). -/
def State.bankAtoms (s : State) : List Nat :=
  if s.strm.asks || s.strm.reply.isSome || s.core.atBreak s.actStream || decide (1024 ≤ s.task.spCount) then []
  else match s.fetch with
    | .instr i =>
      match s.accesses 0 0 i with
      | none => []
      | some (acc, ls, _) =>
        let ps := ls.flatten
        let now := fun (l : Loc) => decide (acc = .load) || (!s.defer && (decide (acc ≠ .store) ||
          (s.foreign l && (ps.all s.foreign || ps.any fun x => x.remote.isSome))))
        let own := fun (g : Nat × Nat) => s.waiting.any fun e => decide (e.space = .spm) && overlap e.addr e.bytes.length g.1 g.2
        ((ps.filter fun l => decide (l.space = .spm) && now l).flatMap fun l =>
          (l.granules.filter fun g => decide (acc ≠ .load) || !(own g || (s.earlyAt l g.1 g.2).isSome)).map fun g => g.1 / 32).eraseDups
    | _ => []

/-- The bank of a scratchpad atom. -/
abbrev bankAt (t : Nat) : Nat := bankOf (t * 32)

/-- The acting stream's access to a scratchpad atom loses its bank in this cycle: the bank has granted one, or another core's stream, whose step
falls in this cycle as well, comes first in the bank's order (R97). -/
def State.losesBank (s : State) (t : Nat) : Bool :=
  let rank := s.bankRank (bankAt t)
  s.bankTaken (t / 2048) (bankAt t) || (s.cores.flatMap Core.steppers).any fun n =>
    decide (n / 2 ≠ s.core.num ∧ rank (n / 2) < rank s.core.num) &&
      let r := s.focus (n / 2) (n % 2)
      r.runnable && r.strm.wait.isNone && decide (r.strm.due = r.cycle) && !r.strm.granted.contains (bankAt t)
        && r.bankAtoms.any fun a => decide (bankAt a = bankAt t)

/-- The atoms whose banks the acting stream's instruction has still to win. -/
def State.bankWants (s : State) : List Nat := s.bankAtoms.filter fun t => !s.strm.granted.contains (bankAt t)

/-- The instruction loses a bank in this cycle. -/
def State.bankLoses (s : State) : Bool := s.bankWants.any s.losesBank

/-- Core `c` wins the banks of some atoms. -/
def State.bankTake (s : State) (c : Nat) (ats : List Nat) : State := ats.foldl (fun s t => s.grantBank c (t / 2048) (bankAt t)) s

/-- The cycles that atoms of one bank take beyond the first: a bank accepts one of them a cycle (R97). -/
def bankLag (ats : List Nat) : Nat := (ats.map fun t => (ats.filter fun a => decide (bankAt a = bankAt t)).length - 1).foldl max 0

/-- A step that has lost a bank: nothing but the banks won is done, and the stream tries again in the next cycle (R97). -/
def State.bankRetry (s : State) : State :=
  let won := s.bankWants.filter fun t => !s.losesBank t
  (s.bankTake s.core.num won).modStrm fun x => { x with granted := x.granted ++ won.map bankAt, due := s.cycle + 1 }

/-- What stands after a step to `t` of the acting stream of `s`: the banks of its accesses are granted, unless it ends in a wait; the stream's
next step comes after the latency of this one (R17, R97). -/
def State.took (s : State) (ends : Bool) (t : State) : State :=
  let t := if s.bankAtoms = [] || t.strm.wait.isSome then t
    else (t.bankTake s.core.num s.bankWants).modStrm fun x => { x with lag := x.lag + bankLag s.bankAtoms }
  t.spent s.core.num s.actStream ends

/-- The acting stream takes the step `o`, unless it loses a scratchpad bank in this cycle (R17, R97). -/
def State.turnWith (s : State) (ends : Bool) (o : Host.Outcome State Fault Refusal) : Host.Outcome State Fault Refusal :=
  if s.bankLoses then .next s.bankRetry else onNext (s.took ends) o

/-- A step of a stream of core `c`, which it can take now, by an event of the table; the acting core and stream stay as they are. Nothing
happens where the stream cannot step, a breakpoint stands at its instruction (R377), or the event does not concern it. -/
def State.asStream (s : State) (c st : Nat) (f : State → Option (Host.Outcome State Fault Refusal)) : Host.Outcome State Fault Refusal :=
  let s1 := s.focus c st
  if st ≤ 1 ∧ s1.runnable ∧ s1.core.atBreak st = false then
    match f s1 with
    | some o => onNext (fun s2 => s2.focus s.core.num s.actStream) (s1.turnWith false o)
    | none => .next s
  else .next s

/-- LOAD_PERFORM (R127). -/
def execLoadPerform (c st : Nat) (s : State) : Host.Outcome State Fault Refusal := s.asStream c st State.performLoad

/-! ### Granules of later loads that perform early (R127-R129) -/

/-- A granule of an instruction: the number of its access, its piece, and its place. -/
abbrev Grain := Nat × Loc × Nat × Nat

/-- The granules of accesses, in ascending order (R128). -/
def grains (ls : List (List Loc)) : List Grain :=
  ls.zipIdx.flatMap fun p => p.1.flatMap fun l => l.granules.map fun g => (p.2, l, g.1, g.2)

/-- A granule must perform before a later one of its instruction (R128, R129). -/
def Grain.before (x y : Grain) : Bool :=
  decide (x.1 = y.1) || (decide (x.2.1.space = y.2.1.space) && overlap x.2.2.1 x.2.2.2 y.2.2.1 y.2.2.2)
    || decide (x.2.1.kind = 1) || (decide (x.2.1.kind = 0) && decide (y.2.1.kind = 0))

/-- The load at a PC, or captured instruction number `sub`, counted from 1, of the `rep.run` there, with its run under way or as its operands
stand: the pieces of its accesses and the registers that form its addresses (R129, R176). -/
def State.loadAt (s : State) (pc sub : Nat) : Option (List (List Loc) × List Nat) :=
  match s.fetchFrom pc, sub with
  | .instr i, 0 => s.loadPieces 0 0 i
  | .instr (.repRun r t q), k + 1 =>
    let body := s.task.rep.body
    let (run, names) := match (if s.actStream = 0 ∧ s.pc = pc then s.task.rep.run else none) with
      | some run => (run, [])
      | none => (⟨0, bits (s.xv r) 0 16, s.xv t⟩, [r.toNat, t.toNat, 100])
    if run.done ≤ k ∧ k < run.count * body.length then
      let pass := k / body.length
      (((body[k % body.length]?).getD none).bind (s.loadPieces (pass * q.toNat) (word pass * run.step))).map fun p => (p.1, names ++ p.2)
    else none
  | _, _ => none

/-- The acting stream has issued an atomic that has not performed: it is ordered as a load of the strong kind, too (R128, R129). -/
def State.atomicOpen (s : State) : Bool := s.mine.any fun e => decide (e.right = .atomic)

/-- Granule `no` of the load at `pc`, or of captured instruction `sub` of the `rep.run` there, performs before the instructions ahead of the
load have retired: nothing that has retired holds it, nor a granule of its own load, nor another access at its scratchpad bank; whatever may
not follow it forgets it as it performs (R97, R127-R129). Of granules of one place and size the first ones perform first. -/
def State.ahead (s : State) (pc sub no : Nat) : State :=
  match s.loadAt pc sub with
  | none => s
  | some (ls, names) =>
    let gs := grains ls
    let same := fun (g x : Grain) => decide (x.2.1.space = g.2.1.space ∧ x.2.2 = g.2.2)
    let early := fun (k : Nat) (g : Grain) => decide (((gs.take k).filter (same g)).length <
      (s.strm.early.filter fun e => decide (e.pc = pc ∧ e.sub = sub ∧ e.space = g.2.1.space ∧ e.addr = g.2.2.1
        ∧ e.bytes.length = g.2.2.2)).length)
    match gs[no]? with
    | none => s
    | some g =>
      let (_, l, a, n) := g
      if l.remote.isSome || early no g || (gs.take no).zipIdx.any (fun x => x.1.before g && !early x.2 x.1)
        || (decide (l.kind = 0) && s.atomicOpen) || (decide (l.space = .spm) && s.losesBank (a / 32)) then s
      else match s.loadGranule l a n with
        | .ok (bs, hs, s') =>
          let s' := if l.space = .spm then s'.bankTake s.core.num [a / 32] else s'
          s'.modStrm fun x => { x with early := x.early ++ [⟨pc, sub, names, l.space, a, l.kind, bs, hs, s.nogoodCount⟩] }
        | .error _ => s

/-- The same for a stream of core `c`, which is active in a core that goes on and whose cycle nothing has ended (R141, R377). -/
def State.aheadOf (s : State) (c st pc sub no : Nat) : State :=
  let s1 := s.focus c st
  if st ≤ 1 ∧ s1.steps ∧ (s1.core.turnAt s1.cycle).stage < 3 ∧ s1.core.atBreak st = false then
    (s1.ahead pc sub no).focus s.core.num s.actStream
  else s

/-! ### Other events of a waiting stream -/

/-- NOGOOD_COMMIT (R73, R139). -/
def execNogoodCommit (c st : Nat) (s : State) : Host.Outcome State Fault Refusal :=
  s.asStream c st fun s =>
    match s.fetch with
    | .instr (.lblNogood d r) => some (execLblNogood d r s)
    | _ => none

/-- ALIGN_BOUND: an `align` whose bound has elapsed goes on (R42). -/
def execAlignBound (c : Nat) (s : State) : Host.Outcome State Fault Refusal :=
  s.asStream c 0 fun s =>
    match s.fetch with
    | .instr (.align n) =>
      match s.strm.wait with
      | some w => if decide (w.kind = .align) && decide (w.since + n.toNat ≤ s.cycle) then some (execAlign n s) else none
      | none => none
    | _ => none

/-- A form marked privileged that the running task may not execute (R207, R236). -/
def State.barred (s : State) : Instr → Bool
  | .meterReg _ _ | .meterRead _ _ _ | .meterCkpt _ | .attest _ _ => !s.task.priv
  | .tlbW _ _ _ | .tlbInv _ _ => !(s.task.priv && decide (0x1000 ≤ s.core.num) && decide (s.core.num < 0x1040))
  | .swr _ n => swrPriv n && !s.task.priv
  | _ => false

/-- The instruction would end in an encoding or privilege trap, which comes before the bound (R203, log 8). -/
def State.endsEarly (s : State) : Bool :=
  match s.fetch with
  | .instr i => (s.task.info.carried.isSome && decide (((encode i).getD (32, 0)).1 = 32)) || s.barred i
  | _ => true

/-- SAFE_POINT_BOUND: the 1,025th instruction traps before it retires (R52, R346). -/
def execSafePointBound (c st : Nat) (s : State) : Host.Outcome State Fault Refusal :=
  s.asStream c st fun s =>
    if s.task.spCount < 1024 || s.endsEarly || s.strm.reply.isSome then none else some (.next (s.takeTrap s.boundTrap))

end

end Sys2Proof.Machine
end

