-- ==== Sys2Proof/Machine/Dispatch.lean ====
section
/-!
DEFINITION. One arm for each row of the opcode table: the meaning it calls. The meanings name their own instruction, which Lean does
not compile past the 245th constructor (Decode.lean), so exec is noncomputable; the kernel evaluates it.
-/

namespace Sys2Proof.Machine

open Sys2Proof in /-- The effect of an instruction or event on a state. -/ noncomputable
def exec (i : Instr) (s : State) : Host.Outcome State Fault Refusal :=
  match i with
  | .add d r t => Sys2Proof.Machine.execAdd d r t s
  | .sub d r t => Sys2Proof.Machine.execSub d r t s
  | .xor d r t => Sys2Proof.Machine.execXor d r t s
  | .andn d r t => Sys2Proof.Machine.execAndn d r t s
  | .orn d r t => Sys2Proof.Machine.execOrn d r t s
  | .xnor d r t => Sys2Proof.Machine.execXnor d r t s
  | .or d r t => Sys2Proof.Machine.execOr d r t s
  | .and d r t => Sys2Proof.Machine.execAnd d r t s
  | .shl d r t => Sys2Proof.Machine.execShl d r t s
  | .shr d r t => Sys2Proof.Machine.execShr d r t s
  | .sar d r t => Sys2Proof.Machine.execSar d r t s
  | .rotl d r t => Sys2Proof.Machine.execRotl d r t s
  | .rotr d r t => Sys2Proof.Machine.execRotr d r t s
  | .cmplt d r t => Sys2Proof.Machine.execCmplt d r t s
  | .cmpltu d r t => Sys2Proof.Machine.execCmpltu d r t s
  | .cmpeq d r t => Sys2Proof.Machine.execCmpeq d r t s
  | .min d r t => Sys2Proof.Machine.execMin d r t s
  | .max d r t => Sys2Proof.Machine.execMax d r t s
  | .minu d r t => Sys2Proof.Machine.execMinu d r t s
  | .maxu d r t => Sys2Proof.Machine.execMaxu d r t s
  | .clz d r => Sys2Proof.Machine.execClz d r s
  | .ctz d r => Sys2Proof.Machine.execCtz d r s
  | .pop d r => Sys2Proof.Machine.execPop d r s
  | .sextB d r => Sys2Proof.Machine.execSextB d r s
  | .sextH d r => Sys2Proof.Machine.execSextH d r s
  | .sextW d r => Sys2Proof.Machine.execSextW d r s
  | .zextB d r => Sys2Proof.Machine.execZextB d r s
  | .zextH d r => Sys2Proof.Machine.execZextH d r s
  | .zextW d r => Sys2Proof.Machine.execZextW d r s
  | .bswap d r => Sys2Proof.Machine.execBswap d r s
  | .bitrev d r => Sys2Proof.Machine.execBitrev d r s
  | .mul d r t => Sys2Proof.Machine.execMul d r t s
  | .mulxSs d r t => Sys2Proof.Machine.execMulxSs d r t s
  | .mulxUu d r t => Sys2Proof.Machine.execMulxUu d r t s
  | .mulxSu d r t => Sys2Proof.Machine.execMulxSu d r t s
  | .quot d r t => Sys2Proof.Machine.execQuot d r t s
  | .quotu d r t => Sys2Proof.Machine.execQuotu d r t s
  | .remd d r t => Sys2Proof.Machine.execRemd d r t s
  | .remdu d r t => Sys2Proof.Machine.execRemdu d r t s
  | .addi d r ii => Sys2Proof.Machine.execAddi d r ii s
  | .slli d r n => Sys2Proof.Machine.execSlli d r n s
  | .rotli d r n => Sys2Proof.Machine.execRotli d r n s
  | .cmplti d r ii => Sys2Proof.Machine.execCmplti d r ii s
  | .cmpltiu d r ii => Sys2Proof.Machine.execCmpltiu d r ii s
  | .xori d r ii => Sys2Proof.Machine.execXori d r ii s
  | .srli d r n => Sys2Proof.Machine.execSrli d r n s
  | .srai d r n => Sys2Proof.Machine.execSrai d r n s
  | .rotri d r n => Sys2Proof.Machine.execRotri d r n s
  | .ori d r ii => Sys2Proof.Machine.execOri d r ii s
  | .andi d r ii => Sys2Proof.Machine.execAndi d r ii s
  | .hiimm d ii => Sys2Proof.Machine.execHiimm d ii s
  | .jump d o => Sys2Proof.Machine.execJump d o s
  | .jr d r ii => Sys2Proof.Machine.execJr d r ii s
  | .pcadd d r ii => Sys2Proof.Machine.execPcadd d r ii s
  | .beq t r o => Sys2Proof.Machine.execBeq t r o s
  | .bne t r o => Sys2Proof.Machine.execBne t r o s
  | .blt t r o => Sys2Proof.Machine.execBlt t r o s
  | .bge t r o => Sys2Proof.Machine.execBge t r o s
  | .bltu t r o => Sys2Proof.Machine.execBltu t r o s
  | .bgeu t r o => Sys2Proof.Machine.execBgeu t r o s
  | .loop l r o => Sys2Proof.Machine.execLoop l r o s
  | .loopi l n o => Sys2Proof.Machine.execLoopi l n o s
  | .loopClr l => Sys2Proof.Machine.execLoopClr l s
  | .forkA o => Sys2Proof.Machine.execForkA o s
  | .qPut r q => Sys2Proof.Machine.execQPut r q s
  | .qGet d q => Sys2Proof.Machine.execQGet d q s
  | .qCnt d q => Sys2Proof.Machine.execQCnt d q s
  | .msgSend r t => Sys2Proof.Machine.execMsgSend r t s
  | .spOpen r t => Sys2Proof.Machine.execSpOpen r t s
  | .spPut r => Sys2Proof.Machine.execSpPut r s
  | .spClose d => Sys2Proof.Machine.execSpClose d s
  | .taskEnd => Sys2Proof.Machine.execTaskEnd s
  | .safept r => Sys2Proof.Machine.execSafept r s
  | .align n => Sys2Proof.Machine.execAlign n s
  | .alignBound c => Sys2Proof.Machine.execAlignBound c s
  | .srd d r => Sys2Proof.Machine.execSrd d r s
  | .swr r r' => Sys2Proof.Machine.execSwr r r' s
  | .phase => Sys2Proof.Machine.execPhase s
  | .tlbW d r t => Sys2Proof.Machine.execTlbW d r t s
  | .tlbInv r t => Sys2Proof.Machine.execTlbInv r t s
  | .ldB d r ii => Sys2Proof.Machine.execLdB d r ii s
  | .ldH d r ii => Sys2Proof.Machine.execLdH d r ii s
  | .ldW d r ii => Sys2Proof.Machine.execLdW d r ii s
  | .ldD d r ii => Sys2Proof.Machine.execLdD d r ii s
  | .ldBu d r ii => Sys2Proof.Machine.execLdBu d r ii s
  | .ldHu d r ii => Sys2Proof.Machine.execLdHu d r ii s
  | .ldWu d r ii => Sys2Proof.Machine.execLdWu d r ii s
  | .stB t r ii => Sys2Proof.Machine.execStB t r ii s
  | .stH t r ii => Sys2Proof.Machine.execStH t r ii s
  | .stW t r ii => Sys2Proof.Machine.execStW t r ii s
  | .stD t r ii => Sys2Proof.Machine.execStD t r ii s
  | .stDh t r h => Sys2Proof.Machine.execStDh t r h s
  | .fenceFull c => Sys2Proof.Machine.execFenceFull c s
  | .fenceRel c => Sys2Proof.Machine.execFenceRel c s
  | .fenceAcq c => Sys2Proof.Machine.execFenceAcq c s
  | .mlive r t => Sys2Proof.Machine.execMlive r t s
  | .amoAddD d r t => Sys2Proof.Machine.execAmoAddD d r t s
  | .amoAndD d r t => Sys2Proof.Machine.execAmoAndD d r t s
  | .amoOrD d r t => Sys2Proof.Machine.execAmoOrD d r t s
  | .amoXorD d r t => Sys2Proof.Machine.execAmoXorD d r t s
  | .amoMinD d r t => Sys2Proof.Machine.execAmoMinD d r t s
  | .amoMaxD d r t => Sys2Proof.Machine.execAmoMaxD d r t s
  | .amoSwapD d r t => Sys2Proof.Machine.execAmoSwapD d r t s
  | .amoCasD d r t => Sys2Proof.Machine.execAmoCasD d r t s
  | .amoAddW d r t => Sys2Proof.Machine.execAmoAddW d r t s
  | .amoAndW d r t => Sys2Proof.Machine.execAmoAndW d r t s
  | .amoOrW d r t => Sys2Proof.Machine.execAmoOrW d r t s
  | .amoXorW d r t => Sys2Proof.Machine.execAmoXorW d r t s
  | .amoMinW d r t => Sys2Proof.Machine.execAmoMinW d r t s
  | .amoMaxW d r t => Sys2Proof.Machine.execAmoMaxW d r t s
  | .amoSwapW d r t => Sys2Proof.Machine.execAmoSwapW d r t s
  | .amoCasW d r t => Sys2Proof.Machine.execAmoCasW d r t s
  | .amoMinuD d r t => Sys2Proof.Machine.execAmoMinuD d r t s
  | .amoMaxuD d r t => Sys2Proof.Machine.execAmoMaxuD d r t s
  | .amoMinuW d r t => Sys2Proof.Machine.execAmoMinuW d r t s
  | .amoMaxuW d r t => Sys2Proof.Machine.execAmoMaxuW d r t s
  | .amoFadd d r t => Sys2Proof.Machine.execAmoFadd d r t s
  | .syncLd d r => Sys2Proof.Machine.execSyncLd d r s
  | .syncAdd d r t => Sys2Proof.Machine.execSyncAdd d r t s
  | .syncAnd d r t => Sys2Proof.Machine.execSyncAnd d r t s
  | .syncOr d r t => Sys2Proof.Machine.execSyncOr d r t s
  | .syncXor d r t => Sys2Proof.Machine.execSyncXor d r t s
  | .syncSwap d r t => Sys2Proof.Machine.execSyncSwap d r t s
  | .syncCas d r t => Sys2Proof.Machine.execSyncCas d r t s
  | .syncFadd d r t => Sys2Proof.Machine.execSyncFadd d r t s
  | .syncMin d r t => Sys2Proof.Machine.execSyncMin d r t s
  | .syncMax d r t => Sys2Proof.Machine.execSyncMax d r t s
  | .syncMinu d r t => Sys2Proof.Machine.execSyncMinu d r t s
  | .syncMaxu d r t => Sys2Proof.Machine.execSyncMaxu d r t s
  | .syncWait d r t => Sys2Proof.Machine.execSyncWait d r t s
  | .syncWake d r t => Sys2Proof.Machine.execSyncWake d r t s
  | .sluiceOperation die => Sys2Proof.Machine.execSluiceOperation die s
  | .barArrive g => Sys2Proof.Machine.execBarArrive g s
  | .barWait g => Sys2Proof.Machine.execBarWait g s
  | .barrierRelease b => Sys2Proof.Machine.execBarrierRelease b s
  | .ringBoard d r t => Sys2Proof.Machine.execRingBoard d r t s
  | .ringCapRead d r t => Sys2Proof.Machine.execRingCapRead d r t s
  | .ringCapAdd d r t => Sys2Proof.Machine.execRingCapAdd d r t s
  | .ringCapMin d r t => Sys2Proof.Machine.execRingCapMin d r t s
  | .ringCapMax d r t => Sys2Proof.Machine.execRingCapMax d r t s
  | .ringCapSwap d r t => Sys2Proof.Machine.execRingCapSwap d r t s
  | .ringCapCas d r t => Sys2Proof.Machine.execRingCapCas d r t s
  | .ringAlight d r t => Sys2Proof.Machine.execRingAlight d r t s
  | .ringAction c st => Sys2Proof.Machine.execRingAction c st s
  | .ringBoardTimeout c st => Sys2Proof.Machine.execRingBoardTimeout c st s
  | .ringAbsent c st => Sys2Proof.Machine.execRingAbsent c st s
  | .lblAssume d a => Sys2Proof.Machine.execLblAssume d a s
  | .lblWith d r t => Sys2Proof.Machine.execLblWith d r t s
  | .lblMerge d r t => Sys2Proof.Machine.execLblMerge d r t s
  | .lblGet d r => Sys2Proof.Machine.execLblGet d r s
  | .lblVis d r => Sys2Proof.Machine.execLblVis d r s
  | .lblNogood d r => Sys2Proof.Machine.execLblNogood d r s
  | .lblCtx d r => Sys2Proof.Machine.execLblCtx d r s
  | .nogoodCommit c st => Sys2Proof.Machine.execNogoodCommit c st s
  | .nogoodNotice c frame => Sys2Proof.Machine.execNogoodNotice c frame s
  | .launch d r => Sys2Proof.Machine.execLaunch d r s
  | .arm d r t => Sys2Proof.Machine.execArm d r t s
  | .disarm d t => Sys2Proof.Machine.execDisarm d t s
  | .meterReg d r => Sys2Proof.Machine.execMeterReg d r s
  | .meterRead d r t => Sys2Proof.Machine.execMeterRead d r t s
  | .meterCkpt d => Sys2Proof.Machine.execMeterCkpt d s
  | .attest d r => Sys2Proof.Machine.execAttest d r s
  | .vld d r e k => Sys2Proof.Machine.execVld d r e k s
  | .vst r t e k => Sys2Proof.Machine.execVst r t e k s
  | .vlds d r t e k => Sys2Proof.Machine.execVlds d r t e k s
  | .vsts d r t e k => Sys2Proof.Machine.execVsts d r t e k s
  | .vgth d r t e k => Sys2Proof.Machine.execVgth d r t e k s
  | .vsct d r t e k => Sys2Proof.Machine.execVsct d r t e k s
  | .vbc d r e k => Sys2Proof.Machine.execVbc d r e k s
  | .vadd d r t e k => Sys2Proof.Machine.execVadd d r t e k s
  | .vsub d r t e k => Sys2Proof.Machine.execVsub d r t e k s
  | .vmul d r t e k => Sys2Proof.Machine.execVmul d r t e k s
  | .vmulh d r t e k => Sys2Proof.Machine.execVmulh d r t e k s
  | .vmin d r t e k => Sys2Proof.Machine.execVmin d r t e k s
  | .vmax d r t e k => Sys2Proof.Machine.execVmax d r t e k s
  | .vminu d r t e k => Sys2Proof.Machine.execVminu d r t e k s
  | .vmaxu d r t e k => Sys2Proof.Machine.execVmaxu d r t e k s
  | .vadds d r t e k => Sys2Proof.Machine.execVadds d r t e k s
  | .vaddus d r t e k => Sys2Proof.Machine.execVaddus d r t e k s
  | .vsubs d r t e k => Sys2Proof.Machine.execVsubs d r t e k s
  | .vsubus d r t e k => Sys2Proof.Machine.execVsubus d r t e k s
  | .vand d r t e k => Sys2Proof.Machine.execVand d r t e k s
  | .vor d r t e k => Sys2Proof.Machine.execVor d r t e k s
  | .vxor d r t e k => Sys2Proof.Machine.execVxor d r t e k s
  | .vandn d r t e k => Sys2Proof.Machine.execVandn d r t e k s
  | .vsll d r t e k => Sys2Proof.Machine.execVsll d r t e k s
  | .vsrl d r t e k => Sys2Proof.Machine.execVsrl d r t e k s
  | .vsra d r t e k => Sys2Proof.Machine.execVsra d r t e k s
  | .vcmpEq c r t e k => Sys2Proof.Machine.execVcmpEq c r t e k s
  | .vcmpNe c r t e k => Sys2Proof.Machine.execVcmpNe c r t e k s
  | .vcmpLt c r t e k => Sys2Proof.Machine.execVcmpLt c r t e k s
  | .vcmpGe c r t e k => Sys2Proof.Machine.execVcmpGe c r t e k s
  | .vcmpLtu c r t e k => Sys2Proof.Machine.execVcmpLtu c r t e k s
  | .vcmpGeu c r t e k => Sys2Proof.Machine.execVcmpGeu c r t e k s
  | .vsplat d r e k => Sys2Proof.Machine.execVsplat d r e k s
  | .vext d r t e => Sys2Proof.Machine.execVext d r t e s
  | .vins d r t e => Sys2Proof.Machine.execVins d r t e s
  | .vmv d r e k => Sys2Proof.Machine.execVmv d r e k s
  | .vfadd d r t e k => Sys2Proof.Machine.execVfadd d r t e k s
  | .vfsub d r t e k => Sys2Proof.Machine.execVfsub d r t e k s
  | .vfmul d r t e k => Sys2Proof.Machine.execVfmul d r t e k s
  | .vfdiv d r t e k => Sys2Proof.Machine.execVfdiv d r t e k s
  | .vfmin d r t e k => Sys2Proof.Machine.execVfmin d r t e k s
  | .vfmax d r t e k => Sys2Proof.Machine.execVfmax d r t e k s
  | .vfsqrt d r e k => Sys2Proof.Machine.execVfsqrt d r e k s
  | .vfma d r t e k => Sys2Proof.Machine.execVfma d r t e k s
  | .vfnms d r t e k => Sys2Proof.Machine.execVfnms d r t e k s
  | .vfcmpEq c r t e k => Sys2Proof.Machine.execVfcmpEq c r t e k s
  | .vfcmpLt c r t e k => Sys2Proof.Machine.execVfcmpLt c r t e k s
  | .vfcmpLe c r t e k => Sys2Proof.Machine.execVfcmpLe c r t e k s
  | .vcvtF32F16 d r p k => Sys2Proof.Machine.execVcvtF32F16 d r p k s
  | .vcvtF32Bf16 d r p k => Sys2Proof.Machine.execVcvtF32Bf16 d r p k s
  | .vcvtF32E4m3 d r p k => Sys2Proof.Machine.execVcvtF32E4m3 d r p k s
  | .vcvtF32E5m2 d r p k => Sys2Proof.Machine.execVcvtF32E5m2 d r p k s
  | .vcvtF16F32 d r p k => Sys2Proof.Machine.execVcvtF16F32 d r p k s
  | .vcvtBf16F32 d r p k => Sys2Proof.Machine.execVcvtBf16F32 d r p k s
  | .vcvtE4m3F32 d r p k => Sys2Proof.Machine.execVcvtE4m3F32 d r p k s
  | .vcvtE5m2F32 d r p k => Sys2Proof.Machine.execVcvtE5m2F32 d r p k s
  | .vcvtI32F32 d r p k => Sys2Proof.Machine.execVcvtI32F32 d r p k s
  | .vcvtI32F32Rtz d r p k => Sys2Proof.Machine.execVcvtI32F32Rtz d r p k s
  | .vcvtF32I32 d r p k => Sys2Proof.Machine.execVcvtF32I32 d r p k s
  | .vcvtUi32F32 d r p k => Sys2Proof.Machine.execVcvtUi32F32 d r p k s
  | .vcvtUi32F32Rtz d r p k => Sys2Proof.Machine.execVcvtUi32F32Rtz d r p k s
  | .vcvtF32Ui32 d r p k => Sys2Proof.Machine.execVcvtF32Ui32 d r p k s
  | .vcvtI8F32 d r p k => Sys2Proof.Machine.execVcvtI8F32 d r p k s
  | .vcvtI8F32Rtz d r p k => Sys2Proof.Machine.execVcvtI8F32Rtz d r p k s
  | .vcvtF32I8 d r p k => Sys2Proof.Machine.execVcvtF32I8 d r p k s
  | .vcvtUq8F32 d r p k => Sys2Proof.Machine.execVcvtUq8F32 d r p k s
  | .vcvtUq8F32Rtz d r p k => Sys2Proof.Machine.execVcvtUq8F32Rtz d r p k s
  | .vcvtF32Uq8 d r p k => Sys2Proof.Machine.execVcvtF32Uq8 d r p k s
  | .vcvtI16F32 d r p k => Sys2Proof.Machine.execVcvtI16F32 d r p k s
  | .vcvtI16F32Rtz d r p k => Sys2Proof.Machine.execVcvtI16F32Rtz d r p k s
  | .vcvtF32I16 d r p k => Sys2Proof.Machine.execVcvtF32I16 d r p k s
  | .vcvtI32I8 d r p k => Sys2Proof.Machine.execVcvtI32I8 d r p k s
  | .vcvtI8I32 d r p k => Sys2Proof.Machine.execVcvtI8I32 d r p k s
  | .vcvtI32I16 d r p k => Sys2Proof.Machine.execVcvtI32I16 d r p k s
  | .vcvtI16I32 d r p k => Sys2Proof.Machine.execVcvtI16I32 d r p k s
  | .vcvtE4m3F16 d r p k => Sys2Proof.Machine.execVcvtE4m3F16 d r p k s
  | .vcvtF16E4m3 d r p k => Sys2Proof.Machine.execVcvtF16E4m3 d r p k s
  | .qsc t e => Sys2Proof.Machine.execQsc t e s
  | .qstat d e => Sys2Proof.Machine.execQstat d e s
  | .qcar d e => Sys2Proof.Machine.execQcar d e s
  | .qclr e => Sys2Proof.Machine.execQclr e s
  | .qhist t e m => Sys2Proof.Machine.execQhist t e m s
  | .qstE4m3 d r t e m => Sys2Proof.Machine.execQstE4m3 d r t e m s
  | .vredsum d r e k => Sys2Proof.Machine.execVredsum d r e k s
  | .vredmin d r e k => Sys2Proof.Machine.execVredmin d r e k s
  | .vredmax d r e k => Sys2Proof.Machine.execVredmax d r e k s
  | .vredminu d r e k => Sys2Proof.Machine.execVredminu d r e k s
  | .vredmaxu d r e k => Sys2Proof.Machine.execVredmaxu d r e k s
  | .vfredsum d r k => Sys2Proof.Machine.execVfredsum d r k s
  | .vfredmax d r k => Sys2Proof.Machine.execVfredmax d r k s
  | .vfredmin d r k => Sys2Proof.Machine.execVfredmin d r k s
  | .vperm d r t e k => Sys2Proof.Machine.execVperm d r t e k s
  | .vslide d r t e k => Sys2Proof.Machine.execVslide d r t e k s
  | .vcomp d r e k => Sys2Proof.Machine.execVcomp d r e k s
  | .vrev d r e k => Sys2Proof.Machine.execVrev d r e k s
  | .kand c r t => Sys2Proof.Machine.execKand c r t s
  | .kor c r t => Sys2Proof.Machine.execKor c r t s
  | .kxor c r t => Sys2Proof.Machine.execKxor c r t s
  | .knot c r => Sys2Proof.Machine.execKnot c r s
  | .kfromx c r => Sys2Proof.Machine.execKfromx c r s
  | .ktox d r => Sys2Proof.Machine.execKtox d r s
  | .kpop d r => Sys2Proof.Machine.execKpop d r s
  | .repOpen n => Sys2Proof.Machine.execRepOpen n s
  | .repRun r t p => Sys2Proof.Machine.execRepRun r t p s
  | .tmapLd m r => Sys2Proof.Machine.execTmapLd m r s
  | .tmapRd d n m => Sys2Proof.Machine.execTmapRd d n m s
  | .tmapMov m r => Sys2Proof.Machine.execTmapMov m r s
  | .gangWld m r p r' => Sys2Proof.Machine.execGangWld m r p r' s
  | .gangMma m a r p n w => Sys2Proof.Machine.execGangMma m a r p n w s
  | .hotReg m r t => Sys2Proof.Machine.execHotReg m r t s
  | .hotMig p => Sys2Proof.Machine.execHotMig p s
  | .hotCnt d r => Sys2Proof.Machine.execHotCnt d r s
  | .gangStart g => Sys2Proof.Machine.execGangStart g s
  | .gangCompletion g => Sys2Proof.Machine.execGangCompletion g s
  | .gangArrivalBound g => Sys2Proof.Machine.execGangArrivalBound g s
  | .migrationInstant g p => Sys2Proof.Machine.execMigrationInstant g p s
  | .polderFailure g stack u again => Sys2Proof.Machine.execPolderFailure g stack u again s
  | .accLd n r r' => Sys2Proof.Machine.execAccLd n r r' s
  | .accSt n r r' => Sys2Proof.Machine.execAccSt n r r' s
  | .accZero n => Sys2Proof.Machine.execAccZero n s
  | .accFill n r => Sys2Proof.Machine.execAccFill n r s
  | .accTov n v r => Sys2Proof.Machine.execAccTov n v r s
  | .accFromv n v r => Sys2Proof.Machine.execAccFromv n v r s
  | .cpy d r => Sys2Proof.Machine.execCpy d r s
  | .gth d r => Sys2Proof.Machine.execGth d r s
  | .coll d r => Sys2Proof.Machine.execColl d r s
  | .engCancel d r => Sys2Proof.Machine.execEngCancel d r s
  | .engineAccess sg e ii => Sys2Proof.Machine.execEngineAccess sg e ii s
  | .engineCompletion sg e => Sys2Proof.Machine.execEngineCompletion sg e s
  | .engineFault sg e ii => Sys2Proof.Machine.execEngineFault sg e ii s
  | .engineQueueHalt sg e => Sys2Proof.Machine.execEngineQueueHalt sg e s
  | .hint h => Sys2Proof.Machine.execHint h s
  | .cAddi d ii => Sys2Proof.Machine.execCAddi d ii s
  | .cSet d ii => Sys2Proof.Machine.execCSet d ii s
  | .cMv d r => Sys2Proof.Machine.execCMv d r s
  | .cAdd d r => Sys2Proof.Machine.execCAdd d r s
  | .cSub d r => Sys2Proof.Machine.execCSub d r s
  | .cAnd d r => Sys2Proof.Machine.execCAnd d r s
  | .cOr d r => Sys2Proof.Machine.execCOr d r s
  | .cXor d r => Sys2Proof.Machine.execCXor d r s
  | .cSlli d n => Sys2Proof.Machine.execCSlli d n s
  | .cSrli d n => Sys2Proof.Machine.execCSrli d n s
  | .cLdD d r o => Sys2Proof.Machine.execCLdD d r o s
  | .cStD d r o => Sys2Proof.Machine.execCStD d r o s
  | .cLdW d r o => Sys2Proof.Machine.execCLdW d r o s
  | .cStW d r o => Sys2Proof.Machine.execCStW d r o s
  | .cBz r o => Sys2Proof.Machine.execCBz r o s
  | .cBnz r o => Sys2Proof.Machine.execCBnz r o s
  | .cJump o => Sys2Proof.Machine.execCJump o s
  | .cNop => Sys2Proof.Machine.execCNop s
  | .cTaskEnd => Sys2Proof.Machine.execCTaskEnd s
  | .safePointBound c st => Sys2Proof.Machine.execSafePointBound c st s
  | .messageArrival ii => Sys2Proof.Machine.execMessageArrival ii s
  | .refusalArrival ii => Sys2Proof.Machine.execRefusalArrival ii s
  | .messageDispatch c => Sys2Proof.Machine.execMessageDispatch c s
  | .taskSelection c => Sys2Proof.Machine.execTaskSelection c s
  | .ageing c slot => Sys2Proof.Machine.execAgeing c slot s
  | .arrivalHandlerStart c => Sys2Proof.Machine.execArrivalHandlerStart c s
  | .launchMessageRedelivery ii => Sys2Proof.Machine.execLaunchMessageRedelivery ii s
  | .launchCompletion die e => Sys2Proof.Machine.execLaunchCompletion die e s
  | .drain c ii => Sys2Proof.Machine.execDrain c ii s
  | .perform ii => Sys2Proof.Machine.execPerform ii s
  | .loadPerform c st => Sys2Proof.Machine.execLoadPerform c st s
  | .invalidationAcknowledgement line agent => Sys2Proof.Machine.execInvalidationAcknowledgement line agent s
  | .evictionNotice line agent => Sys2Proof.Machine.execEvictionNotice line agent s
  | .writeBack line agent => Sys2Proof.Machine.execWriteBack line agent s
  | .selfRefresh pch => Sys2Proof.Machine.execSelfRefresh pch s
  | .tlbMiss c st entry => Sys2Proof.Machine.execTlbMiss c st entry s
  | .taskMigration c => Sys2Proof.Machine.execTaskMigration c s
  | .migrationTimeout c st => Sys2Proof.Machine.execMigrationTimeout c st s
  | .remoteAccessTimeout c st => Sys2Proof.Machine.execRemoteAccessTimeout c st s
  | .faultMessageResend ii => Sys2Proof.Machine.execFaultMessageResend ii s
  | .hostBar2Access off write n data => Sys2Proof.Machine.execHostBar2Access off write n data s
  | .hostBar4Access off write n data => Sys2Proof.Machine.execHostBar4Access off write n data s
  | .hostTranslationFill entry => Sys2Proof.Machine.execHostTranslationFill entry s
  | .hostLaunch h v => Sys2Proof.Machine.execHostLaunch h v s
  | .registerWrite off v => Sys2Proof.Machine.execRegisterWrite off v s
  | .giariMessageArrival src tag payload => Sys2Proof.Machine.execGiariMessageArrival src tag payload s
  | .linkRetraining l => Sys2Proof.Machine.execLinkRetraining l s
  | .linkFailure l => Sys2Proof.Machine.execLinkFailure l s
  | .powerOnReset verified => Sys2Proof.Machine.execPowerOnReset verified s
  | .reducedServiceEntry => Sys2Proof.Machine.execReducedServiceEntry s
  | .fullServiceTransition => Sys2Proof.Machine.execFullServiceTransition s
  | .clockStateUpdate die clk temp power => Sys2Proof.Machine.execClockStateUpdate die clk temp power s
  | .checkpointCount stored => Sys2Proof.Machine.execCheckpointCount stored s
  | .checkpointTime stored => Sys2Proof.Machine.execCheckpointTime stored s
  | .checkpointRetry stored => Sys2Proof.Machine.execCheckpointRetry stored s
  | .frameCreate h => Sys2Proof.Machine.execFrameCreate h s
  | .frameReset h => Sys2Proof.Machine.execFrameReset h s
  | .frameRead h => Sys2Proof.Machine.execFrameRead h s
  | .faultqSet h => Sys2Proof.Machine.execFaultqSet h s
  | .imageLoad h => Sys2Proof.Machine.execImageLoad h s
  | .evictLoad h => Sys2Proof.Machine.execEvictLoad h s
  | .spillSet h => Sys2Proof.Machine.execSpillSet h s
  | .tvecSet h => Sys2Proof.Machine.execTvecSet h s
  | .aspaceSet h => Sys2Proof.Machine.execAspaceSet h s
  | .tlbInvalidate h => Sys2Proof.Machine.execTlbInvalidate h s
  | .engineRestart h => Sys2Proof.Machine.execEngineRestart h s
  | .preempt h => Sys2Proof.Machine.execPreempt h s
  | .regionRegister h stored => Sys2Proof.Machine.execRegionRegister h stored s
  | .regionRead h => Sys2Proof.Machine.execRegionRead h s
  | .regionRetire h stored => Sys2Proof.Machine.execRegionRetire h stored s
  | .attestRequest h => Sys2Proof.Machine.execAttestRequest h s
  | .checkpoint h stored => Sys2Proof.Machine.execCheckpoint h stored s
  | .keyInstall h stored => Sys2Proof.Machine.execKeyInstall h stored s
  | .certRead h => Sys2Proof.Machine.execCertRead h s
  | .reservedRequestCode h => Sys2Proof.Machine.execReservedRequestCode h s
  | .debugReadRegisters h => Sys2Proof.Machine.execDebugReadRegisters h s
  | .debugReadTile h => Sys2Proof.Machine.execDebugReadTile h s
  | .debugReadQueues h => Sys2Proof.Machine.execDebugReadQueues h s
  | .debugReadBarrier h => Sys2Proof.Machine.execDebugReadBarrier h s
  | .debugReadRingdike h => Sys2Proof.Machine.execDebugReadRingdike h s
  | .debugReadEngine h => Sys2Proof.Machine.execDebugReadEngine h s
  | .debugReadWaitQueue h => Sys2Proof.Machine.execDebugReadWaitQueue h s
  | .debugReadSaveStore h => Sys2Proof.Machine.execDebugReadSaveStore h s
  | .debugReadDirectory h => Sys2Proof.Machine.execDebugReadDirectory h s
  | .debugReadTrapState h => Sys2Proof.Machine.execDebugReadTrapState h s
  | .debugWriteRegister h => Sys2Proof.Machine.execDebugWriteRegister h s
  | .halt c => Sys2Proof.Machine.execHalt c s
  | .resume c => Sys2Proof.Machine.execResume c s
  | .stepHalt c => Sys2Proof.Machine.execStepHalt c s
  | .breakpoint c st => Sys2Proof.Machine.execBreakpoint c st s
  | .illegalInstruction w => Sys2Proof.Machine.execIllegalInstruction w s
  | .flitReplay l => Sys2Proof.Machine.execFlitReplay l s
  | .powerLoss => Sys2Proof.Machine.execPowerLoss s
  | .remoteAccessReply c st answer => Sys2Proof.Machine.execRemoteAccessReply c st answer s
  | .giariAccess addr write n data => Sys2Proof.Machine.execGiariAccess addr write n data s
  | .migratedTaskArrival c ctx => Sys2Proof.Machine.execMigratedTaskArrival c ctx s
  | .streamPortArrival ii => Sys2Proof.Machine.execStreamPortArrival ii s
  | .debugMemoryWrite va data => Sys2Proof.Machine.execDebugMemoryWrite va data s

end Sys2Proof.Machine
end

