-- ==== Sys2Proof/Machine/Background.lean ====
section
/-!
DEFINITION. Time and turns: a core cycle, the step of a stream, the events that the machine can take by itself, and what moves when no
schedule says so (R36, R140, R136, R377; log 1). The order is the model's; a schedule in the state can give any other.
-/

namespace Sys2Proof.Machine

/-! ### A cycle -/

/-- The waiting tasks of a core age (R36). -/
def Core.aged (now : Nat) (k : Core) : Core := { k with slots := k.slots.map fun p => (p.1, p.2.age now) }

/-- A core cycle of a clock state in units of 1/14.4 ns: 2.4, 1.8 and 1.2 GHz (R15, R312). -/
def clkUnits (k : BitVec 2) : Nat :=
  match k.toNat with
  | 0 => 6
  | 1 => 8
  | _ => 12

/-- The clocks after one cycle of the faster die (R3, R15, R312). -/
def State.nextClocks (s : State) : Clocks :=
  let per := fun (i : Fin 2) => clkUnits (s.host.clk.get i)
  let p := min (per 0) (per 1)
  let k := s.clocks
  { cycles := Vector.ofFn fun i => k.cycles.get i + (k.part.get i + p) / per i
    part := Vector.ofFn fun i => (k.part.get i + p) % per i
    base := k.base + (k.basePart + p) / 9, basePart := (k.basePart + p) % 9, units := k.units + p }

/-- Every barrier whose latency has passed is released (R23). -/
def State.settle (s : State) : State :=
  (upto 2).foldl (fun s d => (upto (s.dieAt d).barriers.length).foldl (fun s i => s.barRelease d i) s) s

/-- A cycle of a core of a die ends: the writes that land at its end do (R35, R101, R130). -/
def Core.landed (new : Bool) (k : Core) : Core := if new && !k.regs.late.isEmpty then { k with regs := k.regs.land } else k

/-- A cycle of the faster die passes: due barriers are released, the ringdikes of the dies that have a new cycle move, host service queues
go on, writes to state registers land, waiting tasks age (R23, R35, R36, R136, R143). -/
def State.tick (s : State) : State :=
  let k := s.nextClocks
  let new := fun (d : Nat) => decide (k.cycles.getD d 0 ≠ s.cycleOf d)
  let s := (s.settle.ringCycle new).serveHost
  let age := fun (c : Core) => (c.landed (new (dieOf c.num))).aged (k.cycles.getD (dieOf c.num) 0)
  { s with clocks := k, core := age s.core, parked := s.parked.map fun p => (p.1, age p.2) }

/-! ### Turns -/

/-- The least number of a list. -/
def least : List Nat → Option Nat
  | [] => none
  | n :: ns => some (ns.foldl min n)

/-- The streams that can step now. -/
def State.runnables (s : State) : List Nat := (s.cores.flatMap Core.steppers).filter fun n => (s.focus (n / 2) (n % 2)).runnable

/-- The next stream in cyclic order that can step now, if any, becomes the acting one. -/
def State.rotate (s : State) : State :=
  let here := s.core.num * 2 + s.actStream
  match (least (s.runnables.filter fun n => decide (here < n))).orElse fun _ => least s.runnables with
  | some n => s.focus (n / 2) (n % 2)
  | none => s

noncomputable section

/-- The step of the acting stream: a breakpoint, the instruction at its PC, or the trap of its fetch (R195, R203, R377). -/
def State.stepStream (s : State) : Host.Outcome State Fault Refusal :=
  if s.core.atBreak s.actStream then exec (.breakpoint s.core.num s.actStream) s
  else match s.fetch with
    | .instr i => exec i s
    | .illegal w => exec (.illegalInstruction w) s
    | .outside => .next (s.takeTrap s.fetchTrap)

/-- The acting stream is at a `swr`. -/
def State.endsCycle (s : State) : Bool :=
  match s.fetch with
  | .instr (.swr _ _) => true
  | _ => false

/-- The acting stream takes its step; `f` changes the next state. -/
def State.turnOf (s : State) (f : State → State) : Host.Outcome State Fault Refusal :=
  onNext f (s.turnWith s.endsCycle s.stepStream)

/-! ### Events that the machine can take by itself -/

/-- The events of a core. -/
def State.coreEvents (s : State) (k : Core) : List Instr :=
  let free := fun (st : Nat) => BitVec.ofNat 8 (((upto 256).find? fun i =>
    !bit (Tab.get (0, 0) s.tlb (tileOf k.num * 256 + i)).1 0).getD (s.cycle + st))
  [.messageDispatch k.num, .arrivalHandlerStart k.num, .taskSelection k.num]
    ++ (upto k.sb.length).map (Instr.drain k.num)
    ++ (upto 2).flatMap fun st => [.tlbMiss k.num st (free st), .migrationTimeout k.num st, .remoteAccessTimeout k.num st]

/-- The events of a die. -/
def State.dieEvents (s : State) (d : Nat) : List Instr :=
  let x := s.dieAt d
  [Instr.sluiceOperation d] ++ (upto x.barriers.length).map (fun i => Instr.barrierRelease (2 * i + d))
    ++ x.pending.map fun p => Instr.launchCompletion d p.1

/-- The events of an engine. -/
def engineEvents (p : Nat × Engine) : List Instr :=
  let sg := p.1 / 4
  let e := p.1 % 4
  let units := match p.2.queue with
    | c :: _ => c.left ++ c.data.map Prod.fst
    | [] => []
  [Instr.engineQueueHalt sg e, .engineCompletion sg e] ++ units.flatMap fun i => [Instr.engineAccess sg e i, .engineFault sg e i]

/-- The events of a group. -/
def groupEvents (p : Nat × Group) : List Instr :=
  [Instr.gangCompletion p.1, .gangStart p.1, .gangArrivalBound p.1] ++ p.2.due.map (Instr.migrationInstant p.1)

/-- The events of the memory system. -/
def State.memoryEvents (s : State) : List Instr :=
  (upto s.inbound.length).map Instr.perform
    ++ s.coh.grants.flatMap (fun g => g.waiting.map (Instr.invalidationAcknowledgement g.line))
    ++ s.coh.notices.map (fun p => Instr.evictionNotice p.1 p.2) ++ s.coh.writeBacks.map fun p => Instr.writeBack p.1 p.2

/-- The events of messages under way. -/
def State.messageEvents (s : State) : List Instr :=
  (upto s.channels.length).map Instr.messageArrival ++ (upto s.refusals.length).map Instr.refusalArrival
    ++ (upto ((s.dieAt 0).redeliver.length + (s.dieAt 1).redeliver.length)).map Instr.launchMessageRedelivery
    ++ (upto s.resend.length).map Instr.faultMessageResend ++ (upto s.transfers.length).map Instr.streamPortArrival

/-- The debug event of an item. -/
def debugEvent (h item : Nat) : Instr :=
  match item with
  | 1 => .debugReadTile h
  | 2 => .debugReadQueues h
  | 3 => .debugReadBarrier h
  | 4 => .debugReadRingdike h
  | 5 => .debugReadEngine h
  | 6 => .debugReadWaitQueue h
  | 7 => .debugReadSaveStore h
  | 8 => .debugReadDirectory h
  | 9 => .debugReadTrapState h
  | 10 => .debugWriteRegister h
  | _ => .debugReadRegisters h

/-- The event that serves a request of a code (R308). -/
def requestEvent (h code item : Nat) (stored : Bool) : Instr :=
  match code with
  | 0x01 => .frameCreate h
  | 0x02 => .frameReset h
  | 0x03 => .frameRead h
  | 0x04 => .faultqSet h
  | 0x05 => .imageLoad h
  | 0x06 => .evictLoad h
  | 0x07 => .spillSet h
  | 0x08 => .tvecSet h
  | 0x09 => .aspaceSet h
  | 0x0A => .tlbInvalidate h
  | 0x0B => .engineRestart h
  | 0x0C => .preempt h
  | 0x0D => .regionRegister h stored
  | 0x0E => .regionRead h
  | 0x0F => .regionRetire h stored
  | 0x10 => .attestRequest h
  | 0x11 => .checkpoint h stored
  | 0x12 => .keyInstall h stored
  | 0x13 => .certRead h
  | 0x14 => debugEvent h item
  | _ => .reservedRequestCode h

/-- The events of the firmware's requests and of Bammos. -/
def State.firmwareEvents (s : State) : List Instr :=
  ((upto 8).filter fun h => s.host.busy.getD h false).map (fun h =>
      let ws := ((s.reqBlock h).map (·.2)).getD []
      requestEvent h (bits (ws.headD 0) 56 8) (ws.getD 3 0).toNat s.sec.accepts)
    ++ (if s.host.held.isEmpty then [] else [.hostTranslationFill s.cycle])
    ++ (if s.host.closing then [.fullServiceTransition] else [])
    ++ (if s.sec.refusals = 0 then [.checkpointCount s.sec.accepts, .checkpointTime s.sec.accepts]
        else if s.sec.accepts then [.checkpointRetry true] else [])

/-- Every event that may be due, in the order in which they are tried. -/
def State.events (s : State) : List Instr :=
  s.cores.flatMap s.coreEvents ++ s.memoryEvents ++ s.messageEvents ++ (upto 2).flatMap s.dieEvents
    ++ s.engines.flatMap engineEvents ++ s.groups.flatMap groupEvents ++ s.firmwareEvents

/-- A step is taken: it joins the step sequence (R124). -/
def State.noted (s : State) (m : Move) : State := { s with past := s.past ++ [m] }

/-- The state after the first event of a list that changes it. -/
def State.firstChange (s : State) : List Instr → Option State
  | [] => none
  | e :: es =>
    match exec e s with
    | .next s' => if s' = s then s.firstChange es else some (s'.noted (.event e))
    | _ => s.firstChange es

/-- The machine's own next event, if one is due. -/
def State.background (s : State) : Option State := s.firstChange s.events

/-! ### What moves -/

/-- A stream's turn: it steps, and the next one that can step in this cycle has its turn; where none can, an event or a new cycle. -/
def State.streamTurn (s : State) : Host.Outcome State Fault Refusal :=
  if s.runnable then s.turnOf fun t => { t.noted (.stream s.core.num s.actStream) with turn := true }.rotate
  else if s.runnables = [] then .next (s.background.getD (s.tick.noted .tick).rotate)
  else .next s.rotate

/-- What moves with no schedule: streams and the machine's own events take turns. -/
def State.unscheduled (s : State) : Host.Outcome State Fault Refusal :=
  match (if s.turn then { s with turn := false }.background else none) with
  | some s' => .next s'
  | none => s.streamTurn

/-- What a move of the schedule does. -/
def State.act (s : State) : Move → Host.Outcome State Fault Refusal
  | .stream c st =>
    let s := s.focus c st
    if s.runnable then s.turnOf id else .next s
  | .issue c st =>
    let s := s.focus c st
    if s.runnable then { s with defer := true }.turnOf fun t => { t with defer := false } else .next s
  | .ahead c st pc sub no => .next (s.aheadOf c st pc sub no)
  | .event i => exec i s
  | .farEnd c slot => .next (s.farEnd c slot)
  | .debugRead va n => .next (if n = 0 then s else s.debugRead va n)
  | .tick => .next s.tick

/-- A move of the schedule (R124). -/
def State.move (s : State) (m : Move) : Host.Outcome State Fault Refusal := onNext (·.noted m) (s.act m)

end

end Sys2Proof.Machine
end

