-- ==== Sys2Proof/Machine/Step.lean ====
section
/-!
DEFINITION. One step of the package, and the placing of an instruction where the next step fetches it (log 1, log 10).
-/

namespace Sys2Proof.Machine

/-- One step: the head of the schedule, or what moves without one (log 1). -/
noncomputable def step (s : State) : Host.Outcome State Fault Refusal :=
  match s.schedule with
  | m :: ms => { s with schedule := ms }.move m
  | [] => s.unscheduled

/-- `s` with an instruction at offset 0 of the acting core's instruction store and a running task of that core about to fetch it:
what an image load, a launch, its message, the dispatch and the task's selection lead to (log 10). -/
def State.withFetchWord (s : State) (nbits w : Nat) : State :=
  let g := groupOf s.core.num
  let t := s.core.task
  { s with
    schedule := [], turn := false, defer := false, actStream := 0, banks := []
    mem := { s.mem with imem := Tab.fill 0 s.mem.imem (g * 65536) (leBytes (nbits / 8) w ++ List.replicate (4 - nbits / 8) 0) }
    core := { s.core with
      running := true, dbg := {}, turn := {}
      task := { t with
        info := { t.info with carried := none, status := .running }
        spCount := 0
        ex := { t.ex with active := true, pc := 0, wait := none, reply := none, asks := false, kept := none, shared := none, under := none, refs := [], granted := [], early := [], due := 0 }
        ac := {} } } }

end Sys2Proof.Machine
end

