-- ==== Sys2Proof/Safety.lean ====
section
/-!
DEFINITION. The terms of the claims: when a stream begins an instruction, how an instruction that writes one x register
retires, what such an instruction leaves alone, and the canonical form of memory.
-/

namespace Sys2Proof.Machine

/-- The canonical form of every memory: rising addresses, nothing listed that an unlisted address reads as. -/
def Memory.wf (m : Memories) : Bool :=
  Tab.wf 0 m.main && Tab.wf 0 m.spm && Tab.wf 0 m.imem && Tab.wf always m.mainSide && Tab.wf always m.spmSide
    && Tab.wf 0 m.mainEcc && Tab.wf 0 m.spmEcc && Tab.wf false m.notLive

/-- The acting stream begins an instruction: no wait, answer or issued access is under way, no granule of it has performed early, fewer than
1,024 instructions have retired since the last safe point (R52), the core runs the task, and the code comes from the instruction store (R31). -/
structure State.Ready (s : State) : Prop where
  running : s.core.running = true
  wait : s.strm.wait = none
  reply : s.strm.reply = none
  asks : s.strm.asks = false
  under : s.strm.under = none
  count : s.task.spCount < 1024
  stored : s.task.info.carried = none

/-- The next state of an outcome, if it has one. -/
def outcome (o : Host.Outcome State Fault Refusal) : Option State :=
  match o with
  | .next t => some t
  | .fault _ => none
  | .refused _ => none

/-- Instruction `i` retires at `s` with result `d`; of the granules that its stream has read early, those stay that it may not disturb. -/
def Retires (i : Instr) (s : State) (len : Nat) (d : Done) : Prop :=
  exec i s = .next (s.retire len { d with st := d.st.passEarly s.pc i })

/-- Instruction `i` at `s` takes trap `t`. -/
def Traps (i : Instr) (s : State) (t : Trap) : Prop := exec i s = .next (s.takeTrap t)

/-- Instruction `i` retires at `s`, having written `v` with label Product(hs, DEP) to x[d] and nothing else; a write to x0
is discarded and forms no label (R63, R64, R208). -/
structure Writes (i : Instr) (s : State) (len : Nat) (d : BitVec 5) (v : Word) (hs : List Handle) : Prop where
  zero : d = 0 → Retires i s len { st := s }
  reg : d ≠ 0 → ∀ h s', s.prod (hs ++ [s.dep]) = .ok (h, s') → Retires i s len { st := s'.putX d ⟨v, h⟩ }

/-- Nothing of the acting core or stream is under way that an access could wait for: no store waits, no fence stands, no reduction is
queued, and nothing has been read early (R126, R129, R132, R149). -/
structure State.Quiet (s : State) : Prop where
  stores : s.waiting = []
  fences : s.strm.fences = []
  reductions : s.myReductions 7 = false
  early : s.strm.early = []

/-- Every label of the running task's frame can be formed, `n` new ones among them: the overflow policy drops, the table has room, and no
record is in error (R61, R75, R341, R353). -/
structure State.Forms (s : State) (n : Nat) : Prop where
  policy : (s.frameAt s.die s.task.frame).policy = false
  room : (s.frameAt s.die s.task.frame).next.toNat + n ≤ (s.frameAt s.die s.task.frame).cap.toNat
  clean : s.mem.mainEcc = []

/-- `n` bytes at byte address `ea` of the own scratchpad may be accessed: inside it, not labelled for another frame, and no atom
poisoned or marked (R95, R98, R349, R353). -/
structure State.OwnScratch (s : State) (ea n : Nat) : Prop where
  inside : ea + n ≤ 65536
  frame : s.core.regs.lab = true → s.core.regs.frm = s.task.frame
  clean : ∀ t ∈ atomsOf (s.core.num * 65536 + ea) n, Tab.get 0 s.mem.spmEcc t = 0

/-- The bytes from address `a` of a scratchpad. -/
def State.spmAt (s : State) (a n : Nat) : List Byte := (List.range n).map fun i => Tab.get 0 s.mem.spm (a + i)

/-- The labels of the atoms of a byte range of the acting core's scratchpad: their side handles under LAB = 1, ALWAYS
otherwise (R68, R98). -/
def State.spmLabels (s : State) (a n : Nat) : List Handle :=
  (atomsOf a n).map fun t => if s.core.regs.lab then Tab.get always s.mem.spmSide t else always

/-- The acting stream goes on with an instruction that another unit has answered with a value, its label and the DEP that the answer leaves
(R145, R149, R225). -/
structure State.Answered (s : State) (v : Word) (h d : Handle) : Prop where
  running : s.core.running = true
  reply : s.strm.reply = some (.value v h d)
  count : s.task.spCount < 1024
  stored : s.task.info.carried = none

/-- Address `a` names the sluice word at offset `off` of die `k`'s enabled spillway (R148, R250). -/
structure State.SluicePlace (s : State) (a : Word) (k off : Nat) : Prop where
  place : a.toNat = k * 2 ^ 32 + off
  die : k < 2
  small : off < 2 ^ 32
  aligned : off % 8 = 0
  enabled : (s.dieAt k).spill.getLsbD 0 = true
  inside : off < (bits (s.dieAt k).spill 8 12 + 1) * 2 ^ 20

/-- What the write of an atomic at byte address `a` of the own scratchpad leaves of `s`: under LAB = 1 the bytes `bs` and the bounded
Product of `hs` and DEP, or, where that is NEVER or finds the table full, SUPP alone; under LAB = 0 the bytes if the Product is visible, else
SUPP (R248, R341). -/
def AmoLeaves (s : State) (lab : Bool) (a : Nat) (bs : List Byte) (hs : List Handle) (t : State) : Prop :=
  let put := fun (x : State) (h : Handle) => { x with mem := { x.mem with
    spm := Tab.fill 0 x.mem.spm a bs, spmSide := Tab.put always x.mem.spmSide (a / 32) h } }
  if lab then ∃ y, s.records (hs ++ [s.dep]) = .ok y ∧
    ((∃ h z, y.product s.die s.task.frame true (hs ++ [s.dep]) = .ok (h, z) ∧ t = if h = never then y.supp else put z h)
      ∨ ∃ e, y.product s.die s.task.frame true (hs ++ [s.dep]) = .error e ∧ t = y.supp)
  else ∃ b y, s.judge hs = .ok (b, y) ∧ t = if b then put y always else y.supp

/-- The labels under which a store of the acting stream of value labels `hs` is issued into its own scratchpad, and the state: one formed
label under LAB = 1, else the labels of the Product unformed (R69, R70, R126). -/
def StoreLabels (s : State) (hs : List Handle) (t : State) (ls : List Handle) : Prop :=
  if s.core.regs.lab then ∃ p, s.prod (hs ++ [s.dep]) = .ok (p, t) ∧ ls = [p]
  else s.records (hs ++ [s.dep]) = .ok t ∧ ls = (hs ++ [s.dep]).filter fun l => decide (l ≠ always)

/-- The sluice word at `a` can be reached, and nothing stands before a request of the acting stream at its engine, which has served no other
in this cycle (R149, R150). -/
structure State.SluiceFree (s : State) (a : Word) (k off : Nat) : Prop where
  place : s.SluicePlace a k off
  link : k = s.die ∨ s.links.down.contains 0 = false
  idle : (s.dieAt k).sluiceq = []
  notWaiting : s.sluicePending = none
  unserved : s.sluiceServed k = none
  free : ∀ op, s.sluiceHeld k op = false
  clean : Tab.get 0 (s.dieAt k).wordEcc (off / 32) = 0

/-- Slot `j` passes the acting core's station in this cycle, and no ring action is outstanding, nor one taken at the passage that comes after
this stream's (R143, R144). -/
structure State.RingFree (s : State) (j : Nat) : Prop where
  die : s.die < 2
  kept : s.strm.kept = none
  passes : slotAt (station s.core.num) s.cycle = some j
  queue : s.ringq = []
  turn : s.ringLate s.self = false
  fences : s.strm.fences = []

/-- The encoding of an instruction as a dword; 0 for a step without one (R365). -/
def encWord (i : Instr) : Word := word ((encode i).getD (32, 0)).2

/-- The trap registers' value and detail that a cause of R365's first group carries: the encoding in dword 5. -/
def withEnc (i : Instr) (t : Trap) : Trap := { t with d5 := encWord i }

/-- Everything but the running task and the debug registers of the acting core is as before. -/
def Elsewhere (s t : State) : Prop := t = { s with core := { s.core with task := t.core.task, dbg := t.core.dbg } }

/-- What an instruction that writes x[d] and no other register leaves alone: other x registers, every other register of the
task, DEP, the other stream, the loops' places, and everything outside the task. -/
structure OnlyX (s t : State) (d : BitVec 5) : Prop where
  elsewhere : Elsewhere s t
  xs : ∀ r, r ≠ d → t.x r = s.x r
  task : t.task = { s.task with
    regs := { s.task.regs with x := t.task.regs.x }, spCount := t.task.spCount, ex := t.task.ex, ac := t.task.ac
    loops := { s.task.loops with lc0 := t.task.loops.lc0, lc1 := t.task.loops.lc1 } }
  strm : t.strm = { s.strm with
    pc := t.pc, wait := none, reply := none, asks := false, kept := none, shared := none, under := none, refs := [], granted := []
    early := t.strm.early }
  other : t.otherStrm = s.otherStrm

/-- Instruction `i` at `s` retires having written `v` to v[d] under Product(hs, DEP). -/
def VWrites (i : Instr) (s : State) (d : BitVec 5) (v : Lanes) (hs : List Handle) : Prop :=
  ∀ h s', s.prod (hs ++ [s.dep]) = .ok (h, s') → Retires i s 4 { st := s'.putV d ⟨v, h⟩ }

/-- Instruction `i` at `s` retires having written `v` to k[c] under Product(hs, DEP). -/
def KWrites (i : Instr) (s : State) (c : BitVec 2) (v : Word) (hs : List Handle) : Prop :=
  ∀ h s', s.prod (hs ++ [s.dep]) = .ok (h, s') → Retires i s 4 { st := s'.putK c ⟨v, h⟩ }

/-- Lane `i` of width `w`. -/
def lane (w : Nat) (x : Lanes) (i : Nat) : BitVec w := x.extractLsb' (w * i) w

/-- Instruction `i` at `s` gives each enabled lane of v[d] the value `f`, keeps the others, and labels v[d] as R265 says, from
the labels `hs` and the mask's. -/
def LaneWrites (i : Instr) (s : State) (d : BitVec 5) (w : Nat) (k : BitVec 2) (hs : List Handle) (f : Nat → BitVec w) : Prop :=
  let en := fun (j : Nat) => decide (k = 0) || (s.kreg k).val.getLsbD j
  let n := 512 / w
  let src := hs ++ (if k = 0 then [] else [s.kl k])
  ∃ v : Lanes, (∀ j, j < n → lane w v j = if en j then f j else lane w (s.v d).val j)
    ∧ VWrites i s d v (if (List.range n).all en then src else (s.v d).lbl :: src)

/-- Instruction `i` retires at `s` in state `fin x`, where `x` is `s₁` with the bytes `pairs` issued into the store buffer in
this order, as stores to scratchpads under the labels `ls`; no byte of any memory has changed. -/
def Issues (i : Instr) (s : State) (len : Nat) (s₁ : State) (fin : State → State) (pairs : List (Nat × Byte)) (ls : List Handle) :
    Prop :=
  ∃ es id, Retires i s len { st := fin { s₁ with nextId := id, core := { s₁.core with sb := s₁.core.sb ++ es } } }
    ∧ (es.flatMap fun e => (List.range e.bytes.length).zip e.bytes |>.map fun q => (e.addr + q.1, q.2)) = pairs
    ∧ ∀ e ∈ es, e.core = s.core.num ∧ e.space = .spm ∧ e.frame = s.task.frame ∧ e.ctx = s.task.ctx
        ∧ e.labelled = s.core.regs.lab ∧ e.lbls = ls

/-! ### The values of floating-point encodings (R79, R81), written from their fields over the real numbers -/

/-- The sign field S. -/
def Fmt.signOf (f : Fmt) (x : Nat) : Nat := x / 2 ^ (f.width - 1) % 2
/-- The exponent field E. -/
def Fmt.expOf (f : Fmt) (x : Nat) : Nat := x / 2 ^ f.fw % 2 ^ (f.width - 1 - f.fw)
/-- The fraction field F. -/
def Fmt.fracOf (f : Fmt) (x : Nat) : Nat := x % 2 ^ f.fw
/-- The all-ones exponent. -/
def Fmt.topExp (f : Fmt) : Nat := 2 ^ (f.width - 1 - f.fw) - 1

/-- An encoding of a NaN: the all-ones exponent with a fraction that is not zero, in E4M3 that is all ones (R79). -/
abbrev Fmt.NaN (f : Fmt) (x : Nat) : Prop :=
  f.expOf x = f.topExp ∧ if f.noInf then f.fracOf x = 2 ^ f.fw - 1 else f.fracOf x ≠ 0

/-- An encoding of an infinity (R79). -/
abbrev Fmt.Infinite (f : Fmt) (x : Nat) : Prop := f.noInf = false ∧ f.expOf x = f.topExp ∧ f.fracOf x = 0

/-- An encoding of a finite value. -/
def Fmt.Finite (f : Fmt) (x : Nat) : Prop := ¬f.NaN x ∧ ¬f.Infinite x

/-- The encoding with sign `n` of an infinity, of a zero, and the canonical NaN (R79). -/
def Fmt.infOf (f : Fmt) (n : Nat) : Nat := n * 2 ^ (f.width - 1) + f.topExp * 2 ^ f.fw
def Fmt.zeroOf (f : Fmt) (n : Nat) : Nat := n * 2 ^ (f.width - 1)
def Fmt.quietNaN (f : Fmt) : Nat := f.topExp * 2 ^ f.fw + if f.noInf then 2 ^ f.fw - 1 else 2 ^ (f.fw - 1)

/-- The real value of a finite encoding (R79). -/
noncomputable def Fmt.real (f : Fmt) (x : Nat) : ℝ :=
  (-1) ^ f.signOf x * if f.expOf x = 0 then (f.fracOf x : ℝ) / 2 ^ f.fw * 2 ^ (1 - (f.bias : Int))
    else (1 + (f.fracOf x : ℝ) / 2 ^ f.fw) * 2 ^ ((f.expOf x : Int) - f.bias)

/-- The extended real value of an encoding that is no NaN. -/
noncomputable def Fmt.ext (f : Fmt) (x : Nat) : EReal :=
  if f.expOf x = f.topExp ∧ f.noInf = false then (if f.signOf x = 1 then ⊥ else ⊤) else f.real x

/-- `r` encodes the finite value of the format that is nearest to the real `v`, which is not 0: of two equally near the one with the even
fraction; a zero has the sign of `v` (R81). -/
def Fmt.Nearest (f : Fmt) (v : ℝ) (r : Nat) : Prop :=
  r < 2 ^ f.width ∧ f.Finite r ∧ f.signOf r = (if v < 0 then 1 else 0)
  ∧ ∀ y, y < 2 ^ f.width → f.Finite y → |f.real r - v| ≤ |f.real y - v|
    ∧ (|f.real r - v| = |f.real y - v| → f.real r ≠ f.real y → f.fracOf r % 2 = 0)

/-- `r` is the real `v`, which is not 0, rounded to nearest even: a magnitude that rounds to the power of two past the largest finite value
gives an infinity (R81). -/
def Fmt.Rounded (f : Fmt) (v : ℝ) (r : Nat) : Prop :=
  if |v| < (2 - 2 ^ (-(f.fw + 1 : Int))) * 2 ^ ((f.topExp : Int) - 1 - f.bias) then f.Nearest v r
  else r = f.infOf (if v < 0 then 1 else 0)

/-- `r` is the exact result `v` of an operation rounded, where an exact zero has the sign `n` (R81). -/
def Fmt.Result (f : Fmt) (v : ℝ) (n r : Nat) : Prop := (v ≠ 0 → f.Rounded v r) ∧ (v = 0 → r = f.zeroOf n)

/-- The step `i` answers a next state of which `P` holds. -/
def Gives (i : Instr) (s : State) (P : State → Prop) : Prop := ∃ t, exec i s = .next t ∧ P t

/-- The acting stream waits, since a cycle, for what nothing has answered yet. -/
structure State.Waits (s : State) (k : WaitKind) (since : Nat) : Prop where
  running : s.core.running = true
  stream : s.actStream ≤ 1
  wait : s.strm.wait = some ⟨k, since⟩
  reply : s.strm.reply = none

/-- Channel `h` holds a request whose block, at physical address `pa`, reads `ws`: its code, no reserved bit, and arguments `used` to 5
zero; the firmware is loaded, no host write is still to perform before it starts, and what the request reads has no bit in error (R306, R307,
R310, R352). -/
structure State.Requested (s : State) (h pa : Nat) (ws : List Word) (code used : Nat) : Prop where
  busy : s.host.busy.getD h false = true
  loaded : s.host.phase ≠ 0
  behind : s.hostBehind h = false
  unmarked : ∀ t, s.mends .main t = false
  block : s.reqBlock h = some (pa, ws)
  code : bits (ws.headD 0) 56 8 = code
  reserved : bits (ws.headD 0) 48 8 = 0
  unused : ∀ i, used ≤ i → i < 6 → ws.getD (2 + i) 0 = 0

/-- The step `i` ends the request of channel `h`, with its block at `pa`, in state `y` with a status, a result and the DATA dwords (R306,
R307). -/
def EndsAsk (i : Instr) (h pa : Nat) (s : State) (status result : Nat) (data : List Word) (y : State) : Prop :=
  exec i s = .next (Answered.finish ⟨status, result, data, y⟩ h pa)

/-- Main memory is plain storage: no spillway is enabled, every unit is live, no atom carries an error mark, no line is owned
and no link is down. -/
structure State.PlainMain (s : State) : Prop where
  spill : ∀ p, s.inSpill 0 p = false ∧ s.inSpill 1 p = false
  live : s.mem.notLive = []
  clean : s.mem.mainEcc = []
  owned : ∀ l, s.owned l = false
  links : s.links.down = []

/-- Parked cores stand in rising order of their numbers, each under its own number, and the acting core is not among them. -/
structure State.Parked (s : State) : Prop where
  rising : s.parked.Pairwise fun p q => p.1 < q.1
  named : ∀ p ∈ s.parked, p.2.num = p.1
  apart : ∀ p ∈ s.parked, p.1 ≠ s.core.num

/-- The tables that other statements read in canonical form: the parked cores, the TLBs, and the firing counters of planes. -/
structure State.Tables (s : State) : Prop where
  parked : s.Parked
  tlb : Tab.wf (0, 0) s.tlb = true
  counters : ∀ g p, Tab.wf 0 (s.planeAt g p).counters = true

end Sys2Proof.Machine
end

