-- ==== Sys2Proof/Certificates/Slice0/Obligations.lean ====
section
/-!
DEFINITION. The statements for the provers, family by family.
-/

open Sys2Proof Sys2Proof.Machine

/-! ### Majors 0x01 to 0x07 -/

/-- R210 to R212, R214: the integer forms. -/
def Obligations.IntegerForms : Prop :=
  -- R210, the forms with two register operands. The values are written with Lean's own bit-vector arithmetic.
  (∀ (d r t : BitVec 5) (s : State), s.Ready →
     let a := s.xv r
     let b := s.xv t
     let n := b.toNat % 64
     ∀ p ∈ [
       (Instr.add d r t, a + b), (.sub d r t, a - b), (.xor d r t, a ^^^ b), (.andn d r t, a &&& ~~~b), (.orn d r t, a ||| ~~~b),
       (.xnor d r t, ~~~(a ^^^ b)), (.or d r t, a ||| b), (.and d r t, a &&& b),
       (.shl d r t, a <<< n), (.shr d r t, a >>> n), (.sar d r t, a.sshiftRight n),
       (.rotl d r t, a.rotateLeft n), (.rotr d r t, a.rotateRight n),
       (.cmplt d r t, if a.slt b then 1 else 0), (.cmpltu d r t, if a.ult b then 1 else 0), (.cmpeq d r t, if a = b then 1 else 0),
       (.min d r t, if a.slt b then a else b), (.max d r t, if a.slt b then b else a),
       (.minu d r t, if a.ult b then a else b), (.maxu d r t, if a.ult b then b else a),
       (.mul d r t, a * b),
       (.mulxSs d r t, (a.signExtend 128 * b.signExtend 128).extractLsb' 64 64),
       (.mulxUu d r t, (a.setWidth 128 * b.setWidth 128).extractLsb' 64 64),
       (.mulxSu d r t, (a.signExtend 128 * b.setWidth 128).extractLsb' 64 64),
       (.quot d r t, if b = 0 then 0 else a.sdiv b), (.quotu d r t, if b = 0 then 0 else a / b),
       (.remd d r t, if b = 0 then a else a.srem b), (.remdu d r t, if b = 0 then a else a % b)],
     Writes p.1 s 4 d p.2 [s.xl r, s.xl t])
  -- R210, the unary forms. Bit counts are written as searches and filters over the 64 bit numbers.
  ∧ (∀ (d r : BitVec 5) (s : State), s.Ready →
       let a := s.xv r
       ∀ p ∈ [
         (Instr.clz d r, word (((List.range 64).find? fun i => a.getLsbD (63 - i)).getD 64)),
         (.ctz d r, word (((List.range 64).find? fun i => a.getLsbD i).getD 64)),
         (.pop d r, word ((List.range 64).filter fun i => a.getLsbD i).length),
         (.sextB d r, (a.setWidth 8).signExtend 64), (.sextH d r, (a.setWidth 16).signExtend 64),
         (.sextW d r, (a.setWidth 32).signExtend 64),
         (.zextB d r, a &&& 0xFF), (.zextH d r, a &&& 0xFFFF), (.zextW d r, a &&& 0xFFFFFFFF),
         (.bswap d r, a.extractLsb' 0 8 ++ a.extractLsb' 8 8 ++ a.extractLsb' 16 8 ++ a.extractLsb' 24 8
           ++ a.extractLsb' 32 8 ++ a.extractLsb' 40 8 ++ a.extractLsb' 48 8 ++ a.extractLsb' 56 8),
         (.bitrev d r, a.reverse)],
       Writes p.1 s 4 d p.2 [s.xl r])
  -- R211 and R212: the immediate forms, `hiimm`, and `pcadd` of R214.
  ∧ (∀ (d r : BitVec 5) (i : BitVec 12) (n : BitVec 6) (u : BitVec 20) (s : State), s.Ready →
       let a := s.xv r
       let k : Word := i.signExtend 64
       (∀ p ∈ [
         (Instr.addi d r i, a + k), (.slli d r n, a <<< n.toNat), (.rotli d r n, a.rotateLeft n.toNat),
         (.cmplti d r i, if a.slt k then 1 else 0), (.cmpltiu d r i, if a.ult k then 1 else 0), (.xori d r i, a ^^^ k),
         (.srli d r n, a >>> n.toNat), (.srai d r n, a.sshiftRight n.toNat), (.rotri d r n, a.rotateRight n.toNat),
         (.ori d r i, a ||| k), (.andi d r i, a &&& k), (.pcadd d r i, a + k + BitVec.ofNat 64 s.pc - 4)],
         Writes p.1 s 4 d p.2 [s.xl r])
       ∧ Writes (.hiimm d u) s 4 d ((u ++ 0#12).signExtend 64) [])

/-- R206: the 16-bit register forms do what the forms they expand to do, in two bytes. -/
def Obligations.CompressedRegisterForms : Prop :=
  ∀ (d r : BitVec 5) (i : BitVec 6) (s : State), s.Ready →
    let a := s.xv d
    let b := s.xv r
    Writes (.cAddi d i) s 2 d (a + i.signExtend 64) [s.xl d]
    ∧ Writes (.cSet d i) s 2 d (i.signExtend 64) [s.xl 0]
    ∧ Writes (.cMv d r) s 2 d b [s.xl r]
    ∧ (∀ p ∈ [(Instr.cAdd d r, a + b), (.cSub d r, a - b), (.cAnd d r, a &&& b), (.cOr d r, a ||| b), (.cXor d r, a ^^^ b)],
        Writes p.1 s 2 d p.2 [s.xl d, s.xl r])
    ∧ Writes (.cSlli d i) s 2 d (a <<< i.toNat) [s.xl d]
    ∧ Writes (.cSrli d i) s 2 d (a >>> i.toNat) [s.xl d]

/-- R204, R206, R42: instructions that only advance the PC. -/
def Obligations.HintsAndAlignOnlyRetire : Prop :=
  -- R204 and R206: a hint and `c.nop` only retire.
  (∀ (h : BitVec 25) (s : State), s.Ready → Retires (.hint h) s 4 { st := s } ∧ Retires .cNop s 2 { st := s })
  -- R42: `align` completes at once in the access stream, and when no other core of the group runs a task of the launch.
  ∧ (∀ (n : BitVec 12) (s : State), s.Ready → s.actStream ≠ 0 ∨ s.peers = [] → Retires (.align n) s 4 { st := s })

/-- R213 to R215, R217: jumps, branches and setting up loops. -/
def Obligations.ControlFlow : Prop :=
  -- R213 and `c.jump`: the link, the target, and the instruction-fetch trap with the target in TRAPVAL.
  (∀ (d : BitVec 5) (o : BitVec 20) (c : BitVec 11) (s : State), s.Ready →
     let t : Int := s.pc + 2 * o.toInt
     let u : Int := s.pc + 2 * c.toInt
     (0 ≤ t ∧ t ≤ 0xFFFE →
       (d = 0 → Retires (.jump d o) s 4 { st := s, ctl := .jump t.toNat })
       ∧ (d ≠ 0 → ∀ h s', s.prod [s.dep] = .ok (h, s') →
           Retires (.jump d o) s 4 { st := s'.putX d ⟨BitVec.ofNat 64 (s.pc + 4), h⟩, ctl := .jump t.toNat }))
     ∧ (t < 0 ∨ 0xFFFE < t → Traps (.jump d o) s (withEnc (.jump d o) { cause := 0x02, val := BitVec.ofInt 64 t }))
     ∧ (0 ≤ u ∧ u ≤ 0xFFFE → Retires (.cJump c) s 2 { st := s, ctl := .jump u.toNat })
     ∧ (u < 0 ∨ 0xFFFE < u → Traps (.cJump c) s (withEnc (.cJump c) { cause := 0x02, val := BitVec.ofInt 64 u })))
  -- R214: `jr` checks its target, folds the label of x[rs] into DEP, and writes the link under the folded DEP.
  ∧ (∀ (d r : BitVec 5) (i : BitVec 12) (s : State), s.Ready →
       let t : Word := s.xv r + i.signExtend 64
       (t.getLsbD 0 = false ∧ t.toNat ≤ 0xFFFE → ∀ s₁, s.fold [s.xl r] = .ok s₁ →
         (d = 0 → Retires (.jr d r i) s 4 { st := s₁, ctl := .jump t.toNat })
         ∧ (d ≠ 0 → ∀ h s₂, s₁.prod [s₁.dep] = .ok (h, s₂) →
             Retires (.jr d r i) s 4 { st := s₂.putX d ⟨BitVec.ofNat 64 (s.pc + 4), h⟩, ctl := .jump t.toNat }))
       ∧ (t.getLsbD 0 = true ∨ 0xFFFE < t.toNat → Traps (.jr d r i) s (withEnc (.jr d r i) { cause := 0x02, val := t })))
  -- R215 and the compressed branches: both labels fold into DEP whether the branch is taken or not; only a taken branch
  -- checks its target.
  ∧ (∀ (r t : BitVec 5) (o : BitVec 12) (q : BitVec 3) (c : BitVec 8) (s : State), s.Ready →
       let a := s.xv r
       let b := s.xv t
       let x := s.xv (creg q)
       let g : Int := s.pc + 2 * o.toInt
       let e : Int := s.pc + 2 * c.toInt
       ∀ p ∈ [
         (Instr.beq t r o, 4, decide (a = b), g, [s.xl r, s.xl t]), (.bne t r o, 4, decide (a ≠ b), g, [s.xl r, s.xl t]),
         (.blt t r o, 4, a.slt b, g, [s.xl r, s.xl t]), (.bge t r o, 4, b.sle a, g, [s.xl r, s.xl t]),
         (.bltu t r o, 4, a.ult b, g, [s.xl r, s.xl t]), (.bgeu t r o, 4, b.ule a, g, [s.xl r, s.xl t]),
         (.cBz q c, 2, decide (x = 0), e, [s.xl (creg q), always]), (.cBnz q c, 2, decide (x ≠ 0), e, [s.xl (creg q), always])],
       (p.2.2.1 = true ∧ (p.2.2.2.1 < 0 ∨ 0xFFFE < p.2.2.2.1) →
           Traps p.1 s (withEnc p.1 { cause := 0x02, val := BitVec.ofInt 64 p.2.2.2.1 }))
       ∧ ∀ s', s.fold p.2.2.2.2 = .ok s' →
           (p.2.2.1 = false → Retires p.1 s p.2.1 { st := s' })
           ∧ (p.2.2.1 = true ∧ 0 ≤ p.2.2.2.1 ∧ p.2.2.2.1 ≤ 0xFFFE →
               Retires p.1 s p.2.1 { st := s', ctl := .jump p.2.2.2.1.toNat }))
  -- R217: the set-up of a hardware loop by the execute stream, its traps, and `loop.clr`.
  ∧ (∀ (l : BitVec 1) (r n : BitVec 5) (o : BitVec 12) (s : State), s.Ready → s.actStream = 0 →
       let le : Int := s.pc + 2 * o.toInt
       let put := fun (x : State) (c : Word) => x.modLoops fun k =>
         if l = 0 then { k with lb0 := BitVec.ofNat 16 (s.pc + 4), le0 := BitVec.ofNat 16 le.toNat, lc0 := c }
         else { k with lb1 := BitVec.ofNat 16 (s.pc + 4), le1 := BitVec.ofNat 16 le.toNat, lc1 := c }
       let ctl := fun (c : Word) => if c = 0 then Ctl.jump (le.toNat + s.lenAt le.toNat) else .next
       (s.pc + 4 ≤ le ∧ le ≤ 0xFFFE →
         (∀ s', s.fold [s.xl r] = .ok s' → Retires (.loop l r o) s 4 { st := put s' (s.xv r), ctl := ctl (s.xv r) })
         ∧ Retires (.loopi l n o) s 4 { st := put s (n.setWidth 64), ctl := ctl (n.setWidth 64) })
       ∧ (∀ i ∈ [Instr.loop l r o, .loopi l n o],
           (le < s.pc + 4 → Traps i s (withEnc i { cause := 0x09, val := BitVec.ofInt 64 le, d6 := word s.pc }))
           ∧ (s.pc + 4 ≤ le ∧ 0xFFFE < le → Traps i s (withEnc i { cause := 0x02, val := BitVec.ofInt 64 le })))
       ∧ Retires (.loopClr l) s 4 { st := s.modLoops fun k => if l = 0 then { k with lc0 := 0 } else { k with lc1 := 0 } })

/-- R219, R221, R364: `fork.a`, and the forms that only the execute stream may run. -/
def Obligations.ForkAndExecuteStreamForms : Prop :=
  -- R221: `fork.a` starts the access stream at its target with the execute stream's DEP, from the next cycle on.
  (∀ (o : BitVec 12) (s : State), s.Ready → s.actStream = 0 →
     let t : Int := s.pc + 2 * o.toInt
     (s.task.ac.active = true → Traps (.forkA o) s { cause := 0x1D, val := encWord (.forkA o) })
     ∧ (s.task.ac.active = false → 0 ≤ t ∧ t ≤ 0xFFFE → Retires (.forkA o) s 4
         { st := s.modTask fun k => { k with ac := { active := true, pc := t.toNat, dep := k.ex.dep, due := s.cycle + 1 } } })
     ∧ (s.task.ac.active = false → t < 0 ∨ 0xFFFE < t →
         Traps (.forkA o) s (withEnc (.forkA o) { cause := 0x02, val := BitVec.ofInt 64 t })))
  -- R219, R364: a form of the execute stream alone traps as stream misuse in the access stream.
  ∧ (∀ (l : BitVec 1) (r n : BitVec 5) (o : BitVec 12) (s : State), s.Ready → s.actStream = 1 →
       ∀ i ∈ [Instr.loop l r o, .loopi l n o, .loopClr l, .forkA o, .safept r],
         Traps i s { cause := 0x1D, val := encWord i })

/-! ### Majors 0x08 to 0x0B -/

/-- R38, R40, R200, R222, R364, R367: the queues between a task's streams. -/
def Obligations.QueueForms : Prop :=
  -- R38, R200, R222: the four queues by number, writing stream, depth, and contents.
  (∀ (d r : BitVec 5) (s : State), s.Ready →
     ∀ p ∈ [
       (0#2, 1, 8, s.task.queues.ldq, fun (k : Queues) l => { k with ldq := l }),
       (1#2, 0, 8, s.task.queues.stq, fun k l => { k with stq := l }),
       (2#2, 1, 4, s.task.queues.bqa, fun k l => { k with bqa := l }),
       (3#2, 0, 4, s.task.queues.bqx, fun k l => { k with bqx := l })],
     let q := p.1
     let w := p.2.1
     let l := p.2.2.2.1
     let put := fun (x : State) (m : List XReg) => x.modTask fun k => { k with queues := p.2.2.2.2 k.queues m }
     -- q.put joins the tail with Product(label(x[rs]), DEP)
     (s.actStream = w → s.otherStrm.active = true → l.length < p.2.2.1 → ∀ h s', s.prod [s.xl r, s.dep] = .ok (h, s') →
       Retires (.qPut r q) s 4 { st := (put s' (l ++ [⟨s.xv r, h⟩])).stirOther })
     -- q.get takes the head; a branch outcome folds its label first
     ∧ (∀ e m, s.actStream ≠ w → l = e :: m →
         (q.toNat < 2 → ∀ s', (put s m).writeX d e.val [e.lbl] = .ok s' → Retires (.qGet d q) s 4 { st := s'.stirOther })
         ∧ (2 ≤ q.toNat → ∀ s₁ s', (put s m).fold [e.lbl] = .ok s₁ → s₁.writeX d e.val [e.lbl] = .ok s' →
             Retires (.qGet d q) s 4 { st := s'.stirOther }))
     ∧ Writes (.qCnt d q) s 4 d (word l.length) [])
  -- R40, R222, R364, R367: queue misuse, and the deadlock of two queue waits.
  ∧ (∀ (d r : BitVec 5) (q : BitVec 2) (s : State), s.Ready →
       let n := s.task.queues.counts
       let l := s.task.queues.get q
       let writer := if q.toNat % 2 = 0 then 1 else 0
       let depth := if q.toNat < 2 then 8 else 4
       let other := s.otherStrm
       (s.actStream ≠ writer ∨ other.active = false → Traps (.qPut r q) s { cause := 0x1E, val := n })
       ∧ (s.actStream = writer ∨ (l = [] ∧ other.active = false) → Traps (.qGet d q) s { cause := 0x1E, val := n })
       ∧ (s.actStream = 0 → other.active = true → other.reply = none → (∃ c, other.wait = some ⟨.queue, c⟩) →
           (writer = 0 ∧ depth ≤ l.length → Traps (.qPut r q) s { cause := 0x1F, val := n })
           ∧ (writer = 1 ∧ l = [] → Traps (.qGet d q) s { cause := 0x1F, val := n })))

/-- R26, R27, R71, R223, R225: sending messages and stream ports. -/
def Obligations.SendAndStreamPorts : Prop :=
  -- R26, R27, R71, R223: `msg.send` to a core of the same die carries the Product of the labels; to the other die it is
  -- sent unlabelled where that Product is visible. Nothing is sent under NEVER or unseen, and SUPP is set.
  (∀ (r t : BitVec 5) (s : State), s.Ready →
     let h := s.xv r
     let n := bits h 25 3
     let dest := bits h 51 13
     let regs := (List.range n).map fun i => s.x (regOff t i)
     let ls := s.xl r :: regs.map (·.lbl)
     let msg := fun (l : Handle) => ({
       hdr := header dest s.core.num (bits h 32 6) (bits h 28 4) n false s.task.frame l
       payload := payload7 (regs.map (·.val)) } : Msg)
     (0x1048 ≤ dest → Traps (.msgSend r t) s (withEnc (.msgSend r t) { cause := 0x08, val := h }))
     ∧ (dest < 0x1048 → 0 < n → 31 < t.toNat + n - 1 →
         Traps (.msgSend r t) s (withEnc (.msgSend r t) { cause := 0x08, val := h, d6 := 1 }))
     ∧ (dest < 0x1048 → n = 0 ∨ t.toNat + n - 1 ≤ 31 → s.heldIn (sendScope s.core.num dest) = false →
         (dieOf dest = s.die → ∀ l s', s.prod (ls ++ [s.dep]) = .ok (l, s') →
           (l = never → Retires (.msgSend r t) s 4 { st := s.supp })
           ∧ (l ≠ never → Retires (.msgSend r t) s 4 { st := { s' with channels := s'.channels ++ [msg l] } }))
         ∧ (dieOf dest ≠ s.die → ∀ b s', s.judge ls = .ok (b, s') →
             (b = true → Retires (.msgSend r t) s 4 { st := { s' with channels := s'.channels ++ [msg always] } })
             ∧ (b = false → Retires (.msgSend r t) s 4 { st := s'.supp }))))
  -- R225: opening a stream port, putting words, and closing on the acknowledgement.
  ∧ (∀ (d r t : BitVec 5) (s : State), s.task.spCount < 1024 → s.task.info.carried = none → s.task.moot = false →
       let a := s.xv r
       let w := s.xv t
       (s.strm.reply = none → s.strm.port = none → w.toNat < 65536 → 0x10000000 ≤ a.toNat → a.toNat < 0x20000000 →
         a.toNat % 8 = 0 → ∀ s', s.fold [s.xl r, s.xl t] = .ok s' →
         ∃ x, Retires (.spOpen r t) s 4 { st := x }
           ∧ x.strm.port = some { id := s'.nextId, base := a, hv := w.getLsbD 15, handler := bits w 0 15 * 2, put := 0 }
           ∧ ∃ tr, x.transfers = s'.transfers ++ [tr] ∧ tr.id = s'.nextId ∧ tr.who = s.self
               ∧ tr.base = a.toNat - 0x10000000 ∧ tr.words = [] ∧ tr.closed = false)
       -- A word carries one interned label to a labelled scratchpad of the own die, the labels of its Product elsewhere; it waits while the
       -- route takes no more.
       ∧ (s.strm.reply = none → ∀ p, s.strm.port = some p →
           let owner := (p.base.toNat - 0x10000000) / 65536
           let put := fun (x : State) (ls : List Handle) =>
             (x.modTransfer p.id fun k => { k with words := k.words ++ [(⟨s.xv r, ls, s.task.ctx⟩ : PortWord)] }).modStrm
               fun k => { k with port := some { p with put := p.put + 1 } }
           (s.routeAccepts p.id = true →
             (dieOf owner = s.die → (s.coreAt owner).regs.lab = true → ∀ h s', s.prod [s.xl r, s.dep] = .ok (h, s') →
               Retires (.spPut r) s 4 { st := put s' [h] })
             ∧ (dieOf owner ≠ s.die ∨ (s.coreAt owner).regs.lab = false →
               Retires (.spPut r) s 4 { st := put s ([s.xl r, s.dep].filter fun h => decide (h ≠ always)) }))
           ∧ (s.routeAccepts p.id = false → exec (.spPut r) s = .next (s.await .port))
           ∧ exec (.spClose d) s = .next ((s.modTransfer p.id fun k => { k with closed := true }).await .port))
       ∧ (∀ p n l e s', s.strm.port = some p → s.strm.reply = some (.value n l e) → s.writeX d n [] = .ok s' →
           Retires (.spClose d) s 4 { st := s'.modStrm fun k => { k with port := none } })
       ∧ (s.strm.reply = none → s.strm.port = none → ∀ i ∈ [Instr.spPut r, .spClose d], Traps i s { cause := 0x1D, val := encWord i }))

/-- R37, R51, R52, R134, R227, R228: the ends of streams and tasks, and safe points. That entries left in a queue trap before an open port
does is the model's choice (log 25: R227 against R363). -/
def Obligations.TaskEndsAndSafePoints : Prop :=
  -- R227, R134, R329: `task.end` ends the access stream, or the task once the access stream has ended, the queues are empty and
  -- its stores have performed; in a handler of the access stream it ends the task. Both spellings do.
  (∀ (s : State), s.Ready → ∀ p ∈ [(Instr.taskEnd, 4), (.cTaskEnd, 2)],
     let handler := s.core.regs.act = true ∧ s.core.regs.trapStream = true
     let last := (s.actStream = 0 ∧ s.task.ac.active = false) ∨ (s.actStream = 1 ∧ handler)
     (s.actStream = 1 → ¬handler → s.strm.port = none → Retires p.1 s p.2 {
       st := (s.stirOther.modStrm fun x => { x with
           active := false, wait := none, reply := none, asks := false, kept := none, shared := none, under := none, refs := [], granted := [] }).modTask fun t => { t with
         info := { t.info with dead := s.task.moot }, spCount := Nat.min (t.spCount + 1) 1024 }
       ctl := .stay })
     ∧ (last → s.task.moot = false → s.strm.port = none → s.task.queues.some = false →
         s.storesLeft s.core.num s.task.info.uid = false →
         Retires p.1 s p.2 { st := s.gangPass.endTask s.core.num s.task.info.uid, ctl := .stay })
     ∧ (last → s.task.moot = false → s.task.queues.some = true → Traps p.1 s { cause := 0x1E, val := s.task.queues.counts })
     ∧ (s.strm.port ≠ none → (s.actStream = 1 ∧ ¬handler) ∨ (last ∧ s.task.moot = false ∧ s.task.queues.some = false) →
         Traps p.1 s { cause := 0x1D, val := encWord p.1 }))
  -- R51, R228: a safe point that finds nothing due restarts the count of R52 and keeps its own address.
  ∧ (∀ (r : BitVec 5) (s : State), s.Ready → s.actStream = 0 → s.task.moot = false → s.task.ex.port = none →
       s.task.ac.active = false → s.task.ac.port = none → (s.groupAt (groupOf s.core.num)).flight = none →
       s.task.queues.some = false → s.core.due = false →
       Retires (.safept r) s 4 { st := s.modTask fun k => { k with spCount := 0, lastSafept := some s.pc }, counts := 0 })
  -- R37, R51, R228: a safe point that finds a pre-emption due saves the x registers that the live mask names and x26 to
  -- x31, and gives up the core to the ready task.
  ∧ (∀ (r : BitVec 5) (s : State), s.Ready → s.actStream = 0 → s.task.moot = false → s.task.ex.port = none →
       s.task.ac.active = false → s.task.ac.port = none → (s.groupAt (groupOf s.core.num)).flight = none →
       s.task.queues.some = false → s.core.due = true → s.core.regs.act = false → s.core.dbg.stepping = false →
       s.pc ≠ s.task.loops.le0.toNat → s.pc ≠ s.task.loops.le1.toNat →
       let live := if r = 0 then 0x3FFFFFE else (s.xv r).toNat % 2 ^ 26
       ∃ t k, exec (.safept r) s = .next t ∧ t.core.running = false
         ∧ Tab.get {} t.core.slots s.task.info.slot = k
         ∧ k.ex.pc = s.pc + 4 ∧ k.spCount = 0 ∧ k.info.status = .ready ∧ k.loops = s.task.loops
         ∧ (∀ i : Fin 32, k.regs.x[i] = if 26 ≤ i.val ∨ (1 ≤ i.val ∧ live.testBit i.val = true) then s.task.regs.x[i] else {})
         ∧ t.mem = s.mem ∧ t.core.regs = s.core.regs)

/-- R230 to R234: what `srd` reads of each state register. -/
def Obligations.StateRegisterReads : Prop :=
  ∀ (d : BitVec 5) (s : State), s.Ready →
    let t := s.task
    let k := s.core.regs
    let b := fun (c : Bool) (n : Nat) => if c then 2 ^ n else 0
    (∀ p ∈ [
      (0x000#12, t.ctx), (0x001#12, s.strm.dep.setWidth 64), (0x002#12, t.frame.setWidth 64),
      (0x003#12, word (b t.priv 9 + b (decide (s.actStream ≠ 0)) 8 + t.info.slot)), (0x004#12, t.msg),
      (0x005#12, t.prio.setWidth 64), (0x006#12, word (k.c0r.toNat * 256 + k.limit)), (0x007#12, word (b t.supp 0)),
      (0x008#12, word (k.trapPc.toNat / 2 * 2)), (0x009#12, word (b k.act 17 + b k.trapStream 16 + k.cause.toNat)),
      (0x00A#12, k.trapVal), (0x00B#12, word (k.tvec.toNat / 2 * 2)), (0x00C#12, word s.cycle),
      (0x00D#12, s.phase.setWidth 64), (0x00E#12, (s.frameAt s.die t.frame).status), (0x00F#12, word s.core.num),
      (0x020#12, t.loops.lb0.setWidth 64), (0x021#12, t.loops.le0.setWidth 64), (0x022#12, t.loops.lc0),
      (0x023#12, t.loops.lb1.setWidth 64), (0x024#12, t.loops.le1.setWidth 64), (0x025#12, t.loops.lc1),
      (0x030#12, word t.spCount), (0x040#12, k.win[0]), (0x041#12, k.win[1]), (0x042#12, k.win[2]), (0x043#12, k.win[3]),
      (0x044#12, word (b k.lab 8 + k.frm.toNat)),
      (0x048#12, t.regs.acc[0].status), (0x049#12, t.regs.acc[1].status), (0x04A#12, t.regs.acc[2].status),
      (0x04B#12, t.regs.acc[3].status)],
      Writes (.srd d p.1) s 4 d p.2 [])
    ∧ (∀ n : Nat, n < 8 → Writes (.srd d (BitVec.ofNat 12 (0x050 + n))) s 4 d
        (s.planeAt (groupOf s.core.num) n).status [])
    ∧ (∀ n : Nat, 1 ≤ n → n < 64 →
        let e := Tab.get {} k.rout n
        Writes (.srd d (BitVec.ofNat 12 (0x100 + 2 * n))) s 4 d
          (word (b e.v 63 + e.entry.toNat * 2 ^ 48 + e.frame.toNat * 2 ^ 40 + b e.attested 39)) []
        ∧ Writes (.srd d (BitVec.ofNat 12 (0x101 + 2 * n))) s 4 d e.ctx [])

/-- R28, R66, R101, R130, R229 to R234, R319, R329: what `swr` does to every state register. That the loop registers and a set ACT are written
after the loop-back of that retirement is the model's choice (log 55), and so is what becomes of STREAM (log 19). -/
def Obligations.StateRegisterAllWrites : Prop :=
  -- R66: `swr` of DEP folds the named handle and the source's label, `swr` of CTX folds the source's label.
  (∀ (r : BitVec 5) (s : State), s.Ready →
     let v := s.xv r
     let named := v.toNat = 0 ∨ v.toNat = 0xFFFF ∨ v.toNat < (s.frameAt s.die s.task.frame).next.toNat
     (v.toNat < 65536 ∧ named → ∀ s', s.fold [v.setWidth 16, s.xl r] = .ok s' → Retires (.swr r 0x001) s 4 { st := s' })
     ∧ (¬(v.toNat < 65536 ∧ named) → Traps (.swr r 0x001) s { cause := 0x19, val := v, d5 := word s.task.frame.toNat })
     ∧ (∀ s', s.fold [s.xl r] = .ok s' → Retires (.swr r 0x000) s 4 { st := s'.modTask fun k => { k with ctx := v } }))
  -- R229 to R234, R329: what `swr` leaves in each other state register when the source's label is visible in CTX, that it
  -- only sets SUPP when it is not, and that TVEC and the routine table need a privileged task. RQLIM, the windows and SPFRAME get their value at
  -- the end of the cycle (R35, R101, R130). The test reads label records, which may correct one (R352).
  ∧ (∀ (r : BitVec 5) (s : State), s.Ready → s.mine = [] → s.myReductions 7 = false →
       let v := s.xv r
       let even : BitVec 16 := BitVec.ofNat 16 (v.toNat % 65536 / 2 * 2)
       (∀ y, s.judge [s.xl r] = .ok (true, y) →
         (∀ p ∈ [
           (0x007#12, if v.getLsbD 0 then y.modTask fun k => { k with supp := false } else y),
           (0x008#12, y.modRegs fun k => { k with trapPc := even }), (0x00A#12, y),
           (0x002#12, y), (0x003#12, y), (0x004#12, y), (0x005#12, y), (0x00C#12, y), (0x00D#12, y), (0x00E#12, y),
           (0x00F#12, y), (0x030#12, y), (0x050#12, y), (0x051#12, y), (0x052#12, y), (0x053#12, y), (0x054#12, y), (0x055#12, y),
           (0x056#12, y), (0x057#12, y)],
           Retires (.swr r p.1) s 4 { st := p.2 })
         -- The write waits for the end of the cycle, which leaves these values.
         ∧ (∀ p ∈ [
           (0x006#12, fun k : CoreRegs => { k with
             c0r := BitVec.ofNat 6 (v.toNat / 256), limit := if v.toNat % 32 = 0 then 1 else Nat.min (v.toNat % 32) 16 }),
           (0x040#12, fun k => { k with win := k.win.set 0 (v &&& 0x87F00000003FFFFF) }),
           (0x041#12, fun k => { k with win := k.win.set 1 (v &&& 0x87F00000003FFFFF) }),
           (0x042#12, fun k => { k with win := k.win.set 2 (v &&& 0x87F00000003FFFFF) }),
           (0x043#12, fun k => { k with win := k.win.set 3 (v &&& 0x87F00000003FFFFF) }),
           (0x044#12, fun k => { k with lab := v.getLsbD 8, frm := v.setWidth 8 })],
           Retires (.swr r p.1) s 4 { st := y.modRegs fun k => { k with late := k.late ++ [(p.1.toNat, v)] } }
             ∧ ∀ k : Core, k.regs.late = [(p.1.toNat, v)] → k.landed true = { k with regs := p.2 { k.regs with late := [] } }
               ∧ k.landed false = k)
         -- R35, R218, R229: the write of a loop register lands after the loop-back of the `swr`'s own retirement.
         ∧ (∀ p ∈ [
           (0x020#12, fun k : Loops => { k with lb0 := even }), (0x021#12, fun k => { k with le0 := even }),
           (0x022#12, fun k => { k with lc0 := v }), (0x023#12, fun k => { k with lb1 := even }),
           (0x024#12, fun k => { k with le1 := even }), (0x025#12, fun k => { k with lc1 := v })],
           Retires (.swr r p.1) s 4 { st := y, after := fun x => x.modLoops p.2 })
         ∧ (∀ n : Fin 4, Retires (.swr r (BitVec.ofNat 12 (0x048 + n.val))) s 4 {
             st := if v.getLsbD 5 then y.modTask fun k => { k with regs := { k.regs with
                     acc := k.regs.acc.set n.val { k.regs.acc[n] with sat := false } } } else y })
         ∧ (s.task.priv = true → Retires (.swr r 0x00B) s 4 { st := y.modRegs fun k => { k with tvec := even } })
         ∧ (v.getLsbD 17 = true → Retires (.swr r 0x009) s 4 { st := y, after := fun x => x.modRegs fun k => { k with act := true } })
         ∧ (v.getLsbD 17 = false → y.core.regs.act = true → Retires (.swr r 0x009) s 4 {
             st := y.modRegs fun k => { k with act := false }, ctl := .jump (y.core.regs.trapPc.toNat / 2 * 2)
             after := if y.core.regs.cause = 0x20 then fun x => x.modTask fun t => { t with spCount := 0 } else id })
         ∧ (v.getLsbD 17 = false → y.core.regs.act = false → Retires (.swr r 0x009) s 4 { st := y }))
       ∧ (∀ y, s.judge [s.xl r] = .ok (false, y) → ∀ n ∈ [0x006#12, 0x007#12, 0x008#12, 0x009#12, 0x022#12, 0x025#12, 0x040#12, 0x044#12, 0x048#12],
           Retires (.swr r n) s 4 { st := y.supp })
       ∧ (s.task.priv = false → ∀ n ∈ [0x00B#12, 0x102#12, 0x103#12, 0x17E#12, 0x17F#12],
           Traps (.swr r n) s { cause := 0x04, val := encWord (.swr r n), d5 := encWord (.swr r n) }))
  -- R28, R229, R319: a privileged task's write of a routine-table entry; dword 0 leaves ATTESTED clear.
  ∧ (∀ (r : BitVec 5) (n : Nat) (s : State), s.Ready → s.task.priv = true → 1 ≤ n → n < 64 →
     ∀ y, s.judge [s.xl r] = .ok (true, y) →
       let v := s.xv r
       let e := Tab.get {} y.core.regs.rout n
       let put := fun (x : Routine) => y.modRegs fun k => { k with rout := Tab.put {} k.rout n x }
       Retires (.swr r (BitVec.ofNat 12 (0x100 + 2 * n))) s 4 {
         st := put { v := v.getLsbD 63, entry := BitVec.ofNat 15 (v.toNat / 2 ^ 48), frame := BitVec.ofNat 8 (v.toNat / 2 ^ 40)
                     attested := false, ctx := e.ctx } }
       ∧ Retires (.swr r (BitVec.ofNat 12 (0x101 + 2 * n))) s 4 { st := put { e with ctx := v } })

/-- R111, R116, R235, R236: translation entries, and `phase`. -/
def Obligations.TranslationAndPhaseForms : Prop :=
  -- R116, R236: a translation service core writes and invalidates TLB entries of its super-group's tiles; anyone else
  -- traps as privileged, an index outside as ill formed.
  (∀ (d r t : BitVec 5) (s : State), s.Ready →
     let may := s.task.priv = true ∧ 0x1000 ≤ s.core.num ∧ s.core.num < 0x1040
     let i := (s.xv d).toNat
     let w := (s.xv t).toNat
     (¬may → ∀ j ∈ [Instr.tlbW d r t, .tlbInv r t], Traps j s { cause := 0x04, val := encWord j, d5 := encWord j })
     ∧ (may → i < 2 ^ 18 → i / 2 ^ 12 = s.core.num - 0x1000 →
         ∀ b y, s.judge [s.xl d, s.xl r, s.xl t] = .ok (b, y) →
         (b = true → Retires (.tlbW d r t) s 4 {
           st := ({ y with tlb := Tab.put (0, 0) y.tlb i (s.xv r &&& 0x0000FFFFFFFF0001, s.xv t &&& 0xFFFFF0FFFFFFFFFE) } : State).forgetRefs (i / 256) })
         ∧ (b = false → Retires (.tlbW d r t) s 4 { st := y.supp }))
     ∧ (may → 2 ^ 18 ≤ i ∨ i / 2 ^ 12 ≠ s.core.num - 0x1000 →
         Traps (.tlbW d r t) s (withEnc (.tlbW d r t) { cause := 0x07, val := s.xv d, d6 := 3 }))
     -- The matching entries of the tile go; every other entry, of this tile or of another, stays as it was.
     ∧ (may → w < 2 ^ 10 → w / 16 = s.core.num - 0x1000 → ∀ y, s.judge [s.xl r, s.xl t] = .ok (true, y) →
         y.inbound = [] → y.core.sb = [] → y.ringq = [] → (∀ p ∈ y.engines, p.2.queue = []) → (∀ p ∈ y.parked, p.2.sb = []) → y.strm.fences = [] →
         (∀ v, y.farThrough w v (s.xv r).toNat = false) →
         ∃ x, Retires (.tlbInv r t) s 4 { st := x } ∧ x.mem = y.mem ∧ x.task.regs = y.task.regs
           ∧ (Tab.wf (0, 0) y.tlb = true → ∀ k,
               let e := Tab.get (0, 0) y.tlb k
               if k / 256 = w ∧ tlbMatch e.1 e.2 (s.xv r).toNat = true then (Tab.get (0, 0) x.tlb k).1.getLsbD 0 = false
               else Tab.get (0, 0) x.tlb k = e))
     ∧ (may → w < 2 ^ 10 → w / 16 = s.core.num - 0x1000 → ∀ y, s.judge [s.xl r, s.xl t] = .ok (false, y) →
         Retires (.tlbInv r t) s 4 { st := y.supp })
     ∧ (may → 2 ^ 10 ≤ w ∨ w / 16 ≠ s.core.num - 0x1000 →
         Traps (.tlbInv r t) s (withEnc (.tlbInv r t) { cause := 0x07, val := s.xv t, d6 := 2 })))
  -- R111, R235: `phase` adds one to PHASE and stops at its largest value.
  ∧ (∀ (s : State), s.Ready →
       ∃ t, exec .phase s = .next t ∧ t.phase.toNat = Nat.min (s.phase.toNat + 1) (2 ^ 32 - 1) ∧ t.mem = s.mem
         ∧ t.task.regs = s.task.regs ∧ t.core.regs = s.core.regs)

/-! ### Majors 0x0C to 0x0F -/

/-- R127, R239, R240: the scalar loads. -/
def Obligations.ScalarLoads : Prop :=
  -- R239, R240: a load of the own scratchpad reads its bytes least significant first, sign- or zero-extends them, folds the
  -- base's label into DEP, and labels the result with the atoms' labels.
  (∀ (d r : BitVec 5) (i : BitVec 12) (cd cr : BitVec 3) (o : BitVec 5) (s : State), s.Ready → s.Quiet →
     let ea := (s.xv r + i.signExtend 64).toNat
     let base := (s.xv (creg cr)).toNat
     ∀ p ∈ [
       (Instr.ldB d r i, 4, 1, true, d, r, ea), (.ldH d r i, 4, 2, true, d, r, ea), (.ldW d r i, 4, 4, true, d, r, ea),
       (.ldD d r i, 4, 8, false, d, r, ea), (.ldBu d r i, 4, 1, false, d, r, ea), (.ldHu d r i, 4, 2, false, d, r, ea),
       (.ldWu d r i, 4, 4, false, d, r, ea),
       (.cLdD cd cr o, 2, 8, false, creg cd, creg cr, (base + 8 * o.toNat) % 2 ^ 64),
       (.cLdW cd cr o, 2, 4, true, creg cd, creg cr, (base + 4 * o.toNat) % 2 ^ 64)],
     let n := p.2.2.1
     let at' := s.core.num * 65536 + p.2.2.2.2.2.2
     let raw := leNat (s.spmAt at' n)
     let v : Word := if p.2.2.2.1 then (BitVec.ofNat (8 * n) raw).signExtend 64 else BitVec.ofNat 64 raw
     s.OwnScratch p.2.2.2.2.2.2 n → ∀ s₁ s₂, s.fold [s.xl p.2.2.2.2.2.1] = .ok s₁ →
       s₁.writeX p.2.2.2.2.1 v (s.spmLabels at' n) = .ok s₂ → Retires p.1 s p.2.1 { st := s₂ })
  -- R127, R240: in every space, a load that resolves retires with the bytes and labels that its load step read; the label is formed as its
  -- last granule found it.
  ∧ (∀ (d r : BitVec 5) (i : BitVec 12) (s : State), s.Ready →
       ∀ p ∈ [(Instr.ldB d r i, 1, true), (.ldH d r i, 2, true), (.ldW d r i, 4, true), (.ldD d r i, 8, false),
         (.ldBu d r i, 1, false), (.ldHu d r i, 2, false), (.ldWu d r i, 4, false)],
       ∀ bs ls s₁ s₂ s₃, s.load (s.xv r + i.signExtend 64) p.2.1 = .ok (bs, ls, s₁) → bs.length = p.2.1 →
         s₁.fold [s.xl r] = .ok s₂ →
         s₂.writeLoaded d (if p.2.2 then (BitVec.ofNat (8 * p.2.1) (leNat bs)).signExtend 64 else BitVec.ofNat 64 (leNat bs)) ls = .ok s₃ →
         Retires p.1 s 4 { st := s₃ })

/-- R95, R250, R349, R350, R363, R364: addresses that an access form traps on. -/
def Obligations.AddressTraps : Prop :=
  -- R95, R349, R350: an access that touches no one space traps as unmapped, with its first and last byte and its length.
  (∀ (d r : BitVec 5) (i : BitVec 12) (s : State), s.Ready →
     let ea := s.xv r + i.signExtend 64
     ∀ p ∈ [(Instr.ldB d r i, 1), (.ldH d r i, 2), (.ldW d r i, 4), (.ldD d r i, 8), (.ldBu d r i, 1), (.ldHu d r i, 2),
       (.ldWu d r i, 4), (.stB d r i, 1), (.stH d r i, 2), (.stW d r i, 4), (.stD d r i, 8)],
     let z := ea.toNat + p.2 - 1
     vspace ea.toNat = .hole ∨ vspace z ≠ vspace ea.toNat → Traps p.1 s { cause := 0x30, val := ea, d5 := word z, d6 := word p.2 })
  -- R363, R364: an address that is not a multiple of the form's size traps as misaligned, with the address and the size.
  ∧ (∀ (d r t : BitVec 5) (i : BitVec 12) (s : State), s.Ready →
       let a := s.xv r
       ∀ p ∈ [(Instr.stDh t r i, 8), (.amoAddD d r t, 8), (.amoAndD d r t, 8), (.amoOrD d r t, 8), (.amoXorD d r t, 8),
         (.amoMinD d r t, 8), (.amoMaxD d r t, 8), (.amoMinuD d r t, 8), (.amoMaxuD d r t, 8), (.amoSwapD d r t, 8),
         (.amoCasD d r t, 8), (.amoAddW d r t, 4), (.amoAndW d r t, 4), (.amoOrW d r t, 4), (.amoXorW d r t, 4),
         (.amoMinW d r t, 4), (.amoMaxW d r t, 4), (.amoMinuW d r t, 4), (.amoMaxuW d r t, 4), (.amoSwapW d r t, 4),
         (.amoCasW d r t, 4), (.amoFadd d r t, 4)],
       a.toNat % p.2 ≠ 0 → Traps p.1 s (withEnc p.1 { cause := 0x05, val := a, d6 := word p.2 }))
  -- R250: a sluice address outside the spillway traps, misaligned before anything else.
  ∧ (∀ (d r t : BitVec 5) (s : State), s.Ready → s.sluicePending = none →
       let a := (s.xv r).toNat
       let spill := (s.dieAt (a / 2 ^ 32 % 2)).spill
       ∀ i ∈ [Instr.syncLd d r, .syncAdd d r t, .syncAnd d r t, .syncOr d r t, .syncXor d r t, .syncSwap d r t, .syncCas d r t,
         .syncFadd d r t, .syncMin d r t, .syncMax d r t, .syncMinu d r t, .syncMaxu d r t, .syncWait d r t, .syncWake d r t],
       (a % 8 ≠ 0 → Traps i s (withEnc i { cause := 0x05, val := s.xv r, d6 := 8 }))
       ∧ (a % 8 = 0 → 2 ^ 33 ≤ a ∨ spill.getLsbD 0 = false ∨ (bits spill 8 12 + 1) * 2 ^ 20 ≤ a % 2 ^ 32 →
           Traps i s (withEnc i { cause := 0x06, val := s.xv r, d6 := 2 })))

/-- R102, R126, R128, R242, R243: stores to the own scratchpad, and the two registers of a handler store. -/
def Obligations.StoresIssue : Prop :=
  -- R69, R126, R128, R242: a store to the own scratchpad folds the base's label and issues the low bytes of its operand, granule
  -- by granule, into the store buffer, under one formed label where the scratchpad is labelled; no byte of any memory changes yet.
  (∀ (t r : BitVec 5) (i : BitVec 12) (ct cr : BitVec 3) (o : BitVec 5) (s : State), s.Ready →
     (s.core.regs.lab = true → s.core.regs.frm = s.task.frame) →
     let ea := (s.xv r + i.signExtend 64).toNat
     let base := (s.xv (creg cr)).toNat
     ∀ p ∈ [
       (Instr.stB t r i, 4, 1, t, r, ea), (.stH t r i, 4, 2, t, r, ea), (.stW t r i, 4, 4, t, r, ea), (.stD t r i, 4, 8, t, r, ea),
       (.cStD ct cr o, 2, 8, creg ct, creg cr, (base + 8 * o.toNat) % 2 ^ 64),
       (.cStW ct cr o, 2, 4, creg ct, creg cr, (base + 4 * o.toNat) % 2 ^ 64)],
     let n := p.2.2.1
     let at' := s.core.num * 65536 + p.2.2.2.2.2
     p.2.2.2.2.2 + n ≤ 65536 → ∀ s₁ s₂ ls, s.fold [s.xl p.2.2.2.2.1] = .ok s₁ → StoreLabels s₁ [s.xl p.2.2.2.1] s₂ ls →
       Issues p.1 s p.2.1 (s₂.overtake false .spm at' n 0) id
         ((List.range n).map fun k => (at' + k, (s.xv p.2.2.2.1).extractLsb' (8 * k) 8)) ls)
  -- R102, R243: `st.dh` to the own scratchpad writes the dword when it is visible and takes a dormant context with it; when
  -- it is not visible it does neither and sets SUPP; a fifth arrival traps.
  ∧ (∀ (t r : BitVec 5) (i : BitVec 12) (s : State), s.Ready → s.Quiet → s.defer = false → s.core.regs.lab = false →
       let a := (s.xv r).toNat
       a + 8 ≤ 65536 → a % 8 = 0 → Tab.get 0 s.mem.spmEcc ((s.core.num * 65536 + a) / 32) = 0 →
       (4 ≤ s.core.dorm.length →
         Traps (.stDh t r i) s { cause := 0x31, val := s.xv r, d5 := word s.core.num, d6 := 3 })
       ∧ (s.core.dorm.length < 4 → ∀ s₁ b y, s.fold [s.xl r] = .ok s₁ → s₁.judge [s.xl t] = .ok (b, y) →
           (b = false → Retires (.stDh t r i) s 4 { st := y.supp })
           ∧ (b = true → ∀ h s₂, y.prod [s.xl t, y.dep] = .ok (h, s₂) →
               ∃ x, Retires (.stDh t r i) s 4 { st := x }
                 ∧ (∀ k, k < 8 → Tab.get 0 x.mem.spm (s.core.num * 65536 + a + k) = (s.xv t).extractLsb' (8 * k) 8)
                 ∧ (∀ b, b < s.core.num * 65536 + a ∨ s.core.num * 65536 + a + 8 ≤ b → Tab.get 0 x.mem.spm b = Tab.get 0 s.mem.spm b)
                 ∧ x.core.dorm = s.core.dorm ++ [{
                     pc := i.toNat * 16, frame := s.task.frame, dep := h, prio := s.task.prio, addr := word a, count := 8
                     src := s.core.num }])))

/-- R114, R132, R245, R246: fences, and units that become live and die. -/
def Obligations.FencesAndLiveUnits : Prop :=
  -- R132, R245: a fence leaves a record of the accesses that it covers and that have not performed, for an acquire fence the reductions
  -- alone, and forgets the loads that it covers and that have performed ahead of it; where nothing of the stream is unperformed it leaves
  -- none.
  (∀ (c : BitVec 3) (s : State), s.Ready →
     let here := fun (sp : Space) (a : Nat) => covers s.host.phase c.toNat s.core.num sp a
     ∀ p ∈ [(Instr.fenceFull c, true, true), (.fenceRel c, false, true), (.fenceAcq c, true, false)],
       let ids := (if p.2.2 then (s.mine.filter fun e => here e.space e.addr).map (·.id) else []) ++ s.reductionsIn c.toNat
       Retires p.1 s 4 { st := s.modStrm fun x => { x with
         fences := (x.fences ++ [(⟨p.2.1, true, c.toNat, ids⟩ : FenceRec)]).filter fun f => f.ids.any s.openIds.contains
         early := x.early.filter fun e => !(p.2.1 && here e.space e.addr) } }
       ∧ (s.openIds = [] → s.strm.early = [] → Retires p.1 s 4 { st := s.modStrm fun x => { x with fences := [] } }))
  -- R114, R246: `mlive` makes the 64 KiB unit of its address not live or live; a unit that becomes live reads zero, and one that is live
  -- stays as it is.
  ∧ (∀ (r t : BitVec 5) (s : State), s.Ready → s.Quiet → (∀ p ∈ s.engines, p.2.queue = []) →
       ∀ e l s₁, vspace (s.xv r).toNat = .global → s.pageCheck (tileOf s.core.num) .store (s.xv r).toNat = .ok e →
         bits e 44 20 = s.host.devnum.toNat → s.frameCheck .store e (s.xv r).toNat 1 = .ok l →
         s.linkDown s.core.num (l.addr / 65536 * 65536) = none → s.fold [s.xl r] = .ok s₁ → ∀ b y, s₁.judge [s.xl t] = .ok (b, y) →
         Tab.wf 0 y.mem.main = true →
         (b = false → Retires (.mlive r t) s 4 { st := y.supp })
         ∧ (b = true → ∃ x, Retires (.mlive r t) s 4 { st := x }
             ∧ Tab.get false x.mem.notLive (l.addr / 65536) = decide ((s.xv t).getLsbD 0 = false)
             ∧ (∀ u, u ≠ l.addr / 65536 → Tab.get false x.mem.notLive u = Tab.get false y.mem.notLive u)
             ∧ (∀ pa, Tab.get 0 x.mem.main pa =
                 if pa / 65536 = l.addr / 65536 ∧ (s.xv t).getLsbD 0 = true ∧ Tab.get false y.mem.notLive (l.addr / 65536) = true then 0
                 else Tab.get 0 y.mem.main pa)
             ∧ x.mem.spm = s.mem.spm ∧ x.core.regs = s.core.regs))

/-- R152, R248: the local atomics on the own scratchpad. That a labelled one whose label finds the table full, or is too large under DROP, sets SUPP
and writes nothing is the model's choice (log 62). -/
def Obligations.LocalAtomics : Prop :=
  -- R69, R248, R341: what the local atomics on dwords leave in the own scratchpad, the atom's side handle under LAB = 1 with it, and in
  -- x[rd]. `cas` writes only where the old value equals the incoming x[rd].
  (∀ (d r t : BitVec 5) (s : State), s.Ready → s.Quiet → s.defer = false → (s.core.regs.lab = true → s.core.regs.frm = s.task.frame) →
     let a := (s.xv r).toNat
     let at' := s.core.num * 65536 + a
     let lab := s.core.regs.lab
     let side := if lab then Tab.get always s.mem.spmSide (at' / 32) else always
     let b := s.xv t
     let old : Word := BitVec.ofNat 64 (leNat (s.spmAt at' 8))
     a + 8 ≤ 65536 → a % 8 = 0 → Tab.get 0 s.mem.spmEcc (at' / 32) = 0 → ∀ s₁, s.fold [s.xl r] = .ok s₁ →
     ∀ p ∈ [
       (Instr.amoAddD d r t, old + b, true, []), (.amoAndD d r t, old &&& b, true, []), (.amoOrD d r t, old ||| b, true, []),
       (.amoXorD d r t, old ^^^ b, true, []), (.amoMinD d r t, if b.slt old then b else old, true, []),
       (.amoMaxD d r t, if old.slt b then b else old, true, []), (.amoMinuD d r t, if b.ult old then b else old, true, []),
       (.amoMaxuD d r t, if old.ult b then b else old, true, []), (.amoSwapD d r t, b, true, []),
       (.amoCasD d r t, b, decide (old = s.xv d), [s.xl d])],
     ∀ s₂ s₃, (if p.2.2.1 then AmoLeaves s₁ lab at' (leBytes 8 p.2.1.toNat) ([side, s.xl t] ++ p.2.2.2) s₂ else s₂ = s₁) →
       s₂.writeX d old [side] = .ok s₃ → Retires p.1 s 4 { st := s₃ })
  -- R248, R152: the local atomics on words; x[rd] gets the old word sign-extended, for the unsigned forms and `amo.fadd`
  -- zero-extended.
  ∧ (∀ (d r t : BitVec 5) (s : State), s.Ready → s.Quiet → s.defer = false → (s.core.regs.lab = true → s.core.regs.frm = s.task.frame) →
       let a := (s.xv r).toNat
       let at' := s.core.num * 65536 + a
       let lab := s.core.regs.lab
       let side := if lab then Tab.get always s.mem.spmSide (at' / 32) else always
       let b : BitVec 32 := (s.xv t).setWidth 32
       let old : BitVec 32 := BitVec.ofNat 32 (leNat (s.spmAt at' 4))
       a + 4 ≤ 65536 → a % 4 = 0 → Tab.get 0 s.mem.spmEcc (at' / 32) = 0 → ∀ s₁, s.fold [s.xl r] = .ok s₁ →
       ∀ p ∈ [
         (Instr.amoAddW d r t, old + b, true, [], true), (.amoAndW d r t, old &&& b, true, [], true),
         (.amoOrW d r t, old ||| b, true, [], true), (.amoXorW d r t, old ^^^ b, true, [], true),
         (.amoMinW d r t, if b.slt old then b else old, true, [], true), (.amoMaxW d r t, if old.slt b then b else old, true, [], true),
         (.amoMinuW d r t, if b.ult old then b else old, true, [], false), (.amoMaxuW d r t, if old.ult b then b else old, true, [], false),
         (.amoSwapW d r t, b, true, [], true), (.amoCasW d r t, b, decide (old = (s.xv d).setWidth 32), [s.xl d], true),
         (.amoFadd d r t, BitVec.ofNat 32 (fadd32 old.toNat b.toNat), true, [], false)],
       ∀ s₂ s₃, (if p.2.2.1 then AmoLeaves s₁ lab at' (leBytes 4 p.2.1.toNat) ([side, s.xl t] ++ p.2.2.2.1) s₂ else s₂ = s₁) →
         s₂.writeX d (if p.2.2.2.2 then old.signExtend 64 else old.setWidth 64) [side] = .ok s₃ → Retires p.1 s 4 { st := s₃ })

/-! ### Majors 0x10 to 0x13 -/

/-- R149: a sluice operation that the engine serves at once writes the word's new value and label, gives the old value to
x[rd] under Product(word's label, DEP), and folds the address's label into DEP; with rd = x0 it is a reduction. -/
def Obligations.SluiceValueOperations : Prop :=
  ∀ (d r t : BitVec 5) (s : State) (k off : Nat), s.Ready → s.SluiceFree (s.xv r) k off →
    ∀ dp s₀, s.prod [s.strm.dep, s.xl r] = .ok (dp, s₀) →
    let s₁ := { s₀ with nextId := s₀.nextId + 1 }
    let dq := if s.task.moot then never else dp
    let f := s.task.frame
    let w := s₀.sword k off
    let a := w.val
    let b := s.xv t
    w.lbl = always ∨ (w.frame = f ∧ w.die = s.die) →
    ∀ p ∈ [
      (Instr.syncAdd d r t, a + b, [w.lbl, s.xl t]), (.syncAnd d r t, a &&& b, [w.lbl, s.xl t]),
      (.syncOr d r t, a ||| b, [w.lbl, s.xl t]), (.syncXor d r t, a ^^^ b, [w.lbl, s.xl t]),
      (.syncMin d r t, if b.slt a then b else a, [w.lbl, s.xl t]), (.syncMax d r t, if a.slt b then b else a, [w.lbl, s.xl t]),
      (.syncMinu d r t, if b.ult a then b else a, [w.lbl, s.xl t]), (.syncMaxu d r t, if a.ult b then b else a, [w.lbl, s.xl t]),
      (.syncFadd d r t, a.extractLsb' 32 32 ++ BitVec.ofNat 32 (fadd32 (a.toNat % 2 ^ 32) (b.toNat % 2 ^ 32)), [w.lbl, s.xl t]),
      (.syncSwap d r t, b, [s.xl t])],
    ∀ h s₂, s₁.form s.die f (decide (d = 0)) (p.2.2 ++ [dq]) = .ok (h, s₂) → h ≠ never →
    let new : SWord := if h = always then { val := p.2.1, lbl := h, frame := 0, die := 0 }
      else { val := p.2.1, lbl := h, frame := f, die := s.die }
    (d ≠ 0 → ∀ l s₃, s₂.form s.die f false [w.lbl, dq] = .ok (l, s₃) →
      ∃ x, Retires p.1 s 4 { st := x } ∧ x.x d = ⟨a, l⟩ ∧ (∀ q, q ≠ d → x.x q = s.x q) ∧ x.strm.dep = dp ∧ x.sword k off = new
        ∧ (∀ o, o ≠ off → x.sword k o = s₃.sword k o) ∧ x.mem = s₃.mem ∧ (x.dieAt k).sluiceq = [])
    ∧ (d = 0 → ∃ x, Retires p.1 s 4 { st := x } ∧ (∀ q, x.x q = s.x q) ∧ x.strm.dep = dp ∧ x.sword k off = new
        ∧ (∀ o, o ≠ off → x.sword k o = s₂.sword k o) ∧ x.mem = s₂.mem ∧ (x.dieAt k).sluiceq = [])

/-- R149, R151: sluice operations that read, the compare-and-swap, waits and wakes. -/
def Obligations.SluiceReadsSwapsAndWaits : Prop :=
  -- R149, R151: `sync.ld` and the operations that find nothing to write: the word stays as it is. `sync.wait` on another
  -- value answers 1; `sync.cas` on another value answers the word.
  (∀ (d r t : BitVec 5) (s : State) (k off : Nat), s.Ready → s.SluiceFree (s.xv r) k off → d ≠ 0 →
     ∀ dp s₀, s.prod [s.strm.dep, s.xl r] = .ok (dp, s₀) →
     let s₁ := { s₀ with nextId := s₀.nextId + 1 }
     let dq := if s.task.moot then never else dp
     let w := s₀.sword k off
     w.lbl = always ∨ (w.frame = s.task.frame ∧ w.die = s.die) →
     ∀ p ∈ [(Instr.syncLd d r, True, w.val, [w.lbl]), (.syncWait d r t, w.val ≠ s.xv t, 1, [w.lbl, s.xl t]),
       (.syncCas d r t, w.val ≠ s.xv d, w.val, [w.lbl])],
     p.2.1 → ∀ l s₂, s₁.form s.die s.task.frame false (p.2.2.2 ++ [dq]) = .ok (l, s₂) →
       ∃ x, Retires p.1 s 4 { st := x } ∧ x.x d = ⟨p.2.2.1, l⟩ ∧ (∀ q, q ≠ d → x.x q = s.x q) ∧ x.strm.dep = dp
         ∧ (∀ o, x.sword k o = s₂.sword k o) ∧ x.mem = s₂.mem)
  -- R149: `sync.cas` on the expected value writes x[rt] under the Product of the word's, the expected and the new value's
  -- labels and DEP.
  ∧ (∀ (d r t : BitVec 5) (s : State) (k off : Nat), s.Ready → s.SluiceFree (s.xv r) k off → d ≠ 0 →
       ∀ dp s₀, s.prod [s.strm.dep, s.xl r] = .ok (dp, s₀) →
       let s₁ := { s₀ with nextId := s₀.nextId + 1 }
       let dq := if s.task.moot then never else dp
       let w := s₀.sword k off
       w.lbl = always ∨ (w.frame = s.task.frame ∧ w.die = s.die) → w.val = s.xv d →
       ∀ h s₂ l s₃, s₁.form s.die s.task.frame false [w.lbl, s.xl d, s.xl t, dq] = .ok (h, s₂) → h ≠ never →
         s₂.form s.die s.task.frame false [w.lbl, dq] = .ok (l, s₃) →
         ∃ x, Retires (.syncCas d r t) s 4 { st := x } ∧ x.x d = ⟨w.val, l⟩ ∧ x.strm.dep = dp
           ∧ (x.sword k off).val = s.xv t ∧ (x.sword k off).lbl = h ∧ (∀ o, o ≠ off → x.sword k o = s₃.sword k o))
  -- R74, R151: `sync.wait` on the expected value joins the wait queue of the word, unless its task is moot; `sync.wake` releases up to x[rt] of
  -- its waiters that are not moot, oldest first, and answers how many.
  ∧ (∀ (d r t : BitVec 5) (s : State) (k off : Nat), s.Ready → s.SluiceFree (s.xv r) k off → d ≠ 0 →
       ∀ dp s₀, s.prod [s.strm.dep, s.xl r] = .ok (dp, s₀) →
       let s₁ := { s₀ with nextId := s₀.nextId + 1 }
       let dq := if s.task.moot then never else dp
       let w := s₀.sword k off
       let here := (s.dieAt k).waiters.filter fun x => decide (x.off = off)
       let go := (here.filter fun x => !s.mootParty x.who).take (s.xv t).toNat
       w.lbl = always ∨ (w.frame = s.task.frame ∧ w.die = s.die) →
       (w.val = s.xv t → s.task.moot = false → dp ≠ never → ∀ l s₂, s₁.form s.die s.task.frame false [w.lbl, s.xl t, dq] = .ok (l, s₂) →
         ∃ x, exec (.syncWait d r t) s = .next x ∧ (x.dieAt k).waiters = (s.dieAt k).waiters ++ [⟨s.self, off, s.xv t, l, dp⟩]
           ∧ (s.actStream = 1 → x.pc = s.pc ∧ x.strm.wait = some ⟨.wake, s.cycle⟩))
       ∧ (w.val = s.xv t → s.task.moot = true ∨ dp = never →
         ∃ x, exec (.syncWait d r t) s = .next x ∧ ∀ y ∈ (x.dieAt k).waiters, y.who ≠ s.self)
       ∧ (∀ l s₂, s₁.form s.die s.task.frame false [s.xl t, dq] = .ok (l, s₂) → (∀ y ∈ here, y.who ≠ s.self) →
           ∃ x, Retires (.syncWake d r t) s 4 { st := x } ∧ x.xv d = word go.length
             ∧ ((x.dieAt k).waiters.filter fun y => decide (y.off = off)) = here.filter fun y => !go.any fun z => decide (z.who = y.who)))

/-- R145, R149, R153, R344: barriers, and how an answered operation retires. -/
def Obligations.BarriersAndAnswers : Prop :=
  -- R153, R344: one arrival at a barrier, and the wait for its generation.
  (∀ (g : BitVec 3) (s : State), s.Ready → s.actStream = 0 →
     let tag := g.toNat
     (s.barrierOf tag = none → ∀ i ∈ [Instr.barArrive g, .barWait g], Traps i s { cause := 0x21, val := word tag })
     ∧ (∀ die i b, s.barrierOf tag = some (die, i, b) →
         ((∀ x, s.task.barIf tag = some x → x.gen ≠ b.gen) → s.heldIn b.scope = false →
           Retires (.barArrive g) s 4 {
             st := (s.modBarrier die i fun b => { b with arrived := s.core.num :: b.arrived, lastAt := s.cycleOf die }).modTask
               fun t => t.putBarIf { tag := tag, gen := b.gen, waited := false, waiting := false } })
         ∧ (∀ x, s.task.barIf tag = some x → x.gen = b.gen → Traps (.barArrive g) s { cause := 0x21, val := word tag, d5 := 2 })
         ∧ (∀ x, s.task.barIf tag = some x → x.waited = false → x.gen < b.gen →
             let s' := if s.reductionsIn b.scope = [] ∧ s.strm.early = [] then s else s.pushFence true true true b.scope
             Retires (.barWait g) s 4 { st := s'.modTask fun t => t.putBarIf { x with waited := true, waiting := false } })
         ∧ (∀ x, s.task.barIf tag = some x → x.waited = false → x.gen = b.gen → s.task.moot = false →
             ∃ t, exec (.barWait g) s = .next t ∧ (t.dieAt die).barriers = (s.dieAt die).barriers)
         ∧ (s.task.barIf tag = none ∨ (∃ x, s.task.barIf tag = some x ∧ x.waited = true) →
             Traps (.barWait g) s { cause := 0x21, val := word tag, d5 := 1 })))
  -- R67, R74, R145, R149: once the engine or the ring has answered, the instruction writes the answer under its label and takes the DEP that
  -- the answer leaves; it stays NEVER where a nogood has made it so.
  ∧ (∀ (d r t : BitVec 5) (s : State) (v : Word) (h dp : Handle), s.Answered v h dp →
       let s' := s.modStrm fun x => { x with dep := if x.dep = never || s.depDead s.die s.task.frame dp then never else dp }
       (∀ i ∈ [Instr.syncLd d r, .syncAdd d r t, .syncAnd d r t, .syncOr d r t, .syncXor d r t, .syncSwap d r t, .syncCas d r t,
           .syncFadd d r t, .syncMin d r t, .syncMax d r t, .syncMinu d r t, .syncMaxu d r t, .syncWait d r t, .syncWake d r t],
           Retires i s 4 { st := s'.putX d ⟨v, h⟩ })
       ∧ (∀ i ∈ [Instr.ringBoard d r t, .ringCapRead d r t, .ringCapAdd d r t, .ringCapMin d r t,
           .ringCapMax d r t, .ringCapSwap d r t, .ringCapCas d r t, .ringAlight d r t],
           Retires i s 4 { st := s'.putX d ⟨v, h⟩ }))

/-- R145 to R147, R252: the ring forms at the slot that passes. -/
def Obligations.RingForms : Prop :=
  -- R145, R146: boarding an empty slot as it passes writes the variable and answers 0; a slot that already carries the
  -- variable answers 2 and stays.
  (∀ (d r t : BitVec 5) (s : State) (j : Nat), s.Ready → s.RingFree j → d ≠ 0 → (s.xv r).toNat < 2 ^ 32 →
     ∀ dp s₁, s.prod [s.strm.dep, s.xl r] = .ok (dp, s₁) →
     let dq := if s.task.moot then never else dp
     let f := s.task.frame
     let key : BitVec 32 := (s.xv r).setWidth 32
     let x := s.slot s.die j
     (x.v = false → ∀ h s₂ l s₃, s₁.form s.die f false [s.xl t, dq] = .ok (h, s₂) → h ≠ never →
       (s₂.putSlot s.die j { v := true, frame := f, handle := h, key := key, value := s.xv t }).form s.die f false [dq] = .ok (l, s₃) →
       ∃ y, Retires (.ringBoard d r t) s 4 { st := y } ∧ y.x d = ⟨0, l⟩ ∧ y.strm.dep = dp ∧ y.ringq = []
         ∧ y.slot s.die j = { v := true, frame := f, handle := h, key := key, value := s.xv t }
         ∧ (∀ i, i ≠ j → y.slot s.die i = s.slot s.die i))
     ∧ (x.v = true → x.frame = f → x.key = key → ∀ l s₂, s₁.form s.die f false [dq] = .ok (l, s₂) →
         ∃ y, Retires (.ringBoard d r t) s 4 { st := y } ∧ y.x d = ⟨2, l⟩ ∧ ∀ i, y.slot s.die i = s.slot s.die i))
  -- R147: what each capture makes of a matching slot: the old value goes to x[rd] and the slot stays on the ring.
  ∧ (∀ (d r t : BitVec 5) (s : State) (j : Nat), s.Ready → s.RingFree j → d ≠ 0 → (s.xv r).toNat < 2 ^ 32 →
       ∀ dp s₁, s.prod [s.strm.dep, s.xl r] = .ok (dp, s₁) →
       let dq := if s.task.moot then never else dp
       let f := s.task.frame
       let x := s.slot s.die j
       let b := s.xv t
       x.v = true → x.frame = f → x.key = (s.xv r).setWidth 32 →
       (∀ p ∈ [(Instr.ringCapAdd d r t, True, x.value + b, [x.handle, s.xl t]),
           (.ringCapMin d r t, True, if b.slt x.value then b else x.value, [x.handle, s.xl t]),
           (.ringCapMax d r t, True, if x.value.slt b then b else x.value, [x.handle, s.xl t]),
           (.ringCapSwap d r t, True, b, [s.xl t]),
           (.ringCapCas d r t, x.value = s.xv d, b, [x.handle, s.xl d, s.xl t])],
         p.2.1 → ∀ h s₂ l s₃, s₁.form s.die f false (p.2.2.2 ++ [dq]) = .ok (h, s₂) → h ≠ never →
           (s₂.putSlot s.die j { x with value := p.2.2.1, handle := h }).form s.die f false [x.handle, dq] = .ok (l, s₃) →
           ∃ y, Retires p.1 s 4 { st := y } ∧ y.x d = ⟨x.value, l⟩ ∧ y.strm.dep = dp
             ∧ y.slot s.die j = { x with value := p.2.2.1, handle := h } ∧ (∀ i, i ≠ j → y.slot s.die i = s.slot s.die i))
       ∧ (∀ p ∈ [(Instr.ringCapRead d r t, True), (.ringCapCas d r t, x.value ≠ s.xv d)],
           p.2 → ∀ l s₂, s₁.form s.die f false [x.handle, dq] = .ok (l, s₂) →
           ∃ y, Retires p.1 s 4 { st := y } ∧ y.x d = ⟨x.value, l⟩ ∧ y.strm.dep = dp ∧ ∀ i, y.slot s.die i = s.slot s.die i))
  -- R140, R146, R147, R252, R288: alighting empties the matching slot, gives its value to x[rd], and sends a store of it to the home of
  -- the address in x[rt], here a dword of the own scratchpad: under one formed label where that is labelled, else under the labels of the
  -- Product.
  ∧ (∀ (d r t : BitVec 5) (s : State) (j : Nat), s.Ready → s.RingFree j → d ≠ 0 → (s.xv r).toNat < 2 ^ 32 →
       (s.core.regs.lab = true → s.core.regs.frm = s.task.frame) → (s.xv t).toNat + 8 ≤ 65536 → (s.xv t).toNat % 8 = 0 →
       ∀ dp s₁, s.prod [s.strm.dep, s.xl r, s.xl t] = .ok (dp, s₁) →
       let dq := if s.task.moot then never else dp
       let x := s.slot s.die j
       x.v = true → x.frame = s.task.frame → x.key = (s.xv r).setWidth 32 →
       ∀ h s₂, s₁.form s.die s.task.frame false [x.handle, dq] = .ok (h, s₂) →
         ∃ y e, Retires (.ringAlight d r t) s 4 { st := y } ∧ y.x d = ⟨x.value, h⟩ ∧ y.strm.dep = dp
           ∧ (y.slot s.die j).v = false ∧ (∀ i, i ≠ j → y.slot s.die i = s.slot s.die i)
           ∧ y.inbound = s₂.inbound ++ [e] ∧ e.space = .spm ∧ e.addr = s.core.num * 65536 + (s.xv t).toNat
           ∧ e.labelled = s.core.regs.lab
           ∧ e.lbls = (if s.core.regs.lab then [h] else [x.handle, dq].filter fun l => decide (l ≠ always))
           ∧ (∀ k, k < 8 → e.bytes[k]? = some (x.value.extractLsb' (8 * k) 8)))

/-- R60, R61, R66, R72, R73, R77, R343: the label instructions. That `lbl.nogood` interns the Product that it takes its candidates from is the
model's choice (log 67). -/
def Obligations.LabelAndNogoodForms : Prop :=
  -- R60, R61, R66, R77: the label instructions that write x[rd].
  (∀ (d r t : BitVec 5) (a : BitVec 6) (s : State), s.Ready →
     let die := s.die
     let f := s.task.frame
     let v := s.xv t
     let named := v.toNat < 65536 ∧ (v.toNat = 0 ∨ v.toNat = 0xFFFF ∨ v.toNat < (s.frameAt die f).next.toNat)
     -- lbl.get: the handle as a value, under DEP
     Writes (.lblGet d r) s 4 d ((s.xl r).setWidth 64) []
     -- lbl.vis: some environment of the label, free of nogoods, lies inside CTX
     ∧ (∀ s₁ s₂, s.records [s.xl r] = .ok s₁ → s₁.writeX d (if (s₁.labOf die f (s.xl r)).envs.any (fun e =>
         !((s₁.frameAt die f).nogoods.any fun n => decide (n &&& ~~~e = 0)) && decide (e &&& ~~~s.task.ctx = 0)) then 1 else 0) [] = .ok s₂ →
         Retires (.lblVis d r) s 4 { st := s₂ })
     -- lbl.with: the value relabelled with a named handle
     ∧ (named → Writes (.lblWith d r t) s 4 d (s.xv r) [s.xl r, s.xl t, v.setWidth 16])
     ∧ (¬named → Traps (.lblWith d r t) s { cause := 0x19, val := v, d5 := word f.toNat })
     -- lbl.merge: equal values only
     ∧ (s.xv r ≠ v → Traps (.lblMerge d r t) s { cause := 0x1C, val := s.xv r ^^^ v, d5 := word f.toNat })
     ∧ (s.xv r = v → d = 0 → Retires (.lblMerge d r t) s 4 { st := s })
     ∧ (s.xv r = v → d ≠ 0 → s.badRecord [s.xl r, s.xl t, s.dep] = none → ∀ h s',
         (s.readRecords die f [s.xl r, s.xl t, s.dep]).mergeProduct die f (s.xl r) (s.xl t) s.dep = .ok (h, s') →
         Retires (.lblMerge d r t) s 4 { st := s'.putX d ⟨s.xv r, h⟩ })
     -- lbl.ctx: folds, then swaps CTX
     ∧ (∀ s₁ s₂, s.fold [s.xl r] = .ok s₁ → (s₁.modTask fun k => { k with ctx := s.xv r }).writeX d s.task.ctx [] = .ok s₂ →
         Retires (.lblCtx d r) s 4 { st := s₂ })
     -- lbl.assume: the handle of the one-assumption label
     ∧ (d = 0 → Retires (.lblAssume d a) s 4 { st := s })
     ∧ (d ≠ 0 → ∀ h s₁ s₂, s.intern die f { envs := clean (s.frameAt die f).nogoods [BitVec.ofNat 64 (2 ^ a.toNat)] } = .ok (h, s₁) →
         s₁.writeX d (h.setWidth 64) [] = .ok s₂ → Retires (.lblAssume d a) s 4 { st := s₂ }))
  -- R72, R73, R343: what `lbl.nogood` answers, and that a refused or empty commit leaves the nogood set alone.
  ∧ (∀ (d r : BitVec 5) (s : State), s.Ready → s.heldIn 5 = false →
       let f := s.task.frame
       ∀ p s₁, s.prod [s.xl r, s.dep] = .ok (p, s₁) →
       let g := (s₁.frameAt s.die f).nogoods
       let ps := (s₁.labOf s.die f p).envs
       let cs := candidates g (s.xv r) ps
       let answer := fun (n : Nat) (x : State) => ∀ y, x.writeX d (word n) [] = .ok y → Retires (.lblNogood d r) s 4 { st := y, after := State.leaveStuck }
       (ps = [] → answer 2 s₁)
       ∧ (ps ≠ [] → (∃ e ∈ ps, s.xv r ||| e = 0) → answer 3 s₁)
       ∧ (ps ≠ [] → (∀ e ∈ ps, s.xv r ||| e ≠ 0) → 256 < g.length + cs.length → answer 1 s₁)
       ∧ (ps ≠ [] → (∀ e ∈ ps, s.xv r ||| e ≠ 0) → g.length + cs.length ≤ 256 → cs = [] → answer 0 s₁)
       ∧ (ps ≠ [] → (∀ e ∈ ps, s.xv r ||| e ≠ 0) → g.length + cs.length ≤ 256 → cs ≠ [] →
           answer 0 ((s₁.setFrame s.die f { s₁.frameAt s.die f with nogoods := g ++ cs }).noticeAll s.die f)))

/-! ### Majors 0x14 and 0x15 -/

/-- R43 to R49, R255 to R257: `launch`, `arm` and `disarm`. -/
def Obligations.LaunchArmDisarm : Prop :=
  -- R43 to R50, R255 to R257: the statuses of `launch` and `arm` in their order, and what an accepted record leaves: a pending
  -- entry that waits for every target core, the barriers it binds, and a launch message to each target.
  (∀ (d r t : BitVec 5) (s : State), s.Ready → s.heldIn 6 = false → (s.xv r).toNat % 256 = 0 →
     ∀ ls bs hs s₁ s₂ b s₃, s.resolve .load (s.xv r) 256 = .ok ls → s.loadLocs 0 ls = .ok (bs, hs, s₁) →
     s₁.fold [s.xl r] = .ok s₂ → s₂.judge hs = .ok (b, s₃) →
     let rc := dwords 32 bs
     let at_ := fun (i : Nat) => rc.getD i 0
     let rank := 0x20000 + s.core.num
     let turn := s.inTurn s.die rank = true
     let launch := fun (n : Nat) (y : State) => turn → ∀ z, y.writeX d (word n) [] = .ok z → Retires (.launch d r) s 4 { st := z }
     let arm := fun (n : Nat) (y : State) => ∀ z, y.writeX d (word n) [s.xl t] = .ok z → Retires (.arm d r t) s 4 { st := z }
     let tag := (s.xv t).toNat % 65536
     let k := if tag < 0x8000 then 0 else 1
     -- a firing of the tag in this cycle comes first
     let armed := fun (n : Nat) (y : State) => arm n (y.modDie k fun x => { x with armTurn := Tab.put 0 x.armTurn tag (y.cycleOf k + 1) })
     -- the marked atoms that judging the record reads are corrected
     let m := s₃.mendTile rc
     (b = false → launch 5 s₃.supp ∧ arm 4 s₃.supp)
     ∧ (b = true → s₃.wordMiss rc = none → recordOk rc = false ∨ m.completionWord s.tileXlate rc = none → launch 2 m ∧ armed 2 m)
     ∧ (b = true → s₃.wordMiss rc = none → recordOk rc = true → ∀ w, m.completionWord s.tileXlate rc = some w →
         let levels := levelsOf rc
         let targets := targetsOf levels
         let cores := targets.map (·.1)
         let unmeasured := m.meteredLaunch (recFrame rc) cores && !m.measureOk s.tileXlate rc cores
         let n := (m.dieAt s.die).launchSeq
         let ref : LaunchRef := {
           die := s.die, entry := 0, seq := n, record := s.xv r, fclass := bits (at_ 0) 40 6, fcore := bits (at_ 0) 27 13
           levels := levels }
         let tags := (m.dieAt k).armed
         (m.served cores = false → launch 2 m)
         ∧ (m.served cores = true → unmeasured = true → launch 4 m)
         ∧ (m.served cores = true → unmeasured = false → m.tagHeld (barriersOf 0 levels cores) = true → launch 3 m)
         ∧ (m.served cores = true → unmeasured = false → m.tagHeld (barriersOf 0 levels cores) = false →
             (m.freeEntry s.die = none → launch 1 (m.modDie s.die fun x => { x with launchTurn := (s.cycle, rank) }))
             ∧ ∀ e, m.freeEntry s.die = some e →
               let y := m.modDie s.die fun x => { x with
                 launchTurn := (s.cycle, rank), launchSeq := n + 1, barriers := x.barriers ++ barriersOf e levels cores
                 pending := Tab.put {} x.pending e {
                   live := true, record := rc, addr := s.xv r, seq := n, left := cores, cores := cores, word := w } }
               launch 0 { y with channels := m.channels ++ targets.map fun q => {
                 hdr := header q.1 0x1FFE (bits (at_ 0) 46 6) (bits (at_ 8) 34 4) 7 false (recFrame rc)
                   (BitVec.ofNat 16 (bits (at_ 7) 0 16))
                 payload := [at_ 2, at_ 3, at_ 4, at_ 5, word q.2, s.xv r, word n]
                 launch := some ({ ref with entry := e }, recFrame rc, at_ 6) } })
         ∧ ((Tab.get {} tags tag).live = true → armed 3 m)
         ∧ ((Tab.get {} tags tag).live = false → 256 ≤ tags.length → armed 1 m)
         ∧ ((Tab.get {} tags tag).live = false → tags.length < 256 →
             armed 0 (m.modDie k fun x => { x with armed := Tab.put {} x.armed tag ⟨true, rc, s.xv r, w⟩ }))))
  -- R257: `disarm` frees the record armed under a tag and answers 0, or answers 1 where none is; the answer carries the tag's label. A firing in
  -- the same cycle comes first (R258).
  ∧ (∀ (d t : BitVec 5) (s : State), s.Ready →
       let tag := (s.xv t).toNat % 65536
       let k := if tag < 0x8000 then 0 else 1
       let s' := s.modDie k fun x => { x with
         armed := Tab.put {} x.armed tag {}, armTurn := Tab.put 0 x.armTurn tag (s.cycleOf k + 1) }
       ∀ z, s'.writeX d (if (Tab.get {} (s.dieAt k).armed tag).live then 0 else 1) [s.xl t] = .ok z →
         Retires (.disarm d t) s 4 { st := z })
  -- R48, R49, R256, R257: where the record can be read, the labels can be formed, the launch is in its turn and the page of the completion
  -- word is translated, `launch` and `arm` complete: with a status of at most 5, or 4, in x[rd], every other register as it was. `disarm`
  -- completes where its label can be formed.
  ∧ (∀ (d r t : BitVec 5) (s : State), s.Ready →
       let ends := fun (i : Instr) (m : Nat) => ∃ y, Retires i s 4 { st := y } ∧ (∀ q, q ≠ d → y.x q = s.x q)
         ∧ (d ≠ 0 → ∃ n, n ≤ m ∧ y.xv d = word n)
       (s.heldIn 6 = false → (s.xv r).toNat % 256 = 0 → ∀ ls bs hs s₁, s.resolve .load (s.xv r) 256 = .ok ls →
         s.loadLocs 0 ls = .ok (bs, hs, s₁) → s₁.Forms 2 →
         (recAt (dwords 32 bs) 1 = 0 ∨ (s₁.tlbFind (tileOf s₁.core.num) (recAt (dwords 32 bs) 1).toNat).isSome) →
         (s.inTurn s.die (0x20000 + s.core.num) = true → ends (.launch d r) 5) ∧ ends (.arm d r t) 4)
       ∧ (s.Forms 1 → ends (.disarm d t) 1))

/-- R259 to R263, R314 to R317, R321, R322, R325: the forms of the Bammos block. -/
def Obligations.MeterForms : Prop :=
  -- R259 to R263, R314 to R317, R321, R322, R325: registration, meter reading, the checkpoint and the attestation report, each of
  -- a privileged task whose turn in the block has come, with the statements they write; in a task that is not privileged each takes the
  -- privilege trap.
  (∀ (d r t : BitVec 5) (s : State), s.Ready →
     let forms := [Instr.meterReg d r, .meterRead d r t, .meterCkpt d, .attest d r]
     let answer := fun (i : Instr) (n : Nat) (y : State) => ∀ z, y.writeX d (word n) [] = .ok z → Retires i s 4 { st := z }
     let entered := fun (y : State) => { y with sec := { y.sec with forms := [] } }
     (s.task.priv = false → ∀ i ∈ forms, Traps i s { cause := 0x04, val := encWord i, d5 := encWord i })
     ∧ (s.task.priv = true → s.formsIn = [] →
       (s.heldIn 6 = false →
         (s.sec.accepts = true → answer (.meterCkpt d) 0 { s with sec := { s.sec with
           forms := [], older := s.sec.bank, bank := ⟨s.sec.regions, s.sec.seq, false⟩, refusals := 0, lastAt := s.clocks.units } })
         ∧ (s.sec.accepts = false → answer (.meterCkpt d) 1 (entered s).refuseCkpt))
       ∧ (∀ bs hs s₀ carry s₁ s₂, (s.xv r).toNat % 32 = 0 → s.ownGlobal .load (s.xv r) 32 = .ok () → s.load (s.xv r) 32 = .ok (bs, hs, s₀) →
           let ds := dwords 4 bs
           let w := fun i => ds.getD i 0
           (if w 2 = 0 ∨ (s₀.region (bits (w 0) 0 12)).live = true ∨ s₀.badDescriptor (w 0) (w 1) (w 3) = true then carry = [] ∧ s₁ = s₀
            else s.ownGlobal .load (w 2) 256 = .ok () ∧ ∃ cl, s₀.load (w 2) 256 = .ok (carry, cl, s₁)) →
           s₁.fold [s.xl r] = .ok s₂ →
           let n := bits (w 0) 0 12
           let reg := answer (.meterReg d r)
           let stored := fun (x : Region) (carried : List (Word × Nat)) =>
             let regs := Tab.put {} s₂.sec.regions n x
             { s₂ with sec := { s₂.sec with
                 forms := [], regions := regs, carriedOver := carried, older := s₂.sec.bank, bank := ⟨regs, s₂.sec.seq, false⟩, refusals := 0
                 lastAt := s₂.clocks.units } }
           let x : Region := { live := true, base := bits (w 0) 16 32, limit := bits (w 1) 16 32 }
           let field := fun (o : Nat) => wordOf ((carry.drop o).take 8)
           ((s₂.region n).live = true → reg 1 (entered s₂))
           ∧ ((s₂.region n).live = false → s₂.badDescriptor (w 0) (w 1) (w 3) = true → reg 2 (entered s₂))
           ∧ ((s₂.region n).live = false → s₂.badDescriptor (w 0) (w 1) (w 3) = false →
               (w 2 = 0 → s.sec.accepts = true → reg 0 (stored x s₂.sec.carriedOver))
               ∧ (w 2 ≠ 0 → s₂.badCarry n carry = true → reg 3 (entered s₂))
               ∧ (w 2 ≠ 0 → s₂.badCarry n carry = false → s.sec.accepts = true →
                   reg 0 (stored { x with count := (field 0x28).toNat, carried := (field 0x28).toNat, baseser := field 0x18 }
                     (s₂.sec.carriedOver ++ [(field 0x18, n)])))))
       ∧ (∀ nonce ls s₁, s.stBuffer (s.xv r) = .ok (nonce, ls, s₁) →
           let n := (s.xv t).toNat
           let x := s.region n
           let q := s₁.sec.seq + 1
           let stated := fun (head : Word) (body : List Byte) =>
             let m := fit 16 nonce ++ bytesOf head ++ fit 136 body ++ fit 32 Config.devKey
             m ++ fit 64 (Config.edSign (Config.sha512 m))
           let raised := { s₁ with sec := { s₁.sec with forms := [], seq := q } }
           (n < 4096 → x.live = false → ∀ s₂, (entered s₁).fold [s.xl r] = .ok s₂ → answer (.meterRead d r t) 1 s₂)
           ∧ (n < 4096 → x.live = true → s.seqHeld = false → ∀ s₂,
               (raised.putStatement (stated 0x0101000000000000
                 (dwordBytes [Config.serial, word n, word x.count, word q, word x.carried, x.baseser,
                   word (x.limit * 2 ^ 32 + x.base), word x.restarts])) ls).fold [s.xl r] = .ok s₂ →
               answer (.meterRead d r t) 0 s₂)
           ∧ (s.seqHeld = false → ∀ s₂,
               (raised.putStatement (stated 0x0201000000000000
                 (dwordBytes [Config.serial, word q, word (s.regionCount * 8 + s.host.phase % 8), 0, 0]
                   ++ fit 64 Config.fwDigest)) ls).fold [s.xl r] = .ok s₂ →
               answer (.attest d r) 0 s₂))))
  -- R261 to R263: where the buffer or descriptor can be read, the labels can be formed, no other form is in the block and the storage
  -- takes what it is given, the four forms of a privileged task complete, with a status in x[rd] and every other register as it was.
  ∧ (∀ (d r t : BitVec 5) (s : State), s.Ready → s.task.priv = true → s.formsIn = [] →
       let ends := fun (i : Instr) (m : Nat) => ∃ y, Retires i s 4 { st := y } ∧ (∀ q, q ≠ d → y.x q = s.x q)
         ∧ (d ≠ 0 → ∃ n, n ≤ m ∧ y.xv d = word n)
       (s.heldIn 6 = false → s.Forms 1 → ends (.meterCkpt d) 1)
       ∧ (∀ bs hs s₁, (s.xv r).toNat % 32 = 0 → s.ownGlobal .load (s.xv r) 32 = .ok () → s.load (s.xv r) 32 = .ok (bs, hs, s₁) →
           (dwords 4 bs).getD 2 0 = 0 → s₁.Forms 2 → s.sec.accepts = true →
           ends (.meterReg d r) 2)
       ∧ (∀ nonce ls s₁, s.stBuffer (s.xv r) = .ok (nonce, ls, s₁) → s₁.Forms 2 → s.seqHeld = false →
           ((s.xv t).toNat < 4096 → ends (.meterRead d r t) 1) ∧ ends (.attest d r) 0))

/-! ### Majors 0x16 to 0x1C -/

/-- R264, R265, R270, R271: the vector integer forms, compares and moves. -/
def Obligations.IntegerVectorForms : Prop :=
  -- R264, R265, R270, R271: the vector integer forms, each lane written with Lean's own arithmetic on its width.
  (∀ (d r t : BitVec 5) (e k : BitVec 2) (s : State), s.Ready → d.toNat < 16 → r.toNat < 16 → t.toNat < 16 →
     let w := eltBits e
     let a := fun i => lane w (s.v r).val i
     let b := fun i => lane w (s.v t).val i
     (∀ p ∈ [
       (Instr.vadd d r t e k, fun i => a i + b i), (.vsub d r t e k, fun i => a i - b i), (.vmul d r t e k, fun i => a i * b i),
       (.vmulh d r t e k, fun i => ((a i).signExtend (2 * w) * (b i).signExtend (2 * w)).extractLsb' w w),
       (.vmin d r t e k, fun i => if (b i).slt (a i) then b i else a i), (.vmax d r t e k, fun i => if (a i).slt (b i) then b i else a i),
       (.vminu d r t e k, fun i => if (b i).ult (a i) then b i else a i), (.vmaxu d r t e k, fun i => if (a i).ult (b i) then b i else a i),
       (.vadds d r t e k, fun i =>
         if (a i).saddOverflow (b i) then (if (a i).msb then BitVec.intMin w else BitVec.intMax w) else a i + b i),
       (.vaddus d r t e k, fun i => if (a i).uaddOverflow (b i) then BitVec.allOnes w else a i + b i),
       (.vsubs d r t e k, fun i =>
         if (a i).ssubOverflow (b i) then (if (a i).msb then BitVec.intMin w else BitVec.intMax w) else a i - b i),
       (.vsubus d r t e k, fun i => if (a i).ult (b i) then 0 else a i - b i),
       (.vand d r t e k, fun i => a i &&& b i), (.vor d r t e k, fun i => a i ||| b i), (.vxor d r t e k, fun i => a i ^^^ b i),
       (.vandn d r t e k, fun i => a i &&& ~~~b i), (.vsll d r t e k, fun i => a i <<< ((b i).toNat % w)),
       (.vsrl d r t e k, fun i => a i >>> ((b i).toNat % w)), (.vsra d r t e k, fun i => (a i).sshiftRight ((b i).toNat % w))],
       LaneWrites p.1 s d w k [(s.v r).lbl, (s.v t).lbl] p.2)
     ∧ LaneWrites (.vmv d r e k) s d w k [(s.v r).lbl] a)
  -- R271: the compares write a mask register whole; `vsplat`, `vext` and `vins` move between scalars and lanes.
  ∧ (∀ (d r t x y : BitVec 5) (c e k : BitVec 2) (s : State), s.Ready → d.toNat < 16 → r.toNat < 16 → t.toNat < 16 → c ≠ 0 →
       let w := eltBits e
       let n := 512 / w
       let a := fun i => lane w (s.v r).val i
       let b := fun i => lane w (s.v t).val i
       let en := fun (j : Nat) => decide (k = 0) || (s.kreg k).val.getLsbD j
       (∀ p ∈ [
         (Instr.vcmpEq c r t e k, fun i => decide (a i = b i)), (.vcmpNe c r t e k, fun i => decide (a i ≠ b i)),
         (.vcmpLt c r t e k, fun i => (a i).slt (b i)), (.vcmpGe c r t e k, fun i => (b i).sle (a i)),
         (.vcmpLtu c r t e k, fun i => (a i).ult (b i)), (.vcmpGeu c r t e k, fun i => (b i).ule (a i))],
         ∃ m : Word, (∀ j, j < 64 → m.getLsbD j = (decide (j < n) && en j && p.2 j))
           ∧ KWrites p.1 s c m ([(s.v r).lbl, (s.v t).lbl] ++ if k = 0 then [] else [s.kl k]))
       ∧ LaneWrites (.vsplat d x e k) s d w k [s.xl x] (fun _ => (s.xv x).setWidth w)
       ∧ Writes (.vext y r x e) s 4 y ((lane w (s.v r).val ((s.xv x).toNat % n)).signExtend 64) [(s.v r).lbl, s.xl x]
       ∧ (∃ v : Lanes, (∀ j, j < n → lane w v j = if j = (s.xv y).toNat % n then (s.xv x).setWidth w else lane w (s.v d).val j)
           ∧ VWrites (.vins d x y e) s d v [(s.v d).lbl, s.xl x, s.xl y]))

/-- R83, R272 to R274: floating forms and conversions. -/
def Obligations.FloatingAndConversionForms : Prop :=
  -- R272: the vector floating forms; each lane is the IEEE operation of the format on the lanes' encodings, rounded once.
  (∀ (d r t : BitVec 5) (c e k : BitVec 2) (s : State), s.Ready → d.toNat < 16 → r.toNat < 16 → t.toNat < 16 → e.toNat < 3 → c ≠ 0 →
     let f := ftFmt e
     let w := f.width
     let a := fun i => (lane w (s.v r).val i).toNat
     let b := fun i => (lane w (s.v t).val i).toNat
     let o := fun i => (lane w (s.v d).val i).toNat
     let num := fun (x : Nat) => BitVec.ofNat w x
     let en := fun (j : Nat) => decide (k = 0) || (s.kreg k).val.getLsbD j
     (∀ p ∈ [
       (Instr.vfadd d r t e k, fun i => f.add (a i) (b i)), (.vfsub d r t e k, fun i => f.sub (a i) (b i)),
       (.vfmul d r t e k, fun i => f.mul (a i) (b i)), (.vfdiv d r t e k, fun i => f.div (a i) (b i)),
       (.vfmin d r t e k, fun i => f.min (a i) (b i)), (.vfmax d r t e k, fun i => f.max (a i) (b i))],
       LaneWrites p.1 s d w k [(s.v r).lbl, (s.v t).lbl] fun i => num (p.2 i))
     ∧ LaneWrites (.vfsqrt d r e k) s d w k [(s.v r).lbl] (fun i => num (f.sqrt (a i)))
     ∧ LaneWrites (.vfma d r t e k) s d w k [(s.v d).lbl, (s.v r).lbl, (s.v t).lbl] (fun i => num (f.fma (o i) (a i) (b i)))
     ∧ LaneWrites (.vfnms d r t e k) s d w k [(s.v d).lbl, (s.v r).lbl, (s.v t).lbl] (fun i => num (f.fnms (o i) (a i) (b i)))
     ∧ (∀ p ∈ [(Instr.vfcmpEq c r t e k, f.eq), (.vfcmpLt c r t e k, f.lt), (.vfcmpLe c r t e k, f.le)],
       ∃ m : Word, (∀ j, j < 64 → m.getLsbD j = (decide (j < 512 / w) && en j && p.2 (a j) (b j)))
         ∧ KWrites p.1 s c m ([(s.v r).lbl, (s.v t).lbl] ++ if k = 0 then [] else [s.kl k])))
  -- R83, R273, R274: the conversions by source and destination width; a narrowing one writes the PART it names and is always
  -- partial, a widening one reads it.
  ∧ (∀ (d r : BitVec 5) (q k : BitVec 2) (s : State), s.Ready → d.toNat < 16 → r.toNat < 16 →
       let int := fun (w k : Nat) (sg z : Bool) (x : Nat) => f32ToInt w k sg z x
       let en := fun (j : Nat) => decide (k = 0) || (s.kreg k).val.getLsbD j
       ∀ p ∈ ([
         (.vcvtF32F16 d r q k, 16, 32, fp16.cvt fp32), (.vcvtF32Bf16 d r q k, 16, 32, bf16.cvt fp32),
         (.vcvtF32E4m3 d r q k, 8, 32, e4m3.cvt fp32), (.vcvtF32E5m2 d r q k, 8, 32, e5m2.cvt fp32),
         (.vcvtF16F32 d r q k, 32, 16, fp32.cvt fp16), (.vcvtBf16F32 d r q k, 32, 16, fp32.cvt bf16),
         (.vcvtE4m3F32 d r q k, 32, 8, fp32.cvt e4m3), (.vcvtE5m2F32 d r q k, 32, 8, fp32.cvt e5m2),
         (.vcvtE4m3F16 d r q k, 16, 8, fp16.cvt e4m3), (.vcvtF16E4m3 d r q k, 8, 16, e4m3.cvt fp16),
         (.vcvtI32F32 d r q k, 32, 32, int 32 0 true false), (.vcvtI32F32Rtz d r q k, 32, 32, int 32 0 true true),
         (.vcvtUi32F32 d r q k, 32, 32, int 32 0 false false), (.vcvtUi32F32Rtz d r q k, 32, 32, int 32 0 false true),
         (.vcvtI16F32 d r q k, 32, 16, int 16 0 true false), (.vcvtI16F32Rtz d r q k, 32, 16, int 16 0 true true),
         (.vcvtI8F32 d r q k, 32, 8, int 8 0 true false), (.vcvtI8F32Rtz d r q k, 32, 8, int 8 0 true true),
         (.vcvtUq8F32 d r q k, 32, 8, int 8 8 false false), (.vcvtUq8F32Rtz d r q k, 32, 8, int 8 8 false true),
         (.vcvtF32I32 d r q k, 32, 32, fun x => fp32.ofInt (BitVec.ofNat 32 x).toInt 0),
         (.vcvtF32Ui32 d r q k, 32, 32, fun x => fp32.ofInt x 0),
         (.vcvtF32I16 d r q k, 16, 32, fun x => fp32.ofInt (BitVec.ofNat 16 x).toInt 0),
         (.vcvtF32I8 d r q k, 8, 32, fun x => fp32.ofInt (BitVec.ofNat 8 x).toInt 0),
         (.vcvtF32Uq8 d r q k, 8, 32, fun x => fp32.ofInt x 8),
         (.vcvtI32I8 d r q k, 8, 32, fun x => ((BitVec.ofNat 8 x).signExtend 32).toNat),
         (.vcvtI32I16 d r q k, 16, 32, fun x => ((BitVec.ofNat 16 x).signExtend 32).toNat),
         (.vcvtI8I32 d r q k, 32, 8, fun x => (BitVec.ofInt 8 (max (-128) (min 127 (BitVec.ofNat 32 x).toInt))).toNat),
         (.vcvtI16I32 d r q k, 32, 16, fun x => (BitVec.ofInt 16 (max (-32768) (min 32767 (BitVec.ofNat 32 x).toInt))).toNat)] :
         List (Instr × Nat × Nat × (Nat → Nat))),
       let ws := p.2.1
       let wd := p.2.2.1
       let n := 512 / max ws wd
       let src := (s.v r).lbl :: if k = 0 then [] else [s.kl k]
       let cvt := fun (j : Nat) => BitVec.ofNat wd (p.2.2.2 (lane ws (s.v r).val j).toNat)
       q.toNat < max ws wd / min ws wd →
       ∃ v : Lanes,
         VWrites p.1 s d v (if ws ≤ wd ∧ (List.range n).all en = true then src else (s.v d).lbl :: src)
         ∧ (ws ≤ wd → ∀ j, j < n → lane wd v j = if en j then cvt (q.toNat * n + j) else lane wd (s.v d).val j)
         ∧ (wd < ws → ∀ j, j < 512 / wd → lane wd v j =
             if q.toNat * n ≤ j ∧ j < q.toNat * n + n ∧ en (j - q.toNat * n) = true then cvt (j - q.toNat * n) else lane wd (s.v d).val j))

/-- R278 to R280: reductions, permutes and mask operations. -/
def Obligations.ReductionAndPermuteForms : Prop :=
  -- R278: the reductions of the enabled lanes, in ascending order, to x[rd].
  (∀ (x r : BitVec 5) (e k : BitVec 2) (s : State), s.Ready → r.toNat < 16 →
     let w := eltBits e
     let en := fun (j : Nat) => decide (k = 0) || (s.kreg k).val.getLsbD j
     let ls := ((List.range (512 / w)).filter en).map fun i => lane w (s.v r).val i
     let fs := ((List.range 16).filter en).map fun i => (lane 32 (s.v r).val i).toNat
     let src := (s.v r).lbl :: if k = 0 then [] else [s.kl k]
     (∀ p ∈ [
       (Instr.vredsum x r e k, ls.foldl (fun a b => a + b) 0),
       (.vredmin x r e k, ls.foldl (fun a b => if b.slt a then b else a) (BitVec.intMax w)),
       (.vredmax x r e k, ls.foldl (fun a b => if a.slt b then b else a) (BitVec.intMin w))],
       Writes p.1 s 4 x (p.2.signExtend 64) src)
     ∧ (∀ p ∈ [
       (Instr.vredminu x r e k, ls.foldl (fun a b => if b.ult a then b else a) (BitVec.allOnes w)),
       (.vredmaxu x r e k, ls.foldl (fun a b => if a.ult b then b else a) 0)],
       Writes p.1 s 4 x (p.2.setWidth 64) src)
     ∧ (fs = [] → Writes (.vfredsum x r k) s 4 x 0 src)
     ∧ (∀ y ys, fs = y :: ys →
         Writes (.vfredsum x r k) s 4 x (word (ys.foldl fp32.add (if fp32.isNan y then 0x7FC00000 else y))) src)
     ∧ Writes (.vfredmax x r k) s 4 x (word (fs.foldl fp32.max 0xFF800000)) src
     ∧ Writes (.vfredmin x r k) s 4 x (word (fs.foldl fp32.min 0x7F800000)) src)
  -- R279, R280: the permutes and the mask forms.
  ∧ (∀ (d r t x : BitVec 5) (e k c m n : BitVec 2) (s : State), s.Ready → d.toNat < 16 → r.toNat < 16 → t.toNat < 16 → c ≠ 0 →
       let w := eltBits e
       let z := 512 / w
       let a := fun i => lane w (s.v r).val i
       let en := fun (j : Nat) => decide (k = 0) || (s.kreg k).val.getLsbD j
       let on := (List.range z).filter en
       let p := (s.kreg m).val
       let q := (s.kreg n).val
       LaneWrites (.vperm d r t e k) s d w k [(s.v r).lbl, (s.v t).lbl] (fun i => a ((lane w (s.v t).val i).toNat % z))
       ∧ LaneWrites (.vslide d r x e k) s d w k [(s.v r).lbl, s.xl x] (fun i =>
           let j : Int := i + (s.xv x).toInt
           if 0 ≤ j ∧ j < z then a j.toNat else 0)
       ∧ LaneWrites (.vrev d r e k) s d w k [(s.v r).lbl] (fun i => a (z - 1 - i))
       ∧ (∃ v : Lanes, (∀ j, j < z → lane w v j = if h : j < on.length then a on[j] else 0)
           ∧ VWrites (.vcomp d r e k) s d v ((s.v r).lbl :: if k = 0 then [] else [s.kl k]))
       ∧ KWrites (.kand c m n) s c (p &&& q) [s.kl m, s.kl n]
       ∧ KWrites (.kor c m n) s c (p ||| q) [s.kl m, s.kl n]
       ∧ KWrites (.kxor c m n) s c (p ^^^ q) [s.kl m, s.kl n]
       ∧ KWrites (.knot c m) s c (~~~p) [s.kl m]
       ∧ KWrites (.kfromx c x) s c (s.xv x) [s.xl x]
       ∧ Writes (.ktox x m) s 4 x p [s.kl m]
       ∧ Writes (.kpop x m) s 4 x (word ((List.range 64).filter fun i => p.getLsbD i).length) [s.kl m])

/-! ### Vector memory, residue registers, maps, repetition, tiles -/

/-- R242, R267 to R269: the vector memory forms on the own scratchpad. -/
def Obligations.VectorMemoryForms : Prop :=
  -- R267 to R269: vector loads from the own scratchpad. Each enabled lane takes the bytes at its element's address; the base, the
  -- stride and the indices fold into DEP; a masked load keeps the old label too.
  (∀ (d r x t : BitVec 5) (e k : BitVec 2) (s : State), s.Ready → s.Quiet → d.toNat < 16 → t.toNat < 16 →
     let w := eltBits e
     let b := w / 8
     let base := s.xv r
     let en := fun (j : Nat) => decide (k = 0) || (s.kreg k).val.getLsbD j
     let on := (List.range (512 / w)).filter en
     let mask := if k = 0 then [] else [s.kl k]
     let own := fun (a : Word) => s.core.num * 65536 + a.toNat
     let loads := fun (i : Instr) (adr : Nat → Word) (folds hs : List Handle) => ∀ s₁, s.fold folds = .ok s₁ →
       ∃ v : Lanes, (∀ j, j < 512 / w → lane w v j =
           if en j then BitVec.ofNat w (leNat (s.spmAt (own (adr j)) b)) else lane w (s.v d).val j)
         ∧ ∀ h s₂, s₁.prod ((if k = 0 then hs ++ mask else (s.v d).lbl :: (hs ++ mask)) ++ [s₁.dep]) = .ok (h, s₂) →
             Retires i s 4 { st := s₂.putV d ⟨v, h⟩ }
     let each := fun (adr : Nat → Word) => on.flatMap fun j => s.spmLabels (own (adr j)) b
     let free := fun (adr : Nat → Word) => ∀ j ∈ on, s.OwnScratch (adr j).toNat b ∧ (adr j).toNat % b = 0
     (k = 0 → base.toNat % 64 = 0 → s.OwnScratch base.toNat 64 →
       loads (.vld d r e k) (fun j => base + word (j * b)) [s.xl r] (s.spmLabels (own base) 64))
     ∧ (k ≠ 0 → base.toNat % 64 = 0 → free (fun j => base + word (j * b)) →
       loads (.vld d r e k) (fun j => base + word (j * b)) [s.xl r] (each fun j => base + word (j * b)))
     ∧ (free (fun j => base + word j * s.xv x) →
       loads (.vlds d r x e k) (fun j => base + word j * s.xv x) [s.xl r, s.xl x] (each fun j => base + word j * s.xv x))
     ∧ (e = 0 ∨ e = 3 → free (fun j => base + word ((lane 32 (s.v t).val j).toNat * b)) →
       loads (.vgth d r t e k) (fun j => base + word ((lane 32 (s.v t).val j).toNat * b)) [s.xl r, (s.v t).lbl]
         (each fun j => base + word ((lane 32 (s.v t).val j).toNat * b)))
     ∧ (on ≠ [] → s.OwnScratch base.toNat b → base.toNat % b = 0 →
       loads (.vbc d r e k) (fun _ => base) [s.xl r] (s.spmLabels (own base) b))
     ∧ (on = [] → loads (.vbc d r e k) (fun _ => base) [s.xl r] []))
  -- R69, R242, R267 to R269: vector stores to the own scratchpad issue the enabled lanes in ascending order, each at its element's
  -- address, under the data register's and the mask's labels; into a labelled one under their Product.
  ∧ (∀ (v r x t : BitVec 5) (e k : BitVec 2) (s : State), s.Ready → s.strm.early = [] → v.toNat < 16 → t.toNat < 16 →
       let w := eltBits e
       let b := w / 8
       let base := s.xv r
       let on := (List.range (512 / w)).filter fun j => decide (k = 0) || (s.kreg k).val.getLsbD j
       let hs := [(s.v v).lbl] ++ if k = 0 then [] else [s.kl k]
       let bytes := fun (adr : Nat → Word) => on.flatMap fun j => (List.range b).map fun n =>
         (s.core.num * 65536 + (adr j).toNat + n, (lane w (s.v v).val j).extractLsb' (8 * n) 8)
       let stores := fun (i : Instr) (adr : Nat → Word) (folds : List Handle) =>
         (∀ j ∈ on, (adr j).toNat + b ≤ 65536 ∧ (adr j).toNat % b = 0) → s.core.regs.lab = false →
           ∀ s₁ s₂, s.fold folds = .ok s₁ → (if on = [] then s₂ = s₁ else s₁.records (hs ++ [s₁.dep]) = .ok s₂) →
           Issues i s 4 s₂ id (bytes adr) ((hs ++ [s₁.dep]).filter fun l => decide (l ≠ always))
       (k = 0 → base.toNat % 64 = 0 → base.toNat + 64 ≤ 65536 → (s.core.regs.lab = true → s.core.regs.frm = s.task.frame) →
         ∀ s₁ s₂ ls, s.fold [s.xl r] = .ok s₁ → StoreLabels s₁ hs s₂ ls →
           Issues (.vst r v e k) s 4 s₂ id (bytes fun j => base + word (j * b)) ls)
       ∧ (base.toNat % 64 = 0 → stores (.vst r v e k) (fun j => base + word (j * b)) [s.xl r])
       ∧ stores (.vsts v r x e k) (fun j => base + word j * s.xv x) [s.xl r, s.xl x]
       ∧ (e = 0 ∨ e = 3 →
           stores (.vsct v r t e k) (fun j => base + word ((lane 32 (s.v t).val j).toNat * b)) [s.xl r, (s.v t).lbl]))

/-- R88 to R93, R275 to R277: the residue forms, the scale that a histogram gives and the conversion with its carry. -/
def Obligations.ResidueForms : Prop :=
  -- R88 to R93, R275 to R277: the residue forms. `qst.e4m3` issues the scale words of an opened block, then its 16 bytes; without
  -- a map it opens a block with the scale of the register's histogram and zero carries.
  (∀ (d r t x : BitVec 5) (e : BitVec 2) (m : BitVec 3) (s : State), s.Ready → d.toNat < 16 → t.toNat < 16 →
     let q := s.ereg e
     let v := s.v t
     let map := s.mreg m
     let b := fun (c : Bool) (n : Nat) => if c then 2 ^ n else 0
     (∀ h s₁, s.prod [q.lbl, v.lbl, s.dep] = .ok (h, s₁) →
       Retires (.qsc t e) s 4 { st := s₁.putE e { q with supplied := v.val, lbl := h } })
     ∧ Writes (.qstat x e) s 4 x (word (q.satc.toNat * 2 ^ 48 + b q.nan 47 + b q.badsc 46 + b q.axis 45 + q.pos % 512 * 2 ^ 32
         + q.scale.toNat % 2 ^ 32)) [q.lbl]
     ∧ VWrites (.qcar d e) s d q.carry [q.lbl]
     ∧ (∀ h s₁, s.prod [s.dep] = .ok (h, s₁) → Retires (.qclr e) s 4 { st := s₁.putE e { lbl := h } })
     ∧ (m = 0 → ∃ hist, (∀ z : Int, -149 ≤ z → z ≤ 127 → Tab.get 0 hist (z + 512).toNat = Tab.get 0 q.hist (z + 512).toNat
           + ((List.range 16).filter fun j => decide (fp32.exponent (lane 32 v.val j).toNat = some z)).length)
         ∧ ∀ h s₁, s.prod [q.lbl, v.lbl, s.dep] = .ok (h, s₁) →
             Retires (.qhist t e m) s 4 { st := s₁.putE e { q with hist := hist, lbl := h } })
     ∧ (m ≠ 0 → map.valid = false →
         Traps (.qhist t e m) s (withEnc (.qhist t e m) { cause := 0x0A, d6 := word (2 * 256 + m.toNat) }))
     ∧ (m ≠ 0 → map.valid = true → map.fmt ≠ 0 →
         Traps (.qhist t e m) s (withEnc (.qhist t e m) { cause := 0x0A, d6 := word (3 * 256 + m.toNat) }))
     ∧ (s.core.regs.lab = false → ∀ mp p, s.quantMap (s.xv r) m = .ok mp → quantSpot (s.xv r) m mp = .ok p →
         let a := (s.xv r).toNat
         let out := q.shape v.val m mp p
         let own := s.core.num * 65536
         a % 16 = 0 → a + 16 ≤ 65536 → (∀ w ∈ out.2.2, w.1.toNat + 4 ≤ 65536) → s.strm.early = [] →
           ∀ s₁ l s₂ s₃, s.fold [s.xl r] = .ok s₁ →
           s₁.prod ([v.lbl, q.lbl] ++ (if m = 0 then [] else [map.lbl]) ++ [s₁.dep]) = .ok (l, s₂) →
           s₂.records [l, s₂.dep] = .ok s₃ →
           Issues (.qstE4m3 x r t e m) s 4 s₃ (fun y => (y.putE e { out.1 with lbl := l }).putX x ⟨word (out.1.scale.toNat % 2 ^ 32), l⟩)
             ((out.2.2.flatMap fun w => (List.range 4).map fun n => (own + w.1.toNat + n, BitVec.ofNat 8 (w.2 / 2 ^ (8 * n))))
               ++ (List.range 16).map fun n => (own + a + n, out.2.1.getD n 0))
             ([l, s₂.dep].filter fun h => decide (h ≠ always)))
     ∧ (let sc := histScale q.hist 0 0
        let out := q.shape v.val 0 none ⟨0, 0, 16, 16, 1⟩
        let x := fun (j : Nat) => (lane 32 v.val j).toNat
        ∃ c : Nat → Nat, c 0 = 0
         ∧ (∀ j, j < 16 → c (j + 1) = (quantOne (x j) sc (c j)).2.1 ∧ out.2.1[j]? = some (BitVec.ofNat 8 (quantOne (x j) sc (c j)).1))
         ∧ (lane 32 out.1.carry 0).toNat = c 16 % 2 ^ 32 ∧ (∀ j, 0 < j → j < 16 → lane 32 out.1.carry j = 0)
         ∧ out.2.1.length = 16 ∧ out.2.2 = [] ∧ out.1.pos = 16 ∧ out.1.hist = [] ∧ out.1.last = none
         ∧ (∀ j, j < 16 → (lane 32 out.1.scale j).toNat = sc % 2 ^ 32)
         ∧ (let sats := ((List.range 16).filter fun j => decide ((quantOne (x j) sc (c j)).2.2 = .sat)).length
            out.1.satc.toNat = min (q.satc.toNat + sats) 0xFFFF)
         ∧ (out.1.nan = true ↔ q.nan = true ∨ ∃ j, j < 16 ∧ (quantOne (x j) sc (c j)).2.2 = .nan)))
  -- R91, R93: the scale is 2^(E − 7), at least 2^−149, of the smallest exponent E present in the lane's multiset that at most CLIP elements
  -- exceed, and 1.0 for an empty one; a supplied scale is kept where it is positive and normal. One element: v / scale + c rounded once, its nearest E4M3
  -- value, and as the next carry what that leaves, none after a NaN or a saturation.
  ∧ ((∀ (hist : Tab Nat) (lane clip : Nat), Tab.wf 0 hist = true →
       (∀ p ∈ hist, 363 ≤ p.1 % 1024 ∧ p.1 % 1024 ≤ 639) →
       let count := fun (k : Nat) => Tab.get 0 hist (1024 * lane + 363 + k)
       let above := fun (k : Nat) => ((List.range 277).map fun j => if k < j then count j else 0).sum
       let sc := histScale hist lane clip
       ((∀ k, k < 277 → count k = 0) → sc = 0x3F800000)
       -- exponent k − 149
       ∧ (∀ k, k < 277 → count k ≠ 0 → above k ≤ clip → (∀ j, j < k → count j ≠ 0 → clip < above j) →
           sc < 2 ^ 31 ∧ fp32.Finite sc ∧ fp32.real sc = 2 ^ max ((k : Int) - 156) (-149)))
     ∧ (∀ x : Nat, x < 2 ^ 32 → (goodScale x = true ↔ fp32.signOf x = 0 ∧ fp32.expOf x ≠ 0 ∧ fp32.expOf x ≠ 255))
     ∧ (∀ v sc c : Nat, v < 2 ^ 32 → sc < 2 ^ 31 → c < 2 ^ 32 → fp32.Finite sc → 0 < fp32.real sc → fp32.Finite c →
         let v1 := quantStep v sc c
         let o := quantOne v sc c
         (fp32.NaN v → v1 = 0x7FC00000) ∧ (fp32.Infinite v → v1 = v)
         ∧ (fp32.Finite v →
             fp32.Result (fp32.real v / fp32.real sc + fp32.real c) (if fp32.signOf v = 1 ∧ fp32.signOf c = 1 then 1 else 0) v1)
         ∧ (fp32.NaN v1 → o = (0x7F, 0, .nan)) ∧ (fp32.Infinite v1 → o = (e4m3.zeroOf (fp32.signOf v1) + 0x7E, 0, .sat))
         ∧ (fp32.Finite v1 →
             let x := fp32.real v1
             (x = 0 → o.1 = e4m3.zeroOf (fp32.signOf v1)) ∧ (x ≠ 0 → e4m3.Nearest x o.1)
             ∧ (464 < |x| → o.2 = (0, .sat))
             ∧ (|x| ≤ 464 → o.2.2 = .plain ∧ o.2.1 < 2 ^ 32 ∧ fp32.Finite o.2.1 ∧ fp32.real o.2.1 = x - e4m3.real o.1
               ∧ (x = e4m3.real o.1 → o.2.1 = 0)))))

/-- R121 to R123, R282: the tensor-map forms. A rewritten map ends the last store of every residue register that named it. -/
def Obligations.TensorMapForms : Prop :=
  ∀ (m : BitVec 3) (d r : BitVec 5) (n : BitVec 2) (s : State), s.Ready →
    let a := s.xv r
    let x := s.mreg m
    let done := fun (y z : State) (new : MReg) => y.mreg m = new ∧ (∀ o, o ≠ m → y.mreg o = z.mreg o) ∧ (∀ q, y.x q = z.x q)
      ∧ y.dep = z.dep ∧ ∀ e, y.ereg e = (match (z.ereg e).last with
          | some l => if l.map = m.toNat then { z.ereg e with last := none } else z.ereg e
          | none => z.ereg e)
    (m = 0 → ∀ p ∈ [(Instr.tmapLd m r, a), (.tmapRd d n m, 0), (.tmapMov m r, a)], a.toNat < 2 ^ 48 →
      Traps p.1 s (withEnc p.1 { cause := 0x0A, val := p.2, d6 := 0x100 }))
    ∧ (m ≠ 0 → s.Quiet → a.toNat % 32 = 0 → s.OwnScratch a.toNat 32 → ∀ s₁ h s₂, s.fold [s.xl r] = .ok s₁ →
        let at' := s.core.num * 65536 + a.toNat
        let w := fun (i : Nat) => BitVec.ofNat 64 (leNat (s.spmAt (at' + 8 * i) 8))
        s₁.prod (s.spmLabels at' 32 ++ [s₁.dep]) = .ok (h, s₂) →
        ∃ y, Retires (.tmapLd m r) s 4 { st := y } ∧ done y s₂
          ⟨w 0 &&& 0x0000FFFFFFFFFFFF, w 1 &&& 0xFF00FFFFFFFFFFFF, w 2, w 3 &&& 0xFFFFFC0000000001, h⟩)
    ∧ (m ≠ 0 → Writes (.tmapRd d n m) s 4 d (if n = 0 then x.d0 else if n = 1 then x.d1 else if n = 2 then x.d2 else x.d3) [x.lbl])
    ∧ (2 ^ 48 ≤ a.toNat → Traps (.tmapMov m r) s (withEnc (.tmapMov m r) { cause := 0x07, val := a, d6 := 1 }))
    ∧ (m ≠ 0 → a.toNat < 2 ^ 48 → ∀ h s₁, s.prod [x.lbl, s.xl r, s.dep] = .ok (h, s₁) →
        ∃ y, Retires (.tmapMov m r) s 4 { st := y } ∧ done y s₁ { x with d0 := a, lbl := h })

/-- R176, R281, R348: `rep.open` captures and skips; `rep.run` refuses an empty buffer, a count past 16 bits and a disallowed
instruction, folds its operands, and runs the buffer once to each pass with the register and base steps. -/
def Obligations.RepetitionForms : Prop :=
  ∀ (n p : BitVec 4) (r t : BitVec 5) (s : State), s.Ready → s.actStream = 0 → s.task.rep.run = none →
    let body := s.task.rep.body
    let trap := fun (kind d6 : Nat) => Traps (.repRun r t p) s { cause := 0x23, d5 := word kind, d6 := word d6 }
    let run := fun (x : State) => Retires (.repRun r t p) s 4 { st := x }
    let on := fun (x : State) => x.modStrm fun k => { k with wait := none, reply := none, asks := false, shared := none, under := none }
    let stop := fun (x : State) => x.modTask fun k => { k with rep := { k.rep with run := none } }
    (∀ is e, s.capture (n.toNat + 1) (s.pc + 4) = .ok (is, e) →
      Retires (.repOpen n) s 4 { st := s.modTask fun k => { k with rep := { body := is } }, ctl := .jump e })
    ∧ (body = [] → trap 0 0)
    ∧ (body ≠ [] → 65536 ≤ (s.xv r).toNat → trap 1 (s.xv r).toNat)
    ∧ (∀ k, (s.xv r).toNat < 65536 → k < body.length → body[k]? = some none → (∀ j, j < k → body[j]? ≠ some none) → trap 2 k)
    ∧ (body ≠ [] → none ∉ body → s.strm.early = [] → ∀ s₁, s.fold [s.xl r, s.xl t] = .ok s₁ →
        (s.xv r = 0 → run (stop s₁))
        ∧ ∀ i b₀, body = [some i] → captured 0 0 i = some b₀ → ∀ d₀, b₀ s₁ = .ok d₀ → d₀.st.task.rep = s.task.rep → d₀.st.strm.early = [] →
          (s.xv r = 1 → run (stop (on d₀.st)))
          ∧ ∀ b₁ d₁, captured p.toNat (s.xv t) i = some b₁ → b₁ (on d₀.st) = .ok d₁ → d₁.st.strm.early = [] → d₀.st.defer = false → s.xv r = 2 → run (stop (on d₁.st)))
    ∧ (∀ u : Nat, ∀ o : Word, ∀ d a b : BitVec 5, ∀ e k : BitVec 2,
        captured u o (.vadd d a b e k)
          = captured 0 0 (.vadd (BitVec.ofNat 5 ((d.toNat + u) % 16)) (BitVec.ofNat 5 ((a.toNat + u) % 16))
              (BitVec.ofNat 5 ((b.toNat + u) % 16)) e k))

/-- R160, R161, R286: the accumulator forms on the own scratchpad; a tile that a gang operation writes makes them wait, and a
tile without valid contents traps the forms that read it. -/
def Obligations.AccumulatorForms : Prop :=
  ∀ (q : BitVec 2) (r v : BitVec 5) (row : BitVec 4) (s : State), s.Ready → v.toNat < 16 →
    let a := s.acc q
    let ea := (s.xv r).toNat
    let at' := s.core.num * 65536 + ea
    let rowOf := fun (c : BitVec 8192) (n : Nat) => c.extractLsb' (512 * n) 512
    let takes := fun (c : BitVec 8192) (x : Lanes) => ∀ n, n < 16 → rowOf c n = if n = row.toNat then x else rowOf a.cells n
    let fills := fun (i : Instr) (x : BitVec 32) (hs : List Handle) => ∃ c : BitVec 8192,
      (∀ n, n < 256 → c.extractLsb' (32 * n) 32 = x)
      ∧ ∀ h s₁, s.prod (hs ++ [s.dep]) = .ok (h, s₁) →
          Retires i s 4 { st := s₁.putAcc q { a with cells := c, lbl := h, inv := false } }
    (a.busy = true → ∀ i ∈ [Instr.accLd q r row, .accSt q r row, .accZero q, .accFill q r, .accTov q v row, .accFromv q v row],
      exec i s = .next (s.await .busy))
    ∧ (a.busy = false → a.inv = true → ∀ i ∈ [Instr.accLd q r row, .accSt q r row, .accTov q v row, .accFromv q v row],
        Traps i s (withEnc i { cause := 0x0F, val := word q.toNat, d6 := word (s.core.num % 16) }))
    ∧ (a.busy = false → fills (.accZero q) 0 [] ∧ fills (.accFill q r) ((s.xv r).setWidth 32) [s.xl r])
    ∧ (a.busy = false → a.inv = false →
        (s.Quiet → ea % 64 = 0 → s.OwnScratch ea 64 → ∃ c, takes c (BitVec.ofNat 512 (leNat (s.spmAt at' 64)))
          ∧ ∀ s₁ h s₂, s.fold [s.xl r] = .ok s₁ → s₁.prod (a.lbl :: s.spmLabels at' 64 ++ [s₁.dep]) = .ok (h, s₂) →
              Retires (.accLd q r row) s 4 { st := s₂.putAcc q { a with cells := c, lbl := h } })
        ∧ ((s.core.regs.lab = true → s.core.regs.frm = s.task.frame) → s.strm.early = [] → ea % 64 = 0 → ea + 64 ≤ 65536 →
            ∀ s₁ s₂ ls, s.fold [s.xl r] = .ok s₁ → StoreLabels s₁ [a.lbl] s₂ ls →
            Issues (.accSt q r row) s 4 s₂ id
              ((List.range 64).map fun n => (at' + n, (rowOf a.cells row.toNat).extractLsb' (8 * n) 8)) ls)
        ∧ VWrites (.accTov q v row) s v (rowOf a.cells row.toNat) [a.lbl]
        ∧ ∃ c, takes c (s.v v).val ∧ ∀ h s₁, s.prod [a.lbl, (s.v v).lbl, s.dep] = .ok (h, s₁) →
            Retires (.accFromv q v row) s 4 { st := s₁.putAcc q { a with cells := c, lbl := h } })

/-! ### Gang issue and engine commands -/

/-- R154, R155, R161, R284, R372: a gang form that passes its first stage arrives and waits, and retires on the answer of the
start step; the first stage's traps; `hot.cnt`. -/
def Obligations.GangForms : Prop :=
  ∀ (m p n u : BitVec 3) (d r t : BitVec 5) (a q : BitVec 2) (w : BitVec 6) (s : State),
    let g := groupOf s.core.num
    let fails := fun (i : Instr) (tr : Trap) => exec i s = .next ((s.setFailed true).takeTrap tr)
    (∀ x ∈ [(Instr.gangWld m r u q, GangOp.wld q u, m, r), (.gangMma m a r p n w, .mma w n p a, m, r),
        (.hotReg m r t, .reg (s.xv t), m, r), (.hotMig u, .mig u, 0, 0)],
      let i := x.1
      (s.Ready → s.actStream = 0 → s.arrived = false → (s.groupAt g).flight = none →
        s.gangCheck x.2.1 x.2.2.1 x.2.2.2 = none → s.heldIn 6 = false →
        ∃ y, exec i s = .next y ∧ y.strm.wait = some ⟨.gang, s.cycle⟩ ∧ y.pc = s.pc ∧ y.mem = s.mem ∧ (∀ k, y.x k = s.x k)
          ∧ (y.groupAt g).arrivals = (s.groupAt g).arrivals ++ [{
              core := s.core.num, uid := s.task.info.uid, op := x.2.1, word := ((encode i).getD (32, 0)).2, frame := s.task.frame
              xs := s.x x.2.2.2, map := s.mreg x.2.2.1, dep := s.dep, since := s.cycle }])
      ∧ (s.core.running = true → s.strm.reply = some .done → s.task.spCount < 1024 → s.task.info.carried = none →
          Retires i s 4 { st := s })
      ∧ (s.Ready → s.actStream = 1 → fails i { cause := 0x1D, val := encWord i }))
    ∧ (s.Ready → s.actStream = 0 → s.arrived = false → (s.groupAt g).flight = none →
        let operand := fun (i : Instr) (kind : Nat) => fails i { cause := 0x0D, val := encWord i, d5 := encWord i, d6 := word kind }
        let map := fun (i : Instr) (kind : Nat) =>
          fails i { cause := 0x0A, val := s.xv r, d5 := encWord i, d6 := word (kind * 256 + m.toNat) }
        (4 < a.toNat + (w.toNat + 16) / 16 → operand (.gangMma m a r p n w) 1)
        ∧ (a.toNat + (w.toNat + 16) / 16 ≤ 4 → 7 < p.toNat + n.toNat → operand (.gangMma m a r p n w) 2)
        ∧ (s.xv t &&& 0xFFFFFFFF0000F800 ≠ 0 → operand (.hotReg m r t) 4)
        ∧ ((s.planeAt g u.toNat).mgd = false → operand (.hotMig u) 5)
        ∧ (m = 0 → map (.gangWld m r u q) 1)
        ∧ (m ≠ 0 → (s.mreg m).valid = false → map (.gangWld m r u q) 2)
        ∧ (m ≠ 0 → (s.mreg m).valid = true → 4 < (s.mreg m).fmt ∨ (s.mreg m).rstride = 0 → map (.gangWld m r u q) 3))
    ∧ (s.Ready →
        let v := s.xv r
        let x := s.planeAt g (bits v 12 3)
        let k := bits v 0 11
        (v &&& 0xFFFFFFFFFFFF8800 ≠ 0 → Traps (.hotCnt d r) s (withEnc (.hotCnt d r) { cause := 0x07, val := v, d6 := 1 }))
        ∧ (v &&& 0xFFFFFFFFFFFF8800 = 0 → Writes (.hotCnt d r) s 4 d
            (if x.mgd = true ∧ k < x.kext then
              word (Tab.get 0 x.counters k + (if k ∈ x.hotset then 2 ^ 16 else 0) + 2 ^ 17) else 0) [s.xl r]))

/-- R85 to R87: what one block of 256 products does to a cell in each semiring: the saturating INT8 sum and its SAT, min-plus, max
of rounded UQ0.8 products, and Boolean or-and; and one FP32 addition for E4M3. -/
def Obligations.CellArithmetic : Prop :=
  ∀ (c : BitVec 32) (b : BlockIn),
    let ps := b.acts.zip b.weights
    (∀ a ∈ b.acts, a < 65536) → (∀ a ∈ b.weights, a < 65536) →
    (let z := c.toInt + (ps.map fun p => (BitVec.ofNat 8 p.1).toInt * (BitVec.ofNat 8 p.2).toInt).sum
     cellStep 0 1 c.toNat b = ((BitVec.ofInt 32 (max (-2147483648) (min 2147483647 z))).toNat,
       decide (z < -2147483648 ∨ 2147483647 < z)))
    ∧ (let add := fun (p : Nat × Nat) => if p.1 = 0x7FFF ∨ p.2 = 0x7FFF then (32767 : Int) else
         max (-32768) (min 32767 ((BitVec.ofNat 16 p.1).toInt + (BitVec.ofNat 16 p.2).toInt))
       let start := max (-32768) (min 32767 c.toInt)
       ∃ z : Int, cellStep 1 2 c.toNat b = ((BitVec.ofInt 32 z).toNat, false) ∧ z ≤ start ∧ (∀ p ∈ ps, z ≤ add p)
         ∧ (z = start ∨ ∃ p ∈ ps, z = add p))
    ∧ (let mul := fun (p : Nat × Nat) => (p.1 * p.2 + 128) / 256
       let start := (max 0 (min 255 c.toInt)).toNat
       ∃ z : Nat, cellStep 2 3 c.toNat b = (z, false) ∧ start ≤ z ∧ (∀ p ∈ ps, mul p ≤ z) ∧ (z = start ∨ ∃ p ∈ ps, z = mul p))
    ∧ ((cellStep 3 4 c.toNat b).1 = if c ≠ 0 ∨ (1, 1) ∈ ps then 1 else 0)
    ∧ (b.nan = false → (∀ p ∈ ps, p.1 % 128 ≠ 127 ∧ p.2 % 128 ≠ 127) →
        (cellStep 0 0 c.toNat b).1 = fp32.add c.toNat (promoted false (b.sum e4m3Int) b.sa b.sb))
    ∧ (b.nan = true → (cellStep 0 0 c.toNat b).1 = fp32.add c.toNat 0x7FC00000)

/-- R135, R169 to R174, R287, R357, R358: engine commands and their cancel. -/
def Obligations.EngineForms : Prop :=
  -- R135, R169 to R173, R287, R357: issuing a command whose block lies in the own scratchpad. The cancel handle goes to x[rd]
  -- under the command's label, which is formed where a register or a labelled destination takes it; a block of the first five offences is queued as ill-formed with status 3 deposited; a
  -- length of 0 deposits status 1; a command on scratchpads that overlaps nothing joins the engine's queue in the order of classes
  -- (log 88).
  (∀ (d r : BitVec 5) (s : State), s.Ready → s.Quiet → s.strm.refs = [] → (s.xv r).toNat % 32 = 0 →
     s.OwnScratch (s.xv r).toNat 32 → (∀ p ∈ (s.core.turnAt s.cycle).deposits, p.2 < s.nextId) →
     ∀ s₁ lc s₂, s.fold [s.xl r] = .ok s₁ →
     let at' := s.core.num * 65536 + (s.xv r).toNat
     let w := fun (i : Nat) => BitVec.ofNat 64 (leNat (s.spmAt (at' + 8 * i) 8))
     let sg := sgOf s.core.num
     let ls := (s.spmLabels at' 32 ++ [s₁.dep]).filter fun h => decide (h ≠ always)
     s₁.prod ls = .ok (lc, s₂) →
     ∀ p ∈ [(Instr.cpy d r, 0), (.gth d r, 1), (.coll d r, 2)],
     let e := p.2
     let k := s.engineAt sg e
     let handle := word (2 ^ 24 + k.seq % 65536 * 256 + e * 64 + sg)
     let dst := bits (w 0) 0 48
     let src := bits (w 1) 0 48
     let len := bits (w 2) 0 32
     let op := bits (w 2) 61 3
     let dep := bits (w 2) 53 5
     let esz := if e = 1 then bits (w 2) 50 3 else if e = 2 then (if op = 1 then 2 else 3) else 5
     let table := bits (w 3) 0 48
     let deposited := fun (y : State) (n : Nat) => s₂.task.moot = false → ∀ b : BitVec 5, b.toNat = dep → b ≠ 0 →
       y.xv b = word (n * 2 ^ 62) + handle
     let formed := d ≠ 0 ∨ dep ≠ 0 ∨ s.core.regs.lab = true
     -- behind the running command and those of its class and higher (R46)
     let joins := fun (y : State) (c : Cmd) => ∃ a b, k.queue = a ++ b ∧ (y.engineAt sg e).queue = a ++ c :: b ∧ (k.queue ≠ [] → a ≠ [])
       ∧ (∀ x ∈ a.tail, c.cls ≤ x.cls) ∧ ∀ x ∈ b.head?, x.cls < c.cls
     let issued := fun (y : State) => Retires p.1 s 4 { st := y } ∧ (y.engineAt sg e).seq = (k.seq + 1) % 65536
       ∧ (d ≠ 0 → d.toNat ≠ dep → y.x d = ⟨handle, lc⟩) ∧ y.mem.spm = s₂.mem.spm
     k.queue.length < 64 →
     (blockOffence e w ≠ 0 →
       ∃ y c, issued y ∧ deposited y 3 ∧ joins y c ∧ c.ill = true)
     ∧ (blockOffence e w = 0 → len = 0 → ∃ y, issued y ∧ deposited y 1 ∧ (y.engineAt sg e).queue = k.queue)
     ∧ (blockOffence e w = 0 → len ≠ 0 → e ≠ 1 → dst + len ≤ 65536 → src + len ≤ 65536 → dst + len ≤ src ∨ src + len ≤ dst →
         ∃ y c, issued y ∧ joins y c ∧ c.ill = false ∧ c.who = s.self ∧ c.seq = k.seq ∧ c.dst = dst
           ∧ c.src = src ∧ c.len = len ∧ c.op = op ∧ c.esz = esz ∧ c.depreg = dep ∧ (formed → c.lc = [lc]) ∧ (¬formed → c.lc = ls) ∧ c.frame = s.task.frame
           ∧ c.ctx = s.task.ctx ∧ c.left = List.range (len / 2 ^ esz) ∧ c.pins = []
           ∧ c.cls = (match s.task.info.launch with
             | some l => ((l.levels.find? fun v =>
                 covers s.host.phase v.scope s.core.num .spm (s.core.num * 65536 + dst)).map (·.prio)).getD s.task.prio.toNat
             | none => s.task.prio.toNat))
     ∧ (blockOffence e w = 0 → len ≠ 0 → e = 1 → s.core.regs.lab = false → dst + len * 2 ^ esz ≤ 65536 → src + 4 * len ≤ 65536 →
         dst + len * 2 ^ esz ≤ src ∨ src + 4 * len ≤ dst →
         (∀ t ∈ atomsOf (s.core.num * 65536 + src) (4 * len), Tab.get 0 s.mem.spmEcc t = 0) →
         0x10000000 ≤ table → table + (bits (w 3) 56 8 + 1) * 65536 ≤ 0x20000000 →
         let idx := (List.range len).map fun j => leNat (s.spmAt (s.core.num * 65536 + src + 4 * j) 4)
         (∀ x ∈ idx, (x + 1) * 2 ^ esz ≤ (bits (w 3) 56 8 + 1) * 65536) →
         ∃ y c, issued y ∧ joins y c ∧ c.ill = false ∧ c.table = table ∧ c.index = idx ∧ c.dst = dst
           ∧ c.left = List.range len))
  -- R174, R287, R358: `eng.cancel` answers 2 for a handle that is none of the task's, 1 for a command that has ended, and
  -- 0 having taken a live one off its queue; the deposit of the cancelled one follows the answer (the model's choice where both are one
  -- register, log 74).
  ∧ (∀ (d r : BitVec 5) (s : State), s.Ready →
       let h := s.xv r
       let e := bits h 6 2
       let k := s.engineAt (bits h 0 6) e
       let q := bits h 8 16
       let mine := h.getLsbD 24 = true ∧ h.toNat < 2 ^ 25 ∧ e ≠ 3 ∧ Tab.get 0 k.issued q = s.task.info.uid + 1
       (¬mine → Writes (.engCancel d r) s 4 d 2 [])
       ∧ (mine → (∀ c ∈ k.queue, c.seq ≠ q ∨ c.ill = true) → Writes (.engCancel d r) s 4 d 1 [])
       ∧ (mine → ∀ c, k.queue.find? (fun c => decide (c.seq = q) && !c.ill) = some c → c.torn = false →
           ((s.cancelCmd c).engineAt (sgOf c.who.core) c.code).queue
             = (s.engineAt (sgOf c.who.core) c.code).queue.filter (fun x => decide (x.id ≠ c.id))
           ∧ ∀ y, s.writeX d 0 [] = .ok y → Retires (.engCancel d r) s 4 { st := y.cancelCmd c }))

/-! ### Events -/

/-- R28 to R35, R102, R137, R319, R335, R340: how messages arrive and what dispatch makes of them. That a class-0 fault-handler task starts at PC 8 is
the model's reading (log 18). -/
def Obligations.MessageDeliveryEvents : Prop :=
  -- R32 to R35, R137, R138, R335: a message at the head of its channel, on a route that no transfer holds, is accepted while its receive
  -- queue is below the limit, and is otherwise refused with its header, or if it is a launch message goes back to the launch unit; in one
  -- cycle acceptances and refusals come after the core's dispatch, acceptances in ascending SRC order. Refusals, fault-handler messages and launch messages under way go on after their time.
  (∀ (i : Nat) (m : Msg) (s : State),
     let k := s.coreAt m.dest
     let now := s.cycleAt m.dest
     let turn := k.turnAt now
     -- a dispatch of the core in this cycle comes first
     let due := turn.stage = 0 ∧ k.freeSlot.isSome = true ∧ k.nextMsg.isSome = true
     (headOf s.channels i = some m → s.routeHeld m = true ∨ (s.msgLost m = false ∧ (3 ≤ turn.stage ∨ m.src < turn.src ∨ due)) →
       exec (.messageArrival i) s = .next s)
     ∧ (headOf s.channels i = some m → s.routeHeld m = false → s.msgLost m = false → turn.stage < 3 → turn.src ≤ m.src → ¬due →
       (k.recvq.length < k.regs.limit → Gives (.messageArrival i) s fun y =>
         y.channels = dropAt s.channels i ∧ y.refusals = s.refusals ∧ (y.coreAt m.dest).recvq = k.recvq ++ [{ m with arrived := now }]
           ∧ ((y.coreAt m.dest).turnAt now).src = m.src)
       ∧ (k.regs.limit ≤ k.recvq.length → m.launch = none → m.src ≠ 0x1FFF → m.fault = false → Gives (.messageArrival i) s fun y =>
         y.channels = dropAt s.channels i ∧ y.refusals = s.refusals ++ [{
           hdr := header m.src m.dest m.cls m.prio 1 true m.frame always, payload := [m.hdr, 0, 0, 0, 0, 0, 0] }])
       ∧ (k.regs.limit ≤ k.recvq.length → ∀ l f x, m.launch = some (l, f, x) → l.die < 2 → Gives (.messageArrival i) s fun y =>
         y.channels = dropAt s.channels i ∧ y.refusals = s.refusals
           ∧ (y.dieAt l.die).redeliver = (s.dieAt l.die).redeliver ++ [⟨m, s.cycleOf l.die⟩]))
     ∧ (headOf s.refusals i = some m → s.routeHeld m = false → s.msgLost m = false →
       (m.fault = false → 8 ≤ k.refq.length ∨ 3 ≤ turn.stage ∨ due → exec (.refusalArrival i) s = .next s)
       ∧ (m.fault = false → k.refq.length < 8 → turn.stage < 3 → ¬due → Gives (.refusalArrival i) s fun y =>
         y.refusals = dropAt s.refusals i ∧ (y.coreAt m.dest).refq = k.refq ++ [{ m with arrived := now }])
       ∧ (m.fault = true → Gives (.refusalArrival i) s fun y =>
         y.refusals = dropAt s.refusals i ∧ y.resend = s.resend ++ [⟨m, now⟩]))
     ∧ (∀ t, s.resend[i]? = some ⟨m, t⟩ → t + 512 ≤ now → Gives (.faultMessageResend i) s fun y =>
         y.resend = dropAt s.resend i
           ∧ y.channels = s.channels ++ [{ hdr := m.payload.headD 0, payload := payload7 m.payload.tail, fault := true }])
     ∧ (∀ t, (s.dieAt 0).redeliver[i]? = some ⟨m, t⟩ → t + 512 ≤ s.cycleOf 0 → Gives (.launchMessageRedelivery i) s fun y =>
         (y.dieAt 0).redeliver = dropAt (s.dieAt 0).redeliver i ∧ y.channels = s.channels ++ [m])
     ∧ (∀ t, (s.dieAt 1).redeliver[i]? = some ⟨m, t⟩ → t + 512 ≤ s.cycleOf 1 →
         Gives (.launchMessageRedelivery ((s.dieAt 0).redeliver.length + i)) s fun y =>
           (y.dieAt 1).redeliver = dropAt (s.dieAt 1).redeliver i ∧ y.channels = s.channels ++ [m]))
  -- R28 to R31, R33, R35, R102, R295, R319, R340: what dispatch makes of a message, one in a cycle, and an arrival handler's start.
  ∧ (∀ (c slot : Nat) (s : State), s.Parked → (s.coreAt c).freeSlot = some slot →
       let k := s.coreAt c
       let die := dieOf c
       let stage := (k.turnAt (s.cycleAt c)).stage
       (stage ≠ 0 → exec (.messageDispatch c) s = .next s)
       ∧ (∀ m k', stage = 0 → k.nextMsg = some (m, k') → m.refused = false → m.cls ≠ 0 →
         let e := Tab.get {} k.regs.rout m.cls
         let f := match m.launch with
           | some (_, f, _) => f
           | none => e.frame
         let ctx := match m.launch with
           | some (_, _, x) => x
           | none => e.ctx
         -- an entry with V = 1 starts a task in the free slot
         (e.v = true → m.frame = f ∨ m.lbl = always → (s.frameAt die f).metered = false → (s.frameAt die e.frame).metered = false →
           Gives (.messageDispatch c) s fun y =>
             let t := Tab.get {} (y.coreAt c).slots slot
             let a := c * 65536 + 0xF000 + 64 * slot
             t.frame = f ∧ t.ctx = ctx ∧ t.prio.toNat = m.prio ∧ t.msg = m.hdr ∧ t.info.status = .ready ∧ t.info.carried = none
               ∧ t.priv = (decide (0x1000 ≤ c) || (decide (m.cls = 63) && decide (0x1000 ≤ m.src ∧ m.src < 0x1048)))
               ∧ t.ex.active = true ∧ t.ex.pc = e.entry.toNat * 2 ∧ t.ex.dep = m.lbl ∧ t.ac.active = false
               ∧ t.regs.x[3] = ⟨word (0xF000 + 64 * slot), always⟩
               ∧ (∀ i : Fin 4, t.regs.x[4 + i.val] = ⟨m.payload.getD i.val 0, m.lbl⟩)
               ∧ (∀ i : Fin 32, i.val < 3 ∨ 7 < i.val → t.regs.x[i] = {})
               ∧ (∀ n : Nat, n < 8 → leNat (y.spmAt (a + 8 * n) 8) = ((m.hdr :: m.payload).getD n 0).toNat ∨ (m.hdr :: m.payload).length ≤ n)
               ∧ (∀ b, b < a ∨ a + 8 * (m.hdr :: m.payload).length ≤ b → Tab.get 0 y.mem.spm b = Tab.get 0 s.mem.spm b))
         -- any other entry consumes the message: no task starts, and a record of the cause is written
         ∧ (∀ p ∈ [(0x40, m.frame, e.v = false, (m.payload.headD 0).toNat, 0),
               (0x41, f, e.v = true ∧ m.frame ≠ f ∧ m.lbl ≠ always, m.frame.toNat, f.toNat),
               (0x42, if (s.frameAt die e.frame).metered then e.frame else f, e.v = true ∧ (m.frame = f ∨ m.lbl = always) ∧ e.attested = false
                 ∧ ((s.frameAt die f).metered = true ∨ (s.frameAt die e.frame).metered = true), (m.payload.headD 0).toNat, 0)],
             p.2.2.1 → exec (.messageDispatch c) s = .next
               ((((s.modCore c fun _ => k').enter c fun t => { t with stage := 1 }).record
                 { source := 2, core := c, die := die, frame := p.2.1, launch := m.launch.map (·.1) }
                 { cause := BitVec.ofNat 8 p.1, val := m.hdr, d5 := word p.2.2.2.1, d6 := word p.2.2.2.2 }).countEnd (m.launch.map (·.1)) c)))
       ∧ (∀ m k', stage = 0 → k.nextMsg = some (m, k') → m.refused = false → m.cls = 0 → (s.frameAt die m.frame).metered = false →
           Gives (.messageDispatch c) s fun y =>
             let t := Tab.get {} (y.coreAt c).slots slot
             t.frame = m.frame ∧ t.ctx = 0 ∧ t.ex.pc = 8 ∧ t.ex.dep = m.lbl ∧ t.info.carried = some m.code
               ∧ (y.coreAt c).recvq.head? = some { m with held := some s.nextId })
       ∧ (∀ d, k.dorm.find? (·.ready) = some d → Gives (.arrivalHandlerStart c) s fun y =>
           let t := Tab.get {} (y.coreAt c).slots slot
           (y.coreAt c).dorm = k.dorm.erase d ∧ t.frame = d.frame ∧ t.prio = d.prio ∧ t.ex.pc = d.pc ∧ t.ex.dep = d.dep ∧ t.ctx = 0
             ∧ t.regs.x[4] = ⟨d.addr, d.dep⟩ ∧ t.regs.x[5] = ⟨word d.count, d.dep⟩ ∧ t.msg = header c d.src 0 d.prio.toNat 0 false d.frame d.dep))

/-- R36, R37, R42, R47, R52, R73, R74, R153, R346: selection, ageing, completion of launches, releases and bounds. -/
def Obligations.SchedulingEvents : Prop :=
  ∀ (c : Nat) (s : State), s.Parked →
    let k := s.coreAt c
    -- a free core takes the ready task of the highest effective priority; ties go to the one that became ready first, then to the lower slot
    let now := s.cycleAt c
    let eff := fun (t : Task) => min 15 (t.prio.toNat + (now - t.info.readySince) / 4096)
    let ready := (k.slots.map (·.2)).filter fun t => decide (t.info.status = .ready)
    (∀ t ∈ ready, k.running = false → k.dbg.halted = false →
      (∀ x ∈ ready, x.info.aged = min 15 ((now - x.info.readySince) / 4096)) →
      (∀ x ∈ ready, x = t ∨ eff x < eff t ∨ (eff x = eff t ∧ (t.info.readySince < x.info.readySince
        ∨ (t.info.readySince = x.info.readySince ∧ t.info.slot < x.info.slot)))) →
      t.info.begun = true ∨ s.depDead (dieOf c) t.frame t.ex.dep = false → Gives (.taskSelection c) s fun y =>
        (y.coreAt c).running = true ∧ (y.coreAt c).task = { t with info := { t.info with status := .running, begun := true } }
          ∧ (y.coreAt c).slots = k.slots.filter (fun p => decide (p.1 ≠ t.info.slot)) ∧ y.mem = s.mem)
    -- a waiting task's priority rises by one every 4,096 cycles, to 15 at most
    ∧ (∀ slot, Gives (.ageing c slot) s fun y => (y.coreAt c).slots = k.slots.map fun p =>
        if p.1 = slot ∧ p.2.info.status = .ready then
          (p.1, { p.2 with info := { p.2.info with aged := min 15 ((s.cycleAt c - p.2.info.readySince) / 4096) } }) else p)
    -- a launch whose tasks have all ended adds one to its word and frees its entry
    ∧ (∀ die e, die < 2 → (Tab.get {} (s.dieAt die).pending e).live = true → (Tab.get {} (s.dieAt die).pending e).left = [] →
        ((Tab.get {} (s.dieAt die).pending e).word = none → Gives (.launchCompletion die e) s fun y =>
          (Tab.get {} (y.dieAt die).pending e).live = false ∧ y.mem = s.mem
            ∧ (y.dieAt die).barriers = (s.dieAt die).barriers.filter (fun b => decide (b.entry ≠ e)))
        ∧ (∀ pa l, (Tab.get {} (s.dieAt die).pending e).word = some (pa, l) → pa % 8 = 0 → s.owned (pa / 128) = false →
            s.coh.busy noAgent (pa / 128) = false → s.inSpill 0 pa = false → s.inSpill 1 pa = false → Tab.get 0 s.mem.mainEcc (pa / 32) = 0 →
            Gives (.launchCompletion die e) s fun y => (Tab.get {} (y.dieAt die).pending e).live = false
              ∧ wordOf (y.mainBytes pa 8) = wordOf (s.mainBytes pa 8) + 1))
    -- a barrier at which every core has arrived or ended opens its next generation
    ∧ (∀ die i b, die < 2 → (s.dieAt die).barriers[i]? = some b → s.barReady die b = true → Gives (.barrierRelease (2 * i + die)) s fun y =>
        (y.dieAt die).barriers[i]? = some { b with gen := b.gen + 1, arrived := [] } ∧ y.mem = s.mem)
    -- a notice makes the DEP of a task of its frame NEVER where no environment of it is free of nogoods
    ∧ (∀ f : BitVec 8, k.slots = [] → c = s.core.num → s.task.frame = f →
        Gives (.nogoodNotice c f.toNat) s fun y => y.mem = s.mem
          ∧ y.task.ex.dep = (if s.depDead s.die f s.task.ex.dep then never else s.task.ex.dep)
          ∧ y.task.ac.dep = (if s.depDead s.die f s.task.ac.dep then never else s.task.ac.dep))
    -- what a stream does that can step, and whose scratchpad banks are free; its next step comes after this one's latency
    ∧ (s.runnable = true → s.actStream ≤ 1 → s.core.atBreak s.actStream = false → s.bankLoses = false →
        let went := fun (i : Instr) (y : State) => ∃ t, exec i s = .next t ∧ y = (s.took false t).focus s.core.num s.actStream
        -- the 1,025th instruction traps, in a core with a handler
        (1024 ≤ s.task.spCount → s.strm.reply = none → s.endsEarly = false → s.core.regs.act = false → s.core.regs.tvec ≠ 0 →
          s.task.info.carried = none → s.task.moot = false →
          Gives (.safePointBound s.core.num s.actStream) s fun y => y.core.regs.cause = 0x20 ∧ y.core.regs.trapVal = 1025
            ∧ y.core.regs.act = true ∧ y.core.regs.trapPc = BitVec.ofNat 16 s.pc ∧ y.pc = s.core.regs.tvec.toNat ∧ y.task.spCount = 0)
        -- an `align` whose bound has elapsed retires
        ∧ (∀ n w, s.actStream = 0 → s.fetch = .instr (.align n) → s.strm.wait = some ⟨.align, w⟩ → w + n.toNat ≤ s.cycle →
          s.strm.reply = none → s.task.moot = false → s.task.spCount < 1024 → s.task.info.carried = none →
          Gives (.alignBound s.core.num) s (went (.align n)))
        -- a waiting commit or load is taken up again
        ∧ (∀ d r, s.fetch = .instr (.lblNogood d r) →
          Gives (.nogoodCommit s.core.num s.actStream) s (went (.lblNogood d r)))
        ∧ (∀ d r i, ∀ l ∈ [Instr.ldB d r i, .ldH d r i, .ldW d r i, .ldD d r i, .ldBu d r i, .ldHu d r i, .ldWu d r i],
          s.fetch = .instr l →
          Gives (.loadPerform s.core.num s.actStream) s (went l)))

/-! ### Events of the memory system and of the units -/

/-- R69, R70, R103 to R106, R115, R126, R129, R135: stores on their way and coherence traffic. -/
def Obligations.MemorySystemEvents : Prop :=
  -- R69, R70, R97, R98, R100, R105, R126, R129, R135, R341: DRAIN moves a store-buffer entry that nothing holds into the inbound queues; PERFORM
  -- writes the bytes of the head of its queue, which at a scratchpad has won its bank, or sets SUPP where the store is not visible or finds the label table full, or writes nothing
  -- where a window refuses it, or first invalidates the other holders of its line. A whole atom of a labelled space takes the label that the
  -- store was issued with, a part the Product with the atom's own.
  (∀ (i : Nat) (e : SbEntry) (s : State), s.Parked →
     (∀ c, (s.coreAt c).sb[i]? = some e → e.core = c →
       let held := (∃ x ∈ (s.coreAt c).sb ++ s.inbound.filter (fun x => decide (x.core = c)), x.id ∈ e.pre)
         ∨ (∃ k, k < 2 ∧ ∃ q ∈ (s.dieAt k).sluiceq, q.reduce = true ∧ q.id ∈ e.pre)
         ∨ ∃ x ∈ (s.coreAt c).sb.take i, x.space = e.space ∧ overlap x.addr x.bytes.length e.addr e.bytes.length = true
       (held → exec (.drain c i) s = .next s)
       ∧ (¬held → Gives (.drain c i) s fun y => (y.coreAt c).sb = dropAt (s.coreAt c).sb i ∧ y.inbound = s.inbound ++ [e] ∧ y.mem = s.mem))
     ∧ (s.inbound[i]? = some e →
       let behind := s.held e = true
         ∨ ∃ x ∈ s.inbound.take i, x.home s.host.phase = e.home s.host.phase ∧ x.core = e.core ∧ ¬(s.held x = true ∧ e.id < x.id)
       -- a scratchpad bank grants one access a cycle, the contending cores in turn
       let bank := bankOf e.addr
       let lost := e.space = .spm ∧ (s.bankTaken (e.addr / 65536) bank = true ∨ s.bankRival e = true)
       let seen := s.visible (dieOf e.core) e.frame (s.rawProduct (dieOf e.core) e.frame e.lbls) e.ctx
       let old := s.coreAt e.core
       let tile := tileOf e.core
       let line := e.addr / 128
       let n := e.bytes.length
       let main := decide (e.space = .main)
       let byte := fun (y : State) (a : Nat) => if main then y.mainByte a else Tab.get 0 y.mem.spm a
       let side := fun (y : State) (t : Nat) => if main then Tab.get always y.mem.mainSide t else Tab.get always y.mem.spmSide t
       let stored := fun (y : State) (a : Nat) => byte y a = if e.addr ≤ a ∧ a < e.addr + n then e.bytes.getD (a - e.addr) 0 else byte s a
       let supp := fun (y : State) => old.running = true → old.task.info.uid = e.uid → (y.coreAt e.core).task.supp = true
       let others := (Tab.get {} s.coh.dir line).others tile
       -- main memory is plain storage, no atom is in error, and the link and the line are free
       let ready := e.ask = none ∧ e.bytes ≠ [] ∧ s.mem.mainEcc = [] ∧ (∀ t ∈ atomsOf e.addr n, s.ecc e.space t = 0)
         ∧ s.linkCut e.core e.space e.addr (e.addr / 65536) = none ∧ ¬lost
         ∧ (e.space = .main → s.owned line = false ∧ (∀ p, s.inSpill 0 p = false ∧ s.inSpill 1 p = false) ∧ s.mem.notLive = []
           ∧ (e.cache = true → (∀ g ∈ s.coh.grants, g.line ≠ line) ∧ others = []))
       let labelled := if main then e.labelled else (s.coreAt (e.addr / 65536)).regs.lab
       (behind ∨ lost ∨ (e.space = .main ∧ s.owned line = true) → exec (.perform i) s = .next s)
       ∧ (¬behind → ready → s.refusesStore e = true → Gives (.perform i) s fun y => y.inbound = dropAt s.inbound i ∧ y.mem = s.mem)
       ∧ (¬behind → ready → e.space = .spm → Gives (.perform i) s fun y => Tab.get (0, 0) y.banks bank = (s.cycleAt (e.addr / 65536) + 1, e.core)
           ∧ ∀ b, b ≠ bank → Tab.get (0, 0) y.banks b = Tab.get (0, 0) s.banks b)
       ∧ (¬behind → ready → s.refusesStore e = false →
         (labelled = false → e.test = none → Gives (.perform i) s fun y =>
           y.inbound = dropAt s.inbound i ∧ (if main then y.mem.spm = s.mem.spm else y.mem.main = s.mem.main)
           ∧ (seen = true → (∀ a, stored y a) ∧ ∀ t ∈ atomsOf e.addr n, side y t = always)
           ∧ (seen = false → (∀ a, byte y a = byte s a) ∧ supp y)
           ∧ (e.space = .main → e.cache = true → Tab.get {} y.coh.dir line = DirEntry.exclusive tile))
         ∧ (labelled = true → n = 32 → e.addr % 32 = 0 → ∀ h, e.lbls = [h] → Gives (.perform i) s fun y =>
           y.inbound = dropAt s.inbound i ∧ (∀ a, stored y a) ∧ side y (e.addr / 32) = h
           ∧ ∀ t, t ≠ e.addr / 32 → side y t = side s t)
         ∧ (labelled = true → e.addr % 32 + n < 32 →
           (∀ h x, s.product (dieOf e.core) e.frame true (side s (e.addr / 32) :: e.lbls) = .ok (h, x) → Gives (.perform i) s fun y =>
             y.inbound = dropAt s.inbound i ∧ side y (e.addr / 32) = h
             ∧ (∀ a, e.addr ≤ a → a < e.addr + n → byte y a = e.bytes.getD (a - e.addr) 0)
             ∧ (e.space = .spm → (∀ a, stored y a) ∧ ∀ t, t ≠ e.addr / 32 → side y t = side s t))
           ∧ (∀ r, s.product (dieOf e.core) e.frame true (side s (e.addr / 32) :: e.lbls) = .error r → Gives (.perform i) s fun y =>
             y.inbound = dropAt s.inbound i ∧ y.mem = s.mem ∧ supp y)))
       ∧ (¬behind → e.space = .main → s.owned line = false → e.cache = true → s.linkDown e.core e.addr = none → (∀ g ∈ s.coh.grants, g.line ≠ line) →
         others ≠ [] →
         Gives (.perform i) s fun y => y.inbound = s.inbound ∧ y.mem = s.mem ∧ y.coh.grants = s.coh.grants ++ [⟨line, tile, others⟩])))
  -- R103 to R106, R115, R384: the home's last acknowledgement grants, and leaves the line uncached for a party that is no agent; a notice or
  -- a write-back removes its agent's pointer; a pseudo-channel idle for 16,384 base-die cycles sleeps and keeps everything.
  ∧ (∀ (line agent : Nat) (s : State),
       let e := Tab.get {} s.coh.dir line
       let same := fun (y : State) => y.mem = s.mem ∧ ∀ l, l ≠ line → Tab.get {} y.coh.dir l = Tab.get {} s.coh.dir l
       (∀ g, s.coh.grants.find? (fun g => decide (g.line = line) && g.waiting.contains agent) = some g →
         (g.waiting.erase agent = [] → Gives (.invalidationAcknowledgement line agent) s fun y =>
           same y ∧ y.coh.grants = s.coh.grants.erase g ∧ Tab.get {} y.coh.dir line = if g.agent = 2000 then {} else DirEntry.exclusive g.agent)
         ∧ (g.waiting.erase agent ≠ [] → Gives (.invalidationAcknowledgement line agent) s fun y =>
           same y ∧ y.coh.dir = s.coh.dir ∧ { g with waiting := g.waiting.erase agent } ∈ y.coh.grants))
       ∧ (e.coarse = false → s.coh.awaits line agent = false → agent ∈ e.ptrs →
         let removed := fun (y : State) => same y ∧ Tab.get {} y.coh.dir line =
           if e.ptrs.erase agent = [] then {} else { e with ptrs := e.ptrs.erase agent }
         ((line, agent) ∈ s.coh.notices → Gives (.evictionNotice line agent) s fun y =>
           removed y ∧ y.coh.notices = s.coh.notices.erase (line, agent))
         ∧ ((line, agent) ∈ s.coh.writeBacks → Gives (.writeBack line agent) s fun y =>
           removed y ∧ y.coh.writeBacks = s.coh.writeBacks.erase (line, agent)))
       ∧ (e.coarse = true ∨ s.coh.awaits line agent = true →
         ((line, agent) ∈ s.coh.notices → Gives (.evictionNotice line agent) s fun y => same y ∧ y.coh.dir = s.coh.dir)
         ∧ ((line, agent) ∈ s.coh.writeBacks → Gives (.writeBack line agent) s fun y => same y ∧ y.coh.dir = s.coh.dir))
       ∧ (∀ pch, (pch ∈ s.links.asleep ∨ s.clocks.base < Tab.get 0 s.links.used pch + 16384 → exec (.selfRefresh pch) s = .next s)
         ∧ (pch ∉ s.links.asleep → Tab.get 0 s.links.used pch + 16384 ≤ s.clocks.base →
           exec (.selfRefresh pch) s = .next { s with links := { s.links with asleep := pch :: s.links.asleep } })))

/-- R45, R117 to R119, R207, R303, R355, R356, R360: TLB misses, pages of other packages, and links. The layout of
a migrated context, its PC in dword 0, x[r] in dword r and CTX in dword 63, is the model's choice (log 21), and so is the privilege it
resumes with (log 44). -/
def Obligations.TranslationAndLinkEvents : Prop :=
  ∀ (entry : BitVec 8) (va n since l : Nat) (s : State),
    let c := s.core.num
    let st := s.actStream
    let kept := fun (y : State) => y.mem = s.mem ∧ y.pc = s.pc ∧ ∀ r, y.x r = s.x r
    let traps := fun (i : Instr) (t : Trap) => Gives i s fun y => kept y ∧ y.strm.reply = some (.trap t)
    let far := fun (home reason : Nat) => ({ cause := 0x35, val := word va, d5 := word home, d6 := word reason } : Trap)
    let remote := fun (i : Instr) (home : Nat) =>
      Gives i s fun y => kept y ∧ y.strm.wait = some ⟨.remote va home, s.cycle⟩ ∧ y.strm.reply = none
    ((Tab.get ({} : Group) s.groups (groupOf c)).arrivals = [] →
      (s.Waits (.tlb va n) since → (∀ t, s.mends .main t = false) →
        (∀ d, s.walk (s.tableOf c) va = .ok d → Gives (.tlbMiss c st entry) s fun y =>
          kept y ∧ y.strm.wait = none ∧ Tab.get (0, 0) y.tlb (tileOf c * 256 + entry.toNat)
            = (word (va / 65536 * 65536 + 1) &&& tagMask, d &&& dataMask))
        ∧ (∀ k, s.walk (s.tableOf c) va = .error k →
          (n ≠ 3 → n ≠ 4 → traps (.tlbMiss c st entry) { cause := 0x33, val := word va, d5 := word k, d6 := word n })
          -- a completion word's page makes its record ill-formed, a range page of an engine command is the command's fault
          ∧ (n = 3 → Gives (.tlbMiss c st entry) s fun y => kept y ∧ y.strm.reply = some .done)
          ∧ (n = 4 → Gives (.tlbMiss c st entry) s fun y =>
            kept y ∧ y.strm.wait = none ∧ y.strm.refs = s.strm.refs ++ [(va / 65536, none)])))
      ∧ (s.Waits (.migrate va n) since →
        (since + 2 ^ 20 ≤ s.cycle → remote (.migrationTimeout c st) n)
        ∧ (s.cycle < since + 2 ^ 20 → exec (.migrationTimeout c st) s = .next s)
        ∧ remote (.remoteAccessReply c st none) n
        ∧ (st = 0 → Gives (.taskMigration c) s fun y => y.mem = s.mem ∧ y.core.running = false
            ∧ Tab.get {} y.core.slots s.task.info.slot
              = { s.task with info := { s.task.info with status := .blocked, home := some (word n) } }))
      ∧ (s.Waits (.remote va n) since →
        (since + 2 ^ 24 ≤ s.cycle → traps (.remoteAccessTimeout c st) (far n 0))
        ∧ (s.cycle < since + 2 ^ 24 → exec (.remoteAccessTimeout c st) s = .next s)
        ∧ (∀ bs, Gives (.remoteAccessReply c st (some bs)) s fun y => kept y ∧ y.strm.reply = some (.bytes bs))
        ∧ traps (.remoteAccessReply c st none) (far n 1)))
    ∧ (∀ w k, s.Parked → (s.coreAt n).freeSlot = some k → Gives (.migratedTaskArrival n w) s fun y =>
        let t := Tab.get {} (y.coreAt n).slots k
        y.mem = s.mem ∧ t.info.status = .ready ∧ t.frame = 0 ∧ t.ctx = w.getD 63 0
          ∧ t.ex.active = true ∧ t.ex.pc = bits (w.getD 0 0) 1 15 * 2 ∧ t.ac.active = false
          ∧ t.priv = decide (0x1000 ≤ n) ∧ ∀ r : Fin 32, t.regs.x[r].val = if r.val = 0 then 0 else w.getD r.val 0)
    ∧ exec (.linkRetraining l) s = .next s ∧ exec (.flitReplay l) s = .next s
    ∧ (l ∈ s.links.down ∨ 12 < l → exec (.linkFailure l) s = .next s)
    ∧ (l ∉ s.links.down → l ≤ 12 → Gives (.linkFailure l) s fun y => y.links.down = l :: s.links.down
        ∧ (l ≠ 0 → y = (({ s with links := { s.links with down := l :: s.links.down } } : State).deviceRecord 0 0x47 (word l) 0 0).deviceRecord 1
            0x47 (word l) 0 0)
        ∧ (l = 0 → ∀ k, k < 2 → (y.dieAt k).sluiceq = (s.dieAt k).sluiceq.filter fun q => decide (q.die = k)))

/-- R102, R135, R141, R170 to R173, R341, R356, R357: what the steps of an engine's only command do: the read of a unit; the write of an atom by
a copy or a gather once its units have been read; the combination of an element by a collective command; a fault; the completion. The CTX of a command whose task has ended
is the one kept with the command (log 61: the model's reading). -/
def Obligations.EngineEvents : Prop :=
  ∀ (sg e i : Nat) (c : Cmd) (s : State), e < 4 → (s.engineAt sg e).queue = [c] → (s.engineAt sg e).halted = false →
    sgOf c.who.core = sg → c.code = e →
    let o := c.who.core
    let n := 2 ^ c.esz
    let lab := (s.coreAt o).regs.lab
    let side := fun (t : Nat) => if lab then Tab.get always s.mem.spmSide t else always
    let own := fun (a : Nat) => if a < 65536 then o * 65536 + a else a - 0x10000000
    -- `k` bytes at `a`, within one atom of the issuing core's scratchpad, which is not another frame's and in no error
    let place := fun (a k : Nat) => (a + k ≤ 65536 ∨ (0x10000000 + o * 65536 ≤ a ∧ a + k ≤ 0x10000000 + (o + 1) * 65536)) ∧ o < 4168
      ∧ a % 32 + k ≤ 32 ∧ 0 < k ∧ (lab = true → (s.coreAt o).regs.frm = c.frame) ∧ Tab.get 0 s.mem.spmEcc (own a / 32) = 0
    let ctx := match (s.coreAt o).taskOf c.who.uid with | some t => t.ctx | none => c.ctx
    let seen := fun (hs : List Handle) => s.visible (dieOf o) c.frame (s.rawProduct (dieOf o) c.frame hs) ctx
    let wrote := fun (y : State) (a : Nat) (bs : List Byte) => ∀ b, Tab.get 0 y.mem.spm b =
      if own a ≤ b ∧ b < own a + bs.length then bs.getD (b - own a) 0 else Tab.get 0 s.mem.spm b
    let deposited := fun (y : State) (m : Nat) => (y.engineAt sg e).queue = [] ∧ y.mem.spm = s.mem.spm
      ∧ (o = s.core.num → s.core.running = true → s.task.info.uid = c.who.uid → s.task.moot = false →
          (∀ p ∈ (s.core.turnAt s.cycle).deposits, p.2 ≤ c.id) →
          ∀ d : BitVec 5, d.toNat = c.depreg → d ≠ 0 → y.xv d = word (m * 2 ^ 62) + c.handle)
    (c.ill = false → i ∈ c.left →
      (let a := if e = 1 then c.table + c.index.getD i 0 * n else c.src + n * i
       place a n → Gives (.engineAccess sg e i) s fun y => y.mem = s.mem ∧ (y.engineAt sg e).queue = [{ c with
        left := c.left.erase i
        data := c.data ++ [(i, s.spmAt (own a) n, [side (own a / 32)] ++ (if e = 1 then c.ilbls.getD i [] else []) ++ c.lc)] }]))
    ∧ (c.ill = false → i ∉ c.left → c.ripe i = true → e ≠ 2 → c.hv = false → s.mem.mainEcc = [] →
      let us := c.mates i
      let parts := c.data.filter fun p => us.contains p.1
      let bs := us.flatMap fun j => ((parts.find? fun p => decide (p.1 = j)).map (·.2.1)).getD []
      let hs := (parts.flatMap (·.2.2)).eraseDups
      let a := c.dst + n * us.headD i
      let left := fun (y : State) => (y.engineAt sg e).queue = [{ c with
        data := c.data.filter fun p => !us.contains p.1, taken := true, acc := [] }]
      place a bs.length →
      (lab = false → Gives (.engineAccess sg e i) s fun y => left y
        ∧ (if seen hs then wrote y a bs ∧ Tab.get always y.mem.spmSide (own a / 32) = always else y.mem.spm = s.mem.spm))
      ∧ (lab = true → ∀ h x, s.form (dieOf o) c.frame true (if bs.length = 32 then hs else side (own a / 32) :: hs) = .ok (h, x) →
          Gives (.engineAccess sg e i) s fun y => left y ∧ wrote y a bs ∧ Tab.get always y.mem.spmSide (own a / 32) = h))
    -- the first element of an atom is combined where all of them can be, the others after it
    ∧ (c.ill = false → i ∉ c.left → c.ripe i = true → e = 2 → s.mem.mainEcc = [] →
      c.tornAt i = true ∨ (s.engElements c (i :: (c.mates i).erase i)).toOption.isSome = true →
      ∀ bs hs, c.data.find? (fun p => decide (p.1 = i)) = some (i, bs, hs) → bs.length = n →
      let a := c.dst + n * i
      let x : BitVec 64 := BitVec.ofNat 64 (leNat (s.spmAt (own a) n))
      let z : BitVec 64 := BitVec.ofNat 64 (leNat bs)
      let left := fun (y : State) => (y.engineAt sg e).queue = [{ c with data := c.data.filter fun p => decide (p.1 ≠ i), taken := true }]
      place a n → ∀ p ∈ [(0, 3, x + z), (1, 2, BitVec.ofNat 64 (fadd32 x.toNat z.toNat)), (2, 3, if z.slt x then z else x),
        (3, 3, if x.slt z then z else x), (4, 3, x ||| z)], c.op = p.1 → c.esz = p.2.1 →
      let new := leBytes n p.2.2.toNat
      (lab = false → Gives (.engineAccess sg e i) s fun y => left y
        ∧ (if seen (always :: hs) then wrote y a new ∧ Tab.get always y.mem.spmSide (own a / 32) = always else y.mem.spm = s.mem.spm))
      ∧ (lab = true → ∀ h x, s.form (dieOf o) c.frame true (side (own a / 32) :: side (own a / 32) :: hs) = .ok (h, x) →
          Gives (.engineAccess sg e i) s fun y => left y ∧ wrote y a new ∧ Tab.get always y.mem.spmSide (own a / 32) = h))
    -- a unit whose source is in no space faults
    ∧ (c.ill = false → i ∈ c.left → c.hv = false → e ≠ 1 → c.torn = false →
        (let a := c.src + n * i
         0x10000 ≤ a ∧ a < 0x10000000) → Gives (.engineFault sg e i) s fun y => deposited y 3)
    ∧ (c.ill = false → c.left = [] → c.data = [] →
        (c.hv = false → Gives (.engineCompletion sg e) s fun y => deposited y 1)
        -- a copy into the issuing core's scratchpad makes its arrival handler ready
        ∧ (c.hv = true → c.taken = true → c.dst < 65536 → o = s.core.num → ∀ h x, s.product s.die c.frame true c.acc = .ok (h, x) →
            Gives (.engineCompletion sg e) s fun y => deposited y 1 ∧ y.core.dorm = s.core.dorm.map fun d =>
              if d.id = c.id ∧ d.ready = false then { d with ready := true, dep := h } else d))
    ∧ (c.ill = true → Gives (.engineQueueHalt sg e) s fun y => (y.engineAt sg e).halted = true ∧ (y.engineAt sg e).queue = [c]
        ∧ y.mem = s.mem ∧ y.core = s.core)

/-- R154, R157 to R162, R165, R320, R322, R341, R359, R372: what the events of a group and of the polder units do. The die and place of a
polder record (log 42) and the cycle from which the bound on arrivals counts (log 40) are the model's choices. -/
def Obligations.GangEvents : Prop :=
  ∀ (g p : Nat) (s : State), s.Parked →
    let k := s.groupAt g
    let own := fun (a : Arrival) => s.core.running = true ∧ k.arrivals.filter (fun a => decide (a.core = s.core.num)) = [a]
      ∧ a.uid = s.task.info.uid
    let mine := ∃ a, own a
    -- sixteen arrivals that agree on `hot.mig` start it; they retire, and the plane's instant is due
    (∀ m : BitVec 3, k.arrivals.length = 16 → k.flight = none → k.due = [] →
      (∃ w f, ∀ a ∈ k.arrivals, a.op = .mig m ∧ a.word = w ∧ a.frame = f) → Gives (.gangStart g) s fun y =>
        (y.groupAt g).arrivals = [] ∧ (y.groupAt g).due = [m.toNat] ∧ y.mem = s.mem ∧ (mine → y.task.ex.reply = some .done))
    -- an arrival whose frame differs from the lowest core's makes all raise the gang-arrival trap
    ∧ (k.arrivals.length = 16 → k.flight = none → k.due = [] → (k.arrivals.Pairwise fun a b => a.idx < b.idx) →
        ∀ a b rest, k.arrivals = a :: b :: rest → a.frame ≠ b.frame → Gives (.gangStart g) s fun y =>
          (y.groupAt g).arrivals = [] ∧ y.mem = s.mem ∧ ∀ o, own o → y.task.ex.reply = some (.trap { cause := 0x0B, val := word o.word, d5 := word o.word, d6 := word b.idx }))
    -- `gang.wld` leaves in its plane the elements and scales that the sixteen cores have read, `hot.reg` those of the hot rows
    ∧ (let as := sortBy (fun a b : Arrival => decide (a.idx ≤ b.idx)) k.arrivals
       let die := (as.head?.map fun a => dieOf a.core).getD 0
       let fmt := (as.head?.map fun a => a.map.fmt).getD 0
       let f := (as.head?.map (·.frame)).getD 0
       let kext := (as.head?.map fun a => a.map.rows - a.pos.1).getD 0
       as.map (·.idx) = List.range 16 → k.flight = none → k.due = [] → s.gangStage2 g as = none →
       ∀ o, as.head?.map (·.op) = some o → ∀ p sr mgd hot auto, ((∃ (q : BitVec 2) (u : BitVec 3), o = .wld q u ∧ p = u.toNat ∧ sr = q.toNat
            ∧ mgd = false ∧ hot = 256 ∧ auto = 0)
          ∨ ∃ w, o = .reg w ∧ p = bits w 8 3 ∧ sr = srOf fmt ∧ mgd = true ∧ hot = min (bits w 0 8 + 1) kext ∧ auto = bits w 16 16) →
       ∀ rs x h s₂, ({ st := s } : GReads).planeReads as (upto (if mgd then kext else 256)) (if mgd then (kext + 255) / 256 else 1) = .ok (rs, x) →
       (x.st.focus s.core.num s.actStream).form die f false (x.lbls ++ (as.map fun a => a.map.lbl) ++ as.map fun a => a.dep) = .ok (h, s₂) →
       Gives (.gangStart g) s fun y =>
        let q := y.planeAt g p
        (y.groupAt g).arrivals = [] ∧ (y.groupAt g).flight = none ∧ q.v = true ∧ q.mgd = mgd ∧ q.fmt.toNat = fmt % 8 ∧ q.sr.toNat = sr % 4
          ∧ q.frame = f ∧ q.lbl = h ∧ q.counters = [] ∧ q.ops = 0
          ∧ (mgd = true → q.kext = kext ∧ q.hot = hot ∧ q.auto.toNat = auto ∧ q.hotset = upto hot)
          ∧ (∀ i r, rs[i]? = some r → ∀ n j, n < hot → j < 16 →
              Tab.get 0 q.cells (256 * n + 16 * i + j) = ((r.1.getD n ([], [])).1).getD j 0)
          ∧ (∀ i r, rs[i]? = some r → ∀ b j, 16 * b + j < r.2.length → j < 16 →
              (Tab.get 0x3F800000 q.scales (256 * b + 16 * i + j)).toNat = r.2.getD (16 * b + j) 0 % 2 ^ 32)
          ∧ (mine → y.task.ex.reply = some .done))
    -- `gang.mma` starts a tile for every core and sixteen rows: each cell goes through the blocks of its row and column, plane by plane
    ∧ (let as := sortBy (fun a b : Arrival => decide (a.idx ≤ b.idx)) k.arrivals
       as.map (·.idx) = List.range 16 → k.flight = none → k.due = [] → s.gangStage2 g as = none →
       ∀ (mr : BitVec 6) (np p : BitVec 3) (n : BitVec 2), as.head?.map (·.op) = some (.mma mr np p n) →
       let rows := mr.toNat + 1
       let qs := (upto (np.toNat + 1)).map fun i => s.planeAt g (p.toNat + i)
       let q0 := s.planeAt g p.toNat
       let sup := as.filter fun a => decide (a.idx < rows)
       let die := (as.head?.map fun a => dieOf a.core).getD 0
       let f := (as.head?.map (·.frame)).getD 0
       (∀ q ∈ qs, q.mgd = false) → (∀ a ∈ as, a.core = s.core.num → a.uid = s.task.info.uid) → s.core.running = true →
       ∀ acts x, ({ st := s } : GReads).acts sup rows (256 * (np.toNat + 1)) (np.toNat + 1) = (acts, [], x) → s.mem.mainEcc = [] →
       let s₁ := x.st.focus s.core.num s.actStream
       Gives (.gangStart g) s fun y => ∃ fl, (y.groupAt g).flight = some fl ∧ (y.groupAt g).arrivals = [] ∧ fl.plane = p.toNat ∧ fl.frame = f
        ∧ fl.fires = [] ∧ fl.polders = [] ∧ fl.meters = (qs.flatMap fun q => q.rowPa.map fun a => (a, rows))
        ∧ fl.tiles.map (fun w => (w.core, w.uid, w.tile))
          = (as.flatMap fun a => (upto ((rows + 15) / 16)).map fun m => (a.core, a.uid, n.toNat + m))
        ∧ (∀ a ∈ as, ∀ w ∈ fl.tiles, a.core = s.core.num → w.core = a.core →
            let old := s.task.regs.acc.getD w.tile {}
            let l := s₁.tileLab die f old.lbl a.dep (x.lbls ++ sup.flatMap fun a => [a.map.lbl, a.dep]) qs
            w.envs = l.envs ∧ w.inc = l.inc
            ∧ (y.task.regs.acc.getD w.tile {}) = { old with busy := true }
            ∧ ∀ r c, r < 16 → c < 16 →
                let cell := (old.cells.extractLsb' (32 * (16 * r + c)) 32).toNat
                let col := 16 * a.idx + c
                (w.cells.extractLsb' (32 * (16 * r + c)) 32).toNat =
                  match acts.find? fun t => decide (t.m = w.tile - n.toNat ∧ t.r = r) with
                  | none => cell
                  | some t => (cellSteps q0.sr.toNat q0.fmt.toNat cell (qs.zipIdx.map fun q => {
                      acts := (upto 256).map fun k => t.elts.getD (256 * q.2 + k) (zOf q.1.fmt.toNat)
                      weights := (upto 256).map fun k => Tab.get 0 q.1.cells (256 * k + col)
                      nan := Tab.get false q.1.nans col, sa := t.scales.getD q.2 0x3F800000
                      sb := (Tab.get 0x3F800000 q.1.scales col).toNat })).1 % 2 ^ 32)
        ∧ (mine → y.task.ex.reply = some .done))
    -- fewer than sixteen after 2^20 cycles
    ∧ (∀ a rest, k.arrivals = a :: rest → k.arrivals.length < 16 → a.since + 2 ^ 20 ≤ s.cycleAt (16 * g) → Gives (.gangArrivalBound g) s fun y =>
        (y.groupAt g).arrivals = [] ∧ y.mem = s.mem ∧ ∀ o, own o → y.task.ex.reply
          = some (.trap { cause := 0x0C, val := word (s.cycleAt (16 * g) - a.since), d5 := word o.word, d6 := word k.arrivals.length }))
    -- a completion writes its tile and adds its row-activations to the meters
    ∧ (∀ fl w h s₁, k.flight = some fl → fl.tiles = [w] → w.tile < 4 → w.core = s.core.num → w.uid = s.task.info.uid → s.core.running = true →
        s.intern s.die fl.frame (s.reduce s.die fl.frame { envs := w.envs, inc := w.inc }) = .ok (h, s₁) → s.meterHeld fl = false →
        (∀ st ∈ fl.polders, s.stackOut st = false) →
        Gives (.gangCompletion g) s fun y => (y.groupAt g).flight = none ∧ y.mem.spm = s.mem.spm
          ∧ (∀ i : Fin 4, i.val = w.tile → y.task.regs.acc[i] = { s.task.regs.acc[i] with
              cells := w.cells, lbl := h, busy := false, sat := s.task.regs.acc[i].sat || w.sat })
          ∧ ∀ r, (Tab.get {} s.sec.regions r).live = true →
              (Tab.get {} y.sec.regions r).count = min ((Tab.get {} s.sec.regions r).count + s.activations fl r) (2 ^ 64 - 1))
    ∧ (∀ fl st rest, k.flight = some fl → fl.polders = st :: rest → (∀ u, u < 16 → st * 16 + u ∈ s.links.polderOut) →
        Gives (.gangCompletion g) s fun y => (y.groupAt g).flight = none ∧ y.sec = s.sec)
    ∧ (∀ fl, k.flight = some fl → (∀ st ∈ fl.polders, s.stackOut st = false) → s.meterHeld fl = true → exec (.gangCompletion g) s = .next s)
    -- a migration instant halves the counters and makes the rows that fired most the hot ones
    ∧ (let q := s.planeAt g p
       let hit := fun (k : Nat) => Tab.get 0 q.counters k
       p ∈ k.due → q.mgd = true → Tab.wf 0 q.counters = true → q.hotset.Nodup → q.hotset.length = min q.hot q.kext →
       (∀ k, k < q.kext → s.rowPoisoned q k = false) → (∀ t, s.mends .main t = false) → (∀ k ∈ q.hotset, k < q.kext) → Gives (.migrationInstant g p) s fun y =>
        let q' := y.planeAt g p
        (y.groupAt g).due = k.due.erase p ∧ y.mem = s.mem ∧ q'.ops = 0 ∧ (∀ k, Tab.get 0 q'.counters k = hit k / 2)
          ∧ q'.hotset.length = q.hotset.length ∧ (∀ k ∈ q'.hotset, k < q.kext)
          ∧ ∀ a ∈ q'.hotset, ∀ b, b < q.kext → b ∉ q'.hotset → hit b < hit a ∨ (hit b = hit a ∧ a < b))
    -- a failed polder unit sends its rows again through another; with none left the operation fails and its tile is invalid
    ∧ (∀ fl stack u, k.flight = some fl → stack ∈ fl.polders → u < 16 → stack * 16 + u ∉ s.links.polderOut →
        ((∃ v, v < 16 ∧ v ≠ u ∧ stack * 16 + v ∉ s.links.polderOut) → exec (.polderFailure g stack u false) s
          = .next (({ s with links := { s.links with polderOut := (stack * 16 + u) :: s.links.polderOut } } : State).deviceRecord (stack / 6) 0x46
              (word (stack * 16 + u)) 0 0))
        ∧ ((∀ v, v < 16 → v ≠ u → stack * 16 + v ∈ s.links.polderOut) → ∀ w, fl.tiles = [w] → w.tile < 4 → w.core = s.core.num →
            w.uid = s.task.info.uid → s.core.running = true → ∀ again, Gives (.polderFailure g stack u again) s fun y =>
              (y.groupAt g).flight = none ∧ (∀ i : Fin 4, i.val = w.tile → y.task.regs.acc[i].inv = true ∧ y.task.regs.acc[i].busy = false)
                ∧ y.sec = s.sec))

/-- R27, R74, R138, R142 to R151, R208, R225, R345: what the ringdike does with each waiting action as a slot passes, what a sluice engine does
with each queued request, and what the stream ports do. -/
def Obligations.RingSluiceAndPortEvents : Prop :=
  ∀ (s : State), s.core.running = true → s.actStream ≤ 1 → s.die < 2 →
    let c := s.core.num
    let st := s.actStream
    -- the DEP under which an action's result is formed, where the labels of its address have given `d`
    let under := fun (d : Handle) => if s.task.moot then never else d
    (∀ q, s.ringq = [q] → q.who = s.self →
      let alone : State := { s with ringq := [] }
      let form := fun (y : State) (hs : List Handle) => y.form s.die q.frame false hs
      -- the label of the result, formed only where a register takes it
      let result := fun (y : State) (hs : List Handle) (h : Handle) (y' : State) =>
        if q.noRd = true then h = always ∧ y' = y else form y hs = .ok (h, y')
      let answers := fun (i : Instr) (v : Word) (h d : Handle) (P : State → Prop) =>
        Gives i s fun y => y.ringq = [] ∧ y.strm.reply = some (.value v h d) ∧ y.pc = s.pc ∧ P y
      let still := fun (y : State) => ∀ i, y.slot s.die i = s.slot s.die i
      (∀ j, slotAt (station c) s.cycle = some j → s.ringLate s.self = false → ¬(q.op = .board ∧ q.since + 512 ≤ s.cycle) →
        let x := s.slot s.die j
        let b := q.opd.val
        let mine := x.v = true ∧ x.frame = q.frame ∧ x.key = q.key
        let slotted := fun (n : Slot) (y : State) => y.slot s.die j = n ∧ ∀ i, i ≠ j → y.slot s.die i = s.slot s.die i
        ∀ d y₀, form (alone.ringTurns s.self) (q.dep :: q.fold) = .ok (d, y₀) →
        -- what only reads, and a board that finds its variable on the ring
        (∀ p ∈ [(q.op = .read, x.value, [x.handle]), (q.op = .cas ∧ x.value ≠ q.expected.val, x.value, [x.handle]), (q.op = .board, 2, [])],
          mine → p.1 → ∀ h y, result y₀ (p.2.2 ++ [under d]) h y → answers (.ringAction c st) p.2.1 h d still)
        -- what writes the variable
        ∧ (∀ p ∈ [(RingOp.add, x.value + b, [x.handle, q.opd.lbl]), (.min, if b.slt x.value then b else x.value, [x.handle, q.opd.lbl]),
            (.max, if x.value.slt b then b else x.value, [x.handle, q.opd.lbl]), (.swap, b, [q.opd.lbl]),
            (.cas, b, [x.handle, q.expected.lbl, q.opd.lbl])],
          mine → q.op = p.1 → (p.1 = .cas → x.value = q.expected.val) → ∀ n y₁ h y, form y₀ (p.2.2 ++ [under d]) = .ok (n, y₁) → n ≠ never →
          result (y₁.putSlot s.die j { x with value := p.2.1, handle := n }) [x.handle, under d] h y →
          answers (.ringAction c st) x.value h d (slotted { x with value := p.2.1, handle := n }))
        -- a board on an empty slot
        ∧ (q.op = .board → x.v = false → ∀ n y₁ h y, form y₀ [q.opd.lbl, under d] = .ok (n, y₁) → n ≠ never →
          result (y₁.putSlot s.die j ⟨true, q.frame, n, q.key, b⟩) [under d] h y →
          answers (.ringAction c st) 0 h d (slotted ⟨true, q.frame, n, q.key, b⟩))
        -- an alight, with its store to a home of the package
        ∧ (q.op = .alight → mine → ∀ e h y, q.store = some e →
          (if q.noRd = true ∧ e.labelled = false then h = always ∧ y₀.badRecordOf s.die q.frame [x.handle, under d] = none
           else form y₀ [x.handle, under d] = .ok (h, y)) →
          answers (.ringAction c st) x.value h d fun y => (y.slot s.die j).v = false ∧ (∀ i, i ≠ j → y.slot s.die i = s.slot s.die i)
            ∧ ∃ bs, (∀ k, k < 8 → bs[k]? = some (x.value.extractLsb' (8 * k) 8)) ∧ bs.length = 8 ∧ y.inbound = s.inbound ++ [{ e with
              bytes := bs, lbls := if e.labelled then [h] else [x.handle, under d].filter fun l => decide (l ≠ always) }]))
      -- no empty slot in 512 cycles
      ∧ (q.op = .board → q.since + 512 ≤ s.cycle → ∀ d y₀ h y, form alone (q.dep :: q.fold) = .ok (d, y₀) → result y₀ [under d] h y →
        answers (.ringBoardTimeout c st) 1 h d still)
      -- no matching slot in 2^20 cycles
      ∧ (∀ j, ∀ p ∈ [(RingOp.read, 1), (.add, 9), (.min, 17), (.max, 25), (.swap, 33), (.cas, 41), (.alight, 2)], q.op = p.1 →
          q.since + 2 ^ 20 ≤ s.cycle → slotAt (station c) s.cycle = some j → (s.slot s.die j).v = false →
          Gives (.ringAbsent c st) s fun y => y.ringq = [] ∧ y.strm.reply
            = some (.trap { cause := 0x22, val := q.key.setWidth 64, d5 := word p.2, d6 := word (station c) })))
    ∧ (∀ k q, k < 2 → (s.dieAt k).sluiceq = [q] → q.who = s.self → s.sluiceServed k = none →
      let w := s.sword k q.off
      let a := w.val
      let b := q.opd.val
      let free := s.modDie k fun x => { x with sluiceq := [], served := some (s.cycleOf k, q) }
      let form := fun (y : State) (drop : Bool) (hs : List Handle) => y.form q.die q.frame drop hs
      let result := fun (y : State) (hs : List Handle) (h : Handle) (y' : State) =>
        if q.noRd = true then h = always ∧ y' = y else form y false hs = .ok (h, y')
      let serves := fun (P : State → Prop) => Gives (.sluiceOperation k) s fun y => (y.dieAt k).sluiceq = [] ∧ y.mem.spm = s.mem.spm ∧ P y
      let still := fun (y : State) => ∀ o, y.sword k o = s.sword k o
      let here := (s.dieAt k).waiters.filter fun x => decide (x.off = q.off)
      let go := (here.filter fun x => !s.mootParty x.who).take b.toNat
      (w.lbl = always ∨ (w.frame = q.frame ∧ w.die = q.die)) → Tab.get 0 (s.dieAt k).wordEcc (q.off / 32) = 0 →
      ∀ d y₀, (if q.reduce = true then d = q.dep ∧ y₀ = free else form free false [q.dep, q.fold] = .ok (d, y₀)) →
      -- the stream is answered, unless it does not wait
      let ends := fun (v : Word) (h : Handle) (y : State) => if q.reduce = true then y.strm = s.strm else y.strm.reply = some (.value v h d)
      (∀ p ∈ [(q.op = .ld, a, [w.lbl]), (q.op = .cas ∧ a ≠ q.expected.val, a, [w.lbl]), (q.op = .wait ∧ a ≠ b, 1, [w.lbl, q.opd.lbl])],
        p.1 → ∀ h y, result y₀ (p.2.2 ++ [under d]) h y → serves fun y => ends p.2.1 h y ∧ still y)
      ∧ (∀ p ∈ [
          (SluiceOp.add, a + b, [w.lbl, q.opd.lbl]), (.and, a &&& b, [w.lbl, q.opd.lbl]), (.or, a ||| b, [w.lbl, q.opd.lbl]),
          (.xor, a ^^^ b, [w.lbl, q.opd.lbl]), (.min, if b.slt a then b else a, [w.lbl, q.opd.lbl]),
          (.max, if a.slt b then b else a, [w.lbl, q.opd.lbl]), (.minu, if b.ult a then b else a, [w.lbl, q.opd.lbl]),
          (.maxu, if a.ult b then b else a, [w.lbl, q.opd.lbl]),
          (.fadd, a.extractLsb' 32 32 ++ BitVec.ofNat 32 (fadd32 (a.toNat % 2 ^ 32) (b.toNat % 2 ^ 32)), [w.lbl, q.opd.lbl]),
          (.swap, b, [q.opd.lbl]), (.cas, b, [w.lbl, q.expected.lbl, q.opd.lbl])],
        q.op = p.1 → (p.1 = .cas → a = q.expected.val) → ∀ n y₁ h y, form y₀ q.reduce (p.2.2 ++ [under d]) = .ok (n, y₁) → n ≠ never →
        result y₁ [w.lbl, under d] h y → serves fun y => ends a h y ∧ (y.sword k q.off).val = p.2.1 ∧ (y.sword k q.off).lbl = n
          ∧ ∀ o, o ≠ q.off → y.sword k o = s.sword k o)
      -- a wait on the word's value joins its wait queue, unless its task is moot
      ∧ (q.op = .wait → a = b → s.task.moot = false → d ≠ never → ∀ h y, result y₀ [w.lbl, q.opd.lbl, d] h y →
        serves fun y => (y.dieAt k).waiters = (s.dieAt k).waiters ++ [⟨q.who, q.off, b, h, d⟩] ∧ y.strm = s.strm ∧ still y)
      ∧ (q.op = .wait → a = b → s.task.moot = true ∨ d = never →
        serves fun y => (y.dieAt k).waiters = (s.dieAt k).waiters ∧ y.strm.reply = some .done ∧ still y)
      -- a wake releases waiters of other tasks
      ∧ (q.op = .wake → (∀ x ∈ here, x.who.core ≠ c ∨ x.who.uid ≠ s.task.info.uid) → ∀ h y, result y₀ [q.opd.lbl, under d] h y →
        serves fun y => ends (word go.length) h y ∧ still y
          ∧ (y.dieAt k).waiters.filter (fun x => decide (x.off = q.off)) = here.filter fun x => !go.any fun z => decide (z.who = x.who)))
    ∧ (∀ t, s.transfers = [t] → t.who = s.self →
      (t.words = [] → t.closed = true → t.taken = false → s.linkAcross c (t.base / 65536) = none → Gives (.streamPortArrival 0) s fun y =>
        y.transfers = [] ∧ y.strm.reply = some (.value (word t.written) always always) ∧ y.mem = s.mem)
      ∧ (∀ w ws, t.words = w :: ws → s.mem.mainEcc = [] → t.base / 65536 = c → t.hv = false → t.stopped = false → t.base % 8 = 0 →
          t.base % 65536 + 8 * t.written + 8 ≤ 65536 → s.core.regs.lab = false →
          (∀ k, Tab.get 0 s.mem.spmEcc k = 0) → s.visible s.die t.frame (s.rawProduct s.die t.frame w.lbls) w.ctx = true →
          Gives (.streamPortArrival 0) s fun y => y.mem.main = s.mem.main
            ∧ (∃ u, y.transfers = [u] ∧ u.words = ws ∧ u.written = t.written + 1)
            ∧ (let d := t.base + 8 * t.written
               ∀ a, Tab.get 0 y.mem.spm a = if d ≤ a ∧ a < d + 8 then (bytesOf w.val).getD (a - d) 0 else Tab.get 0 s.mem.spm a)))

/-! ### Host, Giari, bring-up -/

/-- R48, R49, R100, R136, R297 to R302, R338, R340, R353, R380, R381, R384: what the host, a debugger and Giari do to memory and launch. BUSY while a
host launch waits for its turn (logs 38, 48) and the answer to a Giari access outside package scratchpad, with side handles 0 (log 49), are the
model's choices. -/
def Obligations.OutsideAccessesAndLaunches : Prop :=
  -- R100, R105, R136, R297, R298, R301, R302, R338, R353, R380, R381, R384: what an access from outside does, to package scratchpad through
  -- BAR4 or Giari, to main memory through BAR2, a debugger's write and read, and where it does not translate; a write to a line that an agent
  -- holds waits for its acknowledgement.
  (∀ (off n : Nat) (data : List Byte) (s : State), data.length = n → 0 < n →
     let answered := fun (y : State) (a : Answer) => y.host.answers = s.host.answers ++ [a]
     let turned := fun (i : Instr) (a : Answer) => Gives i s fun y => answered y a ∧ y.mem = s.mem
     let own := off / 65536
     let unmarked := ∀ t, s.mends .main t = false
     -- package scratchpad at byte `off`
     (off % 65536 + n ≤ 65536 → own < 4096 → Tab.get [] s.host.queues (s.serviceOf .spm off) = [] → s.host.debugq = [] →
       (∀ t ∈ atomsOf off n, Tab.get 0 s.mem.spmEcc t = 0) →
       let allows := fun (a : Acc) => s.windowRefusal own (off % 65536 / 32) ((off % 65536 + n - 1) / 32) a none = none
       let writes := fun (i : Instr) => Gives i s fun y => answered y .written ∧ y.mem.main = s.mem.main
         ∧ (∀ a, Tab.get 0 y.mem.spm a = if off ≤ a ∧ a < off + n then data.getD (a - off) 0 else Tab.get 0 s.mem.spm a)
         ∧ ∀ t, Tab.get always y.mem.spmSide t = if t ∈ atomsOf off n then always else Tab.get always s.mem.spmSide t
       let reads := fun (i : Instr) => Gives i s fun y => answered y (.data (s.spmAt off n)) ∧ y.mem = s.mem
       (allows .store → writes (.hostBar4Access off true n data) ∧ writes (.giariAccess (0x10000000 + off) true n data)
         ∧ writes (.debugMemoryWrite (0x10000000 + off) data))
       ∧ (allows .load → reads (.hostBar4Access off false n data) ∧ reads (.giariAccess (0x10000000 + off) false n data))
       -- a debug read consults no window and changes nothing
       ∧ s.move (.debugRead (0x10000000 + off) n)
         = .next { s with past := s.past ++ [.debugRead (0x10000000 + off) n], host := { s.host with answers := s.host.answers ++ [.data (s.spmAt off n)] } }
       ∧ (¬allows .store → turned (.hostBar4Access off true n data) .abort ∧ turned (.giariAccess (0x10000000 + off) true n data) (.refused 0)
         ∧ turned (.debugMemoryWrite (0x10000000 + off) data) .abort)
       ∧ (¬allows .load → turned (.hostBar4Access off false n data) .abort ∧ turned (.giariAccess (0x10000000 + off) false n data) (.refused 0)))
     ∧ (65536 < off % 65536 + n → off + n ≤ 2 ^ 28 → ∀ w, turned (.hostBar4Access off w n data) .abort)
     ∧ (2 ^ 28 < off + n → ∀ w, exec (.hostBar4Access off w n data) s = .next s)
     ∧ (off < 65536 → ∀ w, turned (.giariAccess off w n data) (.refused 0) ∧ turned (.debugMemoryWrite off data) .abort)
     -- main memory through BAR2, within one line
     ∧ (off % 128 + n ≤ 128 → off + n ≤ 2 ^ 36 → s.host.held = [] →
       (s.hostFind (0x100000000 + off) = none → ∀ w, Gives (.hostBar2Access off w n data) s fun y =>
         y.host.held = [⟨off, w, n, data⟩] ∧ y.host.answers = s.host.answers ∧ y.mem = s.mem)
       ∧ (∀ d w, s.hostFind (0x100000000 + off) = some d → s.place (fun _ => some d) w (0x100000000 + off) = none →
           turned (.hostBar2Access off w n data) .abort)
       ∧ (∀ d w pa l, s.hostFind (0x100000000 + off) = some d → s.place (fun _ => some d) w (0x100000000 + off) = some (pa, l) →
           pa % 128 = off % 128 → s.PlainMain → Tab.get [] s.host.queues (s.serviceOf .main pa) = [] →
           (w = true → s.coh.recall noAgent [pa / 128] = none → Gives (.hostBar2Access off w n data) s fun y =>
             answered y .written ∧ y.mem.spm = s.mem.spm
             ∧ (∀ a, y.mainByte a = if pa ≤ a ∧ a < pa + n then data.getD (a - pa) 0 else s.mainByte a)
             ∧ (∀ t, Tab.get always y.mem.mainSide t = if t ∈ atomsOf pa n then always else Tab.get always s.mem.mainSide t)
             ∧ Tab.get {} y.coh.dir (pa / 128) = {})
           ∧ (∀ c, w = true → s.coh.recall noAgent [pa / 128] = some c → Gives (.hostBar2Access off w n data) s fun y =>
             y.mem = s.mem ∧ y.host.answers = s.host.answers ∧ y.coh = c
               ∧ Tab.get [] y.host.queues (s.serviceOf .main pa) = [.access ⟨.main, pa, true, n, data⟩])
           ∧ (w = false → Gives (.hostBar2Access off w n data) s fun y => answered y (.data (s.mainBytes pa n)) ∧ y.mem = s.mem)))
     -- the fill of a missing translation
     ∧ (∀ a e, s.host.held = [a] → unmarked →
       (∀ k, s.walk s.host.aspace (0x100000000 + a.off) = .error k → Gives (.hostTranslationFill e) s fun y =>
         y.host.held = [] ∧ answered y .abort ∧ y.mem = s.mem)
       ∧ (∀ d, s.walk s.host.aspace (0x100000000 + a.off) = .ok d → Gives (.hostTranslationFill e) s fun y =>
           -- the lowest invalid entry; where all are valid, the one that the event names
           let k := ((upto 1024).find? fun j => !bit (Tab.get (0, 0) s.host.cache j).1 0).getD (e % 1024)
           Tab.get (0, 0) y.host.cache k = (word ((0x100000000 + a.off) / 65536 * 65536 + 1), d)))
     -- a debugger's write that touches a registered region; a debugger's read
     ∧ (∀ pa l, unmarked → 2 ^ 32 ≤ off → off < 2 ^ 48 → off % 65536 + n ≤ 65536 → s.place s.hostXlate true off = some (pa, l) →
         (s.regionOf pa).isSome = true → turned (.debugMemoryWrite off data) (.status 1))
     ∧ (∀ pa l, unmarked → 2 ^ 32 ≤ off → off < 2 ^ 48 → off % 65536 + n ≤ 65536 → s.place s.hostXlate false off = some (pa, l) →
         ((s.regionOf pa).isSome = true → ∃ y, s.move (.debugRead off n) = .next y ∧ answered y (.status 1) ∧ y.mem = s.mem)
         ∧ (s.regionOf pa = none → s.regionOf (pa + n - 1) = none → s.PlainMain → s.move (.debugRead off n)
             = .next { s with past := s.past ++ [.debugRead off n], host := { s.host with answers := s.host.answers ++ [.data (s.mainBytes pa n)] } })))
  -- R48 to R50, R136, R299, R302, R338, R340, R384: a launch through LAUNCHh, and a Giari message at its die's landing area.
  ∧ (∀ (h : Nat) (v : Word) (s : State), h < 8 → s.host.off = false → (∀ t, s.mends .main t = false) →
       let a := bits v 0 48
       let old := s.host.launch.getD h 0
       let shown := fun (y : State) (n : Nat) => y.host.launch.getD h 0 = word (n * 2 ^ 56 + a)
       -- nothing but the time of a launch's arrival changes on either die
       let same := fun (y : State) => y.channels = s.channels
         ∧ ∀ k, k < 2 → y.dieAt k = { s.dieAt k with launchTurn := (y.dieAt k).launchTurn }
       let idle := bit old 55 = false ∧ Tab.get [] s.host.queues h = []
       (∀ i ∈ [Instr.hostLaunch h v, .registerWrite (0x100 + 8 * h) v],
         (bit old 55 = true → exec i s = .next s)
         ∧ (idle → s.inTurn (h / 4) (hostRank h) = false → Gives i s fun y => y.mem = s.mem ∧ y.dies = s.dies
             ∧ y.host.launch.getD h 0 = word (bits old 56 8 * 2 ^ 56 + 2 ^ 55 + a) ∧ Tab.get [] y.host.queues h = [.launch v])
         ∧ (idle → s.inTurn (h / 4) (hostRank h) = true →
           (a % 256 ≠ 0 → Gives i s fun y => shown y 2 ∧ y.mem = s.mem ∧ y.dies = s.dies)
           ∧ (a % 256 = 0 → s.vaBytes s.hostXlate a 256 = none → Gives i s fun y => shown y 2 ∧ y.mem = s.mem ∧ y.dies = s.dies)
           ∧ (∀ bs, a % 256 = 0 → s.vaBytes s.hostXlate a 256 = some bs →
             let r := dwords 32 bs
             let cores := (targetsOf (levelsOf r)).map (·.1)
             ∀ w, recordOk r = true → s.completionWord s.hostXlate r = some w → s.served cores = true → s.meteredLaunch (recFrame r) cores = false →
               (s.tagHeld (barriersOf 0 (levelsOf r) cores) = true → Gives i s fun y => shown y 3 ∧ same y ∧ y.mem = s.mem)
               ∧ (s.tagHeld (barriersOf 0 (levelsOf r) cores) = false → s.freeEntry (h / 4) = none → Gives i s fun y =>
                   shown y 1 ∧ same y ∧ y.mem = s.mem)
               ∧ (∀ e, s.tagHeld (barriersOf 0 (levelsOf r) cores) = false → s.freeEntry (h / 4) = some e → Gives i s fun y =>
                   shown y 0 ∧ y.mem = s.mem
                   ∧ (let p := Tab.get {} (y.dieAt (h / 4)).pending e
                      p.live = true ∧ p.record = r ∧ p.cores = cores ∧ p.left = cores ∧ p.addr = word a ∧ p.word = w)
                   ∧ y.channels.length = s.channels.length + cores.length))))
       ∧ (∀ (src : Nat) (tag : BitVec 16) (bytes : List Byte), 64 ≤ bytes.length → bytes.length ≤ 4096 → s.host.giariq = [] → 0 ∉ s.links.down →
         let die := if tag.toNat < 0x8000 then 0 else 1
         let x := Tab.get {} (s.dieAt die).armed tag.toNat
         let refused := fun (y : State) => y.host.answers = s.host.answers ++ [.refused tag] ∧ y.dies = s.dies
         let area := s.host.land.getD die 0
         -- an `arm` or a `disarm` of the tag has gone before it in this cycle
         let late := Tab.get 0 (s.dieAt die).armTurn tag.toNat = s.cycleOf die + 1
         (late → Gives (.giariMessageArrival src tag bytes) s fun y => y.mem = s.mem ∧ y.dies = s.dies ∧ y.host.giariq = [⟨src, tag, bytes⟩])
         ∧ (s.freeLand die = none → ¬late → Gives (.giariMessageArrival src tag bytes) s fun y => refused y ∧ y.mem = s.mem)
         ∧ (∀ i pa l, s.freeLand die = some i → ¬late → s.PlainMain →
             let va := bits area 16 32 * 65536 + 4096 * i
             s.place s.hostXlate true va = some (pa, l) → pa % 4096 = 0 →
             let landed := fun (y : State) => ∀ b, y.mainByte b = if pa ≤ b ∧ b < pa + 4096 then bytes.getD (b - pa) 0 else s.mainByte b
             let r := x.record.set 2 (word va)
             let cores := (targetsOf (levelsOf r)).map (·.1)
             (∀ c, x.live = false → s.coh.recall noAgent (linesOf pa 4096) = some c → Gives (.giariMessageArrival src tag bytes) s fun y =>
                 y.mem = s.mem ∧ y.dies = s.dies ∧ y.coh = c ∧ y.host.giariq = [⟨src, tag, bytes⟩])
             ∧ (s.coh.recall noAgent (linesOf pa 4096) = none →
             (x.live = false → Gives (.giariMessageArrival src tag bytes) s fun y => refused y ∧ landed y)
             ∧ (∀ e, x.live = true → s.inTurn die (tagRank tag) = true → s.freeEntry die = some e →
                 s.meteredLaunch (recFrame r) cores = false → s.served cores = true →
                 s.tagHeld (barriersOf 0 (levelsOf r) cores) = false → Gives (.giariMessageArrival src tag bytes) s fun y =>
                   landed y ∧ y.host.answers = s.host.answers ∧ i ∈ (y.dieAt die).landUsed
                   ∧ (let p := Tab.get {} (y.dieAt die).pending e
                      p.live = true ∧ p.record = r ∧ p.cores = cores ∧ p.land = some i)
                   ∧ (bit (recAt x.record 0) 16 = false → Tab.get {} (y.dieAt die).armed tag.toNat = {}))))))

/-- R4, R296, R300, R302, R306, R312, R376: what a write of each BAR0 register leaves; an offset that is none of them ignores it. That HALT
and RESUME set together leave the core halted, and that an unaligned offset changes nothing, are the model's choices (log 48). -/
def Obligations.RegisterWrites : Prop :=
  ∀ (off : Nat) (v : Word) (s : State), s.Parked →
    let i := Instr.registerWrite off v
    let c := s.host.dsel.toNat
    (s.host.off = true → exec i s = .next s) ∧ (s.host.off = false →
    (off = 0 → bit s.host.land[0] 0 = false → bit s.host.land[1] 0 = false →
      exec i s = .next { s with host := { s.host with devnum := BitVec.ofNat 20 (bits v 44 20) } })
    ∧ (off = 0 → bit s.host.land[0] 0 = true ∨ bit s.host.land[1] 0 = true → exec i s = .next s)
    ∧ (off = 0x10 → exec i s = .next { s with host := { s.host with land := s.host.land.set 0 (v &&& 0x0000FFFFFFFFFF01) } })
    ∧ (off = 0x18 → exec i s = .next { s with host := { s.host with land := s.host.land.set 1 (v &&& 0x0000FFFFFFFFFF01) } })
    ∧ (off = 0x20 → exec i s = .next { s with host := { s.host with pcap := BitVec.ofNat 16 (bits v 16 16) } })
    ∧ (off = 0x40 → exec i s = .next (if bits v 0 13 ≤ 0x1047 then
        { s with host := { s.host with dsel := BitVec.ofNat 13 (bits v 0 13) } } else s))
    ∧ (off = 0x48 → Gives i s fun y => (y.coreAt c).dbg.step = bit v 2 ∧ (y.coreAt c).task = (s.coreAt c).task ∧ (y.coreAt c).regs = (s.coreAt c).regs
        ∧ (y.coreAt c).dbg.halted = (if bit v 0 then true else if bit v 1 then false else (s.coreAt c).dbg.halted))
    ∧ (∀ k : Fin 4, off = 0x50 + 8 * k.val → Gives i s fun y => (y.coreAt c).dbg.bp[k] = v &&& 0x800000000000FFFE
        ∧ ∀ j : Fin 4, j ≠ k → (y.coreAt c).dbg.bp[j] = (s.coreAt c).dbg.bp[j])
    ∧ (∀ k : Fin 8, off = 0x400 + 16 * k.val →
        (s.host.busy[k] = true → exec i s = .next s)
        ∧ (s.host.busy[k] = false → exec i s = .next { s with host := { s.host with
            block := s.host.block.set k (v &&& 0x0000FFFFFFFFFF80), busy := s.host.busy.set k (bit v 0) } }))
    -- FWSTAT is read only
    ∧ (∀ k : Fin 8, off = 0x408 + 16 * k.val → exec i s = .next s)
    ∧ (off % 8 ≠ 0 ∨ off = 0x08 ∨ (0x28 ≤ off ∧ off < 0x40) ∨ (0x70 ≤ off ∧ off < 0x100) ∨ (0x140 ≤ off ∧ off < 0x400) ∨ 0x480 ≤ off →
        exec i s = .next s))

/-- R304, R312, R320 to R323, R361: reset and resumption of meters, loss of power, the two entries of bring-up, clocks, and the
checkpoints that Bammos takes by itself. The clock state granted for a power cap (log 23), what memory above 4 GiB keeps (log 24) and the bank of
power-on (log 53) are the model's choices. -/
def Obligations.BringUpEvents : Prop :=
  ∀ (s : State),
    let volatile := fun (y : State) => y = { State.reset with
      schedule := s.schedule, free := y.free, nextId := s.nextId, sec := y.sec
      host := { State.reset.host with phase := y.host.phase, failed := y.host.failed, off := y.host.off } }
    let stored := fun (y : State) => y.sec.bank = ⟨s.sec.regions, s.sec.seq, false⟩ ∧ y.sec.older = s.sec.bank ∧ y.sec.refusals = 0
    let tried := fun (i : Bool → Instr) => (Gives (i true) s stored)
      ∧ Gives (i false) s fun y => y.sec.bank = s.sec.bank ∧ y.sec.older = s.sec.older ∧ y.sec.refusals = s.sec.refusals + 1
    (∀ v, Gives (.powerOnReset v) s fun y => volatile y ∧ y.host.phase = (if v then 1 else 0)
        ∧ y.host.failed = !v ∧ y.host.off = false ∧ y.sec.keys = s.sec.keys
        ∧ y.sec.bank.clean = false ∧ y.sec.bank.regions = y.sec.regions ∧ y.sec.bank.seq = y.sec.seq
        ∧ (s.sec.bank.clean = true → y.sec.regions = s.sec.bank.regions ∧ y.sec.seq = s.sec.bank.seq)
        ∧ (s.sec.bank.clean = false → y.sec.seq = min (s.sec.bank.seq + 2 ^ 20) (2 ^ 64 - 1)
            ∧ ∀ r, (Tab.get {} s.sec.bank.regions r).live = true →
              (Tab.get {} y.sec.regions r).count = min ((Tab.get {} s.sec.bank.regions r).count + 2 ^ 20) (2 ^ 64 - 1)
              ∧ (Tab.get {} y.sec.regions r).restarts = (Tab.get {} s.sec.bank.regions r).restarts + 1))
    ∧ Gives .powerLoss s (fun y => volatile y ∧ y.host.phase = 0 ∧ y.host.off = true ∧ y.sec.bank = (if s.host.off then s.sec.bank else { s.sec.bank with clean := false }) ∧ y.sec.keys = s.sec.keys)
    ∧ (s.host.phase = 1 → s.mem.main.Pairwise (fun p q => p.1 < q.1) → s.mem.notLive = [] → Gives .reducedServiceEntry s fun y =>
        y.host.phase = 2 ∧ y.host.clk = Vector.replicate 2 2 ∧ y.mem.spm = s.mem.spm ∧ y.core = s.core
          ∧ ∀ a, Tab.get 0 y.mem.main a = if a < 2 ^ 32 then 0 else Tab.get 0 s.mem.main a)
    ∧ (s.host.phase ≠ 1 → exec .reducedServiceEntry s = .next s)
    ∧ (s.host.phase = 2 → (∀ k, k < 2 → (s.dieAt k).pending = []) → Gives .fullServiceTransition s fun y =>
        y.host.phase = 3 ∧ y.host.clk = Vector.replicate 2 0 ∧ y.host.closing = false ∧ y.mem = s.mem ∧ y.core = s.core ∧ y.coh.l1 = [] ∧ y.coh.msc = [] ∧ y.coh.dir = []
          ∧ y.coh.evict = s.coh.evict)
    ∧ (s.host.phase = 2 → (∃ k, k < 2 ∧ (s.dieAt k).pending ≠ []) → Gives .fullServiceTransition s fun y =>
        y.host.phase = 2 ∧ y.host.closing = true)
    -- a package that is off keeps its clocks and its checkpoints
    ∧ (s.host.off = true → ∀ i ∈ [Instr.checkpointCount true, .checkpointCount false, .checkpointTime true, .checkpointTime false,
        .checkpointRetry true, .checkpointRetry false], exec i s = .next s)
    ∧ (∀ (die : Nat) (clk : BitVec 2) (t : BitVec 8) (w : BitVec 16), s.host.off = true → exec (.clockStateUpdate die clk t w) s = .next s)
    ∧ (s.host.off = false → ∀ (die : Nat) (clk : BitVec 2) (t : BitVec 8) (w : BitVec 16), die < 2 →
        (t.toNat < 115 → Gives (.clockStateUpdate die clk t w) s fun y => y.host.temp = t ∧ y.host.power = w ∧ y.mem = s.mem ∧ y.sec = s.sec
          -- the state asked for, or the slower one that keeps the firmware's estimate within PCAP; P2 at 105 °C and in reduced service
          ∧ (let q := y.host.clk.getD die 0
             let cap := max 220 s.host.pcap.toNat
             (105 ≤ t.toNat ∨ clk = 3 ∨ s.host.phase = 2 → q = 2)
             ∧ (t.toNat < 105 → clk ≠ 3 → s.host.phase ≠ 2 → (1850 ≤ cap → q = clk) ∧ (cap < 1850 → clk.toNat ≤ q.toNat ∧ q.toNat ≤ 2
                 ∧ (q = clk ∨ q = 2 ∨ Config.estimate s.free q.toNat ≤ cap) ∧ (q = 0 → Config.estimate s.free 0 ≤ cap)))))
        ∧ (115 ≤ t.toNat → s.sec.accepts = true → Gives (.clockStateUpdate die clk t w) s fun y => volatile y ∧ y.host.phase = 0 ∧ y.host.off = true
            ∧ y.sec.bank = ⟨s.sec.regions, s.sec.seq, true⟩))
    ∧ (s.host.off = false → (∃ r, (r ∈ s.sec.regions) ∧ (Tab.get {} s.sec.bank.regions r.1).count + 2 ^ 19 ≤ r.2.count) → tried .checkpointCount)
    ∧ ((∀ r ∈ s.sec.regions, r.2.count < (Tab.get {} s.sec.bank.regions r.1).count + 2 ^ 19) → ∀ b, exec (.checkpointCount b) s = .next s)
    ∧ (s.host.off = false → s.sec.lastAt + 14400000000 ≤ s.clocks.units → tried .checkpointTime)
    ∧ (s.host.off = false → 0 < s.sec.refusals → s.sec.triedAt + 14400000 ≤ s.clocks.units → tried .checkpointRetry)
    ∧ (s.clocks.units < s.sec.triedAt + 14400000 → ∀ b, exec (.checkpointRetry b) s = .next s)
    ∧ (s.sec.refusals = 0 → ∀ b, exec (.checkpointRetry b) s = .next s)

/-! ### Firmware requests and debug -/

/-- R306, R307, R309: how a request ends: STATUS and DONE are set and BUSY cleared, RESULT lies at offset 8 of the block and DATA
from offset 0x40, and every other byte is as the request's effect left it. -/
def Obligations.RequestsEnd : Prop :=
  ∀ (h pa : Nat) (a : Answered), h < 8 → a.data.length ≤ 8 → a.status < 256 → a.result < 2 ^ 56 → pa % 128 = 0 → a.st.PlainMain →
    let s := a.st
    let y := a.finish h pa
    y.host.busy.getD h true = false ∧ (y.host.status.getD h 0).toNat = a.status ∧ y.host.done.getD h 0 = s.host.done.getD h 0 + 1
    ∧ wordOf (y.mainBytes (pa + 8) 8) = word (a.status * 2 ^ 56 + a.result)
    ∧ (∀ i, i < a.data.length → wordOf (y.mainBytes (pa + 64 + 8 * i) 8) = a.data.getD i 0)
    ∧ (∀ b, b < pa + 8 ∨ (pa + 16 ≤ b ∧ b < pa + 64) ∨ pa + 64 + 8 * a.data.length ≤ b → y.mainByte b = s.mainByte b)
    ∧ y.core = s.core ∧ y.dies = s.dies ∧ y.mem.spm = s.mem.spm ∧ ∀ b ∈ y.host.begun, b.chan ≠ h

/-- R55, R56, R148, R197, R233, R308, R309, R332: requests for frames, images, the eviction schedule, the spillway and TVEC, and reserved
codes. -/
def Obligations.ConfigurationRequests : Prop :=
  ∀ (h pa : Nat) (ws : List Word) (s : State), s.Parked →
    let arg := fun (i : Nat) => ws.getD (2 + i) 0
    let tgt := bits (ws.headD 0) 32 16
    (∀ (f : BitVec 8), tgt < 2 → (arg 0).toNat = f.toNat →
      let fr := s.frameAt tgt f
      let w := arg 1
      let used := s.frameUsed tgt f
      (s.Requested h pa ws 0x01 2 → bit w 63 = true → bits w 48 13 = 0 →
        (used = true → EndsAsk (.frameCreate h) h pa s 5 0 [] s)
        ∧ (used = false → EndsAsk (.frameCreate h) h pa s 0 0 [] (s.setFrame tgt f {
            v := true, policy := bit w 62, metered := bit w 61, tbase := BitVec.ofNat 32 (bits w 16 32), cap := BitVec.ofNat 16 (bits w 0 16)
            inc := false, next := 1, nogoods := [], fq := fr.fq })))
      ∧ (s.Requested h pa ws 0x01 2 → bit w 63 = false ∨ bits w 48 13 ≠ 0 → EndsAsk (.frameCreate h) h pa s 2 0 [] s)
      ∧ (s.Requested h pa ws 0x02 2 → bits w 1 63 = 0 →
        (used = true → EndsAsk (.frameReset h) h pa s 5 0 [] s)
        ∧ (used = false → EndsAsk (.frameReset h) h pa s 0 0 [] (s.setFrame tgt f { fr with
            v := fr.v && !bit w 0, inc := false, next := 1, nogoods := [] })))
      ∧ (s.Requested h pa ws 0x03 1 → EndsAsk (.frameRead h) h pa s 0 0 [fr.descriptor, fr.status, fr.fq] s)
      ∧ (s.Requested h pa ws 0x04 2 → bits w 48 16 = 0 → bits w 1 7 = 0 → bit fr.fq 0 = true ∨ bit w 0 = false →
          EndsAsk (.faultqSet h) h pa s 0 0 [] (s.setFrame tgt f { fr with fq := w }))
      ∧ (s.Requested h pa ws 0x04 2 → bits w 48 16 = 0 → bits w 1 7 = 0 → bit fr.fq 0 = false → bit w 0 = true → s.PlainMain →
          ∃ y, EndsAsk (.faultqSet h) h pa s 0 0 [] y ∧ y.frameAt tgt f = { fr with fq := w }
            ∧ ∀ b, y.mainByte b = if bits w 12 36 * 4096 ≤ b ∧ b < bits w 12 36 * 4096 + 24 then 0 else s.mainByte b))
    ∧ (2 ≤ tgt ∨ 256 ≤ (arg 0).toNat →
        (s.Requested h pa ws 0x01 2 → EndsAsk (.frameCreate h) h pa s 2 0 [] s) ∧ (s.Requested h pa ws 0x02 2 → EndsAsk (.frameReset h) h pa s 2 0 [] s)
        ∧ (s.Requested h pa ws 0x03 1 → EndsAsk (.frameRead h) h pa s 2 0 [] s) ∧ (s.Requested h pa ws 0x04 2 → EndsAsk (.faultqSet h) h pa s 2 0 [] s))
    -- an image without the optional parts
    ∧ (s.Requested h pa ws 0x05 6 → tgt < 256 → ∀ text, (arg 1).toNat % 2 = 0 → 0 < (arg 1).toNat → (arg 1).toNat ≤ 65536 → arg 2 = 0 → arg 3 = 0 →
        arg 4 = 0 → arg 5 = 0 → s.hostBytes (arg 0) (arg 1).toNat = some text →
        (s.groupUsed tgt = true → EndsAsk (.imageLoad h) h pa s 5 0 [] s)
        ∧ (s.groupUsed tgt = false → ∃ y, EndsAsk (.imageLoad h) h pa s 0 0 [] y ∧ y.mem.main = s.mem.main ∧ y.mem.spm = s.mem.spm
            ∧ (y.groupAt tgt).measure = Config.sha512 text
            ∧ ∀ a, Tab.get 0 y.mem.imem a = if tgt * 65536 ≤ a ∧ a < tgt * 65536 + text.length then text.getD (a - tgt * 65536) 0
                else Tab.get 0 s.mem.imem a))
    ∧ (s.Requested h pa ws 0x06 2 → arg 1 = 0 → EndsAsk (.evictLoad h) h pa s 0 0 [] { s with coh := { s.coh with evict := [] } })
    ∧ (s.Requested h pa ws 0x06 2 → 1024 < (arg 1).toNat → EndsAsk (.evictLoad h) h pa s 2 0 [] s)
    ∧ (s.Requested h pa ws 0x07 1 → tgt < 2 → bits (arg 0) 48 16 = 0 → bits (arg 0) 1 7 = 0 →
        let d := s.dieAt tgt
        -- it waits, with its block as read, until nothing of the sluice is under way
        (d.sluiceq ≠ [] ∨ d.waiters ≠ [] →
          ((∃ b ∈ s.host.begun, b.chan = h) → exec (.spillSet h) s = .next s)
          ∧ ((∀ b ∈ s.host.begun, b.chan ≠ h) → exec (.spillSet h) s
              = .next { s with host := { s.host with begun := s.host.begun ++ [⟨h, pa, ws⟩] } }))
        ∧ (d.sluiceq = [] → d.waiters = [] → ∃ y, EndsAsk (.spillSet h) h pa s 0 0 [] y ∧ y.mem = s.mem ∧ (y.dieAt tgt).spill = arg 0
            ∧ (bit d.spill 0 = false → bit (arg 0) 0 = true → ∀ o, y.sword tgt o = {})
            ∧ (bit d.spill 0 = true ∨ bit (arg 0) 0 = false → ∀ o, y.sword tgt o = s.sword tgt o)))
    ∧ (s.Requested h pa ws 0x08 1 → tgt ≤ 0x1047 → (arg 0).toNat < 65536 → (arg 0).toNat % 2 = 0 → ∃ y, EndsAsk (.tvecSet h) h pa s 0 0 [] y
        ∧ (y.coreAt tgt).regs = { (s.coreAt tgt).regs with tvec := BitVec.ofNat 16 (arg 0).toNat })
    ∧ (∀ code, code = 0 ∨ 0x15 ≤ code → s.Requested h pa ws code 6 → EndsAsk (.reservedRequestCode h) h pa s 0xFE 0 [] s)

/-- R37, R118, R120, R174, R236, R262, R263, R308, R309, R313, R318, R322 to R324, R357: requests for translation, engines, pre-emption, meters,
attestation, keys and certificates. ENGINE-RESTART of a queue that is not halted ending with status 0, and RESULT 1 of a checkpoint that is
refused, are the model's choices (log 50). -/
def Obligations.ServiceRequests : Prop :=
  ∀ (h pa : Nat) (ws : List Word) (s : State), s.Parked →
    let arg := fun (i : Nat) => ws.getD (2 + i) 0
    let tgt := bits (ws.headD 0) 32 16
    (s.Requested h pa ws 0x09 1 → arg 0 &&& 0xFFFF000000001FFE = 0 →
      (tgt = 0xFFFF → EndsAsk (.aspaceSet h) h pa s 0 0 [] { s with host := { s.host with aspace := arg 0, cache := [] } })
      ∧ (tgt < 256 → s.host.pins = [] → ∃ y, EndsAsk (.aspaceSet h) h pa s 0 0 [] y ∧ (y.groupAt tgt).aspace = arg 0 ∧ y.mem = s.mem
          ∧ ∀ p ∈ y.tlb, p.1 / 1024 ≠ tgt))
    ∧ (s.Requested h pa ws 0x0A 2 → bits (arg 1) 1 63 = 0 → tgt = 0xFFFF → s.host.queues = [] → EndsAsk (.tlbInvalidate h) h pa s 0 0 []
        { s with host := { s.host with
          cache := s.host.cache.filter fun p => !(bit p.2.1 0 && (bit (arg 1) 0 || tlbMatch p.2.1 p.2.2 (arg 0).toNat)) } })
    ∧ (s.Requested h pa ws 0x0A 2 → bits (arg 1) 1 63 = 0 → tgt < 256 → s.inbound = [] → s.ringq = [] → (∀ p ∈ s.engines, p.2.queue = []) →
        (∀ c, (s.coreAt c).sb = [] ∧ (s.coreAt c).task.ex.wait = none ∧ (s.coreAt c).task.ac.wait = none) → Tab.wf (0, 0) s.tlb = true →
        ∃ y, EndsAsk (.tlbInvalidate h) h pa s 0 0 [] y ∧ y.mem = s.mem
          ∧ ∀ i, i < 4 → ∀ va, bit (arg 1) 0 = true ∨ va = (arg 0).toNat → y.tlbFind (4 * tgt + i) va = none)
    ∧ (∀ e, e < 3 → s.Requested h pa ws 0x0B 1 → tgt < 64 → bits (arg 0) 0 2 = e → arg 0 &&& 0xFFFFFFFFFFFFFEFC = 0 →
        ((s.engineAt tgt e).halted = false → EndsAsk (.engineRestart h) h pa s 0 0 [] s)
        ∧ ((s.engineAt tgt e).halted = true → bit (arg 0) 8 = false → ∃ y, EndsAsk (.engineRestart h) h pa s 0 0 [] y
            ∧ (y.engineAt tgt e).halted = false ∧ (y.engineAt tgt e).queue = (s.engineAt tgt e).queue.drop 1 ∧ y.mem = s.mem))
    ∧ (s.Requested h pa ws 0x0C 1 → tgt ≤ 0x1047 → arg 0 = 0xFF → ∃ y, EndsAsk (.preempt h) h pa s 0 0 [] y ∧ y.mem = s.mem
        ∧ ((s.coreAt tgt).running = true → (y.coreAt tgt).task.info.preempt = true)
        ∧ ∀ p ∈ (y.coreAt tgt).slots, p.2.info.preempt = true)
    -- registration: status 1 of R261 for a live region; else the region lives once the storage has taken its checkpoint
    ∧ (∀ bs, s.Requested h pa ws 0x0D 1 → (arg 0).toNat % 32 = 0 → s.formsIn = [] → s.hostBytes (arg 0) 32 = some bs →
        let ds := dwords 4 bs
        let r := bits (ds.getD 0 0) 0 12
        ((s.region r).live = true → ∀ b, EndsAsk (.regionRegister h b) h pa s 0 1 [] s)
        ∧ ((s.region r).live = false → s.badDescriptor (ds.getD 0 0) (ds.getD 1 0) (ds.getD 3 0) = false → ds.getD 2 0 = 0 →
            (∃ y, EndsAsk (.regionRegister h true) h pa s 0 0 [] y ∧ y.region r = {
                live := true, base := bits (ds.getD 0 0) 16 32, limit := bits (ds.getD 1 0) 16 32 } ∧ y.sec.bank.regions = y.sec.regions)
            ∧ ∃ y, EndsAsk (.regionRegister h false) h pa s 4 0 [] y ∧ y.sec.regions = s.sec.regions))
    ∧ (∀ n ps, s.hostBuffer (arg 0) = some (n, ps) → s.PlainMain → s.formsIn = [] →
        (s.Requested h pa ws 0x0E 1 → tgt < 4096 → (s.region tgt).live = false → EndsAsk (.regionRead h) h pa s 0 1 [] s)
        ∧ (s.Requested h pa ws 0x0E 1 → tgt < 4096 → (s.region tgt).live = true → s.seqHeld = false → ∃ y, EndsAsk (.regionRead h) h pa s 0 0 [] y
            ∧ y.sec = { s.sec with seq := s.sec.seq + 1 })
        ∧ (s.Requested h pa ws 0x10 1 → s.seqHeld = false → ∃ y, EndsAsk (.attestRequest h) h pa s 0 0 [] y ∧ y.sec = { s.sec with seq := s.sec.seq + 1 })
        ∧ (s.Requested h pa ws 0x0F 1 → tgt < 4096 → (s.region tgt).live = true → s.meteredPending = false →
            (∃ y, EndsAsk (.regionRetire h true) h pa s 0 0 [] y ∧ y.region tgt = {} ∧ y.sec.seq = s.sec.seq + 1 ∧ y.sec.bank.regions = s.sec.regions)
            ∧ ∃ y, EndsAsk (.regionRetire h false) h pa s 4 0 [] y ∧ y.sec.regions = s.sec.regions)
        ∧ (s.Requested h pa ws 0x0F 1 → tgt < 4096 → (s.region tgt).live = true → s.meteredPending = true →
            ∀ b, EndsAsk (.regionRetire h b) h pa s 5 0 [] s))
    ∧ (s.Requested h pa ws 0x11 0 → s.formsIn = [] → (∃ y, EndsAsk (.checkpoint h true) h pa s 0 0 [] y ∧ y.sec.bank = ⟨s.sec.regions, s.sec.seq, false⟩)
        ∧ ∃ y, EndsAsk (.checkpoint h false) h pa s 4 1 [] y ∧ y.sec.bank = s.sec.bank)
    ∧ (∀ bs, s.Requested h pa ws 0x12 2 → tgt < 16 → (arg 1).toNat ≤ 8192 → s.hostBytes (arg 0) (arg 1).toNat = some bs →
        (Config.chainOk bs = false → ∀ b, EndsAsk (.keyInstall h b) h pa s 3 0 [] s)
        ∧ (Config.chainOk bs = true → EndsAsk (.keyInstall h false) h pa s 4 0 [] s)
        ∧ (Config.chainOk bs = true → EndsAsk (.keyInstall h true) h pa s 0 0 []
            { s with sec := { s.sec with keys := Tab.put [] s.sec.keys tgt (Config.chainKey bs) } }))
    ∧ (s.Requested h pa ws 0x13 2 → (arg 1).toNat < deviceCert.length → EndsAsk (.certRead h) h pa s 2 0 [] s)
    ∧ (∀ ps, s.Requested h pa ws 0x13 2 → deviceCert.length ≤ (arg 1).toNat → s.vaPieces s.hostXlate true (arg 0).toNat deviceCert.length = some ps →
        ∃ y, EndsAsk (.certRead h) h pa s 0 deviceCert.length [] y ∧ y.sec = s.sec ∧ y.core = s.core)

/-- R311, R379, R381: each item of a debug request gives its dwords to the caller's buffer, and a halted task's x register takes the
debugger's value and handle. -/
def Obligations.DebugRequests : Prop :=
  ∀ (h pa : Nat) (ws : List Word) (s : State), s.Parked → s.Requested h pa ws 0x14 6 →
    let arg := fun (i : Nat) => ws.getD (2 + i) 0
    let c := bits (ws.headD 0) 32 16
    let k := s.coreAt c
    let z := arg 2
    c ≤ 0x1047 →
    (∀ t, (arg 0).toNat < 64 → k.inSlot (arg 0).toNat = some t →
      let closed := (s.frameAt (dieOf c) t.frame).metered = true
      let ended := fun (i : Instr) (n : Nat) => EndsAsk i h pa s n 0 [] s
      -- what a metered frame keeps back, and what needs a halted core
      (arg 5 = 0 → closed → (arg 1 = 0 → ended (.debugReadRegisters h) 1) ∧ (arg 1 = 1 → ended (.debugReadTile h) 1)
        ∧ (arg 1 = 2 → ended (.debugReadQueues h) 1) ∧ (arg 1 = 3 → ended (.debugReadBarrier h) 1) ∧ (arg 1 = 7 → ended (.debugReadSaveStore h) 1))
      ∧ (arg 1 = 10 → closed → ended (.debugWriteRegister h) 1)
      ∧ (arg 5 = 0 → ¬closed → arg 1 = 0 → k.dbg.halted = false → ended (.debugReadRegisters h) 5)
      ∧ (¬closed → arg 1 = 10 → k.dbg.halted = false → ended (.debugWriteRegister h) 5)
      -- a write of x[r]
      ∧ (∀ bs (r : BitVec 5), ¬closed → arg 1 = 10 → k.dbg.halted = true → 8 ≤ (arg 4).toNat → s.hostBytes (arg 3) 8 = some bs → r ≠ 0 →
          z.toNat = 0x200 + r.toNat → (arg 5).toNat < 65536 → s.handleOk (dieOf c) t.frame (arg 5) = true →
          c = s.core.num → k.running = true → k.task.info.slot = (arg 0).toNat →
          ∃ y, EndsAsk (.debugWriteRegister h) h pa s 0 0 [] y ∧ y.x r = ⟨wordOf bs, (arg 5).setWidth 16⟩ ∧ (∀ q, q ≠ r → y.x q = s.x q)
            ∧ y.mem = s.mem)
      ∧ (∀ bs, ¬closed → arg 1 = 10 → k.dbg.halted = true → 8 ≤ (arg 4).toNat → s.hostBytes (arg 3) 8 = some bs →
          (arg 5).toNat < 65536 → s.handleOk (dieOf c) t.frame (arg 5) = false → ended (.debugWriteRegister h) 1))
    -- the reads
    ∧ (∀ words, words ≠ [] →
        (let task := fun (f : Task → Prop) => ∃ t, (arg 0).toNat < 64 ∧ k.inSlot (arg 0).toNat = some t ∧ f t
         let open' := fun (t : Task) => (s.frameAt (dieOf c) t.frame).metered = false
         ∀ p ∈ [(0, Instr.debugReadRegisters h, task fun t => open' t ∧ k.dbg.halted = true ∧ words = t.image),
           (1, .debugReadTile h, task fun t => open' t ∧ ∃ a, t.regs.acc.toList[z.toNat]? = some a ∧ words = a.status :: a.words),
           (2, .debugReadQueues h, task fun t => open' t ∧ words = t.queues.words),
           (4, .debugReadRingdike h, z.toNat < 2 ∧ words = s.ringWords z.toNat),
           (5, .debugReadEngine h, z &&& 0xFFFFFFFFFFFFC0FC = 0 ∧ bits z 0 2 ≠ 3 ∧ words = (s.engineAt (bits z 8 6) (bits z 0 2)).words),
           (6, .debugReadWaitQueue h, bits z 33 31 = 0 ∧ z.toNat % 8 = 0 ∧ words = s.waitWords (bits z 32 1) (bits z 0 32)),
           (7, .debugReadSaveStore h, task fun t => open' t ∧ t.info.status ≠ .running ∧ t.info.saved = true ∧ words = t.image),
           (8, .debugReadDirectory h, z.toNat < 576 * 2 ^ 30 ∧ s.regionOf z.toNat = none ∧ words = [(Tab.get {} s.coh.dir (z.toNat / 128)).word]),
           (9, .debugReadTrapState h, words = [word (k.regs.trapPc.toNat / 2 * 2), k.regs.causeWord, k.regs.trapVal])],
         arg 1 = word p.1 → arg 5 = 0 → p.2.2 →
           ((arg 4).toNat < 8 * words.length → EndsAsk p.2.1 h pa s 2 0 [] s)
           ∧ (∀ ps, 8 * words.length ≤ (arg 4).toNat → s.vaPieces s.hostXlate true (arg 3).toNat (8 * words.length) = some ps →
               EndsAsk p.2.1 h pa s 0 (8 * words.length) [] (s.putPieces (dwordBytes words) ps))))
    ∧ (arg 1 = 8 → arg 5 = 0 → z.toNat < 576 * 2 ^ 30 → (s.regionOf z.toNat).isSome = true → EndsAsk (.debugReadDirectory h) h pa s 1 0 [] s)
    -- the barrier of a task's launch
    ∧ (∀ t l b ps, arg 1 = 3 → arg 5 = 0 → (arg 0).toNat < 64 → k.inSlot (arg 0).toNat = some t →
        (s.frameAt (dieOf c) t.frame).metered = false → t.info.launch = some l → z.toNat < 8 → b.cores = [c] →
        (s.dieAt l.die).barriers = [b] → b.entry = l.entry → b.tag = z.toNat → b.arrived = [] → b.ended = [] → k.tasks = [t] →
        ∀ x, t.barIf z.toNat = some x → 48 ≤ (arg 4).toNat → s.vaPieces s.hostXlate true (arg 3).toNat 48 = some ps →
        EndsAsk (.debugReadBarrier h) h pa s 0 48 [] { s.putPieces (dwordBytes [word b.gen, 1, 0, word c, word x.gen, flag x.waited]) ps with
          free := (s.putPieces (dwordBytes [word b.gen, 1, 0, word c, word x.gen, flag x.waited]) ps).free + 1 })

/-- R195, R203, R376 to R378: halting, resuming, stepping and breakpoints of a core; an encoding that names no instruction. What a breakpoint's
pass is keyed to, that carried code has no breakpoints, and when a step ends are the model's choices (log 52). -/
def Obligations.HaltingAndIllegalEncodings : Prop :=
  ∀ (c st : Nat) (w : BitVec 32) (s : State), s.Parked →
    let d := (s.coreAt c).dbg
    let sets := fun (i : Instr) (f : CoreDebug → CoreDebug) => Gives i s fun y => (y.coreAt c).dbg = f d
      ∧ (y.coreAt c).task = (s.coreAt c).task ∧ (y.coreAt c).regs = (s.coreAt c).regs ∧ y.mem = s.mem
    (c ≤ 0x1047 → sets (.halt c) (fun d => { d with halted := true, stepping := false, stepped := [] })
      ∧ sets (.resume c) (fun d => { d with halted := false, stepping := d.step, stepped := [] })
      ∧ (d.stepping = true → (s.coreAt c).running = false →
          sets (.stepHalt c) fun d => { d with halted := true, stepping := false, stepped := [] })
      ∧ (d.stepping = false → sets (.stepHalt c) fun d => d))
    ∧ (∀ x, (s.coreAt c).activeStream st = some x → (s.coreAt c).task.info.carried = none → d.halted = false →
        (∀ b ∈ d.bp.toList, bit b 63 = true → bits b 1 15 * 2 ≠ x.pc) → sets (.breakpoint c st) fun d => d)
    ∧ (∀ x, (s.coreAt c).activeStream st = some x → (s.coreAt c).task.info.carried = none → d.halted = false → ((s.coreAt c).task.info.uid, st, x.pc) ∉ d.pass →
        (∃ b ∈ d.bp.toList, bit b 63 = true ∧ bits b 1 15 * 2 = x.pc) →
        sets (.breakpoint c st) fun d => { d with halted := true, stepping := false, stepped := [], pass := ((s.coreAt c).task.info.uid, st, x.pc) :: d.pass })
    ∧ (s.Ready →
        let n := if bit (w.setWidth 64) 0 then w.toNat else w.toNat % 65536
        Traps (.illegalInstruction w) s { cause := 0x01, val := word n, d5 := word n })
    ∧ (∀ hs, s.core.running = true → s.strm.wait = none → s.strm.reply = none → s.task.info.carried = some hs → bit (w.setWidth 64) 0 = true →
        Traps (.illegalInstruction w) s { cause := 0x03, val := word w.toNat, d5 := s.task.msg })

/-! ### The whole machine -/

/-- R55, R60, R61, R75, R288, R341: what Product makes of labels: the minimal unions that no nogood lies in; ALWAYS, NEVER, the lowest handle
that names the set, or record NEXT, written once, with every older label kept; what Bound keeps under DROP; and where it cannot be formed,
CAP = 0 and NEXT above CAP included. -/
def Obligations.ProductAndInterning : Prop :=
  ∀ (d : Nat) (f : BitVec 8) (hs : List Handle) (s : State), d < 2 → s.PlainMain →
    let fr := s.frameAt d f
    let l := s.rawProduct d f hs
    1 ≤ fr.next.toNat →
    let named := fun (l : Lab) (h : Handle) => 1 ≤ h.toNat ∧ h.toNat < fr.next.toNat ∧ s.labOf d f h = l
        ∧ ∀ g : Handle, 1 ≤ g.toNat → g.toNat < h.toNat → s.labOf d f g ≠ l
    let unnamed := fun (l : Lab) => ∀ h : Handle, 1 ≤ h.toNat → h.toNat < fr.next.toNat → s.labOf d f h ≠ l
    -- the label under handle NEXT, every older one kept
    let made := fun (l : Lab) (inc : Bool) (y : State) => y.labOf d f fr.next = l ∧ (y.frameAt d f).next = fr.next + 1
        ∧ (y.frameAt d f).inc = inc ∧ (∀ h : Handle, h.toNat < fr.next.toNat → y.labOf d f h = s.labOf d f h)
        ∧ (let a := fr.tbase.toNat * 65536 + 128 * fr.next.toNat
           ∀ b, b < a ∨ a + 128 ≤ b → y.mainByte b = s.mainByte b)
    (∀ a b : Handle, ∀ e : Env,
      let u := fun (e : Env) => ∃ x ∈ (s.labOf d f a).envs, ∃ y ∈ (s.labOf d f b).envs, e = x ||| y
      let live := fun (e : Env) => ∀ n ∈ fr.nogoods, n &&& ~~~e ≠ 0
      e ∈ (s.rawProduct d f [a, b]).envs ↔ u e ∧ live e ∧ ∀ e', u e' → live e' → e' &&& ~~~e = 0 → e' = e)
    ∧ ((∀ h ∈ hs, h = always) → s.product d f false hs = .ok (always, s))
    ∧ (never ∈ hs → s.product d f false hs = .ok (never, s))
    ∧ (never ∉ hs → (∃ h ∈ hs, h ≠ always) →
      (l.envs = [] → s.product d f false hs = .ok (never, s))
      ∧ (l.envs = [0] → s.product d f false hs = .ok (always, s))
      ∧ (15 < l.envs.length → fr.policy = true → s.product d f false hs = .error (.overflow l.envs.length))
      ∧ (l.envs ≠ [] → l.envs ≠ [0] → l.envs.length ≤ 15 →
        (∀ h, named l h → s.product d f false hs = .ok (h, s))
        ∧ (unnamed l → fr.cap.toNat ≤ fr.next.toNat → s.product d f false hs = .error .full)
        ∧ (unnamed l → fr.next.toNat < fr.cap.toNat → ∃ y, s.product d f false hs = .ok (fr.next, y) ∧ made l fr.inc y))
      -- DROP: the 15 smallest environments, INC in the record and in FSTAT
      ∧ (15 < l.envs.length → fr.policy = false → ∃ k : Lab, k.inc = true ∧ k.envs.length = 15
        ∧ k.envs.Pairwise (fun a b => a.toNat < b.toNat) ∧ (∀ e ∈ k.envs, e ∈ l.envs)
        ∧ (∀ e ∈ k.envs, ∀ e' ∈ l.envs, e' ∉ k.envs →
            popCount 64 e.toNat < popCount 64 e'.toNat ∨ (popCount 64 e.toNat = popCount 64 e'.toNat ∧ e.toNat < e'.toNat))
        ∧ (∀ h, named k h → s.product d f false hs = .ok (h, s.setFrame d f { fr with inc := true }))
        ∧ (unnamed k → fr.cap.toNat ≤ fr.next.toNat → s.product d f false hs = .error .full)
        ∧ (unnamed k → fr.next.toNat < fr.cap.toNat → ∃ y, s.product d f false hs = .ok (fr.next, y) ∧ made k true y)))

/-- R63, R64, R208, R210: the frame of every instruction of which `Writes` holds: those with one result in an x register and no other
effect. x[d] takes the value and the label; every other register, state register, stream, core and byte is as before, but for the
record that interning the label may write. Main memory is here without correctable errors, which a read would mend (R352). -/
def Obligations.RegisterResultFrame : Prop :=
  ∀ (i : Instr) (len : Nat) (d : BitVec 5) (v : Word) (hs : List Handle) (s : State), s.Ready → Writes i s len d v hs →
    (d = 0 → ∃ y, exec i s = .next y ∧ OnlyX s y d)
    ∧ (d ≠ 0 → ∀ h s', s.prod (hs ++ [s.dep]) = .ok (h, s') → (∀ p, s.inSpill 0 p = false ∧ s.inSpill 1 p = false) → Memory.wf s.mem = true →
      (∀ t, s.mends .main t = false) →
      (∃ y, exec i s = .next y ∧ y.x d = ⟨v, h⟩ ∧ OnlyX s' y d)
      ∧ s' = { s with mem := s'.mem, dies := s'.dies } ∧ s'.mem.spm = s.mem.spm ∧ s'.mem.spmSide = s.mem.spmSide ∧ s'.mem.imem = s.mem.imem
      ∧ (let fr := s.frameAt s.die s.task.frame
         let a := fr.tbase.toNat * 65536 + 128 * fr.next.toNat
         ∀ b, b < a ∨ a + 128 ≤ b → s'.mainByte b = s.mainByte b))

/-- R52, R194, R218, R232: where a stream goes on after an instruction that retires in sequence, and what the count of R52 becomes. `c.nop`
stands for every such instruction: each retires by the same operation. -/
def Obligations.RetirementAndLoops : Prop :=
  ∀ (s : State), s.Ready →
    let l := s.task.loops
    let goes := fun (pc : Nat) (c0 c1 : Word) (n : Nat) => Gives .cNop s fun y => y.pc = pc ∧ y.task.loops = { l with lc0 := c0, lc1 := c1 }
      ∧ y.task.spCount = min (s.task.spCount + n) 1024 ∧ y.task.regs = s.task.regs ∧ y.mem = s.mem
    let at0 := l.lc0 ≠ 0 ∧ s.pc = l.le0.toNat
    let at1 := l.lc1 ≠ 0 ∧ s.pc = l.le1.toNat
    (s.actStream = 1 ∨ s.core.regs.act = true → goes (s.pc + 2) l.lc0 l.lc1 1)
    ∧ (s.actStream = 0 → s.core.regs.act = false →
      (¬at0 → ¬at1 → goes (s.pc + 2) l.lc0 l.lc1 1)
      ∧ (at0 → l.lc0 ≠ 1 → goes l.lb0.toNat (l.lc0 - 1) l.lc1 2)
      ∧ (at0 → l.lc0 = 1 → ¬at1 → goes (s.pc + 2) 0 l.lc1 1)
      ∧ (at0 → l.lc0 = 1 → at1 → l.lc1 ≠ 1 → goes l.lb1.toNat 0 (l.lc1 - 1) 2)
      ∧ (at0 → l.lc0 = 1 → at1 → l.lc1 = 1 → goes (s.pc + 2) 0 0 1)
      ∧ (¬at0 → at1 → l.lc1 ≠ 1 → goes l.lb1.toNat l.lc0 (l.lc1 - 1) 2)
      ∧ (¬at0 → at1 → l.lc1 = 1 → goes (s.pc + 2) l.lc0 0 1))
    -- a jump leaves the loops alone wherever it stands, and so does a trap
    ∧ (∀ o : BitVec 11, let p := (s.pc : Int) + 2 * o.toInt
        0 ≤ p → p ≤ 0xFFFE → Gives (.cJump o) s fun y => y.pc = p.toNat ∧ y.task.loops = l)
    ∧ (∀ w, s.core.regs.act = false → s.core.regs.tvec ≠ 0 → s.task.moot = false →
        Gives (.illegalInstruction w) s fun y => y.pc = s.core.regs.tvec.toNat ∧ y.task.loops = l)

/-- R74, R326 to R330, R333, R334, R347: what taking a trap does, here an illegal encoding's, cause 0x01, or in a class-0 task a 32-bit one's,
cause 0x03: entry to the handler; a wait while the other stream's handler runs; or the task's retirement, which leaves the trap registers with
ACT = 0, once its stores have performed, with its record, which a moot task has none of. A record is written at once (R334). -/
def Obligations.TrapsEnterOrRetire : Prop :=
  ∀ (w : BitVec 32) (s : State), s.core.running = true → s.strm.wait = none → s.strm.reply = none → s.task.spCount < 1024 → s.actStream ≤ 1 →
    let i := Instr.illegalInstruction w
    let k := s.core.regs
    let long := bit (w.setWidth 64) 0
    let v := word (if long then w.toNat else w.toNat % 65536)
    let class0 := s.task.info.carried.isSome
    let cause : BitVec 8 := if class0 && long then 0x03 else 0x01
    let detail := if class0 && long then s.task.msg else v
    let here := k.trapStream = decide (s.actStream = 1)
    let regs := fun (act : Bool) => { k with
      trapPc := BitVec.ofNat 16 s.pc, act := act, trapStream := decide (s.actStream = 1), cause := cause, trapVal := v }
    (k.act = false → k.tvec ≠ 0 → class0 = false → s.task.moot = false → Gives i s fun y => y.pc = k.tvec.toNat ∧ y.core.regs = regs true
      ∧ y.task.regs = s.task.regs ∧ y.task.loops = s.task.loops ∧ y.dep = s.dep ∧ y.otherStrm = s.otherStrm ∧ y.mem = s.mem
      ∧ y.task.spCount = s.task.spCount)
    ∧ (k.act = true → ¬here → Gives i s fun y => y.strm.wait = some ⟨.handler, s.cycle⟩ ∧ y.pc = s.pc ∧ y.core.regs = k ∧ y.mem = s.mem)
    ∧ ((k.act = true ∧ here) ∨ (k.act = false ∧ (k.tvec = 0 ∨ class0 = true ∨ s.task.moot = true)) →
      let ends := fun (y : State) => y.mem.spm = s.mem.spm ∧ if s.storesLeft s.core.num s.task.info.uid
        then y.strm.wait = some ⟨.ending, s.cycle⟩ ∧ y.core.regs = k else y.core.running = false ∧ y.core.regs = regs false
      let q := (s.frameAt s.die s.task.frame).fq
      let base := bits q 12 36 * 4096
      let n := 2 ^ bits q 8 4
      let tail := leNat (s.mainBytes base 8)
      let head := leNat (s.mainBytes (base + 8) 8)
      let lost := leNat (s.mainBytes (base + 16) 8)
      let used := (tail + 2 ^ 64 - head) % 2 ^ 64
      let at' := base + 64 + 64 * (tail % n)
      (s.task.moot = true ∨ bit q 0 = false → Gives i s fun y => ends y ∧ y.mem = s.mem)
      ∧ (s.task.moot = false → bit q 0 = true → s.PlainMain →
        (n ≤ used → Gives i s fun y => ends y ∧ leNat (y.mainBytes (base + 16) 8) = min (lost + 1) (2 ^ 64 - 1)
            ∧ ∀ b, b < base + 16 ∨ base + 24 ≤ b → y.mainByte b = s.mainByte b)
        ∧ (used < n → Gives i s fun y => ends y ∧ leNat (y.mainBytes base 8) = (tail + 1) % 2 ^ 64
            ∧ (∀ b, (b < base ∨ base + 8 ≤ b) → (b < at' ∨ at' + 64 ≤ b) → y.mainByte b = s.mainByte b)
            ∧ (let dw := fun (j : Nat) => wordOf (y.mainBytes (at' + 8 * j) 8)
               bits (dw 0) 56 8 = cause.toNat ∧ bit (dw 0) 55 = k.act ∧ bit (dw 0) 54 = decide (s.actStream = 1) ∧ bits (dw 0) 52 2 = 0
                 ∧ bits (dw 0) 27 13 = s.core.num % 8192 ∧ bits (dw 0) 19 8 = s.task.frame.toNat
                 ∧ dw 1 = word s.pc ∧ dw 2 = v ∧ dw 3 = word s.cycle ∧ dw 5 = detail
                 ∧ (∀ l, s.task.info.launch = some l → bits (dw 0) 0 16 = l.seq % 65536 ∧ dw 4 = l.record)
                 ∧ (s.task.info.launch = none → bits (dw 0) 0 16 = 0 ∧ dw 4 = 0)))))

/-- R194, R198, R205, R206: the decoder reads what the encoder writes of every well-formed instruction, each operand at every value the
encoding admits; and every word that the decoder reads is the encoding of the well-formed instruction it gives. -/
def Obligations.DecodeEncodeAgree : Prop :=
  (∀ i n w, encode i = some (n, w) → wellFormed i = true → decodeTableWord n w = some i ∧ w < 2 ^ n ∧ (n = 16 ∨ n = 32))
  ∧ ∀ n w i, n = 16 ∨ n = 32 → w < 2 ^ n → decodeTableWord n w = some i → wellFormed i = true ∧ ∃ m, encode i = some (m, w % 2 ^ m)

/-- R198 to R206 and the encodings that the chapters work out bit by bit: the decoder reads these words as the manual does. -/
def Obligations.DecodedWords : Prop :=
  ∀ p ∈ ([
    (32, 0x00058899, .ldW 17 24 0), (32, 0x00BCA503, .or 10 10 11), (32, 0x020AD685, .srli 13 13 32), (32, 0x02863A99, .ldD 21 3 40),
    (32, 0x0806721B, .stD 4 7 128), (32, 0x0052001D, .fenceRel 5), (32, 0x0054001D, .fenceAcq 5), (32, 0x0283500D, .bne 0 21 40),
    (32, 0xFFF2A00D, .bne 0 10 0xFFF), (16, 0x57A2, .cAddi 10 0x3D), (32, 0x00C0B51F, .amoAddD 10 11 12), (32, 0x00C2B521, .syncAdd 10 11 12),
    (32, 0x00000023, .barArrive 0), (32, 0x00020023, .barWait 0), (32, 0x00000427, .lblAssume 8 0), (32, 0x0082D6A7, .lblWith 13 13 8),
    (32, 0x0000B529, .launch 10 11), (32, 0x0000702D, .vld 0 7 0 0), (32, 0x0012A02D, .vst 10 1 0 0), (32, 0x08040033, .qhist 0 0 1),
    (32, 0x0006F733, .qstE4m3 14 15 0 0 0), (32, 0x00100037, .repOpen 1), (32, 0x02B2A037, .repRun 10 11 1),
    (32, 0x04320539, .tmapRd 10 3 2), (32, 0x0004B139, .tmapMov 2 11), (32, 0x0001613B, .gangWld 2 22 0 0), (32, 0x000200BB, .gangMma 1 0 0 0 0 0),
    (32, 0x0171613F, .hotReg 2 22 23), (32, 0x0002003F, .hotMig 0), (32, 0x0004B53F, .hotCnt 10 11), (32, 0x0003803D, .accSt 0 24 0),
    (32, 0x0004043D, .accZero 1), (32, 0x0001CCC1, .cpy 25 28), (32, 0x0007CDC1, .engCancel 27 28), (32, 0x011539A7, .lblMerge 19 19 17),
    (32, 0x0052300F, .loopi 0 3 5), (32, 0x00D0A58D, .beq 11 10 13), (32, 0x0004000F, .loopClr 0), (32, 0x0000007F, .hint 0)] : List (Nat × Nat × Instr)),
    decodeTableWord p.1 p.2.1 = some p.2.2

/-- R3, R15, R35, R97, R124, R194 to R196, R203, R377 (the order of turns is the model's: log 1): a step runs the instruction that the bytes at the
acting stream's PC spell, unless a scratchpad bank that it accesses is granted to another core in this cycle; then nothing but the banks won is
done, and the stream tries again a cycle later. The stream's next step comes a cycle later, or later still by the step's latency, and each
step joins the step sequence. Without a schedule the next stream gets its turn, and a cycle passes where none can step in it; both leave the
core's task and all memory as the instruction left them where no unit has work in the cycle, and the core's registers but for the writes that
land at its end. -/
def Obligations.StepRunsTheFetchedInstruction : Prop :=
  ∀ (i : Instr) (s : State),
    (∀ n w, encode i = some (n, w) → wellFormed i = true → s.task.info.carried = none → s.pc + n / 8 ≤ 65536 →
      (∀ k, k < n / 8 → s.imemByte (groupOf s.core.num) (s.pc + k) = BitVec.ofNat 8 (w / 256 ^ k)) → s.fetch = .instr i)
    ∧ (s.core.atBreak s.actStream = false → s.runnable = true → ∀ j, s.fetch = .instr i ∧ j = i ∨ (∃ w, s.fetch = .illegal w ∧ j = .illegalInstruction w) →
        let m := Move.stream s.core.num s.actStream
        (s.schedule = [] → s.turn = false → s.bankLoses = false →
          step s = onNext (fun y => ({ (s.took s.endsCycle y).noted m with turn := true } : State).rotate) (exec j s))
        ∧ (s.schedule = [] → s.turn = false → s.bankLoses = true → step s = .next ({ s.bankRetry.noted m with turn := true } : State).rotate)
        ∧ (∀ ms, s.schedule = m :: ms →
            let s' : State := { s with schedule := ms }
            (s'.bankLoses = false → step s = onNext (fun y => (s'.took s'.endsCycle y).noted m) (exec j s'))
            ∧ (s'.bankLoses = true → step s = .next (s'.bankRetry.noted m))))
    ∧ (∀ ms, s.schedule = .event i :: ms → step s = onNext (·.noted (.event i)) (exec i { s with schedule := ms }))
    ∧ (∀ ms, s.schedule = .tick :: ms → step s = .next (({ s with schedule := ms } : State).tick.noted .tick))
    ∧ (s.Parked →
        let kept := fun (y : State) => y.mem = s.mem ∧ y.dies = s.dies ∧ (y.coreAt s.core.num).regs = s.core.regs
        (∀ b, let y := s.spent s.core.num s.actStream b
          kept y ∧ y.clocks = s.clocks ∧ y.core.task.regs = s.core.task.regs ∧ y.pc = s.pc
            ∧ (s.core.running = true → y.strm.due = s.cycle + 1 + s.strm.lag))
        ∧ (let y := s.bankRetry
           kept y ∧ y.clocks = s.clocks ∧ y.core.task.regs = s.core.task.regs ∧ y.pc = s.pc ∧ y.strm.due = s.cycle + 1)
        ∧ (∀ m, s.noted m = { s with past := s.past ++ [m] })
        ∧ kept s.rotate ∧ s.rotate.clocks = s.clocks ∧ (s.rotate.coreAt s.core.num).task = s.core.task
        ∧ (s.ringq = [] → s.host.queues = [] → s.host.debugq = [] → s.host.giariq = [] → (∀ d, d < 2 → (s.dieAt d).barriers = []) →
          s.tick.mem = s.mem ∧ s.tick.dies = s.dies ∧ s.tick.core.task = s.core.task
          ∧ s.tick.core.regs = (if s.tick.cycle ≠ s.cycle then s.core.regs.land else s.core.regs)
          -- the faster die's cycle passes, in units of 1/14.4 ns
          ∧ (let per := fun (i : Fin 2) => clkUnits s.host.clk[i]
             let p := min (per 0) (per 1)
             s.tick.clocks.units = s.clocks.units + p
             ∧ ∀ i : Fin 2, s.tick.clocks.cycles[i] * per i + s.tick.clocks.part[i] = s.clocks.cycles[i] * per i + s.clocks.part[i] + p)))

/-- R3, R28, R32, R55, R56, R98, R99, R111, R143, R233, R296, R300, R304, R327: what power-on reset leaves; and that it has the canonical
forms. Registers to which the spec gives no reset value read 0 (log 2), and so do memories (log 3): those clauses are the model's. -/
def Obligations.ResetState : Prop :=
  let s := State.reset
  s.phase = 0 ∧ s.cycle = 0 ∧ s.host.phase = 0 ∧ s.channels = [] ∧ s.inbound = [] ∧ s.sec.regions = []
  ∧ (∀ d, d < 2 → (s.frameAt d 0).v = true ∧ (s.frameAt d 0).cap = 1 ∧ (s.frameAt d 0).next = 1 ∧ (s.frameAt d 0).nogoods = []
      ∧ (∀ f, f ≠ 0 → (s.frameAt d f).v = false) ∧ (s.dieAt d).launchSeq = 0 ∧ (∀ j, (s.slot d j).v = false) ∧ (s.dieAt d).spill = 0)
  ∧ (∀ c, (s.coreAt c).running = false ∧ (s.coreAt c).regs.limit = 16 ∧ (s.coreAt c).regs.lab = false ∧ (s.coreAt c).regs.tvec = 0
      ∧ (s.coreAt c).regs.act = false ∧ (∀ w ∈ (s.coreAt c).regs.win.toList, bit w 63 = false)
      ∧ (∀ k, (Tab.get {} (s.coreAt c).regs.rout k).v = false) ∧ (s.coreAt c).dbg.halted = false)
  ∧ (∀ t a, s.tlbFind t a = none) ∧ (∀ g p, (s.planeAt g p).v = false) ∧ (∀ l, (Tab.get {} s.coh.dir l).state = 0)
  ∧ (∀ a, Tab.get 0 s.mem.spm a = 0 ∧ s.mainByte a = 0) ∧ Memory.wf s.mem = true ∧ s.Tables

/-- Every step keeps the canonical form of the memories: rising addresses, and no entry equal to what an unlisted address reads as. -/
def Obligations.StepKeepsMemoryForm : Prop :=
  ∀ s t : State, Memory.wf s.mem = true → step s = .next t → Memory.wf t.mem = true

/-- Every step keeps the tables' forms that other statements assume. -/
def Obligations.StepKeepsTables : Prop :=
  ∀ s t : State, s.Tables → step s = .next t → t.Tables

/-- R79, R81 to R83, R272: what the floating-point operations that the other statements name are, over the real numbers. -/
def Obligations.FloatingOperationsRound : Prop :=
  -- R79, R81, R82, R272: the arithmetic and the order of FP32, FP16 and BF16 over the reals: one rounding, to nearest even; the signs of zeros
  -- and infinities; the canonical NaN; subnormals kept. An infinity over zero gives the canonical NaN by R81 against R272 (log 11).
  (∀ f ∈ [fp32, fp16, bf16], ∀ a b c : Nat, a < 2 ^ f.width → b < 2 ^ f.width → c < 2 ^ f.width →
     let flip := fun (x : Nat) => (x + 2 ^ (f.width - 1)) % 2 ^ f.width
     let sum := fun (r : Nat) =>
       (f.NaN a ∨ f.NaN b → r = f.quietNaN)
       ∧ (f.Infinite a → f.Infinite b → r = if a = b then a else f.quietNaN)
       ∧ (f.Infinite a → f.Finite b → r = a) ∧ (f.Finite a → f.Infinite b → r = b)
       ∧ (f.Finite a → f.Finite b → f.Result (f.real a + f.real b) (if f.signOf a = 1 ∧ f.signOf b = 1 then 1 else 0) r)
     let sg := (f.signOf a + f.signOf b) % 2
     -- a product without a real value, an infinite one, a finite one
     let bad := f.NaN a ∨ f.NaN b ∨ f.Infinite a ∧ f.Finite b ∧ f.real b = 0 ∨ f.Finite a ∧ f.real a = 0 ∧ f.Infinite b
     let big := ¬bad ∧ (f.Infinite a ∨ f.Infinite b)
     let fits := f.Finite a ∧ f.Finite b
     let quot := fun (r : Nat) =>
       (f.NaN a ∨ f.NaN b ∨ f.Infinite a ∧ f.Infinite b → r = f.quietNaN)
       ∧ (f.Infinite a → f.Finite b → r = if f.real b = 0 then f.quietNaN else f.infOf sg)
       ∧ (f.Finite a → f.Infinite b → r = f.zeroOf sg)
       ∧ (fits → f.real b = 0 → r = if f.real a = 0 then f.quietNaN else f.infOf sg)
       ∧ (fits → f.real b ≠ 0 → f.Result (f.real a / f.real b) sg r)
     let root := fun (r : Nat) =>
       (f.NaN a ∨ f.Infinite a ∧ f.signOf a = 1 → r = f.quietNaN) ∧ (f.Infinite a → f.signOf a = 0 → r = a)
       ∧ (f.Finite a → f.real a < 0 → r = f.quietNaN) ∧ (f.Finite a → 0 ≤ f.real a → f.Result (√(f.real a)) (f.signOf a) r)
     sum (f.add a b) ∧ f.sub a b = f.add a (flip b)
     ∧ ((bad → f.mul a b = f.quietNaN) ∧ (big → f.mul a b = f.infOf sg) ∧ (fits → f.Result (f.real a * f.real b) sg (f.mul a b)))
     ∧ ((f.NaN c ∨ bad → f.fma c a b = f.quietNaN)
       ∧ (big → ¬f.NaN c → f.fma c a b = if f.Infinite c ∧ f.signOf c ≠ sg then f.quietNaN else f.infOf sg)
       ∧ (fits → f.Infinite c → f.fma c a b = c)
       ∧ (fits → f.Finite c → f.Result (f.real c + f.real a * f.real b) (if f.signOf c = 1 ∧ sg = 1 then 1 else 0) (f.fma c a b)))
     ∧ f.fnms c a b = f.fma c (flip a) b
     ∧ quot (f.div a b) ∧ root (f.sqrt a)
     ∧ (f.eq a b = true ↔ ¬f.NaN a ∧ ¬f.NaN b ∧ f.ext a = f.ext b) ∧ (f.lt a b = true ↔ ¬f.NaN a ∧ ¬f.NaN b ∧ f.ext a < f.ext b)
     ∧ (f.le a b = true ↔ ¬f.NaN a ∧ ¬f.NaN b ∧ f.ext a ≤ f.ext b)
     ∧ (f.NaN a ∨ f.NaN b → f.min a b = f.quietNaN ∧ f.max a b = f.quietNaN)
     ∧ (¬f.NaN a → ¬f.NaN b →
         -- of two zeros the negative one is the smaller
         let less := f.ext a < f.ext b ∨ f.ext a = f.ext b ∧ f.signOf b < f.signOf a
         f.min a b = (if less then a else b) ∧ f.max a b = if less then b else a))
  -- R81, R83: conversions over the reals: to nearest even; E4M3 saturates and so does a finite E5M2; a conversion to an integer saturates
  -- and takes NaN to 0.
  ∧ ((∀ f ∈ [fp32, fp16, bf16, e4m3, e5m2], ∀ g ∈ [fp32, fp16, bf16, e4m3, e5m2], ∀ x : Nat, x < 2 ^ f.width →
       let r := f.cvt g x
       (f.NaN x → r = g.quietNaN)
       ∧ (f.Infinite x → r = if g.noInf then g.zeroOf (f.signOf x) + 0x7E else g.infOf (f.signOf x))
       ∧ (f.Finite x → (f.real x = 0 → r = g.zeroOf (f.signOf x))
         ∧ (f.real x ≠ 0 → if g.width = 8 then g.Nearest (f.real x) r else g.Rounded (f.real x) r)))
     ∧ (∀ (n : Bool) (m : Nat) (e : Int),
         let v : ℝ := (if n then -1 else 1) * m * 2 ^ e
         let r := roundE4m3 n m 1 e
         (v = 0 → r = (e4m3.zeroOf n.toNat, false)) ∧ (v ≠ 0 → e4m3.Nearest v r.1 ∧ (r.2 = true ↔ 464 < |v|)))
     ∧ (∀ (w k x : Nat) (sg z : Bool), 0 < w → x < 2 ^ 32 →
         let r := f32ToInt w k sg z x
         let lo : Int := if sg then -2 ^ (w - 1) else 0
         let hi : Int := if sg then 2 ^ (w - 1) - 1 else 2 ^ w - 1
         (fp32.NaN x → r = 0)
         ∧ (fp32.Infinite x → (r : Int) = (if fp32.signOf x = 1 then lo else hi) % 2 ^ w)
         ∧ (fp32.Finite x →
             let v := fp32.real x * 2 ^ k
             ∃ y : Int, (if z then y = if v < 0 then ⌈v⌉ else ⌊v⌋ else |(y : ℝ) - v| ≤ 1 / 2 ∧ (|(y : ℝ) - v| = 1 / 2 → Even y))
               ∧ (r : Int) = max lo (min hi y) % 2 ^ w))
     ∧ (∀ f ∈ [fp32, fp16, bf16, e4m3, e5m2], ∀ (y : Int) (k : Nat),
         let v : ℝ := y / 2 ^ k
         let r := f.ofInt y k
         (v = 0 → r = 0) ∧ (v ≠ 0 → if f.noInf then f.Nearest v r else f.Rounded v r)))
end

