-- ==== Sys2Proof/Laws/State.lean ====
section
/-!
SUPPORT. What each plain update of the state leaves in each field.
-/

namespace Sys2Proof.Machine

@[simp] theorem State.modTask_actStream (s : State) (f : Task → Task) : (s.modTask f).actStream = s.actStream := rfl
@[simp] theorem State.modTask_schedule (s : State) (f : Task → Task) : (s.modTask f).schedule = s.schedule := rfl
@[simp] theorem State.modTask_past (s : State) (f : Task → Task) : (s.modTask f).past = s.past := rfl
@[simp] theorem State.modTask_banks (s : State) (f : Task → Task) : (s.modTask f).banks = s.banks := rfl
@[simp] theorem State.modTask_turn (s : State) (f : Task → Task) : (s.modTask f).turn = s.turn := rfl
@[simp] theorem State.modTask_defer (s : State) (f : Task → Task) : (s.modTask f).defer = s.defer := rfl
@[simp] theorem State.modTask_free (s : State) (f : Task → Task) : (s.modTask f).free = s.free := rfl
@[simp] theorem State.modTask_nextId (s : State) (f : Task → Task) : (s.modTask f).nextId = s.nextId := rfl
@[simp] theorem State.modTask_clocks (s : State) (f : Task → Task) : (s.modTask f).clocks = s.clocks := rfl
@[simp] theorem State.modTask_cycle (s : State) (f : Task → Task) : (s.modTask f).cycle = s.cycle := rfl
@[simp] theorem State.modTask_phase (s : State) (f : Task → Task) : (s.modTask f).phase = s.phase := rfl
@[simp] theorem State.modTask_parked (s : State) (f : Task → Task) : (s.modTask f).parked = s.parked := rfl
@[simp] theorem State.modTask_mem (s : State) (f : Task → Task) : (s.modTask f).mem = s.mem := rfl
@[simp] theorem State.modTask_tlb (s : State) (f : Task → Task) : (s.modTask f).tlb = s.tlb := rfl
@[simp] theorem State.modTask_inbound (s : State) (f : Task → Task) : (s.modTask f).inbound = s.inbound := rfl
@[simp] theorem State.modTask_tests (s : State) (f : Task → Task) : (s.modTask f).tests = s.tests := rfl
@[simp] theorem State.modTask_dies (s : State) (f : Task → Task) : (s.modTask f).dies = s.dies := rfl
@[simp] theorem State.modTask_groups (s : State) (f : Task → Task) : (s.modTask f).groups = s.groups := rfl
@[simp] theorem State.modTask_engines (s : State) (f : Task → Task) : (s.modTask f).engines = s.engines := rfl
@[simp] theorem State.modTask_ringq (s : State) (f : Task → Task) : (s.modTask f).ringq = s.ringq := rfl
@[simp] theorem State.modTask_channels (s : State) (f : Task → Task) : (s.modTask f).channels = s.channels := rfl
@[simp] theorem State.modTask_refusals (s : State) (f : Task → Task) : (s.modTask f).refusals = s.refusals := rfl
@[simp] theorem State.modTask_resend (s : State) (f : Task → Task) : (s.modTask f).resend = s.resend := rfl
@[simp] theorem State.modTask_transfers (s : State) (f : Task → Task) : (s.modTask f).transfers = s.transfers := rfl
@[simp] theorem State.modTask_coh (s : State) (f : Task → Task) : (s.modTask f).coh = s.coh := rfl
@[simp] theorem State.modTask_sec (s : State) (f : Task → Task) : (s.modTask f).sec = s.sec := rfl
@[simp] theorem State.modTask_host (s : State) (f : Task → Task) : (s.modTask f).host = s.host := rfl
@[simp] theorem State.modTask_links (s : State) (f : Task → Task) : (s.modTask f).links = s.links := rfl
@[simp] theorem State.modTask_core_num (s : State) (f : Task → Task) : (s.modTask f).core.num = s.core.num := rfl
@[simp] theorem State.modTask_core_running (s : State) (f : Task → Task) : (s.modTask f).core.running = s.core.running := rfl
@[simp] theorem State.modTask_core_slots (s : State) (f : Task → Task) : (s.modTask f).core.slots = s.core.slots := rfl
@[simp] theorem State.modTask_core_regs (s : State) (f : Task → Task) : (s.modTask f).core.regs = s.core.regs := rfl
@[simp] theorem State.modTask_core_dbg (s : State) (f : Task → Task) : (s.modTask f).core.dbg = s.core.dbg := rfl
@[simp] theorem State.modTask_core_recvq (s : State) (f : Task → Task) : (s.modTask f).core.recvq = s.core.recvq := rfl
@[simp] theorem State.modTask_core_refq (s : State) (f : Task → Task) : (s.modTask f).core.refq = s.core.refq := rfl
@[simp] theorem State.modTask_core_dorm (s : State) (f : Task → Task) : (s.modTask f).core.dorm = s.core.dorm := rfl
@[simp] theorem State.modTask_core_sb (s : State) (f : Task → Task) : (s.modTask f).core.sb = s.core.sb := rfl
@[simp] theorem State.modTask_core_turn (s : State) (f : Task → Task) : (s.modTask f).core.turn = s.core.turn := rfl
@[simp] theorem State.modTask_core_task (s : State) (f : Task → Task) : (s.modTask f).core.task = f s.core.task := rfl
@[simp] theorem State.modStrm_actStream (s : State) (f : Stream → Stream) : (s.modStrm f).actStream = s.actStream := rfl
@[simp] theorem State.modStrm_schedule (s : State) (f : Stream → Stream) : (s.modStrm f).schedule = s.schedule := rfl
@[simp] theorem State.modStrm_past (s : State) (f : Stream → Stream) : (s.modStrm f).past = s.past := rfl
@[simp] theorem State.modStrm_banks (s : State) (f : Stream → Stream) : (s.modStrm f).banks = s.banks := rfl
@[simp] theorem State.modStrm_turn (s : State) (f : Stream → Stream) : (s.modStrm f).turn = s.turn := rfl
@[simp] theorem State.modStrm_defer (s : State) (f : Stream → Stream) : (s.modStrm f).defer = s.defer := rfl
@[simp] theorem State.modStrm_free (s : State) (f : Stream → Stream) : (s.modStrm f).free = s.free := rfl
@[simp] theorem State.modStrm_nextId (s : State) (f : Stream → Stream) : (s.modStrm f).nextId = s.nextId := rfl
@[simp] theorem State.modStrm_clocks (s : State) (f : Stream → Stream) : (s.modStrm f).clocks = s.clocks := rfl
@[simp] theorem State.modStrm_cycle (s : State) (f : Stream → Stream) : (s.modStrm f).cycle = s.cycle := rfl
@[simp] theorem State.modStrm_phase (s : State) (f : Stream → Stream) : (s.modStrm f).phase = s.phase := rfl
@[simp] theorem State.modStrm_parked (s : State) (f : Stream → Stream) : (s.modStrm f).parked = s.parked := rfl
@[simp] theorem State.modStrm_mem (s : State) (f : Stream → Stream) : (s.modStrm f).mem = s.mem := rfl
@[simp] theorem State.modStrm_tlb (s : State) (f : Stream → Stream) : (s.modStrm f).tlb = s.tlb := rfl
@[simp] theorem State.modStrm_inbound (s : State) (f : Stream → Stream) : (s.modStrm f).inbound = s.inbound := rfl
@[simp] theorem State.modStrm_tests (s : State) (f : Stream → Stream) : (s.modStrm f).tests = s.tests := rfl
@[simp] theorem State.modStrm_dies (s : State) (f : Stream → Stream) : (s.modStrm f).dies = s.dies := rfl
@[simp] theorem State.modStrm_groups (s : State) (f : Stream → Stream) : (s.modStrm f).groups = s.groups := rfl
@[simp] theorem State.modStrm_engines (s : State) (f : Stream → Stream) : (s.modStrm f).engines = s.engines := rfl
@[simp] theorem State.modStrm_ringq (s : State) (f : Stream → Stream) : (s.modStrm f).ringq = s.ringq := rfl
@[simp] theorem State.modStrm_channels (s : State) (f : Stream → Stream) : (s.modStrm f).channels = s.channels := rfl
@[simp] theorem State.modStrm_refusals (s : State) (f : Stream → Stream) : (s.modStrm f).refusals = s.refusals := rfl
@[simp] theorem State.modStrm_resend (s : State) (f : Stream → Stream) : (s.modStrm f).resend = s.resend := rfl
@[simp] theorem State.modStrm_transfers (s : State) (f : Stream → Stream) : (s.modStrm f).transfers = s.transfers := rfl
@[simp] theorem State.modStrm_coh (s : State) (f : Stream → Stream) : (s.modStrm f).coh = s.coh := rfl
@[simp] theorem State.modStrm_sec (s : State) (f : Stream → Stream) : (s.modStrm f).sec = s.sec := rfl
@[simp] theorem State.modStrm_host (s : State) (f : Stream → Stream) : (s.modStrm f).host = s.host := rfl
@[simp] theorem State.modStrm_links (s : State) (f : Stream → Stream) : (s.modStrm f).links = s.links := rfl
@[simp] theorem State.modStrm_core_num (s : State) (f : Stream → Stream) : (s.modStrm f).core.num = s.core.num := rfl
@[simp] theorem State.modStrm_core_running (s : State) (f : Stream → Stream) : (s.modStrm f).core.running = s.core.running := rfl
@[simp] theorem State.modStrm_core_slots (s : State) (f : Stream → Stream) : (s.modStrm f).core.slots = s.core.slots := rfl
@[simp] theorem State.modStrm_core_regs (s : State) (f : Stream → Stream) : (s.modStrm f).core.regs = s.core.regs := rfl
@[simp] theorem State.modStrm_core_dbg (s : State) (f : Stream → Stream) : (s.modStrm f).core.dbg = s.core.dbg := rfl
@[simp] theorem State.modStrm_core_recvq (s : State) (f : Stream → Stream) : (s.modStrm f).core.recvq = s.core.recvq := rfl
@[simp] theorem State.modStrm_core_refq (s : State) (f : Stream → Stream) : (s.modStrm f).core.refq = s.core.refq := rfl
@[simp] theorem State.modStrm_core_dorm (s : State) (f : Stream → Stream) : (s.modStrm f).core.dorm = s.core.dorm := rfl
@[simp] theorem State.modStrm_core_sb (s : State) (f : Stream → Stream) : (s.modStrm f).core.sb = s.core.sb := rfl
@[simp] theorem State.modStrm_core_turn (s : State) (f : Stream → Stream) : (s.modStrm f).core.turn = s.core.turn := rfl
@[simp] theorem State.modStrm_core_task (s : State) (f : Stream → Stream) : (s.modStrm f).core.task = s.core.task.modStrm s.actStream f := rfl
@[simp] theorem Task.modStrm_info (t : Task) (n : Nat) (f : Stream → Stream) : (t.modStrm n f).info = t.info := by unfold Task.modStrm; split <;> rfl
@[simp] theorem Task.modStrm_frame (t : Task) (n : Nat) (f : Stream → Stream) : (t.modStrm n f).frame = t.frame := by unfold Task.modStrm; split <;> rfl
@[simp] theorem Task.modStrm_ctx (t : Task) (n : Nat) (f : Stream → Stream) : (t.modStrm n f).ctx = t.ctx := by unfold Task.modStrm; split <;> rfl
@[simp] theorem Task.modStrm_supp (t : Task) (n : Nat) (f : Stream → Stream) : (t.modStrm n f).supp = t.supp := by unfold Task.modStrm; split <;> rfl
@[simp] theorem Task.modStrm_prio (t : Task) (n : Nat) (f : Stream → Stream) : (t.modStrm n f).prio = t.prio := by unfold Task.modStrm; split <;> rfl
@[simp] theorem Task.modStrm_msg (t : Task) (n : Nat) (f : Stream → Stream) : (t.modStrm n f).msg = t.msg := by unfold Task.modStrm; split <;> rfl
@[simp] theorem Task.modStrm_priv (t : Task) (n : Nat) (f : Stream → Stream) : (t.modStrm n f).priv = t.priv := by unfold Task.modStrm; split <;> rfl
@[simp] theorem Task.modStrm_regs (t : Task) (n : Nat) (f : Stream → Stream) : (t.modStrm n f).regs = t.regs := by unfold Task.modStrm; split <;> rfl
@[simp] theorem Task.modStrm_loops (t : Task) (n : Nat) (f : Stream → Stream) : (t.modStrm n f).loops = t.loops := by unfold Task.modStrm; split <;> rfl
@[simp] theorem Task.modStrm_queues (t : Task) (n : Nat) (f : Stream → Stream) : (t.modStrm n f).queues = t.queues := by unfold Task.modStrm; split <;> rfl
@[simp] theorem Task.modStrm_rep (t : Task) (n : Nat) (f : Stream → Stream) : (t.modStrm n f).rep = t.rep := by unfold Task.modStrm; split <;> rfl
@[simp] theorem Task.modStrm_bars (t : Task) (n : Nat) (f : Stream → Stream) : (t.modStrm n f).bars = t.bars := by unfold Task.modStrm; split <;> rfl
@[simp] theorem Task.modStrm_spCount (t : Task) (n : Nat) (f : Stream → Stream) : (t.modStrm n f).spCount = t.spCount := by unfold Task.modStrm; split <;> rfl
@[simp] theorem Task.modStrm_lastSafept (t : Task) (n : Nat) (f : Stream → Stream) : (t.modStrm n f).lastSafept = t.lastSafept := by unfold Task.modStrm; split <;> rfl
@[simp] theorem Task.modStrm_wide (t : Task) (n : Nat) (f : Stream → Stream) : (t.modStrm n f).wide = t.wide := by unfold Task.modStrm; split <;> rfl
@[simp] theorem State.goto_actStream (s : State) (pc : Nat) : (s.goto pc).actStream = s.actStream := rfl
@[simp] theorem State.goto_schedule (s : State) (pc : Nat) : (s.goto pc).schedule = s.schedule := rfl
@[simp] theorem State.goto_past (s : State) (pc : Nat) : (s.goto pc).past = s.past := rfl
@[simp] theorem State.goto_banks (s : State) (pc : Nat) : (s.goto pc).banks = s.banks := rfl
@[simp] theorem State.goto_turn (s : State) (pc : Nat) : (s.goto pc).turn = s.turn := rfl
@[simp] theorem State.goto_defer (s : State) (pc : Nat) : (s.goto pc).defer = s.defer := rfl
@[simp] theorem State.goto_free (s : State) (pc : Nat) : (s.goto pc).free = s.free := rfl
@[simp] theorem State.goto_nextId (s : State) (pc : Nat) : (s.goto pc).nextId = s.nextId := rfl
@[simp] theorem State.goto_clocks (s : State) (pc : Nat) : (s.goto pc).clocks = s.clocks := rfl
@[simp] theorem State.goto_cycle (s : State) (pc : Nat) : (s.goto pc).cycle = s.cycle := rfl
@[simp] theorem State.goto_phase (s : State) (pc : Nat) : (s.goto pc).phase = s.phase := rfl
@[simp] theorem State.goto_parked (s : State) (pc : Nat) : (s.goto pc).parked = s.parked := rfl
@[simp] theorem State.goto_mem (s : State) (pc : Nat) : (s.goto pc).mem = s.mem := rfl
@[simp] theorem State.goto_tlb (s : State) (pc : Nat) : (s.goto pc).tlb = s.tlb := rfl
@[simp] theorem State.goto_inbound (s : State) (pc : Nat) : (s.goto pc).inbound = s.inbound := rfl
@[simp] theorem State.goto_tests (s : State) (pc : Nat) : (s.goto pc).tests = s.tests := rfl
@[simp] theorem State.goto_dies (s : State) (pc : Nat) : (s.goto pc).dies = s.dies := rfl
@[simp] theorem State.goto_groups (s : State) (pc : Nat) : (s.goto pc).groups = s.groups := rfl
@[simp] theorem State.goto_engines (s : State) (pc : Nat) : (s.goto pc).engines = s.engines := rfl
@[simp] theorem State.goto_ringq (s : State) (pc : Nat) : (s.goto pc).ringq = s.ringq := rfl
@[simp] theorem State.goto_channels (s : State) (pc : Nat) : (s.goto pc).channels = s.channels := rfl
@[simp] theorem State.goto_refusals (s : State) (pc : Nat) : (s.goto pc).refusals = s.refusals := rfl
@[simp] theorem State.goto_resend (s : State) (pc : Nat) : (s.goto pc).resend = s.resend := rfl
@[simp] theorem State.goto_transfers (s : State) (pc : Nat) : (s.goto pc).transfers = s.transfers := rfl
@[simp] theorem State.goto_coh (s : State) (pc : Nat) : (s.goto pc).coh = s.coh := rfl
@[simp] theorem State.goto_sec (s : State) (pc : Nat) : (s.goto pc).sec = s.sec := rfl
@[simp] theorem State.goto_host (s : State) (pc : Nat) : (s.goto pc).host = s.host := rfl
@[simp] theorem State.goto_links (s : State) (pc : Nat) : (s.goto pc).links = s.links := rfl
@[simp] theorem State.goto_core_num (s : State) (pc : Nat) : (s.goto pc).core.num = s.core.num := rfl
@[simp] theorem State.goto_core_running (s : State) (pc : Nat) : (s.goto pc).core.running = s.core.running := rfl
@[simp] theorem State.goto_core_slots (s : State) (pc : Nat) : (s.goto pc).core.slots = s.core.slots := rfl
@[simp] theorem State.goto_core_regs (s : State) (pc : Nat) : (s.goto pc).core.regs = s.core.regs := rfl
@[simp] theorem State.goto_core_dbg (s : State) (pc : Nat) : (s.goto pc).core.dbg = s.core.dbg := rfl
@[simp] theorem State.goto_core_recvq (s : State) (pc : Nat) : (s.goto pc).core.recvq = s.core.recvq := rfl
@[simp] theorem State.goto_core_refq (s : State) (pc : Nat) : (s.goto pc).core.refq = s.core.refq := rfl
@[simp] theorem State.goto_core_dorm (s : State) (pc : Nat) : (s.goto pc).core.dorm = s.core.dorm := rfl
@[simp] theorem State.goto_core_sb (s : State) (pc : Nat) : (s.goto pc).core.sb = s.core.sb := rfl
@[simp] theorem State.goto_core_turn (s : State) (pc : Nat) : (s.goto pc).core.turn = s.core.turn := rfl
@[simp] theorem State.modRegs_actStream (s : State) (f : CoreRegs → CoreRegs) : (s.modRegs f).actStream = s.actStream := rfl
@[simp] theorem State.modRegs_schedule (s : State) (f : CoreRegs → CoreRegs) : (s.modRegs f).schedule = s.schedule := rfl
@[simp] theorem State.modRegs_past (s : State) (f : CoreRegs → CoreRegs) : (s.modRegs f).past = s.past := rfl
@[simp] theorem State.modRegs_banks (s : State) (f : CoreRegs → CoreRegs) : (s.modRegs f).banks = s.banks := rfl
@[simp] theorem State.modRegs_turn (s : State) (f : CoreRegs → CoreRegs) : (s.modRegs f).turn = s.turn := rfl
@[simp] theorem State.modRegs_defer (s : State) (f : CoreRegs → CoreRegs) : (s.modRegs f).defer = s.defer := rfl
@[simp] theorem State.modRegs_free (s : State) (f : CoreRegs → CoreRegs) : (s.modRegs f).free = s.free := rfl
@[simp] theorem State.modRegs_nextId (s : State) (f : CoreRegs → CoreRegs) : (s.modRegs f).nextId = s.nextId := rfl
@[simp] theorem State.modRegs_clocks (s : State) (f : CoreRegs → CoreRegs) : (s.modRegs f).clocks = s.clocks := rfl
@[simp] theorem State.modRegs_cycle (s : State) (f : CoreRegs → CoreRegs) : (s.modRegs f).cycle = s.cycle := rfl
@[simp] theorem State.modRegs_phase (s : State) (f : CoreRegs → CoreRegs) : (s.modRegs f).phase = s.phase := rfl
@[simp] theorem State.modRegs_parked (s : State) (f : CoreRegs → CoreRegs) : (s.modRegs f).parked = s.parked := rfl
@[simp] theorem State.modRegs_mem (s : State) (f : CoreRegs → CoreRegs) : (s.modRegs f).mem = s.mem := rfl
@[simp] theorem State.modRegs_tlb (s : State) (f : CoreRegs → CoreRegs) : (s.modRegs f).tlb = s.tlb := rfl
@[simp] theorem State.modRegs_inbound (s : State) (f : CoreRegs → CoreRegs) : (s.modRegs f).inbound = s.inbound := rfl
@[simp] theorem State.modRegs_tests (s : State) (f : CoreRegs → CoreRegs) : (s.modRegs f).tests = s.tests := rfl
@[simp] theorem State.modRegs_dies (s : State) (f : CoreRegs → CoreRegs) : (s.modRegs f).dies = s.dies := rfl
@[simp] theorem State.modRegs_groups (s : State) (f : CoreRegs → CoreRegs) : (s.modRegs f).groups = s.groups := rfl
@[simp] theorem State.modRegs_engines (s : State) (f : CoreRegs → CoreRegs) : (s.modRegs f).engines = s.engines := rfl
@[simp] theorem State.modRegs_ringq (s : State) (f : CoreRegs → CoreRegs) : (s.modRegs f).ringq = s.ringq := rfl
@[simp] theorem State.modRegs_channels (s : State) (f : CoreRegs → CoreRegs) : (s.modRegs f).channels = s.channels := rfl
@[simp] theorem State.modRegs_refusals (s : State) (f : CoreRegs → CoreRegs) : (s.modRegs f).refusals = s.refusals := rfl
@[simp] theorem State.modRegs_resend (s : State) (f : CoreRegs → CoreRegs) : (s.modRegs f).resend = s.resend := rfl
@[simp] theorem State.modRegs_transfers (s : State) (f : CoreRegs → CoreRegs) : (s.modRegs f).transfers = s.transfers := rfl
@[simp] theorem State.modRegs_coh (s : State) (f : CoreRegs → CoreRegs) : (s.modRegs f).coh = s.coh := rfl
@[simp] theorem State.modRegs_sec (s : State) (f : CoreRegs → CoreRegs) : (s.modRegs f).sec = s.sec := rfl
@[simp] theorem State.modRegs_host (s : State) (f : CoreRegs → CoreRegs) : (s.modRegs f).host = s.host := rfl
@[simp] theorem State.modRegs_links (s : State) (f : CoreRegs → CoreRegs) : (s.modRegs f).links = s.links := rfl
@[simp] theorem State.modRegs_core_num (s : State) (f : CoreRegs → CoreRegs) : (s.modRegs f).core.num = s.core.num := rfl
@[simp] theorem State.modRegs_core_running (s : State) (f : CoreRegs → CoreRegs) : (s.modRegs f).core.running = s.core.running := rfl
@[simp] theorem State.modRegs_core_task (s : State) (f : CoreRegs → CoreRegs) : (s.modRegs f).core.task = s.core.task := rfl
@[simp] theorem State.modRegs_core_slots (s : State) (f : CoreRegs → CoreRegs) : (s.modRegs f).core.slots = s.core.slots := rfl
@[simp] theorem State.modRegs_core_dbg (s : State) (f : CoreRegs → CoreRegs) : (s.modRegs f).core.dbg = s.core.dbg := rfl
@[simp] theorem State.modRegs_core_recvq (s : State) (f : CoreRegs → CoreRegs) : (s.modRegs f).core.recvq = s.core.recvq := rfl
@[simp] theorem State.modRegs_core_refq (s : State) (f : CoreRegs → CoreRegs) : (s.modRegs f).core.refq = s.core.refq := rfl
@[simp] theorem State.modRegs_core_dorm (s : State) (f : CoreRegs → CoreRegs) : (s.modRegs f).core.dorm = s.core.dorm := rfl
@[simp] theorem State.modRegs_core_sb (s : State) (f : CoreRegs → CoreRegs) : (s.modRegs f).core.sb = s.core.sb := rfl
@[simp] theorem State.modRegs_core_turn (s : State) (f : CoreRegs → CoreRegs) : (s.modRegs f).core.turn = s.core.turn := rfl
@[simp] theorem State.modRegs_core_regs (s : State) (f : CoreRegs → CoreRegs) : (s.modRegs f).core.regs = f s.core.regs := rfl
@[simp] theorem State.modLoops_actStream (s : State) (f : Loops → Loops) : (s.modLoops f).actStream = s.actStream := rfl
@[simp] theorem State.modLoops_schedule (s : State) (f : Loops → Loops) : (s.modLoops f).schedule = s.schedule := rfl
@[simp] theorem State.modLoops_past (s : State) (f : Loops → Loops) : (s.modLoops f).past = s.past := rfl
@[simp] theorem State.modLoops_banks (s : State) (f : Loops → Loops) : (s.modLoops f).banks = s.banks := rfl
@[simp] theorem State.modLoops_turn (s : State) (f : Loops → Loops) : (s.modLoops f).turn = s.turn := rfl
@[simp] theorem State.modLoops_defer (s : State) (f : Loops → Loops) : (s.modLoops f).defer = s.defer := rfl
@[simp] theorem State.modLoops_free (s : State) (f : Loops → Loops) : (s.modLoops f).free = s.free := rfl
@[simp] theorem State.modLoops_nextId (s : State) (f : Loops → Loops) : (s.modLoops f).nextId = s.nextId := rfl
@[simp] theorem State.modLoops_clocks (s : State) (f : Loops → Loops) : (s.modLoops f).clocks = s.clocks := rfl
@[simp] theorem State.modLoops_cycle (s : State) (f : Loops → Loops) : (s.modLoops f).cycle = s.cycle := rfl
@[simp] theorem State.modLoops_phase (s : State) (f : Loops → Loops) : (s.modLoops f).phase = s.phase := rfl
@[simp] theorem State.modLoops_parked (s : State) (f : Loops → Loops) : (s.modLoops f).parked = s.parked := rfl
@[simp] theorem State.modLoops_mem (s : State) (f : Loops → Loops) : (s.modLoops f).mem = s.mem := rfl
@[simp] theorem State.modLoops_tlb (s : State) (f : Loops → Loops) : (s.modLoops f).tlb = s.tlb := rfl
@[simp] theorem State.modLoops_inbound (s : State) (f : Loops → Loops) : (s.modLoops f).inbound = s.inbound := rfl
@[simp] theorem State.modLoops_tests (s : State) (f : Loops → Loops) : (s.modLoops f).tests = s.tests := rfl
@[simp] theorem State.modLoops_dies (s : State) (f : Loops → Loops) : (s.modLoops f).dies = s.dies := rfl
@[simp] theorem State.modLoops_groups (s : State) (f : Loops → Loops) : (s.modLoops f).groups = s.groups := rfl
@[simp] theorem State.modLoops_engines (s : State) (f : Loops → Loops) : (s.modLoops f).engines = s.engines := rfl
@[simp] theorem State.modLoops_ringq (s : State) (f : Loops → Loops) : (s.modLoops f).ringq = s.ringq := rfl
@[simp] theorem State.modLoops_channels (s : State) (f : Loops → Loops) : (s.modLoops f).channels = s.channels := rfl
@[simp] theorem State.modLoops_refusals (s : State) (f : Loops → Loops) : (s.modLoops f).refusals = s.refusals := rfl
@[simp] theorem State.modLoops_resend (s : State) (f : Loops → Loops) : (s.modLoops f).resend = s.resend := rfl
@[simp] theorem State.modLoops_transfers (s : State) (f : Loops → Loops) : (s.modLoops f).transfers = s.transfers := rfl
@[simp] theorem State.modLoops_coh (s : State) (f : Loops → Loops) : (s.modLoops f).coh = s.coh := rfl
@[simp] theorem State.modLoops_sec (s : State) (f : Loops → Loops) : (s.modLoops f).sec = s.sec := rfl
@[simp] theorem State.modLoops_host (s : State) (f : Loops → Loops) : (s.modLoops f).host = s.host := rfl
@[simp] theorem State.modLoops_links (s : State) (f : Loops → Loops) : (s.modLoops f).links = s.links := rfl
@[simp] theorem State.modLoops_core_num (s : State) (f : Loops → Loops) : (s.modLoops f).core.num = s.core.num := rfl
@[simp] theorem State.modLoops_core_running (s : State) (f : Loops → Loops) : (s.modLoops f).core.running = s.core.running := rfl
@[simp] theorem State.modLoops_core_slots (s : State) (f : Loops → Loops) : (s.modLoops f).core.slots = s.core.slots := rfl
@[simp] theorem State.modLoops_core_regs (s : State) (f : Loops → Loops) : (s.modLoops f).core.regs = s.core.regs := rfl
@[simp] theorem State.modLoops_core_dbg (s : State) (f : Loops → Loops) : (s.modLoops f).core.dbg = s.core.dbg := rfl
@[simp] theorem State.modLoops_core_recvq (s : State) (f : Loops → Loops) : (s.modLoops f).core.recvq = s.core.recvq := rfl
@[simp] theorem State.modLoops_core_refq (s : State) (f : Loops → Loops) : (s.modLoops f).core.refq = s.core.refq := rfl
@[simp] theorem State.modLoops_core_dorm (s : State) (f : Loops → Loops) : (s.modLoops f).core.dorm = s.core.dorm := rfl
@[simp] theorem State.modLoops_core_sb (s : State) (f : Loops → Loops) : (s.modLoops f).core.sb = s.core.sb := rfl
@[simp] theorem State.modLoops_core_turn (s : State) (f : Loops → Loops) : (s.modLoops f).core.turn = s.core.turn := rfl
@[simp] theorem State.modLoops_task_info (s : State) (f : Loops → Loops) : (s.modLoops f).core.task.info = s.core.task.info := rfl
@[simp] theorem State.modLoops_task_frame (s : State) (f : Loops → Loops) : (s.modLoops f).core.task.frame = s.core.task.frame := rfl
@[simp] theorem State.modLoops_task_ctx (s : State) (f : Loops → Loops) : (s.modLoops f).core.task.ctx = s.core.task.ctx := rfl
@[simp] theorem State.modLoops_task_supp (s : State) (f : Loops → Loops) : (s.modLoops f).core.task.supp = s.core.task.supp := rfl
@[simp] theorem State.modLoops_task_prio (s : State) (f : Loops → Loops) : (s.modLoops f).core.task.prio = s.core.task.prio := rfl
@[simp] theorem State.modLoops_task_msg (s : State) (f : Loops → Loops) : (s.modLoops f).core.task.msg = s.core.task.msg := rfl
@[simp] theorem State.modLoops_task_priv (s : State) (f : Loops → Loops) : (s.modLoops f).core.task.priv = s.core.task.priv := rfl
@[simp] theorem State.modLoops_task_regs (s : State) (f : Loops → Loops) : (s.modLoops f).core.task.regs = s.core.task.regs := rfl
@[simp] theorem State.modLoops_task_loops (s : State) (f : Loops → Loops) : (s.modLoops f).core.task.loops = f s.core.task.loops := rfl
@[simp] theorem State.modLoops_task_queues (s : State) (f : Loops → Loops) : (s.modLoops f).core.task.queues = s.core.task.queues := rfl
@[simp] theorem State.modLoops_task_rep (s : State) (f : Loops → Loops) : (s.modLoops f).core.task.rep = s.core.task.rep := rfl
@[simp] theorem State.modLoops_task_bars (s : State) (f : Loops → Loops) : (s.modLoops f).core.task.bars = s.core.task.bars := rfl
@[simp] theorem State.modLoops_task_spCount (s : State) (f : Loops → Loops) : (s.modLoops f).core.task.spCount = s.core.task.spCount := rfl
@[simp] theorem State.modLoops_task_lastSafept (s : State) (f : Loops → Loops) : (s.modLoops f).core.task.lastSafept = s.core.task.lastSafept := rfl
@[simp] theorem State.modLoops_task_wide (s : State) (f : Loops → Loops) : (s.modLoops f).core.task.wide = s.core.task.wide := rfl
@[simp] theorem State.modLoops_task_ex (s : State) (f : Loops → Loops) : (s.modLoops f).core.task.ex = s.core.task.ex := rfl
@[simp] theorem State.modLoops_task_ac (s : State) (f : Loops → Loops) : (s.modLoops f).core.task.ac = s.core.task.ac := rfl
@[simp] theorem State.putX_actStream (s : State) (r : BitVec 5) (v : XReg) : (s.putX r v).actStream = s.actStream := by unfold State.putX; split <;> rfl
@[simp] theorem State.putX_schedule (s : State) (r : BitVec 5) (v : XReg) : (s.putX r v).schedule = s.schedule := by unfold State.putX; split <;> rfl
@[simp] theorem State.putX_past (s : State) (r : BitVec 5) (v : XReg) : (s.putX r v).past = s.past := by unfold State.putX; split <;> rfl
@[simp] theorem State.putX_banks (s : State) (r : BitVec 5) (v : XReg) : (s.putX r v).banks = s.banks := by unfold State.putX; split <;> rfl
@[simp] theorem State.putX_turn (s : State) (r : BitVec 5) (v : XReg) : (s.putX r v).turn = s.turn := by unfold State.putX; split <;> rfl
@[simp] theorem State.putX_defer (s : State) (r : BitVec 5) (v : XReg) : (s.putX r v).defer = s.defer := by unfold State.putX; split <;> rfl
@[simp] theorem State.putX_free (s : State) (r : BitVec 5) (v : XReg) : (s.putX r v).free = s.free := by unfold State.putX; split <;> rfl
@[simp] theorem State.putX_nextId (s : State) (r : BitVec 5) (v : XReg) : (s.putX r v).nextId = s.nextId := by unfold State.putX; split <;> rfl
@[simp] theorem State.putX_clocks (s : State) (r : BitVec 5) (v : XReg) : (s.putX r v).clocks = s.clocks := by unfold State.putX; split <;> rfl
@[simp] theorem State.putX_cycle (s : State) (r : BitVec 5) (v : XReg) : (s.putX r v).cycle = s.cycle := by unfold State.putX; split <;> rfl
@[simp] theorem State.putX_phase (s : State) (r : BitVec 5) (v : XReg) : (s.putX r v).phase = s.phase := by unfold State.putX; split <;> rfl
@[simp] theorem State.putX_parked (s : State) (r : BitVec 5) (v : XReg) : (s.putX r v).parked = s.parked := by unfold State.putX; split <;> rfl
@[simp] theorem State.putX_mem (s : State) (r : BitVec 5) (v : XReg) : (s.putX r v).mem = s.mem := by unfold State.putX; split <;> rfl
@[simp] theorem State.putX_tlb (s : State) (r : BitVec 5) (v : XReg) : (s.putX r v).tlb = s.tlb := by unfold State.putX; split <;> rfl
@[simp] theorem State.putX_inbound (s : State) (r : BitVec 5) (v : XReg) : (s.putX r v).inbound = s.inbound := by unfold State.putX; split <;> rfl
@[simp] theorem State.putX_tests (s : State) (r : BitVec 5) (v : XReg) : (s.putX r v).tests = s.tests := by unfold State.putX; split <;> rfl
@[simp] theorem State.putX_dies (s : State) (r : BitVec 5) (v : XReg) : (s.putX r v).dies = s.dies := by unfold State.putX; split <;> rfl
@[simp] theorem State.putX_groups (s : State) (r : BitVec 5) (v : XReg) : (s.putX r v).groups = s.groups := by unfold State.putX; split <;> rfl
@[simp] theorem State.putX_engines (s : State) (r : BitVec 5) (v : XReg) : (s.putX r v).engines = s.engines := by unfold State.putX; split <;> rfl
@[simp] theorem State.putX_ringq (s : State) (r : BitVec 5) (v : XReg) : (s.putX r v).ringq = s.ringq := by unfold State.putX; split <;> rfl
@[simp] theorem State.putX_channels (s : State) (r : BitVec 5) (v : XReg) : (s.putX r v).channels = s.channels := by unfold State.putX; split <;> rfl
@[simp] theorem State.putX_refusals (s : State) (r : BitVec 5) (v : XReg) : (s.putX r v).refusals = s.refusals := by unfold State.putX; split <;> rfl
@[simp] theorem State.putX_resend (s : State) (r : BitVec 5) (v : XReg) : (s.putX r v).resend = s.resend := by unfold State.putX; split <;> rfl
@[simp] theorem State.putX_transfers (s : State) (r : BitVec 5) (v : XReg) : (s.putX r v).transfers = s.transfers := by unfold State.putX; split <;> rfl
@[simp] theorem State.putX_coh (s : State) (r : BitVec 5) (v : XReg) : (s.putX r v).coh = s.coh := by unfold State.putX; split <;> rfl
@[simp] theorem State.putX_sec (s : State) (r : BitVec 5) (v : XReg) : (s.putX r v).sec = s.sec := by unfold State.putX; split <;> rfl
@[simp] theorem State.putX_host (s : State) (r : BitVec 5) (v : XReg) : (s.putX r v).host = s.host := by unfold State.putX; split <;> rfl
@[simp] theorem State.putX_links (s : State) (r : BitVec 5) (v : XReg) : (s.putX r v).links = s.links := by unfold State.putX; split <;> rfl
@[simp] theorem State.putX_core_num (s : State) (r : BitVec 5) (v : XReg) : (s.putX r v).core.num = s.core.num := by unfold State.putX; split <;> rfl
@[simp] theorem State.putX_core_running (s : State) (r : BitVec 5) (v : XReg) : (s.putX r v).core.running = s.core.running := by unfold State.putX; split <;> rfl
@[simp] theorem State.putX_core_slots (s : State) (r : BitVec 5) (v : XReg) : (s.putX r v).core.slots = s.core.slots := by unfold State.putX; split <;> rfl
@[simp] theorem State.putX_core_regs (s : State) (r : BitVec 5) (v : XReg) : (s.putX r v).core.regs = s.core.regs := by unfold State.putX; split <;> rfl
@[simp] theorem State.putX_core_dbg (s : State) (r : BitVec 5) (v : XReg) : (s.putX r v).core.dbg = s.core.dbg := by unfold State.putX; split <;> rfl
@[simp] theorem State.putX_core_recvq (s : State) (r : BitVec 5) (v : XReg) : (s.putX r v).core.recvq = s.core.recvq := by unfold State.putX; split <;> rfl
@[simp] theorem State.putX_core_refq (s : State) (r : BitVec 5) (v : XReg) : (s.putX r v).core.refq = s.core.refq := by unfold State.putX; split <;> rfl
@[simp] theorem State.putX_core_dorm (s : State) (r : BitVec 5) (v : XReg) : (s.putX r v).core.dorm = s.core.dorm := by unfold State.putX; split <;> rfl
@[simp] theorem State.putX_core_sb (s : State) (r : BitVec 5) (v : XReg) : (s.putX r v).core.sb = s.core.sb := by unfold State.putX; split <;> rfl
@[simp] theorem State.putX_core_turn (s : State) (r : BitVec 5) (v : XReg) : (s.putX r v).core.turn = s.core.turn := by unfold State.putX; split <;> rfl
@[simp] theorem State.putX_task_info (s : State) (r : BitVec 5) (v : XReg) : (s.putX r v).core.task.info = s.core.task.info := by unfold State.putX; split <;> rfl
@[simp] theorem State.putX_task_frame (s : State) (r : BitVec 5) (v : XReg) : (s.putX r v).core.task.frame = s.core.task.frame := by unfold State.putX; split <;> rfl
@[simp] theorem State.putX_task_ctx (s : State) (r : BitVec 5) (v : XReg) : (s.putX r v).core.task.ctx = s.core.task.ctx := by unfold State.putX; split <;> rfl
@[simp] theorem State.putX_task_supp (s : State) (r : BitVec 5) (v : XReg) : (s.putX r v).core.task.supp = s.core.task.supp := by unfold State.putX; split <;> rfl
@[simp] theorem State.putX_task_prio (s : State) (r : BitVec 5) (v : XReg) : (s.putX r v).core.task.prio = s.core.task.prio := by unfold State.putX; split <;> rfl
@[simp] theorem State.putX_task_msg (s : State) (r : BitVec 5) (v : XReg) : (s.putX r v).core.task.msg = s.core.task.msg := by unfold State.putX; split <;> rfl
@[simp] theorem State.putX_task_priv (s : State) (r : BitVec 5) (v : XReg) : (s.putX r v).core.task.priv = s.core.task.priv := by unfold State.putX; split <;> rfl
@[simp] theorem State.putX_task_loops (s : State) (r : BitVec 5) (v : XReg) : (s.putX r v).core.task.loops = s.core.task.loops := by unfold State.putX; split <;> rfl
@[simp] theorem State.putX_task_queues (s : State) (r : BitVec 5) (v : XReg) : (s.putX r v).core.task.queues = s.core.task.queues := by unfold State.putX; split <;> rfl
@[simp] theorem State.putX_task_rep (s : State) (r : BitVec 5) (v : XReg) : (s.putX r v).core.task.rep = s.core.task.rep := by unfold State.putX; split <;> rfl
@[simp] theorem State.putX_task_bars (s : State) (r : BitVec 5) (v : XReg) : (s.putX r v).core.task.bars = s.core.task.bars := by unfold State.putX; split <;> rfl
@[simp] theorem State.putX_task_spCount (s : State) (r : BitVec 5) (v : XReg) : (s.putX r v).core.task.spCount = s.core.task.spCount := by unfold State.putX; split <;> rfl
@[simp] theorem State.putX_task_lastSafept (s : State) (r : BitVec 5) (v : XReg) : (s.putX r v).core.task.lastSafept = s.core.task.lastSafept := by unfold State.putX; split <;> rfl
@[simp] theorem State.putX_task_wide (s : State) (r : BitVec 5) (v : XReg) : (s.putX r v).core.task.wide = s.core.task.wide := by unfold State.putX; split <;> rfl
@[simp] theorem State.putX_task_ex (s : State) (r : BitVec 5) (v : XReg) : (s.putX r v).core.task.ex = s.core.task.ex := by unfold State.putX; split <;> rfl
@[simp] theorem State.putX_task_ac (s : State) (r : BitVec 5) (v : XReg) : (s.putX r v).core.task.ac = s.core.task.ac := by unfold State.putX; split <;> rfl
@[simp] theorem State.putX_regs_v (s : State) (r : BitVec 5) (v : XReg) : (s.putX r v).core.task.regs.v = s.core.task.regs.v := by unfold State.putX; split <;> rfl
@[simp] theorem State.putX_regs_k (s : State) (r : BitVec 5) (v : XReg) : (s.putX r v).core.task.regs.k = s.core.task.regs.k := by unfold State.putX; split <;> rfl
@[simp] theorem State.putX_regs_e (s : State) (r : BitVec 5) (v : XReg) : (s.putX r v).core.task.regs.e = s.core.task.regs.e := by unfold State.putX; split <;> rfl
@[simp] theorem State.putX_regs_m (s : State) (r : BitVec 5) (v : XReg) : (s.putX r v).core.task.regs.m = s.core.task.regs.m := by unfold State.putX; split <;> rfl
@[simp] theorem State.putX_regs_acc (s : State) (r : BitVec 5) (v : XReg) : (s.putX r v).core.task.regs.acc = s.core.task.regs.acc := by unfold State.putX; split <;> rfl
@[simp] theorem State.putV_actStream (s : State) (r : BitVec 5) (v : VReg) : (s.putV r v).actStream = s.actStream := rfl
@[simp] theorem State.putV_schedule (s : State) (r : BitVec 5) (v : VReg) : (s.putV r v).schedule = s.schedule := rfl
@[simp] theorem State.putV_past (s : State) (r : BitVec 5) (v : VReg) : (s.putV r v).past = s.past := rfl
@[simp] theorem State.putV_banks (s : State) (r : BitVec 5) (v : VReg) : (s.putV r v).banks = s.banks := rfl
@[simp] theorem State.putV_turn (s : State) (r : BitVec 5) (v : VReg) : (s.putV r v).turn = s.turn := rfl
@[simp] theorem State.putV_defer (s : State) (r : BitVec 5) (v : VReg) : (s.putV r v).defer = s.defer := rfl
@[simp] theorem State.putV_free (s : State) (r : BitVec 5) (v : VReg) : (s.putV r v).free = s.free := rfl
@[simp] theorem State.putV_nextId (s : State) (r : BitVec 5) (v : VReg) : (s.putV r v).nextId = s.nextId := rfl
@[simp] theorem State.putV_clocks (s : State) (r : BitVec 5) (v : VReg) : (s.putV r v).clocks = s.clocks := rfl
@[simp] theorem State.putV_cycle (s : State) (r : BitVec 5) (v : VReg) : (s.putV r v).cycle = s.cycle := rfl
@[simp] theorem State.putV_phase (s : State) (r : BitVec 5) (v : VReg) : (s.putV r v).phase = s.phase := rfl
@[simp] theorem State.putV_parked (s : State) (r : BitVec 5) (v : VReg) : (s.putV r v).parked = s.parked := rfl
@[simp] theorem State.putV_mem (s : State) (r : BitVec 5) (v : VReg) : (s.putV r v).mem = s.mem := rfl
@[simp] theorem State.putV_tlb (s : State) (r : BitVec 5) (v : VReg) : (s.putV r v).tlb = s.tlb := rfl
@[simp] theorem State.putV_inbound (s : State) (r : BitVec 5) (v : VReg) : (s.putV r v).inbound = s.inbound := rfl
@[simp] theorem State.putV_tests (s : State) (r : BitVec 5) (v : VReg) : (s.putV r v).tests = s.tests := rfl
@[simp] theorem State.putV_dies (s : State) (r : BitVec 5) (v : VReg) : (s.putV r v).dies = s.dies := rfl
@[simp] theorem State.putV_groups (s : State) (r : BitVec 5) (v : VReg) : (s.putV r v).groups = s.groups := rfl
@[simp] theorem State.putV_engines (s : State) (r : BitVec 5) (v : VReg) : (s.putV r v).engines = s.engines := rfl
@[simp] theorem State.putV_ringq (s : State) (r : BitVec 5) (v : VReg) : (s.putV r v).ringq = s.ringq := rfl
@[simp] theorem State.putV_channels (s : State) (r : BitVec 5) (v : VReg) : (s.putV r v).channels = s.channels := rfl
@[simp] theorem State.putV_refusals (s : State) (r : BitVec 5) (v : VReg) : (s.putV r v).refusals = s.refusals := rfl
@[simp] theorem State.putV_resend (s : State) (r : BitVec 5) (v : VReg) : (s.putV r v).resend = s.resend := rfl
@[simp] theorem State.putV_transfers (s : State) (r : BitVec 5) (v : VReg) : (s.putV r v).transfers = s.transfers := rfl
@[simp] theorem State.putV_coh (s : State) (r : BitVec 5) (v : VReg) : (s.putV r v).coh = s.coh := rfl
@[simp] theorem State.putV_sec (s : State) (r : BitVec 5) (v : VReg) : (s.putV r v).sec = s.sec := rfl
@[simp] theorem State.putV_host (s : State) (r : BitVec 5) (v : VReg) : (s.putV r v).host = s.host := rfl
@[simp] theorem State.putV_links (s : State) (r : BitVec 5) (v : VReg) : (s.putV r v).links = s.links := rfl
@[simp] theorem State.putV_core_num (s : State) (r : BitVec 5) (v : VReg) : (s.putV r v).core.num = s.core.num := rfl
@[simp] theorem State.putV_core_running (s : State) (r : BitVec 5) (v : VReg) : (s.putV r v).core.running = s.core.running := rfl
@[simp] theorem State.putV_core_slots (s : State) (r : BitVec 5) (v : VReg) : (s.putV r v).core.slots = s.core.slots := rfl
@[simp] theorem State.putV_core_regs (s : State) (r : BitVec 5) (v : VReg) : (s.putV r v).core.regs = s.core.regs := rfl
@[simp] theorem State.putV_core_dbg (s : State) (r : BitVec 5) (v : VReg) : (s.putV r v).core.dbg = s.core.dbg := rfl
@[simp] theorem State.putV_core_recvq (s : State) (r : BitVec 5) (v : VReg) : (s.putV r v).core.recvq = s.core.recvq := rfl
@[simp] theorem State.putV_core_refq (s : State) (r : BitVec 5) (v : VReg) : (s.putV r v).core.refq = s.core.refq := rfl
@[simp] theorem State.putV_core_dorm (s : State) (r : BitVec 5) (v : VReg) : (s.putV r v).core.dorm = s.core.dorm := rfl
@[simp] theorem State.putV_core_sb (s : State) (r : BitVec 5) (v : VReg) : (s.putV r v).core.sb = s.core.sb := rfl
@[simp] theorem State.putV_core_turn (s : State) (r : BitVec 5) (v : VReg) : (s.putV r v).core.turn = s.core.turn := rfl
@[simp] theorem State.putK_actStream (s : State) (r : BitVec 2) (v : XReg) : (s.putK r v).actStream = s.actStream := by unfold State.putK; split <;> rfl
@[simp] theorem State.putK_schedule (s : State) (r : BitVec 2) (v : XReg) : (s.putK r v).schedule = s.schedule := by unfold State.putK; split <;> rfl
@[simp] theorem State.putK_past (s : State) (r : BitVec 2) (v : XReg) : (s.putK r v).past = s.past := by unfold State.putK; split <;> rfl
@[simp] theorem State.putK_banks (s : State) (r : BitVec 2) (v : XReg) : (s.putK r v).banks = s.banks := by unfold State.putK; split <;> rfl
@[simp] theorem State.putK_turn (s : State) (r : BitVec 2) (v : XReg) : (s.putK r v).turn = s.turn := by unfold State.putK; split <;> rfl
@[simp] theorem State.putK_defer (s : State) (r : BitVec 2) (v : XReg) : (s.putK r v).defer = s.defer := by unfold State.putK; split <;> rfl
@[simp] theorem State.putK_free (s : State) (r : BitVec 2) (v : XReg) : (s.putK r v).free = s.free := by unfold State.putK; split <;> rfl
@[simp] theorem State.putK_nextId (s : State) (r : BitVec 2) (v : XReg) : (s.putK r v).nextId = s.nextId := by unfold State.putK; split <;> rfl
@[simp] theorem State.putK_clocks (s : State) (r : BitVec 2) (v : XReg) : (s.putK r v).clocks = s.clocks := by unfold State.putK; split <;> rfl
@[simp] theorem State.putK_cycle (s : State) (r : BitVec 2) (v : XReg) : (s.putK r v).cycle = s.cycle := by unfold State.putK; split <;> rfl
@[simp] theorem State.putK_phase (s : State) (r : BitVec 2) (v : XReg) : (s.putK r v).phase = s.phase := by unfold State.putK; split <;> rfl
@[simp] theorem State.putK_parked (s : State) (r : BitVec 2) (v : XReg) : (s.putK r v).parked = s.parked := by unfold State.putK; split <;> rfl
@[simp] theorem State.putK_mem (s : State) (r : BitVec 2) (v : XReg) : (s.putK r v).mem = s.mem := by unfold State.putK; split <;> rfl
@[simp] theorem State.putK_tlb (s : State) (r : BitVec 2) (v : XReg) : (s.putK r v).tlb = s.tlb := by unfold State.putK; split <;> rfl
@[simp] theorem State.putK_inbound (s : State) (r : BitVec 2) (v : XReg) : (s.putK r v).inbound = s.inbound := by unfold State.putK; split <;> rfl
@[simp] theorem State.putK_tests (s : State) (r : BitVec 2) (v : XReg) : (s.putK r v).tests = s.tests := by unfold State.putK; split <;> rfl
@[simp] theorem State.putK_dies (s : State) (r : BitVec 2) (v : XReg) : (s.putK r v).dies = s.dies := by unfold State.putK; split <;> rfl
@[simp] theorem State.putK_groups (s : State) (r : BitVec 2) (v : XReg) : (s.putK r v).groups = s.groups := by unfold State.putK; split <;> rfl
@[simp] theorem State.putK_engines (s : State) (r : BitVec 2) (v : XReg) : (s.putK r v).engines = s.engines := by unfold State.putK; split <;> rfl
@[simp] theorem State.putK_ringq (s : State) (r : BitVec 2) (v : XReg) : (s.putK r v).ringq = s.ringq := by unfold State.putK; split <;> rfl
@[simp] theorem State.putK_channels (s : State) (r : BitVec 2) (v : XReg) : (s.putK r v).channels = s.channels := by unfold State.putK; split <;> rfl
@[simp] theorem State.putK_refusals (s : State) (r : BitVec 2) (v : XReg) : (s.putK r v).refusals = s.refusals := by unfold State.putK; split <;> rfl
@[simp] theorem State.putK_resend (s : State) (r : BitVec 2) (v : XReg) : (s.putK r v).resend = s.resend := by unfold State.putK; split <;> rfl
@[simp] theorem State.putK_transfers (s : State) (r : BitVec 2) (v : XReg) : (s.putK r v).transfers = s.transfers := by unfold State.putK; split <;> rfl
@[simp] theorem State.putK_coh (s : State) (r : BitVec 2) (v : XReg) : (s.putK r v).coh = s.coh := by unfold State.putK; split <;> rfl
@[simp] theorem State.putK_sec (s : State) (r : BitVec 2) (v : XReg) : (s.putK r v).sec = s.sec := by unfold State.putK; split <;> rfl
@[simp] theorem State.putK_host (s : State) (r : BitVec 2) (v : XReg) : (s.putK r v).host = s.host := by unfold State.putK; split <;> rfl
@[simp] theorem State.putK_links (s : State) (r : BitVec 2) (v : XReg) : (s.putK r v).links = s.links := by unfold State.putK; split <;> rfl
@[simp] theorem State.putK_core_num (s : State) (r : BitVec 2) (v : XReg) : (s.putK r v).core.num = s.core.num := by unfold State.putK; split <;> rfl
@[simp] theorem State.putK_core_running (s : State) (r : BitVec 2) (v : XReg) : (s.putK r v).core.running = s.core.running := by unfold State.putK; split <;> rfl
@[simp] theorem State.putK_core_slots (s : State) (r : BitVec 2) (v : XReg) : (s.putK r v).core.slots = s.core.slots := by unfold State.putK; split <;> rfl
@[simp] theorem State.putK_core_regs (s : State) (r : BitVec 2) (v : XReg) : (s.putK r v).core.regs = s.core.regs := by unfold State.putK; split <;> rfl
@[simp] theorem State.putK_core_dbg (s : State) (r : BitVec 2) (v : XReg) : (s.putK r v).core.dbg = s.core.dbg := by unfold State.putK; split <;> rfl
@[simp] theorem State.putK_core_recvq (s : State) (r : BitVec 2) (v : XReg) : (s.putK r v).core.recvq = s.core.recvq := by unfold State.putK; split <;> rfl
@[simp] theorem State.putK_core_refq (s : State) (r : BitVec 2) (v : XReg) : (s.putK r v).core.refq = s.core.refq := by unfold State.putK; split <;> rfl
@[simp] theorem State.putK_core_dorm (s : State) (r : BitVec 2) (v : XReg) : (s.putK r v).core.dorm = s.core.dorm := by unfold State.putK; split <;> rfl
@[simp] theorem State.putK_core_sb (s : State) (r : BitVec 2) (v : XReg) : (s.putK r v).core.sb = s.core.sb := by unfold State.putK; split <;> rfl
@[simp] theorem State.putK_core_turn (s : State) (r : BitVec 2) (v : XReg) : (s.putK r v).core.turn = s.core.turn := by unfold State.putK; split <;> rfl
@[simp] theorem State.putE_actStream (s : State) (r : BitVec 2) (v : EReg) : (s.putE r v).actStream = s.actStream := rfl
@[simp] theorem State.putE_schedule (s : State) (r : BitVec 2) (v : EReg) : (s.putE r v).schedule = s.schedule := rfl
@[simp] theorem State.putE_past (s : State) (r : BitVec 2) (v : EReg) : (s.putE r v).past = s.past := rfl
@[simp] theorem State.putE_banks (s : State) (r : BitVec 2) (v : EReg) : (s.putE r v).banks = s.banks := rfl
@[simp] theorem State.putE_turn (s : State) (r : BitVec 2) (v : EReg) : (s.putE r v).turn = s.turn := rfl
@[simp] theorem State.putE_defer (s : State) (r : BitVec 2) (v : EReg) : (s.putE r v).defer = s.defer := rfl
@[simp] theorem State.putE_free (s : State) (r : BitVec 2) (v : EReg) : (s.putE r v).free = s.free := rfl
@[simp] theorem State.putE_nextId (s : State) (r : BitVec 2) (v : EReg) : (s.putE r v).nextId = s.nextId := rfl
@[simp] theorem State.putE_clocks (s : State) (r : BitVec 2) (v : EReg) : (s.putE r v).clocks = s.clocks := rfl
@[simp] theorem State.putE_cycle (s : State) (r : BitVec 2) (v : EReg) : (s.putE r v).cycle = s.cycle := rfl
@[simp] theorem State.putE_phase (s : State) (r : BitVec 2) (v : EReg) : (s.putE r v).phase = s.phase := rfl
@[simp] theorem State.putE_parked (s : State) (r : BitVec 2) (v : EReg) : (s.putE r v).parked = s.parked := rfl
@[simp] theorem State.putE_mem (s : State) (r : BitVec 2) (v : EReg) : (s.putE r v).mem = s.mem := rfl
@[simp] theorem State.putE_tlb (s : State) (r : BitVec 2) (v : EReg) : (s.putE r v).tlb = s.tlb := rfl
@[simp] theorem State.putE_inbound (s : State) (r : BitVec 2) (v : EReg) : (s.putE r v).inbound = s.inbound := rfl
@[simp] theorem State.putE_tests (s : State) (r : BitVec 2) (v : EReg) : (s.putE r v).tests = s.tests := rfl
@[simp] theorem State.putE_dies (s : State) (r : BitVec 2) (v : EReg) : (s.putE r v).dies = s.dies := rfl
@[simp] theorem State.putE_groups (s : State) (r : BitVec 2) (v : EReg) : (s.putE r v).groups = s.groups := rfl
@[simp] theorem State.putE_engines (s : State) (r : BitVec 2) (v : EReg) : (s.putE r v).engines = s.engines := rfl
@[simp] theorem State.putE_ringq (s : State) (r : BitVec 2) (v : EReg) : (s.putE r v).ringq = s.ringq := rfl
@[simp] theorem State.putE_channels (s : State) (r : BitVec 2) (v : EReg) : (s.putE r v).channels = s.channels := rfl
@[simp] theorem State.putE_refusals (s : State) (r : BitVec 2) (v : EReg) : (s.putE r v).refusals = s.refusals := rfl
@[simp] theorem State.putE_resend (s : State) (r : BitVec 2) (v : EReg) : (s.putE r v).resend = s.resend := rfl
@[simp] theorem State.putE_transfers (s : State) (r : BitVec 2) (v : EReg) : (s.putE r v).transfers = s.transfers := rfl
@[simp] theorem State.putE_coh (s : State) (r : BitVec 2) (v : EReg) : (s.putE r v).coh = s.coh := rfl
@[simp] theorem State.putE_sec (s : State) (r : BitVec 2) (v : EReg) : (s.putE r v).sec = s.sec := rfl
@[simp] theorem State.putE_host (s : State) (r : BitVec 2) (v : EReg) : (s.putE r v).host = s.host := rfl
@[simp] theorem State.putE_links (s : State) (r : BitVec 2) (v : EReg) : (s.putE r v).links = s.links := rfl
@[simp] theorem State.putE_core_num (s : State) (r : BitVec 2) (v : EReg) : (s.putE r v).core.num = s.core.num := rfl
@[simp] theorem State.putE_core_running (s : State) (r : BitVec 2) (v : EReg) : (s.putE r v).core.running = s.core.running := rfl
@[simp] theorem State.putE_core_slots (s : State) (r : BitVec 2) (v : EReg) : (s.putE r v).core.slots = s.core.slots := rfl
@[simp] theorem State.putE_core_regs (s : State) (r : BitVec 2) (v : EReg) : (s.putE r v).core.regs = s.core.regs := rfl
@[simp] theorem State.putE_core_dbg (s : State) (r : BitVec 2) (v : EReg) : (s.putE r v).core.dbg = s.core.dbg := rfl
@[simp] theorem State.putE_core_recvq (s : State) (r : BitVec 2) (v : EReg) : (s.putE r v).core.recvq = s.core.recvq := rfl
@[simp] theorem State.putE_core_refq (s : State) (r : BitVec 2) (v : EReg) : (s.putE r v).core.refq = s.core.refq := rfl
@[simp] theorem State.putE_core_dorm (s : State) (r : BitVec 2) (v : EReg) : (s.putE r v).core.dorm = s.core.dorm := rfl
@[simp] theorem State.putE_core_sb (s : State) (r : BitVec 2) (v : EReg) : (s.putE r v).core.sb = s.core.sb := rfl
@[simp] theorem State.putE_core_turn (s : State) (r : BitVec 2) (v : EReg) : (s.putE r v).core.turn = s.core.turn := rfl
@[simp] theorem State.putM_actStream (s : State) (r : BitVec 3) (v : MReg) : (s.putM r v).actStream = s.actStream := rfl
@[simp] theorem State.putM_schedule (s : State) (r : BitVec 3) (v : MReg) : (s.putM r v).schedule = s.schedule := rfl
@[simp] theorem State.putM_past (s : State) (r : BitVec 3) (v : MReg) : (s.putM r v).past = s.past := rfl
@[simp] theorem State.putM_banks (s : State) (r : BitVec 3) (v : MReg) : (s.putM r v).banks = s.banks := rfl
@[simp] theorem State.putM_turn (s : State) (r : BitVec 3) (v : MReg) : (s.putM r v).turn = s.turn := rfl
@[simp] theorem State.putM_defer (s : State) (r : BitVec 3) (v : MReg) : (s.putM r v).defer = s.defer := rfl
@[simp] theorem State.putM_free (s : State) (r : BitVec 3) (v : MReg) : (s.putM r v).free = s.free := rfl
@[simp] theorem State.putM_nextId (s : State) (r : BitVec 3) (v : MReg) : (s.putM r v).nextId = s.nextId := rfl
@[simp] theorem State.putM_clocks (s : State) (r : BitVec 3) (v : MReg) : (s.putM r v).clocks = s.clocks := rfl
@[simp] theorem State.putM_cycle (s : State) (r : BitVec 3) (v : MReg) : (s.putM r v).cycle = s.cycle := rfl
@[simp] theorem State.putM_phase (s : State) (r : BitVec 3) (v : MReg) : (s.putM r v).phase = s.phase := rfl
@[simp] theorem State.putM_parked (s : State) (r : BitVec 3) (v : MReg) : (s.putM r v).parked = s.parked := rfl
@[simp] theorem State.putM_mem (s : State) (r : BitVec 3) (v : MReg) : (s.putM r v).mem = s.mem := rfl
@[simp] theorem State.putM_tlb (s : State) (r : BitVec 3) (v : MReg) : (s.putM r v).tlb = s.tlb := rfl
@[simp] theorem State.putM_inbound (s : State) (r : BitVec 3) (v : MReg) : (s.putM r v).inbound = s.inbound := rfl
@[simp] theorem State.putM_tests (s : State) (r : BitVec 3) (v : MReg) : (s.putM r v).tests = s.tests := rfl
@[simp] theorem State.putM_dies (s : State) (r : BitVec 3) (v : MReg) : (s.putM r v).dies = s.dies := rfl
@[simp] theorem State.putM_groups (s : State) (r : BitVec 3) (v : MReg) : (s.putM r v).groups = s.groups := rfl
@[simp] theorem State.putM_engines (s : State) (r : BitVec 3) (v : MReg) : (s.putM r v).engines = s.engines := rfl
@[simp] theorem State.putM_ringq (s : State) (r : BitVec 3) (v : MReg) : (s.putM r v).ringq = s.ringq := rfl
@[simp] theorem State.putM_channels (s : State) (r : BitVec 3) (v : MReg) : (s.putM r v).channels = s.channels := rfl
@[simp] theorem State.putM_refusals (s : State) (r : BitVec 3) (v : MReg) : (s.putM r v).refusals = s.refusals := rfl
@[simp] theorem State.putM_resend (s : State) (r : BitVec 3) (v : MReg) : (s.putM r v).resend = s.resend := rfl
@[simp] theorem State.putM_transfers (s : State) (r : BitVec 3) (v : MReg) : (s.putM r v).transfers = s.transfers := rfl
@[simp] theorem State.putM_coh (s : State) (r : BitVec 3) (v : MReg) : (s.putM r v).coh = s.coh := rfl
@[simp] theorem State.putM_sec (s : State) (r : BitVec 3) (v : MReg) : (s.putM r v).sec = s.sec := rfl
@[simp] theorem State.putM_host (s : State) (r : BitVec 3) (v : MReg) : (s.putM r v).host = s.host := rfl
@[simp] theorem State.putM_links (s : State) (r : BitVec 3) (v : MReg) : (s.putM r v).links = s.links := rfl
@[simp] theorem State.putM_core_num (s : State) (r : BitVec 3) (v : MReg) : (s.putM r v).core.num = s.core.num := rfl
@[simp] theorem State.putM_core_running (s : State) (r : BitVec 3) (v : MReg) : (s.putM r v).core.running = s.core.running := rfl
@[simp] theorem State.putM_core_slots (s : State) (r : BitVec 3) (v : MReg) : (s.putM r v).core.slots = s.core.slots := rfl
@[simp] theorem State.putM_core_regs (s : State) (r : BitVec 3) (v : MReg) : (s.putM r v).core.regs = s.core.regs := rfl
@[simp] theorem State.putM_core_dbg (s : State) (r : BitVec 3) (v : MReg) : (s.putM r v).core.dbg = s.core.dbg := rfl
@[simp] theorem State.putM_core_recvq (s : State) (r : BitVec 3) (v : MReg) : (s.putM r v).core.recvq = s.core.recvq := rfl
@[simp] theorem State.putM_core_refq (s : State) (r : BitVec 3) (v : MReg) : (s.putM r v).core.refq = s.core.refq := rfl
@[simp] theorem State.putM_core_dorm (s : State) (r : BitVec 3) (v : MReg) : (s.putM r v).core.dorm = s.core.dorm := rfl
@[simp] theorem State.putM_core_sb (s : State) (r : BitVec 3) (v : MReg) : (s.putM r v).core.sb = s.core.sb := rfl
@[simp] theorem State.putM_core_turn (s : State) (r : BitVec 3) (v : MReg) : (s.putM r v).core.turn = s.core.turn := rfl
@[simp] theorem State.putAcc_actStream (s : State) (r : BitVec 2) (v : AccReg) : (s.putAcc r v).actStream = s.actStream := rfl
@[simp] theorem State.putAcc_schedule (s : State) (r : BitVec 2) (v : AccReg) : (s.putAcc r v).schedule = s.schedule := rfl
@[simp] theorem State.putAcc_past (s : State) (r : BitVec 2) (v : AccReg) : (s.putAcc r v).past = s.past := rfl
@[simp] theorem State.putAcc_banks (s : State) (r : BitVec 2) (v : AccReg) : (s.putAcc r v).banks = s.banks := rfl
@[simp] theorem State.putAcc_turn (s : State) (r : BitVec 2) (v : AccReg) : (s.putAcc r v).turn = s.turn := rfl
@[simp] theorem State.putAcc_defer (s : State) (r : BitVec 2) (v : AccReg) : (s.putAcc r v).defer = s.defer := rfl
@[simp] theorem State.putAcc_free (s : State) (r : BitVec 2) (v : AccReg) : (s.putAcc r v).free = s.free := rfl
@[simp] theorem State.putAcc_nextId (s : State) (r : BitVec 2) (v : AccReg) : (s.putAcc r v).nextId = s.nextId := rfl
@[simp] theorem State.putAcc_clocks (s : State) (r : BitVec 2) (v : AccReg) : (s.putAcc r v).clocks = s.clocks := rfl
@[simp] theorem State.putAcc_cycle (s : State) (r : BitVec 2) (v : AccReg) : (s.putAcc r v).cycle = s.cycle := rfl
@[simp] theorem State.putAcc_phase (s : State) (r : BitVec 2) (v : AccReg) : (s.putAcc r v).phase = s.phase := rfl
@[simp] theorem State.putAcc_parked (s : State) (r : BitVec 2) (v : AccReg) : (s.putAcc r v).parked = s.parked := rfl
@[simp] theorem State.putAcc_mem (s : State) (r : BitVec 2) (v : AccReg) : (s.putAcc r v).mem = s.mem := rfl
@[simp] theorem State.putAcc_tlb (s : State) (r : BitVec 2) (v : AccReg) : (s.putAcc r v).tlb = s.tlb := rfl
@[simp] theorem State.putAcc_inbound (s : State) (r : BitVec 2) (v : AccReg) : (s.putAcc r v).inbound = s.inbound := rfl
@[simp] theorem State.putAcc_tests (s : State) (r : BitVec 2) (v : AccReg) : (s.putAcc r v).tests = s.tests := rfl
@[simp] theorem State.putAcc_dies (s : State) (r : BitVec 2) (v : AccReg) : (s.putAcc r v).dies = s.dies := rfl
@[simp] theorem State.putAcc_groups (s : State) (r : BitVec 2) (v : AccReg) : (s.putAcc r v).groups = s.groups := rfl
@[simp] theorem State.putAcc_engines (s : State) (r : BitVec 2) (v : AccReg) : (s.putAcc r v).engines = s.engines := rfl
@[simp] theorem State.putAcc_ringq (s : State) (r : BitVec 2) (v : AccReg) : (s.putAcc r v).ringq = s.ringq := rfl
@[simp] theorem State.putAcc_channels (s : State) (r : BitVec 2) (v : AccReg) : (s.putAcc r v).channels = s.channels := rfl
@[simp] theorem State.putAcc_refusals (s : State) (r : BitVec 2) (v : AccReg) : (s.putAcc r v).refusals = s.refusals := rfl
@[simp] theorem State.putAcc_resend (s : State) (r : BitVec 2) (v : AccReg) : (s.putAcc r v).resend = s.resend := rfl
@[simp] theorem State.putAcc_transfers (s : State) (r : BitVec 2) (v : AccReg) : (s.putAcc r v).transfers = s.transfers := rfl
@[simp] theorem State.putAcc_coh (s : State) (r : BitVec 2) (v : AccReg) : (s.putAcc r v).coh = s.coh := rfl
@[simp] theorem State.putAcc_sec (s : State) (r : BitVec 2) (v : AccReg) : (s.putAcc r v).sec = s.sec := rfl
@[simp] theorem State.putAcc_host (s : State) (r : BitVec 2) (v : AccReg) : (s.putAcc r v).host = s.host := rfl
@[simp] theorem State.putAcc_links (s : State) (r : BitVec 2) (v : AccReg) : (s.putAcc r v).links = s.links := rfl
@[simp] theorem State.putAcc_core_num (s : State) (r : BitVec 2) (v : AccReg) : (s.putAcc r v).core.num = s.core.num := rfl
@[simp] theorem State.putAcc_core_running (s : State) (r : BitVec 2) (v : AccReg) : (s.putAcc r v).core.running = s.core.running := rfl
@[simp] theorem State.putAcc_core_slots (s : State) (r : BitVec 2) (v : AccReg) : (s.putAcc r v).core.slots = s.core.slots := rfl
@[simp] theorem State.putAcc_core_regs (s : State) (r : BitVec 2) (v : AccReg) : (s.putAcc r v).core.regs = s.core.regs := rfl
@[simp] theorem State.putAcc_core_dbg (s : State) (r : BitVec 2) (v : AccReg) : (s.putAcc r v).core.dbg = s.core.dbg := rfl
@[simp] theorem State.putAcc_core_recvq (s : State) (r : BitVec 2) (v : AccReg) : (s.putAcc r v).core.recvq = s.core.recvq := rfl
@[simp] theorem State.putAcc_core_refq (s : State) (r : BitVec 2) (v : AccReg) : (s.putAcc r v).core.refq = s.core.refq := rfl
@[simp] theorem State.putAcc_core_dorm (s : State) (r : BitVec 2) (v : AccReg) : (s.putAcc r v).core.dorm = s.core.dorm := rfl
@[simp] theorem State.putAcc_core_sb (s : State) (r : BitVec 2) (v : AccReg) : (s.putAcc r v).core.sb = s.core.sb := rfl
@[simp] theorem State.putAcc_core_turn (s : State) (r : BitVec 2) (v : AccReg) : (s.putAcc r v).core.turn = s.core.turn := rfl
@[simp] theorem State.modDie_actStream (s : State) (d : Nat) (g : Die → Die) : (s.modDie d g).actStream = s.actStream := rfl
@[simp] theorem State.modDie_schedule (s : State) (d : Nat) (g : Die → Die) : (s.modDie d g).schedule = s.schedule := rfl
@[simp] theorem State.modDie_past (s : State) (d : Nat) (g : Die → Die) : (s.modDie d g).past = s.past := rfl
@[simp] theorem State.modDie_banks (s : State) (d : Nat) (g : Die → Die) : (s.modDie d g).banks = s.banks := rfl
@[simp] theorem State.modDie_turn (s : State) (d : Nat) (g : Die → Die) : (s.modDie d g).turn = s.turn := rfl
@[simp] theorem State.modDie_defer (s : State) (d : Nat) (g : Die → Die) : (s.modDie d g).defer = s.defer := rfl
@[simp] theorem State.modDie_free (s : State) (d : Nat) (g : Die → Die) : (s.modDie d g).free = s.free := rfl
@[simp] theorem State.modDie_nextId (s : State) (d : Nat) (g : Die → Die) : (s.modDie d g).nextId = s.nextId := rfl
@[simp] theorem State.modDie_clocks (s : State) (d : Nat) (g : Die → Die) : (s.modDie d g).clocks = s.clocks := rfl
@[simp] theorem State.modDie_cycle (s : State) (d : Nat) (g : Die → Die) : (s.modDie d g).cycle = s.cycle := rfl
@[simp] theorem State.modDie_phase (s : State) (d : Nat) (g : Die → Die) : (s.modDie d g).phase = s.phase := rfl
@[simp] theorem State.modDie_core (s : State) (d : Nat) (g : Die → Die) : (s.modDie d g).core = s.core := rfl
@[simp] theorem State.modDie_parked (s : State) (d : Nat) (g : Die → Die) : (s.modDie d g).parked = s.parked := rfl
@[simp] theorem State.modDie_mem (s : State) (d : Nat) (g : Die → Die) : (s.modDie d g).mem = s.mem := rfl
@[simp] theorem State.modDie_tlb (s : State) (d : Nat) (g : Die → Die) : (s.modDie d g).tlb = s.tlb := rfl
@[simp] theorem State.modDie_inbound (s : State) (d : Nat) (g : Die → Die) : (s.modDie d g).inbound = s.inbound := rfl
@[simp] theorem State.modDie_tests (s : State) (d : Nat) (g : Die → Die) : (s.modDie d g).tests = s.tests := rfl
@[simp] theorem State.modDie_groups (s : State) (d : Nat) (g : Die → Die) : (s.modDie d g).groups = s.groups := rfl
@[simp] theorem State.modDie_engines (s : State) (d : Nat) (g : Die → Die) : (s.modDie d g).engines = s.engines := rfl
@[simp] theorem State.modDie_ringq (s : State) (d : Nat) (g : Die → Die) : (s.modDie d g).ringq = s.ringq := rfl
@[simp] theorem State.modDie_channels (s : State) (d : Nat) (g : Die → Die) : (s.modDie d g).channels = s.channels := rfl
@[simp] theorem State.modDie_refusals (s : State) (d : Nat) (g : Die → Die) : (s.modDie d g).refusals = s.refusals := rfl
@[simp] theorem State.modDie_resend (s : State) (d : Nat) (g : Die → Die) : (s.modDie d g).resend = s.resend := rfl
@[simp] theorem State.modDie_transfers (s : State) (d : Nat) (g : Die → Die) : (s.modDie d g).transfers = s.transfers := rfl
@[simp] theorem State.modDie_coh (s : State) (d : Nat) (g : Die → Die) : (s.modDie d g).coh = s.coh := rfl
@[simp] theorem State.modDie_sec (s : State) (d : Nat) (g : Die → Die) : (s.modDie d g).sec = s.sec := rfl
@[simp] theorem State.modDie_host (s : State) (d : Nat) (g : Die → Die) : (s.modDie d g).host = s.host := rfl
@[simp] theorem State.modDie_links (s : State) (d : Nat) (g : Die → Die) : (s.modDie d g).links = s.links := rfl
@[simp] theorem State.setFrame_actStream (s : State) (d : Nat) (f : BitVec 8) (g : Frame) : (s.setFrame d f g).actStream = s.actStream := rfl
@[simp] theorem State.setFrame_schedule (s : State) (d : Nat) (f : BitVec 8) (g : Frame) : (s.setFrame d f g).schedule = s.schedule := rfl
@[simp] theorem State.setFrame_past (s : State) (d : Nat) (f : BitVec 8) (g : Frame) : (s.setFrame d f g).past = s.past := rfl
@[simp] theorem State.setFrame_banks (s : State) (d : Nat) (f : BitVec 8) (g : Frame) : (s.setFrame d f g).banks = s.banks := rfl
@[simp] theorem State.setFrame_turn (s : State) (d : Nat) (f : BitVec 8) (g : Frame) : (s.setFrame d f g).turn = s.turn := rfl
@[simp] theorem State.setFrame_defer (s : State) (d : Nat) (f : BitVec 8) (g : Frame) : (s.setFrame d f g).defer = s.defer := rfl
@[simp] theorem State.setFrame_free (s : State) (d : Nat) (f : BitVec 8) (g : Frame) : (s.setFrame d f g).free = s.free := rfl
@[simp] theorem State.setFrame_nextId (s : State) (d : Nat) (f : BitVec 8) (g : Frame) : (s.setFrame d f g).nextId = s.nextId := rfl
@[simp] theorem State.setFrame_clocks (s : State) (d : Nat) (f : BitVec 8) (g : Frame) : (s.setFrame d f g).clocks = s.clocks := rfl
@[simp] theorem State.setFrame_cycle (s : State) (d : Nat) (f : BitVec 8) (g : Frame) : (s.setFrame d f g).cycle = s.cycle := rfl
@[simp] theorem State.setFrame_phase (s : State) (d : Nat) (f : BitVec 8) (g : Frame) : (s.setFrame d f g).phase = s.phase := rfl
@[simp] theorem State.setFrame_core (s : State) (d : Nat) (f : BitVec 8) (g : Frame) : (s.setFrame d f g).core = s.core := rfl
@[simp] theorem State.setFrame_parked (s : State) (d : Nat) (f : BitVec 8) (g : Frame) : (s.setFrame d f g).parked = s.parked := rfl
@[simp] theorem State.setFrame_mem (s : State) (d : Nat) (f : BitVec 8) (g : Frame) : (s.setFrame d f g).mem = s.mem := rfl
@[simp] theorem State.setFrame_tlb (s : State) (d : Nat) (f : BitVec 8) (g : Frame) : (s.setFrame d f g).tlb = s.tlb := rfl
@[simp] theorem State.setFrame_inbound (s : State) (d : Nat) (f : BitVec 8) (g : Frame) : (s.setFrame d f g).inbound = s.inbound := rfl
@[simp] theorem State.setFrame_tests (s : State) (d : Nat) (f : BitVec 8) (g : Frame) : (s.setFrame d f g).tests = s.tests := rfl
@[simp] theorem State.setFrame_groups (s : State) (d : Nat) (f : BitVec 8) (g : Frame) : (s.setFrame d f g).groups = s.groups := rfl
@[simp] theorem State.setFrame_engines (s : State) (d : Nat) (f : BitVec 8) (g : Frame) : (s.setFrame d f g).engines = s.engines := rfl
@[simp] theorem State.setFrame_ringq (s : State) (d : Nat) (f : BitVec 8) (g : Frame) : (s.setFrame d f g).ringq = s.ringq := rfl
@[simp] theorem State.setFrame_channels (s : State) (d : Nat) (f : BitVec 8) (g : Frame) : (s.setFrame d f g).channels = s.channels := rfl
@[simp] theorem State.setFrame_refusals (s : State) (d : Nat) (f : BitVec 8) (g : Frame) : (s.setFrame d f g).refusals = s.refusals := rfl
@[simp] theorem State.setFrame_resend (s : State) (d : Nat) (f : BitVec 8) (g : Frame) : (s.setFrame d f g).resend = s.resend := rfl
@[simp] theorem State.setFrame_transfers (s : State) (d : Nat) (f : BitVec 8) (g : Frame) : (s.setFrame d f g).transfers = s.transfers := rfl
@[simp] theorem State.setFrame_coh (s : State) (d : Nat) (f : BitVec 8) (g : Frame) : (s.setFrame d f g).coh = s.coh := rfl
@[simp] theorem State.setFrame_sec (s : State) (d : Nat) (f : BitVec 8) (g : Frame) : (s.setFrame d f g).sec = s.sec := rfl
@[simp] theorem State.setFrame_host (s : State) (d : Nat) (f : BitVec 8) (g : Frame) : (s.setFrame d f g).host = s.host := rfl
@[simp] theorem State.setFrame_links (s : State) (d : Nat) (f : BitVec 8) (g : Frame) : (s.setFrame d f g).links = s.links := rfl
@[simp] theorem State.modGroup_actStream (s : State) (g : Nat) (f : Group → Group) : (s.modGroup g f).actStream = s.actStream := rfl
@[simp] theorem State.modGroup_schedule (s : State) (g : Nat) (f : Group → Group) : (s.modGroup g f).schedule = s.schedule := rfl
@[simp] theorem State.modGroup_past (s : State) (g : Nat) (f : Group → Group) : (s.modGroup g f).past = s.past := rfl
@[simp] theorem State.modGroup_banks (s : State) (g : Nat) (f : Group → Group) : (s.modGroup g f).banks = s.banks := rfl
@[simp] theorem State.modGroup_turn (s : State) (g : Nat) (f : Group → Group) : (s.modGroup g f).turn = s.turn := rfl
@[simp] theorem State.modGroup_defer (s : State) (g : Nat) (f : Group → Group) : (s.modGroup g f).defer = s.defer := rfl
@[simp] theorem State.modGroup_free (s : State) (g : Nat) (f : Group → Group) : (s.modGroup g f).free = s.free := rfl
@[simp] theorem State.modGroup_nextId (s : State) (g : Nat) (f : Group → Group) : (s.modGroup g f).nextId = s.nextId := rfl
@[simp] theorem State.modGroup_clocks (s : State) (g : Nat) (f : Group → Group) : (s.modGroup g f).clocks = s.clocks := rfl
@[simp] theorem State.modGroup_cycle (s : State) (g : Nat) (f : Group → Group) : (s.modGroup g f).cycle = s.cycle := rfl
@[simp] theorem State.modGroup_phase (s : State) (g : Nat) (f : Group → Group) : (s.modGroup g f).phase = s.phase := rfl
@[simp] theorem State.modGroup_core (s : State) (g : Nat) (f : Group → Group) : (s.modGroup g f).core = s.core := rfl
@[simp] theorem State.modGroup_parked (s : State) (g : Nat) (f : Group → Group) : (s.modGroup g f).parked = s.parked := rfl
@[simp] theorem State.modGroup_mem (s : State) (g : Nat) (f : Group → Group) : (s.modGroup g f).mem = s.mem := rfl
@[simp] theorem State.modGroup_tlb (s : State) (g : Nat) (f : Group → Group) : (s.modGroup g f).tlb = s.tlb := rfl
@[simp] theorem State.modGroup_inbound (s : State) (g : Nat) (f : Group → Group) : (s.modGroup g f).inbound = s.inbound := rfl
@[simp] theorem State.modGroup_tests (s : State) (g : Nat) (f : Group → Group) : (s.modGroup g f).tests = s.tests := rfl
@[simp] theorem State.modGroup_dies (s : State) (g : Nat) (f : Group → Group) : (s.modGroup g f).dies = s.dies := rfl
@[simp] theorem State.modGroup_engines (s : State) (g : Nat) (f : Group → Group) : (s.modGroup g f).engines = s.engines := rfl
@[simp] theorem State.modGroup_ringq (s : State) (g : Nat) (f : Group → Group) : (s.modGroup g f).ringq = s.ringq := rfl
@[simp] theorem State.modGroup_channels (s : State) (g : Nat) (f : Group → Group) : (s.modGroup g f).channels = s.channels := rfl
@[simp] theorem State.modGroup_refusals (s : State) (g : Nat) (f : Group → Group) : (s.modGroup g f).refusals = s.refusals := rfl
@[simp] theorem State.modGroup_resend (s : State) (g : Nat) (f : Group → Group) : (s.modGroup g f).resend = s.resend := rfl
@[simp] theorem State.modGroup_transfers (s : State) (g : Nat) (f : Group → Group) : (s.modGroup g f).transfers = s.transfers := rfl
@[simp] theorem State.modGroup_coh (s : State) (g : Nat) (f : Group → Group) : (s.modGroup g f).coh = s.coh := rfl
@[simp] theorem State.modGroup_sec (s : State) (g : Nat) (f : Group → Group) : (s.modGroup g f).sec = s.sec := rfl
@[simp] theorem State.modGroup_host (s : State) (g : Nat) (f : Group → Group) : (s.modGroup g f).host = s.host := rfl
@[simp] theorem State.modGroup_links (s : State) (g : Nat) (f : Group → Group) : (s.modGroup g f).links = s.links := rfl
@[simp] theorem State.modTransfer_actStream (s : State) (n : Nat) (f : Transfer → Transfer) : (s.modTransfer n f).actStream = s.actStream := rfl
@[simp] theorem State.modTransfer_schedule (s : State) (n : Nat) (f : Transfer → Transfer) : (s.modTransfer n f).schedule = s.schedule := rfl
@[simp] theorem State.modTransfer_past (s : State) (n : Nat) (f : Transfer → Transfer) : (s.modTransfer n f).past = s.past := rfl
@[simp] theorem State.modTransfer_banks (s : State) (n : Nat) (f : Transfer → Transfer) : (s.modTransfer n f).banks = s.banks := rfl
@[simp] theorem State.modTransfer_turn (s : State) (n : Nat) (f : Transfer → Transfer) : (s.modTransfer n f).turn = s.turn := rfl
@[simp] theorem State.modTransfer_defer (s : State) (n : Nat) (f : Transfer → Transfer) : (s.modTransfer n f).defer = s.defer := rfl
@[simp] theorem State.modTransfer_free (s : State) (n : Nat) (f : Transfer → Transfer) : (s.modTransfer n f).free = s.free := rfl
@[simp] theorem State.modTransfer_nextId (s : State) (n : Nat) (f : Transfer → Transfer) : (s.modTransfer n f).nextId = s.nextId := rfl
@[simp] theorem State.modTransfer_clocks (s : State) (n : Nat) (f : Transfer → Transfer) : (s.modTransfer n f).clocks = s.clocks := rfl
@[simp] theorem State.modTransfer_cycle (s : State) (n : Nat) (f : Transfer → Transfer) : (s.modTransfer n f).cycle = s.cycle := rfl
@[simp] theorem State.modTransfer_phase (s : State) (n : Nat) (f : Transfer → Transfer) : (s.modTransfer n f).phase = s.phase := rfl
@[simp] theorem State.modTransfer_core (s : State) (n : Nat) (f : Transfer → Transfer) : (s.modTransfer n f).core = s.core := rfl
@[simp] theorem State.modTransfer_parked (s : State) (n : Nat) (f : Transfer → Transfer) : (s.modTransfer n f).parked = s.parked := rfl
@[simp] theorem State.modTransfer_mem (s : State) (n : Nat) (f : Transfer → Transfer) : (s.modTransfer n f).mem = s.mem := rfl
@[simp] theorem State.modTransfer_tlb (s : State) (n : Nat) (f : Transfer → Transfer) : (s.modTransfer n f).tlb = s.tlb := rfl
@[simp] theorem State.modTransfer_inbound (s : State) (n : Nat) (f : Transfer → Transfer) : (s.modTransfer n f).inbound = s.inbound := rfl
@[simp] theorem State.modTransfer_tests (s : State) (n : Nat) (f : Transfer → Transfer) : (s.modTransfer n f).tests = s.tests := rfl
@[simp] theorem State.modTransfer_dies (s : State) (n : Nat) (f : Transfer → Transfer) : (s.modTransfer n f).dies = s.dies := rfl
@[simp] theorem State.modTransfer_groups (s : State) (n : Nat) (f : Transfer → Transfer) : (s.modTransfer n f).groups = s.groups := rfl
@[simp] theorem State.modTransfer_engines (s : State) (n : Nat) (f : Transfer → Transfer) : (s.modTransfer n f).engines = s.engines := rfl
@[simp] theorem State.modTransfer_ringq (s : State) (n : Nat) (f : Transfer → Transfer) : (s.modTransfer n f).ringq = s.ringq := rfl
@[simp] theorem State.modTransfer_channels (s : State) (n : Nat) (f : Transfer → Transfer) : (s.modTransfer n f).channels = s.channels := rfl
@[simp] theorem State.modTransfer_refusals (s : State) (n : Nat) (f : Transfer → Transfer) : (s.modTransfer n f).refusals = s.refusals := rfl
@[simp] theorem State.modTransfer_resend (s : State) (n : Nat) (f : Transfer → Transfer) : (s.modTransfer n f).resend = s.resend := rfl
@[simp] theorem State.modTransfer_coh (s : State) (n : Nat) (f : Transfer → Transfer) : (s.modTransfer n f).coh = s.coh := rfl
@[simp] theorem State.modTransfer_sec (s : State) (n : Nat) (f : Transfer → Transfer) : (s.modTransfer n f).sec = s.sec := rfl
@[simp] theorem State.modTransfer_host (s : State) (n : Nat) (f : Transfer → Transfer) : (s.modTransfer n f).host = s.host := rfl
@[simp] theorem State.modTransfer_links (s : State) (n : Nat) (f : Transfer → Transfer) : (s.modTransfer n f).links = s.links := rfl
@[simp] theorem State.putSide_actStream (s : State) (p : Space) (n : Nat) (h : Handle) : (s.putSide p n h).actStream = s.actStream := by cases p <;> rfl
@[simp] theorem State.putSide_schedule (s : State) (p : Space) (n : Nat) (h : Handle) : (s.putSide p n h).schedule = s.schedule := by cases p <;> rfl
@[simp] theorem State.putSide_past (s : State) (p : Space) (n : Nat) (h : Handle) : (s.putSide p n h).past = s.past := by cases p <;> rfl
@[simp] theorem State.putSide_banks (s : State) (p : Space) (n : Nat) (h : Handle) : (s.putSide p n h).banks = s.banks := by cases p <;> rfl
@[simp] theorem State.putSide_turn (s : State) (p : Space) (n : Nat) (h : Handle) : (s.putSide p n h).turn = s.turn := by cases p <;> rfl
@[simp] theorem State.putSide_defer (s : State) (p : Space) (n : Nat) (h : Handle) : (s.putSide p n h).defer = s.defer := by cases p <;> rfl
@[simp] theorem State.putSide_free (s : State) (p : Space) (n : Nat) (h : Handle) : (s.putSide p n h).free = s.free := by cases p <;> rfl
@[simp] theorem State.putSide_nextId (s : State) (p : Space) (n : Nat) (h : Handle) : (s.putSide p n h).nextId = s.nextId := by cases p <;> rfl
@[simp] theorem State.putSide_clocks (s : State) (p : Space) (n : Nat) (h : Handle) : (s.putSide p n h).clocks = s.clocks := by cases p <;> rfl
@[simp] theorem State.putSide_cycle (s : State) (p : Space) (n : Nat) (h : Handle) : (s.putSide p n h).cycle = s.cycle := by cases p <;> rfl
@[simp] theorem State.putSide_phase (s : State) (p : Space) (n : Nat) (h : Handle) : (s.putSide p n h).phase = s.phase := by cases p <;> rfl
@[simp] theorem State.putSide_core (s : State) (p : Space) (n : Nat) (h : Handle) : (s.putSide p n h).core = s.core := by cases p <;> rfl
@[simp] theorem State.putSide_parked (s : State) (p : Space) (n : Nat) (h : Handle) : (s.putSide p n h).parked = s.parked := by cases p <;> rfl
@[simp] theorem State.putSide_tlb (s : State) (p : Space) (n : Nat) (h : Handle) : (s.putSide p n h).tlb = s.tlb := by cases p <;> rfl
@[simp] theorem State.putSide_inbound (s : State) (p : Space) (n : Nat) (h : Handle) : (s.putSide p n h).inbound = s.inbound := by cases p <;> rfl
@[simp] theorem State.putSide_tests (s : State) (p : Space) (n : Nat) (h : Handle) : (s.putSide p n h).tests = s.tests := by cases p <;> rfl
@[simp] theorem State.putSide_dies (s : State) (p : Space) (n : Nat) (h : Handle) : (s.putSide p n h).dies = s.dies := by cases p <;> rfl
@[simp] theorem State.putSide_groups (s : State) (p : Space) (n : Nat) (h : Handle) : (s.putSide p n h).groups = s.groups := by cases p <;> rfl
@[simp] theorem State.putSide_engines (s : State) (p : Space) (n : Nat) (h : Handle) : (s.putSide p n h).engines = s.engines := by cases p <;> rfl
@[simp] theorem State.putSide_ringq (s : State) (p : Space) (n : Nat) (h : Handle) : (s.putSide p n h).ringq = s.ringq := by cases p <;> rfl
@[simp] theorem State.putSide_channels (s : State) (p : Space) (n : Nat) (h : Handle) : (s.putSide p n h).channels = s.channels := by cases p <;> rfl
@[simp] theorem State.putSide_refusals (s : State) (p : Space) (n : Nat) (h : Handle) : (s.putSide p n h).refusals = s.refusals := by cases p <;> rfl
@[simp] theorem State.putSide_resend (s : State) (p : Space) (n : Nat) (h : Handle) : (s.putSide p n h).resend = s.resend := by cases p <;> rfl
@[simp] theorem State.putSide_transfers (s : State) (p : Space) (n : Nat) (h : Handle) : (s.putSide p n h).transfers = s.transfers := by cases p <;> rfl
@[simp] theorem State.putSide_coh (s : State) (p : Space) (n : Nat) (h : Handle) : (s.putSide p n h).coh = s.coh := by cases p <;> rfl
@[simp] theorem State.putSide_sec (s : State) (p : Space) (n : Nat) (h : Handle) : (s.putSide p n h).sec = s.sec := by cases p <;> rfl
@[simp] theorem State.putSide_host (s : State) (p : Space) (n : Nat) (h : Handle) : (s.putSide p n h).host = s.host := by cases p <;> rfl
@[simp] theorem State.putSide_links (s : State) (p : Space) (n : Nat) (h : Handle) : (s.putSide p n h).links = s.links := by cases p <;> rfl
@[simp] theorem State.clearEcc_actStream (s : State) (p : Space) (n : Nat) : (s.clearEcc p n).actStream = s.actStream := by cases p <;> rfl
@[simp] theorem State.clearEcc_schedule (s : State) (p : Space) (n : Nat) : (s.clearEcc p n).schedule = s.schedule := by cases p <;> rfl
@[simp] theorem State.clearEcc_past (s : State) (p : Space) (n : Nat) : (s.clearEcc p n).past = s.past := by cases p <;> rfl
@[simp] theorem State.clearEcc_banks (s : State) (p : Space) (n : Nat) : (s.clearEcc p n).banks = s.banks := by cases p <;> rfl
@[simp] theorem State.clearEcc_turn (s : State) (p : Space) (n : Nat) : (s.clearEcc p n).turn = s.turn := by cases p <;> rfl
@[simp] theorem State.clearEcc_defer (s : State) (p : Space) (n : Nat) : (s.clearEcc p n).defer = s.defer := by cases p <;> rfl
@[simp] theorem State.clearEcc_free (s : State) (p : Space) (n : Nat) : (s.clearEcc p n).free = s.free := by cases p <;> rfl
@[simp] theorem State.clearEcc_nextId (s : State) (p : Space) (n : Nat) : (s.clearEcc p n).nextId = s.nextId := by cases p <;> rfl
@[simp] theorem State.clearEcc_clocks (s : State) (p : Space) (n : Nat) : (s.clearEcc p n).clocks = s.clocks := by cases p <;> rfl
@[simp] theorem State.clearEcc_cycle (s : State) (p : Space) (n : Nat) : (s.clearEcc p n).cycle = s.cycle := by cases p <;> rfl
@[simp] theorem State.clearEcc_phase (s : State) (p : Space) (n : Nat) : (s.clearEcc p n).phase = s.phase := by cases p <;> rfl
@[simp] theorem State.clearEcc_core (s : State) (p : Space) (n : Nat) : (s.clearEcc p n).core = s.core := by cases p <;> rfl
@[simp] theorem State.clearEcc_parked (s : State) (p : Space) (n : Nat) : (s.clearEcc p n).parked = s.parked := by cases p <;> rfl
@[simp] theorem State.clearEcc_tlb (s : State) (p : Space) (n : Nat) : (s.clearEcc p n).tlb = s.tlb := by cases p <;> rfl
@[simp] theorem State.clearEcc_inbound (s : State) (p : Space) (n : Nat) : (s.clearEcc p n).inbound = s.inbound := by cases p <;> rfl
@[simp] theorem State.clearEcc_tests (s : State) (p : Space) (n : Nat) : (s.clearEcc p n).tests = s.tests := by cases p <;> rfl
@[simp] theorem State.clearEcc_dies (s : State) (p : Space) (n : Nat) : (s.clearEcc p n).dies = s.dies := by cases p <;> rfl
@[simp] theorem State.clearEcc_groups (s : State) (p : Space) (n : Nat) : (s.clearEcc p n).groups = s.groups := by cases p <;> rfl
@[simp] theorem State.clearEcc_engines (s : State) (p : Space) (n : Nat) : (s.clearEcc p n).engines = s.engines := by cases p <;> rfl
@[simp] theorem State.clearEcc_ringq (s : State) (p : Space) (n : Nat) : (s.clearEcc p n).ringq = s.ringq := by cases p <;> rfl
@[simp] theorem State.clearEcc_channels (s : State) (p : Space) (n : Nat) : (s.clearEcc p n).channels = s.channels := by cases p <;> rfl
@[simp] theorem State.clearEcc_refusals (s : State) (p : Space) (n : Nat) : (s.clearEcc p n).refusals = s.refusals := by cases p <;> rfl
@[simp] theorem State.clearEcc_resend (s : State) (p : Space) (n : Nat) : (s.clearEcc p n).resend = s.resend := by cases p <;> rfl
@[simp] theorem State.clearEcc_transfers (s : State) (p : Space) (n : Nat) : (s.clearEcc p n).transfers = s.transfers := by cases p <;> rfl
@[simp] theorem State.clearEcc_coh (s : State) (p : Space) (n : Nat) : (s.clearEcc p n).coh = s.coh := by cases p <;> rfl
@[simp] theorem State.clearEcc_sec (s : State) (p : Space) (n : Nat) : (s.clearEcc p n).sec = s.sec := by cases p <;> rfl
@[simp] theorem State.clearEcc_host (s : State) (p : Space) (n : Nat) : (s.clearEcc p n).host = s.host := by cases p <;> rfl
@[simp] theorem State.clearEcc_links (s : State) (p : Space) (n : Nat) : (s.clearEcc p n).links = s.links := by cases p <;> rfl
@[simp] theorem State.modEngine_actStream (s : State) (g e : Nat) (f : Engine → Engine) : (s.modEngine g e f).actStream = s.actStream := rfl
@[simp] theorem State.modEngine_schedule (s : State) (g e : Nat) (f : Engine → Engine) : (s.modEngine g e f).schedule = s.schedule := rfl
@[simp] theorem State.modEngine_past (s : State) (g e : Nat) (f : Engine → Engine) : (s.modEngine g e f).past = s.past := rfl
@[simp] theorem State.modEngine_banks (s : State) (g e : Nat) (f : Engine → Engine) : (s.modEngine g e f).banks = s.banks := rfl
@[simp] theorem State.modEngine_turn (s : State) (g e : Nat) (f : Engine → Engine) : (s.modEngine g e f).turn = s.turn := rfl
@[simp] theorem State.modEngine_defer (s : State) (g e : Nat) (f : Engine → Engine) : (s.modEngine g e f).defer = s.defer := rfl
@[simp] theorem State.modEngine_free (s : State) (g e : Nat) (f : Engine → Engine) : (s.modEngine g e f).free = s.free := rfl
@[simp] theorem State.modEngine_nextId (s : State) (g e : Nat) (f : Engine → Engine) : (s.modEngine g e f).nextId = s.nextId := rfl
@[simp] theorem State.modEngine_clocks (s : State) (g e : Nat) (f : Engine → Engine) : (s.modEngine g e f).clocks = s.clocks := rfl
@[simp] theorem State.modEngine_cycle (s : State) (g e : Nat) (f : Engine → Engine) : (s.modEngine g e f).cycle = s.cycle := rfl
@[simp] theorem State.modEngine_phase (s : State) (g e : Nat) (f : Engine → Engine) : (s.modEngine g e f).phase = s.phase := rfl
@[simp] theorem State.modEngine_core (s : State) (g e : Nat) (f : Engine → Engine) : (s.modEngine g e f).core = s.core := rfl
@[simp] theorem State.modEngine_parked (s : State) (g e : Nat) (f : Engine → Engine) : (s.modEngine g e f).parked = s.parked := rfl
@[simp] theorem State.modEngine_mem (s : State) (g e : Nat) (f : Engine → Engine) : (s.modEngine g e f).mem = s.mem := rfl
@[simp] theorem State.modEngine_tlb (s : State) (g e : Nat) (f : Engine → Engine) : (s.modEngine g e f).tlb = s.tlb := rfl
@[simp] theorem State.modEngine_inbound (s : State) (g e : Nat) (f : Engine → Engine) : (s.modEngine g e f).inbound = s.inbound := rfl
@[simp] theorem State.modEngine_tests (s : State) (g e : Nat) (f : Engine → Engine) : (s.modEngine g e f).tests = s.tests := rfl
@[simp] theorem State.modEngine_dies (s : State) (g e : Nat) (f : Engine → Engine) : (s.modEngine g e f).dies = s.dies := rfl
@[simp] theorem State.modEngine_groups (s : State) (g e : Nat) (f : Engine → Engine) : (s.modEngine g e f).groups = s.groups := rfl
@[simp] theorem State.modEngine_ringq (s : State) (g e : Nat) (f : Engine → Engine) : (s.modEngine g e f).ringq = s.ringq := rfl
@[simp] theorem State.modEngine_channels (s : State) (g e : Nat) (f : Engine → Engine) : (s.modEngine g e f).channels = s.channels := rfl
@[simp] theorem State.modEngine_refusals (s : State) (g e : Nat) (f : Engine → Engine) : (s.modEngine g e f).refusals = s.refusals := rfl
@[simp] theorem State.modEngine_resend (s : State) (g e : Nat) (f : Engine → Engine) : (s.modEngine g e f).resend = s.resend := rfl
@[simp] theorem State.modEngine_transfers (s : State) (g e : Nat) (f : Engine → Engine) : (s.modEngine g e f).transfers = s.transfers := rfl
@[simp] theorem State.modEngine_coh (s : State) (g e : Nat) (f : Engine → Engine) : (s.modEngine g e f).coh = s.coh := rfl
@[simp] theorem State.modEngine_sec (s : State) (g e : Nat) (f : Engine → Engine) : (s.modEngine g e f).sec = s.sec := rfl
@[simp] theorem State.modEngine_host (s : State) (g e : Nat) (f : Engine → Engine) : (s.modEngine g e f).host = s.host := rfl
@[simp] theorem State.modEngine_links (s : State) (g e : Nat) (f : Engine → Engine) : (s.modEngine g e f).links = s.links := rfl
@[simp] theorem State.modCore_actStream (s : State) (c : Nat) (f : Core → Core) : (s.modCore c f).actStream = s.actStream := by unfold State.modCore; split <;> rfl
@[simp] theorem State.modCore_schedule (s : State) (c : Nat) (f : Core → Core) : (s.modCore c f).schedule = s.schedule := by unfold State.modCore; split <;> rfl
@[simp] theorem State.modCore_past (s : State) (c : Nat) (f : Core → Core) : (s.modCore c f).past = s.past := by unfold State.modCore; split <;> rfl
@[simp] theorem State.modCore_banks (s : State) (c : Nat) (f : Core → Core) : (s.modCore c f).banks = s.banks := by unfold State.modCore; split <;> rfl
@[simp] theorem State.modCore_turn (s : State) (c : Nat) (f : Core → Core) : (s.modCore c f).turn = s.turn := by unfold State.modCore; split <;> rfl
@[simp] theorem State.modCore_defer (s : State) (c : Nat) (f : Core → Core) : (s.modCore c f).defer = s.defer := by unfold State.modCore; split <;> rfl
@[simp] theorem State.modCore_free (s : State) (c : Nat) (f : Core → Core) : (s.modCore c f).free = s.free := by unfold State.modCore; split <;> rfl
@[simp] theorem State.modCore_nextId (s : State) (c : Nat) (f : Core → Core) : (s.modCore c f).nextId = s.nextId := by unfold State.modCore; split <;> rfl
@[simp] theorem State.modCore_clocks (s : State) (c : Nat) (f : Core → Core) : (s.modCore c f).clocks = s.clocks := by unfold State.modCore; split <;> rfl
@[simp] theorem State.modCore_phase (s : State) (c : Nat) (f : Core → Core) : (s.modCore c f).phase = s.phase := by unfold State.modCore; split <;> rfl
@[simp] theorem State.modCore_mem (s : State) (c : Nat) (f : Core → Core) : (s.modCore c f).mem = s.mem := by unfold State.modCore; split <;> rfl
@[simp] theorem State.modCore_tlb (s : State) (c : Nat) (f : Core → Core) : (s.modCore c f).tlb = s.tlb := by unfold State.modCore; split <;> rfl
@[simp] theorem State.modCore_inbound (s : State) (c : Nat) (f : Core → Core) : (s.modCore c f).inbound = s.inbound := by unfold State.modCore; split <;> rfl
@[simp] theorem State.modCore_tests (s : State) (c : Nat) (f : Core → Core) : (s.modCore c f).tests = s.tests := by unfold State.modCore; split <;> rfl
@[simp] theorem State.modCore_dies (s : State) (c : Nat) (f : Core → Core) : (s.modCore c f).dies = s.dies := by unfold State.modCore; split <;> rfl
@[simp] theorem State.modCore_groups (s : State) (c : Nat) (f : Core → Core) : (s.modCore c f).groups = s.groups := by unfold State.modCore; split <;> rfl
@[simp] theorem State.modCore_engines (s : State) (c : Nat) (f : Core → Core) : (s.modCore c f).engines = s.engines := by unfold State.modCore; split <;> rfl
@[simp] theorem State.modCore_ringq (s : State) (c : Nat) (f : Core → Core) : (s.modCore c f).ringq = s.ringq := by unfold State.modCore; split <;> rfl
@[simp] theorem State.modCore_channels (s : State) (c : Nat) (f : Core → Core) : (s.modCore c f).channels = s.channels := by unfold State.modCore; split <;> rfl
@[simp] theorem State.modCore_refusals (s : State) (c : Nat) (f : Core → Core) : (s.modCore c f).refusals = s.refusals := by unfold State.modCore; split <;> rfl
@[simp] theorem State.modCore_resend (s : State) (c : Nat) (f : Core → Core) : (s.modCore c f).resend = s.resend := by unfold State.modCore; split <;> rfl
@[simp] theorem State.modCore_transfers (s : State) (c : Nat) (f : Core → Core) : (s.modCore c f).transfers = s.transfers := by unfold State.modCore; split <;> rfl
@[simp] theorem State.modCore_coh (s : State) (c : Nat) (f : Core → Core) : (s.modCore c f).coh = s.coh := by unfold State.modCore; split <;> rfl
@[simp] theorem State.modCore_sec (s : State) (c : Nat) (f : Core → Core) : (s.modCore c f).sec = s.sec := by unfold State.modCore; split <;> rfl
@[simp] theorem State.modCore_host (s : State) (c : Nat) (f : Core → Core) : (s.modCore c f).host = s.host := by unfold State.modCore; split <;> rfl
@[simp] theorem State.modCore_links (s : State) (c : Nat) (f : Core → Core) : (s.modCore c f).links = s.links := by unfold State.modCore; split <;> rfl
@[simp] theorem State.enter_actStream (s : State) (c : Nat) (f : Turn → Turn) : (s.enter c f).actStream = s.actStream := by simp [State.enter]
@[simp] theorem State.enter_schedule (s : State) (c : Nat) (f : Turn → Turn) : (s.enter c f).schedule = s.schedule := by simp [State.enter]
@[simp] theorem State.enter_past (s : State) (c : Nat) (f : Turn → Turn) : (s.enter c f).past = s.past := by simp [State.enter]
@[simp] theorem State.enter_banks (s : State) (c : Nat) (f : Turn → Turn) : (s.enter c f).banks = s.banks := by simp [State.enter]
@[simp] theorem State.enter_turn (s : State) (c : Nat) (f : Turn → Turn) : (s.enter c f).turn = s.turn := by simp [State.enter]
@[simp] theorem State.enter_defer (s : State) (c : Nat) (f : Turn → Turn) : (s.enter c f).defer = s.defer := by simp [State.enter]
@[simp] theorem State.enter_free (s : State) (c : Nat) (f : Turn → Turn) : (s.enter c f).free = s.free := by simp [State.enter]
@[simp] theorem State.enter_nextId (s : State) (c : Nat) (f : Turn → Turn) : (s.enter c f).nextId = s.nextId := by simp [State.enter]
@[simp] theorem State.enter_clocks (s : State) (c : Nat) (f : Turn → Turn) : (s.enter c f).clocks = s.clocks := by simp [State.enter]
@[simp] theorem State.enter_phase (s : State) (c : Nat) (f : Turn → Turn) : (s.enter c f).phase = s.phase := by simp [State.enter]
@[simp] theorem State.enter_mem (s : State) (c : Nat) (f : Turn → Turn) : (s.enter c f).mem = s.mem := by simp [State.enter]
@[simp] theorem State.enter_tlb (s : State) (c : Nat) (f : Turn → Turn) : (s.enter c f).tlb = s.tlb := by simp [State.enter]
@[simp] theorem State.enter_inbound (s : State) (c : Nat) (f : Turn → Turn) : (s.enter c f).inbound = s.inbound := by simp [State.enter]
@[simp] theorem State.enter_tests (s : State) (c : Nat) (f : Turn → Turn) : (s.enter c f).tests = s.tests := by simp [State.enter]
@[simp] theorem State.enter_dies (s : State) (c : Nat) (f : Turn → Turn) : (s.enter c f).dies = s.dies := by simp [State.enter]
@[simp] theorem State.enter_groups (s : State) (c : Nat) (f : Turn → Turn) : (s.enter c f).groups = s.groups := by simp [State.enter]
@[simp] theorem State.enter_engines (s : State) (c : Nat) (f : Turn → Turn) : (s.enter c f).engines = s.engines := by simp [State.enter]
@[simp] theorem State.enter_ringq (s : State) (c : Nat) (f : Turn → Turn) : (s.enter c f).ringq = s.ringq := by simp [State.enter]
@[simp] theorem State.enter_channels (s : State) (c : Nat) (f : Turn → Turn) : (s.enter c f).channels = s.channels := by simp [State.enter]
@[simp] theorem State.enter_refusals (s : State) (c : Nat) (f : Turn → Turn) : (s.enter c f).refusals = s.refusals := by simp [State.enter]
@[simp] theorem State.enter_resend (s : State) (c : Nat) (f : Turn → Turn) : (s.enter c f).resend = s.resend := by simp [State.enter]
@[simp] theorem State.enter_transfers (s : State) (c : Nat) (f : Turn → Turn) : (s.enter c f).transfers = s.transfers := by simp [State.enter]
@[simp] theorem State.enter_coh (s : State) (c : Nat) (f : Turn → Turn) : (s.enter c f).coh = s.coh := by simp [State.enter]
@[simp] theorem State.enter_sec (s : State) (c : Nat) (f : Turn → Turn) : (s.enter c f).sec = s.sec := by simp [State.enter]
@[simp] theorem State.enter_host (s : State) (c : Nat) (f : Turn → Turn) : (s.enter c f).host = s.host := by simp [State.enter]
@[simp] theorem State.enter_links (s : State) (c : Nat) (f : Turn → Turn) : (s.enter c f).links = s.links := by simp [State.enter]

end Sys2Proof.Machine
end

