-- ==== Sys2Proof/Laws/Run.lean ====
section
/-!
SUPPORT. How an instruction's effect becomes the next state, and what a register write does: one lemma for each shared
operation.
-/

namespace Sys2Proof.Machine

theorem State.Ready.leaves {s : State} (h : s.Ready) : s.leaves = false := by
  simp [State.leaves, Stream.blocked, Stream.isEnding, h.wait]

theorem State.Ready.past {s : State} (h : s.Ready) : decide (1024 ≤ s.task.spCount) = false := by
  have := h.count; simp; omega

theorem State.Ready.carried {s : State} (h : s.Ready) : s.task.info.carried.isSome = false := by simp [h.stored]

/-- Only a label-overflow trap carries FSTAT (R342). -/
theorem State.found_of_ne (s : State) (d : Nat) (f : BitVec 8) {t : Trap} (h : t.cause ≠ 0x1A) : s.found d f t = t := by
  unfold State.found; exact if_neg h

theorem Trap.fill_cause (t : Trap) (enc : Nat) (k : Task) : (t.fill enc k).cause = t.cause := by
  unfold Trap.fill
  dsimp only
  repeat' split
  all_goals rfl

/-- Only a moot task leaves a wait that begins, and that only where the wait is a blocking one (R74). -/
theorem State.awaits_of_ne (s : State) {k : WaitKind} (h : k ≠ .wake ∧ k ≠ .barrier) : s.awaits k = .error (.wait k (some s)) := by
  simp [State.awaits, h.1, h.2, waitAs]

/-- A ready stream's instruction does what its effect says. -/
theorem State.Ready.complete {s : State} (h : s.Ready) (len enc : Nat) (b : Body) :
    s.complete len enc b = match (match b s with
        | .error (.wait k s') => (s'.getD s).awaits k
        | r => r) with
      | .error (.trap t) => .next (s.takeTrap (s.found s.die s.task.frame (t.fill enc s.task)))
      | .error (.passed t s') => .next (s'.takeTrap t)
      | .error (.wait k s') => .next ((s'.getD s).await k)
      | .ok d => .next (s.retire len d) := by
  unfold State.complete
  simp only [h.reply, h.leaves, h.past, Bool.and_false, Bool.false_eq_true, if_false]
  all_goals rfl

/-- A ready stream's encoded instruction does what its effect says. -/
theorem State.Ready.run {s : State} (h : s.Ready) (i : Instr) (n w : Nat) (b : Body) (he : encode i = some (n, w))
    (hw : wellFormed i = true) :
    s.run i b = s.complete (n / 8) w fun s => (b s).map fun d => { d with st := d.st.passEarly s.pc i } := by
  unfold State.run
  simp only [he, hw, h.carried, Option.getD_some, Bool.false_and, Bool.false_eq_true, if_false, if_true]

theorem State.Ready.run_ok {s : State} (h : s.Ready) {i : Instr} {n w : Nat} {b : Body} {d : Done}
    (he : encode i = some (n, w)) (hw : wellFormed i = true) (hb : b s = .ok d) :
    s.run i b = .next (s.retire (n / 8) { d with st := d.st.passEarly s.pc i }) := by
  rw [h.run i n w b he hw, h.complete, hb]; rfl

theorem State.Ready.run_trap {s : State} (h : s.Ready) {i : Instr} {n w : Nat} {b : Body} {t : Trap}
    (he : encode i = some (n, w)) (hw : wellFormed i = true) (hb : b s = .error (.trap t)) :
    s.run i b = .next (s.takeTrap (s.found s.die s.task.frame (t.fill w s.task))) := by
  rw [h.run i n w b he hw, h.complete, hb]; rfl

theorem State.Ready.run_wait {s : State} (h : s.Ready) {i : Instr} {n w : Nat} {b : Body} {k : WaitKind} {s' : Option State}
    (he : encode i = some (n, w)) (hw : wellFormed i = true) (hb : b s = .error (.wait k s')) (hk : k ≠ .wake ∧ k ≠ .barrier) :
    s.run i b = .next ((s'.getD s).await k) := by
  rw [h.run i n w b he hw, h.complete, hb]
  simp only [Except.map, State.awaits_of_ne _ hk, Option.getD_some]

/-! ### Turns -/

/-- An instruction that accesses no scratchpad bank in its own step contends for none (R97). -/
theorem State.turnWith_of_noBank {s : State} (h : s.bankAtoms = []) (ends : Bool) (o : Host.Outcome State Fault Refusal) :
    s.turnWith ends o = onNext (fun t => t.spent s.core.num s.actStream ends) o := by
  have hl : s.bankLoses = false := by simp [State.bankLoses, State.bankWants, h]
  have ht : s.took ends = fun t => t.spent s.core.num s.actStream ends := by funext t; simp [State.took, h]
  simp [State.turnWith, hl, ht]

/-- What has performed early of no instruction gives its label nothing (R127). -/
theorem State.prodLoaded_of_none {s : State} (h : s.strm.under = none) (hs : List Handle) : s.prodLoaded hs = s.prod hs := by
  simp [State.prodLoaded, h]

/-! ### Register writes -/

theorem State.writeX_zero (s : State) (v : Word) (hs : List Handle) : s.writeX 0 v hs = .ok s := by
  simp [State.writeX]

theorem State.writeX_reg {s : State} {d : BitVec 5} (hd : d ≠ 0) {v : Word} {hs : List Handle} {h : Handle} {s' : State}
    (hp : s.prod (hs ++ [s.dep]) = .ok (h, s')) : s.writeX d v hs = .ok (s'.putX d ⟨v, h⟩) := by
  simp only [State.writeX, hd, if_false, hp]; rfl

theorem State.writeX_stop {s : State} {d : BitVec 5} (hd : d ≠ 0) {v : Word} {hs : List Handle} {e : Stop}
    (hp : s.prod (hs ++ [s.dep]) = .error e) : s.writeX d v hs = .error e := by
  simp only [State.writeX, hd, if_false, hp]; rfl

theorem State.x_putX_same (s : State) (d : BitVec 5) (v : XReg) (hd : d ≠ 0) : (s.putX d v).x d = v := by
  rw [State.putX, if_neg hd, State.x, if_neg hd]
  exact Vector.getElem_set_self _

theorem State.x_putX_other (s : State) (d r : BitVec 5) (v : XReg) (hr : r ≠ d) : (s.putX d v).x r = s.x r := by
  unfold State.putX
  split
  · rfl
  · have : d.toNat ≠ r.toNat := fun h => hr (BitVec.eq_of_toNat_eq h.symm)
    simp [State.x, State.modTask, Vector.getElem_set_ne, this]

theorem binOp_zero (f : Word → Word → Word) (r t : BitVec 5) (s : State) : binOp f 0 r t s = .ok { st := s } := by
  simp only [binOp, State.writeX_zero]; rfl

theorem binOp_reg {f : Word → Word → Word} {d r t : BitVec 5} {s s' : State} {h : Handle} (hd : d ≠ 0)
    (hp : s.prod ([s.xl r, s.xl t] ++ [s.dep]) = .ok (h, s')) :
    binOp f d r t s = .ok { st := s'.putX d ⟨f (s.xv r) (s.xv t), h⟩ } := by
  simp only [binOp, State.writeX_reg hd hp]; rfl

theorem unOp_zero (f : Word → Word) (r : BitVec 5) (s : State) : unOp f 0 r s = .ok { st := s } := by
  simp only [unOp, State.writeX_zero]; rfl

theorem unOp_reg {f : Word → Word} {d r : BitVec 5} {s s' : State} {h : Handle} (hd : d ≠ 0)
    (hp : s.prod ([s.xl r] ++ [s.dep]) = .ok (h, s')) :
    unOp f d r s = .ok { st := s'.putX d ⟨f (s.xv r), h⟩ } := by
  simp only [unOp, State.writeX_reg hd hp]; rfl

/-- An instruction whose effect is one register write. -/
theorem Writes.of_body {i : Instr} {s : State} {n w : Nat} {b : Body} {d : BitVec 5} {v : Word} {hs : List Handle}
    (hx : exec i s = s.run i b) (h : s.Ready) (he : encode i = some (n, w)) (hw : wellFormed i = true)
    (hb : b s = (do let s' ← s.writeX d v hs; .ok { st := s' })) : Writes i s (n / 8) d v hs := by
  constructor
  · intro hd
    subst hd
    refine hx.trans (h.run_ok (d := { st := s }) he hw ?_)
    show _ = Except.ok ({ st := s } : Done)
    rw [hb, State.writeX_zero]; rfl
  · intro hd l s' hp
    refine hx.trans (h.run_ok (d := { st := s'.putX d ⟨v, l⟩ }) he hw ?_)
    rw [hb, State.writeX_reg hd hp]; rfl

/-- A 32-bit form of two register operands. -/
theorem Writes.bin {i : Instr} {s : State} {w : Nat} {f : Word → Word → Word} {d r t : BitVec 5} {v : Word}
    (h : s.Ready) (hx : exec i s = s.run i (binOp f d r t)) (he : encode i = some (32, w)) (hw : wellFormed i = true)
    (hv : v = f (s.xv r) (s.xv t)) : Writes i s 4 d v [s.xl r, s.xl t] := by
  subst hv; exact Writes.of_body (n := 32) hx h he hw rfl

/-- A 32-bit form of one register operand. -/
theorem Writes.un {i : Instr} {s : State} {w : Nat} {f : Word → Word} {d r : BitVec 5} {v : Word}
    (h : s.Ready) (hx : exec i s = s.run i (unOp f d r)) (he : encode i = some (32, w)) (hw : wellFormed i = true)
    (hv : v = f (s.xv r)) : Writes i s 4 d v [s.xl r] := by
  subst hv; exact Writes.of_body (n := 32) hx h he hw rfl

/-- A 16-bit form of two register operands. -/
theorem Writes.bin16 {i : Instr} {s : State} {w : Nat} {f : Word → Word → Word} {d r t : BitVec 5} {v : Word}
    (h : s.Ready) (hx : exec i s = s.run i (binOp f d r t)) (he : encode i = some (16, w)) (hw : wellFormed i = true)
    (hv : v = f (s.xv r) (s.xv t)) : Writes i s 2 d v [s.xl r, s.xl t] := by
  subst hv; exact Writes.of_body (n := 16) hx h he hw rfl

/-- A 16-bit form of one register operand. -/
theorem Writes.un16 {i : Instr} {s : State} {w : Nat} {f : Word → Word} {d r : BitVec 5} {v : Word}
    (h : s.Ready) (hx : exec i s = s.run i (unOp f d r)) (he : encode i = some (16, w)) (hw : wellFormed i = true)
    (hv : v = f (s.xv r)) : Writes i s 2 d v [s.xl r] := by
  subst hv; exact Writes.of_body (n := 16) hx h he hw rfl

theorem State.Ready.retires32 {s : State} (h : s.Ready) {i : Instr} {w : Nat} {b : Body} {d : Done}
    (hx : exec i s = s.run i b) (he : encode i = some (32, w)) (hw : wellFormed i = true) (hb : b s = .ok d) :
    Retires i s 4 d := by unfold Retires; rw [hx, h.run_ok he hw hb]

theorem State.Ready.retires16 {s : State} (h : s.Ready) {i : Instr} {w : Nat} {b : Body} {d : Done}
    (hx : exec i s = s.run i b) (he : encode i = some (16, w)) (hw : wellFormed i = true) (hb : b s = .ok d) :
    Retires i s 2 d := by unfold Retires; rw [hx, h.run_ok he hw hb]

/-- A trap of an encoded instruction, its values filled in. -/
theorem State.Ready.traps {s : State} (h : s.Ready) {i : Instr} {n w : Nat} {b : Body} {t u : Trap}
    (hx : exec i s = s.run i b) (he : encode i = some (n, w)) (hw : wellFormed i = true) (hb : b s = .error (.trap t))
    (hu : t.fill w s.task = u) (hc : t.cause ≠ 0x1A) : Traps i s u := by
  subst hu
  refine hx.trans ((h.run_trap he hw hb).trans ?_)
  rw [State.found_of_ne _ _ _ (by rw [Trap.fill_cause]; exact hc)]

end Sys2Proof.Machine
end

