-- ==== Sys2Proof/Laws/Access.lean ====
section
/-!
SUPPORT. Accesses to the own scratchpad: what they resolve to, what they read, and what an issued store leaves.
-/

namespace Sys2Proof.Machine

theorem vspace_own {a : Nat} (h : a < 65536) : vspace a = .own := by simp [vspace, h]

/-- The piece that an access of `n` bytes at `ea` of the own scratchpad resolves to. -/
def State.ownLoc (s : State) (ea n : Nat) : Loc :=
  { space := .spm, addr := s.core.num * 65536 + ea, len := n, ea := ea, kind := 0, labelled := s.core.regs.lab
    frm := s.core.regs.frm, cache := false, owner := s.core.num, remote := none }

theorem State.coreAt_self (s : State) : s.coreAt s.core.num = s.core := by simp [State.coreAt]

/-- An access inside the own scratchpad resolves to one piece of it. -/
theorem State.resolve_own {s : State} {acc : Acc} {ea : Word} {n : Nat} (hn : 0 < n) (hi : ea.toNat + n ≤ 65536)
    (hf : s.core.regs.lab = true → s.core.regs.frm = s.task.frame) :
    s.resolve acc ea n = .ok [s.ownLoc ea.toNat n] := by
  have h1 : vspace ea.toNat = .own := vspace_own (by omega)
  have h2 : vspace (ea.toNat + n - 1) = .own := vspace_own (by omega)
  unfold State.resolve
  simp only [h1, h2, s.coreAt_self, if_true]
  have : (s.core.regs.lab && decide (s.core.regs.frm ≠ s.task.frame)) = false := by
    cases hl : s.core.regs.lab
    · rfl
    · simp [hf hl]
  rw [this]
  rfl

theorem State.Ready.carriedAddr {s : State} (h : s.Ready) (a : Word) : s.carriedAddr a = .ok () := by
  simp [State.carriedAddr, State.carried, h.stored]

theorem State.Quiet.mine {s : State} (h : s.Quiet) : s.mine = [] := by simp [State.mine, h.stores]

theorem State.Quiet.fenced {s : State} (h : s.Quiet) (b : Bool) (p : Space) (a : Nat) : s.fenced b p a = [] := by
  simp [State.fenced, h.fences]

theorem State.Quiet.earlyAt {s : State} (h : s.Quiet) (l : Loc) (a n : Nat) : s.earlyAt l a n = none := by
  simp [State.earlyAt, h.early]

theorem State.Quiet.overtake {s : State} (h : s.Quiet) (b : Bool) (p : Space) (a n k : Nat) : s.overtake b p a n k = s := by
  simp [State.overtake, h.early]

/-- An access to the own scratchpad takes no time beyond its step's cycle and overtakes nothing of a quiet stream. -/
theorem State.Quiet.accessed_own {s : State} (h : s.Quiet) (b : Bool) {l : Loc} (ho : l.owner = s.core.num) : s.accessed b l = s := by
  have : spmLag s.core.num l.owner = 0 := by simp [spmLag, ho]
  simp [State.accessed, h.overtake, this]

theorem State.linkAcross_self (s : State) (c : Nat) : s.linkAcross c c = none := by simp [State.linkAcross]

/-- A granule of the own scratchpad is read as it stands. -/
theorem State.loadGranule_own {s : State} (h : s.Quiet) {l : Loc} (hl : l.space = .spm) (ho : l.owner = s.core.num) {a n : Nat}
    (hc : ∀ t ∈ atomsOf a n, Tab.get 0 s.mem.spmEcc t = 0) :
    s.loadGranule l a n = .ok (Tab.range 0 s.mem.spm a n,
      (atomsOf a n).map (fun t => if l.labelled then Tab.get always s.mem.spmSide t else always), s) := by
  have e2 : (atomsOf a n).find? (fun t => decide (s.ecc .spm t = 2)) = none := by
    apply List.find?_eq_none.mpr; intro t ht; simp [State.ecc, hc t ht]
  have e1 : (atomsOf a n).filter (s.mends .spm) = [] := by
    apply List.filter_eq_nil_iff.mpr; intro t ht; simp [State.mends, State.ecc, hc t ht]
  unfold State.loadGranule
  simp only [h.stores, h.reductions, h.fenced, hl, List.filter_nil, List.any_nil, Bool.and_false, Bool.false_eq_true, if_false,
    List.getLast?_nil, reduceCtorEq, decide_false, Bool.false_and]
  unfold State.readGranule
  simp only [hl, ho, State.linkCut, State.linkAcross_self, e2, e1, List.foldl_nil, State.spaceBytes]
  rfl

theorem Tab.range_append {α : Type} (d : α) (t : Tab α) (k m n : Nat) :
    Tab.range d t k (m + n) = Tab.range d t k m ++ Tab.range d t (k + m) n := by
  induction m generalizing k with
  | zero => simp [Tab.range]
  | succ m ih => rw [Nat.succ_add]; simp only [Tab.range, List.cons_append, ih]; rw [Nat.add_right_comm k 1 m, Nat.add_assoc k m 1]

theorem Tab.range_eq {α : Type} (d : α) (t : Tab α) (k n : Nat) :
    Tab.range d t k n = (List.range n).map fun i => Tab.get d t (k + i) := by
  induction n generalizing k with
  | zero => rfl
  | succ n ih => rw [Tab.range, ih, List.range_succ_eq_map]; simp [Function.comp_def, Nat.add_assoc, Nat.add_comm 1]

theorem atomsOf_one (a n : Nat) (hn : 0 < n) (h : a % 32 + n ≤ 32) : atomsOf a n = [a / 32] := by
  have : (a + n - 1) / 32 = a / 32 := by omega
  simp [atomsOf, this, upto]

theorem atomsOf_cons (a m n : Nat) (hm : m = 32 - a % 32) (hn : m < n) : atomsOf a n = a / 32 :: atomsOf (a + m) (n - m) := by
  have h1 : (a + m) / 32 = a / 32 + 1 := by omega
  have h2 : a + m + (n - m) - 1 = a + n - 1 := by omega
  have h3 : (a + n - 1) / 32 - a / 32 + 1 = ((a + n - 1) / 32 - (a / 32 + 1) + 1) + 1 := by omega
  unfold atomsOf upto
  rw [h1, h2, h3, List.range_succ_eq_map]
  simp only [List.map_cons, Nat.add_zero, List.map_map, Function.comp_def]
  congr 1
  apply List.map_congr_left
  intro k _
  show a / 32 + (k + 1) = a / 32 + 1 + k
  omega

/-- The granules of a range of the own scratchpad read as the range does. -/
theorem State.loadGranules_own {s : State} (h : s.Quiet) (hu : s.strm.under = none) {l : Loc} (hl : l.space = .spm) (ho : l.owner = s.core.num) :
    ∀ (fuel a n : Nat), n ≤ fuel → (∀ t ∈ atomsOf a n, Tab.get 0 s.mem.spmEcc t = 0) →
      0 < n → s.loadGranules l (granules 32 fuel a n) = .ok (Tab.range 0 s.mem.spm a n,
        (atomsOf a n).map (fun t => if l.labelled then Tab.get always s.mem.spmSide t else always), s) := by
  have hr : s.readNow = s := by simp [State.readNow, h.early, hu]
  intro fuel
  induction fuel with
  | zero => intro a n h1 _ h3; omega
  | succ f ih =>
    intro a n hf hc hn
    have hn0 : n ≠ 0 := by omega
    by_cases hm : n ≤ 32 - a % 32
    · have e1 : min n (32 - a % 32) = n := by omega
      have ha : atomsOf a n = [a / 32] := atomsOf_one a n hn (by omega)
      have e2 : granules 32 (f + 1) a n = [(a, n)] := by
        simp only [granules, hn0, if_false, e1, Nat.sub_self]
        cases f <;> simp [granules]
      rw [e2]
      simp only [State.loadGranules, h.earlyAt, State.loadGranule_own h hl ho hc]
      simp [bind, Except.bind, Except.map, hr]
    · have e1 : min n (32 - a % 32) = 32 - a % 32 := by omega
      have ha := atomsOf_cons a (32 - a % 32) n rfl (by omega)
      have hone : atomsOf a (32 - a % 32) = [a / 32] := atomsOf_one a _ (by omega) (by omega)
      have e2 : granules 32 (f + 1) a n = (a, 32 - a % 32) :: granules 32 f (a + (32 - a % 32)) (n - (32 - a % 32)) := by
        simp only [granules, hn0, if_false, e1]
      have c1 : ∀ t ∈ atomsOf a (32 - a % 32), Tab.get 0 s.mem.spmEcc t = 0 := by
        intro t ht; rw [hone] at ht; exact hc t (by rw [ha]; simp at ht ⊢; exact .inl ht)
      have c2 : ∀ t ∈ atomsOf (a + (32 - a % 32)) (n - (32 - a % 32)), Tab.get 0 s.mem.spmEcc t = 0 := by
        intro t ht; exact hc t (by rw [ha]; exact List.mem_cons_of_mem _ ht)
      rw [e2]
      simp only [State.loadGranules, h.earlyAt, State.loadGranule_own h hl ho c1]
      simp only [bind, Except.bind, Except.map, hr, ih _ _ (show n - (32 - a % 32) ≤ f by omega) c2 (by omega)]
      have hj : Tab.range 0 s.mem.spm a n = Tab.range 0 s.mem.spm a (32 - a % 32)
          ++ Tab.range 0 s.mem.spm (a + (32 - a % 32)) (n - (32 - a % 32)) := by
        rw [← Tab.range_append]; congr 1; omega
      rw [hj, ha, hone]
      rfl

/-- A load of the own scratchpad (R127, R240). -/
theorem State.load_own {s : State} (h : s.Quiet) (hu : s.strm.under = none) {ea : Word} {n : Nat} (hn : 0 < n) (ho : s.OwnScratch ea.toNat n) :
    s.load ea n = .ok (s.spmAt (s.core.num * 65536 + ea.toNat) n, s.spmLabels (s.core.num * 65536 + ea.toNat) n, s) := by
  have hg := State.loadGranules_own (l := s.ownLoc ea.toNat n) h hu rfl rfl n _ n (Nat.le_refl n) ho.clean hn
  unfold State.load
  rw [State.resolve_own hn ho.inside ho.frame]
  simp only [bind, Except.bind, State.loadLocs]
  have : (s.ownLoc ea.toNat n).remote = none := rfl
  rw [this]
  simp only [Loc.granules]
  have e : s.loadGranules (s.ownLoc ea.toNat n) (granules (s.ownLoc ea.toNat n).space.grain (s.ownLoc ea.toNat n).len
      (s.ownLoc ea.toNat n).addr (s.ownLoc ea.toNat n).len) = _ := hg
  rw [e]
  have ac : s.accessed true (s.ownLoc ea.toNat n) = s := h.accessed_own true rfl
  simp only [Except.map, ac, List.append_nil, Tab.range_eq]
  rfl

end Sys2Proof.Machine
end

