-- ==== Sys2Proof/Laws/Tab.lean ====
section
/-!
SUPPORT. Sparse tables: what a read finds after a write, and that every operation keeps the canonical form.
-/

namespace Sys2Proof.Machine

variable {α : Type}

theorem Tab.get_dropWhile (d : α) (k j : Nat) (h : k < j) (t : Tab α) :
    Tab.get d (t.dropWhile fun p => decide (p.1 ≤ k)) j = Tab.get d t j := by
  induction t with
  | nil => rfl
  | cons p t ih =>
    by_cases hp : p.1 ≤ k
    · rw [List.dropWhile_cons_of_pos (by simpa using hp), ih]
      simp only [Tab.get]
      rw [if_neg (by omega), if_neg (by omega)]
    · rw [List.dropWhile_cons_of_neg (by simpa using hp)]

theorem Tab.get_dropWhile_le (d : α) (k j : Nat) (h : j ≤ k) (t : Tab α) :
    Tab.get d (t.dropWhile fun p => decide (p.1 ≤ k)) j = d := by
  induction t with
  | nil => rfl
  | cons p t ih =>
    by_cases hp : p.1 ≤ k
    · rw [List.dropWhile_cons_of_pos (by simpa using hp), ih]
    · rw [List.dropWhile_cons_of_neg (by simpa using hp)]
      simp only [Tab.get]
      rw [if_neg (by omega), if_pos (by omega)]

/-- A read of what was written gives it. -/
theorem Tab.get_put_same [DecidableEq α] (d : α) (t : Tab α) (k : Nat) (v : α) : Tab.get d (Tab.put d t k v) k = v := by
  induction t with
  | nil => by_cases h : v = d <;> simp [Tab.put, Tab.get, h]
  | cons p t ih =>
    simp only [Tab.put]
    split
    · simp only [Tab.get]
      rw [if_neg (by omega), if_neg (by omega), ih]
    · split
      · rw [Tab.get_dropWhile_le d k k (Nat.le_refl k)]; symm; assumption
      · simp [Tab.get]

/-- A write leaves every other key alone. -/
theorem Tab.get_put_other [DecidableEq α] (d : α) (t : Tab α) (k j : Nat) (v : α) (h : j ≠ k) :
    Tab.get d (Tab.put d t k v) j = Tab.get d t j := by
  induction t with
  | nil =>
    by_cases hv : v = d
    · simp [Tab.put, Tab.get, hv]
    · simp only [Tab.put, Tab.get, hv, if_false]
      rw [if_neg (Ne.symm h)]
      split <;> rfl
  | cons p t ih =>
    simp only [Tab.put]
    split
    · simp only [Tab.get, ih]
    · rename_i hk
      have key : Tab.get d ((p :: t).dropWhile fun p => decide (p.1 ≤ k)) j = Tab.get d (p :: t) j := by
        rcases Nat.lt_or_ge k j with hj | hj
        · exact Tab.get_dropWhile d k j hj _
        · rw [Tab.get_dropWhile_le d k j hj]
          simp only [Tab.get]
          rw [if_neg (by omega), if_pos (by omega)]
      split
      · exact key
      · rcases Nat.lt_or_ge k j with hj | hj
        · simp only [Tab.get] at key ⊢
          rw [if_neg (by omega), if_neg (by omega)]
          simpa using key
        · simp only [Tab.get]
          rw [if_neg (by omega), if_pos (by omega), if_neg (by omega), if_pos (by omega)]

theorem Tab.get_put [DecidableEq α] (d : α) (t : Tab α) (k j : Nat) (v : α) :
    Tab.get d (Tab.put d t k v) j = if j = k then v else Tab.get d t j := by
  split
  · subst j; exact Tab.get_put_same d t k v
  · exact Tab.get_put_other d t k j v (by assumption)

/-- A fill leaves every key outside its range alone. -/
theorem Tab.get_fill_other [DecidableEq α] (d : α) (vs : List α) (t : Tab α) (k j : Nat)
    (h : j < k ∨ k + vs.length ≤ j) : Tab.get d (Tab.fill d t k vs) j = Tab.get d t j := by
  induction vs generalizing t k with
  | nil => rfl
  | cons v vs ih =>
    simp only [List.length_cons] at h
    rw [Tab.fill, ih _ _ (by omega), Tab.get_put_other _ _ _ _ _ (by omega)]

/-- A fill's values stand at their keys. -/
theorem Tab.get_fill_at [DecidableEq α] (d : α) (vs : List α) (t : Tab α) (k i : Nat) (h : i < vs.length) :
    Tab.get d (Tab.fill d t k vs) (k + i) = vs[i] := by
  induction vs generalizing t k i with
  | nil => exact absurd h (Nat.not_lt_zero i)
  | cons v vs ih =>
    cases i with
    | zero => rw [Tab.fill, Tab.get_fill_other _ _ _ _ _ (by omega), Nat.add_zero, Tab.get_put_same]; rfl
    | succ i =>
      have := ih (Tab.put d t k v) (k + 1) i (by simpa using h)
      rw [Tab.fill, show k + (i + 1) = k + 1 + i by omega, this]; rfl

/-! ### The canonical form -/

/-- Every key of a table is at least `k`. -/
def Tab.above (k : Nat) (t : Tab α) : Prop := ∀ p ∈ t, k ≤ p.1

theorem Tab.wf_cons [DecidableEq α] (d : α) (p : Nat × α) (t : Tab α) :
    Tab.wf d (p :: t) = true ↔ p.2 ≠ d ∧ Tab.above (p.1 + 1) t ∧ Tab.wf d t = true := by
  induction t generalizing p with
  | nil => obtain ⟨k, v⟩ := p; simp [Tab.wf, Tab.above]
  | cons q t ih =>
    obtain ⟨k, v⟩ := p
    obtain ⟨k', v'⟩ := q
    simp only [Tab.wf, Bool.and_eq_true, decide_eq_true_eq]
    constructor
    · rintro ⟨⟨h1, h2⟩, h3⟩
      refine ⟨h1, ?_, h3⟩
      intro q hq
      rcases List.mem_cons.mp hq with rfl | hq
      · exact h2
      · have := (ih (k', v')).mp h3
        have := this.2.1 q hq
        simp only at this ⊢; omega
    · rintro ⟨h1, h2, h3⟩
      exact ⟨⟨h1, h2 (k', v') List.mem_cons_self⟩, h3⟩

theorem Tab.wf_dropWhile [DecidableEq α] (d : α) (f : Nat × α → Bool) (t : Tab α) (h : Tab.wf d t = true) :
    Tab.wf d (t.dropWhile f) = true := by
  induction t with
  | nil => rfl
  | cons p t ih =>
    rw [List.dropWhile_cons]
    split
    · exact ih ((Tab.wf_cons d p t).mp h).2.2
    · exact h

theorem Tab.wf_filter [DecidableEq α] (d : α) (f : Nat × α → Bool) (t : Tab α) (h : Tab.wf d t = true) :
    Tab.wf d (t.filter f) = true := by
  induction t with
  | nil => rfl
  | cons p t ih =>
    have hp := (Tab.wf_cons d p t).mp h
    rw [List.filter_cons]
    split
    · exact (Tab.wf_cons d p _).mpr ⟨hp.1, fun q hq => hp.2.1 q (List.mem_filter.mp hq).1, ih hp.2.2⟩
    · exact ih hp.2.2

theorem Tab.above_dropWhile [DecidableEq α] (d : α) (k : Nat) (t : Tab α) (h : Tab.wf d t = true) :
    Tab.above (k + 1) (t.dropWhile fun p => decide (p.1 ≤ k)) := by
  induction t with
  | nil => intro q hq; exact absurd hq List.not_mem_nil
  | cons p t ih =>
    have hp := (Tab.wf_cons d p t).mp h
    rw [List.dropWhile_cons]
    split
    · exact ih hp.2.2
    · rename_i hk
      simp only [decide_eq_true_eq] at hk
      intro q hq
      rcases List.mem_cons.mp hq with rfl | hq
      · omega
      · have := hp.2.1 q hq; omega

theorem Tab.mem_put [DecidableEq α] (d : α) (t : Tab α) (k : Nat) (v : α) (q : Nat × α) (h : q ∈ Tab.put d t k v) :
    q = (k, v) ∨ q ∈ t := by
  induction t with
  | nil =>
    simp only [Tab.put] at h
    split at h
    · exact absurd h List.not_mem_nil
    · exact .inl (List.mem_singleton.mp h)
  | cons p t ih =>
    simp only [Tab.put] at h
    split at h
    · rcases List.mem_cons.mp h with h | h
      · exact .inr (h ▸ List.mem_cons_self)
      · exact (ih h).imp id (List.mem_cons_of_mem p)
    · split at h
      · exact .inr ((List.dropWhile_sublist _).subset h)
      · rcases List.mem_cons.mp h with h | h
        · exact .inl h
        · exact .inr ((List.dropWhile_sublist _).subset h)

/-- A write keeps the canonical form. -/
theorem Tab.wf_put [DecidableEq α] (d : α) (t : Tab α) (k : Nat) (v : α) (h : Tab.wf d t = true) :
    Tab.wf d (Tab.put d t k v) = true := by
  induction t with
  | nil => by_cases hv : v = d <;> simp [Tab.put, Tab.wf, hv]
  | cons p t ih =>
    have hp := (Tab.wf_cons d p t).mp h
    simp only [Tab.put]
    split
    · rename_i hk
      refine (Tab.wf_cons d p _).mpr ⟨hp.1, ?_, ih hp.2.2⟩
      intro q hq
      rcases Tab.mem_put d t k v q hq with rfl | hq
      · exact hk
      · exact hp.2.1 q hq
    · split
      · exact Tab.wf_dropWhile d _ _ h
      · rename_i hv
        exact (Tab.wf_cons d (k, v) _).mpr ⟨hv, Tab.above_dropWhile d k _ h, Tab.wf_dropWhile d _ _ h⟩

/-- A fill keeps the canonical form. -/
theorem Tab.wf_fill [DecidableEq α] (d : α) (vs : List α) (t : Tab α) (k : Nat) (h : Tab.wf d t = true) :
    Tab.wf d (Tab.fill d t k vs) = true := by
  induction vs generalizing t k with
  | nil => exact h
  | cons v vs ih => exact ih _ _ (Tab.wf_put d t k v h)

/-- Two canonical tables that read alike are equal. -/
theorem Tab.ext [DecidableEq α] (d : α) (t u : Tab α) (ht : Tab.wf d t = true) (hu : Tab.wf d u = true)
    (h : ∀ k, Tab.get d t k = Tab.get d u k) : t = u := by
  have low : ∀ (t : Tab α) (k : Nat), Tab.above (k + 1) t → Tab.get d t k = d := by
    intro t k ha
    cases t with
    | nil => rfl
    | cons p t =>
      have := ha p List.mem_cons_self
      simp only [Tab.get]; rw [if_neg (by omega), if_pos (by omega)]
  induction t generalizing u with
  | nil =>
    cases u with
    | nil => rfl
    | cons q u =>
      have := h q.1
      have hq := (Tab.wf_cons d q u).mp hu
      simp [Tab.get] at this
      exact absurd this.symm hq.1
  | cons p t ih =>
    have hp := (Tab.wf_cons d p t).mp ht
    cases u with
    | nil => have := h p.1; simp [Tab.get] at this; exact absurd this hp.1
    | cons q u =>
      have hq := (Tab.wf_cons d q u).mp hu
      have e1 : p.1 = q.1 := by
        rcases Nat.lt_trichotomy p.1 q.1 with hlt | heq | hgt
        · have := h p.1
          rw [low (q :: u) p.1 (by
            intro x hx
            rcases List.mem_cons.mp hx with rfl | hx
            · exact hlt
            · have := hq.2.1 x hx; omega)] at this
          simp [Tab.get] at this
          exact absurd this hp.1
        · exact heq
        · have := h q.1
          rw [low (p :: t) q.1 (by
            intro x hx
            rcases List.mem_cons.mp hx with rfl | hx
            · exact hgt
            · have := hp.2.1 x hx; omega)] at this
          simp [Tab.get] at this
          exact absurd this.symm hq.1
      have e2 : p.2 = q.2 := by
        have := h p.1
        simp only [Tab.get, e1, if_true] at this
        exact this
      have e : p = q := Prod.ext e1 e2
      subst e
      congr 1
      refine ih u hp.2.2 hq.2.2 fun k => ?_
      rcases Nat.lt_or_ge p.1 k with hk | hk
      · have := h k
        simp only [Tab.get] at this
        rwa [if_neg (by omega), if_neg (by omega), if_neg (by omega), if_neg (by omega)] at this
      · have a1 : Tab.get d t k = d := low t k fun x hx => by have := hp.2.1 x hx; omega
        have a2 : Tab.get d u k = d := low u k fun x hx => by have := hq.2.1 x hx; omega
        rw [a1, a2]

end Sys2Proof.Machine
end

