-- ==== Sys2Proof/Laws/Cores.lean ====
section
/-!
SUPPORT. The cores: what a change of one core leaves of it and of the others, what making a core the acting one does, and
that both keep the parked cores in order, each under its own number.
-/

namespace Sys2Proof.Machine

theorem Tab.mem_above {α : Type} {t : Tab α} (h : t.Pairwise fun p q => p.1 < q.1) {p q : Nat × α} (hp : p ∈ t) (hq : q ∈ t)
    (e : p.1 = q.1) : p = q := by
  induction t with
  | nil => exact absurd hp List.not_mem_nil
  | cons r t ih =>
    obtain ⟨h1, h2⟩ := List.pairwise_cons.mp h
    rcases List.mem_cons.mp hp with rfl | hp'
    · rcases List.mem_cons.mp hq with rfl | hq'
      · rfl
      · have := h1 q hq'; omega
    · rcases List.mem_cons.mp hq with rfl | hq'
      · have := h1 p hp'; omega
      · exact ih h2 hp' hq'

/-- A write keeps keys rising. -/
theorem Tab.rising_put {α : Type} [DecidableEq α] (d : α) (t : Tab α) (k : Nat) (v : α) (h : t.Pairwise fun p q => p.1 < q.1) :
    (Tab.put d t k v).Pairwise fun p q => p.1 < q.1 := by
  induction t with
  | nil => unfold Tab.put; split <;> simp
  | cons p t ih =>
    obtain ⟨h1, h2⟩ := List.pairwise_cons.mp h
    simp only [Tab.put]
    split
    · rename_i hk
      refine List.pairwise_cons.mpr ⟨fun q hq => ?_, ih h2⟩
      rcases Tab.mem_put d t k v q hq with rfl | hq
      · exact hk
      · exact h1 q hq
    · have hd : ((p :: t).dropWhile fun q => decide (q.1 ≤ k)).Pairwise fun p q => p.1 < q.1 :=
        h.sublist (List.dropWhile_sublist _)
      split
      · exact hd
      · refine List.pairwise_cons.mpr ⟨fun q hq => ?_, hd⟩
        have : ∀ (u : Tab α), (u.Pairwise fun p q => p.1 < q.1) → ∀ q ∈ u.dropWhile (fun q => decide (q.1 ≤ k)), k < q.1 := by
          intro u hu
          induction u with
          | nil => intro q hq; exact absurd hq List.not_mem_nil
          | cons r u ih' =>
            obtain ⟨g1, g2⟩ := List.pairwise_cons.mp hu
            rw [List.dropWhile_cons]
            split
            · exact ih' g2
            · rename_i hr
              simp only [decide_eq_true_eq] at hr
              intro q hq
              rcases List.mem_cons.mp hq with rfl | hq
              · omega
              · have := g1 q hq; omega
        exact this _ h q hq

/-- What a table lists under a key is what a search for the key finds. -/
theorem Tab.find_put {α : Type} [DecidableEq α] (d : α) (t : Tab α) (k j : Nat) (v : α) (h : t.Pairwise fun p q => p.1 < q.1) :
    ((Tab.put d t k v).find? fun p => decide (p.1 = j))
      = if j = k then (if v = d then none else some (k, v)) else t.find? fun p => decide (p.1 = j) := by
  induction t with
  | nil =>
    unfold Tab.put
    by_cases hv : v = d
    · simp [hv]
    · by_cases hj : j = k
      · simp [hv, hj]
      · simp [hv, hj, Ne.symm hj]
  | cons p t ih =>
    obtain ⟨h1, h2⟩ := List.pairwise_cons.mp h
    simp only [Tab.put]
    split
    · rename_i hk
      rw [List.find?_cons]
      by_cases hp : p.1 = j
      · have hj : j ≠ k := by omega
        subst hp
        simp [hj]
      · simp only [hp, decide_false, List.find?_cons, ih h2]
    · rename_i hk
      have hd : ((p :: t).dropWhile fun q => decide (q.1 ≤ k)).find? (fun q => decide (q.1 = j))
          = if j ≤ k then none else (p :: t).find? fun q => decide (q.1 = j) := by
        have : ∀ (u : Tab α), (u.Pairwise fun p q => p.1 < q.1) →
            (u.dropWhile fun q => decide (q.1 ≤ k)).find? (fun q => decide (q.1 = j))
              = if j ≤ k then none else u.find? fun q => decide (q.1 = j) := by
          intro u hu
          induction u with
          | nil => simp
          | cons r u ih' =>
            obtain ⟨g1, g2⟩ := List.pairwise_cons.mp hu
            rw [List.dropWhile_cons]
            split
            · rename_i hr
              simp only [decide_eq_true_eq] at hr
              rw [ih' g2]
              by_cases hj : j ≤ k
              · simp [hj]
              · have : r.1 ≠ j := by omega
                simp [hj, this]
            · rename_i hr
              simp only [decide_eq_true_eq] at hr
              by_cases hj : j ≤ k
              · rw [if_pos hj, List.find?_eq_none]
                intro q hq
                rcases List.mem_cons.mp hq with rfl | hq
                · simp; omega
                · have := g1 q hq; simp; omega
              · rw [if_neg hj]
        exact this _ h
      by_cases hj : j = k
      · subst hj
        split
        · rw [hd]; simp
        · simp
      · have hu : (p :: t).find? (fun q => decide (q.1 = j)) = if j ≤ k then none else (p :: t).find? fun q => decide (q.1 = j) := by
          split
          · rw [List.find?_eq_none]
            intro q hq
            rcases List.mem_cons.mp hq with rfl | hq
            · simp; omega
            · have := h1 q hq; simp; omega
          · rfl
        rw [if_neg hj]
        split
        · exact hd.trans hu.symm
        · rw [List.find?_cons, decide_eq_false (show ¬k = j from Ne.symm hj)]
          exact hd.trans hu.symm

/-! ### One core changed -/

/-- The core listed under a number among parked ones, or the untouched one. -/
def parkedAt (t : Tab Core) (d : Nat) : Core := ((t.find? fun p => decide (p.1 = d)).map (·.2)).getD { num := d }

theorem State.coreAt_acting (s : State) : s.coreAt s.core.num = s.core := if_pos rfl

theorem State.coreAt_parked {s : State} {d : Nat} (h : d ≠ s.core.num) : s.coreAt d = parkedAt s.parked d := by
  unfold State.coreAt parkedAt
  rw [if_neg h]
  cases s.parked.find? fun p => decide (p.1 = d) <;> rfl

theorem parkedAt_put {t : Tab Core} (h : t.Pairwise fun p q => p.1 < q.1) (c d : Nat) (v : Core) :
    parkedAt (Tab.put { num := c } t c v) d = if d = c then v else parkedAt t d := by
  unfold parkedAt
  rw [Tab.find_put _ _ _ _ _ h]
  by_cases he : d = c
  · rw [if_pos he, if_pos he]
    by_cases hv : v = { num := c }
    · rw [if_pos hv, hv, he]; rfl
    · rw [if_neg hv]; rfl
  · rw [if_neg he, if_neg he]

theorem State.coreAt_modCore_same {s : State} (h : s.Parked) (c : Nat) (f : Core → Core) (hf : ∀ k, (f k).num = k.num) :
    (s.modCore c f).coreAt c = f (s.coreAt c) := by
  unfold State.modCore
  split
  · rename_i hc; simp [State.coreAt, hc, hf]
  · rename_i hc
    refine Eq.trans (State.coreAt_parked ?_) ?_
    · exact hc
    · simp only [parkedAt_put h.rising, if_true]

theorem State.coreAt_modCore_other {s : State} (h : s.Parked) {c d : Nat} (hd : d ≠ c) (f : Core → Core) (hf : ∀ k, (f k).num = k.num) :
    (s.modCore c f).coreAt d = s.coreAt d := by
  unfold State.modCore
  split
  · rename_i hc
    have : d ≠ s.core.num := hc ▸ hd
    simp [State.coreAt, hf, this]
  · by_cases he : d = s.core.num
    · subst he; rw [s.coreAt_acting]; exact State.coreAt_acting _
    · rw [State.coreAt_parked (s := s) he]
      refine Eq.trans (State.coreAt_parked ?_) ?_
      · exact he
      · simp only [parkedAt_put h.rising, hd, if_false]

theorem State.coreAt_num {s : State} (h : s.Parked) (c : Nat) : (s.coreAt c).num = c := by
  unfold State.coreAt
  split
  · rename_i hc; exact hc.symm
  · split
    · rename_i p hp
      have hm := List.mem_of_find?_eq_some hp
      have he := List.find?_some hp
      simp only [decide_eq_true_eq] at he
      rw [h.named p hm, he]
    · rfl

/-- A change of one core keeps the parked cores' form. -/
theorem parked_modCore {s : State} (h : s.Parked) (c : Nat) (f : Core → Core) (hf : ∀ k, (f k).num = k.num) : (s.modCore c f).Parked := by
  unfold State.modCore
  split
  · exact ⟨h.rising, h.named, fun p hp => by have := h.apart p hp; simpa [hf] using this⟩
  · rename_i hc
    refine ⟨Tab.rising_put _ _ _ _ h.rising, fun p hp => ?_, fun p hp => ?_⟩
    · rcases Tab.mem_put _ _ _ _ p hp with rfl | hp
      · simp only [hf]; exact State.coreAt_num h c
      · exact h.named p hp
    · rcases Tab.mem_put _ _ _ _ p hp with rfl | hp
      · exact hc
      · exact h.apart p hp

/-- Making another core the acting one keeps the parked cores' form. -/
theorem parked_focus {s : State} (h : s.Parked) (c st : Nat) : (s.focus c st).Parked := by
  unfold State.focus
  split
  · exact ⟨h.rising, h.named, h.apart⟩
  · rename_i hc
    have hr := Tab.rising_put ({ num := c } : Core) s.parked c { num := c } h.rising
    refine ⟨Tab.rising_put _ _ _ _ hr, fun p hp => ?_, fun p hp => ?_⟩
    · rcases Tab.mem_put _ _ _ _ p hp with rfl | hp
      · rfl
      · rcases Tab.mem_put _ _ _ _ p hp with rfl | hp
        · rfl
        · exact h.named p hp
    · simp only [State.coreAt_num h c]
      have hne : s.core.num ≠ c := Ne.symm hc
      intro e
      have hf : ((Tab.put { num := s.core.num } (Tab.put { num := c } s.parked c { num := c }) s.core.num s.core).find?
          fun q => decide (q.1 = c)) = none := by
        rw [Tab.find_put _ _ _ _ _ hr, if_neg hc, Tab.find_put _ _ _ _ _ h.rising]; simp
      exact absurd e (by have := List.find?_eq_none.mp hf p hp; simpa using this)

/-- Making a core the acting one changes no core. -/
theorem State.coreAt_focus {s : State} (h : s.Parked) (c st d : Nat) : (s.focus c st).coreAt d = s.coreAt d := by
  unfold State.focus
  split
  · rfl
  · rename_i hc
    have hr := Tab.rising_put ({ num := c } : Core) s.parked c { num := c } h.rising
    have hn := State.coreAt_num h c
    by_cases hd : d = c
    · have : d = (s.coreAt c).num := hd.trans hn.symm
      rw [this]; exact (State.coreAt_acting _).trans (by rw [hn])
    · have hne : d ≠ (s.coreAt c).num := fun e => hd (e.trans hn)
      refine (State.coreAt_parked hne).trans ?_
      simp only [parkedAt_put hr, parkedAt_put h.rising, hd, if_false]
      split
      · rename_i he; rw [he, s.coreAt_acting]
      · rename_i he; rw [State.coreAt_parked he]

theorem parked_reset : State.reset.Parked := by constructor <;> simp [State.reset]

end Sys2Proof.Machine
end

