-- ==== Sys2Proof/Laws/Memory.lean ====
section
/-!
SUPPORT. Every operation over memory keeps the canonical form of the memories, and so do the shared operations that an
instruction is made of: what a label's interning, a load, a store, a record, a trap and a retirement do to it.
-/

namespace Sys2Proof.Machine

/-- The memories of `t` are in canonical form if those of `s` are. -/
def MemKept (s t : State) : Prop := Memory.wf s.mem = true → Memory.wf t.mem = true

theorem MemKept.refl (s : State) : MemKept s s := id

theorem MemKept.trans {s t u : State} (h : MemKept s t) (g : MemKept t u) : MemKept s u := g ∘ h

theorem MemKept.same {s t : State} (h : t.mem = s.mem) : MemKept s t := fun w => by rw [h]; exact w

/-- A change before or after that leaves the memories alone. -/
theorem MemKept.from {s t u : State} (g : MemKept t u) (h : t.mem = s.mem) : MemKept s u := (MemKept.same h).trans g

theorem MemKept.upTo {s t u : State} (g : MemKept s t) (h : u.mem = t.mem) : MemKept s u := g.trans (.same h)

theorem MemKept.foldl {β : Type} {f : State → β → State} (h : ∀ s b, MemKept s (f s b)) (l : List β) (s : State) :
    MemKept s (l.foldl f s) := by
  induction l generalizing s with
  | nil => exact .refl s
  | cons b l ih => exact (h s b).trans (ih _)

theorem mem_foldl {β : Type} {f : State → β → State} (h : ∀ s b, (f s b).mem = s.mem) (l : List β) (s : State) :
    (l.foldl f s).mem = s.mem := by
  induction l generalizing s with
  | nil => rfl
  | cons b l ih => rw [List.foldl_cons, ih, h]

/-- The eight tables of the memories. -/
theorem Memory.wf_iff (m : Memories) : Memory.wf m = true ↔
    Tab.wf 0 m.main = true ∧ Tab.wf 0 m.spm = true ∧ Tab.wf 0 m.imem = true ∧ Tab.wf always m.mainSide = true
      ∧ Tab.wf always m.spmSide = true ∧ Tab.wf 0 m.mainEcc = true ∧ Tab.wf 0 m.spmEcc = true ∧ Tab.wf false m.notLive = true := by
  simp only [Memory.wf, Bool.and_eq_true, and_assoc]

theorem memory_wf_reset : Memory.wf State.reset.mem = true := rfl

/-! ### Writers of memory -/

theorem memKept_wakeUnit (s : State) (u : Nat) : MemKept s (s.wakeUnit u) := by
  intro h
  unfold State.wakeUnit
  split
  · obtain ⟨h1, h2, h3, h4, h5, h6, h7, h8⟩ := (Memory.wf_iff _).mp h
    exact (Memory.wf_iff _).mpr ⟨Tab.wf_filter _ _ _ h1, h2, h3, Tab.wf_filter _ _ _ h4, h5, Tab.wf_filter _ _ _ h6, h7,
      Tab.wf_put _ _ _ _ h8⟩
  · exact h

theorem State.disturb_mem (s : State) (d pa : Nat) : (s.disturb d pa).mem = s.mem := by
  unfold State.disturb; split <;> rfl

theorem memKept_putMain (s : State) (pa : Nat) (bs : List Byte) : MemKept s (s.putMain pa bs) := by
  intro h
  have h' := ((memKept_wakeUnit s (pa / 65536)).trans (memKept_wakeUnit _ ((pa + bs.length - 1) / 65536))) h
  obtain ⟨h1, h2, h3, h4, h5, h6, h7, h8⟩ := (Memory.wf_iff _).mp h'
  refine (Memory.wf_iff _).mpr ?_
  simp only [State.putMain, State.disturb_mem]
  exact ⟨Tab.wf_fill _ _ _ _ h1, h2, h3, h4, h5, h6, h7, h8⟩

theorem Tab.wf_puts {β : Type} (f : β → Nat) (l : List β) (t : Tab Nat) (h : Tab.wf 0 t = true) :
    Tab.wf 0 (l.foldl (fun t i => Tab.put 0 t (f i) 0) t) = true := by
  induction l generalizing t with
  | nil => exact h
  | cons b l ih => exact ih _ (Tab.wf_put _ _ _ _ h)

theorem memKept_putPlain (s : State) (pa : Nat) (bs : List Byte) : MemKept s (s.putPlain pa bs) := by
  intro h
  obtain ⟨h1, h2, h3, h4, h5, h6, h7, h8⟩ := (Memory.wf_iff _).mp (memKept_putMain s pa bs h)
  exact (Memory.wf_iff _).mpr ⟨h1, h2, h3, Tab.wf_fill _ _ _ _ h4, h5, Tab.wf_puts _ _ _ h6, h7, h8⟩

theorem memKept_putSpace (s : State) (p : Space) (a : Nat) (bs : List Byte) : MemKept s (s.putSpace p a bs) := by
  cases p with
  | main => exact memKept_putMain s a bs
  | spm =>
    intro h
    obtain ⟨h1, h2, h3⟩ := (Memory.wf_iff _).mp h
    exact (Memory.wf_iff _).mpr ⟨h1, Tab.wf_fill _ _ _ _ h2, h3⟩

theorem memKept_putSide (s : State) (p : Space) (t : Nat) (h : Handle) : MemKept s (s.putSide p t h) := by
  intro w
  obtain ⟨h1, h2, h3, h4, h5, h6⟩ := (Memory.wf_iff _).mp w
  cases p with
  | main => exact (Memory.wf_iff _).mpr ⟨h1, h2, h3, Tab.wf_put _ _ _ _ h4, h5, h6⟩
  | spm => exact (Memory.wf_iff _).mpr ⟨h1, h2, h3, h4, Tab.wf_put _ _ _ _ h5, h6⟩

theorem memKept_clearEcc (s : State) (p : Space) (t : Nat) : MemKept s (s.clearEcc p t) := by
  intro w
  obtain ⟨h1, h2, h3, h4, h5, h6, h7, h8⟩ := (Memory.wf_iff _).mp w
  cases p with
  | main => exact (Memory.wf_iff _).mpr ⟨h1, h2, h3, h4, h5, Tab.wf_put _ _ _ _ h6, h7, h8⟩
  | spm => exact (Memory.wf_iff _).mpr ⟨h1, h2, h3, h4, h5, h6, Tab.wf_put _ _ _ _ h7, h8⟩

/-- Bytes written to an instruction store. -/
theorem memKept_imem (s : State) (a : Nat) (bs : List Byte) :
    MemKept s { s with mem := { s.mem with imem := Tab.fill 0 s.mem.imem a bs } } := by
  intro h
  obtain ⟨h1, h2, h3, h4⟩ := (Memory.wf_iff _).mp h
  exact (Memory.wf_iff _).mpr ⟨h1, h2, Tab.wf_fill _ _ _ _ h3, h4⟩

theorem memKept_withFetchWord (s : State) (n w : Nat) : MemKept s (s.withFetchWord n w) :=
  fun h => memKept_imem s _ _ h

/-! ### Records, traps and ends of tasks -/

theorem State.focus_mem (s : State) (c st : Nat) : (s.focus c st).mem = s.mem := by
  unfold State.focus; split <;> rfl

theorem State.modParty_mem (s : State) (w : Party) (f : Task → Task) : (s.modParty w f).mem = s.mem := s.modCore_mem _ _

theorem State.suppress_mem (s : State) (c u : Nat) : (s.suppress c u).mem = s.mem := s.modParty_mem _ _

theorem State.answer_mem (s : State) (w : Party) (r : Reply) : (s.answer w r).mem = s.mem := s.modParty_mem _ _

theorem State.gangFail_mem (s : State) (g : Nat) (tr : Arrival → Trap) : (s.gangFail g tr).mem = s.mem :=
  mem_foldl (fun s _ => s.modParty_mem _ _) _ s

theorem State.gangDrop_mem (s : State) (c u : Nat) : (s.gangDrop c u).mem = s.mem := by
  unfold State.gangDrop; simp only; split
  · exact s.gangFail_mem _ _
  · rfl

theorem State.answerTrap_mem (s : State) (w : Party) (t : Trap) : (s.answerTrap w t).mem = s.mem := by
  unfold State.answerTrap; simp only; split
  · exact s.gangFail_mem _ _
  · exact s.answer_mem _ _

theorem State.countEnd_mem (s : State) (l : Option LaunchRef) (c : Nat) : (s.countEnd l c).mem = s.mem := by
  cases l <;> rfl

theorem State.endTask_mem (s : State) (c u : Nat) : (s.endTask c u).mem = s.mem := by
  unfold State.endTask
  split
  · rfl
  · rw [State.countEnd_mem, State.modCore_mem, State.gangDrop_mem]; rfl

theorem memKept_writeRecord (s : State) (o : RecordOf) (t : Trap) : MemKept s (s.writeRecord o t) := by
  unfold State.writeRecord
  simp only
  split
  · exact .refl s
  · split
    · exact memKept_putPlain _ _ _
    · cases o.launch with
      | none => exact (memKept_putPlain _ _ _).trans (memKept_putPlain _ _ _)
      | some l =>
        simp only
        split
        · exact (memKept_putPlain _ _ _).trans (memKept_putPlain _ _ _)
        · exact ((memKept_putPlain _ _ _).trans (memKept_putPlain _ _ _)).upTo rfl

theorem memKept_unmark (s : State) (p : Space) (a : Nat) : MemKept s (s.unmark p a) := by
  cases p
  · exact memKept_clearEcc s .main a
  · exact memKept_clearEcc s .spm a

/-- A record, and the corrections of its queue's own atom that may come first. -/
theorem memKept_recordIn : ∀ (fuel : Nat) (s : State) (o : RecordOf) (t : Trap), MemKept s (s.recordIn fuel o t)
  | 0, s, o, t => memKept_writeRecord s o t
  | fuel + 1, s, o, t => by
    unfold State.recordIn
    refine MemKept.trans ?_ (memKept_writeRecord _ o t)
    simp only
    split
    · exact ((memKept_unmark s .main _).upTo (by rfl)).trans (memKept_recordIn fuel _ _ _)
    · exact .refl s

theorem memKept_record (s : State) (o : RecordOf) (t : Trap) : MemKept s (s.record o t) := by
  unfold State.record
  split
  · exact memKept_recordIn 3 s o t
  · exact .refl s

theorem memKept_deviceRecord (s : State) (d c : Nat) (v : Word) (a b : Nat) : MemKept s (s.deviceRecord d c v a b) :=
  memKept_record _ _ _

theorem State.withdrawStream_mem (s : State) (w : Party) : (s.withdrawStream w).mem = s.mem := s.modCore_mem _ _

theorem memKept_takeTrap (s : State) (t : Trap) : MemKept s (s.takeTrap t) := by
  unfold State.takeTrap
  simp only
  split
  · exact .same rfl
  · split
    · have hr : ∀ o, MemKept s (if (s.strm.retiring || s.task.moot) = true then s else s.record o t) := by
        intro o; split
        · exact .refl s
        · exact memKept_record _ _ _
      split
      · exact (hr _).upTo rfl
      · exact (hr _).upTo (State.endTask_mem _ _ _)
    · have hw : (if t.cause = 0x20 then ((s.setTrapRegs t true).withdrawStream (s.setTrapRegs t true).self).modTask
          fun x => { x with spCount := 0 } else s.setTrapRegs t true).mem = s.mem := by
        split
        · exact (s.setTrapRegs t true).withdrawStream_mem _
        · rfl
      have hs : ∀ (x : State) (f : Task → Task) (g : Stream → Stream),
          ((if x.actStream = 0 then x.modTask f else x).modStrm g).mem = x.mem := by
        intro x f g; split <;> rfl
      exact .same ((hs _ _ _).trans hw)

/-! ### Error marks -/

theorem memKept_correct (s : State) (p : Space) (a : Nat) : MemKept s (s.correct p a) :=
  (memKept_unmark s p a).trans ((memKept_record _ _ _).upTo rfl)

theorem memKept_mend (s : State) (p : Space) (t : Nat) : MemKept s (if s.mends p t then s.correct p t else s) := by
  split
  · exact memKept_correct s p t
  · exact .refl s

theorem memKept_mendAtoms (s : State) (p : Space) (ats : List Nat) : MemKept s (s.mendAtoms p ats) :=
  MemKept.foldl (fun s t => memKept_mend s p t) _ s

theorem memKept_readRecords (s : State) (d : Nat) (f : BitVec 8) (hs : List Handle) : MemKept s (s.readRecords d f hs) :=
  memKept_mendAtoms s _ _

/-! ### Labels that an instruction forms -/

theorem memKept_intern {s s' : State} {d : Nat} {f : BitVec 8} {l : Lab} {h : Handle} (e : s.intern d f l = .ok (h, s')) :
    MemKept s s' := by
  unfold State.intern at e
  split at e
  · cases e; exact .refl _
  · split at e
    · cases e; exact .refl _
    · split at e
      · cases e; exact .refl _
      · simp only at e
        split at e
        · cases e
        · cases e; exact (memKept_putPlain s _ _).trans (.same rfl)

theorem memKept_bound {s s' : State} {d : Nat} {f : BitVec 8} {b : Bool} {l : Lab} {h : Handle}
    (e : s.bound d f b l = .ok (h, s')) : MemKept s s' := by
  unfold State.bound at e
  split at e
  · exact memKept_intern e
  · split at e
    · cases hi : s.intern d f { envs := dropped l.envs, inc := true } with
      | error x => rw [hi] at e; cases e
      | ok r => rw [hi] at e; cases e; exact (memKept_intern (h := r.1) (s' := r.2) hi).trans (.same rfl)
    · cases e

theorem memKept_product {s s' : State} {d : Nat} {f : BitVec 8} {b : Bool} {hs : List Handle} {h : Handle}
    (e : s.product d f b hs = .ok (h, s')) : MemKept s s' := by
  unfold State.product at e
  simp only at e
  split at e
  · cases e; exact .refl _
  · split at e
    · cases e; exact .refl _
    · exact memKept_bound e

theorem memKept_mergeProduct {s s' : State} {d : Nat} {f : BitVec 8} {a b c h : Handle}
    (e : s.mergeProduct d f a b c = .ok (h, s')) : MemKept s s' := memKept_bound e

theorem memKept_form {s s' : State} {d : Nat} {f : BitVec 8} {b : Bool} {hs : List Handle} {h : Handle}
    (e : s.form d f b hs = .ok (h, s')) : MemKept s s' := by
  unfold State.form at e
  split at e
  · cases e
  · split at e
    · rename_i r hr; cases e; exact (memKept_readRecords s d f hs).trans (memKept_product hr)
    · cases e

theorem memKept_prod {s s' : State} {hs : List Handle} {h : Handle} (e : s.prod hs = .ok (h, s')) : MemKept s s' := by
  unfold State.prod at e
  split at e
  · rename_i r hr; cases e; exact memKept_form hr
  · cases e

theorem memKept_fold {s s' : State} {hs : List Handle} (e : s.fold hs = .ok s') : MemKept s s' := by
  unfold State.fold at e
  cases hp : s.prod (s.strm.dep :: hs) with
  | error x => rw [hp] at e; cases e
  | ok r => rw [hp] at e; cases e; exact (memKept_prod (h := r.1) (s' := r.2) hp).trans (.same rfl)

theorem memKept_writeX {s s' : State} {d : BitVec 5} {v : Word} {hs : List Handle} (e : s.writeX d v hs = .ok s') : MemKept s s' := by
  unfold State.writeX at e
  split at e
  · cases e; exact .refl _
  · cases hp : s.prod (hs ++ [s.dep]) with
    | error x => rw [hp] at e; cases e
    | ok r => rw [hp] at e; cases e; exact (memKept_prod (h := r.1) (s' := r.2) hp).trans (.same (State.putX_mem _ _ _))

/-- The label of a load keeps the memories' form, whichever nogoods it is Cleaned against. -/
theorem memKept_prodLoaded {s s' : State} {hs : List Handle} {h : Handle} (e : s.prodLoaded hs = .ok (h, s')) : MemKept s s' := by
  unfold State.prodLoaded at e
  split at e
  · exact memKept_prod e
  · rename_i k _
    simp only [bind, Except.bind] at e
    split at e
    · cases e
    · rename_i r hr
      cases e
      exact ((memKept_prod (h := r.1) (s' := r.2) hr).from rfl).upTo rfl

theorem memKept_writeLoaded {s s' : State} {d : BitVec 5} {v : Word} {hs : List Handle} (e : s.writeLoaded d v hs = .ok s') :
    MemKept s s' := by
  unfold State.writeLoaded at e
  split at e
  · cases e; exact .refl _
  · cases hp : s.prodLoaded (hs ++ [s.dep]) with
    | error x => rw [hp] at e; cases e
    | ok r => rw [hp] at e; cases e; exact (memKept_prodLoaded (h := r.1) (s' := r.2) hp).trans (.same (State.putX_mem _ _ _))

/-! ### Retirement -/

theorem State.stepRetire_mem (s : State) (c u st : Nat) : (s.stepRetire c u st).mem = s.mem := s.modCore_mem _ _

theorem State.passEarly_mem (s : State) (p : Nat) (i : Instr) : (s.passEarly p i).mem = s.mem := by
  unfold State.passEarly; split <;> rfl

theorem State.await_mem (s : State) (k : WaitKind) : (s.await k).mem = s.mem := by
  have h : (s.block k).mem = s.mem := by
    unfold State.block
    split
    · split <;> rfl
    · rfl
  unfold State.await
  simp only
  split
  · exact h
  · exact h

theorem memKept_retire (s : State) (len : Nat) (d : Done) (ha : ∀ t, MemKept t (d.after t)) : MemKept d.st (s.retire len d) := by
  unfold State.retire
  refine MemKept.trans (.same ?_) (ha _)
  rw [State.stepRetire_mem]
  split
  · rfl
  · rfl
  · split <;> rfl

/-- What an instruction's effect must keep so that the instruction keeps the memories' form. -/
structure BodyKeeps (b : Body) (s : State) : Prop where
  ok : ∀ d, b s = .ok d → MemKept s d.st ∧ ∀ t, MemKept t (d.after t)
  passed : ∀ t s', b s = .error (.passed t s') → MemKept s s'
  wait : ∀ k s', b s = .error (.wait k (some s')) → MemKept s s'

theorem memKept_leave (s : State) : BodyKeeps State.leave s := by
  refine ⟨?_, ?_, ?_⟩
  · intro d h
    unfold State.leave State.finish at h
    repeat' split at h
    all_goals first | (cases h; done) | (cases h; exact ⟨.same (State.endTask_mem _ _ _), .refl⟩)
  · intro t s' h
    unfold State.leave State.finish at h
    repeat' split at h
    all_goals cases h
  · intro k s' h
    unfold State.leave State.finish at h
    repeat' split at h
    all_goals first | (cases h; done) | (cases h; exact .same rfl)

/-- A wait that begins keeps the memories' form, also where the task leaves it at once. -/
theorem memKept_awaits {b : Body} {s : State} (hb : BodyKeeps b s) :
    BodyKeeps (fun s => match b s with
      | .error (.wait k s') => (s'.getD s).awaits k
      | r => r) s := by
  have hm : ∀ s' : Option State, ∀ k, b s = .error (.wait k s') → MemKept s (s'.getD s) := by
    intro s' k h
    cases s' with
    | none => exact .refl s
    | some s' => exact hb.wait _ _ h
  cases h : b s with
  | ok d => exact ⟨fun d' e => by simp only [h] at e; cases e; exact hb.ok _ h, fun _ _ e => by simp [h] at e, fun _ _ e => by simp [h] at e⟩
  | error e =>
    cases e with
    | trap t => exact ⟨fun _ e => by simp [h] at e, fun _ _ e => by simp [h] at e, fun _ _ e => by simp [h] at e⟩
    | passed t s' =>
      exact ⟨fun _ e => by simp [h] at e, fun _ _ e => by simp only [h] at e; cases e; exact hb.passed _ _ h, fun _ _ e => by simp [h] at e⟩
    | wait k s' =>
      have hk := hm s' k h
      by_cases hc : ((s'.getD s).task.moot && (decide (k = .wake) || decide (k = .barrier))) = true
      · have hl := memKept_leave (s'.getD s)
        have e : ∀ r, (s'.getD s).awaits k = r ↔ (s'.getD s).leave = r := by
          intro r; unfold State.awaits; rw [if_pos hc]
        refine ⟨fun d hd => ?_, fun t u hd => ?_, fun k' u hd => ?_⟩
        · simp only [h] at hd
          exact ⟨hk.trans (hl.ok d ((e _).mp hd)).1, (hl.ok d ((e _).mp hd)).2⟩
        · simp only [h] at hd
          exact hk.trans (hl.passed _ _ ((e _).mp hd))
        · simp only [h] at hd
          exact hk.trans (hl.wait _ _ ((e _).mp hd))
      · have e : (s'.getD s).awaits k = .error (.wait k (some (s'.getD s))) := by
          unfold State.awaits; rw [if_neg hc]; rfl
        refine ⟨fun d hd => ?_, fun t u hd => ?_, fun k' u hd => ?_⟩
        · simp only [h, e] at hd; cases hd
        · simp only [h, e] at hd; cases hd
        · simp only [h, e] at hd; cases hd; exact hk

theorem memKept_complete {s t : State} {len enc : Nat} {b : Body} (hb : BodyKeeps b s) (e : s.complete len enc b = .next t) :
    MemKept s t := by
  have hw := memKept_awaits hb
  have hf := memKept_leave s
  unfold State.complete at e
  split at e
  · cases e; exact memKept_takeTrap _ _
  · simp only at e
    generalize hr : (if s.leaves = true then State.leave s else match b s with
      | .error (.wait k s') => (s'.getD s).awaits k
      | r => r) = r at e
    have key : (∀ d, r = .ok d → MemKept s d.st ∧ ∀ t, MemKept t (d.after t)) ∧ (∀ t s', r = .error (.passed t s') → MemKept s s')
        ∧ ∀ k s', r = .error (.wait k (some s')) → MemKept s s' := by
      subst hr
      split
      · exact ⟨hf.ok, hf.passed, hf.wait⟩
      · exact ⟨hw.ok, hw.passed, hw.wait⟩
    obtain ⟨k1, k2, k3⟩ := key
    split at e
    · cases e; exact memKept_takeTrap _ _
    · rename_i t' s'
      injection e with e
      subst e
      split
      · exact memKept_takeTrap _ _
      · exact (k2 _ _ rfl).trans (memKept_takeTrap _ _)
    · rename_i k s'
      injection e with e
      subst e
      split
      · exact memKept_takeTrap _ _
      · refine MemKept.upTo ?_ (State.await_mem _ _)
        cases s' with
        | none => exact .refl s
        | some s' => exact k3 _ _ rfl
    · rename_i d
      injection e with e
      subst e
      split
      · exact memKept_takeTrap _ _
      · exact (k1 d rfl).1.trans (memKept_retire s _ d (k1 d rfl).2)

/-- An encoded instruction keeps the memories' form if its effect does. -/
theorem memKept_run {s t : State} {i : Instr} {b : Body} (hb : BodyKeeps b s) (e : s.run i b = .next t) : MemKept s t := by
  unfold State.run at e
  refine memKept_complete ?_ e
  have ht : ∀ c v, BodyKeeps (fun _ => trap c v) s := fun c v =>
    ⟨fun _ h => (nomatch h), fun _ _ h => (nomatch h), fun _ _ h => (nomatch h)⟩
  split
  · exact ht _ _
  · split
    · refine ⟨fun d h => ?_, fun t s' h => ?_, fun k s' h => ?_⟩
      · cases hd : b s with
        | error x => simp [hd, Except.map] at h
        | ok d' =>
          simp only [hd, Except.map] at h
          cases h
          exact ⟨(hb.ok d' hd).1.upTo (State.passEarly_mem _ _ _), (hb.ok d' hd).2⟩
      · cases hd : b s with
        | error x => simp only [hd, Except.map] at h; cases h; exact hb.passed _ _ hd
        | ok d' => simp [hd, Except.map] at h
      · cases hd : b s with
        | error x => simp only [hd, Except.map] at h; cases h; exact hb.wait _ _ hd
        | ok d' => simp [hd, Except.map] at h
    · exact ht _ _

/-! ### Loads and stores -/

theorem State.replaces_mem (s : State) (x : CacheWay) (pa : Nat) : (s.replaces x pa).mem = s.mem := by
  unfold State.replaces; split <;> rfl

theorem State.sliceTouch_mem (s : State) (pa : Nat) (w : Bool) : (s.sliceTouch pa w).mem = s.mem := by
  unfold State.sliceTouch
  simp only
  repeat' split
  all_goals first | rfl | exact State.replaces_mem _ _ _

theorem State.overtake_mem (s : State) (b : Bool) (p : Space) (a n k : Nat) : (s.overtake b p a n k).mem = s.mem := by
  unfold State.overtake; split <;> rfl

theorem State.accessed_mem (s : State) (b : Bool) (l : Loc) : (s.accessed b l).mem = s.mem := by
  unfold State.accessed
  simp only
  split <;> exact State.overtake_mem _ _ _ _ _ _

theorem memKept_readGranule {s s' : State} {l : Loc} {a n : Nat} {bs : List Byte} {hs : List Handle}
    (e : s.readGranule l a n = .ok (bs, hs, s')) : MemKept s s' := by
  unfold State.readGranule at e
  split at e
  · cases e
  · simp only at e
    split at e
    · cases e
    · have h := MemKept.foldl (f := fun (s : State) t => s.correct l.space t) (fun s t => memKept_correct s l.space t)
        ((atomsOf a n).filter (s.mends l.space)) s
      injection e with e
      injection e with _ e
      injection e with _ e
      subst e
      refine h.trans ?_
      split
      · split <;> (refine .same ?_; split <;> first | rfl | exact State.sliceTouch_mem _ _ _)
      · exact .refl _

theorem memKept_loadGranule {s s' : State} {l : Loc} {a n : Nat} {bs : List Byte} {hs : List Handle}
    (e : s.loadGranule l a n = .ok (bs, hs, s')) : MemKept s s' := by
  unfold State.loadGranule at e
  simp only at e
  repeat' split at e
  all_goals first
    | (cases e; done)
    | exact memKept_readGranule e
    | (cases e; exact .refl _)

theorem State.readNow_mem (s : State) : s.readNow.mem = s.mem := by unfold State.readNow; split <;> rfl

theorem memKept_loadGranules {s s' : State} {l : Loc} {gs : List (Nat × Nat)} {bs : List Byte} {hs : List Handle}
    (e : s.loadGranules l gs = .ok (bs, hs, s')) : MemKept s s' := by
  induction gs generalizing s bs hs with
  | nil => cases e; exact .refl _
  | cons g gs ih =>
    obtain ⟨a, n⟩ := g
    unfold State.loadGranules at e
    have early : ∀ {b h s1}, (match s.earlyAt l a n with
        | some x => Except.ok (x.bytes, x.lbls, s.takeEarly x)
        | none => (s.loadGranule l a n).map fun (r : List Byte × List Handle × State) => (r.1, r.2.1, r.2.2.readNow)) = .ok (b, h, s1) → MemKept s s1 := by
      intro b h s1 e
      split at e
      · cases e; exact .same rfl
      · cases hg : s.loadGranule l a n with
        | error x => rw [hg] at e; cases e
        | ok r =>
          rw [hg] at e
          cases e
          exact (memKept_loadGranule (bs := r.1) (hs := r.2.1) (s' := r.2.2) hg).upTo (State.readNow_mem _)
    simp only [bind, Except.bind] at e
    split at e
    · cases e
    · rename_i r hr
      obtain ⟨b, h, s1⟩ := r
      cases h2 : s1.loadGranules l gs with
      | error x => simp only [h2] at e; cases e
      | ok r =>
        obtain ⟨b', h', s2⟩ := r
        simp only [h2] at e
        cases e
        exact (early hr).trans (ih h2)

theorem memKept_loadLocs {s s' : State} {used : Nat} {ls : List Loc} {bs : List Byte} {hs : List Handle}
    (e : s.loadLocs used ls = .ok (bs, hs, s')) : MemKept s s' := by
  induction ls generalizing s used bs hs with
  | nil => cases e; exact .refl _
  | cons l ls ih =>
    unfold State.loadLocs at e
    split at e
    · cases h1 : s.loadGranules l l.granules with
      | error x => simp only [bind, Except.bind, Except.map, h1] at e; cases e
      | ok r =>
        simp only [bind, Except.bind, Except.map, h1] at e
        cases h2 : (r.2.2.accessed true l).loadLocs (if l.remote.isSome then used + l.len else used) ls with
        | error x => simp only [h2] at e; cases e
        | ok r' =>
          simp only [h2] at e
          cases e
          exact ((memKept_loadGranules (bs := r.1) (hs := r.2.1) h1).upTo (State.accessed_mem _ _ _)).trans (ih h2)
    · split at e
      · simp only [bind, Except.bind] at e
        cases h2 : (s.overtake true .main 0 0 l.kind).loadLocs (if l.remote.isSome then used + l.len else used) ls with
        | error x => simp only [h2] at e; cases e
        | ok r' => simp only [h2] at e; cases e; exact (ih h2).from (State.overtake_mem _ _ _ _ _ _)
      · split at e <;> cases e

theorem memKept_load {s s' : State} {ea : Word} {n : Nat} {bs : List Byte} {hs : List Handle}
    (e : s.load ea n = .ok (bs, hs, s')) : MemKept s s' := by
  unfold State.load at e
  cases h1 : s.resolve .load ea n with
  | error x => rw [h1] at e; cases e
  | ok ls => rw [h1] at e; exact memKept_loadLocs e

theorem memKept_mendPart (s : State) (w : Bool) (p : Space) (t : Nat) : MemKept s (s.mendPart w p t) := by
  unfold State.mendPart; split
  · exact memKept_correct s p t
  · exact .refl s

theorem memKept_storeLabel {s s' : State} {e : SbEntry} {w : Bool} {old h : Handle} (hx : s.storeLabel e w old = .ok (h, s')) :
    MemKept s s' := by
  unfold State.storeLabel at hx
  split at hx
  · cases hx; exact .refl _
  · exact memKept_product hx
  · exact (memKept_readRecords _ _ _ _).trans (memKept_product hx)

theorem memKept_writeLabelled (s : State) (e : SbEntry) (t : Nat) : MemKept s (s.writeLabelled e t) := by
  unfold State.writeLabelled
  simp only
  split
  · exact .refl s
  · have hm := memKept_mendPart s (decide ((e.part t).2.length = 32)) e.space t
    generalize s.mendPart (decide ((e.part t).2.length = 32)) e.space t = s0 at hm ⊢
    have h0 : MemKept s0 (if e.space = .main then s0.wakeUnit (t * 32 / 65536) else s0) := by
      split
      · exact memKept_wakeUnit _ _
      · exact .refl s0
    split
    · exact hm.upTo (State.suppress_mem _ _ _)
    · rename_i h s1 hp
      have h2 := ((hm.trans h0).trans (memKept_storeLabel hp)).trans
        ((memKept_putSpace s1 e.space (e.part t).1 (e.part t).2).trans (memKept_putSide _ e.space t h))
      split
      · exact h2.trans (memKept_clearEcc _ _ _)
      · exact h2

theorem memKept_writePlainAtom (s : State) (e : SbEntry) (t : Nat) : MemKept s (s.writePlainAtom e t) := by
  unfold State.writePlainAtom
  simp only
  split
  · exact .refl s
  · have h2 := (memKept_mendPart s (decide ((e.part t).2.length = 32)) e.space t).trans
      ((memKept_putSpace _ e.space (e.part t).1 (e.part t).2).trans (memKept_putSide _ e.space t always))
    split
    · exact h2.trans (memKept_clearEcc _ _ _)
    · exact h2

theorem State.testStore_mem (s : State) (e : SbEntry) : (s.testStore e).2.mem = s.mem := by
  unfold State.testStore; simp only; split
  · rfl
  · split <;> rfl

theorem memKept_applyStore (s : State) (e : SbEntry) : MemKept s (s.applyStore e) := by
  unfold State.applyStore
  simp only
  split
  · exact memKept_record _ _ _
  · have h0 : MemKept s (if e.space = .main then s.sliceTouch e.addr true else s) := by
      split
      · exact .same (State.sliceTouch_mem _ _ _)
      · exact .refl s
    generalize (if e.space = .main then s.sliceTouch e.addr true else s) = s0 at h0 ⊢
    generalize (if e.space = .spm then (s.coreAt (e.addr / 65536)).regs.lab else e.labelled) = lab
    refine h0.trans ?_
    split
    · exact .refl s0
    · split
      · exact MemKept.foldl (fun s t => memKept_writeLabelled s e t) _ _
      · refine (memKept_readRecords s0 (dieOf e.core) e.frame e.lbls).trans ?_
        refine MemKept.from ?_ (State.testStore_mem _ e)
        split
        · exact MemKept.foldl (fun s t => memKept_writePlainAtom s e t) _ _
        · exact .same (State.suppress_mem _ _ _)

theorem State.issueGranules_mem (s : State) (l : Loc) (bs : List Byte) (lbls : List Handle) (test : Option Nat) (ask : Option Asked)
    (prev : List Nat) (gs : List (Nat × Nat)) : (s.issueGranules l bs lbls test ask prev gs).mem = s.mem := by
  induction gs generalizing s bs prev with
  | nil => rfl
  | cons g gs ih => exact ih _ _ _

theorem memKept_performGranules (s : State) (l : Loc) (bs : List Byte) (lbls : List Handle) (test : Option Nat)
    (gs : List (Nat × Nat)) : MemKept s (s.performGranules l bs lbls test gs) := by
  induction gs generalizing s bs with
  | nil => exact .refl s
  | cons g gs ih => exact (memKept_applyStore _ _).trans (ih _ _)

theorem memKept_records {s s' : State} {hs : List Handle} (e : s.records hs = .ok s') : MemKept s s' := by
  unfold State.records at e
  split at e
  · cases e
  · cases e; exact memKept_readRecords _ _ _ _

theorem memKept_storeLoc {s s' : State} {now : Bool} {l : Loc} {bs : List Byte} {hs : List Handle} {test : Option Nat} {prev : List Nat}
    (e : s.storeLoc now l bs hs test prev = .ok s') : MemKept s s' := by
  unfold State.storeLoc at e
  have step : ∀ (lb : List Handle) (s1 : State), (match l.remote with
      | some home => (match s1.strm.reply with
        | some (.bytes _) => Except.ok s1
        | _ =>
          if (s1.farPreds l.kind).any s1.openIds.contains then wait .accesses
          else if s1.strm.shared.getD (s1.sees hs) then wait (s1.farWait l.ea home)
          else .ok s1.supp)
      | none =>
        if now && (s1.accessed false l).foreign l then .ok ((s1.accessed false l).performGranules l bs lb test l.granules)
        else .ok ((s1.accessed false l).issueGranules l bs lb test none prev l.granules)) = .ok s' → MemKept s1 s' := by
    intro lb s1 e
    split at e
    · split at e
      · cases e; exact .refl _
      · repeat' split at e
        all_goals first | (cases e; done) | (cases e; exact .same rfl)
    · split at e
      · cases e; exact (memKept_performGranules _ _ _ _ _ _).from (State.accessed_mem _ _ _)
      · cases e; exact .same ((State.issueGranules_mem _ _ _ _ _ _ _ _).trans (State.accessed_mem _ _ _))
  split at e
  · cases hp : s.prod (hs ++ [s.dep]) with
    | error x => simp only [bind, Except.bind, hp] at e; cases e
    | ok r =>
      simp only [bind, Except.bind, hp] at e
      exact (memKept_prod (h := r.1) (s' := r.2) hp).trans (step _ _ e)
  · cases hp : s.records (hs ++ [s.dep]) with
    | error x => simp only [bind, Except.bind, hp] at e; cases e
    | ok r =>
      simp only [bind, Except.bind, hp] at e
      exact (memKept_records hp).trans (step _ _ e)

theorem memKept_storeLocs {s s' : State} {now : Bool} {ls : List Loc} {bs : List Byte} {hs : List Handle} {test : Option Nat}
    {prev : List Nat} (e : s.storeLocs now bs hs test prev ls = .ok s') : MemKept s s' := by
  induction ls generalizing s bs prev with
  | nil => cases e; exact .refl _
  | cons l ls ih =>
    unfold State.storeLocs at e
    cases h1 : s.storeLoc now l (bs.take l.len) hs test prev with
    | error x => rw [h1] at e; cases e
    | ok s1 => rw [h1] at e; exact (memKept_storeLoc h1).trans (ih e)

theorem memKept_drain (s : State) (c i : Nat) : MemKept s (s.drain c i) := by
  unfold State.drain
  simp only
  split
  · exact .refl s
  · split
    · exact .refl s
    · exact .same (State.modCore_mem _ _ _)

/-- An element of the inbound queues performs as `f` has it. -/
theorem memKept_performBy {f : State → SbEntry → State} (hf : ∀ s e, MemKept s (f s e)) (s : State) (i : Nat) :
    MemKept s (s.performBy i f) := by
  unfold State.performBy
  split
  · exact .refl s
  · simp only
    repeat' split
    all_goals first
      | exact .refl s
      | exact .same rfl
      | exact (hf _ _).from rfl

theorem memKept_homeWrite (s : State) (pa : Nat) (bs : List Byte) : MemKept s (s.homeWrite pa bs) := by
  refine MemKept.foldl (fun s t => ?_) _ s
  simp only
  have h0 : MemKept s { s with coh := s.coh.uncache ((piece pa bs t).1 / 128) } := .same rfl
  generalize ({ s with coh := s.coh.uncache ((piece pa bs t).1 / 128) } : State) = s0 at h0 ⊢
  split
  · exact h0
  · exact h0.trans (((memKept_mendPart s0 _ _ _).upTo (State.sliceTouch_mem _ _ _)).trans (memKept_putPlain _ _ _))

theorem memKept_killUnit (s : State) (u : Nat) : MemKept s (s.killUnit u) := by
  intro h
  obtain ⟨h1, h2, h3, h4, h5, h6, h7, h8⟩ := (Memory.wf_iff _).mp h
  exact (Memory.wf_iff _).mpr ⟨h1, h2, h3, h4, h5, Tab.wf_filter _ _ _ h6, h7, Tab.wf_put _ _ _ _ h8⟩

theorem memKept_enterReduced (s : State) : MemKept s s.enterReduced := by
  intro h
  unfold State.enterReduced
  split
  · exact h
  · obtain ⟨h1, h2, h3, h4, h5, h6, h7, h8⟩ := (Memory.wf_iff _).mp h
    exact (Memory.wf_iff _).mpr ⟨Tab.wf_filter _ _ _ h1, h2, h3, Tab.wf_filter _ _ _ h4, h5, Tab.wf_filter _ _ _ h6, h7,
      Tab.wf_filter _ _ _ h8⟩

end Sys2Proof.Machine
end

