-- ==== Sys2Proof/Laws/PerInstr.lean ====
section
/-!
SUPPORT. For every instruction: the decoder reads the encoding that `encode` writes of it, every operand at every value
the encoding admits (R194, R198, R205).
-/

namespace Sys2Proof.Laws

/-- The decoder reads instruction `i` from the encoding of `i`. -/
def RoundTrip.Statement (i : Instr) : Prop :=
  ∀ n w, encode i = some (n, w) → wellFormed i = true → decodeTableWord n w = some i

theorem RoundTrip.bf_eq {n : Nat} (w lo : Nat) (x : BitVec n) (h : w / 2 ^ lo % 2 ^ n = x.toNat) : bf w lo n = x := by
  unfold bf fld; rw [h]; exact BitVec.ofNat_toNat n x |>.trans (BitVec.setWidth_eq x)

/-- Four bytes of a number below 2^32 spell it. -/
theorem RoundTrip.bytes4 (w : Nat) (h : w < 4294967296) :
    leNat [BitVec.ofNat 8 w, BitVec.ofNat 8 (w / 256), BitVec.ofNat 8 (w / 256 / 256), BitVec.ofNat 8 (w / 256 / 256 / 256)] = w := by
  simp only [leNat, BitVec.toNat_ofNat]; omega

/-- Two bytes of a number spell its low half. -/
theorem RoundTrip.bytes2 (w : Nat) : leNat [BitVec.ofNat 8 w, BitVec.ofNat 8 (w / 256)] = w % 65536 := by
  simp only [leNat, BitVec.toNat_ofNat]; omega

theorem RoundTrip.table32 {w : Nat} {i : Instr} (hw : w < 4294967296) (ho : w % 2 = 1) (h : decode32 w = .ok i) :
    decodeTableWord 32 w = some i := by
  have e : decode (leBytes (32 / 8) w ++ [0#8, 0#8, 0#8, 0#8]) = .ok (i, 4) := by
    change decode (BitVec.ofNat 8 w :: BitVec.ofNat 8 (w / 256) :: BitVec.ofNat 8 (w / 256 / 256)
      :: BitVec.ofNat 8 (w / 256 / 256 / 256) :: [0#8, 0#8, 0#8, 0#8]) = _
    unfold decode
    simp only [RoundTrip.bytes2, RoundTrip.bytes4 w hw, h]
    rw [if_neg (by omega)]
    rfl
  unfold decodeTableWord
  rw [e]

theorem RoundTrip.table16 {w : Nat} {i : Instr} (hw : w < 65536) (ho : w % 2 = 0) (h : decode16 w = .ok i) :
    decodeTableWord 16 w = some i := by
  have e : decode (leBytes (16 / 8) w ++ [0#8, 0#8, 0#8, 0#8]) = .ok (i, 2) := by
    change decode (BitVec.ofNat 8 w :: BitVec.ofNat 8 (w / 256) :: [0#8, 0#8, 0#8, 0#8]) = _
    unfold decode
    simp only [RoundTrip.bytes2, Nat.mod_eq_of_lt hw, h]
    rw [if_pos ho]
    rfl
  unfold decodeTableWord
  rw [e]

/-! ### One lemma per major opcode -/

theorem RoundTrip.of01 {w : Nat} {i : Instr} (hw : w < 4294967296) (ho : w % 2 = 1) (h : fld w 1 6 = 0x01)
    (hi : decMajor01 w = some i) (hf : wellFormed i = true) : decodeTableWord 32 w = some i :=
  RoundTrip.table32 hw ho (by unfold decode32; rw [h, hi]; exact if_pos hf)

theorem RoundTrip.of02 {w : Nat} {i : Instr} (hw : w < 4294967296) (ho : w % 2 = 1) (h : fld w 1 6 = 0x02)
    (hi : decMajor02 w = some i) (hf : wellFormed i = true) : decodeTableWord 32 w = some i :=
  RoundTrip.table32 hw ho (by unfold decode32; rw [h, hi]; exact if_pos hf)

theorem RoundTrip.of05 {w : Nat} {i : Instr} (hw : w < 4294967296) (ho : w % 2 = 1) (h : fld w 1 6 = 0x05)
    (hi : decMajor05 w = some i) (hf : wellFormed i = true) : decodeTableWord 32 w = some i :=
  RoundTrip.table32 hw ho (by unfold decode32; rw [h, hi]; exact if_pos hf)

theorem RoundTrip.of06 {w : Nat} {i : Instr} (hw : w < 4294967296) (ho : w % 2 = 1) (h : fld w 1 6 = 0x06)
    (hi : decMajor06 w = some i) (hf : wellFormed i = true) : decodeTableWord 32 w = some i :=
  RoundTrip.table32 hw ho (by unfold decode32; rw [h, hi]; exact if_pos hf)

theorem RoundTrip.of07 {w : Nat} {i : Instr} (hw : w < 4294967296) (ho : w % 2 = 1) (h : fld w 1 6 = 0x07)
    (hi : decMajor07 w = some i) (hf : wellFormed i = true) : decodeTableWord 32 w = some i :=
  RoundTrip.table32 hw ho (by unfold decode32; rw [h, hi]; exact if_pos hf)

theorem RoundTrip.of08 {w : Nat} {i : Instr} (hw : w < 4294967296) (ho : w % 2 = 1) (h : fld w 1 6 = 0x08)
    (hi : decMajor08 w = some i) (hf : wellFormed i = true) : decodeTableWord 32 w = some i :=
  RoundTrip.table32 hw ho (by unfold decode32; rw [h, hi]; exact if_pos hf)

theorem RoundTrip.of09 {w : Nat} {i : Instr} (hw : w < 4294967296) (ho : w % 2 = 1) (h : fld w 1 6 = 0x09)
    (hi : decMajor09 w = some i) (hf : wellFormed i = true) : decodeTableWord 32 w = some i :=
  RoundTrip.table32 hw ho (by unfold decode32; rw [h, hi]; exact if_pos hf)

theorem RoundTrip.of0A {w : Nat} {i : Instr} (hw : w < 4294967296) (ho : w % 2 = 1) (h : fld w 1 6 = 0x0A)
    (hi : decMajor0A w = some i) (hf : wellFormed i = true) : decodeTableWord 32 w = some i :=
  RoundTrip.table32 hw ho (by unfold decode32; rw [h, hi]; exact if_pos hf)

theorem RoundTrip.of0B {w : Nat} {i : Instr} (hw : w < 4294967296) (ho : w % 2 = 1) (h : fld w 1 6 = 0x0B)
    (hi : decMajor0B w = some i) (hf : wellFormed i = true) : decodeTableWord 32 w = some i :=
  RoundTrip.table32 hw ho (by unfold decode32; rw [h, hi]; exact if_pos hf)

theorem RoundTrip.of0C {w : Nat} {i : Instr} (hw : w < 4294967296) (ho : w % 2 = 1) (h : fld w 1 6 = 0x0C)
    (hi : decMajor0C w = some i) (hf : wellFormed i = true) : decodeTableWord 32 w = some i :=
  RoundTrip.table32 hw ho (by unfold decode32; rw [h, hi]; exact if_pos hf)

theorem RoundTrip.of0D {w : Nat} {i : Instr} (hw : w < 4294967296) (ho : w % 2 = 1) (h : fld w 1 6 = 0x0D)
    (hi : decMajor0D w = some i) (hf : wellFormed i = true) : decodeTableWord 32 w = some i :=
  RoundTrip.table32 hw ho (by unfold decode32; rw [h, hi]; exact if_pos hf)

theorem RoundTrip.of0E {w : Nat} {i : Instr} (hw : w < 4294967296) (ho : w % 2 = 1) (h : fld w 1 6 = 0x0E)
    (hi : decMajor0E w = some i) (hf : wellFormed i = true) : decodeTableWord 32 w = some i :=
  RoundTrip.table32 hw ho (by unfold decode32; rw [h, hi]; exact if_pos hf)

theorem RoundTrip.of0F {w : Nat} {i : Instr} (hw : w < 4294967296) (ho : w % 2 = 1) (h : fld w 1 6 = 0x0F)
    (hi : decMajor0F w = some i) (hf : wellFormed i = true) : decodeTableWord 32 w = some i :=
  RoundTrip.table32 hw ho (by unfold decode32; rw [h, hi]; exact if_pos hf)

theorem RoundTrip.of10 {w : Nat} {i : Instr} (hw : w < 4294967296) (ho : w % 2 = 1) (h : fld w 1 6 = 0x10)
    (hi : decMajor10 w = some i) (hf : wellFormed i = true) : decodeTableWord 32 w = some i :=
  RoundTrip.table32 hw ho (by unfold decode32; rw [h, hi]; exact if_pos hf)

theorem RoundTrip.of11 {w : Nat} {i : Instr} (hw : w < 4294967296) (ho : w % 2 = 1) (h : fld w 1 6 = 0x11)
    (hi : decMajor11 w = some i) (hf : wellFormed i = true) : decodeTableWord 32 w = some i :=
  RoundTrip.table32 hw ho (by unfold decode32; rw [h, hi]; exact if_pos hf)

theorem RoundTrip.of12 {w : Nat} {i : Instr} (hw : w < 4294967296) (ho : w % 2 = 1) (h : fld w 1 6 = 0x12)
    (hi : decMajor12 w = some i) (hf : wellFormed i = true) : decodeTableWord 32 w = some i :=
  RoundTrip.table32 hw ho (by unfold decode32; rw [h, hi]; exact if_pos hf)

theorem RoundTrip.of13 {w : Nat} {i : Instr} (hw : w < 4294967296) (ho : w % 2 = 1) (h : fld w 1 6 = 0x13)
    (hi : decMajor13 w = some i) (hf : wellFormed i = true) : decodeTableWord 32 w = some i :=
  RoundTrip.table32 hw ho (by unfold decode32; rw [h, hi]; exact if_pos hf)

theorem RoundTrip.of14 {w : Nat} {i : Instr} (hw : w < 4294967296) (ho : w % 2 = 1) (h : fld w 1 6 = 0x14)
    (hi : decMajor14 w = some i) (hf : wellFormed i = true) : decodeTableWord 32 w = some i :=
  RoundTrip.table32 hw ho (by unfold decode32; rw [h, hi]; exact if_pos hf)

theorem RoundTrip.of15 {w : Nat} {i : Instr} (hw : w < 4294967296) (ho : w % 2 = 1) (h : fld w 1 6 = 0x15)
    (hi : decMajor15 w = some i) (hf : wellFormed i = true) : decodeTableWord 32 w = some i :=
  RoundTrip.table32 hw ho (by unfold decode32; rw [h, hi]; exact if_pos hf)

theorem RoundTrip.of16 {w : Nat} {i : Instr} (hw : w < 4294967296) (ho : w % 2 = 1) (h : fld w 1 6 = 0x16)
    (hi : decMajor16 w = some i) (hf : wellFormed i = true) : decodeTableWord 32 w = some i :=
  RoundTrip.table32 hw ho (by unfold decode32; rw [h, hi]; exact if_pos hf)

theorem RoundTrip.of17 {w : Nat} {i : Instr} (hw : w < 4294967296) (ho : w % 2 = 1) (h : fld w 1 6 = 0x17)
    (hi : decMajor17 w = some i) (hf : wellFormed i = true) : decodeTableWord 32 w = some i :=
  RoundTrip.table32 hw ho (by unfold decode32; rw [h, hi]; exact if_pos hf)

theorem RoundTrip.of18 {w : Nat} {i : Instr} (hw : w < 4294967296) (ho : w % 2 = 1) (h : fld w 1 6 = 0x18)
    (hi : decMajor18 w = some i) (hf : wellFormed i = true) : decodeTableWord 32 w = some i :=
  RoundTrip.table32 hw ho (by unfold decode32; rw [h, hi]; exact if_pos hf)

theorem RoundTrip.of19 {w : Nat} {i : Instr} (hw : w < 4294967296) (ho : w % 2 = 1) (h : fld w 1 6 = 0x19)
    (hi : decMajor19 w = some i) (hf : wellFormed i = true) : decodeTableWord 32 w = some i :=
  RoundTrip.table32 hw ho (by unfold decode32; rw [h, hi]; exact if_pos hf)

theorem RoundTrip.of1A {w : Nat} {i : Instr} (hw : w < 4294967296) (ho : w % 2 = 1) (h : fld w 1 6 = 0x1A)
    (hi : decMajor1A w = some i) (hf : wellFormed i = true) : decodeTableWord 32 w = some i :=
  RoundTrip.table32 hw ho (by unfold decode32; rw [h, hi]; exact if_pos hf)

theorem RoundTrip.of1B {w : Nat} {i : Instr} (hw : w < 4294967296) (ho : w % 2 = 1) (h : fld w 1 6 = 0x1B)
    (hi : decMajor1B w = some i) (hf : wellFormed i = true) : decodeTableWord 32 w = some i :=
  RoundTrip.table32 hw ho (by unfold decode32; rw [h, hi]; exact if_pos hf)

theorem RoundTrip.of1C {w : Nat} {i : Instr} (hw : w < 4294967296) (ho : w % 2 = 1) (h : fld w 1 6 = 0x1C)
    (hi : decMajor1C w = some i) (hf : wellFormed i = true) : decodeTableWord 32 w = some i :=
  RoundTrip.table32 hw ho (by unfold decode32; rw [h, hi]; exact if_pos hf)

theorem RoundTrip.of1D {w : Nat} {i : Instr} (hw : w < 4294967296) (ho : w % 2 = 1) (h : fld w 1 6 = 0x1D)
    (hi : decMajor1D w = some i) (hf : wellFormed i = true) : decodeTableWord 32 w = some i :=
  RoundTrip.table32 hw ho (by unfold decode32; rw [h, hi]; exact if_pos hf)

theorem RoundTrip.of1E {w : Nat} {i : Instr} (hw : w < 4294967296) (ho : w % 2 = 1) (h : fld w 1 6 = 0x1E)
    (hi : decMajor1E w = some i) (hf : wellFormed i = true) : decodeTableWord 32 w = some i :=
  RoundTrip.table32 hw ho (by unfold decode32; rw [h, hi]; exact if_pos hf)

theorem RoundTrip.of1F {w : Nat} {i : Instr} (hw : w < 4294967296) (ho : w % 2 = 1) (h : fld w 1 6 = 0x1F)
    (hi : decMajor1F w = some i) (hf : wellFormed i = true) : decodeTableWord 32 w = some i :=
  RoundTrip.table32 hw ho (by unfold decode32; rw [h, hi]; exact if_pos hf)

theorem RoundTrip.of20 {w : Nat} {i : Instr} (hw : w < 4294967296) (ho : w % 2 = 1) (h : fld w 1 6 = 0x20)
    (hi : decMajor20 w = some i) (hf : wellFormed i = true) : decodeTableWord 32 w = some i :=
  RoundTrip.table32 hw ho (by unfold decode32; rw [h, hi]; exact if_pos hf)

/-! ### One lemma per arrangement of fields -/

theorem RoundTrip.form0 (x0 : BitVec 5) (x1 : BitVec 5) (x2 : BitVec 5) (c0 c1 c2 : Nat) (k0 : c0 < 64) (k1 : c1 < 8) (k2 : c2 < 128) :
    let W := (1 + c0 * 2 + c1 * 131072 + c2 * 33554432) + x0.toNat * 128 + x1.toNat * 4096 + x2.toNat * 1048576
    W < 4294967296 ∧ W % 2 = 1 ∧ fld W 1 6 = c0 ∧ fld W 17 3 = c1 ∧ fld W 25 7 = c2 ∧ bf W 7 5 = x0 ∧ bf W 12 5 = x1 ∧ bf W 20 5 = x2 := by
  intro W
  have bx0 := x0.isLt
  have bx1 := x1.isLt
  have bx2 := x2.isLt
  have hW : W = (1 + c0 * 2 + c1 * 131072 + c2 * 33554432) + x0.toNat * 128 + x1.toNat * 4096 + x2.toNat * 1048576 := rfl
  clear_value W
  refine ⟨by omega, by omega, by unfold fld; omega, by unfold fld; omega, by unfold fld; omega, RoundTrip.bf_eq _ _ _ (by omega), RoundTrip.bf_eq _ _ _ (by omega), RoundTrip.bf_eq _ _ _ (by omega)⟩

theorem RoundTrip.form1 (x0 : BitVec 5) (x1 : BitVec 5) (c0 c1 c2 c3 : Nat) (k0 : c0 < 64) (k1 : c1 < 8) (k2 : c2 < 32) (k3 : c3 < 128) :
    let W := (1 + c0 * 2 + c1 * 131072 + c2 * 1048576 + c3 * 33554432) + x0.toNat * 128 + x1.toNat * 4096
    W < 4294967296 ∧ W % 2 = 1 ∧ fld W 1 6 = c0 ∧ fld W 17 3 = c1 ∧ fld W 20 5 = c2 ∧ fld W 25 7 = c3 ∧ bf W 7 5 = x0 ∧ bf W 12 5 = x1 := by
  intro W
  have bx0 := x0.isLt
  have bx1 := x1.isLt
  have hW : W = (1 + c0 * 2 + c1 * 131072 + c2 * 1048576 + c3 * 33554432) + x0.toNat * 128 + x1.toNat * 4096 := rfl
  clear_value W
  refine ⟨by omega, by omega, by unfold fld; omega, by unfold fld; omega, by unfold fld; omega, by unfold fld; omega, RoundTrip.bf_eq _ _ _ (by omega), RoundTrip.bf_eq _ _ _ (by omega)⟩

theorem RoundTrip.form2 (x0 : BitVec 5) (x1 : BitVec 5) (x2 : BitVec 12) (c0 c1 : Nat) (k0 : c0 < 64) (k1 : c1 < 8) :
    let W := (1 + c0 * 2 + c1 * 131072) + x0.toNat * 128 + x1.toNat * 4096 + x2.toNat * 1048576
    W < 4294967296 ∧ W % 2 = 1 ∧ fld W 1 6 = c0 ∧ fld W 17 3 = c1 ∧ bf W 7 5 = x0 ∧ bf W 12 5 = x1 ∧ bf W 20 12 = x2 := by
  intro W
  have bx0 := x0.isLt
  have bx1 := x1.isLt
  have bx2 := x2.isLt
  have hW : W = (1 + c0 * 2 + c1 * 131072) + x0.toNat * 128 + x1.toNat * 4096 + x2.toNat * 1048576 := rfl
  clear_value W
  refine ⟨by omega, by omega, by unfold fld; omega, by unfold fld; omega, RoundTrip.bf_eq _ _ _ (by omega), RoundTrip.bf_eq _ _ _ (by omega), RoundTrip.bf_eq _ _ _ (by omega)⟩

theorem RoundTrip.form3 (x0 : BitVec 5) (x1 : BitVec 5) (x2 : BitVec 6) (c0 c1 c2 : Nat) (k0 : c0 < 64) (k1 : c1 < 8) (k2 : c2 < 64) :
    let W := (1 + c0 * 2 + c1 * 131072 + c2 * 67108864) + x0.toNat * 128 + x1.toNat * 4096 + x2.toNat * 1048576
    W < 4294967296 ∧ W % 2 = 1 ∧ fld W 1 6 = c0 ∧ fld W 17 3 = c1 ∧ fld W 26 6 = c2 ∧ bf W 7 5 = x0 ∧ bf W 12 5 = x1 ∧ bf W 20 6 = x2 := by
  intro W
  have bx0 := x0.isLt
  have bx1 := x1.isLt
  have bx2 := x2.isLt
  have hW : W = (1 + c0 * 2 + c1 * 131072 + c2 * 67108864) + x0.toNat * 128 + x1.toNat * 4096 + x2.toNat * 1048576 := rfl
  clear_value W
  refine ⟨by omega, by omega, by unfold fld; omega, by unfold fld; omega, by unfold fld; omega, RoundTrip.bf_eq _ _ _ (by omega), RoundTrip.bf_eq _ _ _ (by omega), RoundTrip.bf_eq _ _ _ (by omega)⟩

theorem RoundTrip.form4 (x0 : BitVec 5) (x1 : BitVec 20) (c0 : Nat) (k0 : c0 < 64) :
    let W := (1 + c0 * 2) + x0.toNat * 128 + x1.toNat * 4096
    W < 4294967296 ∧ W % 2 = 1 ∧ fld W 1 6 = c0 ∧ bf W 7 5 = x0 ∧ bf W 12 20 = x1 := by
  intro W
  have bx0 := x0.isLt
  have bx1 := x1.isLt
  have hW : W = (1 + c0 * 2) + x0.toNat * 128 + x1.toNat * 4096 := rfl
  clear_value W
  refine ⟨by omega, by omega, by unfold fld; omega, RoundTrip.bf_eq _ _ _ (by omega), RoundTrip.bf_eq _ _ _ (by omega)⟩

theorem RoundTrip.form5 (x0 : BitVec 1) (x1 : BitVec 5) (x2 : BitVec 12) (c0 c1 c2 : Nat) (k0 : c0 < 64) (k1 : c1 < 16) (k2 : c2 < 8) :
    let W := (1 + c0 * 2 + c1 * 256 + c2 * 131072) + x0.toNat * 128 + x1.toNat * 4096 + x2.toNat * 1048576
    W < 4294967296 ∧ W % 2 = 1 ∧ fld W 1 6 = c0 ∧ fld W 8 4 = c1 ∧ fld W 17 3 = c2 ∧ bf W 7 1 = x0 ∧ bf W 12 5 = x1 ∧ bf W 20 12 = x2 := by
  intro W
  have bx0 := x0.isLt
  have bx1 := x1.isLt
  have bx2 := x2.isLt
  have hW : W = (1 + c0 * 2 + c1 * 256 + c2 * 131072) + x0.toNat * 128 + x1.toNat * 4096 + x2.toNat * 1048576 := rfl
  clear_value W
  refine ⟨by omega, by omega, by unfold fld; omega, by unfold fld; omega, by unfold fld; omega, RoundTrip.bf_eq _ _ _ (by omega), RoundTrip.bf_eq _ _ _ (by omega), RoundTrip.bf_eq _ _ _ (by omega)⟩

theorem RoundTrip.form6 (x0 : BitVec 1) (c0 c1 c2 c3 : Nat) (k0 : c0 < 64) (k1 : c1 < 512) (k2 : c2 < 8) (k3 : c3 < 4096) :
    let W := (1 + c0 * 2 + c1 * 256 + c2 * 131072 + c3 * 1048576) + x0.toNat * 128
    W < 4294967296 ∧ W % 2 = 1 ∧ fld W 1 6 = c0 ∧ fld W 8 9 = c1 ∧ fld W 17 3 = c2 ∧ fld W 20 12 = c3 ∧ bf W 7 1 = x0 := by
  intro W
  have bx0 := x0.isLt
  have hW : W = (1 + c0 * 2 + c1 * 256 + c2 * 131072 + c3 * 1048576) + x0.toNat * 128 := rfl
  clear_value W
  refine ⟨by omega, by omega, by unfold fld; omega, by unfold fld; omega, by unfold fld; omega, by unfold fld; omega, RoundTrip.bf_eq _ _ _ (by omega)⟩

theorem RoundTrip.form7 (x0 : BitVec 12) (c0 c1 c2 : Nat) (k0 : c0 < 64) (k1 : c1 < 1024) (k2 : c2 < 8) :
    let W := (1 + c0 * 2 + c1 * 128 + c2 * 131072) + x0.toNat * 1048576
    W < 4294967296 ∧ W % 2 = 1 ∧ fld W 1 6 = c0 ∧ fld W 7 10 = c1 ∧ fld W 17 3 = c2 ∧ bf W 20 12 = x0 := by
  intro W
  have bx0 := x0.isLt
  have hW : W = (1 + c0 * 2 + c1 * 128 + c2 * 131072) + x0.toNat * 1048576 := rfl
  clear_value W
  refine ⟨by omega, by omega, by unfold fld; omega, by unfold fld; omega, by unfold fld; omega, RoundTrip.bf_eq _ _ _ (by omega)⟩

theorem RoundTrip.form8 (x0 : BitVec 5) (x1 : BitVec 2) (c0 c1 c2 c3 : Nat) (k0 : c0 < 64) (k1 : c1 < 32) (k2 : c2 < 8) (k3 : c3 < 1024) :
    let W := (1 + c0 * 2 + c1 * 128 + c2 * 131072 + c3 * 4194304) + x0.toNat * 4096 + x1.toNat * 1048576
    W < 4294967296 ∧ W % 2 = 1 ∧ fld W 1 6 = c0 ∧ fld W 7 5 = c1 ∧ fld W 17 3 = c2 ∧ fld W 22 10 = c3 ∧ bf W 12 5 = x0 ∧ bf W 20 2 = x1 := by
  intro W
  have bx0 := x0.isLt
  have bx1 := x1.isLt
  have hW : W = (1 + c0 * 2 + c1 * 128 + c2 * 131072 + c3 * 4194304) + x0.toNat * 4096 + x1.toNat * 1048576 := rfl
  clear_value W
  refine ⟨by omega, by omega, by unfold fld; omega, by unfold fld; omega, by unfold fld; omega, by unfold fld; omega, RoundTrip.bf_eq _ _ _ (by omega), RoundTrip.bf_eq _ _ _ (by omega)⟩

theorem RoundTrip.form9 (x0 : BitVec 5) (x1 : BitVec 2) (c0 c1 c2 c3 : Nat) (k0 : c0 < 64) (k1 : c1 < 32) (k2 : c2 < 8) (k3 : c3 < 1024) :
    let W := (1 + c0 * 2 + c1 * 4096 + c2 * 131072 + c3 * 4194304) + x0.toNat * 128 + x1.toNat * 1048576
    W < 4294967296 ∧ W % 2 = 1 ∧ fld W 1 6 = c0 ∧ fld W 12 5 = c1 ∧ fld W 17 3 = c2 ∧ fld W 22 10 = c3 ∧ bf W 7 5 = x0 ∧ bf W 20 2 = x1 := by
  intro W
  have bx0 := x0.isLt
  have bx1 := x1.isLt
  have hW : W = (1 + c0 * 2 + c1 * 4096 + c2 * 131072 + c3 * 4194304) + x0.toNat * 128 + x1.toNat * 1048576 := rfl
  clear_value W
  refine ⟨by omega, by omega, by unfold fld; omega, by unfold fld; omega, by unfold fld; omega, by unfold fld; omega, RoundTrip.bf_eq _ _ _ (by omega), RoundTrip.bf_eq _ _ _ (by omega)⟩

theorem RoundTrip.form10 (x0 : BitVec 5) (x1 : BitVec 5) (c0 c1 c2 c3 : Nat) (k0 : c0 < 64) (k1 : c1 < 32) (k2 : c2 < 8) (k3 : c3 < 128) :
    let W := (1 + c0 * 2 + c1 * 128 + c2 * 131072 + c3 * 33554432) + x0.toNat * 4096 + x1.toNat * 1048576
    W < 4294967296 ∧ W % 2 = 1 ∧ fld W 1 6 = c0 ∧ fld W 7 5 = c1 ∧ fld W 17 3 = c2 ∧ fld W 25 7 = c3 ∧ bf W 12 5 = x0 ∧ bf W 20 5 = x1 := by
  intro W
  have bx0 := x0.isLt
  have bx1 := x1.isLt
  have hW : W = (1 + c0 * 2 + c1 * 128 + c2 * 131072 + c3 * 33554432) + x0.toNat * 4096 + x1.toNat * 1048576 := rfl
  clear_value W
  refine ⟨by omega, by omega, by unfold fld; omega, by unfold fld; omega, by unfold fld; omega, by unfold fld; omega, RoundTrip.bf_eq _ _ _ (by omega), RoundTrip.bf_eq _ _ _ (by omega)⟩

theorem RoundTrip.form11 (x0 : BitVec 5) (c0 c1 c2 c3 : Nat) (k0 : c0 < 64) (k1 : c1 < 32) (k2 : c2 < 8) (k3 : c3 < 4096) :
    let W := (1 + c0 * 2 + c1 * 128 + c2 * 131072 + c3 * 1048576) + x0.toNat * 4096
    W < 4294967296 ∧ W % 2 = 1 ∧ fld W 1 6 = c0 ∧ fld W 7 5 = c1 ∧ fld W 17 3 = c2 ∧ fld W 20 12 = c3 ∧ bf W 12 5 = x0 := by
  intro W
  have bx0 := x0.isLt
  have hW : W = (1 + c0 * 2 + c1 * 128 + c2 * 131072 + c3 * 1048576) + x0.toNat * 4096 := rfl
  clear_value W
  refine ⟨by omega, by omega, by unfold fld; omega, by unfold fld; omega, by unfold fld; omega, by unfold fld; omega, RoundTrip.bf_eq _ _ _ (by omega)⟩

theorem RoundTrip.form12 (x0 : BitVec 5) (c0 c1 c2 c3 : Nat) (k0 : c0 < 64) (k1 : c1 < 32) (k2 : c2 < 8) (k3 : c3 < 4096) :
    let W := (1 + c0 * 2 + c1 * 4096 + c2 * 131072 + c3 * 1048576) + x0.toNat * 128
    W < 4294967296 ∧ W % 2 = 1 ∧ fld W 1 6 = c0 ∧ fld W 12 5 = c1 ∧ fld W 17 3 = c2 ∧ fld W 20 12 = c3 ∧ bf W 7 5 = x0 := by
  intro W
  have bx0 := x0.isLt
  have hW : W = (1 + c0 * 2 + c1 * 4096 + c2 * 131072 + c3 * 1048576) + x0.toNat * 128 := rfl
  clear_value W
  refine ⟨by omega, by omega, by unfold fld; omega, by unfold fld; omega, by unfold fld; omega, by unfold fld; omega, RoundTrip.bf_eq _ _ _ (by omega)⟩

theorem RoundTrip.form13 (c0 c1 c2 c3 : Nat) (k0 : c0 < 64) (k1 : c1 < 1024) (k2 : c2 < 8) (k3 : c3 < 4096) :
    let W := (1 + c0 * 2 + c1 * 128 + c2 * 131072 + c3 * 1048576)
    W < 4294967296 ∧ W % 2 = 1 ∧ fld W 1 6 = c0 ∧ fld W 7 10 = c1 ∧ fld W 17 3 = c2 ∧ fld W 20 12 = c3 := by
  intro W
  have hW : W = (1 + c0 * 2 + c1 * 128 + c2 * 131072 + c3 * 1048576) := rfl
  clear_value W
  refine ⟨by omega, by omega, by unfold fld; omega, by unfold fld; omega, by unfold fld; omega, by unfold fld; omega⟩

theorem RoundTrip.form14 (x0 : BitVec 5) (x1 : BitVec 12) (c0 c1 c2 : Nat) (k0 : c0 < 64) (k1 : c1 < 32) (k2 : c2 < 8) :
    let W := (1 + c0 * 2 + c1 * 4096 + c2 * 131072) + x0.toNat * 128 + x1.toNat * 1048576
    W < 4294967296 ∧ W % 2 = 1 ∧ fld W 1 6 = c0 ∧ fld W 12 5 = c1 ∧ fld W 17 3 = c2 ∧ bf W 7 5 = x0 ∧ bf W 20 12 = x1 := by
  intro W
  have bx0 := x0.isLt
  have bx1 := x1.isLt
  have hW : W = (1 + c0 * 2 + c1 * 4096 + c2 * 131072) + x0.toNat * 128 + x1.toNat * 1048576 := rfl
  clear_value W
  refine ⟨by omega, by omega, by unfold fld; omega, by unfold fld; omega, by unfold fld; omega, RoundTrip.bf_eq _ _ _ (by omega), RoundTrip.bf_eq _ _ _ (by omega)⟩

theorem RoundTrip.form15 (x0 : BitVec 5) (x1 : BitVec 12) (c0 c1 c2 : Nat) (k0 : c0 < 64) (k1 : c1 < 32) (k2 : c2 < 8) :
    let W := (1 + c0 * 2 + c1 * 128 + c2 * 131072) + x0.toNat * 4096 + x1.toNat * 1048576
    W < 4294967296 ∧ W % 2 = 1 ∧ fld W 1 6 = c0 ∧ fld W 7 5 = c1 ∧ fld W 17 3 = c2 ∧ bf W 12 5 = x0 ∧ bf W 20 12 = x1 := by
  intro W
  have bx0 := x0.isLt
  have bx1 := x1.isLt
  have hW : W = (1 + c0 * 2 + c1 * 128 + c2 * 131072) + x0.toNat * 4096 + x1.toNat * 1048576 := rfl
  clear_value W
  refine ⟨by omega, by omega, by unfold fld; omega, by unfold fld; omega, by unfold fld; omega, RoundTrip.bf_eq _ _ _ (by omega), RoundTrip.bf_eq _ _ _ (by omega)⟩

theorem RoundTrip.form16 (x0 : BitVec 3) (c0 c1 c2 c3 : Nat) (k0 : c0 < 64) (k1 : c1 < 1024) (k2 : c2 < 8) (k3 : c3 < 512) :
    let W := (1 + c0 * 2 + c1 * 128 + c2 * 131072 + c3 * 8388608) + x0.toNat * 1048576
    W < 4294967296 ∧ W % 2 = 1 ∧ fld W 1 6 = c0 ∧ fld W 7 10 = c1 ∧ fld W 17 3 = c2 ∧ fld W 23 9 = c3 ∧ bf W 20 3 = x0 := by
  intro W
  have bx0 := x0.isLt
  have hW : W = (1 + c0 * 2 + c1 * 128 + c2 * 131072 + c3 * 8388608) + x0.toNat * 1048576 := rfl
  clear_value W
  refine ⟨by omega, by omega, by unfold fld; omega, by unfold fld; omega, by unfold fld; omega, by unfold fld; omega, RoundTrip.bf_eq _ _ _ (by omega)⟩

theorem RoundTrip.form17 (x0 : BitVec 5) (x1 : BitVec 6) (c0 c1 c2 c3 : Nat) (k0 : c0 < 64) (k1 : c1 < 32) (k2 : c2 < 8) (k3 : c3 < 64) :
    let W := (1 + c0 * 2 + c1 * 4096 + c2 * 131072 + c3 * 67108864) + x0.toNat * 128 + x1.toNat * 1048576
    W < 4294967296 ∧ W % 2 = 1 ∧ fld W 1 6 = c0 ∧ fld W 12 5 = c1 ∧ fld W 17 3 = c2 ∧ fld W 26 6 = c3 ∧ bf W 7 5 = x0 ∧ bf W 20 6 = x1 := by
  intro W
  have bx0 := x0.isLt
  have bx1 := x1.isLt
  have hW : W = (1 + c0 * 2 + c1 * 4096 + c2 * 131072 + c3 * 67108864) + x0.toNat * 128 + x1.toNat * 1048576 := rfl
  clear_value W
  refine ⟨by omega, by omega, by unfold fld; omega, by unfold fld; omega, by unfold fld; omega, by unfold fld; omega, RoundTrip.bf_eq _ _ _ (by omega), RoundTrip.bf_eq _ _ _ (by omega)⟩

theorem RoundTrip.form18 (x0 : BitVec 5) (x1 : BitVec 5) (c0 c1 c2 : Nat) (k0 : c0 < 64) (k1 : c1 < 8) (k2 : c2 < 4096) :
    let W := (1 + c0 * 2 + c1 * 131072 + c2 * 1048576) + x0.toNat * 128 + x1.toNat * 4096
    W < 4294967296 ∧ W % 2 = 1 ∧ fld W 1 6 = c0 ∧ fld W 17 3 = c1 ∧ fld W 20 12 = c2 ∧ bf W 7 5 = x0 ∧ bf W 12 5 = x1 := by
  intro W
  have bx0 := x0.isLt
  have bx1 := x1.isLt
  have hW : W = (1 + c0 * 2 + c1 * 131072 + c2 * 1048576) + x0.toNat * 128 + x1.toNat * 4096 := rfl
  clear_value W
  refine ⟨by omega, by omega, by unfold fld; omega, by unfold fld; omega, by unfold fld; omega, RoundTrip.bf_eq _ _ _ (by omega), RoundTrip.bf_eq _ _ _ (by omega)⟩

theorem RoundTrip.form19 (x0 : BitVec 5) (x1 : BitVec 5) (c0 c1 c2 c3 : Nat) (k0 : c0 < 64) (k1 : c1 < 32) (k2 : c2 < 8) (k3 : c3 < 128) :
    let W := (1 + c0 * 2 + c1 * 4096 + c2 * 131072 + c3 * 33554432) + x0.toNat * 128 + x1.toNat * 1048576
    W < 4294967296 ∧ W % 2 = 1 ∧ fld W 1 6 = c0 ∧ fld W 12 5 = c1 ∧ fld W 17 3 = c2 ∧ fld W 25 7 = c3 ∧ bf W 7 5 = x0 ∧ bf W 20 5 = x1 := by
  intro W
  have bx0 := x0.isLt
  have bx1 := x1.isLt
  have hW : W = (1 + c0 * 2 + c1 * 4096 + c2 * 131072 + c3 * 33554432) + x0.toNat * 128 + x1.toNat * 1048576 := rfl
  clear_value W
  refine ⟨by omega, by omega, by unfold fld; omega, by unfold fld; omega, by unfold fld; omega, by unfold fld; omega, RoundTrip.bf_eq _ _ _ (by omega), RoundTrip.bf_eq _ _ _ (by omega)⟩

theorem RoundTrip.form20 (x0 : BitVec 5) (x1 : BitVec 5) (x2 : BitVec 2) (x3 : BitVec 2) (c0 c1 c2 c3 : Nat) (k0 : c0 < 64) (k1 : c1 < 8) (k2 : c2 < 32) (k3 : c3 < 8) :
    let W := (1 + c0 * 2 + c1 * 131072 + c2 * 1048576 + c3 * 134217728) + x0.toNat * 128 + x1.toNat * 4096 + x2.toNat * 33554432 + x3.toNat * 1073741824
    W < 4294967296 ∧ W % 2 = 1 ∧ fld W 1 6 = c0 ∧ fld W 17 3 = c1 ∧ fld W 20 5 = c2 ∧ fld W 27 3 = c3 ∧ bf W 7 5 = x0 ∧ bf W 12 5 = x1 ∧ bf W 25 2 = x2 ∧ bf W 30 2 = x3 := by
  intro W
  have bx0 := x0.isLt
  have bx1 := x1.isLt
  have bx2 := x2.isLt
  have bx3 := x3.isLt
  have hW : W = (1 + c0 * 2 + c1 * 131072 + c2 * 1048576 + c3 * 134217728) + x0.toNat * 128 + x1.toNat * 4096 + x2.toNat * 33554432 + x3.toNat * 1073741824 := rfl
  clear_value W
  refine ⟨by omega, by omega, by unfold fld; omega, by unfold fld; omega, by unfold fld; omega, by unfold fld; omega, RoundTrip.bf_eq _ _ _ (by omega), RoundTrip.bf_eq _ _ _ (by omega), RoundTrip.bf_eq _ _ _ (by omega), RoundTrip.bf_eq _ _ _ (by omega)⟩

theorem RoundTrip.form21 (x0 : BitVec 5) (x1 : BitVec 5) (x2 : BitVec 2) (x3 : BitVec 2) (c0 c1 c2 c3 : Nat) (k0 : c0 < 64) (k1 : c1 < 32) (k2 : c2 < 8) (k3 : c3 < 8) :
    let W := (1 + c0 * 2 + c1 * 128 + c2 * 131072 + c3 * 134217728) + x0.toNat * 4096 + x1.toNat * 1048576 + x2.toNat * 33554432 + x3.toNat * 1073741824
    W < 4294967296 ∧ W % 2 = 1 ∧ fld W 1 6 = c0 ∧ fld W 7 5 = c1 ∧ fld W 17 3 = c2 ∧ fld W 27 3 = c3 ∧ bf W 12 5 = x0 ∧ bf W 20 5 = x1 ∧ bf W 25 2 = x2 ∧ bf W 30 2 = x3 := by
  intro W
  have bx0 := x0.isLt
  have bx1 := x1.isLt
  have bx2 := x2.isLt
  have bx3 := x3.isLt
  have hW : W = (1 + c0 * 2 + c1 * 128 + c2 * 131072 + c3 * 134217728) + x0.toNat * 4096 + x1.toNat * 1048576 + x2.toNat * 33554432 + x3.toNat * 1073741824 := rfl
  clear_value W
  refine ⟨by omega, by omega, by unfold fld; omega, by unfold fld; omega, by unfold fld; omega, by unfold fld; omega, RoundTrip.bf_eq _ _ _ (by omega), RoundTrip.bf_eq _ _ _ (by omega), RoundTrip.bf_eq _ _ _ (by omega), RoundTrip.bf_eq _ _ _ (by omega)⟩

theorem RoundTrip.form22 (x0 : BitVec 5) (x1 : BitVec 5) (x2 : BitVec 5) (x3 : BitVec 2) (x4 : BitVec 2) (c0 c1 c2 : Nat) (k0 : c0 < 64) (k1 : c1 < 8) (k2 : c2 < 8) :
    let W := (1 + c0 * 2 + c1 * 131072 + c2 * 134217728) + x0.toNat * 128 + x1.toNat * 4096 + x2.toNat * 1048576 + x3.toNat * 33554432 + x4.toNat * 1073741824
    W < 4294967296 ∧ W % 2 = 1 ∧ fld W 1 6 = c0 ∧ fld W 17 3 = c1 ∧ fld W 27 3 = c2 ∧ bf W 7 5 = x0 ∧ bf W 12 5 = x1 ∧ bf W 20 5 = x2 ∧ bf W 25 2 = x3 ∧ bf W 30 2 = x4 := by
  intro W
  have bx0 := x0.isLt
  have bx1 := x1.isLt
  have bx2 := x2.isLt
  have bx3 := x3.isLt
  have bx4 := x4.isLt
  have hW : W = (1 + c0 * 2 + c1 * 131072 + c2 * 134217728) + x0.toNat * 128 + x1.toNat * 4096 + x2.toNat * 1048576 + x3.toNat * 33554432 + x4.toNat * 1073741824 := rfl
  clear_value W
  refine ⟨by omega, by omega, by unfold fld; omega, by unfold fld; omega, by unfold fld; omega, RoundTrip.bf_eq _ _ _ (by omega), RoundTrip.bf_eq _ _ _ (by omega), RoundTrip.bf_eq _ _ _ (by omega), RoundTrip.bf_eq _ _ _ (by omega), RoundTrip.bf_eq _ _ _ (by omega)⟩

theorem RoundTrip.form23 (x0 : BitVec 2) (x1 : BitVec 5) (x2 : BitVec 5) (x3 : BitVec 2) (x4 : BitVec 2) (c0 c1 c2 c3 : Nat) (k0 : c0 < 64) (k1 : c1 < 8) (k2 : c2 < 8) (k3 : c3 < 8) :
    let W := (1 + c0 * 2 + c1 * 512 + c2 * 131072 + c3 * 134217728) + x0.toNat * 128 + x1.toNat * 4096 + x2.toNat * 1048576 + x3.toNat * 33554432 + x4.toNat * 1073741824
    W < 4294967296 ∧ W % 2 = 1 ∧ fld W 1 6 = c0 ∧ fld W 9 3 = c1 ∧ fld W 17 3 = c2 ∧ fld W 27 3 = c3 ∧ bf W 7 2 = x0 ∧ bf W 12 5 = x1 ∧ bf W 20 5 = x2 ∧ bf W 25 2 = x3 ∧ bf W 30 2 = x4 := by
  intro W
  have bx0 := x0.isLt
  have bx1 := x1.isLt
  have bx2 := x2.isLt
  have bx3 := x3.isLt
  have bx4 := x4.isLt
  have hW : W = (1 + c0 * 2 + c1 * 512 + c2 * 131072 + c3 * 134217728) + x0.toNat * 128 + x1.toNat * 4096 + x2.toNat * 1048576 + x3.toNat * 33554432 + x4.toNat * 1073741824 := rfl
  clear_value W
  refine ⟨by omega, by omega, by unfold fld; omega, by unfold fld; omega, by unfold fld; omega, by unfold fld; omega, RoundTrip.bf_eq _ _ _ (by omega), RoundTrip.bf_eq _ _ _ (by omega), RoundTrip.bf_eq _ _ _ (by omega), RoundTrip.bf_eq _ _ _ (by omega), RoundTrip.bf_eq _ _ _ (by omega)⟩

theorem RoundTrip.form24 (x0 : BitVec 5) (x1 : BitVec 5) (x2 : BitVec 5) (x3 : BitVec 2) (c0 c1 c2 c3 : Nat) (k0 : c0 < 64) (k1 : c1 < 8) (k2 : c2 < 8) (k3 : c3 < 4) :
    let W := (1 + c0 * 2 + c1 * 131072 + c2 * 134217728 + c3 * 1073741824) + x0.toNat * 128 + x1.toNat * 4096 + x2.toNat * 1048576 + x3.toNat * 33554432
    W < 4294967296 ∧ W % 2 = 1 ∧ fld W 1 6 = c0 ∧ fld W 17 3 = c1 ∧ fld W 27 3 = c2 ∧ fld W 30 2 = c3 ∧ bf W 7 5 = x0 ∧ bf W 12 5 = x1 ∧ bf W 20 5 = x2 ∧ bf W 25 2 = x3 := by
  intro W
  have bx0 := x0.isLt
  have bx1 := x1.isLt
  have bx2 := x2.isLt
  have bx3 := x3.isLt
  have hW : W = (1 + c0 * 2 + c1 * 131072 + c2 * 134217728 + c3 * 1073741824) + x0.toNat * 128 + x1.toNat * 4096 + x2.toNat * 1048576 + x3.toNat * 33554432 := rfl
  clear_value W
  refine ⟨by omega, by omega, by unfold fld; omega, by unfold fld; omega, by unfold fld; omega, by unfold fld; omega, RoundTrip.bf_eq _ _ _ (by omega), RoundTrip.bf_eq _ _ _ (by omega), RoundTrip.bf_eq _ _ _ (by omega), RoundTrip.bf_eq _ _ _ (by omega)⟩

theorem RoundTrip.form25 (x0 : BitVec 5) (x1 : BitVec 5) (x2 : BitVec 2) (x3 : BitVec 2) (c0 c1 c2 c3 : Nat) (k0 : c0 < 64) (k1 : c1 < 8) (k2 : c2 < 8) (k3 : c3 < 32) :
    let W := (1 + c0 * 2 + c1 * 131072 + c2 * 4194304 + c3 * 33554432) + x0.toNat * 128 + x1.toNat * 4096 + x2.toNat * 1048576 + x3.toNat * 1073741824
    W < 4294967296 ∧ W % 2 = 1 ∧ fld W 1 6 = c0 ∧ fld W 17 3 = c1 ∧ fld W 22 3 = c2 ∧ fld W 25 5 = c3 ∧ bf W 7 5 = x0 ∧ bf W 12 5 = x1 ∧ bf W 20 2 = x2 ∧ bf W 30 2 = x3 := by
  intro W
  have bx0 := x0.isLt
  have bx1 := x1.isLt
  have bx2 := x2.isLt
  have bx3 := x3.isLt
  have hW : W = (1 + c0 * 2 + c1 * 131072 + c2 * 4194304 + c3 * 33554432) + x0.toNat * 128 + x1.toNat * 4096 + x2.toNat * 1048576 + x3.toNat * 1073741824 := rfl
  clear_value W
  refine ⟨by omega, by omega, by unfold fld; omega, by unfold fld; omega, by unfold fld; omega, by unfold fld; omega, RoundTrip.bf_eq _ _ _ (by omega), RoundTrip.bf_eq _ _ _ (by omega), RoundTrip.bf_eq _ _ _ (by omega), RoundTrip.bf_eq _ _ _ (by omega)⟩

theorem RoundTrip.form26 (x0 : BitVec 5) (x1 : BitVec 2) (c0 c1 c2 c3 c4 : Nat) (k0 : c0 < 64) (k1 : c1 < 1024) (k2 : c2 < 8) (k3 : c3 < 8) (k4 : c4 < 4) :
    let W := (1 + c0 * 2 + c1 * 128 + c2 * 131072 + c3 * 134217728 + c4 * 1073741824) + x0.toNat * 1048576 + x1.toNat * 33554432
    W < 4294967296 ∧ W % 2 = 1 ∧ fld W 1 6 = c0 ∧ fld W 7 10 = c1 ∧ fld W 17 3 = c2 ∧ fld W 27 3 = c3 ∧ fld W 30 2 = c4 ∧ bf W 20 5 = x0 ∧ bf W 25 2 = x1 := by
  intro W
  have bx0 := x0.isLt
  have bx1 := x1.isLt
  have hW : W = (1 + c0 * 2 + c1 * 128 + c2 * 131072 + c3 * 134217728 + c4 * 1073741824) + x0.toNat * 1048576 + x1.toNat * 33554432 := rfl
  clear_value W
  refine ⟨by omega, by omega, by unfold fld; omega, by unfold fld; omega, by unfold fld; omega, by unfold fld; omega, by unfold fld; omega, RoundTrip.bf_eq _ _ _ (by omega), RoundTrip.bf_eq _ _ _ (by omega)⟩

theorem RoundTrip.form27 (x0 : BitVec 5) (x1 : BitVec 2) (c0 c1 c2 c3 c4 c5 : Nat) (k0 : c0 < 64) (k1 : c1 < 32) (k2 : c2 < 8) (k3 : c3 < 32) (k4 : c4 < 8) (k5 : c5 < 4) :
    let W := (1 + c0 * 2 + c1 * 4096 + c2 * 131072 + c3 * 1048576 + c4 * 134217728 + c5 * 1073741824) + x0.toNat * 128 + x1.toNat * 33554432
    W < 4294967296 ∧ W % 2 = 1 ∧ fld W 1 6 = c0 ∧ fld W 12 5 = c1 ∧ fld W 17 3 = c2 ∧ fld W 20 5 = c3 ∧ fld W 27 3 = c4 ∧ fld W 30 2 = c5 ∧ bf W 7 5 = x0 ∧ bf W 25 2 = x1 := by
  intro W
  have bx0 := x0.isLt
  have bx1 := x1.isLt
  have hW : W = (1 + c0 * 2 + c1 * 4096 + c2 * 131072 + c3 * 1048576 + c4 * 134217728 + c5 * 1073741824) + x0.toNat * 128 + x1.toNat * 33554432 := rfl
  clear_value W
  refine ⟨by omega, by omega, by unfold fld; omega, by unfold fld; omega, by unfold fld; omega, by unfold fld; omega, by unfold fld; omega, by unfold fld; omega, RoundTrip.bf_eq _ _ _ (by omega), RoundTrip.bf_eq _ _ _ (by omega)⟩

theorem RoundTrip.form28 (x0 : BitVec 2) (c0 c1 c2 c3 c4 c5 : Nat) (k0 : c0 < 64) (k1 : c1 < 1024) (k2 : c2 < 8) (k3 : c3 < 32) (k4 : c4 < 8) (k5 : c5 < 4) :
    let W := (1 + c0 * 2 + c1 * 128 + c2 * 131072 + c3 * 1048576 + c4 * 134217728 + c5 * 1073741824) + x0.toNat * 33554432
    W < 4294967296 ∧ W % 2 = 1 ∧ fld W 1 6 = c0 ∧ fld W 7 10 = c1 ∧ fld W 17 3 = c2 ∧ fld W 20 5 = c3 ∧ fld W 27 3 = c4 ∧ fld W 30 2 = c5 ∧ bf W 25 2 = x0 := by
  intro W
  have bx0 := x0.isLt
  have hW : W = (1 + c0 * 2 + c1 * 128 + c2 * 131072 + c3 * 1048576 + c4 * 134217728 + c5 * 1073741824) + x0.toNat * 33554432 := rfl
  clear_value W
  refine ⟨by omega, by omega, by unfold fld; omega, by unfold fld; omega, by unfold fld; omega, by unfold fld; omega, by unfold fld; omega, by unfold fld; omega, RoundTrip.bf_eq _ _ _ (by omega)⟩

theorem RoundTrip.form29 (x0 : BitVec 5) (x1 : BitVec 2) (x2 : BitVec 3) (c0 c1 c2 c3 : Nat) (k0 : c0 < 64) (k1 : c1 < 1024) (k2 : c2 < 8) (k3 : c3 < 4) :
    let W := (1 + c0 * 2 + c1 * 128 + c2 * 131072 + c3 * 1073741824) + x0.toNat * 1048576 + x1.toNat * 33554432 + x2.toNat * 134217728
    W < 4294967296 ∧ W % 2 = 1 ∧ fld W 1 6 = c0 ∧ fld W 7 10 = c1 ∧ fld W 17 3 = c2 ∧ fld W 30 2 = c3 ∧ bf W 20 5 = x0 ∧ bf W 25 2 = x1 ∧ bf W 27 3 = x2 := by
  intro W
  have bx0 := x0.isLt
  have bx1 := x1.isLt
  have bx2 := x2.isLt
  have hW : W = (1 + c0 * 2 + c1 * 128 + c2 * 131072 + c3 * 1073741824) + x0.toNat * 1048576 + x1.toNat * 33554432 + x2.toNat * 134217728 := rfl
  clear_value W
  refine ⟨by omega, by omega, by unfold fld; omega, by unfold fld; omega, by unfold fld; omega, by unfold fld; omega, RoundTrip.bf_eq _ _ _ (by omega), RoundTrip.bf_eq _ _ _ (by omega), RoundTrip.bf_eq _ _ _ (by omega)⟩

theorem RoundTrip.form30 (x0 : BitVec 5) (x1 : BitVec 5) (x2 : BitVec 5) (x3 : BitVec 2) (x4 : BitVec 3) (c0 c1 c2 : Nat) (k0 : c0 < 64) (k1 : c1 < 8) (k2 : c2 < 4) :
    let W := (1 + c0 * 2 + c1 * 131072 + c2 * 1073741824) + x0.toNat * 128 + x1.toNat * 4096 + x2.toNat * 1048576 + x3.toNat * 33554432 + x4.toNat * 134217728
    W < 4294967296 ∧ W % 2 = 1 ∧ fld W 1 6 = c0 ∧ fld W 17 3 = c1 ∧ fld W 30 2 = c2 ∧ bf W 7 5 = x0 ∧ bf W 12 5 = x1 ∧ bf W 20 5 = x2 ∧ bf W 25 2 = x3 ∧ bf W 27 3 = x4 := by
  intro W
  have bx0 := x0.isLt
  have bx1 := x1.isLt
  have bx2 := x2.isLt
  have bx3 := x3.isLt
  have bx4 := x4.isLt
  have hW : W = (1 + c0 * 2 + c1 * 131072 + c2 * 1073741824) + x0.toNat * 128 + x1.toNat * 4096 + x2.toNat * 1048576 + x3.toNat * 33554432 + x4.toNat * 134217728 := rfl
  clear_value W
  refine ⟨by omega, by omega, by unfold fld; omega, by unfold fld; omega, by unfold fld; omega, RoundTrip.bf_eq _ _ _ (by omega), RoundTrip.bf_eq _ _ _ (by omega), RoundTrip.bf_eq _ _ _ (by omega), RoundTrip.bf_eq _ _ _ (by omega), RoundTrip.bf_eq _ _ _ (by omega)⟩

theorem RoundTrip.form31 (x0 : BitVec 5) (x1 : BitVec 5) (x2 : BitVec 2) (c0 c1 c2 c3 : Nat) (k0 : c0 < 64) (k1 : c1 < 8) (k2 : c2 < 128) (k3 : c3 < 8) :
    let W := (1 + c0 * 2 + c1 * 131072 + c2 * 1048576 + c3 * 134217728) + x0.toNat * 128 + x1.toNat * 4096 + x2.toNat * 1073741824
    W < 4294967296 ∧ W % 2 = 1 ∧ fld W 1 6 = c0 ∧ fld W 17 3 = c1 ∧ fld W 20 7 = c2 ∧ fld W 27 3 = c3 ∧ bf W 7 5 = x0 ∧ bf W 12 5 = x1 ∧ bf W 30 2 = x2 := by
  intro W
  have bx0 := x0.isLt
  have bx1 := x1.isLt
  have bx2 := x2.isLt
  have hW : W = (1 + c0 * 2 + c1 * 131072 + c2 * 1048576 + c3 * 134217728) + x0.toNat * 128 + x1.toNat * 4096 + x2.toNat * 1073741824 := rfl
  clear_value W
  refine ⟨by omega, by omega, by unfold fld; omega, by unfold fld; omega, by unfold fld; omega, by unfold fld; omega, RoundTrip.bf_eq _ _ _ (by omega), RoundTrip.bf_eq _ _ _ (by omega), RoundTrip.bf_eq _ _ _ (by omega)⟩

theorem RoundTrip.form32 (x0 : BitVec 2) (x1 : BitVec 2) (x2 : BitVec 2) (c0 c1 c2 c3 c4 c5 c6 : Nat) (k0 : c0 < 64) (k1 : c1 < 8) (k2 : c2 < 8) (k3 : c3 < 8) (k4 : c4 < 32) (k5 : c5 < 8) (k6 : c6 < 4) :
    let W := (1 + c0 * 2 + c1 * 512 + c2 * 16384 + c3 * 131072 + c4 * 4194304 + c5 * 134217728 + c6 * 1073741824) + x0.toNat * 128 + x1.toNat * 4096 + x2.toNat * 1048576
    W < 4294967296 ∧ W % 2 = 1 ∧ fld W 1 6 = c0 ∧ fld W 9 3 = c1 ∧ fld W 14 3 = c2 ∧ fld W 17 3 = c3 ∧ fld W 22 5 = c4 ∧ fld W 27 3 = c5 ∧ fld W 30 2 = c6 ∧ bf W 7 2 = x0 ∧ bf W 12 2 = x1 ∧ bf W 20 2 = x2 := by
  intro W
  have bx0 := x0.isLt
  have bx1 := x1.isLt
  have bx2 := x2.isLt
  have hW : W = (1 + c0 * 2 + c1 * 512 + c2 * 16384 + c3 * 131072 + c4 * 4194304 + c5 * 134217728 + c6 * 1073741824) + x0.toNat * 128 + x1.toNat * 4096 + x2.toNat * 1048576 := rfl
  clear_value W
  refine ⟨by omega, by omega, by unfold fld; omega, by unfold fld; omega, by unfold fld; omega, by unfold fld; omega, by unfold fld; omega, by unfold fld; omega, by unfold fld; omega, RoundTrip.bf_eq _ _ _ (by omega), RoundTrip.bf_eq _ _ _ (by omega), RoundTrip.bf_eq _ _ _ (by omega)⟩

theorem RoundTrip.form33 (x0 : BitVec 2) (x1 : BitVec 2) (c0 c1 c2 c3 c4 c5 c6 : Nat) (k0 : c0 < 64) (k1 : c1 < 8) (k2 : c2 < 8) (k3 : c3 < 8) (k4 : c4 < 128) (k5 : c5 < 8) (k6 : c6 < 4) :
    let W := (1 + c0 * 2 + c1 * 512 + c2 * 16384 + c3 * 131072 + c4 * 1048576 + c5 * 134217728 + c6 * 1073741824) + x0.toNat * 128 + x1.toNat * 4096
    W < 4294967296 ∧ W % 2 = 1 ∧ fld W 1 6 = c0 ∧ fld W 9 3 = c1 ∧ fld W 14 3 = c2 ∧ fld W 17 3 = c3 ∧ fld W 20 7 = c4 ∧ fld W 27 3 = c5 ∧ fld W 30 2 = c6 ∧ bf W 7 2 = x0 ∧ bf W 12 2 = x1 := by
  intro W
  have bx0 := x0.isLt
  have bx1 := x1.isLt
  have hW : W = (1 + c0 * 2 + c1 * 512 + c2 * 16384 + c3 * 131072 + c4 * 1048576 + c5 * 134217728 + c6 * 1073741824) + x0.toNat * 128 + x1.toNat * 4096 := rfl
  clear_value W
  refine ⟨by omega, by omega, by unfold fld; omega, by unfold fld; omega, by unfold fld; omega, by unfold fld; omega, by unfold fld; omega, by unfold fld; omega, by unfold fld; omega, RoundTrip.bf_eq _ _ _ (by omega), RoundTrip.bf_eq _ _ _ (by omega)⟩

theorem RoundTrip.form34 (x0 : BitVec 2) (x1 : BitVec 5) (c0 c1 c2 c3 c4 c5 : Nat) (k0 : c0 < 64) (k1 : c1 < 8) (k2 : c2 < 8) (k3 : c3 < 128) (k4 : c4 < 8) (k5 : c5 < 4) :
    let W := (1 + c0 * 2 + c1 * 512 + c2 * 131072 + c3 * 1048576 + c4 * 134217728 + c5 * 1073741824) + x0.toNat * 128 + x1.toNat * 4096
    W < 4294967296 ∧ W % 2 = 1 ∧ fld W 1 6 = c0 ∧ fld W 9 3 = c1 ∧ fld W 17 3 = c2 ∧ fld W 20 7 = c3 ∧ fld W 27 3 = c4 ∧ fld W 30 2 = c5 ∧ bf W 7 2 = x0 ∧ bf W 12 5 = x1 := by
  intro W
  have bx0 := x0.isLt
  have bx1 := x1.isLt
  have hW : W = (1 + c0 * 2 + c1 * 512 + c2 * 131072 + c3 * 1048576 + c4 * 134217728 + c5 * 1073741824) + x0.toNat * 128 + x1.toNat * 4096 := rfl
  clear_value W
  refine ⟨by omega, by omega, by unfold fld; omega, by unfold fld; omega, by unfold fld; omega, by unfold fld; omega, by unfold fld; omega, by unfold fld; omega, RoundTrip.bf_eq _ _ _ (by omega), RoundTrip.bf_eq _ _ _ (by omega)⟩

theorem RoundTrip.form35 (x0 : BitVec 5) (x1 : BitVec 2) (c0 c1 c2 c3 c4 c5 : Nat) (k0 : c0 < 64) (k1 : c1 < 8) (k2 : c2 < 8) (k3 : c3 < 128) (k4 : c4 < 8) (k5 : c5 < 4) :
    let W := (1 + c0 * 2 + c1 * 16384 + c2 * 131072 + c3 * 1048576 + c4 * 134217728 + c5 * 1073741824) + x0.toNat * 128 + x1.toNat * 4096
    W < 4294967296 ∧ W % 2 = 1 ∧ fld W 1 6 = c0 ∧ fld W 14 3 = c1 ∧ fld W 17 3 = c2 ∧ fld W 20 7 = c3 ∧ fld W 27 3 = c4 ∧ fld W 30 2 = c5 ∧ bf W 7 5 = x0 ∧ bf W 12 2 = x1 := by
  intro W
  have bx0 := x0.isLt
  have bx1 := x1.isLt
  have hW : W = (1 + c0 * 2 + c1 * 16384 + c2 * 131072 + c3 * 1048576 + c4 * 134217728 + c5 * 1073741824) + x0.toNat * 128 + x1.toNat * 4096 := rfl
  clear_value W
  refine ⟨by omega, by omega, by unfold fld; omega, by unfold fld; omega, by unfold fld; omega, by unfold fld; omega, by unfold fld; omega, by unfold fld; omega, RoundTrip.bf_eq _ _ _ (by omega), RoundTrip.bf_eq _ _ _ (by omega)⟩

theorem RoundTrip.form36 (x0 : BitVec 4) (c0 c1 c2 c3 : Nat) (k0 : c0 < 64) (k1 : c1 < 1024) (k2 : c2 < 8) (k3 : c3 < 256) :
    let W := (1 + c0 * 2 + c1 * 128 + c2 * 131072 + c3 * 16777216) + x0.toNat * 1048576
    W < 4294967296 ∧ W % 2 = 1 ∧ fld W 1 6 = c0 ∧ fld W 7 10 = c1 ∧ fld W 17 3 = c2 ∧ fld W 24 8 = c3 ∧ bf W 20 4 = x0 := by
  intro W
  have bx0 := x0.isLt
  have hW : W = (1 + c0 * 2 + c1 * 128 + c2 * 131072 + c3 * 16777216) + x0.toNat * 1048576 := rfl
  clear_value W
  refine ⟨by omega, by omega, by unfold fld; omega, by unfold fld; omega, by unfold fld; omega, by unfold fld; omega, RoundTrip.bf_eq _ _ _ (by omega)⟩

theorem RoundTrip.form37 (x0 : BitVec 5) (x1 : BitVec 5) (x2 : BitVec 4) (c0 c1 c2 c3 : Nat) (k0 : c0 < 64) (k1 : c1 < 32) (k2 : c2 < 8) (k3 : c3 < 8) :
    let W := (1 + c0 * 2 + c1 * 128 + c2 * 131072 + c3 * 536870912) + x0.toNat * 4096 + x1.toNat * 1048576 + x2.toNat * 33554432
    W < 4294967296 ∧ W % 2 = 1 ∧ fld W 1 6 = c0 ∧ fld W 7 5 = c1 ∧ fld W 17 3 = c2 ∧ fld W 29 3 = c3 ∧ bf W 12 5 = x0 ∧ bf W 20 5 = x1 ∧ bf W 25 4 = x2 := by
  intro W
  have bx0 := x0.isLt
  have bx1 := x1.isLt
  have bx2 := x2.isLt
  have hW : W = (1 + c0 * 2 + c1 * 128 + c2 * 131072 + c3 * 536870912) + x0.toNat * 4096 + x1.toNat * 1048576 + x2.toNat * 33554432 := rfl
  clear_value W
  refine ⟨by omega, by omega, by unfold fld; omega, by unfold fld; omega, by unfold fld; omega, by unfold fld; omega, RoundTrip.bf_eq _ _ _ (by omega), RoundTrip.bf_eq _ _ _ (by omega), RoundTrip.bf_eq _ _ _ (by omega)⟩

theorem RoundTrip.form38 (x0 : BitVec 3) (x1 : BitVec 5) (c0 c1 c2 c3 : Nat) (k0 : c0 < 64) (k1 : c1 < 4) (k2 : c2 < 8) (k3 : c3 < 4096) :
    let W := (1 + c0 * 2 + c1 * 1024 + c2 * 131072 + c3 * 1048576) + x0.toNat * 128 + x1.toNat * 4096
    W < 4294967296 ∧ W % 2 = 1 ∧ fld W 1 6 = c0 ∧ fld W 10 2 = c1 ∧ fld W 17 3 = c2 ∧ fld W 20 12 = c3 ∧ bf W 7 3 = x0 ∧ bf W 12 5 = x1 := by
  intro W
  have bx0 := x0.isLt
  have bx1 := x1.isLt
  have hW : W = (1 + c0 * 2 + c1 * 1024 + c2 * 131072 + c3 * 1048576) + x0.toNat * 128 + x1.toNat * 4096 := rfl
  clear_value W
  refine ⟨by omega, by omega, by unfold fld; omega, by unfold fld; omega, by unfold fld; omega, by unfold fld; omega, RoundTrip.bf_eq _ _ _ (by omega), RoundTrip.bf_eq _ _ _ (by omega)⟩

theorem RoundTrip.form39 (x0 : BitVec 5) (x1 : BitVec 2) (x2 : BitVec 3) (c0 c1 c2 c3 c4 : Nat) (k0 : c0 < 64) (k1 : c1 < 32) (k2 : c2 < 8) (k3 : c3 < 8) (k4 : c4 < 16) :
    let W := (1 + c0 * 2 + c1 * 4096 + c2 * 131072 + c3 * 4194304 + c4 * 268435456) + x0.toNat * 128 + x1.toNat * 1048576 + x2.toNat * 33554432
    W < 4294967296 ∧ W % 2 = 1 ∧ fld W 1 6 = c0 ∧ fld W 12 5 = c1 ∧ fld W 17 3 = c2 ∧ fld W 22 3 = c3 ∧ fld W 28 4 = c4 ∧ bf W 7 5 = x0 ∧ bf W 20 2 = x1 ∧ bf W 25 3 = x2 := by
  intro W
  have bx0 := x0.isLt
  have bx1 := x1.isLt
  have bx2 := x2.isLt
  have hW : W = (1 + c0 * 2 + c1 * 4096 + c2 * 131072 + c3 * 4194304 + c4 * 268435456) + x0.toNat * 128 + x1.toNat * 1048576 + x2.toNat * 33554432 := rfl
  clear_value W
  refine ⟨by omega, by omega, by unfold fld; omega, by unfold fld; omega, by unfold fld; omega, by unfold fld; omega, by unfold fld; omega, RoundTrip.bf_eq _ _ _ (by omega), RoundTrip.bf_eq _ _ _ (by omega), RoundTrip.bf_eq _ _ _ (by omega)⟩

theorem RoundTrip.form40 (x0 : BitVec 3) (x1 : BitVec 5) (x2 : BitVec 3) (x3 : BitVec 2) (c0 c1 c2 c3 c4 : Nat) (k0 : c0 < 64) (k1 : c1 < 4) (k2 : c2 < 8) (k3 : c3 < 4) (k4 : c4 < 32) :
    let W := (1 + c0 * 2 + c1 * 1024 + c2 * 131072 + c3 * 8388608 + c4 * 134217728) + x0.toNat * 128 + x1.toNat * 4096 + x2.toNat * 1048576 + x3.toNat * 33554432
    W < 4294967296 ∧ W % 2 = 1 ∧ fld W 1 6 = c0 ∧ fld W 10 2 = c1 ∧ fld W 17 3 = c2 ∧ fld W 23 2 = c3 ∧ fld W 27 5 = c4 ∧ bf W 7 3 = x0 ∧ bf W 12 5 = x1 ∧ bf W 20 3 = x2 ∧ bf W 25 2 = x3 := by
  intro W
  have bx0 := x0.isLt
  have bx1 := x1.isLt
  have bx2 := x2.isLt
  have bx3 := x3.isLt
  have hW : W = (1 + c0 * 2 + c1 * 1024 + c2 * 131072 + c3 * 8388608 + c4 * 134217728) + x0.toNat * 128 + x1.toNat * 4096 + x2.toNat * 1048576 + x3.toNat * 33554432 := rfl
  clear_value W
  refine ⟨by omega, by omega, by unfold fld; omega, by unfold fld; omega, by unfold fld; omega, by unfold fld; omega, by unfold fld; omega, RoundTrip.bf_eq _ _ _ (by omega), RoundTrip.bf_eq _ _ _ (by omega), RoundTrip.bf_eq _ _ _ (by omega), RoundTrip.bf_eq _ _ _ (by omega)⟩

theorem RoundTrip.form41 (x0 : BitVec 3) (x1 : BitVec 2) (x2 : BitVec 5) (x3 : BitVec 3) (x4 : BitVec 3) (x5 : BitVec 6) (c0 c1 : Nat) (k0 : c0 < 64) (k1 : c1 < 8) :
    let W := (1 + c0 * 2 + c1 * 131072) + x0.toNat * 128 + x1.toNat * 1024 + x2.toNat * 4096 + x3.toNat * 1048576 + x4.toNat * 8388608 + x5.toNat * 67108864
    W < 4294967296 ∧ W % 2 = 1 ∧ fld W 1 6 = c0 ∧ fld W 17 3 = c1 ∧ bf W 7 3 = x0 ∧ bf W 10 2 = x1 ∧ bf W 12 5 = x2 ∧ bf W 20 3 = x3 ∧ bf W 23 3 = x4 ∧ bf W 26 6 = x5 := by
  intro W
  have bx0 := x0.isLt
  have bx1 := x1.isLt
  have bx2 := x2.isLt
  have bx3 := x3.isLt
  have bx4 := x4.isLt
  have bx5 := x5.isLt
  have hW : W = (1 + c0 * 2 + c1 * 131072) + x0.toNat * 128 + x1.toNat * 1024 + x2.toNat * 4096 + x3.toNat * 1048576 + x4.toNat * 8388608 + x5.toNat * 67108864 := rfl
  clear_value W
  refine ⟨by omega, by omega, by unfold fld; omega, by unfold fld; omega, RoundTrip.bf_eq _ _ _ (by omega), RoundTrip.bf_eq _ _ _ (by omega), RoundTrip.bf_eq _ _ _ (by omega), RoundTrip.bf_eq _ _ _ (by omega), RoundTrip.bf_eq _ _ _ (by omega), RoundTrip.bf_eq _ _ _ (by omega)⟩

theorem RoundTrip.form42 (x0 : BitVec 3) (x1 : BitVec 5) (x2 : BitVec 5) (c0 c1 c2 c3 : Nat) (k0 : c0 < 64) (k1 : c1 < 4) (k2 : c2 < 8) (k3 : c3 < 128) :
    let W := (1 + c0 * 2 + c1 * 1024 + c2 * 131072 + c3 * 33554432) + x0.toNat * 128 + x1.toNat * 4096 + x2.toNat * 1048576
    W < 4294967296 ∧ W % 2 = 1 ∧ fld W 1 6 = c0 ∧ fld W 10 2 = c1 ∧ fld W 17 3 = c2 ∧ fld W 25 7 = c3 ∧ bf W 7 3 = x0 ∧ bf W 12 5 = x1 ∧ bf W 20 5 = x2 := by
  intro W
  have bx0 := x0.isLt
  have bx1 := x1.isLt
  have bx2 := x2.isLt
  have hW : W = (1 + c0 * 2 + c1 * 1024 + c2 * 131072 + c3 * 33554432) + x0.toNat * 128 + x1.toNat * 4096 + x2.toNat * 1048576 := rfl
  clear_value W
  refine ⟨by omega, by omega, by unfold fld; omega, by unfold fld; omega, by unfold fld; omega, by unfold fld; omega, RoundTrip.bf_eq _ _ _ (by omega), RoundTrip.bf_eq _ _ _ (by omega), RoundTrip.bf_eq _ _ _ (by omega)⟩

theorem RoundTrip.form43 (x0 : BitVec 2) (x1 : BitVec 5) (x2 : BitVec 4) (c0 c1 c2 c3 : Nat) (k0 : c0 < 64) (k1 : c1 < 8) (k2 : c2 < 8) (k3 : c3 < 256) :
    let W := (1 + c0 * 2 + c1 * 128 + c2 * 131072 + c3 * 16777216) + x0.toNat * 1024 + x1.toNat * 4096 + x2.toNat * 1048576
    W < 4294967296 ∧ W % 2 = 1 ∧ fld W 1 6 = c0 ∧ fld W 7 3 = c1 ∧ fld W 17 3 = c2 ∧ fld W 24 8 = c3 ∧ bf W 10 2 = x0 ∧ bf W 12 5 = x1 ∧ bf W 20 4 = x2 := by
  intro W
  have bx0 := x0.isLt
  have bx1 := x1.isLt
  have bx2 := x2.isLt
  have hW : W = (1 + c0 * 2 + c1 * 128 + c2 * 131072 + c3 * 16777216) + x0.toNat * 1024 + x1.toNat * 4096 + x2.toNat * 1048576 := rfl
  clear_value W
  refine ⟨by omega, by omega, by unfold fld; omega, by unfold fld; omega, by unfold fld; omega, by unfold fld; omega, RoundTrip.bf_eq _ _ _ (by omega), RoundTrip.bf_eq _ _ _ (by omega), RoundTrip.bf_eq _ _ _ (by omega)⟩

theorem RoundTrip.form44 (x0 : BitVec 2) (c0 c1 c2 c3 c4 : Nat) (k0 : c0 < 64) (k1 : c1 < 8) (k2 : c2 < 32) (k3 : c3 < 8) (k4 : c4 < 4096) :
    let W := (1 + c0 * 2 + c1 * 128 + c2 * 4096 + c3 * 131072 + c4 * 1048576) + x0.toNat * 1024
    W < 4294967296 ∧ W % 2 = 1 ∧ fld W 1 6 = c0 ∧ fld W 7 3 = c1 ∧ fld W 12 5 = c2 ∧ fld W 17 3 = c3 ∧ fld W 20 12 = c4 ∧ bf W 10 2 = x0 := by
  intro W
  have bx0 := x0.isLt
  have hW : W = (1 + c0 * 2 + c1 * 128 + c2 * 4096 + c3 * 131072 + c4 * 1048576) + x0.toNat * 1024 := rfl
  clear_value W
  refine ⟨by omega, by omega, by unfold fld; omega, by unfold fld; omega, by unfold fld; omega, by unfold fld; omega, by unfold fld; omega, RoundTrip.bf_eq _ _ _ (by omega)⟩

theorem RoundTrip.form45 (x0 : BitVec 2) (x1 : BitVec 5) (c0 c1 c2 c3 : Nat) (k0 : c0 < 64) (k1 : c1 < 8) (k2 : c2 < 8) (k3 : c3 < 4096) :
    let W := (1 + c0 * 2 + c1 * 128 + c2 * 131072 + c3 * 1048576) + x0.toNat * 1024 + x1.toNat * 4096
    W < 4294967296 ∧ W % 2 = 1 ∧ fld W 1 6 = c0 ∧ fld W 7 3 = c1 ∧ fld W 17 3 = c2 ∧ fld W 20 12 = c3 ∧ bf W 10 2 = x0 ∧ bf W 12 5 = x1 := by
  intro W
  have bx0 := x0.isLt
  have bx1 := x1.isLt
  have hW : W = (1 + c0 * 2 + c1 * 128 + c2 * 131072 + c3 * 1048576) + x0.toNat * 1024 + x1.toNat * 4096 := rfl
  clear_value W
  refine ⟨by omega, by omega, by unfold fld; omega, by unfold fld; omega, by unfold fld; omega, by unfold fld; omega, RoundTrip.bf_eq _ _ _ (by omega), RoundTrip.bf_eq _ _ _ (by omega)⟩

theorem RoundTrip.form46 (x0 : BitVec 25) (c0 : Nat) (k0 : c0 < 64) :
    let W := (1 + c0 * 2) + x0.toNat * 128
    W < 4294967296 ∧ W % 2 = 1 ∧ fld W 1 6 = c0 ∧ bf W 7 25 = x0 := by
  intro W
  have bx0 := x0.isLt
  have hW : W = (1 + c0 * 2) + x0.toNat * 128 := rfl
  clear_value W
  refine ⟨by omega, by omega, by unfold fld; omega, RoundTrip.bf_eq _ _ _ (by omega)⟩

theorem RoundTrip.form47 (x0 : BitVec 5) (x1 : BitVec 6) (c0 : Nat) (k0 : c0 < 16) :
    let W := (0 + c0 * 2) + x0.toNat * 2048 + x1.toNat * 32
    W < 65536 ∧ W % 2 = 0 ∧ fld W 1 4 = c0 ∧ bf W 11 5 = x0 ∧ bf W 5 6 = x1 := by
  intro W
  have bx0 := x0.isLt
  have bx1 := x1.isLt
  have hW : W = (0 + c0 * 2) + x0.toNat * 2048 + x1.toNat * 32 := rfl
  clear_value W
  refine ⟨by omega, by omega, by unfold fld; omega, RoundTrip.bf_eq _ _ _ (by omega), RoundTrip.bf_eq _ _ _ (by omega)⟩

theorem RoundTrip.form48 (x0 : BitVec 5) (x1 : BitVec 5) (c0 c1 : Nat) (k0 : c0 < 16) (k1 : c1 < 2) :
    let W := (0 + c0 * 2 + c1 * 32) + x0.toNat * 2048 + x1.toNat * 64
    W < 65536 ∧ W % 2 = 0 ∧ fld W 1 4 = c0 ∧ fld W 5 1 = c1 ∧ bf W 11 5 = x0 ∧ bf W 6 5 = x1 := by
  intro W
  have bx0 := x0.isLt
  have bx1 := x1.isLt
  have hW : W = (0 + c0 * 2 + c1 * 32) + x0.toNat * 2048 + x1.toNat * 64 := rfl
  clear_value W
  refine ⟨by omega, by omega, by unfold fld; omega, by unfold fld; omega, RoundTrip.bf_eq _ _ _ (by omega), RoundTrip.bf_eq _ _ _ (by omega)⟩

theorem RoundTrip.form49 (x0 : BitVec 3) (x1 : BitVec 3) (x2 : BitVec 5) (c0 : Nat) (k0 : c0 < 16) :
    let W := (0 + c0 * 2) + x0.toNat * 8192 + x1.toNat * 1024 + x2.toNat * 32
    W < 65536 ∧ W % 2 = 0 ∧ fld W 1 4 = c0 ∧ bf W 13 3 = x0 ∧ bf W 10 3 = x1 ∧ bf W 5 5 = x2 := by
  intro W
  have bx0 := x0.isLt
  have bx1 := x1.isLt
  have bx2 := x2.isLt
  have hW : W = (0 + c0 * 2) + x0.toNat * 8192 + x1.toNat * 1024 + x2.toNat * 32 := rfl
  clear_value W
  refine ⟨by omega, by omega, by unfold fld; omega, RoundTrip.bf_eq _ _ _ (by omega), RoundTrip.bf_eq _ _ _ (by omega), RoundTrip.bf_eq _ _ _ (by omega)⟩

theorem RoundTrip.form50 (x0 : BitVec 3) (x1 : BitVec 8) (c0 : Nat) (k0 : c0 < 16) :
    let W := (0 + c0 * 2) + x0.toNat * 8192 + x1.toNat * 32
    W < 65536 ∧ W % 2 = 0 ∧ fld W 1 4 = c0 ∧ bf W 13 3 = x0 ∧ bf W 5 8 = x1 := by
  intro W
  have bx0 := x0.isLt
  have bx1 := x1.isLt
  have hW : W = (0 + c0 * 2) + x0.toNat * 8192 + x1.toNat * 32 := rfl
  clear_value W
  refine ⟨by omega, by omega, by unfold fld; omega, RoundTrip.bf_eq _ _ _ (by omega), RoundTrip.bf_eq _ _ _ (by omega)⟩

theorem RoundTrip.form51 (x0 : BitVec 11) (c0 : Nat) (k0 : c0 < 16) :
    let W := (0 + c0 * 2) + x0.toNat * 32
    W < 65536 ∧ W % 2 = 0 ∧ fld W 1 4 = c0 ∧ bf W 5 11 = x0 := by
  intro W
  have bx0 := x0.isLt
  have hW : W = (0 + c0 * 2) + x0.toNat * 32 := rfl
  clear_value W
  refine ⟨by omega, by omega, by unfold fld; omega, RoundTrip.bf_eq _ _ _ (by omega)⟩

theorem RoundTrip.form52 (c0 c1 : Nat) (k0 : c0 < 16) (k1 : c1 < 2048) :
    let W := (0 + c0 * 2 + c1 * 32)
    W < 65536 ∧ W % 2 = 0 ∧ fld W 1 4 = c0 ∧ fld W 5 11 = c1 := by
  intro W
  have hW : W = (0 + c0 * 2 + c1 * 32) := rfl
  clear_value W
  refine ⟨by omega, by omega, by unfold fld; omega, by unfold fld; omega⟩

/-! ### One lemma per instruction -/

theorem RoundTrip.add (d : BitVec 5) (s : BitVec 5) (t : BitVec 5) : RoundTrip.Statement (.add d s t) := by
  intro bits word he hf
  cases he
  obtain ⟨lt, par, h1_6, h17_3, h25_7, fd, fs, ft⟩ := RoundTrip.form0 d s t 1 0 0 (by decide) (by decide) (by decide)
  refine RoundTrip.of01 lt par h1_6 ?_ hf
  unfold decMajor01
  rw [h17_3, h25_7, fd, fs, ft]
  rfl

theorem RoundTrip.sub (d : BitVec 5) (s : BitVec 5) (t : BitVec 5) : RoundTrip.Statement (.sub d s t) := by
  intro bits word he hf
  cases he
  obtain ⟨lt, par, h1_6, h17_3, h25_7, fd, fs, ft⟩ := RoundTrip.form0 d s t 1 1 0 (by decide) (by decide) (by decide)
  refine RoundTrip.of01 lt par h1_6 ?_ hf
  unfold decMajor01
  rw [h17_3, h25_7, fd, fs, ft]
  rfl

theorem RoundTrip.xor (d : BitVec 5) (s : BitVec 5) (t : BitVec 5) : RoundTrip.Statement (.xor d s t) := by
  intro bits word he hf
  cases he
  obtain ⟨lt, par, h1_6, h17_3, h25_7, fd, fs, ft⟩ := RoundTrip.form0 d s t 1 2 0 (by decide) (by decide) (by decide)
  refine RoundTrip.of01 lt par h1_6 ?_ hf
  unfold decMajor01
  rw [h17_3, h25_7, fd, fs, ft]
  rfl

theorem RoundTrip.andn (d : BitVec 5) (s : BitVec 5) (t : BitVec 5) : RoundTrip.Statement (.andn d s t) := by
  intro bits word he hf
  cases he
  obtain ⟨lt, par, h1_6, h17_3, h25_7, fd, fs, ft⟩ := RoundTrip.form0 d s t 1 3 0 (by decide) (by decide) (by decide)
  refine RoundTrip.of01 lt par h1_6 ?_ hf
  unfold decMajor01
  rw [h17_3, h25_7, fd, fs, ft]
  rfl

theorem RoundTrip.orn (d : BitVec 5) (s : BitVec 5) (t : BitVec 5) : RoundTrip.Statement (.orn d s t) := by
  intro bits word he hf
  cases he
  obtain ⟨lt, par, h1_6, h17_3, h25_7, fd, fs, ft⟩ := RoundTrip.form0 d s t 1 4 0 (by decide) (by decide) (by decide)
  refine RoundTrip.of01 lt par h1_6 ?_ hf
  unfold decMajor01
  rw [h17_3, h25_7, fd, fs, ft]
  rfl

theorem RoundTrip.xnor (d : BitVec 5) (s : BitVec 5) (t : BitVec 5) : RoundTrip.Statement (.xnor d s t) := by
  intro bits word he hf
  cases he
  obtain ⟨lt, par, h1_6, h17_3, h25_7, fd, fs, ft⟩ := RoundTrip.form0 d s t 1 5 0 (by decide) (by decide) (by decide)
  refine RoundTrip.of01 lt par h1_6 ?_ hf
  unfold decMajor01
  rw [h17_3, h25_7, fd, fs, ft]
  rfl

theorem RoundTrip.or (d : BitVec 5) (s : BitVec 5) (t : BitVec 5) : RoundTrip.Statement (.or d s t) := by
  intro bits word he hf
  cases he
  obtain ⟨lt, par, h1_6, h17_3, h25_7, fd, fs, ft⟩ := RoundTrip.form0 d s t 1 6 0 (by decide) (by decide) (by decide)
  refine RoundTrip.of01 lt par h1_6 ?_ hf
  unfold decMajor01
  rw [h17_3, h25_7, fd, fs, ft]
  rfl

theorem RoundTrip.and (d : BitVec 5) (s : BitVec 5) (t : BitVec 5) : RoundTrip.Statement (.and d s t) := by
  intro bits word he hf
  cases he
  obtain ⟨lt, par, h1_6, h17_3, h25_7, fd, fs, ft⟩ := RoundTrip.form0 d s t 1 7 0 (by decide) (by decide) (by decide)
  refine RoundTrip.of01 lt par h1_6 ?_ hf
  unfold decMajor01
  rw [h17_3, h25_7, fd, fs, ft]
  rfl

theorem RoundTrip.shl (d : BitVec 5) (s : BitVec 5) (t : BitVec 5) : RoundTrip.Statement (.shl d s t) := by
  intro bits word he hf
  cases he
  obtain ⟨lt, par, h1_6, h17_3, h25_7, fd, fs, ft⟩ := RoundTrip.form0 d s t 1 0 1 (by decide) (by decide) (by decide)
  refine RoundTrip.of01 lt par h1_6 ?_ hf
  unfold decMajor01
  rw [h17_3, h25_7, fd, fs, ft]
  rfl

theorem RoundTrip.shr (d : BitVec 5) (s : BitVec 5) (t : BitVec 5) : RoundTrip.Statement (.shr d s t) := by
  intro bits word he hf
  cases he
  obtain ⟨lt, par, h1_6, h17_3, h25_7, fd, fs, ft⟩ := RoundTrip.form0 d s t 1 1 1 (by decide) (by decide) (by decide)
  refine RoundTrip.of01 lt par h1_6 ?_ hf
  unfold decMajor01
  rw [h17_3, h25_7, fd, fs, ft]
  rfl

theorem RoundTrip.sar (d : BitVec 5) (s : BitVec 5) (t : BitVec 5) : RoundTrip.Statement (.sar d s t) := by
  intro bits word he hf
  cases he
  obtain ⟨lt, par, h1_6, h17_3, h25_7, fd, fs, ft⟩ := RoundTrip.form0 d s t 1 2 1 (by decide) (by decide) (by decide)
  refine RoundTrip.of01 lt par h1_6 ?_ hf
  unfold decMajor01
  rw [h17_3, h25_7, fd, fs, ft]
  rfl

theorem RoundTrip.rotl (d : BitVec 5) (s : BitVec 5) (t : BitVec 5) : RoundTrip.Statement (.rotl d s t) := by
  intro bits word he hf
  cases he
  obtain ⟨lt, par, h1_6, h17_3, h25_7, fd, fs, ft⟩ := RoundTrip.form0 d s t 1 3 1 (by decide) (by decide) (by decide)
  refine RoundTrip.of01 lt par h1_6 ?_ hf
  unfold decMajor01
  rw [h17_3, h25_7, fd, fs, ft]
  rfl

theorem RoundTrip.rotr (d : BitVec 5) (s : BitVec 5) (t : BitVec 5) : RoundTrip.Statement (.rotr d s t) := by
  intro bits word he hf
  cases he
  obtain ⟨lt, par, h1_6, h17_3, h25_7, fd, fs, ft⟩ := RoundTrip.form0 d s t 1 4 1 (by decide) (by decide) (by decide)
  refine RoundTrip.of01 lt par h1_6 ?_ hf
  unfold decMajor01
  rw [h17_3, h25_7, fd, fs, ft]
  rfl

theorem RoundTrip.cmplt (d : BitVec 5) (s : BitVec 5) (t : BitVec 5) : RoundTrip.Statement (.cmplt d s t) := by
  intro bits word he hf
  cases he
  obtain ⟨lt, par, h1_6, h17_3, h25_7, fd, fs, ft⟩ := RoundTrip.form0 d s t 1 5 1 (by decide) (by decide) (by decide)
  refine RoundTrip.of01 lt par h1_6 ?_ hf
  unfold decMajor01
  rw [h17_3, h25_7, fd, fs, ft]
  rfl

theorem RoundTrip.cmpltu (d : BitVec 5) (s : BitVec 5) (t : BitVec 5) : RoundTrip.Statement (.cmpltu d s t) := by
  intro bits word he hf
  cases he
  obtain ⟨lt, par, h1_6, h17_3, h25_7, fd, fs, ft⟩ := RoundTrip.form0 d s t 1 6 1 (by decide) (by decide) (by decide)
  refine RoundTrip.of01 lt par h1_6 ?_ hf
  unfold decMajor01
  rw [h17_3, h25_7, fd, fs, ft]
  rfl

theorem RoundTrip.cmpeq (d : BitVec 5) (s : BitVec 5) (t : BitVec 5) : RoundTrip.Statement (.cmpeq d s t) := by
  intro bits word he hf
  cases he
  obtain ⟨lt, par, h1_6, h17_3, h25_7, fd, fs, ft⟩ := RoundTrip.form0 d s t 1 7 1 (by decide) (by decide) (by decide)
  refine RoundTrip.of01 lt par h1_6 ?_ hf
  unfold decMajor01
  rw [h17_3, h25_7, fd, fs, ft]
  rfl

theorem RoundTrip.min (d : BitVec 5) (s : BitVec 5) (t : BitVec 5) : RoundTrip.Statement (.min d s t) := by
  intro bits word he hf
  cases he
  obtain ⟨lt, par, h1_6, h17_3, h25_7, fd, fs, ft⟩ := RoundTrip.form0 d s t 1 0 2 (by decide) (by decide) (by decide)
  refine RoundTrip.of01 lt par h1_6 ?_ hf
  unfold decMajor01
  rw [h17_3, h25_7, fd, fs, ft]
  rfl

theorem RoundTrip.max (d : BitVec 5) (s : BitVec 5) (t : BitVec 5) : RoundTrip.Statement (.max d s t) := by
  intro bits word he hf
  cases he
  obtain ⟨lt, par, h1_6, h17_3, h25_7, fd, fs, ft⟩ := RoundTrip.form0 d s t 1 1 2 (by decide) (by decide) (by decide)
  refine RoundTrip.of01 lt par h1_6 ?_ hf
  unfold decMajor01
  rw [h17_3, h25_7, fd, fs, ft]
  rfl

theorem RoundTrip.minu (d : BitVec 5) (s : BitVec 5) (t : BitVec 5) : RoundTrip.Statement (.minu d s t) := by
  intro bits word he hf
  cases he
  obtain ⟨lt, par, h1_6, h17_3, h25_7, fd, fs, ft⟩ := RoundTrip.form0 d s t 1 2 2 (by decide) (by decide) (by decide)
  refine RoundTrip.of01 lt par h1_6 ?_ hf
  unfold decMajor01
  rw [h17_3, h25_7, fd, fs, ft]
  rfl

theorem RoundTrip.maxu (d : BitVec 5) (s : BitVec 5) (t : BitVec 5) : RoundTrip.Statement (.maxu d s t) := by
  intro bits word he hf
  cases he
  obtain ⟨lt, par, h1_6, h17_3, h25_7, fd, fs, ft⟩ := RoundTrip.form0 d s t 1 3 2 (by decide) (by decide) (by decide)
  refine RoundTrip.of01 lt par h1_6 ?_ hf
  unfold decMajor01
  rw [h17_3, h25_7, fd, fs, ft]
  rfl

theorem RoundTrip.clz (d : BitVec 5) (s : BitVec 5) : RoundTrip.Statement (.clz d s) := by
  intro bits word he hf
  cases he
  obtain ⟨lt, par, h1_6, h17_3, h20_5, h25_7, fd, fs⟩ := RoundTrip.form1 d s 1 4 0 2 (by decide) (by decide) (by decide) (by decide)
  refine RoundTrip.of01 lt par h1_6 ?_ hf
  unfold decMajor01
  rw [h17_3, h20_5, h25_7, fd, fs]
  rfl

theorem RoundTrip.ctz (d : BitVec 5) (s : BitVec 5) : RoundTrip.Statement (.ctz d s) := by
  intro bits word he hf
  cases he
  obtain ⟨lt, par, h1_6, h17_3, h20_5, h25_7, fd, fs⟩ := RoundTrip.form1 d s 1 5 0 2 (by decide) (by decide) (by decide) (by decide)
  refine RoundTrip.of01 lt par h1_6 ?_ hf
  unfold decMajor01
  rw [h17_3, h20_5, h25_7, fd, fs]
  rfl

theorem RoundTrip.pop (d : BitVec 5) (s : BitVec 5) : RoundTrip.Statement (.pop d s) := by
  intro bits word he hf
  cases he
  obtain ⟨lt, par, h1_6, h17_3, h20_5, h25_7, fd, fs⟩ := RoundTrip.form1 d s 1 6 0 2 (by decide) (by decide) (by decide) (by decide)
  refine RoundTrip.of01 lt par h1_6 ?_ hf
  unfold decMajor01
  rw [h17_3, h20_5, h25_7, fd, fs]
  rfl

theorem RoundTrip.sextB (d : BitVec 5) (s : BitVec 5) : RoundTrip.Statement (.sextB d s) := by
  intro bits word he hf
  cases he
  obtain ⟨lt, par, h1_6, h17_3, h20_5, h25_7, fd, fs⟩ := RoundTrip.form1 d s 1 0 0 3 (by decide) (by decide) (by decide) (by decide)
  refine RoundTrip.of01 lt par h1_6 ?_ hf
  unfold decMajor01
  rw [h17_3, h20_5, h25_7, fd, fs]
  rfl

theorem RoundTrip.sextH (d : BitVec 5) (s : BitVec 5) : RoundTrip.Statement (.sextH d s) := by
  intro bits word he hf
  cases he
  obtain ⟨lt, par, h1_6, h17_3, h20_5, h25_7, fd, fs⟩ := RoundTrip.form1 d s 1 1 0 3 (by decide) (by decide) (by decide) (by decide)
  refine RoundTrip.of01 lt par h1_6 ?_ hf
  unfold decMajor01
  rw [h17_3, h20_5, h25_7, fd, fs]
  rfl

theorem RoundTrip.sextW (d : BitVec 5) (s : BitVec 5) : RoundTrip.Statement (.sextW d s) := by
  intro bits word he hf
  cases he
  obtain ⟨lt, par, h1_6, h17_3, h20_5, h25_7, fd, fs⟩ := RoundTrip.form1 d s 1 2 0 3 (by decide) (by decide) (by decide) (by decide)
  refine RoundTrip.of01 lt par h1_6 ?_ hf
  unfold decMajor01
  rw [h17_3, h20_5, h25_7, fd, fs]
  rfl

theorem RoundTrip.zextB (d : BitVec 5) (s : BitVec 5) : RoundTrip.Statement (.zextB d s) := by
  intro bits word he hf
  cases he
  obtain ⟨lt, par, h1_6, h17_3, h20_5, h25_7, fd, fs⟩ := RoundTrip.form1 d s 1 3 0 3 (by decide) (by decide) (by decide) (by decide)
  refine RoundTrip.of01 lt par h1_6 ?_ hf
  unfold decMajor01
  rw [h17_3, h20_5, h25_7, fd, fs]
  rfl

theorem RoundTrip.zextH (d : BitVec 5) (s : BitVec 5) : RoundTrip.Statement (.zextH d s) := by
  intro bits word he hf
  cases he
  obtain ⟨lt, par, h1_6, h17_3, h20_5, h25_7, fd, fs⟩ := RoundTrip.form1 d s 1 4 0 3 (by decide) (by decide) (by decide) (by decide)
  refine RoundTrip.of01 lt par h1_6 ?_ hf
  unfold decMajor01
  rw [h17_3, h20_5, h25_7, fd, fs]
  rfl

theorem RoundTrip.zextW (d : BitVec 5) (s : BitVec 5) : RoundTrip.Statement (.zextW d s) := by
  intro bits word he hf
  cases he
  obtain ⟨lt, par, h1_6, h17_3, h20_5, h25_7, fd, fs⟩ := RoundTrip.form1 d s 1 5 0 3 (by decide) (by decide) (by decide) (by decide)
  refine RoundTrip.of01 lt par h1_6 ?_ hf
  unfold decMajor01
  rw [h17_3, h20_5, h25_7, fd, fs]
  rfl

theorem RoundTrip.bswap (d : BitVec 5) (s : BitVec 5) : RoundTrip.Statement (.bswap d s) := by
  intro bits word he hf
  cases he
  obtain ⟨lt, par, h1_6, h17_3, h20_5, h25_7, fd, fs⟩ := RoundTrip.form1 d s 1 6 0 3 (by decide) (by decide) (by decide) (by decide)
  refine RoundTrip.of01 lt par h1_6 ?_ hf
  unfold decMajor01
  rw [h17_3, h20_5, h25_7, fd, fs]
  rfl

theorem RoundTrip.bitrev (d : BitVec 5) (s : BitVec 5) : RoundTrip.Statement (.bitrev d s) := by
  intro bits word he hf
  cases he
  obtain ⟨lt, par, h1_6, h17_3, h20_5, h25_7, fd, fs⟩ := RoundTrip.form1 d s 1 7 0 3 (by decide) (by decide) (by decide) (by decide)
  refine RoundTrip.of01 lt par h1_6 ?_ hf
  unfold decMajor01
  rw [h17_3, h20_5, h25_7, fd, fs]
  rfl

theorem RoundTrip.mul (d : BitVec 5) (s : BitVec 5) (t : BitVec 5) : RoundTrip.Statement (.mul d s t) := by
  intro bits word he hf
  cases he
  obtain ⟨lt, par, h1_6, h17_3, h25_7, fd, fs, ft⟩ := RoundTrip.form0 d s t 1 0 4 (by decide) (by decide) (by decide)
  refine RoundTrip.of01 lt par h1_6 ?_ hf
  unfold decMajor01
  rw [h17_3, h25_7, fd, fs, ft]
  rfl

theorem RoundTrip.mulxSs (d : BitVec 5) (s : BitVec 5) (t : BitVec 5) : RoundTrip.Statement (.mulxSs d s t) := by
  intro bits word he hf
  cases he
  obtain ⟨lt, par, h1_6, h17_3, h25_7, fd, fs, ft⟩ := RoundTrip.form0 d s t 1 1 4 (by decide) (by decide) (by decide)
  refine RoundTrip.of01 lt par h1_6 ?_ hf
  unfold decMajor01
  rw [h17_3, h25_7, fd, fs, ft]
  rfl

theorem RoundTrip.mulxUu (d : BitVec 5) (s : BitVec 5) (t : BitVec 5) : RoundTrip.Statement (.mulxUu d s t) := by
  intro bits word he hf
  cases he
  obtain ⟨lt, par, h1_6, h17_3, h25_7, fd, fs, ft⟩ := RoundTrip.form0 d s t 1 2 4 (by decide) (by decide) (by decide)
  refine RoundTrip.of01 lt par h1_6 ?_ hf
  unfold decMajor01
  rw [h17_3, h25_7, fd, fs, ft]
  rfl

theorem RoundTrip.mulxSu (d : BitVec 5) (s : BitVec 5) (t : BitVec 5) : RoundTrip.Statement (.mulxSu d s t) := by
  intro bits word he hf
  cases he
  obtain ⟨lt, par, h1_6, h17_3, h25_7, fd, fs, ft⟩ := RoundTrip.form0 d s t 1 3 4 (by decide) (by decide) (by decide)
  refine RoundTrip.of01 lt par h1_6 ?_ hf
  unfold decMajor01
  rw [h17_3, h25_7, fd, fs, ft]
  rfl

theorem RoundTrip.quot (d : BitVec 5) (s : BitVec 5) (t : BitVec 5) : RoundTrip.Statement (.quot d s t) := by
  intro bits word he hf
  cases he
  obtain ⟨lt, par, h1_6, h17_3, h25_7, fd, fs, ft⟩ := RoundTrip.form0 d s t 1 0 5 (by decide) (by decide) (by decide)
  refine RoundTrip.of01 lt par h1_6 ?_ hf
  unfold decMajor01
  rw [h17_3, h25_7, fd, fs, ft]
  rfl

theorem RoundTrip.quotu (d : BitVec 5) (s : BitVec 5) (t : BitVec 5) : RoundTrip.Statement (.quotu d s t) := by
  intro bits word he hf
  cases he
  obtain ⟨lt, par, h1_6, h17_3, h25_7, fd, fs, ft⟩ := RoundTrip.form0 d s t 1 1 5 (by decide) (by decide) (by decide)
  refine RoundTrip.of01 lt par h1_6 ?_ hf
  unfold decMajor01
  rw [h17_3, h25_7, fd, fs, ft]
  rfl

theorem RoundTrip.remd (d : BitVec 5) (s : BitVec 5) (t : BitVec 5) : RoundTrip.Statement (.remd d s t) := by
  intro bits word he hf
  cases he
  obtain ⟨lt, par, h1_6, h17_3, h25_7, fd, fs, ft⟩ := RoundTrip.form0 d s t 1 2 5 (by decide) (by decide) (by decide)
  refine RoundTrip.of01 lt par h1_6 ?_ hf
  unfold decMajor01
  rw [h17_3, h25_7, fd, fs, ft]
  rfl

theorem RoundTrip.remdu (d : BitVec 5) (s : BitVec 5) (t : BitVec 5) : RoundTrip.Statement (.remdu d s t) := by
  intro bits word he hf
  cases he
  obtain ⟨lt, par, h1_6, h17_3, h25_7, fd, fs, ft⟩ := RoundTrip.form0 d s t 1 3 5 (by decide) (by decide) (by decide)
  refine RoundTrip.of01 lt par h1_6 ?_ hf
  unfold decMajor01
  rw [h17_3, h25_7, fd, fs, ft]
  rfl

theorem RoundTrip.addi (d : BitVec 5) (s : BitVec 5) (i : BitVec 12) : RoundTrip.Statement (.addi d s i) := by
  intro bits word he hf
  cases he
  obtain ⟨lt, par, h1_6, h17_3, fd, fs, fi⟩ := RoundTrip.form2 d s i 2 0 (by decide) (by decide)
  refine RoundTrip.of02 lt par h1_6 ?_ hf
  unfold decMajor02
  rw [h17_3, fd, fs, fi]
  rfl

theorem RoundTrip.slli (d : BitVec 5) (s : BitVec 5) (n : BitVec 6) : RoundTrip.Statement (.slli d s n) := by
  intro bits word he hf
  cases he
  obtain ⟨lt, par, h1_6, h17_3, h26_6, fd, fs, fn⟩ := RoundTrip.form3 d s n 2 1 0 (by decide) (by decide) (by decide)
  refine RoundTrip.of02 lt par h1_6 ?_ hf
  unfold decMajor02
  rw [h17_3, h26_6, fd, fs, fn]
  rfl

theorem RoundTrip.rotli (d : BitVec 5) (s : BitVec 5) (n : BitVec 6) : RoundTrip.Statement (.rotli d s n) := by
  intro bits word he hf
  cases he
  obtain ⟨lt, par, h1_6, h17_3, h26_6, fd, fs, fn⟩ := RoundTrip.form3 d s n 2 1 3 (by decide) (by decide) (by decide)
  refine RoundTrip.of02 lt par h1_6 ?_ hf
  unfold decMajor02
  rw [h17_3, h26_6, fd, fs, fn]
  rfl

theorem RoundTrip.cmplti (d : BitVec 5) (s : BitVec 5) (i : BitVec 12) : RoundTrip.Statement (.cmplti d s i) := by
  intro bits word he hf
  cases he
  obtain ⟨lt, par, h1_6, h17_3, fd, fs, fi⟩ := RoundTrip.form2 d s i 2 2 (by decide) (by decide)
  refine RoundTrip.of02 lt par h1_6 ?_ hf
  unfold decMajor02
  rw [h17_3, fd, fs, fi]
  rfl

theorem RoundTrip.cmpltiu (d : BitVec 5) (s : BitVec 5) (i : BitVec 12) : RoundTrip.Statement (.cmpltiu d s i) := by
  intro bits word he hf
  cases he
  obtain ⟨lt, par, h1_6, h17_3, fd, fs, fi⟩ := RoundTrip.form2 d s i 2 3 (by decide) (by decide)
  refine RoundTrip.of02 lt par h1_6 ?_ hf
  unfold decMajor02
  rw [h17_3, fd, fs, fi]
  rfl

theorem RoundTrip.xori (d : BitVec 5) (s : BitVec 5) (i : BitVec 12) : RoundTrip.Statement (.xori d s i) := by
  intro bits word he hf
  cases he
  obtain ⟨lt, par, h1_6, h17_3, fd, fs, fi⟩ := RoundTrip.form2 d s i 2 4 (by decide) (by decide)
  refine RoundTrip.of02 lt par h1_6 ?_ hf
  unfold decMajor02
  rw [h17_3, fd, fs, fi]
  rfl

theorem RoundTrip.srli (d : BitVec 5) (s : BitVec 5) (n : BitVec 6) : RoundTrip.Statement (.srli d s n) := by
  intro bits word he hf
  cases he
  obtain ⟨lt, par, h1_6, h17_3, h26_6, fd, fs, fn⟩ := RoundTrip.form3 d s n 2 5 0 (by decide) (by decide) (by decide)
  refine RoundTrip.of02 lt par h1_6 ?_ hf
  unfold decMajor02
  rw [h17_3, h26_6, fd, fs, fn]
  rfl

theorem RoundTrip.srai (d : BitVec 5) (s : BitVec 5) (n : BitVec 6) : RoundTrip.Statement (.srai d s n) := by
  intro bits word he hf
  cases he
  obtain ⟨lt, par, h1_6, h17_3, h26_6, fd, fs, fn⟩ := RoundTrip.form3 d s n 2 5 1 (by decide) (by decide) (by decide)
  refine RoundTrip.of02 lt par h1_6 ?_ hf
  unfold decMajor02
  rw [h17_3, h26_6, fd, fs, fn]
  rfl

theorem RoundTrip.rotri (d : BitVec 5) (s : BitVec 5) (n : BitVec 6) : RoundTrip.Statement (.rotri d s n) := by
  intro bits word he hf
  cases he
  obtain ⟨lt, par, h1_6, h17_3, h26_6, fd, fs, fn⟩ := RoundTrip.form3 d s n 2 5 3 (by decide) (by decide) (by decide)
  refine RoundTrip.of02 lt par h1_6 ?_ hf
  unfold decMajor02
  rw [h17_3, h26_6, fd, fs, fn]
  rfl

theorem RoundTrip.ori (d : BitVec 5) (s : BitVec 5) (i : BitVec 12) : RoundTrip.Statement (.ori d s i) := by
  intro bits word he hf
  cases he
  obtain ⟨lt, par, h1_6, h17_3, fd, fs, fi⟩ := RoundTrip.form2 d s i 2 6 (by decide) (by decide)
  refine RoundTrip.of02 lt par h1_6 ?_ hf
  unfold decMajor02
  rw [h17_3, fd, fs, fi]
  rfl

theorem RoundTrip.andi (d : BitVec 5) (s : BitVec 5) (i : BitVec 12) : RoundTrip.Statement (.andi d s i) := by
  intro bits word he hf
  cases he
  obtain ⟨lt, par, h1_6, h17_3, fd, fs, fi⟩ := RoundTrip.form2 d s i 2 7 (by decide) (by decide)
  refine RoundTrip.of02 lt par h1_6 ?_ hf
  unfold decMajor02
  rw [h17_3, fd, fs, fi]
  rfl

theorem RoundTrip.hiimm (d : BitVec 5) (i : BitVec 20) : RoundTrip.Statement (.hiimm d i) := by
  intro bits word he hf
  cases he
  obtain ⟨lt, par, h1_6, fd, fi⟩ := RoundTrip.form4 d i 3 (by decide)
  refine RoundTrip.table32 lt par ?_
  unfold decode32
  rw [h1_6, fd, fi]
  rfl

theorem RoundTrip.jump (d : BitVec 5) (o : BitVec 20) : RoundTrip.Statement (.jump d o) := by
  intro bits word he hf
  cases he
  obtain ⟨lt, par, h1_6, fd, fo⟩ := RoundTrip.form4 d o 4 (by decide)
  refine RoundTrip.table32 lt par ?_
  unfold decode32
  rw [h1_6, fd, fo]
  rfl

theorem RoundTrip.jr (d : BitVec 5) (s : BitVec 5) (i : BitVec 12) : RoundTrip.Statement (.jr d s i) := by
  intro bits word he hf
  cases he
  obtain ⟨lt, par, h1_6, h17_3, fd, fs, fi⟩ := RoundTrip.form2 d s i 5 0 (by decide) (by decide)
  refine RoundTrip.of05 lt par h1_6 ?_ hf
  unfold decMajor05
  rw [h17_3, fd, fs, fi]
  rfl

theorem RoundTrip.pcadd (d : BitVec 5) (s : BitVec 5) (i : BitVec 12) : RoundTrip.Statement (.pcadd d s i) := by
  intro bits word he hf
  cases he
  obtain ⟨lt, par, h1_6, h17_3, fd, fs, fi⟩ := RoundTrip.form2 d s i 5 1 (by decide) (by decide)
  refine RoundTrip.of05 lt par h1_6 ?_ hf
  unfold decMajor05
  rw [h17_3, fd, fs, fi]
  rfl

theorem RoundTrip.beq (t : BitVec 5) (s : BitVec 5) (o : BitVec 12) : RoundTrip.Statement (.beq t s o) := by
  intro bits word he hf
  cases he
  obtain ⟨lt, par, h1_6, h17_3, ft, fs, fo⟩ := RoundTrip.form2 t s o 6 0 (by decide) (by decide)
  refine RoundTrip.of06 lt par h1_6 ?_ hf
  unfold decMajor06
  rw [h17_3, ft, fs, fo]
  rfl

theorem RoundTrip.bne (t : BitVec 5) (s : BitVec 5) (o : BitVec 12) : RoundTrip.Statement (.bne t s o) := by
  intro bits word he hf
  cases he
  obtain ⟨lt, par, h1_6, h17_3, ft, fs, fo⟩ := RoundTrip.form2 t s o 6 1 (by decide) (by decide)
  refine RoundTrip.of06 lt par h1_6 ?_ hf
  unfold decMajor06
  rw [h17_3, ft, fs, fo]
  rfl

theorem RoundTrip.blt (t : BitVec 5) (s : BitVec 5) (o : BitVec 12) : RoundTrip.Statement (.blt t s o) := by
  intro bits word he hf
  cases he
  obtain ⟨lt, par, h1_6, h17_3, ft, fs, fo⟩ := RoundTrip.form2 t s o 6 2 (by decide) (by decide)
  refine RoundTrip.of06 lt par h1_6 ?_ hf
  unfold decMajor06
  rw [h17_3, ft, fs, fo]
  rfl

theorem RoundTrip.bge (t : BitVec 5) (s : BitVec 5) (o : BitVec 12) : RoundTrip.Statement (.bge t s o) := by
  intro bits word he hf
  cases he
  obtain ⟨lt, par, h1_6, h17_3, ft, fs, fo⟩ := RoundTrip.form2 t s o 6 3 (by decide) (by decide)
  refine RoundTrip.of06 lt par h1_6 ?_ hf
  unfold decMajor06
  rw [h17_3, ft, fs, fo]
  rfl

theorem RoundTrip.bltu (t : BitVec 5) (s : BitVec 5) (o : BitVec 12) : RoundTrip.Statement (.bltu t s o) := by
  intro bits word he hf
  cases he
  obtain ⟨lt, par, h1_6, h17_3, ft, fs, fo⟩ := RoundTrip.form2 t s o 6 4 (by decide) (by decide)
  refine RoundTrip.of06 lt par h1_6 ?_ hf
  unfold decMajor06
  rw [h17_3, ft, fs, fo]
  rfl

theorem RoundTrip.bgeu (t : BitVec 5) (s : BitVec 5) (o : BitVec 12) : RoundTrip.Statement (.bgeu t s o) := by
  intro bits word he hf
  cases he
  obtain ⟨lt, par, h1_6, h17_3, ft, fs, fo⟩ := RoundTrip.form2 t s o 6 5 (by decide) (by decide)
  refine RoundTrip.of06 lt par h1_6 ?_ hf
  unfold decMajor06
  rw [h17_3, ft, fs, fo]
  rfl

theorem RoundTrip.loop (l : BitVec 1) (s : BitVec 5) (o : BitVec 12) : RoundTrip.Statement (.loop l s o) := by
  intro bits word he hf
  cases he
  obtain ⟨lt, par, h1_6, h8_4, h17_3, fl, fs, fo⟩ := RoundTrip.form5 l s o 7 0 0 (by decide) (by decide) (by decide)
  refine RoundTrip.of07 lt par h1_6 ?_ hf
  unfold decMajor07
  rw [h8_4, h17_3, fl, fs, fo]
  rfl

theorem RoundTrip.loopi (l : BitVec 1) (n : BitVec 5) (o : BitVec 12) : RoundTrip.Statement (.loopi l n o) := by
  intro bits word he hf
  cases he
  obtain ⟨lt, par, h1_6, h8_4, h17_3, fl, fn, fo⟩ := RoundTrip.form5 l n o 7 0 1 (by decide) (by decide) (by decide)
  refine RoundTrip.of07 lt par h1_6 ?_ hf
  unfold decMajor07
  rw [h8_4, h17_3, fl, fn, fo]
  rfl

theorem RoundTrip.loopClr (l : BitVec 1) : RoundTrip.Statement (.loopClr l) := by
  intro bits word he hf
  cases he
  obtain ⟨lt, par, h1_6, h8_9, h17_3, h20_12, fl⟩ := RoundTrip.form6 l 7 0 2 0 (by decide) (by decide) (by decide) (by decide)
  refine RoundTrip.of07 lt par h1_6 ?_ hf
  unfold decMajor07
  rw [h8_9, h17_3, h20_12, fl]
  rfl

theorem RoundTrip.forkA (o : BitVec 12) : RoundTrip.Statement (.forkA o) := by
  intro bits word he hf
  cases he
  obtain ⟨lt, par, h1_6, h7_10, h17_3, fo⟩ := RoundTrip.form7 o 8 0 0 (by decide) (by decide) (by decide)
  refine RoundTrip.of08 lt par h1_6 ?_ hf
  unfold decMajor08
  rw [h7_10, h17_3, fo]
  rfl

theorem RoundTrip.qPut (s : BitVec 5) (q : BitVec 2) : RoundTrip.Statement (.qPut s q) := by
  intro bits word he hf
  cases he
  obtain ⟨lt, par, h1_6, h7_5, h17_3, h22_10, fs, fq⟩ := RoundTrip.form8 s q 8 0 1 0 (by decide) (by decide) (by decide) (by decide)
  refine RoundTrip.of08 lt par h1_6 ?_ hf
  unfold decMajor08
  rw [h7_5, h17_3, h22_10, fs, fq]
  rfl

theorem RoundTrip.qGet (d : BitVec 5) (q : BitVec 2) : RoundTrip.Statement (.qGet d q) := by
  intro bits word he hf
  cases he
  obtain ⟨lt, par, h1_6, h12_5, h17_3, h22_10, fd, fq⟩ := RoundTrip.form9 d q 8 0 2 0 (by decide) (by decide) (by decide) (by decide)
  refine RoundTrip.of08 lt par h1_6 ?_ hf
  unfold decMajor08
  rw [h12_5, h17_3, h22_10, fd, fq]
  rfl

theorem RoundTrip.qCnt (d : BitVec 5) (q : BitVec 2) : RoundTrip.Statement (.qCnt d q) := by
  intro bits word he hf
  cases he
  obtain ⟨lt, par, h1_6, h12_5, h17_3, h22_10, fd, fq⟩ := RoundTrip.form9 d q 8 0 3 0 (by decide) (by decide) (by decide) (by decide)
  refine RoundTrip.of08 lt par h1_6 ?_ hf
  unfold decMajor08
  rw [h12_5, h17_3, h22_10, fd, fq]
  rfl

theorem RoundTrip.msgSend (s : BitVec 5) (t : BitVec 5) : RoundTrip.Statement (.msgSend s t) := by
  intro bits word he hf
  cases he
  obtain ⟨lt, par, h1_6, h7_5, h17_3, h25_7, fs, ft⟩ := RoundTrip.form10 s t 9 0 0 0 (by decide) (by decide) (by decide) (by decide)
  refine RoundTrip.of09 lt par h1_6 ?_ hf
  unfold decMajor09
  rw [h7_5, h17_3, h25_7, fs, ft]
  rfl

theorem RoundTrip.spOpen (s : BitVec 5) (t : BitVec 5) : RoundTrip.Statement (.spOpen s t) := by
  intro bits word he hf
  cases he
  obtain ⟨lt, par, h1_6, h7_5, h17_3, h25_7, fs, ft⟩ := RoundTrip.form10 s t 9 0 1 0 (by decide) (by decide) (by decide) (by decide)
  refine RoundTrip.of09 lt par h1_6 ?_ hf
  unfold decMajor09
  rw [h7_5, h17_3, h25_7, fs, ft]
  rfl

theorem RoundTrip.spPut (s : BitVec 5) : RoundTrip.Statement (.spPut s) := by
  intro bits word he hf
  cases he
  obtain ⟨lt, par, h1_6, h7_5, h17_3, h20_12, fs⟩ := RoundTrip.form11 s 9 0 2 0 (by decide) (by decide) (by decide) (by decide)
  refine RoundTrip.of09 lt par h1_6 ?_ hf
  unfold decMajor09
  rw [h7_5, h17_3, h20_12, fs]
  rfl

theorem RoundTrip.spClose (d : BitVec 5) : RoundTrip.Statement (.spClose d) := by
  intro bits word he hf
  cases he
  obtain ⟨lt, par, h1_6, h12_5, h17_3, h20_12, fd⟩ := RoundTrip.form12 d 9 0 3 0 (by decide) (by decide) (by decide) (by decide)
  refine RoundTrip.of09 lt par h1_6 ?_ hf
  unfold decMajor09
  rw [h12_5, h17_3, h20_12, fd]
  rfl

theorem RoundTrip.taskEnd  : RoundTrip.Statement (.taskEnd) := by
  intro bits word he hf
  cases he
  obtain ⟨lt, par, h1_6, h7_10, h17_3, h20_12⟩ := RoundTrip.form13 10 0 0 0 (by decide) (by decide) (by decide) (by decide)
  refine RoundTrip.of0A lt par h1_6 ?_ hf
  unfold decMajor0A
  rw [h7_10, h17_3, h20_12]
  rfl

theorem RoundTrip.safept (s : BitVec 5) : RoundTrip.Statement (.safept s) := by
  intro bits word he hf
  cases he
  obtain ⟨lt, par, h1_6, h7_5, h17_3, h20_12, fs⟩ := RoundTrip.form11 s 10 0 1 0 (by decide) (by decide) (by decide) (by decide)
  refine RoundTrip.of0A lt par h1_6 ?_ hf
  unfold decMajor0A
  rw [h7_5, h17_3, h20_12, fs]
  rfl

theorem RoundTrip.align (n : BitVec 12) : RoundTrip.Statement (.align n) := by
  intro bits word he hf
  cases he
  obtain ⟨lt, par, h1_6, h7_10, h17_3, fn⟩ := RoundTrip.form7 n 10 0 2 (by decide) (by decide) (by decide)
  refine RoundTrip.of0A lt par h1_6 ?_ hf
  unfold decMajor0A
  rw [h7_10, h17_3, fn]
  rfl

theorem RoundTrip.alignBound (c : Nat) : RoundTrip.Statement (.alignBound c) := fun _ _ he => nomatch he

theorem RoundTrip.srd (d : BitVec 5) (r : BitVec 12) : RoundTrip.Statement (.srd d r) := by
  intro bits word he hf
  cases he
  obtain ⟨lt, par, h1_6, h12_5, h17_3, fd, fr⟩ := RoundTrip.form14 d r 11 0 0 (by decide) (by decide) (by decide)
  refine RoundTrip.of0B lt par h1_6 ?_ hf
  unfold decMajor0B
  rw [h12_5, h17_3, fd, fr]
  rfl

theorem RoundTrip.swr (s : BitVec 5) (r : BitVec 12) : RoundTrip.Statement (.swr s r) := by
  intro bits word he hf
  cases he
  obtain ⟨lt, par, h1_6, h7_5, h17_3, fs, fr⟩ := RoundTrip.form15 s r 11 0 2 (by decide) (by decide) (by decide)
  refine RoundTrip.of0B lt par h1_6 ?_ hf
  unfold decMajor0B
  rw [h7_5, h17_3, fs, fr]
  rfl

theorem RoundTrip.phase  : RoundTrip.Statement (.phase) := by
  intro bits word he hf
  cases he
  obtain ⟨lt, par, h1_6, h7_10, h17_3, h20_12⟩ := RoundTrip.form13 11 0 3 0 (by decide) (by decide) (by decide) (by decide)
  refine RoundTrip.of0B lt par h1_6 ?_ hf
  unfold decMajor0B
  rw [h7_10, h17_3, h20_12]
  rfl

theorem RoundTrip.tlbW (d : BitVec 5) (s : BitVec 5) (t : BitVec 5) : RoundTrip.Statement (.tlbW d s t) := by
  intro bits word he hf
  cases he
  obtain ⟨lt, par, h1_6, h17_3, h25_7, fd, fs, ft⟩ := RoundTrip.form0 d s t 11 4 0 (by decide) (by decide) (by decide)
  refine RoundTrip.of0B lt par h1_6 ?_ hf
  unfold decMajor0B
  rw [h17_3, h25_7, fd, fs, ft]
  rfl

theorem RoundTrip.tlbInv (s : BitVec 5) (t : BitVec 5) : RoundTrip.Statement (.tlbInv s t) := by
  intro bits word he hf
  cases he
  obtain ⟨lt, par, h1_6, h7_5, h17_3, h25_7, fs, ft⟩ := RoundTrip.form10 s t 11 0 5 0 (by decide) (by decide) (by decide) (by decide)
  refine RoundTrip.of0B lt par h1_6 ?_ hf
  unfold decMajor0B
  rw [h7_5, h17_3, h25_7, fs, ft]
  rfl

theorem RoundTrip.ldB (d : BitVec 5) (s : BitVec 5) (i : BitVec 12) : RoundTrip.Statement (.ldB d s i) := by
  intro bits word he hf
  cases he
  obtain ⟨lt, par, h1_6, h17_3, fd, fs, fi⟩ := RoundTrip.form2 d s i 12 0 (by decide) (by decide)
  refine RoundTrip.of0C lt par h1_6 ?_ hf
  unfold decMajor0C
  rw [h17_3, fd, fs, fi]
  rfl

theorem RoundTrip.ldH (d : BitVec 5) (s : BitVec 5) (i : BitVec 12) : RoundTrip.Statement (.ldH d s i) := by
  intro bits word he hf
  cases he
  obtain ⟨lt, par, h1_6, h17_3, fd, fs, fi⟩ := RoundTrip.form2 d s i 12 1 (by decide) (by decide)
  refine RoundTrip.of0C lt par h1_6 ?_ hf
  unfold decMajor0C
  rw [h17_3, fd, fs, fi]
  rfl

theorem RoundTrip.ldW (d : BitVec 5) (s : BitVec 5) (i : BitVec 12) : RoundTrip.Statement (.ldW d s i) := by
  intro bits word he hf
  cases he
  obtain ⟨lt, par, h1_6, h17_3, fd, fs, fi⟩ := RoundTrip.form2 d s i 12 2 (by decide) (by decide)
  refine RoundTrip.of0C lt par h1_6 ?_ hf
  unfold decMajor0C
  rw [h17_3, fd, fs, fi]
  rfl

theorem RoundTrip.ldD (d : BitVec 5) (s : BitVec 5) (i : BitVec 12) : RoundTrip.Statement (.ldD d s i) := by
  intro bits word he hf
  cases he
  obtain ⟨lt, par, h1_6, h17_3, fd, fs, fi⟩ := RoundTrip.form2 d s i 12 3 (by decide) (by decide)
  refine RoundTrip.of0C lt par h1_6 ?_ hf
  unfold decMajor0C
  rw [h17_3, fd, fs, fi]
  rfl

theorem RoundTrip.ldBu (d : BitVec 5) (s : BitVec 5) (i : BitVec 12) : RoundTrip.Statement (.ldBu d s i) := by
  intro bits word he hf
  cases he
  obtain ⟨lt, par, h1_6, h17_3, fd, fs, fi⟩ := RoundTrip.form2 d s i 12 4 (by decide) (by decide)
  refine RoundTrip.of0C lt par h1_6 ?_ hf
  unfold decMajor0C
  rw [h17_3, fd, fs, fi]
  rfl

theorem RoundTrip.ldHu (d : BitVec 5) (s : BitVec 5) (i : BitVec 12) : RoundTrip.Statement (.ldHu d s i) := by
  intro bits word he hf
  cases he
  obtain ⟨lt, par, h1_6, h17_3, fd, fs, fi⟩ := RoundTrip.form2 d s i 12 5 (by decide) (by decide)
  refine RoundTrip.of0C lt par h1_6 ?_ hf
  unfold decMajor0C
  rw [h17_3, fd, fs, fi]
  rfl

theorem RoundTrip.ldWu (d : BitVec 5) (s : BitVec 5) (i : BitVec 12) : RoundTrip.Statement (.ldWu d s i) := by
  intro bits word he hf
  cases he
  obtain ⟨lt, par, h1_6, h17_3, fd, fs, fi⟩ := RoundTrip.form2 d s i 12 6 (by decide) (by decide)
  refine RoundTrip.of0C lt par h1_6 ?_ hf
  unfold decMajor0C
  rw [h17_3, fd, fs, fi]
  rfl

theorem RoundTrip.stB (t : BitVec 5) (s : BitVec 5) (i : BitVec 12) : RoundTrip.Statement (.stB t s i) := by
  intro bits word he hf
  cases he
  obtain ⟨lt, par, h1_6, h17_3, ft, fs, fi⟩ := RoundTrip.form2 t s i 13 0 (by decide) (by decide)
  refine RoundTrip.of0D lt par h1_6 ?_ hf
  unfold decMajor0D
  rw [h17_3, ft, fs, fi]
  rfl

theorem RoundTrip.stH (t : BitVec 5) (s : BitVec 5) (i : BitVec 12) : RoundTrip.Statement (.stH t s i) := by
  intro bits word he hf
  cases he
  obtain ⟨lt, par, h1_6, h17_3, ft, fs, fi⟩ := RoundTrip.form2 t s i 13 1 (by decide) (by decide)
  refine RoundTrip.of0D lt par h1_6 ?_ hf
  unfold decMajor0D
  rw [h17_3, ft, fs, fi]
  rfl

theorem RoundTrip.stW (t : BitVec 5) (s : BitVec 5) (i : BitVec 12) : RoundTrip.Statement (.stW t s i) := by
  intro bits word he hf
  cases he
  obtain ⟨lt, par, h1_6, h17_3, ft, fs, fi⟩ := RoundTrip.form2 t s i 13 2 (by decide) (by decide)
  refine RoundTrip.of0D lt par h1_6 ?_ hf
  unfold decMajor0D
  rw [h17_3, ft, fs, fi]
  rfl

theorem RoundTrip.stD (t : BitVec 5) (s : BitVec 5) (i : BitVec 12) : RoundTrip.Statement (.stD t s i) := by
  intro bits word he hf
  cases he
  obtain ⟨lt, par, h1_6, h17_3, ft, fs, fi⟩ := RoundTrip.form2 t s i 13 3 (by decide) (by decide)
  refine RoundTrip.of0D lt par h1_6 ?_ hf
  unfold decMajor0D
  rw [h17_3, ft, fs, fi]
  rfl

theorem RoundTrip.stDh (t : BitVec 5) (s : BitVec 5) (h : BitVec 12) : RoundTrip.Statement (.stDh t s h) := by
  intro bits word he hf
  cases he
  obtain ⟨lt, par, h1_6, h17_3, ft, fs, fh⟩ := RoundTrip.form2 t s h 13 4 (by decide) (by decide)
  refine RoundTrip.of0D lt par h1_6 ?_ hf
  unfold decMajor0D
  rw [h17_3, ft, fs, fh]
  rfl

theorem RoundTrip.fenceFull (c : BitVec 3) : RoundTrip.Statement (.fenceFull c) := by
  intro bits word he hf
  cases he
  obtain ⟨lt, par, h1_6, h7_10, h17_3, h23_9, fc⟩ := RoundTrip.form16 c 14 0 0 0 (by decide) (by decide) (by decide) (by decide)
  refine RoundTrip.of0E lt par h1_6 ?_ hf
  unfold decMajor0E
  rw [h7_10, h17_3, h23_9, fc]
  rfl

theorem RoundTrip.fenceRel (c : BitVec 3) : RoundTrip.Statement (.fenceRel c) := by
  intro bits word he hf
  cases he
  obtain ⟨lt, par, h1_6, h7_10, h17_3, h23_9, fc⟩ := RoundTrip.form16 c 14 0 1 0 (by decide) (by decide) (by decide) (by decide)
  refine RoundTrip.of0E lt par h1_6 ?_ hf
  unfold decMajor0E
  rw [h7_10, h17_3, h23_9, fc]
  rfl

theorem RoundTrip.fenceAcq (c : BitVec 3) : RoundTrip.Statement (.fenceAcq c) := by
  intro bits word he hf
  cases he
  obtain ⟨lt, par, h1_6, h7_10, h17_3, h23_9, fc⟩ := RoundTrip.form16 c 14 0 2 0 (by decide) (by decide) (by decide) (by decide)
  refine RoundTrip.of0E lt par h1_6 ?_ hf
  unfold decMajor0E
  rw [h7_10, h17_3, h23_9, fc]
  rfl

theorem RoundTrip.mlive (s : BitVec 5) (t : BitVec 5) : RoundTrip.Statement (.mlive s t) := by
  intro bits word he hf
  cases he
  obtain ⟨lt, par, h1_6, h7_5, h17_3, h25_7, fs, ft⟩ := RoundTrip.form10 s t 14 0 3 0 (by decide) (by decide) (by decide) (by decide)
  refine RoundTrip.of0E lt par h1_6 ?_ hf
  unfold decMajor0E
  rw [h7_5, h17_3, h25_7, fs, ft]
  rfl

theorem RoundTrip.amoAddD (d : BitVec 5) (s : BitVec 5) (t : BitVec 5) : RoundTrip.Statement (.amoAddD d s t) := by
  intro bits word he hf
  cases he
  obtain ⟨lt, par, h1_6, h17_3, h25_7, fd, fs, ft⟩ := RoundTrip.form0 d s t 15 0 0 (by decide) (by decide) (by decide)
  refine RoundTrip.of0F lt par h1_6 ?_ hf
  unfold decMajor0F
  rw [h17_3, h25_7, fd, fs, ft]
  rfl

theorem RoundTrip.amoAndD (d : BitVec 5) (s : BitVec 5) (t : BitVec 5) : RoundTrip.Statement (.amoAndD d s t) := by
  intro bits word he hf
  cases he
  obtain ⟨lt, par, h1_6, h17_3, h25_7, fd, fs, ft⟩ := RoundTrip.form0 d s t 15 1 0 (by decide) (by decide) (by decide)
  refine RoundTrip.of0F lt par h1_6 ?_ hf
  unfold decMajor0F
  rw [h17_3, h25_7, fd, fs, ft]
  rfl

theorem RoundTrip.amoOrD (d : BitVec 5) (s : BitVec 5) (t : BitVec 5) : RoundTrip.Statement (.amoOrD d s t) := by
  intro bits word he hf
  cases he
  obtain ⟨lt, par, h1_6, h17_3, h25_7, fd, fs, ft⟩ := RoundTrip.form0 d s t 15 2 0 (by decide) (by decide) (by decide)
  refine RoundTrip.of0F lt par h1_6 ?_ hf
  unfold decMajor0F
  rw [h17_3, h25_7, fd, fs, ft]
  rfl

theorem RoundTrip.amoXorD (d : BitVec 5) (s : BitVec 5) (t : BitVec 5) : RoundTrip.Statement (.amoXorD d s t) := by
  intro bits word he hf
  cases he
  obtain ⟨lt, par, h1_6, h17_3, h25_7, fd, fs, ft⟩ := RoundTrip.form0 d s t 15 3 0 (by decide) (by decide) (by decide)
  refine RoundTrip.of0F lt par h1_6 ?_ hf
  unfold decMajor0F
  rw [h17_3, h25_7, fd, fs, ft]
  rfl

theorem RoundTrip.amoMinD (d : BitVec 5) (s : BitVec 5) (t : BitVec 5) : RoundTrip.Statement (.amoMinD d s t) := by
  intro bits word he hf
  cases he
  obtain ⟨lt, par, h1_6, h17_3, h25_7, fd, fs, ft⟩ := RoundTrip.form0 d s t 15 4 0 (by decide) (by decide) (by decide)
  refine RoundTrip.of0F lt par h1_6 ?_ hf
  unfold decMajor0F
  rw [h17_3, h25_7, fd, fs, ft]
  rfl

theorem RoundTrip.amoMaxD (d : BitVec 5) (s : BitVec 5) (t : BitVec 5) : RoundTrip.Statement (.amoMaxD d s t) := by
  intro bits word he hf
  cases he
  obtain ⟨lt, par, h1_6, h17_3, h25_7, fd, fs, ft⟩ := RoundTrip.form0 d s t 15 5 0 (by decide) (by decide) (by decide)
  refine RoundTrip.of0F lt par h1_6 ?_ hf
  unfold decMajor0F
  rw [h17_3, h25_7, fd, fs, ft]
  rfl

theorem RoundTrip.amoSwapD (d : BitVec 5) (s : BitVec 5) (t : BitVec 5) : RoundTrip.Statement (.amoSwapD d s t) := by
  intro bits word he hf
  cases he
  obtain ⟨lt, par, h1_6, h17_3, h25_7, fd, fs, ft⟩ := RoundTrip.form0 d s t 15 6 0 (by decide) (by decide) (by decide)
  refine RoundTrip.of0F lt par h1_6 ?_ hf
  unfold decMajor0F
  rw [h17_3, h25_7, fd, fs, ft]
  rfl

theorem RoundTrip.amoCasD (d : BitVec 5) (s : BitVec 5) (t : BitVec 5) : RoundTrip.Statement (.amoCasD d s t) := by
  intro bits word he hf
  cases he
  obtain ⟨lt, par, h1_6, h17_3, h25_7, fd, fs, ft⟩ := RoundTrip.form0 d s t 15 7 0 (by decide) (by decide) (by decide)
  refine RoundTrip.of0F lt par h1_6 ?_ hf
  unfold decMajor0F
  rw [h17_3, h25_7, fd, fs, ft]
  rfl

theorem RoundTrip.amoAddW (d : BitVec 5) (s : BitVec 5) (t : BitVec 5) : RoundTrip.Statement (.amoAddW d s t) := by
  intro bits word he hf
  cases he
  obtain ⟨lt, par, h1_6, h17_3, h25_7, fd, fs, ft⟩ := RoundTrip.form0 d s t 15 0 1 (by decide) (by decide) (by decide)
  refine RoundTrip.of0F lt par h1_6 ?_ hf
  unfold decMajor0F
  rw [h17_3, h25_7, fd, fs, ft]
  rfl

theorem RoundTrip.amoAndW (d : BitVec 5) (s : BitVec 5) (t : BitVec 5) : RoundTrip.Statement (.amoAndW d s t) := by
  intro bits word he hf
  cases he
  obtain ⟨lt, par, h1_6, h17_3, h25_7, fd, fs, ft⟩ := RoundTrip.form0 d s t 15 1 1 (by decide) (by decide) (by decide)
  refine RoundTrip.of0F lt par h1_6 ?_ hf
  unfold decMajor0F
  rw [h17_3, h25_7, fd, fs, ft]
  rfl

theorem RoundTrip.amoOrW (d : BitVec 5) (s : BitVec 5) (t : BitVec 5) : RoundTrip.Statement (.amoOrW d s t) := by
  intro bits word he hf
  cases he
  obtain ⟨lt, par, h1_6, h17_3, h25_7, fd, fs, ft⟩ := RoundTrip.form0 d s t 15 2 1 (by decide) (by decide) (by decide)
  refine RoundTrip.of0F lt par h1_6 ?_ hf
  unfold decMajor0F
  rw [h17_3, h25_7, fd, fs, ft]
  rfl

theorem RoundTrip.amoXorW (d : BitVec 5) (s : BitVec 5) (t : BitVec 5) : RoundTrip.Statement (.amoXorW d s t) := by
  intro bits word he hf
  cases he
  obtain ⟨lt, par, h1_6, h17_3, h25_7, fd, fs, ft⟩ := RoundTrip.form0 d s t 15 3 1 (by decide) (by decide) (by decide)
  refine RoundTrip.of0F lt par h1_6 ?_ hf
  unfold decMajor0F
  rw [h17_3, h25_7, fd, fs, ft]
  rfl

theorem RoundTrip.amoMinW (d : BitVec 5) (s : BitVec 5) (t : BitVec 5) : RoundTrip.Statement (.amoMinW d s t) := by
  intro bits word he hf
  cases he
  obtain ⟨lt, par, h1_6, h17_3, h25_7, fd, fs, ft⟩ := RoundTrip.form0 d s t 15 4 1 (by decide) (by decide) (by decide)
  refine RoundTrip.of0F lt par h1_6 ?_ hf
  unfold decMajor0F
  rw [h17_3, h25_7, fd, fs, ft]
  rfl

theorem RoundTrip.amoMaxW (d : BitVec 5) (s : BitVec 5) (t : BitVec 5) : RoundTrip.Statement (.amoMaxW d s t) := by
  intro bits word he hf
  cases he
  obtain ⟨lt, par, h1_6, h17_3, h25_7, fd, fs, ft⟩ := RoundTrip.form0 d s t 15 5 1 (by decide) (by decide) (by decide)
  refine RoundTrip.of0F lt par h1_6 ?_ hf
  unfold decMajor0F
  rw [h17_3, h25_7, fd, fs, ft]
  rfl

theorem RoundTrip.amoSwapW (d : BitVec 5) (s : BitVec 5) (t : BitVec 5) : RoundTrip.Statement (.amoSwapW d s t) := by
  intro bits word he hf
  cases he
  obtain ⟨lt, par, h1_6, h17_3, h25_7, fd, fs, ft⟩ := RoundTrip.form0 d s t 15 6 1 (by decide) (by decide) (by decide)
  refine RoundTrip.of0F lt par h1_6 ?_ hf
  unfold decMajor0F
  rw [h17_3, h25_7, fd, fs, ft]
  rfl

theorem RoundTrip.amoCasW (d : BitVec 5) (s : BitVec 5) (t : BitVec 5) : RoundTrip.Statement (.amoCasW d s t) := by
  intro bits word he hf
  cases he
  obtain ⟨lt, par, h1_6, h17_3, h25_7, fd, fs, ft⟩ := RoundTrip.form0 d s t 15 7 1 (by decide) (by decide) (by decide)
  refine RoundTrip.of0F lt par h1_6 ?_ hf
  unfold decMajor0F
  rw [h17_3, h25_7, fd, fs, ft]
  rfl

theorem RoundTrip.amoMinuD (d : BitVec 5) (s : BitVec 5) (t : BitVec 5) : RoundTrip.Statement (.amoMinuD d s t) := by
  intro bits word he hf
  cases he
  obtain ⟨lt, par, h1_6, h17_3, h25_7, fd, fs, ft⟩ := RoundTrip.form0 d s t 15 4 2 (by decide) (by decide) (by decide)
  refine RoundTrip.of0F lt par h1_6 ?_ hf
  unfold decMajor0F
  rw [h17_3, h25_7, fd, fs, ft]
  rfl

theorem RoundTrip.amoMaxuD (d : BitVec 5) (s : BitVec 5) (t : BitVec 5) : RoundTrip.Statement (.amoMaxuD d s t) := by
  intro bits word he hf
  cases he
  obtain ⟨lt, par, h1_6, h17_3, h25_7, fd, fs, ft⟩ := RoundTrip.form0 d s t 15 5 2 (by decide) (by decide) (by decide)
  refine RoundTrip.of0F lt par h1_6 ?_ hf
  unfold decMajor0F
  rw [h17_3, h25_7, fd, fs, ft]
  rfl

theorem RoundTrip.amoMinuW (d : BitVec 5) (s : BitVec 5) (t : BitVec 5) : RoundTrip.Statement (.amoMinuW d s t) := by
  intro bits word he hf
  cases he
  obtain ⟨lt, par, h1_6, h17_3, h25_7, fd, fs, ft⟩ := RoundTrip.form0 d s t 15 4 3 (by decide) (by decide) (by decide)
  refine RoundTrip.of0F lt par h1_6 ?_ hf
  unfold decMajor0F
  rw [h17_3, h25_7, fd, fs, ft]
  rfl

theorem RoundTrip.amoMaxuW (d : BitVec 5) (s : BitVec 5) (t : BitVec 5) : RoundTrip.Statement (.amoMaxuW d s t) := by
  intro bits word he hf
  cases he
  obtain ⟨lt, par, h1_6, h17_3, h25_7, fd, fs, ft⟩ := RoundTrip.form0 d s t 15 5 3 (by decide) (by decide) (by decide)
  refine RoundTrip.of0F lt par h1_6 ?_ hf
  unfold decMajor0F
  rw [h17_3, h25_7, fd, fs, ft]
  rfl

theorem RoundTrip.amoFadd (d : BitVec 5) (s : BitVec 5) (t : BitVec 5) : RoundTrip.Statement (.amoFadd d s t) := by
  intro bits word he hf
  cases he
  obtain ⟨lt, par, h1_6, h17_3, h25_7, fd, fs, ft⟩ := RoundTrip.form0 d s t 15 0 4 (by decide) (by decide) (by decide)
  refine RoundTrip.of0F lt par h1_6 ?_ hf
  unfold decMajor0F
  rw [h17_3, h25_7, fd, fs, ft]
  rfl

theorem RoundTrip.syncLd (d : BitVec 5) (s : BitVec 5) : RoundTrip.Statement (.syncLd d s) := by
  intro bits word he hf
  cases he
  obtain ⟨lt, par, h1_6, h17_3, h20_5, h25_7, fd, fs⟩ := RoundTrip.form1 d s 16 0 0 0 (by decide) (by decide) (by decide) (by decide)
  refine RoundTrip.of10 lt par h1_6 ?_ hf
  unfold decMajor10
  rw [h17_3, h20_5, h25_7, fd, fs]
  rfl

theorem RoundTrip.syncAdd (d : BitVec 5) (s : BitVec 5) (t : BitVec 5) : RoundTrip.Statement (.syncAdd d s t) := by
  intro bits word he hf
  cases he
  obtain ⟨lt, par, h1_6, h17_3, h25_7, fd, fs, ft⟩ := RoundTrip.form0 d s t 16 1 0 (by decide) (by decide) (by decide)
  refine RoundTrip.of10 lt par h1_6 ?_ hf
  unfold decMajor10
  rw [h17_3, h25_7, fd, fs, ft]
  rfl

theorem RoundTrip.syncAnd (d : BitVec 5) (s : BitVec 5) (t : BitVec 5) : RoundTrip.Statement (.syncAnd d s t) := by
  intro bits word he hf
  cases he
  obtain ⟨lt, par, h1_6, h17_3, h25_7, fd, fs, ft⟩ := RoundTrip.form0 d s t 16 2 0 (by decide) (by decide) (by decide)
  refine RoundTrip.of10 lt par h1_6 ?_ hf
  unfold decMajor10
  rw [h17_3, h25_7, fd, fs, ft]
  rfl

theorem RoundTrip.syncOr (d : BitVec 5) (s : BitVec 5) (t : BitVec 5) : RoundTrip.Statement (.syncOr d s t) := by
  intro bits word he hf
  cases he
  obtain ⟨lt, par, h1_6, h17_3, h25_7, fd, fs, ft⟩ := RoundTrip.form0 d s t 16 3 0 (by decide) (by decide) (by decide)
  refine RoundTrip.of10 lt par h1_6 ?_ hf
  unfold decMajor10
  rw [h17_3, h25_7, fd, fs, ft]
  rfl

theorem RoundTrip.syncXor (d : BitVec 5) (s : BitVec 5) (t : BitVec 5) : RoundTrip.Statement (.syncXor d s t) := by
  intro bits word he hf
  cases he
  obtain ⟨lt, par, h1_6, h17_3, h25_7, fd, fs, ft⟩ := RoundTrip.form0 d s t 16 4 0 (by decide) (by decide) (by decide)
  refine RoundTrip.of10 lt par h1_6 ?_ hf
  unfold decMajor10
  rw [h17_3, h25_7, fd, fs, ft]
  rfl

theorem RoundTrip.syncSwap (d : BitVec 5) (s : BitVec 5) (t : BitVec 5) : RoundTrip.Statement (.syncSwap d s t) := by
  intro bits word he hf
  cases he
  obtain ⟨lt, par, h1_6, h17_3, h25_7, fd, fs, ft⟩ := RoundTrip.form0 d s t 16 5 0 (by decide) (by decide) (by decide)
  refine RoundTrip.of10 lt par h1_6 ?_ hf
  unfold decMajor10
  rw [h17_3, h25_7, fd, fs, ft]
  rfl

theorem RoundTrip.syncCas (d : BitVec 5) (s : BitVec 5) (t : BitVec 5) : RoundTrip.Statement (.syncCas d s t) := by
  intro bits word he hf
  cases he
  obtain ⟨lt, par, h1_6, h17_3, h25_7, fd, fs, ft⟩ := RoundTrip.form0 d s t 16 6 0 (by decide) (by decide) (by decide)
  refine RoundTrip.of10 lt par h1_6 ?_ hf
  unfold decMajor10
  rw [h17_3, h25_7, fd, fs, ft]
  rfl

theorem RoundTrip.syncFadd (d : BitVec 5) (s : BitVec 5) (t : BitVec 5) : RoundTrip.Statement (.syncFadd d s t) := by
  intro bits word he hf
  cases he
  obtain ⟨lt, par, h1_6, h17_3, h25_7, fd, fs, ft⟩ := RoundTrip.form0 d s t 16 7 0 (by decide) (by decide) (by decide)
  refine RoundTrip.of10 lt par h1_6 ?_ hf
  unfold decMajor10
  rw [h17_3, h25_7, fd, fs, ft]
  rfl

theorem RoundTrip.syncMin (d : BitVec 5) (s : BitVec 5) (t : BitVec 5) : RoundTrip.Statement (.syncMin d s t) := by
  intro bits word he hf
  cases he
  obtain ⟨lt, par, h1_6, h17_3, h25_7, fd, fs, ft⟩ := RoundTrip.form0 d s t 16 0 1 (by decide) (by decide) (by decide)
  refine RoundTrip.of10 lt par h1_6 ?_ hf
  unfold decMajor10
  rw [h17_3, h25_7, fd, fs, ft]
  rfl

theorem RoundTrip.syncMax (d : BitVec 5) (s : BitVec 5) (t : BitVec 5) : RoundTrip.Statement (.syncMax d s t) := by
  intro bits word he hf
  cases he
  obtain ⟨lt, par, h1_6, h17_3, h25_7, fd, fs, ft⟩ := RoundTrip.form0 d s t 16 1 1 (by decide) (by decide) (by decide)
  refine RoundTrip.of10 lt par h1_6 ?_ hf
  unfold decMajor10
  rw [h17_3, h25_7, fd, fs, ft]
  rfl

theorem RoundTrip.syncMinu (d : BitVec 5) (s : BitVec 5) (t : BitVec 5) : RoundTrip.Statement (.syncMinu d s t) := by
  intro bits word he hf
  cases he
  obtain ⟨lt, par, h1_6, h17_3, h25_7, fd, fs, ft⟩ := RoundTrip.form0 d s t 16 2 1 (by decide) (by decide) (by decide)
  refine RoundTrip.of10 lt par h1_6 ?_ hf
  unfold decMajor10
  rw [h17_3, h25_7, fd, fs, ft]
  rfl

theorem RoundTrip.syncMaxu (d : BitVec 5) (s : BitVec 5) (t : BitVec 5) : RoundTrip.Statement (.syncMaxu d s t) := by
  intro bits word he hf
  cases he
  obtain ⟨lt, par, h1_6, h17_3, h25_7, fd, fs, ft⟩ := RoundTrip.form0 d s t 16 3 1 (by decide) (by decide) (by decide)
  refine RoundTrip.of10 lt par h1_6 ?_ hf
  unfold decMajor10
  rw [h17_3, h25_7, fd, fs, ft]
  rfl

theorem RoundTrip.syncWait (d : BitVec 5) (s : BitVec 5) (t : BitVec 5) : RoundTrip.Statement (.syncWait d s t) := by
  intro bits word he hf
  cases he
  obtain ⟨lt, par, h1_6, h17_3, h25_7, fd, fs, ft⟩ := RoundTrip.form0 d s t 16 4 1 (by decide) (by decide) (by decide)
  refine RoundTrip.of10 lt par h1_6 ?_ hf
  unfold decMajor10
  rw [h17_3, h25_7, fd, fs, ft]
  rfl

theorem RoundTrip.syncWake (d : BitVec 5) (s : BitVec 5) (t : BitVec 5) : RoundTrip.Statement (.syncWake d s t) := by
  intro bits word he hf
  cases he
  obtain ⟨lt, par, h1_6, h17_3, h25_7, fd, fs, ft⟩ := RoundTrip.form0 d s t 16 5 1 (by decide) (by decide) (by decide)
  refine RoundTrip.of10 lt par h1_6 ?_ hf
  unfold decMajor10
  rw [h17_3, h25_7, fd, fs, ft]
  rfl

theorem RoundTrip.sluiceOperation (die : Nat) : RoundTrip.Statement (.sluiceOperation die) := fun _ _ he => nomatch he

theorem RoundTrip.barArrive (g : BitVec 3) : RoundTrip.Statement (.barArrive g) := by
  intro bits word he hf
  cases he
  obtain ⟨lt, par, h1_6, h7_10, h17_3, h23_9, fg⟩ := RoundTrip.form16 g 17 0 0 0 (by decide) (by decide) (by decide) (by decide)
  refine RoundTrip.of11 lt par h1_6 ?_ hf
  unfold decMajor11
  rw [h7_10, h17_3, h23_9, fg]
  rfl

theorem RoundTrip.barWait (g : BitVec 3) : RoundTrip.Statement (.barWait g) := by
  intro bits word he hf
  cases he
  obtain ⟨lt, par, h1_6, h7_10, h17_3, h23_9, fg⟩ := RoundTrip.form16 g 17 0 1 0 (by decide) (by decide) (by decide) (by decide)
  refine RoundTrip.of11 lt par h1_6 ?_ hf
  unfold decMajor11
  rw [h7_10, h17_3, h23_9, fg]
  rfl

theorem RoundTrip.barrierRelease (b : Nat) : RoundTrip.Statement (.barrierRelease b) := fun _ _ he => nomatch he

theorem RoundTrip.ringBoard (d : BitVec 5) (s : BitVec 5) (t : BitVec 5) : RoundTrip.Statement (.ringBoard d s t) := by
  intro bits word he hf
  cases he
  obtain ⟨lt, par, h1_6, h17_3, h25_7, fd, fs, ft⟩ := RoundTrip.form0 d s t 18 0 0 (by decide) (by decide) (by decide)
  refine RoundTrip.of12 lt par h1_6 ?_ hf
  unfold decMajor12
  rw [h17_3, h25_7, fd, fs, ft]
  rfl

theorem RoundTrip.ringCapRead (d : BitVec 5) (s : BitVec 5) (t : BitVec 5) : RoundTrip.Statement (.ringCapRead d s t) := by
  intro bits word he hf
  cases he
  obtain ⟨lt, par, h1_6, h17_3, h25_7, fd, fs, ft⟩ := RoundTrip.form0 d s t 18 1 0 (by decide) (by decide) (by decide)
  refine RoundTrip.of12 lt par h1_6 ?_ hf
  unfold decMajor12
  rw [h17_3, h25_7, fd, fs, ft]
  rfl

theorem RoundTrip.ringCapAdd (d : BitVec 5) (s : BitVec 5) (t : BitVec 5) : RoundTrip.Statement (.ringCapAdd d s t) := by
  intro bits word he hf
  cases he
  obtain ⟨lt, par, h1_6, h17_3, h25_7, fd, fs, ft⟩ := RoundTrip.form0 d s t 18 1 1 (by decide) (by decide) (by decide)
  refine RoundTrip.of12 lt par h1_6 ?_ hf
  unfold decMajor12
  rw [h17_3, h25_7, fd, fs, ft]
  rfl

theorem RoundTrip.ringCapMin (d : BitVec 5) (s : BitVec 5) (t : BitVec 5) : RoundTrip.Statement (.ringCapMin d s t) := by
  intro bits word he hf
  cases he
  obtain ⟨lt, par, h1_6, h17_3, h25_7, fd, fs, ft⟩ := RoundTrip.form0 d s t 18 1 2 (by decide) (by decide) (by decide)
  refine RoundTrip.of12 lt par h1_6 ?_ hf
  unfold decMajor12
  rw [h17_3, h25_7, fd, fs, ft]
  rfl

theorem RoundTrip.ringCapMax (d : BitVec 5) (s : BitVec 5) (t : BitVec 5) : RoundTrip.Statement (.ringCapMax d s t) := by
  intro bits word he hf
  cases he
  obtain ⟨lt, par, h1_6, h17_3, h25_7, fd, fs, ft⟩ := RoundTrip.form0 d s t 18 1 3 (by decide) (by decide) (by decide)
  refine RoundTrip.of12 lt par h1_6 ?_ hf
  unfold decMajor12
  rw [h17_3, h25_7, fd, fs, ft]
  rfl

theorem RoundTrip.ringCapSwap (d : BitVec 5) (s : BitVec 5) (t : BitVec 5) : RoundTrip.Statement (.ringCapSwap d s t) := by
  intro bits word he hf
  cases he
  obtain ⟨lt, par, h1_6, h17_3, h25_7, fd, fs, ft⟩ := RoundTrip.form0 d s t 18 1 4 (by decide) (by decide) (by decide)
  refine RoundTrip.of12 lt par h1_6 ?_ hf
  unfold decMajor12
  rw [h17_3, h25_7, fd, fs, ft]
  rfl

theorem RoundTrip.ringCapCas (d : BitVec 5) (s : BitVec 5) (t : BitVec 5) : RoundTrip.Statement (.ringCapCas d s t) := by
  intro bits word he hf
  cases he
  obtain ⟨lt, par, h1_6, h17_3, h25_7, fd, fs, ft⟩ := RoundTrip.form0 d s t 18 1 5 (by decide) (by decide) (by decide)
  refine RoundTrip.of12 lt par h1_6 ?_ hf
  unfold decMajor12
  rw [h17_3, h25_7, fd, fs, ft]
  rfl

theorem RoundTrip.ringAlight (d : BitVec 5) (s : BitVec 5) (t : BitVec 5) : RoundTrip.Statement (.ringAlight d s t) := by
  intro bits word he hf
  cases he
  obtain ⟨lt, par, h1_6, h17_3, h25_7, fd, fs, ft⟩ := RoundTrip.form0 d s t 18 2 0 (by decide) (by decide) (by decide)
  refine RoundTrip.of12 lt par h1_6 ?_ hf
  unfold decMajor12
  rw [h17_3, h25_7, fd, fs, ft]
  rfl

theorem RoundTrip.ringAction (c : Nat) (st : Nat) : RoundTrip.Statement (.ringAction c st) := fun _ _ he => nomatch he

theorem RoundTrip.ringBoardTimeout (c : Nat) (st : Nat) : RoundTrip.Statement (.ringBoardTimeout c st) := fun _ _ he => nomatch he

theorem RoundTrip.ringAbsent (c : Nat) (st : Nat) : RoundTrip.Statement (.ringAbsent c st) := fun _ _ he => nomatch he

theorem RoundTrip.lblAssume (d : BitVec 5) (a : BitVec 6) : RoundTrip.Statement (.lblAssume d a) := by
  intro bits word he hf
  cases he
  obtain ⟨lt, par, h1_6, h12_5, h17_3, h26_6, fd, fa⟩ := RoundTrip.form17 d a 19 0 0 0 (by decide) (by decide) (by decide) (by decide)
  refine RoundTrip.of13 lt par h1_6 ?_ hf
  unfold decMajor13
  rw [h12_5, h17_3, h26_6, fd, fa]
  rfl

theorem RoundTrip.lblWith (d : BitVec 5) (s : BitVec 5) (t : BitVec 5) : RoundTrip.Statement (.lblWith d s t) := by
  intro bits word he hf
  cases he
  obtain ⟨lt, par, h1_6, h17_3, h25_7, fd, fs, ft⟩ := RoundTrip.form0 d s t 19 1 0 (by decide) (by decide) (by decide)
  refine RoundTrip.of13 lt par h1_6 ?_ hf
  unfold decMajor13
  rw [h17_3, h25_7, fd, fs, ft]
  rfl

theorem RoundTrip.lblMerge (d : BitVec 5) (s : BitVec 5) (t : BitVec 5) : RoundTrip.Statement (.lblMerge d s t) := by
  intro bits word he hf
  cases he
  obtain ⟨lt, par, h1_6, h17_3, h25_7, fd, fs, ft⟩ := RoundTrip.form0 d s t 19 2 0 (by decide) (by decide) (by decide)
  refine RoundTrip.of13 lt par h1_6 ?_ hf
  unfold decMajor13
  rw [h17_3, h25_7, fd, fs, ft]
  rfl

theorem RoundTrip.lblGet (d : BitVec 5) (s : BitVec 5) : RoundTrip.Statement (.lblGet d s) := by
  intro bits word he hf
  cases he
  obtain ⟨lt, par, h1_6, h17_3, h20_12, fd, fs⟩ := RoundTrip.form18 d s 19 3 0 (by decide) (by decide) (by decide)
  refine RoundTrip.of13 lt par h1_6 ?_ hf
  unfold decMajor13
  rw [h17_3, h20_12, fd, fs]
  rfl

theorem RoundTrip.lblVis (d : BitVec 5) (s : BitVec 5) : RoundTrip.Statement (.lblVis d s) := by
  intro bits word he hf
  cases he
  obtain ⟨lt, par, h1_6, h17_3, h20_12, fd, fs⟩ := RoundTrip.form18 d s 19 4 0 (by decide) (by decide) (by decide)
  refine RoundTrip.of13 lt par h1_6 ?_ hf
  unfold decMajor13
  rw [h17_3, h20_12, fd, fs]
  rfl

theorem RoundTrip.lblNogood (d : BitVec 5) (s : BitVec 5) : RoundTrip.Statement (.lblNogood d s) := by
  intro bits word he hf
  cases he
  obtain ⟨lt, par, h1_6, h17_3, h20_12, fd, fs⟩ := RoundTrip.form18 d s 19 5 0 (by decide) (by decide) (by decide)
  refine RoundTrip.of13 lt par h1_6 ?_ hf
  unfold decMajor13
  rw [h17_3, h20_12, fd, fs]
  rfl

theorem RoundTrip.lblCtx (d : BitVec 5) (s : BitVec 5) : RoundTrip.Statement (.lblCtx d s) := by
  intro bits word he hf
  cases he
  obtain ⟨lt, par, h1_6, h17_3, h20_12, fd, fs⟩ := RoundTrip.form18 d s 19 6 0 (by decide) (by decide) (by decide)
  refine RoundTrip.of13 lt par h1_6 ?_ hf
  unfold decMajor13
  rw [h17_3, h20_12, fd, fs]
  rfl

theorem RoundTrip.nogoodCommit (c : Nat) (st : Nat) : RoundTrip.Statement (.nogoodCommit c st) := fun _ _ he => nomatch he

theorem RoundTrip.nogoodNotice (c : Nat) (frame : Nat) : RoundTrip.Statement (.nogoodNotice c frame) := fun _ _ he => nomatch he

theorem RoundTrip.launch (d : BitVec 5) (s : BitVec 5) : RoundTrip.Statement (.launch d s) := by
  intro bits word he hf
  cases he
  obtain ⟨lt, par, h1_6, h17_3, h20_12, fd, fs⟩ := RoundTrip.form18 d s 20 0 0 (by decide) (by decide) (by decide)
  refine RoundTrip.of14 lt par h1_6 ?_ hf
  unfold decMajor14
  rw [h17_3, h20_12, fd, fs]
  rfl

theorem RoundTrip.arm (d : BitVec 5) (s : BitVec 5) (t : BitVec 5) : RoundTrip.Statement (.arm d s t) := by
  intro bits word he hf
  cases he
  obtain ⟨lt, par, h1_6, h17_3, h25_7, fd, fs, ft⟩ := RoundTrip.form0 d s t 20 1 0 (by decide) (by decide) (by decide)
  refine RoundTrip.of14 lt par h1_6 ?_ hf
  unfold decMajor14
  rw [h17_3, h25_7, fd, fs, ft]
  rfl

theorem RoundTrip.disarm (d : BitVec 5) (t : BitVec 5) : RoundTrip.Statement (.disarm d t) := by
  intro bits word he hf
  cases he
  obtain ⟨lt, par, h1_6, h12_5, h17_3, h25_7, fd, ft⟩ := RoundTrip.form19 d t 20 0 2 0 (by decide) (by decide) (by decide) (by decide)
  refine RoundTrip.of14 lt par h1_6 ?_ hf
  unfold decMajor14
  rw [h12_5, h17_3, h25_7, fd, ft]
  rfl

theorem RoundTrip.meterReg (d : BitVec 5) (s : BitVec 5) : RoundTrip.Statement (.meterReg d s) := by
  intro bits word he hf
  cases he
  obtain ⟨lt, par, h1_6, h17_3, h20_12, fd, fs⟩ := RoundTrip.form18 d s 21 0 0 (by decide) (by decide) (by decide)
  refine RoundTrip.of15 lt par h1_6 ?_ hf
  unfold decMajor15
  rw [h17_3, h20_12, fd, fs]
  rfl

theorem RoundTrip.meterRead (d : BitVec 5) (s : BitVec 5) (t : BitVec 5) : RoundTrip.Statement (.meterRead d s t) := by
  intro bits word he hf
  cases he
  obtain ⟨lt, par, h1_6, h17_3, h25_7, fd, fs, ft⟩ := RoundTrip.form0 d s t 21 1 0 (by decide) (by decide) (by decide)
  refine RoundTrip.of15 lt par h1_6 ?_ hf
  unfold decMajor15
  rw [h17_3, h25_7, fd, fs, ft]
  rfl

theorem RoundTrip.meterCkpt (d : BitVec 5) : RoundTrip.Statement (.meterCkpt d) := by
  intro bits word he hf
  cases he
  obtain ⟨lt, par, h1_6, h12_5, h17_3, h20_12, fd⟩ := RoundTrip.form12 d 21 0 2 0 (by decide) (by decide) (by decide) (by decide)
  refine RoundTrip.of15 lt par h1_6 ?_ hf
  unfold decMajor15
  rw [h12_5, h17_3, h20_12, fd]
  rfl

theorem RoundTrip.attest (d : BitVec 5) (s : BitVec 5) : RoundTrip.Statement (.attest d s) := by
  intro bits word he hf
  cases he
  obtain ⟨lt, par, h1_6, h17_3, h20_12, fd, fs⟩ := RoundTrip.form18 d s 21 3 0 (by decide) (by decide) (by decide)
  refine RoundTrip.of15 lt par h1_6 ?_ hf
  unfold decMajor15
  rw [h17_3, h20_12, fd, fs]
  rfl

theorem RoundTrip.vld (d : BitVec 5) (s : BitVec 5) (e : BitVec 2) (k : BitVec 2) : RoundTrip.Statement (.vld d s e k) := by
  intro bits word he hf
  cases he
  obtain ⟨lt, par, h1_6, h17_3, h20_5, h27_3, fd, fs, fe, fk⟩ := RoundTrip.form20 d s e k 22 0 0 0 (by decide) (by decide) (by decide) (by decide)
  refine RoundTrip.of16 lt par h1_6 ?_ hf
  unfold decMajor16
  rw [h17_3, h20_5, h27_3, fd, fs, fe, fk]
  rfl

theorem RoundTrip.vst (s : BitVec 5) (t : BitVec 5) (e : BitVec 2) (k : BitVec 2) : RoundTrip.Statement (.vst s t e k) := by
  intro bits word he hf
  cases he
  obtain ⟨lt, par, h1_6, h7_5, h17_3, h27_3, fs, ft, fe, fk⟩ := RoundTrip.form21 s t e k 22 0 1 0 (by decide) (by decide) (by decide) (by decide)
  refine RoundTrip.of16 lt par h1_6 ?_ hf
  unfold decMajor16
  rw [h7_5, h17_3, h27_3, fs, ft, fe, fk]
  rfl

theorem RoundTrip.vlds (d : BitVec 5) (s : BitVec 5) (t : BitVec 5) (e : BitVec 2) (k : BitVec 2) : RoundTrip.Statement (.vlds d s t e k) := by
  intro bits word he hf
  cases he
  obtain ⟨lt, par, h1_6, h17_3, h27_3, fd, fs, ft, fe, fk⟩ := RoundTrip.form22 d s t e k 22 2 0 (by decide) (by decide) (by decide)
  refine RoundTrip.of16 lt par h1_6 ?_ hf
  unfold decMajor16
  rw [h17_3, h27_3, fd, fs, ft, fe, fk]
  rfl

theorem RoundTrip.vsts (d : BitVec 5) (s : BitVec 5) (t : BitVec 5) (e : BitVec 2) (k : BitVec 2) : RoundTrip.Statement (.vsts d s t e k) := by
  intro bits word he hf
  cases he
  obtain ⟨lt, par, h1_6, h17_3, h27_3, fd, fs, ft, fe, fk⟩ := RoundTrip.form22 d s t e k 22 3 0 (by decide) (by decide) (by decide)
  refine RoundTrip.of16 lt par h1_6 ?_ hf
  unfold decMajor16
  rw [h17_3, h27_3, fd, fs, ft, fe, fk]
  rfl

theorem RoundTrip.vgth (d : BitVec 5) (s : BitVec 5) (t : BitVec 5) (e : BitVec 2) (k : BitVec 2) : RoundTrip.Statement (.vgth d s t e k) := by
  intro bits word he hf
  cases he
  obtain ⟨lt, par, h1_6, h17_3, h27_3, fd, fs, ft, fe, fk⟩ := RoundTrip.form22 d s t e k 22 4 0 (by decide) (by decide) (by decide)
  refine RoundTrip.of16 lt par h1_6 ?_ hf
  unfold decMajor16
  rw [h17_3, h27_3, fd, fs, ft, fe, fk]
  rfl

theorem RoundTrip.vsct (d : BitVec 5) (s : BitVec 5) (t : BitVec 5) (e : BitVec 2) (k : BitVec 2) : RoundTrip.Statement (.vsct d s t e k) := by
  intro bits word he hf
  cases he
  obtain ⟨lt, par, h1_6, h17_3, h27_3, fd, fs, ft, fe, fk⟩ := RoundTrip.form22 d s t e k 22 5 0 (by decide) (by decide) (by decide)
  refine RoundTrip.of16 lt par h1_6 ?_ hf
  unfold decMajor16
  rw [h17_3, h27_3, fd, fs, ft, fe, fk]
  rfl

theorem RoundTrip.vbc (d : BitVec 5) (s : BitVec 5) (e : BitVec 2) (k : BitVec 2) : RoundTrip.Statement (.vbc d s e k) := by
  intro bits word he hf
  cases he
  obtain ⟨lt, par, h1_6, h17_3, h20_5, h27_3, fd, fs, fe, fk⟩ := RoundTrip.form20 d s e k 22 6 0 0 (by decide) (by decide) (by decide) (by decide)
  refine RoundTrip.of16 lt par h1_6 ?_ hf
  unfold decMajor16
  rw [h17_3, h20_5, h27_3, fd, fs, fe, fk]
  rfl

theorem RoundTrip.vadd (d : BitVec 5) (s : BitVec 5) (t : BitVec 5) (e : BitVec 2) (k : BitVec 2) : RoundTrip.Statement (.vadd d s t e k) := by
  intro bits word he hf
  cases he
  obtain ⟨lt, par, h1_6, h17_3, h27_3, fd, fs, ft, fe, fk⟩ := RoundTrip.form22 d s t e k 23 0 0 (by decide) (by decide) (by decide)
  refine RoundTrip.of17 lt par h1_6 ?_ hf
  unfold decMajor17
  rw [h17_3, h27_3, fd, fs, ft, fe, fk]
  rfl

theorem RoundTrip.vsub (d : BitVec 5) (s : BitVec 5) (t : BitVec 5) (e : BitVec 2) (k : BitVec 2) : RoundTrip.Statement (.vsub d s t e k) := by
  intro bits word he hf
  cases he
  obtain ⟨lt, par, h1_6, h17_3, h27_3, fd, fs, ft, fe, fk⟩ := RoundTrip.form22 d s t e k 23 0 1 (by decide) (by decide) (by decide)
  refine RoundTrip.of17 lt par h1_6 ?_ hf
  unfold decMajor17
  rw [h17_3, h27_3, fd, fs, ft, fe, fk]
  rfl

theorem RoundTrip.vmul (d : BitVec 5) (s : BitVec 5) (t : BitVec 5) (e : BitVec 2) (k : BitVec 2) : RoundTrip.Statement (.vmul d s t e k) := by
  intro bits word he hf
  cases he
  obtain ⟨lt, par, h1_6, h17_3, h27_3, fd, fs, ft, fe, fk⟩ := RoundTrip.form22 d s t e k 23 0 2 (by decide) (by decide) (by decide)
  refine RoundTrip.of17 lt par h1_6 ?_ hf
  unfold decMajor17
  rw [h17_3, h27_3, fd, fs, ft, fe, fk]
  rfl

theorem RoundTrip.vmulh (d : BitVec 5) (s : BitVec 5) (t : BitVec 5) (e : BitVec 2) (k : BitVec 2) : RoundTrip.Statement (.vmulh d s t e k) := by
  intro bits word he hf
  cases he
  obtain ⟨lt, par, h1_6, h17_3, h27_3, fd, fs, ft, fe, fk⟩ := RoundTrip.form22 d s t e k 23 0 3 (by decide) (by decide) (by decide)
  refine RoundTrip.of17 lt par h1_6 ?_ hf
  unfold decMajor17
  rw [h17_3, h27_3, fd, fs, ft, fe, fk]
  rfl

theorem RoundTrip.vmin (d : BitVec 5) (s : BitVec 5) (t : BitVec 5) (e : BitVec 2) (k : BitVec 2) : RoundTrip.Statement (.vmin d s t e k) := by
  intro bits word he hf
  cases he
  obtain ⟨lt, par, h1_6, h17_3, h27_3, fd, fs, ft, fe, fk⟩ := RoundTrip.form22 d s t e k 23 0 4 (by decide) (by decide) (by decide)
  refine RoundTrip.of17 lt par h1_6 ?_ hf
  unfold decMajor17
  rw [h17_3, h27_3, fd, fs, ft, fe, fk]
  rfl

theorem RoundTrip.vmax (d : BitVec 5) (s : BitVec 5) (t : BitVec 5) (e : BitVec 2) (k : BitVec 2) : RoundTrip.Statement (.vmax d s t e k) := by
  intro bits word he hf
  cases he
  obtain ⟨lt, par, h1_6, h17_3, h27_3, fd, fs, ft, fe, fk⟩ := RoundTrip.form22 d s t e k 23 0 5 (by decide) (by decide) (by decide)
  refine RoundTrip.of17 lt par h1_6 ?_ hf
  unfold decMajor17
  rw [h17_3, h27_3, fd, fs, ft, fe, fk]
  rfl

theorem RoundTrip.vminu (d : BitVec 5) (s : BitVec 5) (t : BitVec 5) (e : BitVec 2) (k : BitVec 2) : RoundTrip.Statement (.vminu d s t e k) := by
  intro bits word he hf
  cases he
  obtain ⟨lt, par, h1_6, h17_3, h27_3, fd, fs, ft, fe, fk⟩ := RoundTrip.form22 d s t e k 23 0 6 (by decide) (by decide) (by decide)
  refine RoundTrip.of17 lt par h1_6 ?_ hf
  unfold decMajor17
  rw [h17_3, h27_3, fd, fs, ft, fe, fk]
  rfl

theorem RoundTrip.vmaxu (d : BitVec 5) (s : BitVec 5) (t : BitVec 5) (e : BitVec 2) (k : BitVec 2) : RoundTrip.Statement (.vmaxu d s t e k) := by
  intro bits word he hf
  cases he
  obtain ⟨lt, par, h1_6, h17_3, h27_3, fd, fs, ft, fe, fk⟩ := RoundTrip.form22 d s t e k 23 0 7 (by decide) (by decide) (by decide)
  refine RoundTrip.of17 lt par h1_6 ?_ hf
  unfold decMajor17
  rw [h17_3, h27_3, fd, fs, ft, fe, fk]
  rfl

theorem RoundTrip.vadds (d : BitVec 5) (s : BitVec 5) (t : BitVec 5) (e : BitVec 2) (k : BitVec 2) : RoundTrip.Statement (.vadds d s t e k) := by
  intro bits word he hf
  cases he
  obtain ⟨lt, par, h1_6, h17_3, h27_3, fd, fs, ft, fe, fk⟩ := RoundTrip.form22 d s t e k 23 1 0 (by decide) (by decide) (by decide)
  refine RoundTrip.of17 lt par h1_6 ?_ hf
  unfold decMajor17
  rw [h17_3, h27_3, fd, fs, ft, fe, fk]
  rfl

theorem RoundTrip.vaddus (d : BitVec 5) (s : BitVec 5) (t : BitVec 5) (e : BitVec 2) (k : BitVec 2) : RoundTrip.Statement (.vaddus d s t e k) := by
  intro bits word he hf
  cases he
  obtain ⟨lt, par, h1_6, h17_3, h27_3, fd, fs, ft, fe, fk⟩ := RoundTrip.form22 d s t e k 23 1 1 (by decide) (by decide) (by decide)
  refine RoundTrip.of17 lt par h1_6 ?_ hf
  unfold decMajor17
  rw [h17_3, h27_3, fd, fs, ft, fe, fk]
  rfl

theorem RoundTrip.vsubs (d : BitVec 5) (s : BitVec 5) (t : BitVec 5) (e : BitVec 2) (k : BitVec 2) : RoundTrip.Statement (.vsubs d s t e k) := by
  intro bits word he hf
  cases he
  obtain ⟨lt, par, h1_6, h17_3, h27_3, fd, fs, ft, fe, fk⟩ := RoundTrip.form22 d s t e k 23 1 2 (by decide) (by decide) (by decide)
  refine RoundTrip.of17 lt par h1_6 ?_ hf
  unfold decMajor17
  rw [h17_3, h27_3, fd, fs, ft, fe, fk]
  rfl

theorem RoundTrip.vsubus (d : BitVec 5) (s : BitVec 5) (t : BitVec 5) (e : BitVec 2) (k : BitVec 2) : RoundTrip.Statement (.vsubus d s t e k) := by
  intro bits word he hf
  cases he
  obtain ⟨lt, par, h1_6, h17_3, h27_3, fd, fs, ft, fe, fk⟩ := RoundTrip.form22 d s t e k 23 1 3 (by decide) (by decide) (by decide)
  refine RoundTrip.of17 lt par h1_6 ?_ hf
  unfold decMajor17
  rw [h17_3, h27_3, fd, fs, ft, fe, fk]
  rfl

theorem RoundTrip.vand (d : BitVec 5) (s : BitVec 5) (t : BitVec 5) (e : BitVec 2) (k : BitVec 2) : RoundTrip.Statement (.vand d s t e k) := by
  intro bits word he hf
  cases he
  obtain ⟨lt, par, h1_6, h17_3, h27_3, fd, fs, ft, fe, fk⟩ := RoundTrip.form22 d s t e k 23 2 0 (by decide) (by decide) (by decide)
  refine RoundTrip.of17 lt par h1_6 ?_ hf
  unfold decMajor17
  rw [h17_3, h27_3, fd, fs, ft, fe, fk]
  rfl

theorem RoundTrip.vor (d : BitVec 5) (s : BitVec 5) (t : BitVec 5) (e : BitVec 2) (k : BitVec 2) : RoundTrip.Statement (.vor d s t e k) := by
  intro bits word he hf
  cases he
  obtain ⟨lt, par, h1_6, h17_3, h27_3, fd, fs, ft, fe, fk⟩ := RoundTrip.form22 d s t e k 23 2 1 (by decide) (by decide) (by decide)
  refine RoundTrip.of17 lt par h1_6 ?_ hf
  unfold decMajor17
  rw [h17_3, h27_3, fd, fs, ft, fe, fk]
  rfl

theorem RoundTrip.vxor (d : BitVec 5) (s : BitVec 5) (t : BitVec 5) (e : BitVec 2) (k : BitVec 2) : RoundTrip.Statement (.vxor d s t e k) := by
  intro bits word he hf
  cases he
  obtain ⟨lt, par, h1_6, h17_3, h27_3, fd, fs, ft, fe, fk⟩ := RoundTrip.form22 d s t e k 23 2 2 (by decide) (by decide) (by decide)
  refine RoundTrip.of17 lt par h1_6 ?_ hf
  unfold decMajor17
  rw [h17_3, h27_3, fd, fs, ft, fe, fk]
  rfl

theorem RoundTrip.vandn (d : BitVec 5) (s : BitVec 5) (t : BitVec 5) (e : BitVec 2) (k : BitVec 2) : RoundTrip.Statement (.vandn d s t e k) := by
  intro bits word he hf
  cases he
  obtain ⟨lt, par, h1_6, h17_3, h27_3, fd, fs, ft, fe, fk⟩ := RoundTrip.form22 d s t e k 23 2 3 (by decide) (by decide) (by decide)
  refine RoundTrip.of17 lt par h1_6 ?_ hf
  unfold decMajor17
  rw [h17_3, h27_3, fd, fs, ft, fe, fk]
  rfl

theorem RoundTrip.vsll (d : BitVec 5) (s : BitVec 5) (t : BitVec 5) (e : BitVec 2) (k : BitVec 2) : RoundTrip.Statement (.vsll d s t e k) := by
  intro bits word he hf
  cases he
  obtain ⟨lt, par, h1_6, h17_3, h27_3, fd, fs, ft, fe, fk⟩ := RoundTrip.form22 d s t e k 23 3 0 (by decide) (by decide) (by decide)
  refine RoundTrip.of17 lt par h1_6 ?_ hf
  unfold decMajor17
  rw [h17_3, h27_3, fd, fs, ft, fe, fk]
  rfl

theorem RoundTrip.vsrl (d : BitVec 5) (s : BitVec 5) (t : BitVec 5) (e : BitVec 2) (k : BitVec 2) : RoundTrip.Statement (.vsrl d s t e k) := by
  intro bits word he hf
  cases he
  obtain ⟨lt, par, h1_6, h17_3, h27_3, fd, fs, ft, fe, fk⟩ := RoundTrip.form22 d s t e k 23 3 1 (by decide) (by decide) (by decide)
  refine RoundTrip.of17 lt par h1_6 ?_ hf
  unfold decMajor17
  rw [h17_3, h27_3, fd, fs, ft, fe, fk]
  rfl

theorem RoundTrip.vsra (d : BitVec 5) (s : BitVec 5) (t : BitVec 5) (e : BitVec 2) (k : BitVec 2) : RoundTrip.Statement (.vsra d s t e k) := by
  intro bits word he hf
  cases he
  obtain ⟨lt, par, h1_6, h17_3, h27_3, fd, fs, ft, fe, fk⟩ := RoundTrip.form22 d s t e k 23 3 2 (by decide) (by decide) (by decide)
  refine RoundTrip.of17 lt par h1_6 ?_ hf
  unfold decMajor17
  rw [h17_3, h27_3, fd, fs, ft, fe, fk]
  rfl

theorem RoundTrip.vcmpEq (c : BitVec 2) (s : BitVec 5) (t : BitVec 5) (e : BitVec 2) (k : BitVec 2) : RoundTrip.Statement (.vcmpEq c s t e k) := by
  intro bits word he hf
  cases he
  obtain ⟨lt, par, h1_6, h9_3, h17_3, h27_3, fc, fs, ft, fe, fk⟩ := RoundTrip.form23 c s t e k 23 0 4 0 (by decide) (by decide) (by decide) (by decide)
  refine RoundTrip.of17 lt par h1_6 ?_ hf
  unfold decMajor17
  rw [h9_3, h17_3, h27_3, fc, fs, ft, fe, fk]
  rfl

theorem RoundTrip.vcmpNe (c : BitVec 2) (s : BitVec 5) (t : BitVec 5) (e : BitVec 2) (k : BitVec 2) : RoundTrip.Statement (.vcmpNe c s t e k) := by
  intro bits word he hf
  cases he
  obtain ⟨lt, par, h1_6, h9_3, h17_3, h27_3, fc, fs, ft, fe, fk⟩ := RoundTrip.form23 c s t e k 23 0 4 1 (by decide) (by decide) (by decide) (by decide)
  refine RoundTrip.of17 lt par h1_6 ?_ hf
  unfold decMajor17
  rw [h9_3, h17_3, h27_3, fc, fs, ft, fe, fk]
  rfl

theorem RoundTrip.vcmpLt (c : BitVec 2) (s : BitVec 5) (t : BitVec 5) (e : BitVec 2) (k : BitVec 2) : RoundTrip.Statement (.vcmpLt c s t e k) := by
  intro bits word he hf
  cases he
  obtain ⟨lt, par, h1_6, h9_3, h17_3, h27_3, fc, fs, ft, fe, fk⟩ := RoundTrip.form23 c s t e k 23 0 4 2 (by decide) (by decide) (by decide) (by decide)
  refine RoundTrip.of17 lt par h1_6 ?_ hf
  unfold decMajor17
  rw [h9_3, h17_3, h27_3, fc, fs, ft, fe, fk]
  rfl

theorem RoundTrip.vcmpGe (c : BitVec 2) (s : BitVec 5) (t : BitVec 5) (e : BitVec 2) (k : BitVec 2) : RoundTrip.Statement (.vcmpGe c s t e k) := by
  intro bits word he hf
  cases he
  obtain ⟨lt, par, h1_6, h9_3, h17_3, h27_3, fc, fs, ft, fe, fk⟩ := RoundTrip.form23 c s t e k 23 0 4 3 (by decide) (by decide) (by decide) (by decide)
  refine RoundTrip.of17 lt par h1_6 ?_ hf
  unfold decMajor17
  rw [h9_3, h17_3, h27_3, fc, fs, ft, fe, fk]
  rfl

theorem RoundTrip.vcmpLtu (c : BitVec 2) (s : BitVec 5) (t : BitVec 5) (e : BitVec 2) (k : BitVec 2) : RoundTrip.Statement (.vcmpLtu c s t e k) := by
  intro bits word he hf
  cases he
  obtain ⟨lt, par, h1_6, h9_3, h17_3, h27_3, fc, fs, ft, fe, fk⟩ := RoundTrip.form23 c s t e k 23 0 4 4 (by decide) (by decide) (by decide) (by decide)
  refine RoundTrip.of17 lt par h1_6 ?_ hf
  unfold decMajor17
  rw [h9_3, h17_3, h27_3, fc, fs, ft, fe, fk]
  rfl

theorem RoundTrip.vcmpGeu (c : BitVec 2) (s : BitVec 5) (t : BitVec 5) (e : BitVec 2) (k : BitVec 2) : RoundTrip.Statement (.vcmpGeu c s t e k) := by
  intro bits word he hf
  cases he
  obtain ⟨lt, par, h1_6, h9_3, h17_3, h27_3, fc, fs, ft, fe, fk⟩ := RoundTrip.form23 c s t e k 23 0 4 5 (by decide) (by decide) (by decide) (by decide)
  refine RoundTrip.of17 lt par h1_6 ?_ hf
  unfold decMajor17
  rw [h9_3, h17_3, h27_3, fc, fs, ft, fe, fk]
  rfl

theorem RoundTrip.vsplat (d : BitVec 5) (s : BitVec 5) (e : BitVec 2) (k : BitVec 2) : RoundTrip.Statement (.vsplat d s e k) := by
  intro bits word he hf
  cases he
  obtain ⟨lt, par, h1_6, h17_3, h20_5, h27_3, fd, fs, fe, fk⟩ := RoundTrip.form20 d s e k 23 5 0 0 (by decide) (by decide) (by decide) (by decide)
  refine RoundTrip.of17 lt par h1_6 ?_ hf
  unfold decMajor17
  rw [h17_3, h20_5, h27_3, fd, fs, fe, fk]
  rfl

theorem RoundTrip.vext (d : BitVec 5) (s : BitVec 5) (t : BitVec 5) (e : BitVec 2) : RoundTrip.Statement (.vext d s t e) := by
  intro bits word he hf
  cases he
  obtain ⟨lt, par, h1_6, h17_3, h27_3, h30_2, fd, fs, ft, fe⟩ := RoundTrip.form24 d s t e 23 5 1 0 (by decide) (by decide) (by decide) (by decide)
  refine RoundTrip.of17 lt par h1_6 ?_ hf
  unfold decMajor17
  rw [h17_3, h27_3, h30_2, fd, fs, ft, fe]
  rfl

theorem RoundTrip.vins (d : BitVec 5) (s : BitVec 5) (t : BitVec 5) (e : BitVec 2) : RoundTrip.Statement (.vins d s t e) := by
  intro bits word he hf
  cases he
  obtain ⟨lt, par, h1_6, h17_3, h27_3, h30_2, fd, fs, ft, fe⟩ := RoundTrip.form24 d s t e 23 5 2 0 (by decide) (by decide) (by decide) (by decide)
  refine RoundTrip.of17 lt par h1_6 ?_ hf
  unfold decMajor17
  rw [h17_3, h27_3, h30_2, fd, fs, ft, fe]
  rfl

theorem RoundTrip.vmv (d : BitVec 5) (s : BitVec 5) (e : BitVec 2) (k : BitVec 2) : RoundTrip.Statement (.vmv d s e k) := by
  intro bits word he hf
  cases he
  obtain ⟨lt, par, h1_6, h17_3, h20_5, h27_3, fd, fs, fe, fk⟩ := RoundTrip.form20 d s e k 23 5 0 3 (by decide) (by decide) (by decide) (by decide)
  refine RoundTrip.of17 lt par h1_6 ?_ hf
  unfold decMajor17
  rw [h17_3, h20_5, h27_3, fd, fs, fe, fk]
  rfl

theorem RoundTrip.vfadd (d : BitVec 5) (s : BitVec 5) (t : BitVec 5) (e : BitVec 2) (k : BitVec 2) : RoundTrip.Statement (.vfadd d s t e k) := by
  intro bits word he hf
  cases he
  obtain ⟨lt, par, h1_6, h17_3, h27_3, fd, fs, ft, fe, fk⟩ := RoundTrip.form22 d s t e k 24 0 0 (by decide) (by decide) (by decide)
  refine RoundTrip.of18 lt par h1_6 ?_ hf
  unfold decMajor18
  rw [h17_3, h27_3, fd, fs, ft, fe, fk]
  rfl

theorem RoundTrip.vfsub (d : BitVec 5) (s : BitVec 5) (t : BitVec 5) (e : BitVec 2) (k : BitVec 2) : RoundTrip.Statement (.vfsub d s t e k) := by
  intro bits word he hf
  cases he
  obtain ⟨lt, par, h1_6, h17_3, h27_3, fd, fs, ft, fe, fk⟩ := RoundTrip.form22 d s t e k 24 0 1 (by decide) (by decide) (by decide)
  refine RoundTrip.of18 lt par h1_6 ?_ hf
  unfold decMajor18
  rw [h17_3, h27_3, fd, fs, ft, fe, fk]
  rfl

theorem RoundTrip.vfmul (d : BitVec 5) (s : BitVec 5) (t : BitVec 5) (e : BitVec 2) (k : BitVec 2) : RoundTrip.Statement (.vfmul d s t e k) := by
  intro bits word he hf
  cases he
  obtain ⟨lt, par, h1_6, h17_3, h27_3, fd, fs, ft, fe, fk⟩ := RoundTrip.form22 d s t e k 24 0 2 (by decide) (by decide) (by decide)
  refine RoundTrip.of18 lt par h1_6 ?_ hf
  unfold decMajor18
  rw [h17_3, h27_3, fd, fs, ft, fe, fk]
  rfl

theorem RoundTrip.vfdiv (d : BitVec 5) (s : BitVec 5) (t : BitVec 5) (e : BitVec 2) (k : BitVec 2) : RoundTrip.Statement (.vfdiv d s t e k) := by
  intro bits word he hf
  cases he
  obtain ⟨lt, par, h1_6, h17_3, h27_3, fd, fs, ft, fe, fk⟩ := RoundTrip.form22 d s t e k 24 0 3 (by decide) (by decide) (by decide)
  refine RoundTrip.of18 lt par h1_6 ?_ hf
  unfold decMajor18
  rw [h17_3, h27_3, fd, fs, ft, fe, fk]
  rfl

theorem RoundTrip.vfmin (d : BitVec 5) (s : BitVec 5) (t : BitVec 5) (e : BitVec 2) (k : BitVec 2) : RoundTrip.Statement (.vfmin d s t e k) := by
  intro bits word he hf
  cases he
  obtain ⟨lt, par, h1_6, h17_3, h27_3, fd, fs, ft, fe, fk⟩ := RoundTrip.form22 d s t e k 24 0 4 (by decide) (by decide) (by decide)
  refine RoundTrip.of18 lt par h1_6 ?_ hf
  unfold decMajor18
  rw [h17_3, h27_3, fd, fs, ft, fe, fk]
  rfl

theorem RoundTrip.vfmax (d : BitVec 5) (s : BitVec 5) (t : BitVec 5) (e : BitVec 2) (k : BitVec 2) : RoundTrip.Statement (.vfmax d s t e k) := by
  intro bits word he hf
  cases he
  obtain ⟨lt, par, h1_6, h17_3, h27_3, fd, fs, ft, fe, fk⟩ := RoundTrip.form22 d s t e k 24 0 5 (by decide) (by decide) (by decide)
  refine RoundTrip.of18 lt par h1_6 ?_ hf
  unfold decMajor18
  rw [h17_3, h27_3, fd, fs, ft, fe, fk]
  rfl

theorem RoundTrip.vfsqrt (d : BitVec 5) (s : BitVec 5) (e : BitVec 2) (k : BitVec 2) : RoundTrip.Statement (.vfsqrt d s e k) := by
  intro bits word he hf
  cases he
  obtain ⟨lt, par, h1_6, h17_3, h20_5, h27_3, fd, fs, fe, fk⟩ := RoundTrip.form20 d s e k 24 0 0 6 (by decide) (by decide) (by decide) (by decide)
  refine RoundTrip.of18 lt par h1_6 ?_ hf
  unfold decMajor18
  rw [h17_3, h20_5, h27_3, fd, fs, fe, fk]
  rfl

theorem RoundTrip.vfma (d : BitVec 5) (s : BitVec 5) (t : BitVec 5) (e : BitVec 2) (k : BitVec 2) : RoundTrip.Statement (.vfma d s t e k) := by
  intro bits word he hf
  cases he
  obtain ⟨lt, par, h1_6, h17_3, h27_3, fd, fs, ft, fe, fk⟩ := RoundTrip.form22 d s t e k 24 1 0 (by decide) (by decide) (by decide)
  refine RoundTrip.of18 lt par h1_6 ?_ hf
  unfold decMajor18
  rw [h17_3, h27_3, fd, fs, ft, fe, fk]
  rfl

theorem RoundTrip.vfnms (d : BitVec 5) (s : BitVec 5) (t : BitVec 5) (e : BitVec 2) (k : BitVec 2) : RoundTrip.Statement (.vfnms d s t e k) := by
  intro bits word he hf
  cases he
  obtain ⟨lt, par, h1_6, h17_3, h27_3, fd, fs, ft, fe, fk⟩ := RoundTrip.form22 d s t e k 24 1 1 (by decide) (by decide) (by decide)
  refine RoundTrip.of18 lt par h1_6 ?_ hf
  unfold decMajor18
  rw [h17_3, h27_3, fd, fs, ft, fe, fk]
  rfl

theorem RoundTrip.vfcmpEq (c : BitVec 2) (s : BitVec 5) (t : BitVec 5) (e : BitVec 2) (k : BitVec 2) : RoundTrip.Statement (.vfcmpEq c s t e k) := by
  intro bits word he hf
  cases he
  obtain ⟨lt, par, h1_6, h9_3, h17_3, h27_3, fc, fs, ft, fe, fk⟩ := RoundTrip.form23 c s t e k 24 0 2 0 (by decide) (by decide) (by decide) (by decide)
  refine RoundTrip.of18 lt par h1_6 ?_ hf
  unfold decMajor18
  rw [h9_3, h17_3, h27_3, fc, fs, ft, fe, fk]
  rfl

theorem RoundTrip.vfcmpLt (c : BitVec 2) (s : BitVec 5) (t : BitVec 5) (e : BitVec 2) (k : BitVec 2) : RoundTrip.Statement (.vfcmpLt c s t e k) := by
  intro bits word he hf
  cases he
  obtain ⟨lt, par, h1_6, h9_3, h17_3, h27_3, fc, fs, ft, fe, fk⟩ := RoundTrip.form23 c s t e k 24 0 2 1 (by decide) (by decide) (by decide) (by decide)
  refine RoundTrip.of18 lt par h1_6 ?_ hf
  unfold decMajor18
  rw [h9_3, h17_3, h27_3, fc, fs, ft, fe, fk]
  rfl

theorem RoundTrip.vfcmpLe (c : BitVec 2) (s : BitVec 5) (t : BitVec 5) (e : BitVec 2) (k : BitVec 2) : RoundTrip.Statement (.vfcmpLe c s t e k) := by
  intro bits word he hf
  cases he
  obtain ⟨lt, par, h1_6, h9_3, h17_3, h27_3, fc, fs, ft, fe, fk⟩ := RoundTrip.form23 c s t e k 24 0 2 2 (by decide) (by decide) (by decide) (by decide)
  refine RoundTrip.of18 lt par h1_6 ?_ hf
  unfold decMajor18
  rw [h9_3, h17_3, h27_3, fc, fs, ft, fe, fk]
  rfl

theorem RoundTrip.vcvtF32F16 (d : BitVec 5) (s : BitVec 5) (p : BitVec 2) (k : BitVec 2) : RoundTrip.Statement (.vcvtF32F16 d s p k) := by
  intro bits word he hf
  cases he
  obtain ⟨lt, par, h1_6, h17_3, h22_3, h25_5, fd, fs, fp, fk⟩ := RoundTrip.form25 d s p k 25 0 0 0 (by decide) (by decide) (by decide) (by decide)
  refine RoundTrip.of19 lt par h1_6 ?_ hf
  unfold decMajor19
  rw [h17_3, h22_3, h25_5, fd, fs, fp, fk]
  rfl

theorem RoundTrip.vcvtF32Bf16 (d : BitVec 5) (s : BitVec 5) (p : BitVec 2) (k : BitVec 2) : RoundTrip.Statement (.vcvtF32Bf16 d s p k) := by
  intro bits word he hf
  cases he
  obtain ⟨lt, par, h1_6, h17_3, h22_3, h25_5, fd, fs, fp, fk⟩ := RoundTrip.form25 d s p k 25 0 0 1 (by decide) (by decide) (by decide) (by decide)
  refine RoundTrip.of19 lt par h1_6 ?_ hf
  unfold decMajor19
  rw [h17_3, h22_3, h25_5, fd, fs, fp, fk]
  rfl

theorem RoundTrip.vcvtF32E4m3 (d : BitVec 5) (s : BitVec 5) (p : BitVec 2) (k : BitVec 2) : RoundTrip.Statement (.vcvtF32E4m3 d s p k) := by
  intro bits word he hf
  cases he
  obtain ⟨lt, par, h1_6, h17_3, h22_3, h25_5, fd, fs, fp, fk⟩ := RoundTrip.form25 d s p k 25 0 0 2 (by decide) (by decide) (by decide) (by decide)
  refine RoundTrip.of19 lt par h1_6 ?_ hf
  unfold decMajor19
  rw [h17_3, h22_3, h25_5, fd, fs, fp, fk]
  rfl

theorem RoundTrip.vcvtF32E5m2 (d : BitVec 5) (s : BitVec 5) (p : BitVec 2) (k : BitVec 2) : RoundTrip.Statement (.vcvtF32E5m2 d s p k) := by
  intro bits word he hf
  cases he
  obtain ⟨lt, par, h1_6, h17_3, h22_3, h25_5, fd, fs, fp, fk⟩ := RoundTrip.form25 d s p k 25 0 0 3 (by decide) (by decide) (by decide) (by decide)
  refine RoundTrip.of19 lt par h1_6 ?_ hf
  unfold decMajor19
  rw [h17_3, h22_3, h25_5, fd, fs, fp, fk]
  rfl

theorem RoundTrip.vcvtF16F32 (d : BitVec 5) (s : BitVec 5) (p : BitVec 2) (k : BitVec 2) : RoundTrip.Statement (.vcvtF16F32 d s p k) := by
  intro bits word he hf
  cases he
  obtain ⟨lt, par, h1_6, h17_3, h22_3, h25_5, fd, fs, fp, fk⟩ := RoundTrip.form25 d s p k 25 0 0 4 (by decide) (by decide) (by decide) (by decide)
  refine RoundTrip.of19 lt par h1_6 ?_ hf
  unfold decMajor19
  rw [h17_3, h22_3, h25_5, fd, fs, fp, fk]
  rfl

theorem RoundTrip.vcvtBf16F32 (d : BitVec 5) (s : BitVec 5) (p : BitVec 2) (k : BitVec 2) : RoundTrip.Statement (.vcvtBf16F32 d s p k) := by
  intro bits word he hf
  cases he
  obtain ⟨lt, par, h1_6, h17_3, h22_3, h25_5, fd, fs, fp, fk⟩ := RoundTrip.form25 d s p k 25 0 0 5 (by decide) (by decide) (by decide) (by decide)
  refine RoundTrip.of19 lt par h1_6 ?_ hf
  unfold decMajor19
  rw [h17_3, h22_3, h25_5, fd, fs, fp, fk]
  rfl

theorem RoundTrip.vcvtE4m3F32 (d : BitVec 5) (s : BitVec 5) (p : BitVec 2) (k : BitVec 2) : RoundTrip.Statement (.vcvtE4m3F32 d s p k) := by
  intro bits word he hf
  cases he
  obtain ⟨lt, par, h1_6, h17_3, h22_3, h25_5, fd, fs, fp, fk⟩ := RoundTrip.form25 d s p k 25 0 0 6 (by decide) (by decide) (by decide) (by decide)
  refine RoundTrip.of19 lt par h1_6 ?_ hf
  unfold decMajor19
  rw [h17_3, h22_3, h25_5, fd, fs, fp, fk]
  rfl

theorem RoundTrip.vcvtE5m2F32 (d : BitVec 5) (s : BitVec 5) (p : BitVec 2) (k : BitVec 2) : RoundTrip.Statement (.vcvtE5m2F32 d s p k) := by
  intro bits word he hf
  cases he
  obtain ⟨lt, par, h1_6, h17_3, h22_3, h25_5, fd, fs, fp, fk⟩ := RoundTrip.form25 d s p k 25 0 0 7 (by decide) (by decide) (by decide) (by decide)
  refine RoundTrip.of19 lt par h1_6 ?_ hf
  unfold decMajor19
  rw [h17_3, h22_3, h25_5, fd, fs, fp, fk]
  rfl

theorem RoundTrip.vcvtI32F32 (d : BitVec 5) (s : BitVec 5) (p : BitVec 2) (k : BitVec 2) : RoundTrip.Statement (.vcvtI32F32 d s p k) := by
  intro bits word he hf
  cases he
  obtain ⟨lt, par, h1_6, h17_3, h22_3, h25_5, fd, fs, fp, fk⟩ := RoundTrip.form25 d s p k 25 0 0 8 (by decide) (by decide) (by decide) (by decide)
  refine RoundTrip.of19 lt par h1_6 ?_ hf
  unfold decMajor19
  rw [h17_3, h22_3, h25_5, fd, fs, fp, fk]
  rfl

theorem RoundTrip.vcvtI32F32Rtz (d : BitVec 5) (s : BitVec 5) (p : BitVec 2) (k : BitVec 2) : RoundTrip.Statement (.vcvtI32F32Rtz d s p k) := by
  intro bits word he hf
  cases he
  obtain ⟨lt, par, h1_6, h17_3, h22_3, h25_5, fd, fs, fp, fk⟩ := RoundTrip.form25 d s p k 25 0 0 9 (by decide) (by decide) (by decide) (by decide)
  refine RoundTrip.of19 lt par h1_6 ?_ hf
  unfold decMajor19
  rw [h17_3, h22_3, h25_5, fd, fs, fp, fk]
  rfl

theorem RoundTrip.vcvtF32I32 (d : BitVec 5) (s : BitVec 5) (p : BitVec 2) (k : BitVec 2) : RoundTrip.Statement (.vcvtF32I32 d s p k) := by
  intro bits word he hf
  cases he
  obtain ⟨lt, par, h1_6, h17_3, h22_3, h25_5, fd, fs, fp, fk⟩ := RoundTrip.form25 d s p k 25 0 0 10 (by decide) (by decide) (by decide) (by decide)
  refine RoundTrip.of19 lt par h1_6 ?_ hf
  unfold decMajor19
  rw [h17_3, h22_3, h25_5, fd, fs, fp, fk]
  rfl

theorem RoundTrip.vcvtUi32F32 (d : BitVec 5) (s : BitVec 5) (p : BitVec 2) (k : BitVec 2) : RoundTrip.Statement (.vcvtUi32F32 d s p k) := by
  intro bits word he hf
  cases he
  obtain ⟨lt, par, h1_6, h17_3, h22_3, h25_5, fd, fs, fp, fk⟩ := RoundTrip.form25 d s p k 25 0 0 11 (by decide) (by decide) (by decide) (by decide)
  refine RoundTrip.of19 lt par h1_6 ?_ hf
  unfold decMajor19
  rw [h17_3, h22_3, h25_5, fd, fs, fp, fk]
  rfl

theorem RoundTrip.vcvtUi32F32Rtz (d : BitVec 5) (s : BitVec 5) (p : BitVec 2) (k : BitVec 2) : RoundTrip.Statement (.vcvtUi32F32Rtz d s p k) := by
  intro bits word he hf
  cases he
  obtain ⟨lt, par, h1_6, h17_3, h22_3, h25_5, fd, fs, fp, fk⟩ := RoundTrip.form25 d s p k 25 0 0 12 (by decide) (by decide) (by decide) (by decide)
  refine RoundTrip.of19 lt par h1_6 ?_ hf
  unfold decMajor19
  rw [h17_3, h22_3, h25_5, fd, fs, fp, fk]
  rfl

theorem RoundTrip.vcvtF32Ui32 (d : BitVec 5) (s : BitVec 5) (p : BitVec 2) (k : BitVec 2) : RoundTrip.Statement (.vcvtF32Ui32 d s p k) := by
  intro bits word he hf
  cases he
  obtain ⟨lt, par, h1_6, h17_3, h22_3, h25_5, fd, fs, fp, fk⟩ := RoundTrip.form25 d s p k 25 0 0 13 (by decide) (by decide) (by decide) (by decide)
  refine RoundTrip.of19 lt par h1_6 ?_ hf
  unfold decMajor19
  rw [h17_3, h22_3, h25_5, fd, fs, fp, fk]
  rfl

theorem RoundTrip.vcvtI8F32 (d : BitVec 5) (s : BitVec 5) (p : BitVec 2) (k : BitVec 2) : RoundTrip.Statement (.vcvtI8F32 d s p k) := by
  intro bits word he hf
  cases he
  obtain ⟨lt, par, h1_6, h17_3, h22_3, h25_5, fd, fs, fp, fk⟩ := RoundTrip.form25 d s p k 25 0 0 14 (by decide) (by decide) (by decide) (by decide)
  refine RoundTrip.of19 lt par h1_6 ?_ hf
  unfold decMajor19
  rw [h17_3, h22_3, h25_5, fd, fs, fp, fk]
  rfl

theorem RoundTrip.vcvtI8F32Rtz (d : BitVec 5) (s : BitVec 5) (p : BitVec 2) (k : BitVec 2) : RoundTrip.Statement (.vcvtI8F32Rtz d s p k) := by
  intro bits word he hf
  cases he
  obtain ⟨lt, par, h1_6, h17_3, h22_3, h25_5, fd, fs, fp, fk⟩ := RoundTrip.form25 d s p k 25 0 0 15 (by decide) (by decide) (by decide) (by decide)
  refine RoundTrip.of19 lt par h1_6 ?_ hf
  unfold decMajor19
  rw [h17_3, h22_3, h25_5, fd, fs, fp, fk]
  rfl

theorem RoundTrip.vcvtF32I8 (d : BitVec 5) (s : BitVec 5) (p : BitVec 2) (k : BitVec 2) : RoundTrip.Statement (.vcvtF32I8 d s p k) := by
  intro bits word he hf
  cases he
  obtain ⟨lt, par, h1_6, h17_3, h22_3, h25_5, fd, fs, fp, fk⟩ := RoundTrip.form25 d s p k 25 0 0 16 (by decide) (by decide) (by decide) (by decide)
  refine RoundTrip.of19 lt par h1_6 ?_ hf
  unfold decMajor19
  rw [h17_3, h22_3, h25_5, fd, fs, fp, fk]
  rfl

theorem RoundTrip.vcvtUq8F32 (d : BitVec 5) (s : BitVec 5) (p : BitVec 2) (k : BitVec 2) : RoundTrip.Statement (.vcvtUq8F32 d s p k) := by
  intro bits word he hf
  cases he
  obtain ⟨lt, par, h1_6, h17_3, h22_3, h25_5, fd, fs, fp, fk⟩ := RoundTrip.form25 d s p k 25 0 0 17 (by decide) (by decide) (by decide) (by decide)
  refine RoundTrip.of19 lt par h1_6 ?_ hf
  unfold decMajor19
  rw [h17_3, h22_3, h25_5, fd, fs, fp, fk]
  rfl

theorem RoundTrip.vcvtUq8F32Rtz (d : BitVec 5) (s : BitVec 5) (p : BitVec 2) (k : BitVec 2) : RoundTrip.Statement (.vcvtUq8F32Rtz d s p k) := by
  intro bits word he hf
  cases he
  obtain ⟨lt, par, h1_6, h17_3, h22_3, h25_5, fd, fs, fp, fk⟩ := RoundTrip.form25 d s p k 25 0 0 18 (by decide) (by decide) (by decide) (by decide)
  refine RoundTrip.of19 lt par h1_6 ?_ hf
  unfold decMajor19
  rw [h17_3, h22_3, h25_5, fd, fs, fp, fk]
  rfl

theorem RoundTrip.vcvtF32Uq8 (d : BitVec 5) (s : BitVec 5) (p : BitVec 2) (k : BitVec 2) : RoundTrip.Statement (.vcvtF32Uq8 d s p k) := by
  intro bits word he hf
  cases he
  obtain ⟨lt, par, h1_6, h17_3, h22_3, h25_5, fd, fs, fp, fk⟩ := RoundTrip.form25 d s p k 25 0 0 19 (by decide) (by decide) (by decide) (by decide)
  refine RoundTrip.of19 lt par h1_6 ?_ hf
  unfold decMajor19
  rw [h17_3, h22_3, h25_5, fd, fs, fp, fk]
  rfl

theorem RoundTrip.vcvtI16F32 (d : BitVec 5) (s : BitVec 5) (p : BitVec 2) (k : BitVec 2) : RoundTrip.Statement (.vcvtI16F32 d s p k) := by
  intro bits word he hf
  cases he
  obtain ⟨lt, par, h1_6, h17_3, h22_3, h25_5, fd, fs, fp, fk⟩ := RoundTrip.form25 d s p k 25 0 0 20 (by decide) (by decide) (by decide) (by decide)
  refine RoundTrip.of19 lt par h1_6 ?_ hf
  unfold decMajor19
  rw [h17_3, h22_3, h25_5, fd, fs, fp, fk]
  rfl

theorem RoundTrip.vcvtI16F32Rtz (d : BitVec 5) (s : BitVec 5) (p : BitVec 2) (k : BitVec 2) : RoundTrip.Statement (.vcvtI16F32Rtz d s p k) := by
  intro bits word he hf
  cases he
  obtain ⟨lt, par, h1_6, h17_3, h22_3, h25_5, fd, fs, fp, fk⟩ := RoundTrip.form25 d s p k 25 0 0 21 (by decide) (by decide) (by decide) (by decide)
  refine RoundTrip.of19 lt par h1_6 ?_ hf
  unfold decMajor19
  rw [h17_3, h22_3, h25_5, fd, fs, fp, fk]
  rfl

theorem RoundTrip.vcvtF32I16 (d : BitVec 5) (s : BitVec 5) (p : BitVec 2) (k : BitVec 2) : RoundTrip.Statement (.vcvtF32I16 d s p k) := by
  intro bits word he hf
  cases he
  obtain ⟨lt, par, h1_6, h17_3, h22_3, h25_5, fd, fs, fp, fk⟩ := RoundTrip.form25 d s p k 25 0 0 22 (by decide) (by decide) (by decide) (by decide)
  refine RoundTrip.of19 lt par h1_6 ?_ hf
  unfold decMajor19
  rw [h17_3, h22_3, h25_5, fd, fs, fp, fk]
  rfl

theorem RoundTrip.vcvtI32I8 (d : BitVec 5) (s : BitVec 5) (p : BitVec 2) (k : BitVec 2) : RoundTrip.Statement (.vcvtI32I8 d s p k) := by
  intro bits word he hf
  cases he
  obtain ⟨lt, par, h1_6, h17_3, h22_3, h25_5, fd, fs, fp, fk⟩ := RoundTrip.form25 d s p k 25 0 0 23 (by decide) (by decide) (by decide) (by decide)
  refine RoundTrip.of19 lt par h1_6 ?_ hf
  unfold decMajor19
  rw [h17_3, h22_3, h25_5, fd, fs, fp, fk]
  rfl

theorem RoundTrip.vcvtI8I32 (d : BitVec 5) (s : BitVec 5) (p : BitVec 2) (k : BitVec 2) : RoundTrip.Statement (.vcvtI8I32 d s p k) := by
  intro bits word he hf
  cases he
  obtain ⟨lt, par, h1_6, h17_3, h22_3, h25_5, fd, fs, fp, fk⟩ := RoundTrip.form25 d s p k 25 0 0 24 (by decide) (by decide) (by decide) (by decide)
  refine RoundTrip.of19 lt par h1_6 ?_ hf
  unfold decMajor19
  rw [h17_3, h22_3, h25_5, fd, fs, fp, fk]
  rfl

theorem RoundTrip.vcvtI32I16 (d : BitVec 5) (s : BitVec 5) (p : BitVec 2) (k : BitVec 2) : RoundTrip.Statement (.vcvtI32I16 d s p k) := by
  intro bits word he hf
  cases he
  obtain ⟨lt, par, h1_6, h17_3, h22_3, h25_5, fd, fs, fp, fk⟩ := RoundTrip.form25 d s p k 25 0 0 25 (by decide) (by decide) (by decide) (by decide)
  refine RoundTrip.of19 lt par h1_6 ?_ hf
  unfold decMajor19
  rw [h17_3, h22_3, h25_5, fd, fs, fp, fk]
  rfl

theorem RoundTrip.vcvtI16I32 (d : BitVec 5) (s : BitVec 5) (p : BitVec 2) (k : BitVec 2) : RoundTrip.Statement (.vcvtI16I32 d s p k) := by
  intro bits word he hf
  cases he
  obtain ⟨lt, par, h1_6, h17_3, h22_3, h25_5, fd, fs, fp, fk⟩ := RoundTrip.form25 d s p k 25 0 0 26 (by decide) (by decide) (by decide) (by decide)
  refine RoundTrip.of19 lt par h1_6 ?_ hf
  unfold decMajor19
  rw [h17_3, h22_3, h25_5, fd, fs, fp, fk]
  rfl

theorem RoundTrip.vcvtE4m3F16 (d : BitVec 5) (s : BitVec 5) (p : BitVec 2) (k : BitVec 2) : RoundTrip.Statement (.vcvtE4m3F16 d s p k) := by
  intro bits word he hf
  cases he
  obtain ⟨lt, par, h1_6, h17_3, h22_3, h25_5, fd, fs, fp, fk⟩ := RoundTrip.form25 d s p k 25 0 0 27 (by decide) (by decide) (by decide) (by decide)
  refine RoundTrip.of19 lt par h1_6 ?_ hf
  unfold decMajor19
  rw [h17_3, h22_3, h25_5, fd, fs, fp, fk]
  rfl

theorem RoundTrip.vcvtF16E4m3 (d : BitVec 5) (s : BitVec 5) (p : BitVec 2) (k : BitVec 2) : RoundTrip.Statement (.vcvtF16E4m3 d s p k) := by
  intro bits word he hf
  cases he
  obtain ⟨lt, par, h1_6, h17_3, h22_3, h25_5, fd, fs, fp, fk⟩ := RoundTrip.form25 d s p k 25 0 0 28 (by decide) (by decide) (by decide) (by decide)
  refine RoundTrip.of19 lt par h1_6 ?_ hf
  unfold decMajor19
  rw [h17_3, h22_3, h25_5, fd, fs, fp, fk]
  rfl

theorem RoundTrip.qsc (t : BitVec 5) (e : BitVec 2) : RoundTrip.Statement (.qsc t e) := by
  intro bits word he hf
  cases he
  obtain ⟨lt, par, h1_6, h7_10, h17_3, h27_3, h30_2, ft, fe⟩ := RoundTrip.form26 t e 25 0 1 0 0 (by decide) (by decide) (by decide) (by decide) (by decide)
  refine RoundTrip.of19 lt par h1_6 ?_ hf
  unfold decMajor19
  rw [h7_10, h17_3, h27_3, h30_2, ft, fe]
  rfl

theorem RoundTrip.qstat (d : BitVec 5) (e : BitVec 2) : RoundTrip.Statement (.qstat d e) := by
  intro bits word he hf
  cases he
  obtain ⟨lt, par, h1_6, h12_5, h17_3, h20_5, h27_3, h30_2, fd, fe⟩ := RoundTrip.form27 d e 25 0 1 0 1 0 (by decide) (by decide) (by decide) (by decide) (by decide) (by decide)
  refine RoundTrip.of19 lt par h1_6 ?_ hf
  unfold decMajor19
  rw [h12_5, h17_3, h20_5, h27_3, h30_2, fd, fe]
  rfl

theorem RoundTrip.qcar (d : BitVec 5) (e : BitVec 2) : RoundTrip.Statement (.qcar d e) := by
  intro bits word he hf
  cases he
  obtain ⟨lt, par, h1_6, h12_5, h17_3, h20_5, h27_3, h30_2, fd, fe⟩ := RoundTrip.form27 d e 25 0 1 0 2 0 (by decide) (by decide) (by decide) (by decide) (by decide) (by decide)
  refine RoundTrip.of19 lt par h1_6 ?_ hf
  unfold decMajor19
  rw [h12_5, h17_3, h20_5, h27_3, h30_2, fd, fe]
  rfl

theorem RoundTrip.qclr (e : BitVec 2) : RoundTrip.Statement (.qclr e) := by
  intro bits word he hf
  cases he
  obtain ⟨lt, par, h1_6, h7_10, h17_3, h20_5, h27_3, h30_2, fe⟩ := RoundTrip.form28 e 25 0 1 0 3 0 (by decide) (by decide) (by decide) (by decide) (by decide) (by decide)
  refine RoundTrip.of19 lt par h1_6 ?_ hf
  unfold decMajor19
  rw [h7_10, h17_3, h20_5, h27_3, h30_2, fe]
  rfl

theorem RoundTrip.qhist (t : BitVec 5) (e : BitVec 2) (m : BitVec 3) : RoundTrip.Statement (.qhist t e m) := by
  intro bits word he hf
  cases he
  obtain ⟨lt, par, h1_6, h7_10, h17_3, h30_2, ft, fe, fm⟩ := RoundTrip.form29 t e m 25 0 2 0 (by decide) (by decide) (by decide) (by decide)
  refine RoundTrip.of19 lt par h1_6 ?_ hf
  unfold decMajor19
  rw [h7_10, h17_3, h30_2, ft, fe, fm]
  rfl

theorem RoundTrip.qstE4m3 (d : BitVec 5) (s : BitVec 5) (t : BitVec 5) (e : BitVec 2) (m : BitVec 3) : RoundTrip.Statement (.qstE4m3 d s t e m) := by
  intro bits word he hf
  cases he
  obtain ⟨lt, par, h1_6, h17_3, h30_2, fd, fs, ft, fe, fm⟩ := RoundTrip.form30 d s t e m 25 3 0 (by decide) (by decide) (by decide)
  refine RoundTrip.of19 lt par h1_6 ?_ hf
  unfold decMajor19
  rw [h17_3, h30_2, fd, fs, ft, fe, fm]
  rfl

theorem RoundTrip.vredsum (d : BitVec 5) (s : BitVec 5) (e : BitVec 2) (k : BitVec 2) : RoundTrip.Statement (.vredsum d s e k) := by
  intro bits word he hf
  cases he
  obtain ⟨lt, par, h1_6, h17_3, h20_5, h27_3, fd, fs, fe, fk⟩ := RoundTrip.form20 d s e k 26 0 0 0 (by decide) (by decide) (by decide) (by decide)
  refine RoundTrip.of1A lt par h1_6 ?_ hf
  unfold decMajor1A
  rw [h17_3, h20_5, h27_3, fd, fs, fe, fk]
  rfl

theorem RoundTrip.vredmin (d : BitVec 5) (s : BitVec 5) (e : BitVec 2) (k : BitVec 2) : RoundTrip.Statement (.vredmin d s e k) := by
  intro bits word he hf
  cases he
  obtain ⟨lt, par, h1_6, h17_3, h20_5, h27_3, fd, fs, fe, fk⟩ := RoundTrip.form20 d s e k 26 0 0 1 (by decide) (by decide) (by decide) (by decide)
  refine RoundTrip.of1A lt par h1_6 ?_ hf
  unfold decMajor1A
  rw [h17_3, h20_5, h27_3, fd, fs, fe, fk]
  rfl

theorem RoundTrip.vredmax (d : BitVec 5) (s : BitVec 5) (e : BitVec 2) (k : BitVec 2) : RoundTrip.Statement (.vredmax d s e k) := by
  intro bits word he hf
  cases he
  obtain ⟨lt, par, h1_6, h17_3, h20_5, h27_3, fd, fs, fe, fk⟩ := RoundTrip.form20 d s e k 26 0 0 2 (by decide) (by decide) (by decide) (by decide)
  refine RoundTrip.of1A lt par h1_6 ?_ hf
  unfold decMajor1A
  rw [h17_3, h20_5, h27_3, fd, fs, fe, fk]
  rfl

theorem RoundTrip.vredminu (d : BitVec 5) (s : BitVec 5) (e : BitVec 2) (k : BitVec 2) : RoundTrip.Statement (.vredminu d s e k) := by
  intro bits word he hf
  cases he
  obtain ⟨lt, par, h1_6, h17_3, h20_5, h27_3, fd, fs, fe, fk⟩ := RoundTrip.form20 d s e k 26 0 0 3 (by decide) (by decide) (by decide) (by decide)
  refine RoundTrip.of1A lt par h1_6 ?_ hf
  unfold decMajor1A
  rw [h17_3, h20_5, h27_3, fd, fs, fe, fk]
  rfl

theorem RoundTrip.vredmaxu (d : BitVec 5) (s : BitVec 5) (e : BitVec 2) (k : BitVec 2) : RoundTrip.Statement (.vredmaxu d s e k) := by
  intro bits word he hf
  cases he
  obtain ⟨lt, par, h1_6, h17_3, h20_5, h27_3, fd, fs, fe, fk⟩ := RoundTrip.form20 d s e k 26 0 0 4 (by decide) (by decide) (by decide) (by decide)
  refine RoundTrip.of1A lt par h1_6 ?_ hf
  unfold decMajor1A
  rw [h17_3, h20_5, h27_3, fd, fs, fe, fk]
  rfl

theorem RoundTrip.vfredsum (d : BitVec 5) (s : BitVec 5) (k : BitVec 2) : RoundTrip.Statement (.vfredsum d s k) := by
  intro bits word he hf
  cases he
  obtain ⟨lt, par, h1_6, h17_3, h20_7, h27_3, fd, fs, fk⟩ := RoundTrip.form31 d s k 26 0 0 5 (by decide) (by decide) (by decide) (by decide)
  refine RoundTrip.of1A lt par h1_6 ?_ hf
  unfold decMajor1A
  rw [h17_3, h20_7, h27_3, fd, fs, fk]
  rfl

theorem RoundTrip.vfredmax (d : BitVec 5) (s : BitVec 5) (k : BitVec 2) : RoundTrip.Statement (.vfredmax d s k) := by
  intro bits word he hf
  cases he
  obtain ⟨lt, par, h1_6, h17_3, h20_7, h27_3, fd, fs, fk⟩ := RoundTrip.form31 d s k 26 0 0 6 (by decide) (by decide) (by decide) (by decide)
  refine RoundTrip.of1A lt par h1_6 ?_ hf
  unfold decMajor1A
  rw [h17_3, h20_7, h27_3, fd, fs, fk]
  rfl

theorem RoundTrip.vfredmin (d : BitVec 5) (s : BitVec 5) (k : BitVec 2) : RoundTrip.Statement (.vfredmin d s k) := by
  intro bits word he hf
  cases he
  obtain ⟨lt, par, h1_6, h17_3, h20_7, h27_3, fd, fs, fk⟩ := RoundTrip.form31 d s k 26 0 0 7 (by decide) (by decide) (by decide) (by decide)
  refine RoundTrip.of1A lt par h1_6 ?_ hf
  unfold decMajor1A
  rw [h17_3, h20_7, h27_3, fd, fs, fk]
  rfl

theorem RoundTrip.vperm (d : BitVec 5) (s : BitVec 5) (t : BitVec 5) (e : BitVec 2) (k : BitVec 2) : RoundTrip.Statement (.vperm d s t e k) := by
  intro bits word he hf
  cases he
  obtain ⟨lt, par, h1_6, h17_3, h27_3, fd, fs, ft, fe, fk⟩ := RoundTrip.form22 d s t e k 26 1 0 (by decide) (by decide) (by decide)
  refine RoundTrip.of1A lt par h1_6 ?_ hf
  unfold decMajor1A
  rw [h17_3, h27_3, fd, fs, ft, fe, fk]
  rfl

theorem RoundTrip.vslide (d : BitVec 5) (s : BitVec 5) (t : BitVec 5) (e : BitVec 2) (k : BitVec 2) : RoundTrip.Statement (.vslide d s t e k) := by
  intro bits word he hf
  cases he
  obtain ⟨lt, par, h1_6, h17_3, h27_3, fd, fs, ft, fe, fk⟩ := RoundTrip.form22 d s t e k 26 1 1 (by decide) (by decide) (by decide)
  refine RoundTrip.of1A lt par h1_6 ?_ hf
  unfold decMajor1A
  rw [h17_3, h27_3, fd, fs, ft, fe, fk]
  rfl

theorem RoundTrip.vcomp (d : BitVec 5) (s : BitVec 5) (e : BitVec 2) (k : BitVec 2) : RoundTrip.Statement (.vcomp d s e k) := by
  intro bits word he hf
  cases he
  obtain ⟨lt, par, h1_6, h17_3, h20_5, h27_3, fd, fs, fe, fk⟩ := RoundTrip.form20 d s e k 26 1 0 2 (by decide) (by decide) (by decide) (by decide)
  refine RoundTrip.of1A lt par h1_6 ?_ hf
  unfold decMajor1A
  rw [h17_3, h20_5, h27_3, fd, fs, fe, fk]
  rfl

theorem RoundTrip.vrev (d : BitVec 5) (s : BitVec 5) (e : BitVec 2) (k : BitVec 2) : RoundTrip.Statement (.vrev d s e k) := by
  intro bits word he hf
  cases he
  obtain ⟨lt, par, h1_6, h17_3, h20_5, h27_3, fd, fs, fe, fk⟩ := RoundTrip.form20 d s e k 26 1 0 3 (by decide) (by decide) (by decide) (by decide)
  refine RoundTrip.of1A lt par h1_6 ?_ hf
  unfold decMajor1A
  rw [h17_3, h20_5, h27_3, fd, fs, fe, fk]
  rfl

theorem RoundTrip.kand (c : BitVec 2) (s : BitVec 2) (t : BitVec 2) : RoundTrip.Statement (.kand c s t) := by
  intro bits word he hf
  cases he
  obtain ⟨lt, par, h1_6, h9_3, h14_3, h17_3, h22_5, h27_3, h30_2, fc, fs, ft⟩ := RoundTrip.form32 c s t 26 0 0 2 0 0 0 (by decide) (by decide) (by decide) (by decide) (by decide) (by decide) (by decide)
  refine RoundTrip.of1A lt par h1_6 ?_ hf
  unfold decMajor1A
  rw [h9_3, h14_3, h17_3, h22_5, h27_3, h30_2, fc, fs, ft]
  rfl

theorem RoundTrip.kor (c : BitVec 2) (s : BitVec 2) (t : BitVec 2) : RoundTrip.Statement (.kor c s t) := by
  intro bits word he hf
  cases he
  obtain ⟨lt, par, h1_6, h9_3, h14_3, h17_3, h22_5, h27_3, h30_2, fc, fs, ft⟩ := RoundTrip.form32 c s t 26 0 0 2 0 1 0 (by decide) (by decide) (by decide) (by decide) (by decide) (by decide) (by decide)
  refine RoundTrip.of1A lt par h1_6 ?_ hf
  unfold decMajor1A
  rw [h9_3, h14_3, h17_3, h22_5, h27_3, h30_2, fc, fs, ft]
  rfl

theorem RoundTrip.kxor (c : BitVec 2) (s : BitVec 2) (t : BitVec 2) : RoundTrip.Statement (.kxor c s t) := by
  intro bits word he hf
  cases he
  obtain ⟨lt, par, h1_6, h9_3, h14_3, h17_3, h22_5, h27_3, h30_2, fc, fs, ft⟩ := RoundTrip.form32 c s t 26 0 0 2 0 2 0 (by decide) (by decide) (by decide) (by decide) (by decide) (by decide) (by decide)
  refine RoundTrip.of1A lt par h1_6 ?_ hf
  unfold decMajor1A
  rw [h9_3, h14_3, h17_3, h22_5, h27_3, h30_2, fc, fs, ft]
  rfl

theorem RoundTrip.knot (c : BitVec 2) (s : BitVec 2) : RoundTrip.Statement (.knot c s) := by
  intro bits word he hf
  cases he
  obtain ⟨lt, par, h1_6, h9_3, h14_3, h17_3, h20_7, h27_3, h30_2, fc, fs⟩ := RoundTrip.form33 c s 26 0 0 2 0 3 0 (by decide) (by decide) (by decide) (by decide) (by decide) (by decide) (by decide)
  refine RoundTrip.of1A lt par h1_6 ?_ hf
  unfold decMajor1A
  rw [h9_3, h14_3, h17_3, h20_7, h27_3, h30_2, fc, fs]
  rfl

theorem RoundTrip.kfromx (c : BitVec 2) (s : BitVec 5) : RoundTrip.Statement (.kfromx c s) := by
  intro bits word he hf
  cases he
  obtain ⟨lt, par, h1_6, h9_3, h17_3, h20_7, h27_3, h30_2, fc, fs⟩ := RoundTrip.form34 c s 26 0 2 0 4 0 (by decide) (by decide) (by decide) (by decide) (by decide) (by decide)
  refine RoundTrip.of1A lt par h1_6 ?_ hf
  unfold decMajor1A
  rw [h9_3, h17_3, h20_7, h27_3, h30_2, fc, fs]
  rfl

theorem RoundTrip.ktox (d : BitVec 5) (s : BitVec 2) : RoundTrip.Statement (.ktox d s) := by
  intro bits word he hf
  cases he
  obtain ⟨lt, par, h1_6, h14_3, h17_3, h20_7, h27_3, h30_2, fd, fs⟩ := RoundTrip.form35 d s 26 0 2 0 5 0 (by decide) (by decide) (by decide) (by decide) (by decide) (by decide)
  refine RoundTrip.of1A lt par h1_6 ?_ hf
  unfold decMajor1A
  rw [h14_3, h17_3, h20_7, h27_3, h30_2, fd, fs]
  rfl

theorem RoundTrip.kpop (d : BitVec 5) (s : BitVec 2) : RoundTrip.Statement (.kpop d s) := by
  intro bits word he hf
  cases he
  obtain ⟨lt, par, h1_6, h14_3, h17_3, h20_7, h27_3, h30_2, fd, fs⟩ := RoundTrip.form35 d s 26 0 2 0 6 0 (by decide) (by decide) (by decide) (by decide) (by decide) (by decide)
  refine RoundTrip.of1A lt par h1_6 ?_ hf
  unfold decMajor1A
  rw [h14_3, h17_3, h20_7, h27_3, h30_2, fd, fs]
  rfl

theorem RoundTrip.repOpen (n : BitVec 4) : RoundTrip.Statement (.repOpen n) := by
  intro bits word he hf
  cases he
  obtain ⟨lt, par, h1_6, h7_10, h17_3, h24_8, fn⟩ := RoundTrip.form36 n 27 0 0 0 (by decide) (by decide) (by decide) (by decide)
  refine RoundTrip.of1B lt par h1_6 ?_ hf
  unfold decMajor1B
  rw [h7_10, h17_3, h24_8, fn]
  rfl

theorem RoundTrip.repRun (s : BitVec 5) (t : BitVec 5) (p : BitVec 4) : RoundTrip.Statement (.repRun s t p) := by
  intro bits word he hf
  cases he
  obtain ⟨lt, par, h1_6, h7_5, h17_3, h29_3, fs, ft, fp⟩ := RoundTrip.form37 s t p 27 0 1 0 (by decide) (by decide) (by decide) (by decide)
  refine RoundTrip.of1B lt par h1_6 ?_ hf
  unfold decMajor1B
  rw [h7_5, h17_3, h29_3, fs, ft, fp]
  rfl

theorem RoundTrip.tmapLd (m : BitVec 3) (s : BitVec 5) : RoundTrip.Statement (.tmapLd m s) := by
  intro bits word he hf
  cases he
  obtain ⟨lt, par, h1_6, h10_2, h17_3, h20_12, fm, fs⟩ := RoundTrip.form38 m s 28 0 0 0 (by decide) (by decide) (by decide) (by decide)
  refine RoundTrip.of1C lt par h1_6 ?_ hf
  unfold decMajor1C
  rw [h10_2, h17_3, h20_12, fm, fs]
  rfl

theorem RoundTrip.tmapRd (d : BitVec 5) (n : BitVec 2) (m : BitVec 3) : RoundTrip.Statement (.tmapRd d n m) := by
  intro bits word he hf
  cases he
  obtain ⟨lt, par, h1_6, h12_5, h17_3, h22_3, h28_4, fd, fn, fm⟩ := RoundTrip.form39 d n m 28 0 1 0 0 (by decide) (by decide) (by decide) (by decide) (by decide)
  refine RoundTrip.of1C lt par h1_6 ?_ hf
  unfold decMajor1C
  rw [h12_5, h17_3, h22_3, h28_4, fd, fn, fm]
  rfl

theorem RoundTrip.tmapMov (m : BitVec 3) (s : BitVec 5) : RoundTrip.Statement (.tmapMov m s) := by
  intro bits word he hf
  cases he
  obtain ⟨lt, par, h1_6, h10_2, h17_3, h20_12, fm, fs⟩ := RoundTrip.form38 m s 28 0 2 0 (by decide) (by decide) (by decide) (by decide)
  refine RoundTrip.of1C lt par h1_6 ?_ hf
  unfold decMajor1C
  rw [h10_2, h17_3, h20_12, fm, fs]
  rfl

theorem RoundTrip.gangWld (m : BitVec 3) (s : BitVec 5) (p : BitVec 3) (r : BitVec 2) : RoundTrip.Statement (.gangWld m s p r) := by
  intro bits word he hf
  cases he
  obtain ⟨lt, par, h1_6, h10_2, h17_3, h23_2, h27_5, fm, fs, fp, fr⟩ := RoundTrip.form40 m s p r 29 0 0 0 0 (by decide) (by decide) (by decide) (by decide) (by decide)
  refine RoundTrip.of1D lt par h1_6 ?_ hf
  unfold decMajor1D
  rw [h10_2, h17_3, h23_2, h27_5, fm, fs, fp, fr]
  rfl

theorem RoundTrip.gangMma (m : BitVec 3) (a : BitVec 2) (s : BitVec 5) (p : BitVec 3) (n : BitVec 3) (w : BitVec 6) : RoundTrip.Statement (.gangMma m a s p n w) := by
  intro bits word he hf
  cases he
  obtain ⟨lt, par, h1_6, h17_3, fm, fa, fs, fp, fn, fw⟩ := RoundTrip.form41 m a s p n w 29 1 (by decide) (by decide)
  refine RoundTrip.of1D lt par h1_6 ?_ hf
  unfold decMajor1D
  rw [h17_3, fm, fa, fs, fp, fn, fw]
  rfl

theorem RoundTrip.hotReg (m : BitVec 3) (s : BitVec 5) (t : BitVec 5) : RoundTrip.Statement (.hotReg m s t) := by
  intro bits word he hf
  cases he
  obtain ⟨lt, par, h1_6, h10_2, h17_3, h25_7, fm, fs, ft⟩ := RoundTrip.form42 m s t 31 0 0 0 (by decide) (by decide) (by decide) (by decide)
  refine RoundTrip.of1F lt par h1_6 ?_ hf
  unfold decMajor1F
  rw [h10_2, h17_3, h25_7, fm, fs, ft]
  rfl

theorem RoundTrip.hotMig (p : BitVec 3) : RoundTrip.Statement (.hotMig p) := by
  intro bits word he hf
  cases he
  obtain ⟨lt, par, h1_6, h7_10, h17_3, h23_9, fp⟩ := RoundTrip.form16 p 31 0 1 0 (by decide) (by decide) (by decide) (by decide)
  refine RoundTrip.of1F lt par h1_6 ?_ hf
  unfold decMajor1F
  rw [h7_10, h17_3, h23_9, fp]
  rfl

theorem RoundTrip.hotCnt (d : BitVec 5) (s : BitVec 5) : RoundTrip.Statement (.hotCnt d s) := by
  intro bits word he hf
  cases he
  obtain ⟨lt, par, h1_6, h17_3, h20_12, fd, fs⟩ := RoundTrip.form18 d s 31 2 0 (by decide) (by decide) (by decide)
  refine RoundTrip.of1F lt par h1_6 ?_ hf
  unfold decMajor1F
  rw [h17_3, h20_12, fd, fs]
  rfl

theorem RoundTrip.gangStart (g : Nat) : RoundTrip.Statement (.gangStart g) := fun _ _ he => nomatch he

theorem RoundTrip.gangCompletion (g : Nat) : RoundTrip.Statement (.gangCompletion g) := fun _ _ he => nomatch he

theorem RoundTrip.gangArrivalBound (g : Nat) : RoundTrip.Statement (.gangArrivalBound g) := fun _ _ he => nomatch he

theorem RoundTrip.migrationInstant (g : Nat) (p : Nat) : RoundTrip.Statement (.migrationInstant g p) := fun _ _ he => nomatch he

theorem RoundTrip.polderFailure (g : Nat) (stack : Nat) (u : Nat) (again : Bool) : RoundTrip.Statement (.polderFailure g stack u again) := fun _ _ he => nomatch he

theorem RoundTrip.accLd (n : BitVec 2) (s : BitVec 5) (r : BitVec 4) : RoundTrip.Statement (.accLd n s r) := by
  intro bits word he hf
  cases he
  obtain ⟨lt, par, h1_6, h7_3, h17_3, h24_8, fn, fs, fr⟩ := RoundTrip.form43 n s r 30 0 0 0 (by decide) (by decide) (by decide) (by decide)
  refine RoundTrip.of1E lt par h1_6 ?_ hf
  unfold decMajor1E
  rw [h7_3, h17_3, h24_8, fn, fs, fr]
  rfl

theorem RoundTrip.accSt (n : BitVec 2) (s : BitVec 5) (r : BitVec 4) : RoundTrip.Statement (.accSt n s r) := by
  intro bits word he hf
  cases he
  obtain ⟨lt, par, h1_6, h7_3, h17_3, h24_8, fn, fs, fr⟩ := RoundTrip.form43 n s r 30 0 1 0 (by decide) (by decide) (by decide) (by decide)
  refine RoundTrip.of1E lt par h1_6 ?_ hf
  unfold decMajor1E
  rw [h7_3, h17_3, h24_8, fn, fs, fr]
  rfl

theorem RoundTrip.accZero (n : BitVec 2) : RoundTrip.Statement (.accZero n) := by
  intro bits word he hf
  cases he
  obtain ⟨lt, par, h1_6, h7_3, h12_5, h17_3, h20_12, fn⟩ := RoundTrip.form44 n 30 0 0 2 0 (by decide) (by decide) (by decide) (by decide) (by decide)
  refine RoundTrip.of1E lt par h1_6 ?_ hf
  unfold decMajor1E
  rw [h7_3, h12_5, h17_3, h20_12, fn]
  rfl

theorem RoundTrip.accFill (n : BitVec 2) (s : BitVec 5) : RoundTrip.Statement (.accFill n s) := by
  intro bits word he hf
  cases he
  obtain ⟨lt, par, h1_6, h7_3, h17_3, h20_12, fn, fs⟩ := RoundTrip.form45 n s 30 0 3 0 (by decide) (by decide) (by decide) (by decide)
  refine RoundTrip.of1E lt par h1_6 ?_ hf
  unfold decMajor1E
  rw [h7_3, h17_3, h20_12, fn, fs]
  rfl

theorem RoundTrip.accTov (n : BitVec 2) (v : BitVec 5) (r : BitVec 4) : RoundTrip.Statement (.accTov n v r) := by
  intro bits word he hf
  cases he
  obtain ⟨lt, par, h1_6, h7_3, h17_3, h24_8, fn, fv, fr⟩ := RoundTrip.form43 n v r 30 0 4 0 (by decide) (by decide) (by decide) (by decide)
  refine RoundTrip.of1E lt par h1_6 ?_ hf
  unfold decMajor1E
  rw [h7_3, h17_3, h24_8, fn, fv, fr]
  rfl

theorem RoundTrip.accFromv (n : BitVec 2) (v : BitVec 5) (r : BitVec 4) : RoundTrip.Statement (.accFromv n v r) := by
  intro bits word he hf
  cases he
  obtain ⟨lt, par, h1_6, h7_3, h17_3, h24_8, fn, fv, fr⟩ := RoundTrip.form43 n v r 30 0 5 0 (by decide) (by decide) (by decide) (by decide)
  refine RoundTrip.of1E lt par h1_6 ?_ hf
  unfold decMajor1E
  rw [h7_3, h17_3, h24_8, fn, fv, fr]
  rfl

theorem RoundTrip.cpy (d : BitVec 5) (s : BitVec 5) : RoundTrip.Statement (.cpy d s) := by
  intro bits word he hf
  cases he
  obtain ⟨lt, par, h1_6, h17_3, h20_12, fd, fs⟩ := RoundTrip.form18 d s 32 0 0 (by decide) (by decide) (by decide)
  refine RoundTrip.of20 lt par h1_6 ?_ hf
  unfold decMajor20
  rw [h17_3, h20_12, fd, fs]
  rfl

theorem RoundTrip.gth (d : BitVec 5) (s : BitVec 5) : RoundTrip.Statement (.gth d s) := by
  intro bits word he hf
  cases he
  obtain ⟨lt, par, h1_6, h17_3, h20_12, fd, fs⟩ := RoundTrip.form18 d s 32 1 0 (by decide) (by decide) (by decide)
  refine RoundTrip.of20 lt par h1_6 ?_ hf
  unfold decMajor20
  rw [h17_3, h20_12, fd, fs]
  rfl

theorem RoundTrip.coll (d : BitVec 5) (s : BitVec 5) : RoundTrip.Statement (.coll d s) := by
  intro bits word he hf
  cases he
  obtain ⟨lt, par, h1_6, h17_3, h20_12, fd, fs⟩ := RoundTrip.form18 d s 32 2 0 (by decide) (by decide) (by decide)
  refine RoundTrip.of20 lt par h1_6 ?_ hf
  unfold decMajor20
  rw [h17_3, h20_12, fd, fs]
  rfl

theorem RoundTrip.engCancel (d : BitVec 5) (s : BitVec 5) : RoundTrip.Statement (.engCancel d s) := by
  intro bits word he hf
  cases he
  obtain ⟨lt, par, h1_6, h17_3, h20_12, fd, fs⟩ := RoundTrip.form18 d s 32 3 0 (by decide) (by decide) (by decide)
  refine RoundTrip.of20 lt par h1_6 ?_ hf
  unfold decMajor20
  rw [h17_3, h20_12, fd, fs]
  rfl

theorem RoundTrip.engineAccess (sg : Nat) (e : Nat) (i : Nat) : RoundTrip.Statement (.engineAccess sg e i) := fun _ _ he => nomatch he

theorem RoundTrip.engineCompletion (sg : Nat) (e : Nat) : RoundTrip.Statement (.engineCompletion sg e) := fun _ _ he => nomatch he

theorem RoundTrip.engineFault (sg : Nat) (e : Nat) (i : Nat) : RoundTrip.Statement (.engineFault sg e i) := fun _ _ he => nomatch he

theorem RoundTrip.engineQueueHalt (sg : Nat) (e : Nat) : RoundTrip.Statement (.engineQueueHalt sg e) := fun _ _ he => nomatch he

theorem RoundTrip.hint (h : BitVec 25) : RoundTrip.Statement (.hint h) := by
  intro bits word he hf
  cases he
  obtain ⟨lt, par, h1_6, fh⟩ := RoundTrip.form46 h 63 (by decide)
  refine RoundTrip.table32 lt par ?_
  unfold decode32
  rw [h1_6, fh]
  rfl

theorem RoundTrip.cAddi (d : BitVec 5) (i : BitVec 6) : RoundTrip.Statement (.cAddi d i) := by
  intro bits word he hf
  cases he
  obtain ⟨lt, par, h1_4, fd, fi⟩ := RoundTrip.form47 d i 1 (by decide)
  refine RoundTrip.table16 lt par ?_
  unfold decode16
  rw [h1_4, fd, fi]
  rfl

theorem RoundTrip.cSet (d : BitVec 5) (i : BitVec 6) : RoundTrip.Statement (.cSet d i) := by
  intro bits word he hf
  cases he
  obtain ⟨lt, par, h1_4, fd, fi⟩ := RoundTrip.form47 d i 2 (by decide)
  refine RoundTrip.table16 lt par ?_
  unfold decode16
  rw [h1_4, fd, fi]
  rfl

theorem RoundTrip.cMv (d : BitVec 5) (s : BitVec 5) : RoundTrip.Statement (.cMv d s) := by
  intro bits word he hf
  cases he
  obtain ⟨lt, par, h1_4, h5_1, fd, fs⟩ := RoundTrip.form48 d s 3 0 (by decide) (by decide)
  refine RoundTrip.table16 lt par ?_
  unfold decode16
  rw [h1_4, h5_1, fd, fs]
  rfl

theorem RoundTrip.cAdd (d : BitVec 5) (s : BitVec 5) : RoundTrip.Statement (.cAdd d s) := by
  intro bits word he hf
  cases he
  obtain ⟨lt, par, h1_4, h5_1, fd, fs⟩ := RoundTrip.form48 d s 3 1 (by decide) (by decide)
  refine RoundTrip.table16 lt par ?_
  unfold decode16
  rw [h1_4, h5_1, fd, fs]
  rfl

theorem RoundTrip.cSub (d : BitVec 5) (s : BitVec 5) : RoundTrip.Statement (.cSub d s) := by
  intro bits word he hf
  cases he
  obtain ⟨lt, par, h1_4, h5_1, fd, fs⟩ := RoundTrip.form48 d s 4 0 (by decide) (by decide)
  refine RoundTrip.table16 lt par ?_
  unfold decode16
  rw [h1_4, h5_1, fd, fs]
  rfl

theorem RoundTrip.cAnd (d : BitVec 5) (s : BitVec 5) : RoundTrip.Statement (.cAnd d s) := by
  intro bits word he hf
  cases he
  obtain ⟨lt, par, h1_4, h5_1, fd, fs⟩ := RoundTrip.form48 d s 4 1 (by decide) (by decide)
  refine RoundTrip.table16 lt par ?_
  unfold decode16
  rw [h1_4, h5_1, fd, fs]
  rfl

theorem RoundTrip.cOr (d : BitVec 5) (s : BitVec 5) : RoundTrip.Statement (.cOr d s) := by
  intro bits word he hf
  cases he
  obtain ⟨lt, par, h1_4, h5_1, fd, fs⟩ := RoundTrip.form48 d s 5 0 (by decide) (by decide)
  refine RoundTrip.table16 lt par ?_
  unfold decode16
  rw [h1_4, h5_1, fd, fs]
  rfl

theorem RoundTrip.cXor (d : BitVec 5) (s : BitVec 5) : RoundTrip.Statement (.cXor d s) := by
  intro bits word he hf
  cases he
  obtain ⟨lt, par, h1_4, h5_1, fd, fs⟩ := RoundTrip.form48 d s 5 1 (by decide) (by decide)
  refine RoundTrip.table16 lt par ?_
  unfold decode16
  rw [h1_4, h5_1, fd, fs]
  rfl

theorem RoundTrip.cSlli (d : BitVec 5) (n : BitVec 6) : RoundTrip.Statement (.cSlli d n) := by
  intro bits word he hf
  cases he
  obtain ⟨lt, par, h1_4, fd, fn⟩ := RoundTrip.form47 d n 6 (by decide)
  refine RoundTrip.table16 lt par ?_
  unfold decode16
  rw [h1_4, fd, fn]
  rfl

theorem RoundTrip.cSrli (d : BitVec 5) (n : BitVec 6) : RoundTrip.Statement (.cSrli d n) := by
  intro bits word he hf
  cases he
  obtain ⟨lt, par, h1_4, fd, fn⟩ := RoundTrip.form47 d n 7 (by decide)
  refine RoundTrip.table16 lt par ?_
  unfold decode16
  rw [h1_4, fd, fn]
  rfl

theorem RoundTrip.cLdD (d : BitVec 3) (s : BitVec 3) (o : BitVec 5) : RoundTrip.Statement (.cLdD d s o) := by
  intro bits word he hf
  cases he
  obtain ⟨lt, par, h1_4, fd, fs, fo⟩ := RoundTrip.form49 d s o 8 (by decide)
  refine RoundTrip.table16 lt par ?_
  unfold decode16
  rw [h1_4, fd, fs, fo]
  rfl

theorem RoundTrip.cStD (d : BitVec 3) (s : BitVec 3) (o : BitVec 5) : RoundTrip.Statement (.cStD d s o) := by
  intro bits word he hf
  cases he
  obtain ⟨lt, par, h1_4, fd, fs, fo⟩ := RoundTrip.form49 d s o 9 (by decide)
  refine RoundTrip.table16 lt par ?_
  unfold decode16
  rw [h1_4, fd, fs, fo]
  rfl

theorem RoundTrip.cLdW (d : BitVec 3) (s : BitVec 3) (o : BitVec 5) : RoundTrip.Statement (.cLdW d s o) := by
  intro bits word he hf
  cases he
  obtain ⟨lt, par, h1_4, fd, fs, fo⟩ := RoundTrip.form49 d s o 10 (by decide)
  refine RoundTrip.table16 lt par ?_
  unfold decode16
  rw [h1_4, fd, fs, fo]
  rfl

theorem RoundTrip.cStW (d : BitVec 3) (s : BitVec 3) (o : BitVec 5) : RoundTrip.Statement (.cStW d s o) := by
  intro bits word he hf
  cases he
  obtain ⟨lt, par, h1_4, fd, fs, fo⟩ := RoundTrip.form49 d s o 11 (by decide)
  refine RoundTrip.table16 lt par ?_
  unfold decode16
  rw [h1_4, fd, fs, fo]
  rfl

theorem RoundTrip.cBz (s : BitVec 3) (o : BitVec 8) : RoundTrip.Statement (.cBz s o) := by
  intro bits word he hf
  cases he
  obtain ⟨lt, par, h1_4, fs, fo⟩ := RoundTrip.form50 s o 12 (by decide)
  refine RoundTrip.table16 lt par ?_
  unfold decode16
  rw [h1_4, fs, fo]
  rfl

theorem RoundTrip.cBnz (s : BitVec 3) (o : BitVec 8) : RoundTrip.Statement (.cBnz s o) := by
  intro bits word he hf
  cases he
  obtain ⟨lt, par, h1_4, fs, fo⟩ := RoundTrip.form50 s o 13 (by decide)
  refine RoundTrip.table16 lt par ?_
  unfold decode16
  rw [h1_4, fs, fo]
  rfl

theorem RoundTrip.cJump (o : BitVec 11) : RoundTrip.Statement (.cJump o) := by
  intro bits word he hf
  cases he
  obtain ⟨lt, par, h1_4, fo⟩ := RoundTrip.form51 o 14 (by decide)
  refine RoundTrip.table16 lt par ?_
  unfold decode16
  rw [h1_4, fo]
  rfl

theorem RoundTrip.cNop  : RoundTrip.Statement (.cNop) := by
  intro bits word he hf
  cases he
  obtain ⟨lt, par, h1_4, h5_11⟩ := RoundTrip.form52 15 0 (by decide) (by decide)
  refine RoundTrip.table16 lt par ?_
  unfold decode16
  rw [h1_4, h5_11]
  rfl

theorem RoundTrip.cTaskEnd  : RoundTrip.Statement (.cTaskEnd) := by
  intro bits word he hf
  cases he
  obtain ⟨lt, par, h1_4, h5_11⟩ := RoundTrip.form52 15 1 (by decide) (by decide)
  refine RoundTrip.table16 lt par ?_
  unfold decode16
  rw [h1_4, h5_11]
  rfl

theorem RoundTrip.safePointBound (c : Nat) (st : Nat) : RoundTrip.Statement (.safePointBound c st) := fun _ _ he => nomatch he

theorem RoundTrip.messageArrival (i : Nat) : RoundTrip.Statement (.messageArrival i) := fun _ _ he => nomatch he

theorem RoundTrip.refusalArrival (i : Nat) : RoundTrip.Statement (.refusalArrival i) := fun _ _ he => nomatch he

theorem RoundTrip.messageDispatch (c : Nat) : RoundTrip.Statement (.messageDispatch c) := fun _ _ he => nomatch he

theorem RoundTrip.taskSelection (c : Nat) : RoundTrip.Statement (.taskSelection c) := fun _ _ he => nomatch he

theorem RoundTrip.ageing (c : Nat) (slot : Nat) : RoundTrip.Statement (.ageing c slot) := fun _ _ he => nomatch he

theorem RoundTrip.arrivalHandlerStart (c : Nat) : RoundTrip.Statement (.arrivalHandlerStart c) := fun _ _ he => nomatch he

theorem RoundTrip.launchMessageRedelivery (i : Nat) : RoundTrip.Statement (.launchMessageRedelivery i) := fun _ _ he => nomatch he

theorem RoundTrip.launchCompletion (die : Nat) (e : Nat) : RoundTrip.Statement (.launchCompletion die e) := fun _ _ he => nomatch he

theorem RoundTrip.drain (c : Nat) (i : Nat) : RoundTrip.Statement (.drain c i) := fun _ _ he => nomatch he

theorem RoundTrip.perform (i : Nat) : RoundTrip.Statement (.perform i) := fun _ _ he => nomatch he

theorem RoundTrip.loadPerform (c : Nat) (st : Nat) : RoundTrip.Statement (.loadPerform c st) := fun _ _ he => nomatch he

theorem RoundTrip.invalidationAcknowledgement (line : Nat) (agent : Nat) : RoundTrip.Statement (.invalidationAcknowledgement line agent) := fun _ _ he => nomatch he

theorem RoundTrip.evictionNotice (line : Nat) (agent : Nat) : RoundTrip.Statement (.evictionNotice line agent) := fun _ _ he => nomatch he

theorem RoundTrip.writeBack (line : Nat) (agent : Nat) : RoundTrip.Statement (.writeBack line agent) := fun _ _ he => nomatch he

theorem RoundTrip.selfRefresh (pch : Nat) : RoundTrip.Statement (.selfRefresh pch) := fun _ _ he => nomatch he

theorem RoundTrip.tlbMiss (c : Nat) (st : Nat) (entry : BitVec 8) : RoundTrip.Statement (.tlbMiss c st entry) := fun _ _ he => nomatch he

theorem RoundTrip.taskMigration (c : Nat) : RoundTrip.Statement (.taskMigration c) := fun _ _ he => nomatch he

theorem RoundTrip.migrationTimeout (c : Nat) (st : Nat) : RoundTrip.Statement (.migrationTimeout c st) := fun _ _ he => nomatch he

theorem RoundTrip.remoteAccessTimeout (c : Nat) (st : Nat) : RoundTrip.Statement (.remoteAccessTimeout c st) := fun _ _ he => nomatch he

theorem RoundTrip.faultMessageResend (i : Nat) : RoundTrip.Statement (.faultMessageResend i) := fun _ _ he => nomatch he

theorem RoundTrip.hostBar2Access (off : Nat) (write : Bool) (n : Nat) (data : List Byte) : RoundTrip.Statement (.hostBar2Access off write n data) := fun _ _ he => nomatch he

theorem RoundTrip.hostBar4Access (off : Nat) (write : Bool) (n : Nat) (data : List Byte) : RoundTrip.Statement (.hostBar4Access off write n data) := fun _ _ he => nomatch he

theorem RoundTrip.hostTranslationFill (entry : Nat) : RoundTrip.Statement (.hostTranslationFill entry) := fun _ _ he => nomatch he

theorem RoundTrip.hostLaunch (h : Nat) (v : Word) : RoundTrip.Statement (.hostLaunch h v) := fun _ _ he => nomatch he

theorem RoundTrip.registerWrite (off : Nat) (v : Word) : RoundTrip.Statement (.registerWrite off v) := fun _ _ he => nomatch he

theorem RoundTrip.giariMessageArrival (src : Nat) (tag : BitVec 16) (payload : List Byte) : RoundTrip.Statement (.giariMessageArrival src tag payload) := fun _ _ he => nomatch he

theorem RoundTrip.linkRetraining (l : Nat) : RoundTrip.Statement (.linkRetraining l) := fun _ _ he => nomatch he

theorem RoundTrip.linkFailure (l : Nat) : RoundTrip.Statement (.linkFailure l) := fun _ _ he => nomatch he

theorem RoundTrip.powerOnReset (verified : Bool) : RoundTrip.Statement (.powerOnReset verified) := fun _ _ he => nomatch he

theorem RoundTrip.reducedServiceEntry  : RoundTrip.Statement (.reducedServiceEntry) := fun _ _ he => nomatch he

theorem RoundTrip.fullServiceTransition  : RoundTrip.Statement (.fullServiceTransition) := fun _ _ he => nomatch he

theorem RoundTrip.clockStateUpdate (die : Nat) (clk : BitVec 2) (temp : BitVec 8) (power : BitVec 16) : RoundTrip.Statement (.clockStateUpdate die clk temp power) := fun _ _ he => nomatch he

theorem RoundTrip.checkpointCount (stored : Bool) : RoundTrip.Statement (.checkpointCount stored) := fun _ _ he => nomatch he

theorem RoundTrip.checkpointTime (stored : Bool) : RoundTrip.Statement (.checkpointTime stored) := fun _ _ he => nomatch he

theorem RoundTrip.checkpointRetry (stored : Bool) : RoundTrip.Statement (.checkpointRetry stored) := fun _ _ he => nomatch he

theorem RoundTrip.frameCreate (h : Nat) : RoundTrip.Statement (.frameCreate h) := fun _ _ he => nomatch he

theorem RoundTrip.frameReset (h : Nat) : RoundTrip.Statement (.frameReset h) := fun _ _ he => nomatch he

theorem RoundTrip.frameRead (h : Nat) : RoundTrip.Statement (.frameRead h) := fun _ _ he => nomatch he

theorem RoundTrip.faultqSet (h : Nat) : RoundTrip.Statement (.faultqSet h) := fun _ _ he => nomatch he

theorem RoundTrip.imageLoad (h : Nat) : RoundTrip.Statement (.imageLoad h) := fun _ _ he => nomatch he

theorem RoundTrip.evictLoad (h : Nat) : RoundTrip.Statement (.evictLoad h) := fun _ _ he => nomatch he

theorem RoundTrip.spillSet (h : Nat) : RoundTrip.Statement (.spillSet h) := fun _ _ he => nomatch he

theorem RoundTrip.tvecSet (h : Nat) : RoundTrip.Statement (.tvecSet h) := fun _ _ he => nomatch he

theorem RoundTrip.aspaceSet (h : Nat) : RoundTrip.Statement (.aspaceSet h) := fun _ _ he => nomatch he

theorem RoundTrip.tlbInvalidate (h : Nat) : RoundTrip.Statement (.tlbInvalidate h) := fun _ _ he => nomatch he

theorem RoundTrip.engineRestart (h : Nat) : RoundTrip.Statement (.engineRestart h) := fun _ _ he => nomatch he

theorem RoundTrip.preempt (h : Nat) : RoundTrip.Statement (.preempt h) := fun _ _ he => nomatch he

theorem RoundTrip.regionRegister (h : Nat) (stored : Bool) : RoundTrip.Statement (.regionRegister h stored) := fun _ _ he => nomatch he

theorem RoundTrip.regionRead (h : Nat) : RoundTrip.Statement (.regionRead h) := fun _ _ he => nomatch he

theorem RoundTrip.regionRetire (h : Nat) (stored : Bool) : RoundTrip.Statement (.regionRetire h stored) := fun _ _ he => nomatch he

theorem RoundTrip.attestRequest (h : Nat) : RoundTrip.Statement (.attestRequest h) := fun _ _ he => nomatch he

theorem RoundTrip.checkpoint (h : Nat) (stored : Bool) : RoundTrip.Statement (.checkpoint h stored) := fun _ _ he => nomatch he

theorem RoundTrip.keyInstall (h : Nat) (stored : Bool) : RoundTrip.Statement (.keyInstall h stored) := fun _ _ he => nomatch he

theorem RoundTrip.certRead (h : Nat) : RoundTrip.Statement (.certRead h) := fun _ _ he => nomatch he

theorem RoundTrip.reservedRequestCode (h : Nat) : RoundTrip.Statement (.reservedRequestCode h) := fun _ _ he => nomatch he

theorem RoundTrip.debugReadRegisters (h : Nat) : RoundTrip.Statement (.debugReadRegisters h) := fun _ _ he => nomatch he

theorem RoundTrip.debugReadTile (h : Nat) : RoundTrip.Statement (.debugReadTile h) := fun _ _ he => nomatch he

theorem RoundTrip.debugReadQueues (h : Nat) : RoundTrip.Statement (.debugReadQueues h) := fun _ _ he => nomatch he

theorem RoundTrip.debugReadBarrier (h : Nat) : RoundTrip.Statement (.debugReadBarrier h) := fun _ _ he => nomatch he

theorem RoundTrip.debugReadRingdike (h : Nat) : RoundTrip.Statement (.debugReadRingdike h) := fun _ _ he => nomatch he

theorem RoundTrip.debugReadEngine (h : Nat) : RoundTrip.Statement (.debugReadEngine h) := fun _ _ he => nomatch he

theorem RoundTrip.debugReadWaitQueue (h : Nat) : RoundTrip.Statement (.debugReadWaitQueue h) := fun _ _ he => nomatch he

theorem RoundTrip.debugReadSaveStore (h : Nat) : RoundTrip.Statement (.debugReadSaveStore h) := fun _ _ he => nomatch he

theorem RoundTrip.debugReadDirectory (h : Nat) : RoundTrip.Statement (.debugReadDirectory h) := fun _ _ he => nomatch he

theorem RoundTrip.debugReadTrapState (h : Nat) : RoundTrip.Statement (.debugReadTrapState h) := fun _ _ he => nomatch he

theorem RoundTrip.debugWriteRegister (h : Nat) : RoundTrip.Statement (.debugWriteRegister h) := fun _ _ he => nomatch he

theorem RoundTrip.halt (c : Nat) : RoundTrip.Statement (.halt c) := fun _ _ he => nomatch he

theorem RoundTrip.resume (c : Nat) : RoundTrip.Statement (.resume c) := fun _ _ he => nomatch he

theorem RoundTrip.stepHalt (c : Nat) : RoundTrip.Statement (.stepHalt c) := fun _ _ he => nomatch he

theorem RoundTrip.breakpoint (c : Nat) (st : Nat) : RoundTrip.Statement (.breakpoint c st) := fun _ _ he => nomatch he

theorem RoundTrip.illegalInstruction (w : BitVec 32) : RoundTrip.Statement (.illegalInstruction w) := fun _ _ he => nomatch he

theorem RoundTrip.flitReplay (l : Nat) : RoundTrip.Statement (.flitReplay l) := fun _ _ he => nomatch he

theorem RoundTrip.powerLoss  : RoundTrip.Statement (.powerLoss) := fun _ _ he => nomatch he

theorem RoundTrip.remoteAccessReply (c : Nat) (st : Nat) (answer : Option (List Byte)) : RoundTrip.Statement (.remoteAccessReply c st answer) := fun _ _ he => nomatch he

theorem RoundTrip.giariAccess (addr : Nat) (write : Bool) (n : Nat) (data : List Byte) : RoundTrip.Statement (.giariAccess addr write n data) := fun _ _ he => nomatch he

theorem RoundTrip.migratedTaskArrival (c : Nat) (ctx : List Word) : RoundTrip.Statement (.migratedTaskArrival c ctx) := fun _ _ he => nomatch he

theorem RoundTrip.streamPortArrival (i : Nat) : RoundTrip.Statement (.streamPortArrival i) := fun _ _ he => nomatch he

theorem RoundTrip.debugMemoryWrite (va : Nat) (data : List Byte) : RoundTrip.Statement (.debugMemoryWrite va data) := fun _ _ he => nomatch he

end Sys2Proof.Laws
end

