-- ==== Sys2Proof/Tests/Slice0.lean ====
section
/-!
SUPPORT. Tests of one step each, and for each statement with hypotheses a state and operands that meet them. Expected
values come from the spec's tables and worked examples, or from calculation by hand on its rules.
-/

set_option Elab.async false

open Sys2Proof Sys2Proof.Machine

namespace Sys2Proof.Tests

/-! ### Ill-formed terms: one for each check of `wellFormed`, refused by it and by the decoder (R200, R202, R229, R264, R274) -/

theorem test_ill_formed_1 : ∀ i ∈ ([
    .srd 0 0x010, .swr 0 0x010, .vld 16 0 0 0, .vst 0 16 0 0, .vlds 16 0 0 0 0, .vsts 16 0 0 0 0, .vgth 16 0 1 0 0,
    .vgth 1 0 16 0 0, .vgth 1 0 1 1 0, .vsct 16 0 1 0 0, .vsct 1 0 16 0 0, .vsct 1 0 1 1 0, .vbc 16 0 0 0,
    .vadd 16 1 1 0 0, .vadd 1 16 1 0 0, .vadd 1 1 16 0 0, .vsub 16 1 1 0 0, .vsub 1 16 1 0 0, .vsub 1 1 16 0 0,
    .vmul 16 1 1 0 0, .vmul 1 16 1 0 0, .vmul 1 1 16 0 0, .vmulh 16 1 1 0 0, .vmulh 1 16 1 0 0, .vmulh 1 1 16 0 0,
    .vmin 16 1 1 0 0, .vmin 1 16 1 0 0, .vmin 1 1 16 0 0, .vmax 16 1 1 0 0, .vmax 1 16 1 0 0, .vmax 1 1 16 0 0,
    .vminu 16 1 1 0 0, .vminu 1 16 1 0 0, .vminu 1 1 16 0 0, .vmaxu 16 1 1 0 0, .vmaxu 1 16 1 0 0, .vmaxu 1 1 16 0 0,
    .vadds 16 1 1 0 0, .vadds 1 16 1 0 0, .vadds 1 1 16 0 0, .vaddus 16 1 1 0 0, .vaddus 1 16 1 0 0,
    .vaddus 1 1 16 0 0, .vsubs 16 1 1 0 0, .vsubs 1 16 1 0 0, .vsubs 1 1 16 0 0, .vsubus 16 1 1 0 0,
    .vsubus 1 16 1 0 0, .vsubus 1 1 16 0 0, .vand 16 1 1 0 0, .vand 1 16 1 0 0, .vand 1 1 16 0 0, .vor 16 1 1 0 0,
    .vor 1 16 1 0 0, .vor 1 1 16 0 0, .vxor 16 1 1 0 0, .vxor 1 16 1 0 0, .vxor 1 1 16 0 0, .vandn 16 1 1 0 0,
    .vandn 1 16 1 0 0] : List Instr),
    wellFormed i = false ∧ ((encode i).bind fun p => decodeTableWord p.1 p.2) = none := by decide +kernel

theorem test_ill_formed_2 : ∀ i ∈ ([
    .vandn 1 1 16 0 0, .vsll 16 1 1 0 0, .vsll 1 16 1 0 0, .vsll 1 1 16 0 0, .vsrl 16 1 1 0 0, .vsrl 1 16 1 0 0,
    .vsrl 1 1 16 0 0, .vsra 16 1 1 0 0, .vsra 1 16 1 0 0, .vsra 1 1 16 0 0, .vcmpEq 1 16 1 0 0, .vcmpEq 1 1 16 0 0,
    .vcmpEq 0 1 1 0 0, .vcmpNe 1 16 1 0 0, .vcmpNe 1 1 16 0 0, .vcmpNe 0 1 1 0 0, .vcmpLt 1 16 1 0 0,
    .vcmpLt 1 1 16 0 0, .vcmpLt 0 1 1 0 0, .vcmpGe 1 16 1 0 0, .vcmpGe 1 1 16 0 0, .vcmpGe 0 1 1 0 0,
    .vcmpLtu 1 16 1 0 0, .vcmpLtu 1 1 16 0 0, .vcmpLtu 0 1 1 0 0, .vcmpGeu 1 16 1 0 0, .vcmpGeu 1 1 16 0 0,
    .vcmpGeu 0 1 1 0 0, .vsplat 16 0 0 0, .vext 0 16 0 0, .vins 16 0 0 0, .vmv 16 1 0 0, .vmv 1 16 0 0,
    .vfadd 16 1 1 0 0, .vfadd 1 16 1 0 0, .vfadd 1 1 16 0 0, .vfadd 1 1 1 3 0, .vfsub 16 1 1 0 0, .vfsub 1 16 1 0 0,
    .vfsub 1 1 16 0 0, .vfsub 1 1 1 3 0, .vfmul 16 1 1 0 0, .vfmul 1 16 1 0 0, .vfmul 1 1 16 0 0, .vfmul 1 1 1 3 0,
    .vfdiv 16 1 1 0 0, .vfdiv 1 16 1 0 0, .vfdiv 1 1 16 0 0, .vfdiv 1 1 1 3 0, .vfmin 16 1 1 0 0, .vfmin 1 16 1 0 0,
    .vfmin 1 1 16 0 0, .vfmin 1 1 1 3 0, .vfmax 16 1 1 0 0, .vfmax 1 16 1 0 0, .vfmax 1 1 16 0 0, .vfmax 1 1 1 3 0,
    .vfsqrt 16 1 0 0, .vfsqrt 1 16 0 0, .vfsqrt 1 1 3 0] : List Instr),
    wellFormed i = false ∧ ((encode i).bind fun p => decodeTableWord p.1 p.2) = none := by decide +kernel

theorem test_ill_formed_3 : ∀ i ∈ ([
    .vfma 16 1 1 0 0, .vfma 1 16 1 0 0, .vfma 1 1 16 0 0, .vfma 1 1 1 3 0, .vfnms 16 1 1 0 0, .vfnms 1 16 1 0 0,
    .vfnms 1 1 16 0 0, .vfnms 1 1 1 3 0, .vfcmpEq 1 16 1 0 0, .vfcmpEq 1 1 16 0 0, .vfcmpEq 1 1 1 3 0,
    .vfcmpEq 0 1 1 0 0, .vfcmpLt 1 16 1 0 0, .vfcmpLt 1 1 16 0 0, .vfcmpLt 1 1 1 3 0, .vfcmpLt 0 1 1 0 0,
    .vfcmpLe 1 16 1 0 0, .vfcmpLe 1 1 16 0 0, .vfcmpLe 1 1 1 3 0, .vfcmpLe 0 1 1 0 0, .vcvtF32F16 1 16 0 0,
    .vcvtF32F16 16 1 0 0, .vcvtF32F16 1 1 2 0, .vcvtF32Bf16 1 16 0 0, .vcvtF32Bf16 16 1 0 0, .vcvtF32Bf16 1 1 2 0,
    .vcvtF32E4m3 1 16 0 0, .vcvtF32E4m3 16 1 0 0, .vcvtF32E5m2 1 16 0 0, .vcvtF32E5m2 16 1 0 0, .vcvtF16F32 1 16 0 0,
    .vcvtF16F32 16 1 0 0, .vcvtF16F32 1 1 2 0, .vcvtBf16F32 1 16 0 0, .vcvtBf16F32 16 1 0 0, .vcvtBf16F32 1 1 2 0,
    .vcvtE4m3F32 1 16 0 0, .vcvtE4m3F32 16 1 0 0, .vcvtE5m2F32 1 16 0 0, .vcvtE5m2F32 16 1 0 0, .vcvtI32F32 1 16 0 0,
    .vcvtI32F32 16 1 0 0, .vcvtI32F32 1 1 1 0, .vcvtI32F32Rtz 1 16 0 0, .vcvtI32F32Rtz 16 1 0 0,
    .vcvtI32F32Rtz 1 1 1 0, .vcvtF32I32 1 16 0 0, .vcvtF32I32 16 1 0 0, .vcvtF32I32 1 1 1 0, .vcvtUi32F32 1 16 0 0,
    .vcvtUi32F32 16 1 0 0, .vcvtUi32F32 1 1 1 0, .vcvtUi32F32Rtz 1 16 0 0, .vcvtUi32F32Rtz 16 1 0 0,
    .vcvtUi32F32Rtz 1 1 1 0, .vcvtF32Ui32 1 16 0 0, .vcvtF32Ui32 16 1 0 0, .vcvtF32Ui32 1 1 1 0, .vcvtI8F32 1 16 0 0,
    .vcvtI8F32 16 1 0 0] : List Instr),
    wellFormed i = false ∧ ((encode i).bind fun p => decodeTableWord p.1 p.2) = none := by decide +kernel

theorem test_ill_formed_4 : ∀ i ∈ ([
    .vcvtI8F32Rtz 1 16 0 0, .vcvtI8F32Rtz 16 1 0 0, .vcvtF32I8 1 16 0 0, .vcvtF32I8 16 1 0 0, .vcvtUq8F32 1 16 0 0,
    .vcvtUq8F32 16 1 0 0, .vcvtUq8F32Rtz 1 16 0 0, .vcvtUq8F32Rtz 16 1 0 0, .vcvtF32Uq8 1 16 0 0,
    .vcvtF32Uq8 16 1 0 0, .vcvtI16F32 1 16 0 0, .vcvtI16F32 16 1 0 0, .vcvtI16F32 1 1 2 0, .vcvtI16F32Rtz 1 16 0 0,
    .vcvtI16F32Rtz 16 1 0 0, .vcvtI16F32Rtz 1 1 2 0, .vcvtF32I16 1 16 0 0, .vcvtF32I16 16 1 0 0, .vcvtF32I16 1 1 2 0,
    .vcvtI32I8 1 16 0 0, .vcvtI32I8 16 1 0 0, .vcvtI8I32 1 16 0 0, .vcvtI8I32 16 1 0 0, .vcvtI32I16 1 16 0 0,
    .vcvtI32I16 16 1 0 0, .vcvtI32I16 1 1 2 0, .vcvtI16I32 1 16 0 0, .vcvtI16I32 16 1 0 0, .vcvtI16I32 1 1 2 0,
    .vcvtE4m3F16 1 16 0 0, .vcvtE4m3F16 16 1 0 0, .vcvtE4m3F16 1 1 2 0, .vcvtF16E4m3 1 16 0 0, .vcvtF16E4m3 16 1 0 0,
    .vcvtF16E4m3 1 1 2 0, .qsc 16 0, .qcar 16 0, .qhist 16 0 0, .qstE4m3 0 0 16 0 0, .vredsum 0 16 0 0,
    .vredmin 0 16 0 0, .vredmax 0 16 0 0, .vredminu 0 16 0 0, .vredmaxu 0 16 0 0, .vfredsum 0 16 0, .vfredmax 0 16 0,
    .vfredmin 0 16 0, .vperm 16 1 1 0 0, .vperm 1 16 1 0 0, .vperm 1 1 16 0 0, .vslide 16 1 0 0 0, .vslide 1 16 0 0 0,
    .vcomp 16 1 0 0, .vcomp 1 16 0 0, .vrev 16 1 0 0, .vrev 1 16 0 0, .kand 0 0 0, .kor 0 0 0, .kxor 0 0 0, .knot 0 0] : List Instr),
    wellFormed i = false ∧ ((encode i).bind fun p => decodeTableWord p.1 p.2) = none := by decide +kernel

theorem test_ill_formed_5 : ∀ i ∈ ([
    .kfromx 0 0, .accTov 0 16 0, .accFromv 0 16 0] : List Instr),
    wellFormed i = false ∧ ((encode i).bind fun p => decodeTableWord p.1 p.2) = none := by decide +kernel

/-! ### Decoding: every encoded form by a word built from the encoding tables of the chapters (R198 to R206 and each form's rule) -/

theorem test_decode_major_01 : ∀ p ∈ ([
    (32, 0x01C15703, .add 14 21 28), (32, 0x01C35703, .sub 14 21 28), (32, 0x01C55703, .xor 14 21 28),
    (32, 0x01F78883, .andn 17 24 31), (32, 0x01C95703, .orn 14 21 28), (32, 0x01FB8883, .xnor 17 24 31),
    (32, 0x019D2583, .or 11 18 25), (32, 0x01CF5703, .and 14 21 28), (32, 0x03C15703, .shl 14 21 28),
    (32, 0x03C35703, .shr 14 21 28), (32, 0x03C55703, .sar 14 21 28), (32, 0x03F78883, .rotl 17 24 31),
    (32, 0x03F98883, .rotr 17 24 31), (32, 0x022BBA03, .cmplt 20 27 2), (32, 0x025DEB83, .cmpltu 23 30 5),
    (32, 0x022FBA03, .cmpeq 20 27 2), (32, 0x05C15703, .min 14 21 28), (32, 0x05C35703, .max 14 21 28),
    (32, 0x05F58883, .minu 17 24 31), (32, 0x05F78883, .maxu 17 24 31), (32, 0x04095703, .clz 14 21),
    (32, 0x040B5703, .ctz 14 21), (32, 0x040D5703, .pop 14 21), (32, 0x0601EB83, .sextB 23 30),
    (32, 0x0603EB83, .sextH 23 30), (32, 0x0605EB83, .sextW 23 30), (32, 0x0607EB83, .zextB 23 30),
    (32, 0x0609EB83, .zextH 23 30), (32, 0x060BEB83, .zextW 23 30), (32, 0x060DBA03, .bswap 20 27),
    (32, 0x060FEB83, .bitrev 23 30), (32, 0x09C15703, .mul 14 21 28), (32, 0x08821D03, .mulxSs 26 1 8),
    (32, 0x08841D03, .mulxUu 26 1 8), (32, 0x08861D03, .mulxSu 26 1 8), (32, 0x0BF18883, .quot 17 24 31),
    (32, 0x0A23BA03, .quotu 20 27 2), (32, 0x0BF58883, .remd 17 24 31), (32, 0x0A27BA03, .remdu 20 27 2)] : List (Nat × Nat × Instr)),
    decodeTableWord p.1 p.2.1 = some p.2.2 := by decide +kernel

theorem test_decode_major_02 : ∀ p ∈ ([
    (32, 0xBC718885, .addi 17 24 3015), (32, 0x01F38885, .slli 17 24 31), (32, 0x0E23BA05, .rotli 20 27 34),
    (32, 0xBC75EB85, .cmplti 23 30 3015), (32, 0xBC761D05, .cmpltiu 26 1 3015), (32, 0xBC798885, .xori 17 24 3015),
    (32, 0x01FB8885, .srli 17 24 31), (32, 0x05FB8885, .srai 17 24 31), (32, 0x0E2BBA05, .rotri 20 27 34),
    (32, 0xBC7D5705, .ori 14 21 3015), (32, 0xBC7F8885, .andi 17 24 3015)] : List (Nat × Nat × Instr)),
    decodeTableWord p.1 p.2.1 = some p.2.2 := by decide +kernel

theorem test_decode_major_03 : ∀ p ∈ ([
    (32, 0x00AB6A07, .hiimm 20 2742)] : List (Nat × Nat × Instr)),
    decodeTableWord p.1 p.2.1 = some p.2.2 := by decide +kernel

theorem test_decode_major_04 : ∀ p ∈ ([
    (32, 0x00AB6889, .jump 17 2742)] : List (Nat × Nat × Instr)),
    decodeTableWord p.1 p.2.1 = some p.2.2 := by decide +kernel

theorem test_decode_major_05 : ∀ p ∈ ([
    (32, 0xBC71258B, .jr 11 18 3015), (32, 0xBC73BA0B, .pcadd 20 27 3015)] : List (Nat × Nat × Instr)),
    decodeTableWord p.1 p.2.1 = some p.2.2 := by decide +kernel

theorem test_decode_major_06 : ∀ p ∈ ([
    (32, 0xBC71570D, .beq 14 21 3015), (32, 0xBC73570D, .bne 14 21 3015), (32, 0xBC75570D, .blt 14 21 3015),
    (32, 0xBC77570D, .bge 14 21 3015), (32, 0xBC79888D, .bltu 17 24 3015), (32, 0xBC7B888D, .bgeu 17 24 3015)] : List (Nat × Nat × Instr)),
    decodeTableWord p.1 p.2.1 = some p.2.2 := by decide +kernel

theorem test_decode_major_07 : ∀ p ∈ ([
    (32, 0xBC71808F, .loop 1 24 3015), (32, 0xBC73B00F, .loopi 0 27 3015), (32, 0x0004008F, .loopClr 1)] : List (Nat × Nat × Instr)),
    decodeTableWord p.1 p.2.1 = some p.2.2 := by decide +kernel

theorem test_decode_major_08 : ∀ p ∈ ([
    (32, 0x9A500011, .forkA 2469), (32, 0x00334011, .qPut 20 3), (32, 0x00340A11, .qGet 20 3),
    (32, 0x00360A11, .qCnt 20 3)] : List (Nat × Nat × Instr)),
    decodeTableWord p.1 p.2.1 = some p.2.2 := by decide +kernel

theorem test_decode_major_09 : ∀ p ∈ ([
    (32, 0x0041D013, .msgSend 29 4), (32, 0x0013A013, .spOpen 26 1), (32, 0x00057013, .spPut 23),
    (32, 0x00060E93, .spClose 29)] : List (Nat × Nat × Instr)),
    decodeTableWord p.1 p.2.1 = some p.2.2 := by decide +kernel

theorem test_decode_major_0A : ∀ p ∈ ([
    (32, 0x00000015, .taskEnd), (32, 0x00037015, .safept 23), (32, 0x9A540015, .align 2469)] : List (Nat × Nat × Instr)),
    decodeTableWord p.1 p.2.1 = some p.2.2 := by decide +kernel

theorem test_decode_major_0B : ∀ p ∈ ([
    (32, 0x02100717, .srd 14 33), (32, 0x0214E017, .swr 14 33), (32, 0x00060017, .phase),
    (32, 0x0029BA17, .tlbW 20 27 2), (32, 0x001BA017, .tlbInv 26 1)] : List (Nat × Nat × Instr)),
    decodeTableWord p.1 p.2.1 = some p.2.2 := by decide +kernel

theorem test_decode_major_0C : ∀ p ∈ ([
    (32, 0xBC718899, .ldB 17 24 3015), (32, 0xBC738899, .ldH 17 24 3015), (32, 0xBC758899, .ldW 17 24 3015),
    (32, 0xBC778899, .ldD 17 24 3015), (32, 0xBC79BA19, .ldBu 20 27 3015), (32, 0xBC7BBA19, .ldHu 20 27 3015),
    (32, 0xBC7DBA19, .ldWu 20 27 3015)] : List (Nat × Nat × Instr)),
    decodeTableWord p.1 p.2.1 = some p.2.2 := by decide +kernel

theorem test_decode_major_0D : ∀ p ∈ ([
    (32, 0xBC71889B, .stB 17 24 3015), (32, 0xBC73889B, .stH 17 24 3015), (32, 0xBC75889B, .stW 17 24 3015),
    (32, 0xBC77889B, .stD 17 24 3015), (32, 0xBC79BA1B, .stDh 20 27 3015)] : List (Nat × Nat × Instr)),
    decodeTableWord p.1 p.2.1 = some p.2.2 := by decide +kernel

theorem test_decode_major_0E : ∀ p ∈ ([
    (32, 0x0030001D, .fenceFull 3), (32, 0x0002001D, .fenceRel 0), (32, 0x0004001D, .fenceAcq 0),
    (32, 0x01B7401D, .mlive 20 27)] : List (Nat × Nat × Instr)),
    decodeTableWord p.1 p.2.1 = some p.2.2 := by decide +kernel

theorem test_decode_major_0F : ∀ p ∈ ([
    (32, 0x00E0701F, .amoAddD 0 7 14), (32, 0x00E2701F, .amoAndD 0 7 14), (32, 0x00B44E9F, .amoOrD 29 4 11),
    (32, 0x00E6701F, .amoXorD 0 7 14), (32, 0x00E8701F, .amoMinD 0 7 14), (32, 0x00EA701F, .amoMaxD 0 7 14),
    (32, 0x011CA19F, .amoSwapD 3 10 17), (32, 0x00EE701F, .amoCasD 0 7 14), (32, 0x02E0701F, .amoAddW 0 7 14),
    (32, 0x02E2701F, .amoAndW 0 7 14), (32, 0x02B44E9F, .amoOrW 29 4 11), (32, 0x02E6701F, .amoXorW 0 7 14),
    (32, 0x02E8701F, .amoMinW 0 7 14), (32, 0x02EA701F, .amoMaxW 0 7 14), (32, 0x031CA19F, .amoSwapW 3 10 17),
    (32, 0x02EE701F, .amoCasW 0 7 14), (32, 0x0518A19F, .amoMinuD 3 10 17), (32, 0x051AA19F, .amoMaxuD 3 10 17),
    (32, 0x0718A19F, .amoMinuW 3 10 17), (32, 0x071AA19F, .amoMaxuW 3 10 17), (32, 0x08B04E9F, .amoFadd 29 4 11)] : List (Nat × Nat × Instr)),
    decodeTableWord p.1 p.2.1 = some p.2.2 := by decide +kernel

theorem test_decode_major_10 : ∀ p ∈ ([
    (32, 0x00001D21, .syncLd 26 1), (32, 0x00B24EA1, .syncAdd 29 4 11), (32, 0x00B44EA1, .syncAnd 29 4 11),
    (32, 0x00861D21, .syncOr 26 1 8), (32, 0x00B84EA1, .syncXor 29 4 11), (32, 0x00EA7021, .syncSwap 0 7 14),
    (32, 0x00BC4EA1, .syncCas 29 4 11), (32, 0x00EE7021, .syncFadd 0 7 14), (32, 0x02B04EA1, .syncMin 29 4 11),
    (32, 0x02B24EA1, .syncMax 29 4 11), (32, 0x02E47021, .syncMinu 0 7 14), (32, 0x02E67021, .syncMaxu 0 7 14),
    (32, 0x02E87021, .syncWait 0 7 14), (32, 0x02EA7021, .syncWake 0 7 14)] : List (Nat × Nat × Instr)),
    decodeTableWord p.1 p.2.1 = some p.2.2 := by decide +kernel

theorem test_decode_major_11 : ∀ p ∈ ([
    (32, 0x00300023, .barArrive 3), (32, 0x00520023, .barWait 5)] : List (Nat × Nat × Instr)),
    decodeTableWord p.1 p.2.1 = some p.2.2 := by decide +kernel

theorem test_decode_major_12 : ∀ p ∈ ([
    (32, 0x0110A1A5, .ringBoard 3 10 17), (32, 0x01A33625, .ringCapRead 12 19 26),
    (32, 0x037304A5, .ringCapAdd 9 16 23), (32, 0x057304A5, .ringCapMin 9 16 23),
    (32, 0x077304A5, .ringCapMax 9 16 23), (32, 0x09A33625, .ringCapSwap 12 19 26),
    (32, 0x0B7304A5, .ringCapCas 9 16 23), (32, 0x0144D325, .ringAlight 6 13 20)] : List (Nat × Nat × Instr)),
    decodeTableWord p.1 p.2.1 = some p.2.2 := by decide +kernel

theorem test_decode_major_13 : ∀ p ∈ ([
    (32, 0x02A001A7, .lblAssume 3 42), (32, 0x00B24EA7, .lblWith 29 4 11), (32, 0x00E47027, .lblMerge 0 7 14),
    (32, 0x00061D27, .lblGet 26 1), (32, 0x00081D27, .lblVis 26 1), (32, 0x000AA1A7, .lblNogood 3 10),
    (32, 0x000C1D27, .lblCtx 26 1)] : List (Nat × Nat × Instr)),
    decodeTableWord p.1 p.2.1 = some p.2.2 := by decide +kernel

theorem test_decode_major_14 : ∀ p ∈ ([
    (32, 0x0001EBA9, .launch 23 30), (32, 0x01C35729, .arm 14 21 28), (32, 0x01E40BA9, .disarm 23 30)] : List (Nat × Nat × Instr)),
    decodeTableWord p.1 p.2.1 = some p.2.2 := by decide +kernel

theorem test_decode_major_15 : ∀ p ∈ ([
    (32, 0x0000702B, .meterReg 0 7), (32, 0x0112A1AB, .meterRead 3 10 17), (32, 0x000401AB, .meterCkpt 3),
    (32, 0x0007EBAB, .attest 23 30)] : List (Nat × Nat × Instr)),
    decodeTableWord p.1 p.2.1 = some p.2.2 := by decide +kernel

theorem test_decode_major_16 : ∀ p ∈ ([
    (32, 0xC001572D, .vld 14 21 0 3), (32, 0xC052E02D, .vst 14 5 0 3), (32, 0x45F580AD, .vlds 1 24 31 2 1),
    (32, 0x45F780AD, .vsts 1 24 31 2 1), (32, 0x46F980AD, .vgth 1 24 15 3 1), (32, 0x46FB80AD, .vsct 1 24 15 3 1),
    (32, 0xC00D572D, .vbc 14 21 0 3)] : List (Nat × Nat × Instr)),
    decodeTableWord p.1 p.2.1 = some p.2.2 := by decide +kernel

theorem test_decode_major_17 : ∀ p ∈ ([
    (32, 0x44F080AF, .vadd 1 8 15 2 1), (32, 0x4CF080AF, .vsub 1 8 15 2 1), (32, 0x54F080AF, .vmul 1 8 15 2 1),
    (32, 0x1A20B22F, .vmulh 4 11 2 1 0), (32, 0x64F080AF, .vmin 1 8 15 2 1), (32, 0x6CF080AF, .vmax 1 8 15 2 1),
    (32, 0x3220B22F, .vminu 4 11 2 1 0), (32, 0x3A20B22F, .vmaxu 4 11 2 1 0), (32, 0x0222B22F, .vadds 4 11 2 1 0),
    (32, 0xC852E3AF, .vaddus 7 14 5 0 3), (32, 0x1222B22F, .vsubs 4 11 2 1 0), (32, 0xD852E3AF, .vsubus 7 14 5 0 3),
    (32, 0x44F480AF, .vand 1 8 15 2 1), (32, 0x8EC4572F, .vor 14 5 12 3 2), (32, 0x54F480AF, .vxor 1 8 15 2 1),
    (32, 0x1A24B22F, .vandn 4 11 2 1 0), (32, 0x44F680AF, .vsll 1 8 15 2 1), (32, 0x4CF680AF, .vsrl 1 8 15 2 1),
    (32, 0x54F680AF, .vsra 1 8 15 2 1), (32, 0x8688112F, .vcmpEq 2 1 8 3 2), (32, 0x8E88112F, .vcmpNe 2 1 8 3 2),
    (32, 0x9688112F, .vcmpLt 2 1 8 3 2), (32, 0x9E88112F, .vcmpGe 2 1 8 3 2), (32, 0x64B8412F, .vcmpLtu 2 4 11 2 1),
    (32, 0x6CB8412F, .vcmpGeu 2 4 11 2 1), (32, 0x020BE3AF, .vsplat 7 30 1 0), (32, 0x0DFA88AF, .vext 17 8 31 2),
    (32, 0x15FB80AF, .vins 1 24 31 2), (32, 0xD80A572F, .vmv 14 5 0 3)] : List (Nat × Nat × Instr)),
    decodeTableWord p.1 p.2.1 = some p.2.2 := by decide +kernel

theorem test_decode_major_18 : ∀ p ∈ ([
    (32, 0x0220B231, .vfadd 4 11 2 1 0), (32, 0x0A20B231, .vfsub 4 11 2 1 0), (32, 0x1220B231, .vfmul 4 11 2 1 0),
    (32, 0x1A20B231, .vfdiv 4 11 2 1 0), (32, 0x2220B231, .vfmin 4 11 2 1 0), (32, 0x2A20B231, .vfmax 4 11 2 1 0),
    (32, 0x3200E3B1, .vfsqrt 7 14 1 0), (32, 0x42F280B1, .vfma 1 8 15 1 1), (32, 0x0A22B231, .vfnms 4 11 2 1 0),
    (32, 0x42B44131, .vfcmpEq 2 4 11 1 1), (32, 0x4AB44131, .vfcmpLt 2 4 11 1 1),
    (32, 0x52B44131, .vfcmpLe 2 4 11 1 1)] : List (Nat × Nat × Instr)),
    decodeTableWord p.1 p.2.1 = some p.2.2 := by decide +kernel

theorem test_decode_major_19 : ∀ p ∈ ([
    (32, 0x801004B3, .vcvtF32F16 9 0 1 2), (32, 0x42103633, .vcvtF32Bf16 12 3 1 1),
    (32, 0x44103633, .vcvtF32E4m3 12 3 1 1), (32, 0x46103633, .vcvtF32E5m2 12 3 1 1),
    (32, 0x881004B3, .vcvtF16F32 9 0 1 2), (32, 0x4A103633, .vcvtBf16F32 12 3 1 1),
    (32, 0x4C103633, .vcvtE4m3F32 12 3 1 1), (32, 0x4E103633, .vcvtE5m2F32 12 3 1 1),
    (32, 0x900004B3, .vcvtI32F32 9 0 0 2), (32, 0x9200C2B3, .vcvtI32F32Rtz 5 12 0 2),
    (32, 0x940004B3, .vcvtF32I32 9 0 0 2), (32, 0x56003633, .vcvtUi32F32 12 3 0 1),
    (32, 0x5800F433, .vcvtUi32F32Rtz 8 15 0 1), (32, 0x5A003633, .vcvtF32Ui32 12 3 0 1),
    (32, 0xDC10D333, .vcvtI8F32 6 13 1 3), (32, 0xDE109133, .vcvtI8F32Rtz 2 9 1 3),
    (32, 0xE010D333, .vcvtF32I8 6 13 1 3), (32, 0xA21004B3, .vcvtUq8F32 9 0 1 2),
    (32, 0xA410C2B3, .vcvtUq8F32Rtz 5 12 1 2), (32, 0xA61004B3, .vcvtF32Uq8 9 0 1 2),
    (32, 0xA81004B3, .vcvtI16F32 9 0 1 2), (32, 0xAA10C2B3, .vcvtI16F32Rtz 5 12 1 2),
    (32, 0xAC1004B3, .vcvtF32I16 9 0 1 2), (32, 0xEE10D333, .vcvtI32I8 6 13 1 3),
    (32, 0xF010D333, .vcvtI8I32 6 13 1 3), (32, 0xB21004B3, .vcvtI32I16 9 0 1 2),
    (32, 0xB41004B3, .vcvtI16I32 9 0 1 2), (32, 0x76103633, .vcvtE4m3F16 12 3 1 1),
    (32, 0x78103633, .vcvtF16E4m3 12 3 1 1), (32, 0x02E20033, .qsc 14 1), (32, 0x0E020A33, .qstat 20 3),
    (32, 0x100200B3, .qcar 1 0), (32, 0x1A020033, .qclr 1), (32, 0x16440033, .qhist 4 3 2),
    (32, 0x0CB64EB3, .qstE4m3 29 4 11 2 1)] : List (Nat × Nat × Instr)),
    decodeTableWord p.1 p.2.1 = some p.2.2 := by decide +kernel

theorem test_decode_major_1A : ∀ p ∈ ([
    (32, 0xC0001D35, .vredsum 26 1 0 3), (32, 0xC8001D35, .vredmin 26 1 0 3), (32, 0xD0001D35, .vredmax 26 1 0 3),
    (32, 0x9E004EB5, .vredminu 29 4 3 2), (32, 0xA6004EB5, .vredmaxu 29 4 3 2), (32, 0xE8004EB5, .vfredsum 29 4 3),
    (32, 0xF0004EB5, .vfredmax 29 4 3), (32, 0xF8004EB5, .vfredmin 29 4 3), (32, 0x0222B235, .vperm 4 11 2 1 0),
    (32, 0xC852E3B5, .vslide 7 14 5 0 3), (32, 0x5402B235, .vcomp 4 11 2 1), (32, 0x9E0280B5, .vrev 1 8 3 2),
    (32, 0x00340135, .kand 2 0 3), (32, 0x08041135, .kor 2 1 0), (32, 0x10340135, .kxor 2 0 3),
    (32, 0x18040135, .knot 2 0), (32, 0x2005E135, .kfromx 2 30), (32, 0x280408B5, .ktox 17 0),
    (32, 0x300408B5, .kpop 17 0)] : List (Nat × Nat × Instr)),
    decodeTableWord p.1 p.2.1 = some p.2.2 := by decide +kernel

theorem test_decode_major_1B : ∀ p ∈ ([
    (32, 0x00D00037, .repOpen 13), (32, 0x1013A037, .repRun 26 1 8)] : List (Nat × Nat × Instr)),
    decodeTableWord p.1 p.2.1 = some p.2.2 := by decide +kernel

theorem test_decode_major_1C : ∀ p ∈ ([
    (32, 0x00001139, .tmapLd 2 1), (32, 0x00120D39, .tmapRd 26 1 0), (32, 0x000442B9, .tmapMov 5 4)] : List (Nat × Nat × Instr)),
    decodeTableWord p.1 p.2.1 = some p.2.2 := by decide +kernel

theorem test_decode_major_1D : ∀ p ∈ ([
    (32, 0x043042BB, .gangWld 5 4 3 2), (32, 0x00A2B2BB, .gangMma 5 0 11 2 1 0)] : List (Nat × Nat × Instr)),
    decodeTableWord p.1 p.2.1 = some p.2.2 := by decide +kernel

theorem test_decode_major_1F : ∀ p ∈ ([
    (32, 0x0080113F, .hotReg 2 1 8), (32, 0x0022003F, .hotMig 2), (32, 0x00041D3F, .hotCnt 26 1)] : List (Nat × Nat × Instr)),
    decodeTableWord p.1 p.2.1 = some p.2.2 := by decide +kernel

theorem test_decode_major_1E : ∀ p ∈ ([
    (32, 0x0051EC3D, .accLd 3 30 5), (32, 0x0053EC3D, .accSt 3 30 5), (32, 0x0004043D, .accZero 1),
    (32, 0x0006443D, .accFill 1 4), (32, 0x0088183D, .accTov 2 1 8), (32, 0x00EA703D, .accFromv 0 7 14)] : List (Nat × Nat × Instr)),
    decodeTableWord p.1 p.2.1 = some p.2.2 := by decide +kernel

theorem test_decode_major_20 : ∀ p ∈ ([
    (32, 0x00015741, .cpy 14 21), (32, 0x00035741, .gth 14 21), (32, 0x000588C1, .coll 17 24),
    (32, 0x0006A1C1, .engCancel 3 10)] : List (Nat × Nat × Instr)),
    decodeTableWord p.1 p.2.1 = some p.2.2 := by decide +kernel

theorem test_decode_major_3F : ∀ p ∈ ([
    (32, 0x0004D2FF, .hint 2469)] : List (Nat × Nat × Instr)),
    decodeTableWord p.1 p.2.1 = some p.2.2 := by decide +kernel

theorem test_decode_compressed : ∀ p ∈ ([
    (16, 0xBBC2, .cAddi 23 30), (16, 0xA364, .cSet 20 27), (16, 0x8E06, .cMv 17 24), (16, 0xA6E6, .cAdd 20 27),
    (16, 0xA6C8, .cSub 20 27), (16, 0xA6E8, .cAnd 20 27), (16, 0x8E0A, .cOr 17 24), (16, 0xA6EA, .cXor 20 27),
    (16, 0xBBCC, .cSlli 23 30), (16, 0xBBCE, .cSrli 23 30), (16, 0xF8B0, .cLdD 7 6 5), (16, 0xF8B2, .cStD 7 6 5),
    (16, 0xF8B4, .cLdW 7 6 5), (16, 0xF8B6, .cStW 7 6 5), (16, 0x2318, .cBz 1 24), (16, 0x837A, .cBnz 4 27),
    (16, 0x02FC, .cJump 23), (16, 0x001E, .cNop), (16, 0x003E, .cTaskEnd)] : List (Nat × Nat × Instr)),
    decodeTableWord p.1 p.2.1 = some p.2.2 := by decide +kernel
/-! ### States for tests -/

/-- A task of core 0 at offset 0 of its group's store, changed by `f`; every register reads 0. -/
def start (f : Task → Task) : State := (State.reset.withFetchWord 32 0x7F).modTask f

/-- The plain start. -/
def begins : State := start id

/-- x registers given by number, with label ALWAYS. -/
def xs (l : List (Fin 32 × Word)) (t : Task) : Task :=
  { t with regs := { t.regs with x := l.foldl (fun x p => x.set p.1.val ⟨p.2, always⟩ p.1.isLt) t.regs.x } }

/-- Vector registers given by number, with label ALWAYS. -/
def vs (l : List (Fin 16 × Lanes)) (t : Task) : Task :=
  { t with regs := { t.regs with v := l.foldl (fun x p => x.set p.1.val ⟨p.2, always⟩ p.1.isLt) t.regs.v } }

/-- The access stream of a task whose execute stream runs too. -/
def access (f : Task → Task) : State := { start (fun t => f { t with ac := { active := true } }) with actStream := 1 }

/-- A privileged task. -/
def priv (t : Task) : Task := { t with priv := true }

/-- The task at another PC of the execute stream. -/
def atPc (n : Nat) (t : Task) : Task := { t with ex := { t.ex with pc := n } }

/-- A page of 64 KiB at 0x1_0000_0000 for the core's tile: readable, writable, at physical address 0. -/
def paged (s : State) : State := { s with tlb := [(0, 0x100000001, 6)] }

/-- The same page for the host's cache. -/
def hostPaged (s : State) : State := { s with host := { s.host with cache := [(0, 0x100000001, 6)] } }

/-- Bytes of the scratchpads. -/
def scratch (a : Nat) (bs : List Byte) (s : State) : State := { s with mem := { s.mem with spm := Tab.fill 0 s.mem.spm a bs } }

/-- Bytes of main memory. -/
def mainAt (a : Nat) (bs : List Byte) (s : State) : State := { s with mem := { s.mem with main := Tab.fill 0 s.mem.main a bs } }

/-- A result. -/
def ok {α ε : Type} (r : Except ε α) : Bool :=
  match r with
  | .ok _ => true
  | .error _ => false

/-- A test of what an effect's parts give. -/
def holds (r : Except Stop Bool) : Bool :=
  match r with
  | .ok b => b
  | .error _ => false

/-- What `f` reads of the next state. -/
noncomputable def after {α : Type} (i : Instr) (s : State) (f : State → α) : Option α := (outcome (exec i s)).map f

theorem ok_exists {α ε : Type} {r : Except ε α} (h : ok r = true) : ∃ a, r = .ok a := by
  cases r with
  | ok a => exact ⟨a, rfl⟩
  | error e => cases h

theorem error_exists {α ε : Type} {r : Except ε α} (h : ok r = false) : ∃ e, r = .error e := by
  cases r with
  | ok a => cases h
  | error e => exact ⟨e, rfl⟩

/-- Labels that are all ALWAYS have the Product ALWAYS. -/
theorem product_always {s : State} {d : Nat} {f : BitVec 8} {b : Bool} {hs : List Handle} (h : (hs.all fun x => decide (x = always)) = true) :
    s.product d f b hs = .ok (always, s) := by
  have : hs.filter (fun h => decide (h ≠ always)) = [] := by
    simp only [List.filter_eq_nil_iff]
    intro x hx
    simpa using List.all_eq_true.mp h x hx
  simp only [State.product, this, if_true]

/-- The same as an instruction forms it: no record is named, so none is read. -/
theorem form_always {s : State} {d : Nat} {f : BitVec 8} {b : Bool} {hs : List Handle} (h : (hs.all fun x => decide (x = always)) = true) :
    s.form d f b hs = .ok (always, s) := by
  have e : hs.filter (fun h => decide (h ≠ always ∧ h ≠ never)) = [] := by
    simp only [List.filter_eq_nil_iff]
    intro x hx
    have := List.all_eq_true.mp h x hx
    simp at this
    simp [this]
  have b : s.badRecordOf d f hs = none := by simp only [State.badRecordOf, e, List.findSome?_nil]
  have r : s.readRecords d f hs = s := by simp only [State.readRecords, State.mendAtoms, e, List.flatMap_nil, List.foldl_nil]
  simp only [State.form, b, r, product_always h]

/-- The conditions of `State.Ready` as a test. -/
def beginsB (s : State) : Bool :=
  s.core.running && s.strm.wait.isNone && s.strm.reply.isNone && !s.strm.asks && s.strm.under.isNone && decide (s.task.spCount < 1024)
    && s.task.info.carried.isNone

theorem ready_of {s : State} (h : beginsB s = true) : s.Ready := by
  simp only [beginsB, Bool.and_eq_true, Bool.not_eq_true', decide_eq_true_eq, Option.isNone_iff_eq_none] at h
  constructor <;> simp only [h]

theorem parked_of {s : State} (h : s.parked = []) : s.Parked := by
  constructor <;> simp [h]

/-- Main memory in which no atom is marked. -/
theorem unmarked_of {s : State} (h : s.mem.mainEcc = []) : ∀ t, s.mends .main t = false := by
  intro t
  simp [State.mends, State.ecc, h, Tab.get]

/-- The conditions of `State.OwnScratch` as a test. -/
def ownB (s : State) (ea n : Nat) : Bool :=
  decide (ea + n ≤ 65536) && (!s.core.regs.lab || decide (s.core.regs.frm = s.task.frame))
    && (atomsOf (s.core.num * 65536 + ea) n).all fun t => decide (Tab.get 0 s.mem.spmEcc t = 0)

theorem own_of {s : State} {ea n : Nat} (h : ownB s ea n = true) : s.OwnScratch ea n := by
  simp only [ownB, Bool.and_eq_true, Bool.or_eq_true, Bool.not_eq_true', decide_eq_true_eq, List.all_eq_true] at h
  exact ⟨h.1.1, fun hl => h.1.2.resolve_left (by simp [hl]), h.2⟩

/-- The conditions of `State.Quiet` as a test. -/
def quietB (s : State) : Bool := s.waiting.isEmpty && s.strm.fences.isEmpty && !s.myReductions 7 && s.strm.early.isEmpty

theorem quiet_of {s : State} (h : quietB s = true) : s.Quiet := by
  simp only [quietB, Bool.and_eq_true, List.isEmpty_iff, Bool.not_eq_true'] at h
  constructor <;> simp only [h]

/-- Main memory is plain storage where neither die has a spillway and nothing is marked, owned or down. -/
theorem plain_of {s : State} (h : (!bit (s.dieAt 0).spill 0 && !bit (s.dieAt 1).spill 0 && decide (s.mem.notLive = [])
    && decide (s.mem.mainEcc = []) && decide (s.engines = []) && decide (s.links.down = [])) = true) : s.PlainMain := by
  simp only [Bool.and_eq_true, Bool.not_eq_true', decide_eq_true_eq] at h
  constructor <;> first | simp only [h] | simp [State.inSpill, State.owned, h]

/-- The conditions of `State.SluicePlace` as a test. -/
def placedB (s : State) (a : Word) (k off : Nat) : Bool :=
  decide (a.toNat = k * 2 ^ 32 + off ∧ k < 2 ∧ off < 2 ^ 32 ∧ off % 8 = 0 ∧ off < (bits (s.dieAt k).spill 8 12 + 1) * 2 ^ 20)
    && (s.dieAt k).spill.getLsbD 0

theorem placed_of {s : State} {a : Word} {k off : Nat} (h : placedB s a k off = true) : s.SluicePlace a k off := by
  simp only [placedB, Bool.and_eq_true, decide_eq_true_eq] at h
  constructor <;> simp only [h]

/-- No request, waiter, store or fence stands before a sluice operation at die `k`. -/
def clearB (s : State) (k : Nat) : Bool :=
  s.links.down.isEmpty && (s.dies.toList.all fun d => d.sluiceq.isEmpty && d.waiters.isEmpty) && (s.dieAt k).sluiceq.isEmpty && s.mine.isEmpty
    && s.strm.fences.isEmpty && (s.dieAt k).wordEcc.isEmpty && (s.dieAt k).served.isNone

theorem sluiceFree_of {s : State} {a : Word} {k off : Nat} (h : s.SluicePlace a k off) (hb : clearB s k = true) : s.SluiceFree a k off := by
  simp only [clearB, Bool.and_eq_true, List.isEmpty_iff, Option.isNone_iff_eq_none] at hb
  have hd := hb.1.1.1.1.1.2
  have hq : ∀ d ∈ s.dies.toList, d.sluiceq = [] ∧ d.waiters = [] := by
    intro d hx
    have := List.all_eq_true.mp hd d hx
    simpa using this
  have hr : ∀ n, s.myReductions n = false := by
    intro n
    have e : s.reductionsIn n = [] := by
      simp only [State.reductionsIn, List.flatMap_eq_nil_iff]
      intro p hp
      have := hq p.1 (List.mem_zipIdx hp |>.2.2 ▸ List.getElem_mem _)
      simp [this.1]
    simp [State.myReductions, e]
  refine ⟨h, .inr (by simp [hb]), by simp only [hb], ?_, by simp only [State.sluiceServed, hb], ?_, by simp only [hb, Tab.get]⟩
  · have h1 : s.dies.toList.any (fun d => d.sluiceq.any fun q => !q.reduce && decide (q.who = s.self)) = false := by
      simp only [List.any_eq_false]; intro d hx; simp [(hq d hx).1]
    have h2 : s.dies.toList.any (fun d => d.waiters.any fun w => decide (w.who = s.self)) = false := by
      simp only [List.any_eq_false]; intro d hx; simp [(hq d hx).2]
    simp [State.sluicePending, h1, h2]
  · intro op
    simp [State.sluiceHeld, State.heldIn, hb, hr]

/-- Whether the labels of a write are judged visible, and no record is in error. -/
def judgeB (s : State) (hs : List Handle) (b : Bool) : Bool :=
  match s.judge hs with
  | .ok (c, _) => b == c
  | .error _ => false

theorem judge_of {s : State} {hs : List Handle} {b : Bool} (h : judgeB s hs b = true) : ∃ y, s.judge hs = .ok (b, y) := by
  simp only [judgeB] at h
  split at h
  · next c y e => exact ⟨y, by simpa [eq_of_beq h] using e⟩
  · cases h

/-! ### Majors 0x01 to 0x0B: the statements' hypotheses -/

theorem witness_IntegerForms : begins.Ready ∧ ok (begins.prod [always, always, begins.dep]) = true :=
  ⟨ready_of (by decide +kernel), by decide +kernel⟩

theorem witness_CompressedRegisterForms : begins.Ready ∧ ok (begins.prod [always, begins.dep]) = true :=
  ⟨ready_of (by decide +kernel), by decide +kernel⟩

theorem witness_HintsAndAlignOnlyRetire : (begins.Ready ∧ begins.peers = []) ∧ (access id).Ready ∧ (access id).actStream ≠ 0 :=
  ⟨⟨ready_of (by decide +kernel), by decide +kernel⟩, ready_of (by decide +kernel), by decide +kernel⟩

/-- The last address, the first past it, and one below 0; a loop end at P + 4, below it, and past the store. -/
theorem witness_ControlFlow :
    begins.Ready ∧ begins.actStream = 0 ∧ ok (begins.fold [always, always]) = true ∧ ok (begins.prod [begins.dep]) = true
    ∧ (let t := fun (n : Nat) (o : BitVec n) => (begins.pc : Int) + 2 * o.toInt
       t 20 0x7FFF = 0xFFFE ∧ t 20 0x8000 = 0x10000 ∧ t 20 0xFFFFF = -2 ∧ t 11 0 = 0 ∧ t 11 0x7FF = -2 ∧ t 12 0 = 0 ∧ t 12 0xFFF = -2
       ∧ t 8 0 = 0 ∧ t 8 0xFF = -2 ∧ t 12 2 = begins.pc + 4 ∧ t 12 1 < begins.pc + 4)
    ∧ (let s := start (atPc 0xFFF0)
       s.Ready ∧ (s.pc : Int) + 2 * (0x7FF#12).toInt > 0xFFFE ∧ (s.pc : Int) + 2 * (0x3FF#11).toInt > 0xFFFE)
    ∧ (let s := start (xs [(1, 0xFFFE), (2, 0x10000), (3, 1)])
       s.Ready ∧ s.xv 1 + (0#12).signExtend 64 = 0xFFFE ∧ s.xv 2 + (0#12).signExtend 64 = 0x10000
         ∧ (s.xv 3 + (0#12).signExtend 64).getLsbD 0 = true) :=
  ⟨ready_of (by decide +kernel), by decide +kernel, by decide +kernel, by decide +kernel, by decide +kernel,
    ⟨ready_of (by decide +kernel), by decide +kernel⟩, ready_of (by decide +kernel), by decide +kernel⟩

theorem witness_ForkAndExecuteStreamForms :
    begins.Ready ∧ begins.actStream = 0 ∧ begins.task.ac.active = false
    ∧ (begins.pc : Int) + 2 * (0#12).toInt = 0 ∧ (begins.pc : Int) + 2 * (0xFFF#12).toInt = -2
    ∧ (let s := start fun t => { t with ac := { active := true } }
       s.Ready ∧ s.actStream = 0 ∧ s.task.ac.active = true)
    ∧ (access id).Ready ∧ (access id).actStream = 1 :=
  ⟨ready_of (by decide +kernel), by decide +kernel, by decide +kernel, by decide +kernel, by decide +kernel,
    ⟨ready_of (by decide +kernel), by decide +kernel⟩, ready_of (by decide +kernel), by decide +kernel⟩

/-- Both streams run, the queues hold `n` entries each. -/
def queued (n : Nat) (t : Task) : Task :=
  let l := List.replicate n ({ val := 5 } : XReg)
  { t with ac := { active := true }, queues := ⟨l, l, l, l⟩ }

theorem witness_QueueForms :
    -- a put and a get by each stream, at the last free place and at the last entry
    (∀ p ∈ [(start (queued 3), 1, 4), (start (queued 7), 1, 8), (access (queued 3), 0, 4), (access (queued 7), 0, 8)],
      beginsB p.1 = true ∧ p.1.otherStrm.active = true ∧ p.1.task.queues.ldq.length + 1 = p.2.2
        ∧ ok (p.1.prod [always, p.1.dep]) = true ∧ p.1.actStream ≠ p.2.1)
    ∧ (∀ s ∈ [start (queued 1), access (queued 1)], beginsB s = true ∧ (∃ e, s.task.queues.bqa = [e]) ∧ ok (s.fold [always]) = true
        ∧ ok (s.writeX 1 5 [always]) = true)
    -- misuse, and the other stream waiting on a queue
    ∧ (beginsB begins = true ∧ begins.task.queues.ldq = [] ∧ begins.otherStrm.active = false)
    ∧ (∀ n ∈ [0, 8], let s := start fun t => { queued n t with ac := { active := true, wait := some ⟨.queue, 0⟩ } }
        beginsB s = true ∧ s.actStream = 0 ∧ s.otherStrm.active = true ∧ s.otherStrm.reply = none
          ∧ s.otherStrm.wait = some ⟨.queue, 0⟩ ∧ s.task.queues.stq.length = n) := by
  refine ⟨by decide +kernel, ?_, by decide +kernel, by decide +kernel⟩
  intro s hs
  simp only [List.mem_cons, List.not_mem_nil, or_false] at hs
  rcases hs with rfl | rfl <;>
    exact ⟨by decide +kernel, ⟨_, rfl⟩, by decide +kernel, by decide +kernel⟩

/-- A transfer of core 0 to a core's scratchpad. -/
def transfer (id owner : Nat) : Transfer := {
  id := id, who := begins.self, frame := 0, ctx := 0, prio := 0, base := owner * 65536, hv := false, handler := 0, words := [], closed := false
  written := 0, stopped := false, taken := false, lbls := [] }

/-- Headers with the first destination past the service cores, the last on each die, and a payload that ends at x31 and past it. -/
theorem witness_SendAndStreamPorts :
    (let s := start (xs [(1, 0x1048 * 2 ^ 51), (2, 0x7FF * 2 ^ 51 + 7 * 2 ^ 25), (3, 0x800 * 2 ^ 51)])
     s.Ready ∧ 0x1048 ≤ bits (s.xv 1) 51 13 ∧ bits (s.xv 2) 51 13 = 0x7FF ∧ bits (s.xv 2) 25 3 = 7
       ∧ (25#5).toNat + 7 - 1 = 31 ∧ 31 < (26#5).toNat + 7 - 1 ∧ dieOf 0x7FF = s.die ∧ dieOf 0x800 ≠ s.die
       ∧ s.heldIn (sendScope s.core.num 0x7FF) = false ∧ s.heldIn (sendScope s.core.num 0x800) = false
       ∧ ok (s.prod (List.replicate 8 always ++ [s.dep])) = true ∧ judgeB s [always] true = true)
    ∧ (let s := start fun t => { t with ex := { t.ex with dep := never } }
       s.Ready ∧ (∃ x, s.prod [always, s.dep] = .ok (never, x)) ∧ judgeB s [always] false = true)
    ∧ (let s := start (xs [(1, 0x10000000), (2, 0xFFFF)])
       s.Ready ∧ s.task.moot = false ∧ s.strm.port = none ∧ (s.xv 2).toNat < 65536 ∧ 0x10000000 ≤ (s.xv 1).toNat
         ∧ (s.xv 1).toNat < 0x20000000 ∧ (s.xv 1).toNat % 8 = 0 ∧ ok (s.fold [always, always]) = true)
    -- a word to a scratchpad of the own die, labelled and not, and of the other die; on a route that an older transfer holds
    ∧ (∀ q ∈ [(0, true), (0, false), (2048, false)],
       let p : Port := { id := 1, base := word (0x10000000 + 65536 * q.1), hv := false, handler := 0, put := 0 }
       let b := start fun t => { t with ex := { t.ex with port := some p } }
       let s := { b with transfers := [transfer 1 q.1], core := { b.core with regs := { b.core.regs with lab := q.2 } } }
       beginsB s = true ∧ s.task.moot = false ∧ s.strm.port = some p ∧ (s.coreAt ((p.base.toNat - 0x10000000) / 65536)).regs.lab = q.2
         ∧ s.holdsRoute 1 = true ∧ (transfer 1 q.1).words.length = 0 ∧ ok (s.prod [always, s.dep]) = true)
    ∧ (let p : Port := { id := 1, base := 0x10000000, hv := false, handler := 0, put := 0 }
       let s := { start fun t => { t with ex := { t.ex with port := some p } } with transfers := [transfer 0 0, transfer 1 0] }
       s.Ready ∧ s.task.moot = false ∧ s.strm.port = some p ∧ s.routeAccepts p.id = false)
    ∧ (let p : Port := { id := 0, base := 0x10000000, hv := false, handler := 0, put := 2 }
       let s := start fun t => { t with ex := { t.ex with port := some p, reply := some (.value 2 always always) } }
       s.task.spCount < 1024 ∧ s.task.moot = false ∧ s.strm.port = some p ∧ s.strm.reply = some (.value 2 always always)
         ∧ ok (s.writeX 1 2 []) = true)
    ∧ (begins.strm.reply = none ∧ begins.strm.port = none) :=
  ⟨⟨ready_of (by decide +kernel), by decide +kernel⟩,
    ⟨ready_of (by decide +kernel), ⟨_, rfl⟩, by decide +kernel⟩,
    ⟨ready_of (by decide +kernel), by decide +kernel⟩, by decide +kernel, ⟨ready_of (by decide +kernel), by decide +kernel⟩, by decide +kernel,
    by decide +kernel⟩

theorem witness_TaskEndsAndSafePoints :
    (begins.Ready ∧ begins.actStream = 0 ∧ begins.task.moot = false ∧ begins.strm.port = none ∧ begins.task.ac.active = false
      ∧ begins.task.queues.some = false ∧ begins.storesLeft begins.core.num begins.task.info.uid = false
      ∧ begins.task.ac.port = none ∧ (begins.groupAt (groupOf begins.core.num)).flight = none ∧ begins.core.due = false)
    ∧ ((access id).Ready ∧ (access id).actStream = 1 ∧ (access id).core.regs.act = false ∧ (access id).strm.port = none)
    -- a handler of the access stream
    ∧ (let s := { access id with core := { (access id).core with regs := { (access id).core.regs with act := true, trapStream := true } } }
       s.Ready ∧ s.actStream = 1 ∧ s.core.regs.act = true ∧ s.core.regs.trapStream = true ∧ s.task.moot = false ∧ s.strm.port = none
         ∧ s.task.queues.some = false ∧ s.storesLeft s.core.num s.task.info.uid = false)
    ∧ (let s := start fun t => { queued 1 t with ac := {} }
       s.Ready ∧ s.actStream = 0 ∧ s.task.moot = false ∧ s.strm.port = none ∧ s.task.ac.active = false ∧ s.task.queues.some = true)
    ∧ (let s := start fun t => { t with ex := { t.ex with port := some ⟨0, 0, false, 0, 0⟩ } }
       s.Ready ∧ s.task.moot = false ∧ s.strm.port ≠ none)
    ∧ (let s := start fun t => { atPc 4 t with info := { t.info with preempt := true } }
       s.Ready ∧ s.actStream = 0 ∧ s.task.moot = false ∧ s.task.ex.port = none ∧ s.task.ac.active = false ∧ s.task.ac.port = none
         ∧ (s.groupAt (groupOf s.core.num)).flight = none ∧ s.task.queues.some = false ∧ s.core.due = true
         ∧ s.core.regs.act = false ∧ s.core.dbg.stepping = false ∧ s.pc ≠ s.task.loops.le0.toNat ∧ s.pc ≠ s.task.loops.le1.toNat) :=
  ⟨⟨ready_of (by decide +kernel), by decide +kernel⟩, ⟨ready_of (by decide +kernel), by decide +kernel⟩,
    ⟨ready_of (by decide +kernel), by decide +kernel⟩, ⟨ready_of (by decide +kernel), by decide +kernel⟩,
    ⟨ready_of (by decide +kernel), by decide +kernel⟩, ready_of (by decide +kernel), by decide +kernel⟩

theorem witness_StateRegisterReads : begins.Ready ∧ ok (begins.prod [begins.dep]) = true :=
  ⟨ready_of (by decide +kernel), by decide +kernel⟩

/-- CTX visible and not: a source labelled NEVER. Handles: ALWAYS, NEVER, and the first that names no record. -/
theorem witness_StateRegisterAllWrites :
    (let s := start (xs [(1, 0), (2, 0xFFFF), (3, 1), (4, 0x10000)])
     s.Ready ∧ s.mine = [] ∧ s.myReductions 7 = false ∧ judgeB s [s.xl 1] true = true ∧ s.task.priv = false ∧ s.core.regs.late = [] ∧ (s.xv 1).toNat = 0 ∧ (s.xv 2).toNat = 0xFFFF
       ∧ ok (s.fold [0, always]) = true ∧ ok (s.fold [never, always]) = true
       ∧ (s.xv 3).toNat = (s.frameAt s.die s.task.frame).next.toNat ∧ (s.xv 4).toNat = 65536)
    ∧ (let s := start fun t => { t with regs := { t.regs with x := t.regs.x.set 1 ⟨0x20000, never⟩ } }
       s.Ready ∧ s.mine = [] ∧ s.myReductions 7 = false ∧ judgeB s [s.xl 1] false = true)
    ∧ (let s := start (fun t => priv (xs [(1, 0x20000)] t))
       s.Ready ∧ s.mine = [] ∧ s.task.priv = true ∧ judgeB s [s.xl 1] true = true ∧ (s.xv 1).getLsbD 17 = true)
    ∧ (let s := { begins with core := { begins.core with regs := { begins.core.regs with act := true } } }
       s.Ready ∧ s.mine = [] ∧ judgeB s [s.xl 1] true = true ∧ (s.xv 1).getLsbD 17 = false ∧ s.core.regs.act = true) :=
  ⟨⟨ready_of (by decide +kernel), by decide +kernel⟩, ⟨ready_of (by decide +kernel), by decide +kernel⟩,
    ⟨ready_of (by decide +kernel), by decide +kernel⟩, ready_of (by decide +kernel), by decide +kernel⟩

/-- A tile whose cores run nothing waits for no access to another package, where no ring action is outstanding. -/
theorem near_of {s : State} {tile va : Nat} (h : ((upto 4).all fun i => !(s.coreAt (tile * 4 + i)).running) = true) (hq : s.ringq = [])
    (v : Word) : s.farThrough tile v va = false := by
  have e : ∀ i ∈ upto 4, (s.coreAt (tile * 4 + i)).running = false := by simpa using h
  simp only [State.farThrough, hq, List.any_map, List.any_nil, Bool.or_false, List.any_eq_false]
  intro i hi
  simp [e i hi]

/-- The first and the last entry of translation service core 0x1000's tiles, and the first past them. -/
theorem witness_TranslationAndPhaseForms :
    (begins.Ready ∧ begins.task.priv = false)
    ∧ (let b := start (fun t => priv (xs [(1, 0), (2, 0xFFF), (3, 0x1000), (4, 0x40000), (5, 15), (6, 16), (7, 0x400)] t))
       let s := { b with core := { b.core with num := 0x1000 } }
       s.Ready ∧ s.task.priv = true ∧ 0x1000 ≤ s.core.num ∧ s.core.num < 0x1040
         ∧ (s.xv 1).toNat / 2 ^ 12 = s.core.num - 0x1000 ∧ (s.xv 2).toNat / 2 ^ 12 = s.core.num - 0x1000
         ∧ (s.xv 3).toNat / 2 ^ 12 ≠ s.core.num - 0x1000 ∧ 2 ^ 18 ≤ (s.xv 4).toNat
         ∧ judgeB s [s.xl 1, s.xl 2, s.xl 3] true = true ∧ judgeB s [s.xl 1, s.xl 5] true = true ∧ (s.xv 5).toNat / 16 = s.core.num - 0x1000
         ∧ (s.xv 6).toNat / 16 ≠ s.core.num - 0x1000 ∧ 2 ^ 10 ≤ (s.xv 7).toNat
         ∧ s.inbound = [] ∧ s.core.sb = [] ∧ s.ringq = [] ∧ s.engines = [] ∧ s.parked = [] ∧ s.strm.fences = []
         ∧ ((upto 4).all fun i => !(s.coreAt (15 * 4 + i)).running) = true)
    ∧ (let b := start (fun t => { priv t with ex := { t.ex with dep := never } })
       let s := { b with core := { b.core with num := 0x1000 } }
       s.Ready ∧ judgeB s [s.xl 1, s.xl 2, s.xl 3] false = true) :=
  ⟨⟨ready_of (by decide +kernel), by decide +kernel⟩, ⟨ready_of (by decide +kernel), by decide +kernel⟩,
    ready_of (by decide +kernel), by decide +kernel⟩

/-! ### Majors 0x0C to 0x15: the statements' hypotheses -/

theorem witness_ScalarLoads :
    (let s := start (xs [(1, 0xFFF8), (2, 0xFFFF)])
     s.Ready ∧ s.Quiet ∧ s.OwnScratch (s.xv 1).toNat 8 ∧ s.OwnScratch (s.xv 2).toNat 1
       ∧ ok (do let s₁ ← s.fold [s.xl 1]; s₁.writeX 3 0 [always]) = true)
    -- a load of a mapped page
    ∧ (let s := paged (start (xs [(1, 0x100000000)]))
       s.Ready ∧ ∃ bs ls s₁, s.load (s.xv 1 + (0#12).signExtend 64) 8 = .ok (bs, ls, s₁) ∧ bs.length = 8
         ∧ ok (do let s₂ ← s₁.fold [s.xl 1]; s₂.writeLoaded 3 0 ls) = true) :=
  ⟨⟨ready_of (by decide +kernel), quiet_of (by decide +kernel),
      ⟨by decide +kernel, by decide +kernel, by decide +kernel⟩, ⟨by decide +kernel, by decide +kernel, by decide +kernel⟩, by decide +kernel⟩,
    ready_of (by decide +kernel), _, _, _, rfl, by decide +kernel, by decide +kernel⟩

/-- The last own byte and its neighbour, the holes' edges, and a sluice word at the end of a spillway of 1 MiB and past it. -/
theorem witness_AddressTraps :
    (let s := start (xs [(1, 0xFFFF), (2, 0x10000), (3, 0xFFFFFFF), (4, 0xFFFFFFFF), (5, 0xFFFFFFFFFFFF), (6, 4), (7, 7)])
     s.Ready ∧ vspace (s.xv 1).toNat = .own ∧ vspace ((s.xv 1).toNat + 2 - 1) ≠ .own ∧ vspace (s.xv 2).toNat = .hole
       ∧ vspace (s.xv 3).toNat = .hole ∧ vspace (s.xv 4).toNat = .hole ∧ vspace ((s.xv 5).toNat + 1) ≠ vspace (s.xv 5).toNat
       ∧ (s.xv 6).toNat % 8 ≠ 0 ∧ (s.xv 7).toNat % 4 ≠ 0 ∧ (s.dieAt 0).spill.getLsbD 0 = false)
    ∧ (let s := (start (xs [(1, 0xFFFF8), (2, 0x100000), (3, 0x200000000)])).modDie 0 fun d => { d with spill := 1 }
       s.Ready ∧ (s.xv 2).toNat % 8 = 0 ∧ (bits (s.dieAt 0).spill 8 12 + 1) * 2 ^ 20 ≤ (s.xv 2).toNat % 2 ^ 32
         ∧ 2 ^ 33 ≤ (s.xv 3).toNat ∧ (s.xv 3).toNat % 8 = 0) :=
  ⟨⟨ready_of (by decide +kernel), by decide +kernel⟩, ready_of (by decide +kernel), by decide +kernel⟩

/-- Core 0's scratchpad keeps the labels of frame `f`. -/
def labMode (f : BitVec 8) (s : State) : State := { s with core := { s.core with regs := { s.core.regs with lab := true, frm := f } } }

/-- The labels under which a store is issued, as `StoreLabels` wants them: a state and the labels. -/
theorem storeLabels_of {s : State} {hs : List Handle} {p : Handle} {t u : State} (h : s.prod (hs ++ [s.dep]) = .ok (p, t))
    (k : s.records (hs ++ [s.dep]) = .ok u) : ∃ x ls, StoreLabels s hs x ls := by
  by_cases l : s.core.regs.lab = true
  · exact ⟨t, [p], by simp only [StoreLabels, l, if_true]; exact ⟨p, h, rfl⟩⟩
  · exact ⟨u, _, by simp only [StoreLabels, l]; exact ⟨k, rfl⟩⟩

theorem witness_StoresIssue :
    (∀ s ∈ [start (xs [(1, 0xFFF8), (2, 0xFFFF)]), labMode 0 (start (xs [(1, 0xFFF8), (2, 0xFFFF)]))],
       beginsB s = true ∧ quietB s = true ∧ (s.core.regs.lab = true → s.core.regs.frm = s.task.frame) ∧ s.defer = false
       ∧ (s.xv 1).toNat + 8 = 65536 ∧ (s.xv 2).toNat + 1 = 65536
       ∧ ∃ s₁, s.fold [s.xl 1] = .ok s₁ ∧ ∃ x ls, StoreLabels s₁ [s.xl 2] x ls)
    ∧ (let s := start (xs [(1, 0xFFF8)])
       s.core.regs.lab = false ∧ (s.xv 1).toNat % 8 = 0 ∧ Tab.get 0 s.mem.spmEcc ((s.core.num * 65536 + (s.xv 1).toNat) / 32) = 0
       ∧ s.core.dorm.length < 4 ∧ judgeB s [s.xl 2] true = true ∧ ok (s.prod [s.xl 2, s.dep]) = true)
    ∧ (let b := start (xs [(1, 0xFFF8)])
       let d : Dormant := { pc := 0, frame := 0, dep := 0, prio := 0, addr := 0, count := 8, src := 0 }
       let s := { b with core := { b.core with dorm := [d, d, d, d] } }
       s.Ready ∧ s.Quiet ∧ s.defer = false ∧ 4 ≤ s.core.dorm.length)
    ∧ (let s := start fun t => { xs [(1, 0xFFF8)] t with ex := { t.ex with dep := never } }
       s.Ready ∧ s.Quiet ∧ ok (s.fold [s.xl 1]) = true ∧ judgeB s [s.xl 2] false = true) := by
  refine ⟨?_, by decide +kernel, ⟨ready_of (by decide +kernel), quiet_of (by decide +kernel), by decide +kernel⟩, ready_of (by decide +kernel),
    quiet_of (by decide +kernel), by decide +kernel⟩
  intro s hs
  simp only [List.mem_cons, List.not_mem_nil, or_false] at hs
  rcases hs with rfl | rfl <;>
    exact ⟨by decide +kernel, by decide +kernel, by decide +kernel, by decide +kernel, by decide +kernel, by decide +kernel, _, rfl,
      storeLabels_of rfl rfl⟩

/-- `mlive` at the first and the last byte of the page of PA 0. -/
theorem witness_FencesAndLiveUnits :
    (begins.Ready ∧ begins.myReductions 7 = false ∧ begins.mine = [])
    ∧ (let s := paged (start (xs [(1, 0x100000000), (2, 0x10000FFFF), (3, 1)]))
       s.Ready ∧ s.Quiet ∧ (∀ p ∈ s.engines, p.2.queue = []) ∧ (∀ r ∈ [1, 2], vspace (s.xv r).toNat = .global
         ∧ (∃ e, s.pageCheck (tileOf s.core.num) .store (s.xv r).toNat = .ok e ∧ bits e 44 20 = s.host.devnum.toNat
             ∧ ∃ l, s.frameCheck .store e (s.xv r).toNat 1 = .ok l ∧ s.linkDown s.core.num (l.addr / 65536 * 65536) = none))
         ∧ ∃ s₁, s.fold [s.xl 1] = .ok s₁ ∧ Tab.wf 0 s₁.mem.main = true ∧ judgeB s₁ [s.xl 3] true = true)
    ∧ (let s := paged (start fun t => { xs [(1, 0x100000000)] t with ex := { t.ex with dep := never } })
       s.Ready ∧ ∃ s₁, s.fold [s.xl 1] = .ok s₁ ∧ judgeB s₁ [s.xl 3] false = true) := by
  refine ⟨⟨ready_of (by decide +kernel), by decide +kernel⟩,
    ⟨ready_of (by decide +kernel), quiet_of (by decide +kernel), by decide +kernel, ?_, _, rfl, by decide +kernel⟩,
    ready_of (by decide +kernel), _, rfl, by decide +kernel⟩
  intro r hr
  simp only [List.mem_cons, List.not_mem_nil, or_false] at hr
  rcases hr with rfl | rfl <;>
    exact ⟨by decide +kernel, _, rfl, by decide +kernel, _, rfl, by decide +kernel⟩

theorem amoLeaves_of {s : State} {lab : Bool} {a : Nat} {bs : List Byte} {hs : List Handle} {y z : State} {h : Handle} {b : Bool} {u : State}
    (r : s.records (hs ++ [s.dep]) = .ok y) (p : y.product s.die s.task.frame true (hs ++ [s.dep]) = .ok (h, z)) (j : s.judge hs = .ok (b, u)) :
    ∃ t, AmoLeaves s lab a bs hs t := by
  cases lab with
  | true => exact ⟨_, by simp only [AmoLeaves, if_true]; exact ⟨y, r, .inl ⟨h, z, p, rfl⟩⟩⟩
  | false => exact ⟨_, by simp only [AmoLeaves, Bool.false_eq_true, if_false]; exact ⟨b, u, j, rfl⟩⟩

/-- The last dword and the last word of own scratchpad, labelled and not; a DEP that nobody sees. -/
theorem witness_LocalAtomics :
    (∀ s ∈ [start (xs [(1, 0xFFF8), (2, 0xFFFC)]), labMode 0 (start (xs [(1, 0xFFF8), (2, 0xFFFC)])),
         start fun t => { xs [(1, 0xFFF8), (2, 0xFFFC)] t with ex := { t.ex with dep := never } }],
       beginsB s = true ∧ quietB s = true ∧ s.defer = false ∧ (s.core.regs.lab = true → s.core.regs.frm = s.task.frame)
       ∧ (s.xv 1).toNat + 8 = 65536 ∧ (s.xv 1).toNat % 8 = 0 ∧ (s.xv 2).toNat + 4 = 65536 ∧ (s.xv 2).toNat % 4 = 0
       ∧ Tab.get 0 s.mem.spmEcc ((s.core.num * 65536 + (s.xv 1).toNat) / 32) = 0
       ∧ (∃ s₁, s.fold [s.xl 1] = .ok s₁ ∧ ∃ t, AmoLeaves s₁ s.core.regs.lab 0xFFF8 (leBytes 8 5) [always, s.xl 3] t) ∧ ok (s.writeX 4 0 [always]) = true) := by
  intro s hs
  simp only [List.mem_cons, List.not_mem_nil, or_false] at hs
  rcases hs with rfl | rfl | rfl <;>
    refine ⟨?_, ?_, ?_, ?_, ?_, ?_, ?_, ?_, ?_, ⟨_, rfl, amoLeaves_of rfl rfl rfl⟩, ?_⟩ <;> decide +kernel

/-- A spillway of 1 MiB on each die. -/
def spilled (s : State) : State := { s with dies := s.dies.map fun d => { d with spill := 1 } }

/-- The first word of die 0 and the last of die 1. -/
theorem sluicePlaces :
    let s := spilled (start (xs [(1, 0), (2, 0x1000FFFF8)]))
    s.Ready ∧ s.SluiceFree (s.xv 1) 0 0 ∧ s.SluiceFree (s.xv 2) 1 0xFFFF8 :=
  ⟨ready_of (by decide +kernel),
    sluiceFree_of (placed_of (by decide +kernel)) (by decide +kernel),
    sluiceFree_of (placed_of (by decide +kernel)) (by decide +kernel)⟩

theorem witness_SluiceValueOperations :
    let s := spilled (start (xs [(1, 0), (2, 0x1000FFFF8)]))
    s.Ready ∧ s.SluiceFree (s.xv 1) 0 0 ∧ ∃ dp s₀, s.prod [s.dep, s.xl 1] = .ok (dp, s₀) ∧ (s₀.sword 0 0).lbl = always
      ∧ ∀ dr ∈ [false, true], ∃ h s₂, { s₀ with nextId := s₀.nextId + 1 }.form s.die s.task.frame dr [(s₀.sword 0 0).lbl, s.xl 3, dp] = .ok (h, s₂)
        ∧ h ≠ never ∧ ∃ l s₃, s₂.form s.die s.task.frame false [(s₀.sword 0 0).lbl, dp] = .ok (l, s₃) := by
  refine ⟨sluicePlaces.1, sluicePlaces.2.1, _, _, rfl, by decide +kernel, ?_⟩
  intro dr hd
  simp only [List.mem_cons, List.not_mem_nil, or_false] at hd
  rcases hd with rfl | rfl <;> exact ⟨always, _, form_always (by decide +kernel), by decide +kernel, always, _, form_always (by decide +kernel)⟩

/-- The word holds 0: equal to x3 and not to x4; a waiter on it. -/
theorem witness_SluiceReadsSwapsAndWaits :
    let s := spilled (start (xs [(1, 0), (4, 1), (5, 1)]))
    s.Ready ∧ s.SluiceFree (s.xv 1) 0 0 ∧ ∃ dp s₀, s.prod [s.dep, s.xl 1] = .ok (dp, s₀) ∧ (s₀.sword 0 0).lbl = always
      ∧ (s₀.sword 0 0).val = s.xv 3 ∧ (s₀.sword 0 0).val ≠ s.xv 4
      ∧ (let s₁ := { s₀ with nextId := s₀.nextId + 1 }
         (∃ l s₂, s₁.form s.die s.task.frame false [(s₀.sword 0 0).lbl, s.xl 3, dp] = .ok (l, s₂) ∧ l ≠ never)
         ∧ (∃ l s₂, s₁.form s.die s.task.frame false [s.xl 3, dp] = .ok (l, s₂))
         ∧ (∃ h s₂, s₁.form s.die s.task.frame false [(s₀.sword 0 0).lbl, s.xl 3, s.xl 3, dp] = .ok (h, s₂) ∧ h ≠ never
             ∧ ∃ l s₃, s₂.form s.die s.task.frame false [(s₀.sword 0 0).lbl, dp] = .ok (l, s₃)))
      ∧ (s.dieAt 0).waiters = [] ∧ s.task.moot = false ∧ (∃ dp s₀, s.prod [s.dep, s.xl 1] = .ok (dp, s₀) ∧ dp ≠ never)
      ∧ (start fun t => { t with info := { t.info with dead := true } }).task.moot = true :=
  ⟨ready_of (by decide +kernel),
    sluiceFree_of (placed_of (by decide +kernel)) (by decide +kernel),
    _, _, rfl, by decide +kernel, by decide +kernel, by decide +kernel,
    ⟨⟨always, _, form_always (by decide +kernel), by decide +kernel⟩, ⟨always, _, form_always (by decide +kernel)⟩, always, _, form_always (by decide +kernel), by decide +kernel, always, _,
      form_always (by decide +kernel)⟩, by decide +kernel, by decide +kernel, ⟨_, _, rfl, by decide +kernel⟩, rfl⟩

/-- A task of a launch whose tag 3 is bound to a barrier of core 0 in generation 1. -/
def atBarrier (bars : List BarIf) : State :=
  let l : LaunchRef := { die := 0, entry := 0, seq := 0, record := 0, fclass := 0, fcore := 0, levels := [⟨0, 1, 0, 1, true, 3, 0⟩] }
  let b : Barrier := { entry := 0, tag := 3, scope := 1, domain := 0, cores := [0], gen := 1 }
  (start fun t => { t with info := { t.info with launch := some l }, bars := bars }).modDie 0 fun d => { d with barriers := [b] }

theorem witness_BarriersAndAnswers :
    (begins.Ready ∧ begins.actStream = 0 ∧ begins.barrierOf (3#3).toNat = none)
    ∧ (∀ p ∈ [([], 0), ([⟨3, 0, false, false⟩], 1), ([⟨3, 1, false, false⟩], 2), ([⟨3, 0, true, false⟩], 3)],
        let s := atBarrier p.1
        beginsB s = true ∧ s.actStream = 0 ∧ s.task.moot = false ∧ s.strm.early = [] ∧ (∃ die i b, s.barrierOf (3#3).toNat = some (die, i, b) ∧ b.gen = 1 ∧ s.heldIn b.scope = false)
          ∧ s.task.barIf 3 = p.1.head?)
    ∧ (let s := spilled (start fun t => { xs [(1, 8)] t with ex := { t.ex with reply := some (.value 7 always always) } })
       s.Answered 7 always always ∧ s.SluicePlace (s.xv 1) 0 8 ∧ (s.xv 1).toNat < 2 ^ 32 ∧ ok (s.fold [s.xl 1, s.xl 2]) = true) := by
  refine ⟨⟨ready_of (by decide +kernel), by decide +kernel⟩, ?_,
    ⟨by decide +kernel, by decide +kernel, by decide +kernel, by decide +kernel⟩, placed_of (by decide +kernel), by decide +kernel⟩
  intro p hp
  simp only [List.mem_cons, List.not_mem_nil, or_false] at hp
  rcases hp with rfl | rfl | rfl | rfl <;>
    exact ⟨by decide +kernel, by decide +kernel, by decide +kernel, by decide +kernel, ⟨_, _, _, rfl, by decide +kernel⟩, by decide +kernel⟩

/-- The conditions of `State.RingFree` as a test. -/
def ringB (s : State) (j : Nat) : Bool :=
  decide (s.die < 2) && s.strm.kept.isNone && decide (slotAt (station s.core.num) s.cycle = some j) && s.ringq.isEmpty && !s.ringLate s.self
    && s.strm.fences.isEmpty

theorem ringFree_of {s : State} {j : Nat} (h : ringB s j = true) : s.RingFree j := by
  simp only [ringB, Bool.and_eq_true, decide_eq_true_eq, List.isEmpty_iff, Option.isNone_iff_eq_none, Bool.not_eq_true'] at h
  constructor <;> simp only [h]

/-- An empty slot, and one that carries key 5, at the station of core 0 in cycle 0. -/
theorem witness_RingForms :
    (let s := start (xs [(1, 5)])
     s.Ready ∧ s.RingFree 0 ∧ (s.xv 1).toNat < 2 ^ 32 ∧ (s.slot s.die 0).v = false
       ∧ ∃ dp s₁, s.prod [s.dep, s.xl 1] = .ok (dp, s₁) ∧ ∃ h s₂, s₁.form s.die s.task.frame false [s.xl 2, dp] = .ok (h, s₂) ∧ h ≠ never
         ∧ ∃ l s₃, (s₂.putSlot s.die 0 { v := true, frame := s.task.frame, handle := h, key := 5, value := s.xv 2 }).form s.die s.task.frame
             false [dp] = .ok (l, s₃))
    ∧ (let s := (start (xs [(1, 5), (2, 0xFFF8), (3, 9)])).putSlot 0 0 { v := true, key := 5, value := 9 }
       s.Ready ∧ s.RingFree 0 ∧ (s.slot s.die 0).v = true ∧ (s.slot s.die 0).frame = s.task.frame
         ∧ (s.slot s.die 0).key = (s.xv 1).setWidth 32 ∧ (s.slot s.die 0).value = s.xv 3 ∧ (s.slot s.die 0).value ≠ s.xv 4
         ∧ s.core.regs.lab = false ∧ (s.xv 2).toNat + 8 = 65536 ∧ (s.xv 2).toNat % 8 = 0
         ∧ (∃ dp s₁, s.prod [s.dep, s.xl 1] = .ok (dp, s₁) ∧ ∃ h s₂, s₁.form s.die s.task.frame false [always, s.xl 3, s.xl 2, dp] = .ok (h, s₂)
             ∧ h ≠ never ∧ ∃ l s₃, s₂.form s.die s.task.frame false [always, dp] = .ok (l, s₃))
         ∧ ∃ dp s₁, s.prod [s.dep, s.xl 1, s.xl 2] = .ok (dp, s₁) ∧ ∃ h s₂, s₁.form s.die s.task.frame false [always, dp] = .ok (h, s₂)) :=
  ⟨⟨ready_of (by decide +kernel), ringFree_of (by decide +kernel), by decide +kernel, by decide +kernel, _, _, rfl, _, _, rfl, by decide +kernel, _, _, rfl⟩,
    by refine ⟨ready_of ?_, ringFree_of ?_, ?_, ?_, ?_, ?_, ?_, ?_, ?_, ?_, ⟨_, _, rfl, _, _, rfl, ?_, _, _, rfl⟩, _, _, rfl, _, _, rfl⟩ <;> decide +kernel⟩

/-- A frame 0 that can hold label records, with nogoods `g`. -/
def labelled (g : List Word) (s : State) : State := s.modDie 0 fun d => { d with frames := [(0, { frame0 with cap := 16, nogoods := g })] }

/-- Handles 0, 0xFFFF, the first unnamed one; equal and unequal values; a commit of each status. -/
theorem witness_LabelAndNogoodForms :
    (let s := labelled [] (start (xs [(1, 1), (2, 0xFFFF), (3, 0x10000), (4, 1)]))
     s.Ready ∧ (s.xv 5).toNat = 0 ∧ (s.xv 2).toNat = 0xFFFF ∧ (s.xv 1).toNat = (s.frameAt s.die s.task.frame).next.toNat
       ∧ ¬(s.xv 3).toNat < 65536 ∧ s.xv 1 ≠ s.xv 2 ∧ s.xv 1 = s.xv 4 ∧ s.badRecord [s.xl 1, s.xl 4, s.dep] = none
       ∧ ok ((s.readRecords s.die s.task.frame [s.xl 1, s.xl 4, s.dep]).mergeProduct s.die s.task.frame (s.xl 1) (s.xl 4) s.dep) = true
       ∧ holds (do
           let s₁ ← s.fold [s.xl 1]
           let _ ← (s₁.modTask fun k => { k with ctx := s.xv 1 }).writeX 6 s.task.ctx []
           .ok true) = true
       ∧ (match s.intern s.die s.task.frame { envs := clean [] [BitVec.ofNat 64 (2 ^ (63#6).toNat)] } with
          | .ok (h, s₁) => decide (h = 1) && ok (s₁.writeX 6 (h.setWidth 64) [])
          | .error _ => false) = true)
    ∧ (∀ p ∈ ([([], 1, always, 0), ([], 0, always, 3), ([], 1, never, 2), ([1], 1, always, 0),
          ((List.range 256).map fun n => word (2 ^ 63 + n), 1, always, 1)] : List (List Word × Word × Handle × Nat)),
        let s := labelled p.1 (start fun t => { t with regs := { t.regs with x := t.regs.x.set 1 ⟨p.2.1, p.2.2.1⟩ } })
        beginsB s = true ∧ s.heldIn 5 = false ∧ holds (do
          let (h, s₁) ← s.prod [s.xl 1, s.dep]
          let g := (s₁.frameAt s.die s.task.frame).nogoods
          let ps := (s₁.labOf s.die s.task.frame h).envs
          let cs := candidates g (s.xv 1) ps
          let n := if ps = [] then 2 else if ps.any (fun e => decide (s.xv 1 ||| e = 0)) then 3 else if 256 < g.length + cs.length then 1 else 0
          let _ ← s₁.writeX 2 (word n) []
          .ok (decide (n = p.2.2.2))) = true) :=
  ⟨⟨ready_of (by decide +kernel), by decide +kernel⟩, by decide +kernel⟩

/-- A launch record of class 1 in own scratchpad, one core of super-group `g`, with its barrier tag 3 bound over the core. -/
def launchRecord (g : Nat) : List Byte :=
  dwordBytes ([word (0xC9 * 2 ^ 56 + 2 * 2 ^ 52 + 2 ^ 46)] ++ List.replicate 7 0 ++
    [word (5 * 2 ^ 45 + 2 ^ 41 + 3 * 2 ^ 38), word (3 * 2 ^ 61 + g * 2 ^ 45 + 3 * 2 ^ 42)] ++ List.replicate 22 0)

/-- What the form finds of the record at x1: the state after the fold, and the status that `launch` answers. -/
def launchStatus (s : State) : Except Stop Nat := do
  let ls ← s.resolve .load (s.xv 1) 256
  let (bs, hs, s₁) ← s.loadLocs 0 ls
  let s₂ ← s₁.fold [s.xl 1]
  let rc := dwords 32 bs
  let levels := levelsOf rc
  let cores := (targetsOf levels).map (·.1)
  let (seen, s₂) ← s₂.judge hs
  let m := s₂.mendTile rc
  let n :=
    if !seen then 5
    else if (s₂.wordMiss rc).isSome then 9
    else if !recordOk rc || (m.completionWord s.tileXlate rc).isNone || !m.served cores then 2
    else if m.meteredLaunch (recFrame rc) cores && !m.measureOk s.tileXlate rc cores then 4
    else if m.tagHeld (barriersOf 0 levels cores) then 3
    else if (m.freeEntry s.die).isNone then 1 else 0
  let _ ← m.writeX 2 (word n) []
  .ok n

theorem witness_LaunchArmDisarm :
    let s := scratch 0 (launchRecord 0) begins
    let b : Barrier := { entry := 7, tag := 3, scope := 0, domain := 0, cores := [5] }
    ∀ p ∈ [
      (s, 0), ({ s with host := { s.host with closing := true } }, 1), (begins, 2),
      ({ scratch 0 (launchRecord 8) begins with host := { s.host with phase := 2 } }, 2),
      (s.modDie 0 fun d => { d with barriers := [b] }, 3),
      (s.modDie 0 fun d => { d with frames := [(0, { frame0 with metered := true })] }, 4),
      (s.modTask fun t => { t with ex := { t.ex with dep := never } }, 5),
      (s.modDie 0 fun d => { d with armed := [(0, { live := true })] }, 0),
      (s.modDie 0 fun d => { d with armed := (List.range 256).map fun n => (n + 1, { live := true }) }, 0)],
    beginsB p.1 = true ∧ p.1.heldIn 6 = false ∧ p.1.inTurn p.1.die (0x20000 + p.1.core.num) = true ∧ (p.1.xv 1).toNat % 256 = 0
      ∧ (match launchStatus p.1 with | .ok n => decide (n = p.2) | .error _ => false) = true := by decide +kernel

/-- The conditions of `State.Forms` as a test. -/
def formsB (s : State) (n : Nat) : Bool :=
  let fr := s.frameAt s.die s.task.frame
  !fr.policy && decide (fr.next.toNat + n ≤ fr.cap.toNat) && decide (s.mem.mainEcc = [])

theorem forms_of {s : State} {n : Nat} (h : formsB s n = true) : s.Forms n := by
  simp only [formsB, Bool.and_eq_true, Bool.not_eq_true', decide_eq_true_eq] at h
  exact ⟨h.1.1, h.1.2, h.2⟩

theorem witness_LaunchArmDisarmComplete :
    let s := labelled [] (scratch 0 (launchRecord 0) begins)
    s.Ready ∧ s.heldIn 6 = false ∧ (s.xv 1).toNat % 256 = 0 ∧ s.inTurn s.die (0x20000 + s.core.num) = true ∧ s.Forms 1
      ∧ holds (do
          let ls ← s.resolve .load (s.xv 1) 256
          let (bs, _, s₁) ← s.loadLocs 0 ls
          .ok (formsB s₁ 2 && decide (recAt (dwords 32 bs) 1 = 0))) = true :=
  ⟨ready_of (by decide +kernel), by decide +kernel, by decide +kernel, by decide +kernel, forms_of (by decide +kernel), by decide +kernel⟩

/-- A region descriptor (region 1 over two units) in the mapped page, a buffer of 256 bytes beside it. -/
theorem witness_MeterForms :
    (begins.Ready ∧ begins.task.priv = false)
    ∧ (let s := mainAt 0 (dwordBytes [0x10001, 0x20000, 0, 0]) (paged (start fun t => priv (xs [(1, 0x100000000), (2, 1), (3, 0x100000100)] t)))
       s.Ready ∧ s.task.priv = true ∧ s.formsIn = [] ∧ s.heldIn 6 = false ∧ s.sec.accepts = true ∧ ok (s.writeX 4 0 []) = true
         ∧ (s.xv 1).toNat % 32 = 0 ∧ ok (s.ownGlobal .load (s.xv 1) 32) = true
         ∧ holds (do
             let (bs, _, s₁) ← s.load (s.xv 1) 32
             let s₂ ← s₁.fold [s.xl 1]
             let ds := dwords 4 bs
             .ok (decide (bits (ds.getD 0 0) 0 12 = 1) && !(s₂.region 1).live && !s₂.badDescriptor (ds.getD 0 0) (ds.getD 1 0) (ds.getD 3 0)
               && decide (ds.getD 2 0 = 0))) = true
         ∧ holds (do
             let (nonce, ls, s₁) ← s.stBuffer (s.xv 3)
             let s₂ ← s₁.fold [s.xl 3]
             let _ ← ({ s₁ with sec := { s₁.sec with seq := s₁.sec.seq + 1 } }.putStatement (fit 256 nonce) ls).fold [s.xl 3]
             let _ ← s₂.writeX 4 1 []
             .ok (!(s.region 1).live && !s.seqHeld)) = true
         ∧ (s.xv 2).toNat < 4096)
    ∧ (let b := paged (start fun t => priv (xs [(1, 1), (3, 0x100000100)] t))
       let s := { b with sec := { b.sec with regions := [(1, { live := true, base := 1, limit := 2 })] } }
       s.Ready ∧ s.task.priv = true ∧ s.formsIn = [] ∧ (s.region (s.xv 1).toNat).live = true ∧ s.seqHeld = false ∧ ok (s.stBuffer (s.xv 3)) = true) :=
  ⟨⟨ready_of (by decide +kernel), by decide +kernel⟩, ⟨ready_of (by decide +kernel), by decide +kernel⟩,
    ready_of (by decide +kernel), by decide +kernel⟩

/-- The same descriptor and buffer in a frame that can hold label records. -/
theorem witness_MeterFormsComplete :
    let s := labelled [] (mainAt 0 (dwordBytes [0x10001, 0x20000, 0, 0]) (paged (start fun t => priv (xs [(1, 0x100000000), (2, 1), (3, 0x100000100)] t))))
    s.Ready ∧ s.task.priv = true ∧ s.formsIn = [] ∧ s.heldIn 6 = false ∧ s.Forms 1 ∧ s.sec.accepts = true ∧ s.seqHeld = false
      ∧ (s.xv 1).toNat % 32 = 0 ∧ ok (s.ownGlobal .load (s.xv 1) 32) = true ∧ (s.xv 2).toNat < 4096
      ∧ holds (do let (bs, _, s₁) ← s.load (s.xv 1) 32; .ok (decide ((dwords 4 bs).getD 2 0 = 0) && formsB s₁ 2)) = true
      ∧ holds (do let (_, _, s₁) ← s.stBuffer (s.xv 3); .ok (formsB s₁ 2)) = true :=
  ⟨ready_of (by decide +kernel), by decide +kernel, by decide +kernel, by decide +kernel, forms_of (by decide +kernel), by decide +kernel,
    by decide +kernel, by decide +kernel⟩

/-! ### Majors 0x16 to 0x20: the statements' hypotheses -/

theorem witness_IntegerVectorForms :
    begins.Ready ∧ (15#5).toNat < 16 ∧ (3#2) ≠ 0 ∧ ok (begins.prod [always, always, always, begins.dep]) = true
    ∧ ok (begins.prod [always, begins.dep]) = true :=
  ⟨ready_of (by decide +kernel), by decide +kernel, by decide +kernel, by decide +kernel, by decide +kernel⟩

theorem witness_FloatingAndConversionForms :
    begins.Ready ∧ (15#5).toNat < 16 ∧ (2#2).toNat < 3 ∧ (3#2) ≠ 0 ∧ (0#2).toNat < max 32 32 / min 32 32
    ∧ (1#2).toNat < max 16 32 / min 16 32 ∧ (3#2).toNat < max 8 32 / min 8 32 ∧ ok (begins.prod [always, always, always, begins.dep]) = true :=
  ⟨ready_of (by decide +kernel), by decide +kernel, by decide +kernel, by decide +kernel, by decide +kernel, by decide +kernel,
    by decide +kernel, by decide +kernel⟩

/-- With a mask that enables no lane, and with all lanes. -/
theorem witness_ReductionAndPermuteForms :
    begins.Ready ∧ (15#5).toNat < 16 ∧ (3#2) ≠ 0 ∧ ok (begins.prod [always, always, begins.dep]) = true
    ∧ ((List.range 16).filter fun j => decide ((1#2) = 0) || (begins.kreg 1).val.getLsbD j) = []
    ∧ ((List.range 16).filter fun j => decide ((0#2) = 0) || (begins.kreg 0).val.getLsbD j) ≠ [] :=
  ⟨ready_of (by decide +kernel), by decide +kernel, by decide +kernel, by decide +kernel, by decide +kernel, by decide +kernel⟩

/-- The last 64 bytes of own scratchpad; masks of no lane and of one; elements with a stride of 64; indices of 0. -/
theorem witness_VectorMemoryForms :
    let s := start fun t => let t := xs [(1, 0xFFC0), (2, 64), (3, 0xF000)] t
      { t with regs := { t.regs with k := t.regs.k.set 2 ⟨1, always⟩ } }
    let free := fun (adr : Nat → Word) => ∀ j ∈ List.range 16, s.OwnScratch (adr j).toNat 4 ∧ (adr j).toNat % 4 = 0
    s.Ready ∧ s.Quiet ∧ s.OwnScratch (s.xv 1).toNat 64
      ∧ free (fun j => s.xv 1 + word (j * 4)) ∧ free (fun j => s.xv 3 + word j * s.xv 2)
      ∧ free (fun j => s.xv 1 + word ((lane 32 (s.v 5).val j).toNat * 4))
      ∧ s.core.regs.lab = false ∧ (s.xv 1).toNat % 64 = 0 ∧ (s.xv 1).toNat + 64 = 65536 ∧ ok (s.fold [s.xl 1, s.xl 2]) = true
      ∧ ((List.range 16).filter fun j => decide ((1#2) = 0) || (s.kreg 1).val.getLsbD j) = []
      ∧ ((List.range 16).filter fun j => decide ((2#2) = 0) || (s.kreg 2).val.getLsbD j) = [0] := by
  intro s free
  have h : ∀ adr : Nat → Word, (∀ j ∈ List.range 16, ownB s (adr j).toNat 4 = true ∧ (adr j).toNat % 4 = 0) → free adr :=
    fun adr h j hj => ⟨own_of (h j hj).1, (h j hj).2⟩
  exact ⟨ready_of (by decide +kernel), quiet_of (by decide +kernel), own_of (by decide +kernel), h _ (by decide +kernel),
    h _ (by decide +kernel), h _ (by decide +kernel), by decide +kernel⟩

/-- m1 maps E4M3 (or another format) from 0xF000 of own scratchpad, one row of 256 columns, scales from 0x8000; m2 likewise
with AXIS 1. -/
def mapped (fmt : Nat) (v : Bool) (t : Task) : Task :=
  let m : MReg := { d0 := 0xF000, d1 := 0x8000, d2 := word (255 * 2 ^ 48 + 256), d3 := word (fmt * 2 ^ 61 + if v then 1 else 0) }
  { t with regs := { t.regs with m := (t.regs.m.set 1 m).set 2 { m with d3 := m.d3 ||| 0x1000000000000000 } } }

/-- A store at the map's end, with m0 and with m1. -/
theorem witness_ResidueForms :
    (∀ p ∈ [(start (xs [(1, 0xFFF0)]), 0#3), (start fun t => xs [(1, 0xF0F0)] (mapped 0 true t), 1)], let s := p.1
      beginsB s = true ∧ ok (s.prod [always, always, s.dep]) = true ∧ s.core.regs.lab = false ∧ (s.xv 1).toNat % 16 = 0
        ∧ (s.xv 1).toNat + 16 ≤ 65536
        ∧ holds (do
            let mp ← s.quantMap (s.xv 1) p.2
            let q ← quantSpot (s.xv 1) p.2 mp
            let out := (s.ereg 0).shape (s.v 2).val p.2 mp q
            let s₁ ← s.fold [s.xl 1]
            let _ ← s₁.prod [always, always, s₁.dep]
            .ok (out.2.2.all fun w => decide (w.1.toNat + 4 ≤ 65536))) = true)
    ∧ ((start (mapped 0 false)).mreg 1).valid = false
    ∧ ((start (mapped 1 true)).mreg 1).valid = true ∧ ((start (mapped 1 true)).mreg 1).fmt ≠ 0
    -- two exponents, 3 and −1, of lane 1: with CLIP 0 and 1 the larger, with 2 the smaller; the ends of the range
    ∧ (let h := [(1024 + 511, 1), (1024 + 515, 2)]
       let above := fun (k : Nat) => ((List.range 277).map fun j => if k < j then Tab.get 0 h (1024 + 363 + j) else 0).sum
       Tab.wf 0 h = true ∧ (∀ p ∈ h, 363 ≤ p.1 % 1024 ∧ p.1 % 1024 ≤ 639) ∧ above 152 = 0 ∧ above 148 = 2 ∧ Tab.get 0 h (1024 + 363 + 148) ≠ 0)
    ∧ (Tab.wf 0 [(363, 1), (639, 1)] = true ∧ ∀ p ∈ [(363, 1), (639, 1)], 363 ≤ p.1 % 1024 ∧ p.1 % 1024 ≤ 639)
    -- 448, 464 and the number after it over a scale of 1; a NaN and an infinity
    ∧ (∀ v ∈ [0x43E00000, 0x43E80000, 0x43E80001], v < 2 ^ 32 ∧ fp32.Finite v ∧ fp32.Finite (quantStep v 0x3F800000 0))
    ∧ (fp32.NaN 0x7F800001 ∧ fp32.Infinite 0xFF800000 ∧ fp32.Finite 0x3F800000 ∧ 0x3F800000 < 2 ^ 31) := by
  unfold Fmt.Finite
  decide +kernel

/-- A positive scale. -/
theorem witness_ResidueScale : 0 < fp32.real 0x3F800000 := by
  norm_num [Fmt.real, Fmt.signOf, Fmt.expOf, Fmt.fracOf, fp32]

/-- The last base of 48 bits and the first past them. -/
theorem witness_TensorMapForms :
    let s := start fun t => xs [(1, 0xFFE0), (2, 0xFFFFFFFFFFFF), (3, 0x1000000000000)] (mapped 0 true t)
    s.Ready ∧ s.Quiet ∧ s.OwnScratch (s.xv 1).toNat 32 ∧ (s.xv 1).toNat % 32 = 0 ∧ (s.xv 2).toNat + 1 = 2 ^ 48 ∧ 2 ^ 48 ≤ (s.xv 3).toNat
      ∧ holds (do let s₁ ← s.fold [s.xl 1]; let _ ← s₁.prod [always, s₁.dep]; .ok true) = true ∧ ok (s.prod [always, always, s.dep]) = true :=
  ⟨ready_of (by decide +kernel), quiet_of (by decide +kernel), own_of (by decide +kernel), by decide +kernel⟩

/-- The words of instructions from offset `a` of the group's store. -/
def program (a : Nat) (ws : List Nat) (s : State) : State :=
  { s with mem := { s.mem with imem := Tab.fill 0 s.mem.imem a (ws.flatMap (leBytes 4)) } }

/-- `rep.open 1` over `vadd.w v1, v2, v3`; buffers that are empty, run, and hold a disallowed instruction; counts 0, 1, 2, 65,536. -/
theorem witness_RepetitionForms :
    (let s := program 4 [((encode (.vadd 1 2 3 0 0)).getD (0, 0)).2] begins
     s.Ready ∧ s.actStream = 0 ∧ s.task.rep.run = none ∧ ok (s.capture ((0#4).toNat + 1) (s.pc + 4)) = true ∧ s.task.rep.body = [])
    ∧ (let s := start fun t => { xs [(2, 1), (3, 2), (4, 65536)] t with rep := { body := [some (.vadd 1 2 3 0 0)] } }
       s.Ready ∧ s.actStream = 0 ∧ s.task.rep.run = none ∧ s.task.rep.body ≠ [] ∧ none ∉ s.task.rep.body ∧ s.xv 1 = 0 ∧ s.xv 2 = 1 ∧ s.xv 3 = 2
         ∧ 65536 ≤ (s.xv 4).toNat
         ∧ (match s.fold [s.xl 3, s.xl 1] with
            | .ok s₁ => (match captured 0 0 (.vadd 1 2 3 0 0), captured 5 0 (.vadd 1 2 3 0 0) with
              | some b₀, some b₁ => (match b₀ s₁ with
                | .ok d => decide (d.st.task.rep = s.task.rep ∧ d.st.strm.early = [] ∧ d.st.defer = false ∧ s.strm.early = []) &&
                  (match b₁ (d.st.modStrm fun k => { k with wait := none, reply := none, asks := false, shared := none, under := none }) with
                   | .ok d => decide (d.st.strm.early = [])
                   | .error _ => false)
                | .error _ => false)
              | _, _ => false)
            | .error _ => false) = true)
    ∧ (let s := start fun t => { t with rep := { body := [some (.vadd 1 2 3 0 0), none] } }
       s.Ready ∧ (s.xv 1).toNat < 65536 ∧ s.task.rep.body[1]? = some none ∧ ∀ j, j < 1 → s.task.rep.body[j]? ≠ some none) :=
  ⟨⟨ready_of (by decide +kernel), by decide +kernel⟩, ⟨ready_of (by decide +kernel), by decide +kernel⟩,
    ready_of (by decide +kernel), by decide +kernel⟩

/-- A tile in use, an invalid one, and a valid one; the last 64 bytes of own scratchpad. -/
theorem witness_AccumulatorForms :
    (∀ p ∈ [(true, false), (false, true), (false, false)],
      let s := start fun t => let t := xs [(1, 0xFFC0)] t
        { t with regs := { t.regs with acc := t.regs.acc.set 1 { busy := p.1, inv := p.2 } } }
      beginsB s = true ∧ (s.acc 1).busy = p.1 ∧ (s.acc 1).inv = p.2 ∧ quietB s = true ∧ (s.xv 1).toNat % 64 = 0 ∧ (s.xv 1).toNat + 64 = 65536
        ∧ ownB s (s.xv 1).toNat 64 = true ∧ s.core.regs.lab = false
        ∧ holds (do let s₁ ← s.fold [s.xl 1]; let _ ← s₁.prod [always, always, s₁.dep]; .ok true) = true ∧ ok (s.prod [always, s.dep]) = true)
    ∧ (15#5).toNat < 16 := by decide +kernel

/-- Arrivals that pass their first stage; the limits of tiles and planes; kinds 1, 2 and 3 of a map; a managed plane. -/
theorem witness_GangForms :
    (let b := start fun t => xs [(1, 0xF000), (2, 0x800), (3, 0x7FF), (4, 0x100000000)] (mapped 0 true t)
     let s := { b with groups := [(0, { planes := [(3, { v := true, mgd := true, kext := 256 })] })] }
     s.Ready ∧ s.actStream = 0 ∧ s.arrived = false ∧ (s.groupAt (groupOf s.core.num)).flight = none ∧ s.heldIn 6 = false
       ∧ s.gangCheck (.wld 0 0) 2 1 = none ∧ s.gangCheck (.mma 63 0 0 0) 1 1 = none ∧ s.gangCheck (.mma 0 0 7 3) 1 1 = none
       ∧ s.gangCheck (.reg (s.xv 3)) 2 1 = none ∧ s.gangCheck (.mig 3) 0 0 = none
       ∧ (0#2).toNat + ((63#6).toNat + 16) / 16 = 4 ∧ 4 < (1#2).toNat + ((63#6).toNat + 16) / 16 ∧ 7 < (4#3).toNat + (4#3).toNat
       ∧ s.xv 2 &&& 0xFFFFFFFF0000F800 ≠ 0 ∧ s.xv 3 &&& 0xFFFFFFFF0000F800 = 0 ∧ (s.planeAt 0 0).mgd = false
       ∧ s.xv 2 &&& 0xFFFFFFFFFFFF8800 ≠ 0 ∧ s.xv 3 &&& 0xFFFFFFFFFFFF8800 = 0 ∧ (s.mreg 1).valid = true ∧ (s.mreg 3).valid = false
       ∧ ok (s.prod [always, s.dep]) = true)
    ∧ (4 < ((start (mapped 5 true)).mreg 1).fmt ∧ ((start (mapped 5 true)).mreg 1).valid = true)
    ∧ (let s := start fun t => { t with ex := { t.ex with wait := some ⟨.gang, 0⟩, reply := some .done } }
       s.core.running = true ∧ s.strm.reply = some .done ∧ s.task.spCount < 1024 ∧ s.task.info.carried = none)
    ∧ (access id).Ready ∧ (access id).actStream = 1 :=
  ⟨⟨ready_of (by decide +kernel), by decide +kernel⟩, by decide +kernel, by decide +kernel, ready_of (by decide +kernel), by decide +kernel⟩

/-- Elements at the top of 16 bits. -/
theorem witness_CellArithmetic :
    (∀ a ∈ [65535, 0], a < 65536) ∧ (∀ b : Bool, ∃ k : BlockIn, k.nan = b ∧ k.acts = [0, 65535] ∧ k.weights = [1, 65534])
    ∧ ∀ p ∈ [((1 : Nat), (126 : Nat))], p.1 % 128 ≠ 127 ∧ p.2 % 128 ≠ 127 :=
  ⟨by decide, fun b => ⟨{ acts := [0, 65535], weights := [1, 65534], sa := 0, sb := 0, nan := b }, rfl, rfl, rfl⟩, by decide⟩

/-- A command of core 0 on the copy engine of super-group 0. -/
def aCmd : Cmd :=
  { seq := 0, code := 0, block := 0, who := ⟨0, 0, 0⟩, frame := 0, ctx := 0, launch := none, prio := 0, cls := 0, id := 0, dst := 0xFFE0, src := 0, len := 32
    op := 0, esz := 5, depreg := 9, hv := false, handler := 0, table := 0, index := [], ilbls := [], lc := [always], refs := [], pins := [], lines := []
    left := [0], data := [], taken := false, acc := [], ill := false }

/-- A command block at x1 of own scratchpad: destination, source, length and fields, table. -/
def blockAt (ds : List Word) : State := scratch 0xFFE0 (dwordBytes ds) (start (xs [(1, 0xFFE0)]))

/-- An ill-formed block, one of length 0, a copy of 32 bytes, a gather of one element, and handles that name no command. -/
theorem witness_EngineForms :
    (∀ p ∈ ([([1, 0, 0, 0], 0), ([0, 0, 0, 0], 0), ([0xF000, 0x8000, 32, 0], 0), ([0xF000, 0x8000, word (2 * 2 ^ 50 + 1), 0x10000000], 1)] :
          List (List Word × Nat)),
        let s := blockAt p.1
        let w := fun (i : Nat) => BitVec.ofNat 64 (leNat (s.spmAt (0xFFE0 + 8 * i) 8))
        beginsB s = true ∧ quietB s = true ∧ (s.xv 1).toNat % 32 = 0 ∧ ownB s (s.xv 1).toNat 32 = true
          ∧ holds (do let s₁ ← s.fold [s.xl 1]; let _ ← s₁.prod [always, s₁.dep]; .ok true) = true
          ∧ (s.engineAt 0 p.2).queue.length < 64 ∧ s.task.moot = false ∧ s.strm.refs = [] ∧ (s.core.turnAt s.cycle).deposits = []
          ∧ ((blockOffence p.2 w = 0) ↔ p.1 ≠ [1, 0, 0, 0]) ∧ (bits (w 2) 0 32 = 0 ↔ p.1.getD 2 0 = 0))
    ∧ (let s := start (xs [(1, 0x1000000), (2, 0x10000C0)])
       s.Ready ∧ (s.xv 1).getLsbD 24 = true ∧ bits (s.xv 2) 6 2 = 3 ∧ ok (s.prod [s.dep]) = true)
    ∧ (let b := start fun t => xs [(1, 0x1000000)] t
       let s := b.modEngine 0 0 fun e => { e with issued := [(0, b.task.info.uid + 1)] }
       s.Ready ∧ (s.xv 1).toNat < 2 ^ 25 ∧ Tab.get 0 (s.engineAt 0 0).issued 0 = s.task.info.uid + 1 ∧ (s.engineAt 0 0).queue = []
         ∧ ok (s.writeX 2 1 []) = true)
    -- a live command on its queue
    ∧ (let b := start fun t => xs [(1, 0x1000000)] t
       let s := b.modEngine 0 0 fun e => { e with issued := [(0, b.task.info.uid + 1)], queue := [aCmd] }
       s.Ready ∧ (s.xv 1).toNat < 2 ^ 25 ∧ Tab.get 0 (s.engineAt 0 0).issued 0 = s.task.info.uid + 1 ∧ aCmd.torn = false
         ∧ (s.engineAt 0 0).queue.find? (fun c => decide (c.seq = 0) && !c.ill) = some aCmd ∧ ok (s.writeX 2 0 []) = true) :=
  ⟨by decide +kernel, ⟨ready_of (by decide +kernel), by decide +kernel⟩, ⟨ready_of (by decide +kernel), by decide +kernel⟩,
    ready_of (by decide +kernel), by decide +kernel⟩

/-! ### Events: the statements' hypotheses -/

/-- A state in a later cycle of both dies. -/
def later (n : Nat) (s : State) : State := { s with clocks := { s.clocks with cycles := Vector.replicate 2 n } }

/-- A message of class 1 and priority 2 from core 1 to core 0. -/
def letter (lbl : Handle) : Msg := { hdr := header 0 1 1 2 1 false 0 lbl, payload := [7, 0, 0, 0, 0, 0, 0] }

/-- A launch reference of die 0, entry 0. -/
def aLaunch : LaunchRef := { die := 0, entry := 0, seq := 0, record := 0x100, fclass := 0, fcore := 0, levels := [] }

/-- Core 0 before any task, with routine entry 1 as given. -/
def routed (e : Routine) : State :=
  { State.reset with core := { State.reset.core with regs := { State.reset.core.regs with rout := [(1, e)] } } }

theorem witness_MessageDeliveryEvents :
    -- below the limit and at it; refusals; what goes on after 512 cycles
    (let s := { State.reset with channels := [letter 0], refusals := [letter 0], resend := [⟨letter 0, 0⟩],
                                   clocks := { cycles := Vector.replicate 2 512 } }
     headOf s.channels 0 = some (letter 0) ∧ s.routeHeld (letter 0) = false ∧ s.msgLost (letter 0) = false ∧ (s.coreAt 0).nextMsg = none
       ∧ ((s.coreAt 0).turnAt (s.cycleAt 0)).stage < 3 ∧ ((s.coreAt 0).turnAt (s.cycleAt 0)).src ≤ (letter 0).src ∧ (s.coreAt (letter 0).dest).recvq.length < (s.coreAt 0).regs.limit
       ∧ headOf s.refusals 0 = some (letter 0) ∧ (letter 0).fault = false ∧ (s.coreAt 0).refq.length < 8
       ∧ s.resend[0]? = some ⟨letter 0, 0⟩ ∧ 0 + 512 ≤ s.cycle)
    ∧ (let s := { State.reset with channels := [letter 0, { letter 0 with launch := some (aLaunch, 0, 0) }]
                                   core := { State.reset.core with regs := { State.reset.core.regs with limit := 1 }, recvq := [letter 0] } }
       (s.coreAt 0).regs.limit ≤ (s.coreAt 0).recvq.length ∧ (s.coreAt 0).freeSlot.isSome = true ∧ (s.coreAt 0).nextMsg.isSome = true
         ∧ ((s.coreAt 0).turnAt (s.cycleAt 0)).stage = 0 ∧ (letter 0).launch = none ∧ (letter 0).src ≠ 0x1FFF ∧ aLaunch.die < 2)
    ∧ (let s := (State.reset.modDie 0 fun d => { d with redeliver := [⟨letter 0, 0⟩] }).modDie 1 fun d => { d with redeliver := [⟨letter 0, 0⟩] }
       (s.dieAt 0).redeliver[0]? = some ⟨letter 0, 0⟩ ∧ (s.dieAt 1).redeliver[0]? = some ⟨letter 0, 0⟩)
    -- in the cycle in which a message of core 2 has been accepted, and a dispatch made
    ∧ (let s := { State.reset with channels := [letter 0], core := { State.reset.core with turn := { stage := 2, src := 2 } } }
       headOf s.channels 0 = some (letter 0) ∧ s.msgLost (letter 0) = false ∧ (letter 0).src < ((s.coreAt 0).turnAt (s.cycleAt 0)).src
         ∧ ((s.coreAt 0).turnAt (s.cycleAt 0)).stage ≠ 0 ∧ (s.coreAt 0).freeSlot = some 0)
    -- dispatch: a valid entry, an invalid one, another frame under a label, a metered frame, and carried code
    ∧ (∀ p ∈ ([(routed { v := true }, always), (routed { v := false }, always), (routed { v := true, frame := 1 }, 1),
          ((routed { v := true }).modDie 0 fun d => { d with frames := [(0, { frame0 with metered := true })] }, 0)] : List (State × Handle)),
        let s := { p.1 with core := { p.1.core with recvq := [letter p.2] } }
        s.parked = [] ∧ ((s.coreAt 0).turnAt (s.cycleAt 0)).stage = 0 ∧ (s.coreAt 0).freeSlot = some 0 ∧ (∃ k, (s.coreAt 0).nextMsg = some (letter p.2, k)) ∧ (letter p.2).refused = false
          ∧ (letter p.2).cls = 1 ∧ (letter p.2).frame = 0 ∧ (letter p.2).lbl = p.2 ∧ (Tab.get ({} : Routine) s.core.regs.rout 1).attested = false)
    ∧ (let m : Msg := { hdr := header 0 1 0 2 1 false 0 0, payload := [7, 0, 0, 0, 0, 0, 0] }
       let d : Dormant := { pc := 16, frame := 0, dep := 0, prio := 1, addr := 8, count := 8, src := 1 }
       let s := { State.reset with core := { State.reset.core with recvq := [m], dorm := [d] } }
       s.parked = [] ∧ (s.coreAt 0).freeSlot = some 0 ∧ (∃ k, (s.coreAt 0).nextMsg = some (m, k)) ∧ m.cls = 0 ∧ m.refused = false
         ∧ (s.frameAt 0 m.frame).metered = false ∧ (s.coreAt 0).dorm.find? (·.ready) = some d) := by
  refine ⟨by decide +kernel, by decide +kernel, by decide +kernel, by decide +kernel, ?_, by decide +kernel, by decide +kernel, ⟨_, rfl⟩, by decide +kernel,
    by decide +kernel, by decide +kernel, by decide +kernel⟩
  intro p hp
  simp only [List.mem_cons, List.not_mem_nil, or_false] at hp
  rcases hp with rfl | rfl | rfl | rfl <;>
    refine ⟨?_, ?_, ?_, ⟨_, rfl⟩, ?_⟩ <;> decide +kernel

theorem witness_SchedulingEvents :
    State.reset.Parked
    ∧ (let t : Task := { info := { slot := 3 }, ex := { active := true } }
       let s := { State.reset with core := { State.reset.core with slots := [(3, t)] } }
       s.parked = [] ∧ (s.coreAt 0).running = false ∧ (s.coreAt 0).dbg.halted = false
         ∧ (((s.coreAt 0).slots.map (·.2)).filter fun t => decide (t.info.status = .ready)) = [t] ∧ t.info.aged = min 15 ((s.cycleAt 0 - t.info.readySince) / 4096)
         ∧ s.depDead (dieOf 0) t.frame t.ex.dep = false)
    ∧ (∀ w ∈ [none, some (0, false)],
        let p : Pending := { live := true, word := w }
        let s := State.reset.modDie 1 fun d => { d with pending := [(0, p)] }
        s.parked = [] ∧ (Tab.get {} (s.dieAt 1).pending 0).live = true ∧ (Tab.get {} (s.dieAt 1).pending 0).left = []
          ∧ (Tab.get {} (s.dieAt 1).pending 0).word = w ∧ s.owned 0 = false ∧ Tab.get 0 s.mem.mainEcc 0 = 0
          ∧ s.inSpill 0 0 = false ∧ s.inSpill 1 0 = false ∧ s.coh.busy noAgent (0 / 128) = false)
    ∧ (let b : Barrier := { entry := 0, tag := 0, scope := 0, domain := 0, cores := [0], arrived := [0] }
       let s := (later 1000 State.reset).modDie 1 fun d => { d with barriers := [b] }
       s.parked = [] ∧ (s.dieAt 1).barriers[0]? = some b ∧ s.barReady 1 b = true)
    ∧ (begins.core.slots = [] ∧ begins.task.frame = 0)
    ∧ (let b := start fun t => { t with spCount := 1024 }
       let s := { b with core := { b.core with regs := { b.core.regs with tvec := 0x40 } } }
       s.runnable = true ∧ s.bankLoses = false ∧ s.actStream ≤ 1 ∧ s.core.atBreak s.actStream = false ∧ 1024 ≤ s.task.spCount ∧ s.strm.reply = none ∧ s.endsEarly = false ∧ s.core.regs.act = false
         ∧ s.core.regs.tvec ≠ 0 ∧ s.task.info.carried = none ∧ s.task.moot = false)
    ∧ (∀ i ∈ [Instr.align 5, .lblNogood 1 2, .ldW 3 4 5],
        let b := program 0 [((encode i).getD (0, 0)).2] (start fun t => { t with ex := { t.ex with wait := some ⟨.align, 2⟩ } })
        let s := later 7 b
        s.runnable = true ∧ s.bankLoses = false ∧ s.actStream = 0 ∧ s.core.atBreak s.actStream = false ∧ s.fetch = .instr i ∧ s.strm.wait = some ⟨.align, 2⟩ ∧ 2 + (5#12).toNat ≤ s.cycle
          ∧ s.strm.reply = none ∧ s.task.moot = false ∧ s.task.spCount < 1024 ∧ s.task.info.carried = none) :=
  ⟨parked_of rfl, by decide +kernel, by decide +kernel, by decide +kernel, by decide +kernel, by decide +kernel, by decide +kernel⟩

/-- A label record of die 0's frame 0 written by interning: the state and the handle of the label with one assumption. -/
def assumed (a : Nat) (s : State) : State :=
  match s.intern 0 0 { envs := [BitVec.ofNat 64 (2 ^ a)] } with
  | .ok (_, s') => s'
  | .error _ => s

/-- A store of one byte by core 0 that nothing holds. -/
def aStore (space : Space) (cache : Bool) (dep : List Handle) : SbEntry :=
  { id := 1, core := 0, uid := 0, stream := 0, space := space, addr := 128, bytes := [9], lbls := dep, frame := 0, ctx := 0, kind := 0
    labelled := false, cache := cache, pre := [], test := none, ask := none }

theorem witness_MemorySystemEvents :
    -- a store that drains, one that waits behind it, and one that an earlier store names
    (let e := aStore .main false []
     let s := { State.reset with core := { State.reset.core with sb := [e, { e with id := 2 }, { e with id := 3, addr := 0, pre := [1] }] } }
     s.parked = [] ∧ (s.coreAt 0).sb[0]? = some e ∧ ((s.coreAt 0).sb.take 0) = [] ∧ overlap 128 1 128 1 = true)
    -- stores that perform: seen and not; cacheable with and without another holder
    ∧ (∀ p ∈ [(Space.spm, false, true), (.spm, false, false), (.main, false, true), (.main, false, false), (.main, true, true)],
        let e := aStore p.1 p.2.1 (if p.2.2 then [] else [never])
        let s := { begins with inbound := [e] }
        s.parked = [] ∧ s.inbound[0]? = some e ∧ s.bankTaken (e.addr / 65536) (bankOf e.addr) = false ∧ s.bankRival e = false ∧ e.test = none ∧ (s.inbound.take 0) = [] ∧ s.owned (e.addr / 128) = false
          ∧ s.visible (dieOf e.core) e.frame (s.rawProduct (dieOf e.core) e.frame e.lbls) e.ctx = p.2.2 ∧ s.linkDown e.core e.addr = none ∧ s.linkAcross e.core (e.addr / 65536) = none
          ∧ (s.coreAt (e.addr / 65536)).regs.lab = false ∧ s.coh.grants = [] ∧ (Tab.get ({} : DirEntry) s.coh.dir (e.addr / 128)).others (tileOf e.core) = []
          ∧ s.mem.notLive = [] ∧ (s.coreAt e.core).running = true ∧ (s.coreAt e.core).task.info.uid = e.uid)
    ∧ (let s := { begins with inbound := [aStore .main true []], coh := { dir := [(1, DirEntry.exclusive 7)] } }
       (Tab.get ({} : DirEntry) s.coh.dir 1).others (tileOf 0) ≠ [] ∧ s.coh.grants = [])
    -- to labelled scratchpad: a whole atom, and a part of one with a record to write, one that exists and a full table
    ∧ (∀ p ∈ [(aStore .spm false [1], 32, 16), (aStore .spm false [2], 1, 16), (aStore .spm false [1], 1, 16), (aStore .spm false [1], 1, 3)],
        let e := { p.1 with bytes := List.replicate p.2.1 9 }
        let b := labMode 0 ((assumed 2 (assumed 1 (labelled [] begins))).modDie 0 fun d =>
          { d with frames := d.frames.map fun f => (f.1, { f.2 with cap := BitVec.ofNat 16 p.2.2 }) })
        let s := { b with inbound := [e], mem := { b.mem with spmSide := [(4, 2)] } }
        s.parked = [] ∧ s.inbound[0]? = some e ∧ s.bankTaken 0 (bankOf e.addr) = false ∧ s.bankRival e = false ∧ e.ask = none ∧ s.refusesStore e = false ∧ (s.coreAt 0).regs.lab = true ∧ e.addr % 32 = 0
          ∧ (∃ h, e.lbls = [h]) ∧ (e.addr % 32 + e.bytes.length < 32 ↔ p.2.1 = 1) ∧ s.linkCut e.core e.space e.addr (e.addr / 65536) = none
          ∧ ok (s.product 0 0 true (Tab.get always s.mem.spmSide (e.addr / 32) :: e.lbls)) = decide (p.2.2 = 16))
    -- a store that another core's windows refuse
    ∧ (let e := { aStore .spm false [] with core := 1 }
       let s := { begins with inbound := [e] }
       s.inbound[0]? = some e ∧ s.refusesStore e = true ∧ s.linkCut e.core e.space e.addr (e.addr / 65536) = none)
    -- acknowledgements, notices, write-backs
    ∧ (let g : Grant := ⟨1, 0, [7, 8]⟩
       let s := { State.reset with coh := { grants := [g, ⟨2, 0, [7]⟩], dir := [(1, { state := 1, ptrs := [5, 6] }), (3, { state := 1, coarse := true })]
                                            notices := [(1, 5), (3, 5)], writeBacks := [(1, 5), (3, 5)] } }
       s.coh.grants.find? (fun g => decide (g.line = 1) && g.waiting.contains 7) = some g ∧ g.waiting.erase 7 ≠ []
         ∧ s.coh.grants.find? (fun g => decide (g.line = 2) && g.waiting.contains 7) = some ⟨2, 0, [7]⟩ ∧ [7].erase 7 = []
         ∧ (Tab.get ({} : DirEntry) s.coh.dir 1).coarse = false ∧ s.coh.awaits 1 5 = false ∧ 5 ∈ (Tab.get ({} : DirEntry) s.coh.dir 1).ptrs
         ∧ (1, 5) ∈ s.coh.notices ∧ (1, 5) ∈ s.coh.writeBacks ∧ (Tab.get ({} : DirEntry) s.coh.dir 3).coarse = true
         ∧ (3, 5) ∈ s.coh.notices ∧ (3, 5) ∈ s.coh.writeBacks)
    -- a pseudo-channel in the cycle before its sleep, and in the first of it
    ∧ (∀ n ∈ [16383, 16384], let s := { State.reset with clocks := { State.reset.clocks with base := n } }
       5 ∉ s.links.asleep ∧ (s.clocks.base < Tab.get 0 s.links.used 5 + 16384 ↔ n = 16383)) :=
  ⟨by decide +kernel, by decide +kernel, by decide +kernel, by
    intro p hp
    simp only [List.mem_cons, List.not_mem_nil, or_false] at hp
    rcases hp with rfl | rfl | rfl | rfl <;>
      refine ⟨?_, ?_, ?_, ?_, ?_, ?_, ?_, ?_, ⟨_, rfl⟩, ?_⟩ <;> decide +kernel, by decide +kernel, by decide +kernel, by decide +kernel⟩

/-- A stream that waits for what `k` says. -/
def waits (k : WaitKind) : State := start fun t => { t with ex := { t.ex with wait := some ⟨k, 0⟩ } }

theorem waits_of (k : WaitKind) : (waits k).Waits k 0 := ⟨rfl, Nat.zero_le 1, rfl, rfl⟩

/-- A walk that stops at level 1 and one that finds its entry; the last cycle before each bound and the first at it. -/
theorem witness_TranslationAndLinkEvents :
    ((waits (.tlb 0x100000000 0)).Waits (.tlb 0x100000000 0) 0 ∧ (waits (.migrate 0x100000000 5)).Waits (.migrate 0x100000000 5) 0
      ∧ (waits (.remote 0x100000000 5)).Waits (.remote 0x100000000 5) 0)
    ∧ (let s := waits (.tlb 0x100000000 0)
       (Tab.get ({} : Group) s.groups (groupOf s.core.num)).arrivals = [] ∧ (∃ k, s.walk (s.tableOf s.core.num) 0x100000000 = .error k)
         ∧ s.parked = [] ∧ (s.coreAt 4).freeSlot = some 0 ∧ s.mem.mainEcc = [])
    ∧ (let b := mainAt 0 (dwordBytes [1]) (mainAt (8 * 16) (dwordBytes [1]) (waits (.tlb 0x100000000 0)))
       let s := b.modGroup 0 fun g => { g with aspace := 1 }
       ∃ d, s.walk (s.tableOf s.core.num) 0x100000000 = .ok d)
    ∧ (2 ^ 20 - 1 < 0 + 2 ^ 20 ∧ 0 + 2 ^ 20 ≤ 2 ^ 20 ∧ 0 + 2 ^ 24 ≤ 2 ^ 24)
    ∧ (12 ∉ State.reset.links.down ∧ 0 ∉ State.reset.links.down ∧ 3 ∈ ({ down := [3] } : Links).down ∧ 12 < 13) :=
  ⟨⟨waits_of _, waits_of _, waits_of _⟩, ⟨by decide +kernel, ⟨1, rfl⟩, by decide +kernel⟩, ok_exists (by decide +kernel), by decide, by decide +kernel⟩

/-- A collective command whose element 0 has been read. -/
def collCmd (op esz : Nat) : Cmd :=
  { aCmd with code := 2, op := op, esz := esz, left := [], data := [(0, List.replicate (2 ^ esz) 1, [always])] }

/-- Core 0 with one command on an engine of super-group 0; its scratchpad keeps labels or not. -/
def running (c : Cmd) (lab : Bool) : State :=
  let b := if lab then labMode 0 begins else begins
  b.modEngine 0 c.code fun e => { e with queue := [c] }

/-- `k` bytes at `a` of core 0's scratchpad, as the statement's `place` says. -/
def placeB (s : State) (c : Cmd) (a k : Nat) : Bool :=
  decide ((a + k ≤ 65536 ∨ (0x10000000 ≤ a ∧ a + k ≤ 0x10010000)) ∧ a % 32 + k ≤ 32 ∧ 0 < k) && (!s.core.regs.lab || decide (s.core.regs.frm = c.frame))
    && decide (Tab.get 0 s.mem.spmEcc ((if a < 65536 then a else a - 0x10000000) / 32) = 0)

/-- A unit to read, of a copy and of a gather; a copy's atom and a collective command's element to write, labelled and not, seen and not; a
source in no space; completions, one with a handler; an ill-formed head. -/
theorem witness_EngineEvents :
    (∀ c ∈ [aCmd, { aCmd with code := 1, esz := 2, index := [3], ilbls := [[always]], table := 0x10000000 }], ∀ lab ∈ [false, true],
      let s := running c lab
      let a := if c.code = 1 then c.table + c.index.getD 0 0 * 2 ^ c.esz else c.src
      (s.engineAt 0 c.code).queue = [c] ∧ (s.engineAt 0 c.code).halted = false ∧ sgOf c.who.core = 0 ∧ c.code < 4 ∧ c.ill = false ∧ 0 ∈ c.left
        ∧ placeB s c a (2 ^ c.esz) = true)
    ∧ (∀ c ∈ [{ aCmd with left := [], data := [(0, List.replicate 32 7, [always])] }, { aCmd with left := [], data := [(0, List.replicate 32 7, [never])] }],
      ∀ lab ∈ [false, true], let s := running c lab
      (s.engineAt 0 0).queue = [c] ∧ c.left = [] ∧ c.ripe 0 = true ∧ c.mates 0 = [0] ∧ c.hv = false ∧ s.mem.mainEcc = [] ∧ s.core.regs.lab = lab
        ∧ placeB s c c.dst 32 = true ∧ ok (s.form 0 c.frame true ((c.data.flatMap (·.2.2)).eraseDups)) = true
        ∧ s.visible 0 c.frame (s.rawProduct 0 c.frame ((c.data.flatMap (·.2.2)).eraseDups)) c.ctx = decide (c.data.all fun p => p.2.2 = [always]))
    ∧ (∀ p ∈ [(0, 3), (1, 2), (2, 3), (3, 3), (4, 3)], ∀ lab ∈ [false, true],
      let c := collCmd p.1 p.2
      let s := running (collCmd p.1 p.2) lab
      (s.engineAt 0 2).queue = [c] ∧ c.left = [] ∧ c.ripe 0 = true ∧ (c.data.map (·.2.1.length)) = [2 ^ c.esz] ∧ s.mem.mainEcc = []
        ∧ placeB s c c.dst (2 ^ c.esz) = true ∧ (s.engElements c (0 :: (c.mates 0).erase 0)).toOption.isSome = true
        ∧ ok (s.form 0 c.frame true [always, always, always]) = true)
    ∧ (let c := { aCmd with src := 0x10000 }
       let s := running c false
       (s.engineAt 0 0).queue = [c] ∧ c.ill = false ∧ 0 ∈ c.left ∧ c.torn = false ∧ 0x10000 ≤ c.src ∧ c.src < 0x10000000 ∧ s.core.running = true
         ∧ s.task.info.uid = c.who.uid ∧ s.task.moot = false ∧ (s.core.turnAt s.cycle).deposits = [] ∧ c.who.core = s.core.num)
    ∧ (∀ c ∈ [{ aCmd with left := [] }, { aCmd with left := [], hv := true, taken := true }, { aCmd with ill := true }],
       let s := running c false
       (s.engineAt 0 0).queue = [c] ∧ c.data = [] ∧ c.dst < 65536 ∧ ok (s.product s.die c.frame true c.acc) = true) :=
  ⟨by decide +kernel, by decide +kernel, by decide +kernel, by decide +kernel, by decide +kernel⟩

/-- Sixteen arrivals of group 0 at one operation, each with a map and a position. -/
def arrivals (op : GangOp) (f : Nat → BitVec 8) (n since : Nat) (m : MReg) (xs : XReg) : List Arrival :=
  (List.range n).map fun c => { core := c, uid := 0, op := op, word := 0x3F, frame := f c, xs := xs, map := m, dep := 0, since := since }

/-- A map of one row and `c` columns of INT8 elements at `a`. -/
def flat (a : Word) (c : Nat) : MReg := { d0 := a, d1 := 0x8000, d2 := word ((c - 1) * 2 ^ 48 + 256), d3 := word (2 ^ 61 + 1) }

/-- Group 0 with these arrivals and planes, core 0 running. -/
def gathered (op : GangOp) (m : MReg) (xs : XReg) (planes : Tab Plane) : State :=
  { paged begins with groups := [(0, { arrivals := arrivals op (fun _ => 0) 16 0 m xs, planes := planes })] }

/-- What the load forms' clause wants of a state: the second stage passes, the operands can be read, the label forms. -/
def planeB (s : State) (ks : List Nat) (nb : Nat) : Bool :=
  let as := sortBy (fun a b : Arrival => decide (a.idx ≤ b.idx)) (s.groupAt 0).arrivals
  (s.gangStage2 0 as).isNone && decide (as.map (·.idx) = List.range 16) && decide ((s.groupAt 0).flight = none) && decide ((s.groupAt 0).due = []) &&
    match ({ st := s } : GReads).planeReads as ks nb with
    | .ok (rs, x) => decide (rs.length = 16) && ok ((x.st.focus s.core.num s.actStream).form 0 0 false (x.lbls ++ (as.map fun a => a.map.lbl) ++ as.map fun a => a.dep))
    | .error _ => false

theorem witness_GangStarts :
    -- `hot.reg` of one row at a mapped page, H past Kext; `gang.wld` of a matrix of one row and one column in scratchpad
    planeB (gathered (.reg 0x100) (flat 0x100000000 1) ⟨0x100000000, always⟩ []) [0] 1 = true
    ∧ planeB (gathered (.wld 0 7) (flat 0xF000 1) ⟨0xF000, always⟩ []) (upto 256) 1 = true
    -- `gang.mma` of one row of four elements with one plane that is not managed
    ∧ (let s := gathered (.mma 0 0 3 3) (flat 0xF000 4) ⟨0xF000, always⟩ [(3, { v := true, fmt := 1, sr := 0, kext := 256 })]
       let as := sortBy (fun a b : Arrival => decide (a.idx ≤ b.idx)) (s.groupAt 0).arrivals
       as.map (·.idx) = List.range 16 ∧ (s.groupAt 0).flight = none ∧ (s.groupAt 0).due = [] ∧ s.gangStage2 0 as = none ∧ (s.planeAt 0 3).mgd = false
         ∧ (∀ a ∈ as, a.core = s.core.num → a.uid = s.task.info.uid) ∧ s.core.running = true ∧ s.mem.mainEcc = []
         ∧ (({ st := s } : GReads).acts (as.filter fun a => decide (a.idx < 1)) 1 256 1).2.1 = []) :=
  ⟨by decide +kernel, by decide +kernel, by decide +kernel⟩

/-- The index of an arrival is its core's in the group. -/
theorem witness_GangEvents :
    (let s := { begins with groups := [(0, { arrivals := arrivals (.mig 2) (fun _ => 0) 16 0 {} {} })] }
     let k := s.groupAt 0
     s.parked = [] ∧ k.arrivals.length = 16 ∧ k.flight = none ∧ k.due = [] ∧ (∀ a ∈ k.arrivals, a.op = .mig 2 ∧ a.word = 0x3F ∧ a.frame = 0)
       ∧ (k.arrivals.map (·.idx)) = List.range 16 ∧ s.core.running = true
       ∧ k.arrivals.filter (fun a => decide (a.core = s.core.num)) = k.arrivals.take 1)
    ∧ (let s := { begins with groups := [(0, { arrivals := arrivals (.mig 2) (fun c => if c = 1 then 5 else 0) 16 0 {} {} })] }
       (s.groupAt 0).arrivals.length = 16 ∧ ∃ a b rest, (s.groupAt 0).arrivals = a :: b :: rest ∧ a.frame ≠ b.frame)
    ∧ (let s := later (2 ^ 20) { begins with groups := [(0, { arrivals := arrivals (.mig 2) (fun _ => 0) 15 0 {} {} })] }
       ∃ a rest, (s.groupAt 0).arrivals = a :: rest ∧ (s.groupAt 0).arrivals.length < 16 ∧ a.since + 2 ^ 20 ≤ s.cycleAt 0)
    -- a completion, with its meters free and held
    ∧ (let w : TileWrite := { core := 0, uid := 0, tile := 3, cells := 0, envs := [0], inc := false, sat := false }
       let fl : Flight := { tiles := [w], meters := [(0, 1)] }
       let b := { begins with groups := [(0, { flight := some fl })] }
       let s := { b with sec := { b.sec with regions := [(0, { live := true, base := 0, limit := 0, count := 2 ^ 20 })] } }
       fl.tiles = [w] ∧ w.core = b.core.num ∧ w.uid = b.task.info.uid ∧ b.core.running = true ∧ b.meterHeld fl = false ∧ s.meterHeld fl = true ∧ (∀ st ∈ fl.polders, s.stackOut st = false)
         ∧ (match b.intern b.die fl.frame (b.reduce b.die fl.frame { envs := w.envs, inc := w.inc }) with | .ok _ => true | .error _ => false) = true)
    -- an instant that is due at a plane of four rows of which one is hot
    ∧ (let q : Plane := { v := true, mgd := true, kext := 4, hot := 1, counters := [(2, 6), (3, 9)], hotset := [2] }
       let s := { begins with groups := [(0, { planes := [(1, q)], due := [1] })] }
       1 ∈ (s.groupAt 0).due ∧ (s.planeAt 0 1) = q ∧ Tab.wf 0 q.counters = true ∧ q.hotset.Nodup ∧ q.hotset.length = min q.hot q.kext
         ∧ (∀ k, k < q.kext → s.rowPoisoned q k = false) ∧ s.mem.mainEcc = [] ∧ ∀ k ∈ q.hotset, k < q.kext)
    -- a stack whose sixteen units are all out
    ∧ (let fl : Flight := { polders := [11] }
       let s := { begins with groups := [(0, { flight := some fl })], links := { begins.links with polderOut := (List.range 16).map fun v => 11 * 16 + v } }
       fl.polders = [11] ∧ ∀ u, u < 16 → 11 * 16 + u ∈ s.links.polderOut)
    -- polder units: others left, and none left
    ∧ (let w : TileWrite := { core := 0, uid := 0, tile := 0, cells := 0, envs := [0], inc := false, sat := false }
       let fl : Flight := { tiles := [w], polders := [11] }
       let s := { begins with groups := [(0, { flight := some fl })] }
       let r := { s with links := { s.links with polderOut := (List.range 15).map fun v => 11 * 16 + v } }
       11 ∈ fl.polders ∧ 11 * 16 + 15 ∉ s.links.polderOut ∧ (∃ v, v < 16 ∧ v ≠ 15 ∧ 11 * 16 + v ∉ s.links.polderOut)
         ∧ 11 * 16 + 15 ∉ r.links.polderOut ∧ ∀ v, v < 16 → v ≠ 15 → 11 * 16 + v ∈ r.links.polderOut) :=
  by refine ⟨?_, ⟨?_, _, _, _, rfl, ?_⟩, ⟨_, _, rfl, ?_⟩, ?_, ?_, ?_, ?_, ?_, ⟨0, ?_⟩, ?_⟩ <;> decide +kernel

/-- A ring action of core 0's execute stream with key 5. -/
def ringReq (op : RingOp) (noRd : Bool) : RingReq := {
  who := begins.self, op := op, frame := 0, ctx := 0, key := 5, opd := {}, expected := {}, dep := 0, fold := [always], store := none, far := none
  noRd := noRd, since := 0 }

/-- A labelled value can be formed, and is not NEVER, from what an action leaves. -/
def formed (r : Except Trap (Handle × State)) : Bool :=
  match r with
  | .ok (h, _) => decide (h ≠ never)
  | .error _ => false

/-- A queued operation on the word at 8. -/
def sluiceReq (op : SluiceOp) (b e : Word) (reduce noRd : Bool) : SluiceReq := {
  who := begins.self, op := op, off := 8, opd := { val := b }, expected := { val := e }, dep := 0, fold := 0, frame := 0, die := 0, prio := 0
  arrival := 0, reduce := reduce, noRd := noRd, id := 0 }

theorem witness_RingSluiceAndPortEvents :
    -- captures and an alight at the slot with their key, with and without rd; `ring.cap.cas` on the value and on another
    (∀ p ∈ [(RingOp.read, false, 0), (.swap, true, 0), (.cas, false, 9), (.cas, false, 8), (.alight, true, 0)],
      let q := { ringReq p.1 p.2.1 with expected := { val := p.2.2 }, store := some (aStore .spm false []) }
      let s := { begins with ringq := [q] }.putSlot 0 0 { v := true, key := 5, value := 9 }
      s.core.running = true ∧ s.actStream ≤ 1 ∧ s.die < 2 ∧ s.ringq = [q] ∧ q.who = s.self ∧ slotAt (station s.core.num) s.cycle = some 0
        ∧ s.ringLate s.self = false ∧ s.cycle < q.since + 512 ∧ (s.slot s.die 0).v = true ∧ (s.slot s.die 0).frame = q.frame ∧ (s.slot s.die 0).key = q.key
        ∧ (match (({ s with ringq := [] } : State).ringTurns s.self).form s.die q.frame false (q.dep :: q.fold) with
           | .ok (d, y) => formed (y.form s.die q.frame false [0, q.expected.lbl, q.opd.lbl, d]) && (y.badRecordOf s.die q.frame [0, d]).isNone
           | .error _ => false) = true)
    -- a board on an empty slot, before and after its 512 cycles
    ∧ (∀ b ∈ [false, true], ∀ n ∈ [0, 512], let q := ringReq .board b
       let s := later n { begins with ringq := [q] }
       s.ringq = [q] ∧ q.who = s.self ∧ (q.since + 512 ≤ s.cycle ↔ n = 512) ∧ q.noRd = b ∧ slotAt (station s.core.num) s.cycle = some 0 ∧ (s.slot s.die 0).v = false
         ∧ (match ({ s with ringq := [] } : State).form s.die q.frame false (q.dep :: q.fold) with
            | .ok (d, y) => formed (y.form s.die q.frame false [q.opd.lbl, d])
            | .error _ => false) = true)
    ∧ (∀ op ∈ [RingOp.read, .cas, .alight], let q := ringReq op false
       let s := later (2 ^ 20) { begins with ringq := [q] }
       s.ringq = [q] ∧ q.who = s.self ∧ q.since + 2 ^ 20 ≤ s.cycle ∧ slotAt (station s.core.num) s.cycle = some 0 ∧ (s.slot s.die 0).v = false)
    -- operations, one as a reduction; `sync.cas` and `sync.wait` on the value and on another
    ∧ (∀ p ∈ [(SluiceOp.ld, 0, false), (.add, 1, true), (.cas, 0, false), (.cas, 1, false), (.wait, 0, false), (.wait, 1, false), (.wake, 1, false)],
        let q := sluiceReq p.1 p.2.1 p.2.1 p.2.2 p.2.2
        let s := begins.modDie 1 fun d => { d with sluiceq := [q], waiters := [⟨⟨5, 0, 0⟩, 8, 0, always, always⟩] }
        (s.dieAt 1).sluiceq = [q] ∧ q.who = s.self ∧ s.sluiceServed 1 = none ∧ (s.sword 1 q.off).lbl = always ∧ (s.sword 1 q.off).val = 0
          ∧ Tab.get 0 (s.dieAt 1).wordEcc (q.off / 32) = 0 ∧ s.task.moot = false ∧ (∀ x ∈ (s.dieAt 1).waiters, x.who.core ≠ s.core.num)
          ∧ (match (s.modDie 1 fun x => { x with sluiceq := [], served := some (s.cycleOf 1, q) }).form q.die q.frame false [q.dep, q.fold] with
             | .ok (d, y) => decide (d ≠ never) && formed (y.form q.die q.frame p.2.2 [always, q.expected.lbl, q.opd.lbl, d])
             | .error _ => false) = true)
    ∧ (let q := { sluiceReq .wait 0 0 false false with dep := never }
       let s := begins.modDie 1 fun d => { d with sluiceq := [q] }
       (s.dieAt 1).sluiceq = [q] ∧ (match (s.modDie 1 fun x => { x with sluiceq := [], served := some (s.cycleOf 1, q) }).form q.die q.frame false [q.dep, q.fold] with
         | .ok (d, _) => decide (d = never)
         | .error _ => false) = true)
    ∧ (let t : Transfer := { transfer 0 0 with base := 0xFFF8, closed := true }
       let s := { begins with transfers := [t] }
       let u := { begins with transfers := [{ t with words := [⟨1, [always], 0⟩] }] }
       s.transfers = [t] ∧ t.who = s.self ∧ t.base / 65536 = u.core.num ∧ s.linkAcross s.core.num (t.base / 65536) = none ∧ t.base % 8 = 0 ∧ t.base % 65536 + 8 * t.written + 8 = 65536
         ∧ u.core.regs.lab = false ∧ u.mem.spmEcc = [] ∧ u.mem.mainEcc = [] ∧ u.visible u.die t.frame (u.rawProduct u.die t.frame [always]) 0 = true) :=
  ⟨by decide +kernel, by decide +kernel, by decide +kernel, by decide +kernel, by decide +kernel, by decide +kernel⟩

/-- A window of core 0 for parties at system scope over its whole scratchpad, for reads and writes. -/
def opened (s : State) : State :=
  { s with core := { s.core with regs := { s.core.regs with win := s.core.regs.win.set 0 (word (2 ^ 63 + 7 * 2 ^ 56 + 3 * 2 ^ 52 + 2047 * 2 ^ 11)) } } }

theorem witness_OutsideAccesses :
    -- the last byte of core 0's scratchpad: allowed and not; a range past a core's 64 KiB; past the package's
    (65535 % 65536 + 1 = 65536 ∧ 65535 / 65536 < 4096 ∧ Tab.get [] State.reset.host.queues (State.reset.serviceOf .spm 65535) = []
      ∧ State.reset.host.debugq = []
      ∧ State.reset.mem.spmEcc = [] ∧ (∀ a ∈ [Acc.load, .store], (opened State.reset).windowRefusal 0 2047 2047 a none = none
          ∧ State.reset.windowRefusal 0 2047 2047 a none ≠ none)
      ∧ 65536 < 65535 % 65536 + 2 ∧ 65535 + 2 ≤ 2 ^ 28 ∧ 2 ^ 28 < (2 ^ 28 - 1) + 2)
    -- BAR2 at the end of a line: not cached, cached, cached without the right, and the fill of a missing one
    ∧ ((hostPaged State.reset).PlainMain)
    ∧ (let s := hostPaged State.reset
       127 % 128 + 1 ≤ 128 ∧ 127 + 1 ≤ 2 ^ 36 ∧ s.host.held = [] ∧ State.reset.hostFind (0x100000000 + 127) = none
         ∧ (∃ d, s.hostFind (0x100000000 + 127) = some d ∧ s.place (fun _ => some d) true (0x100000000 + 127) = some (127, false))
         ∧ Tab.get [] s.host.queues (s.serviceOf .main 127) = [] ∧ s.coh.recall noAgent [127 / 128] = none
         ∧ (({ s with coh := { s.coh with dir := [(0, DirEntry.exclusive 7)] } } : State).coh.recall noAgent [127 / 128]).isSome = true
         ∧ State.reset.place (fun _ => some 0) true (0x100000000 + 127) = none)
    ∧ (let s := { State.reset with host := { State.reset.host with held := [⟨127, true, 1, [5]⟩] } }
       s.host.held = [⟨127, true, 1, [5]⟩] ∧ s.mem.mainEcc = [] ∧ (∃ k, s.walk s.host.aspace (0x100000000 + 127) = .error k))
    ∧ (let b := mainAt 0 (dwordBytes [1]) (mainAt (8 * 16) (dwordBytes [1]) State.reset)
       ∃ d, b.walk 1 (0x100000000 + 127) = .ok d)
    ∧ (let s := { hostPaged State.reset with sec := { State.reset.sec with regions := [(0, { live := true })] } }
       s.mem.mainEcc = [] ∧ s.place s.hostXlate true 0x100000000 = some (0, false) ∧ s.place s.hostXlate false 0x100000000 = some (0, false) ∧ (s.regionOf 0).isSome = true)
    ∧ (let s := hostPaged State.reset
       s.place s.hostXlate false 0x10000FFFF = some (0xFFFF, false) ∧ (0x10000FFFF : Nat) % 65536 + 1 = 65536 ∧ s.regionOf 0xFFFF = none) :=
  ⟨by decide +kernel, plain_of (by decide +kernel),
    by refine ⟨?_, ?_, ?_, ?_, ⟨6, ?_⟩, ?_⟩ <;> decide +kernel,
    ⟨by decide +kernel, by decide +kernel, error_exists (by decide +kernel)⟩, ok_exists (by decide +kernel), by decide +kernel, by decide +kernel⟩

theorem witness_OutsideLaunches :
    -- a misaligned and an untranslated address, and an accepted record
    (bits (0x100000001 : Word) 0 48 % 256 ≠ 0 ∧ State.reset.vaBytes State.reset.hostXlate 0x100000000 256 = none
      ∧ bit (State.reset.host.launch.getD 7 0) 55 = false ∧ Tab.get [] State.reset.host.queues 7 = [] ∧ State.reset.inTurn 1 (hostRank 7) = true
      ∧ (let t := State.reset.modDie 1 fun d => { d with launchTurn := (0, tagRank 0xFFFF) }
         t.inTurn 1 (hostRank 7) = false)
      ∧ bit (((State.reset.host.launch.set 7 0x80000000000000) : Vector Word 8).getD 7 0) 55 = true)
    ∧ (let s := mainAt 0 (launchRecord 0) (hostPaged State.reset)
       ∃ bs, s.vaBytes s.hostXlate 0x100000000 256 = some bs ∧
         (let r := dwords 32 bs
          let cores := (targetsOf (levelsOf r)).map (·.1)
          recordOk r = true ∧ s.completionWord s.hostXlate r = some none ∧ s.served cores = true ∧ s.meteredLaunch (recFrame r) cores = false
            ∧ s.tagHeld (barriersOf 0 (levelsOf r) cores) = false ∧ (s.freeEntry 1).isSome = true
            ∧ { s with host := { s.host with closing := true } }.freeEntry 1 = none))
    -- Giari: no landing area, one with nothing armed, and one with a record armed
    ∧ (let b := hostPaged State.reset
       let s := { b with host := { b.host with land := b.host.land.set 0 0x100000001 } }
       let r := dwords 32 (launchRecord 0)
       let a := s.modDie 0 fun d => { d with armed := [(5, { live := true, record := r })] }
       State.reset.freeLand 0 = none ∧ State.reset.host.off = false ∧ Tab.get 0 (s.dieAt 0).armTurn 5 ≠ s.cycleOf 0 + 1
         ∧ (let l := s.modDie 0 fun d => { d with armTurn := [(5, 1)] }
            Tab.get 0 (l.dieAt 0).armTurn 5 = l.cycleOf 0 + 1)
         ∧ s.freeLand 0 = some 0 ∧ s.place s.hostXlate true (bits (s.host.land.getD 0 0) 16 32 * 65536 + 4096 * 0) = some (0, false)
         ∧ s.host.giariq = [] ∧ 0 ∉ s.links.down ∧ s.coh.recall noAgent (linesOf 0 4096) = none ∧ s.inTurn 0 (tagRank 5) = true
         ∧ (({ s with coh := { s.coh with dir := [(31, DirEntry.exclusive 7)] } } : State).coh.recall noAgent (linesOf 0 4096)).isSome = true
         ∧ a.served ((targetsOf (levelsOf (r.set 2 0))).map (·.1)) = true
         ∧ (Tab.get ({} : Armed) (s.dieAt 0).armed 5).live = false ∧ (Tab.get ({} : Armed) (a.dieAt 0).armed 5).live = true ∧ (a.freeEntry 0).isSome = true
         ∧ a.meteredLaunch (recFrame (r.set 2 0)) ((targetsOf (levelsOf (r.set 2 0))).map (·.1)) = false
         ∧ a.tagHeld (barriersOf 0 (levelsOf (r.set 2 0)) ((targetsOf (levelsOf (r.set 2 0))).map (·.1))) = false ∧ bit (recAt r 0) 16 = false) :=
  ⟨by decide +kernel,
    ⟨launchRecord 0, by decide +kernel, by decide +kernel⟩, by decide +kernel⟩

/-- Registers at the ends of the gaps between them. -/
theorem witness_RegisterWrites :
    State.reset.Parked ∧ State.reset.host.off = false ∧ ({ State.reset with host := { State.reset.host with off := true } } : State).host.off = true ∧ bit State.reset.host.land[0] 0 = false ∧ bit State.reset.host.land[1] 0 = false
    ∧ bit (State.reset.host.land.set 0 1)[0] 0 = true ∧ bits (0x1047 : Word) 0 13 ≤ 0x1047 ∧ ¬bits (0x1048 : Word) 0 13 ≤ 0x1047
    ∧ State.reset.host.busy[7] = false ∧ (State.reset.host.busy.set 7 true)[7] = true
    ∧ (0x50 + 8 * (3 : Fin 4).val = 0x68 ∧ 0x400 + 16 * (7 : Fin 8).val = 0x470 ∧ 0x408 + 16 * (7 : Fin 8).val = 0x478) :=
  ⟨parked_of rfl, by decide +kernel⟩

theorem witness_BringUpEvents :
    (State.reset.sec.bank.clean = true ∧ { State.reset.sec.bank with clean := false }.clean = false)
    ∧ (let s := { State.reset with host := { State.reset.host with phase := 1 } }
       s.host.phase = 1 ∧ s.mem.main.Pairwise (fun p q => p.1 < q.1) ∧ s.mem.notLive = [])
    ∧ State.reset.host.phase ≠ 1 ∧ State.reset.host.off = false
    ∧ (let s := { State.reset with host := { State.reset.host with phase := 2 } }
       s.host.phase = 2 ∧ (∀ k, k < 2 → (s.dieAt k).pending = []) ∧ ∃ k, k < 2 ∧ ((s.modDie 1 fun d => { d with pending := [(0, { live := true })] }).dieAt k).pending ≠ [])
    ∧ ((114#8).toNat < 115 ∧ 105 ≤ (114#8).toNat ∧ (104#8).toNat < 105 ∧ max 220 (1849#16).toNat < 1850 ∧ 1850 ≤ max 220 (1850#16).toNat ∧ 115 ≤ (115#8).toNat ∧ State.reset.sec.accepts = true)
    ∧ (let s := { State.reset with sec := { State.reset.sec with regions := [(0, { live := true, count := 2 ^ 19 })], refusals := 1 },
                                    clocks := { State.reset.clocks with units := 14400000000 } }
       (∃ r, (r ∈ s.sec.regions) ∧ (Tab.get ({} : Region) s.sec.bank.regions r.1).count + 2 ^ 19 ≤ r.2.count) ∧ s.sec.lastAt + 14400000000 ≤ s.clocks.units ∧ 0 < s.sec.refusals
         ∧ s.host.off = false ∧ s.sec.triedAt + 14400000 ≤ s.clocks.units)
    ∧ (State.reset.clocks.units < State.reset.sec.triedAt + 14400000 ∧ State.reset.host.phase ≠ 2)
    ∧ (∀ r ∈ ([(0, { live := true, count := 2 ^ 19 - 1 })] : Tab Region), r.2.count < (Tab.get ({} : Region) State.reset.sec.bank.regions r.1).count + 2 ^ 19)
    ∧ State.reset.sec.refusals = 0 :=
  by refine ⟨?_, ?_, ?_, ?_, ⟨?_, ?_, 1, ?_⟩, ?_, ⟨⟨_, List.mem_cons_self, ?_⟩, ?_⟩, ?_⟩ <;> decide +kernel

/-! ### Firmware requests and debug: the statements' hypotheses -/

/-- Channel 7 holds a request of a code, a target and arguments, its block at PA 0; main memory from PA 0x1000 spells `data`. -/
def request (code target : Nat) (args : List Word) (data : List Byte) (s : State) : State :=
  let b := mainAt 0x1000 data (mainAt 0 (dwordBytes ([word (code * 2 ^ 56 + target * 2 ^ 32 + 0x55), 0] ++ args)) (hostPaged s))
  { b with host := { b.host with phase := 3, block := b.host.block.set 7 0x100000000, busy := b.host.busy.set 7 true } }

/-- The conditions of `State.Requested` as a test, for a block at PA 0. -/
def askedB (s : State) (h code used : Nat) : Bool :=
  match s.reqBlock h with
  | some (pa, ws) => decide (pa = 0) && s.mem.mainEcc.isEmpty && s.host.busy.getD h false && decide (s.host.phase ≠ 0) && !s.hostBehind h
      && decide (bits (ws.headD 0) 56 8 = code) && decide (bits (ws.headD 0) 48 8 = 0)
      && (List.range 6).all fun i => decide (i < used) || decide (ws.getD (2 + i) 0 = 0)
  | none => false

theorem asked_of {s : State} {h code used : Nat} (ha : askedB s h code used = true) : ∃ ws, s.Requested h 0 ws code used := by
  unfold askedB at ha
  split at ha
  · rename_i pa ws hw
    simp only [Bool.and_eq_true, decide_eq_true_eq, List.all_eq_true, Bool.or_eq_true, List.mem_range, Bool.not_eq_true'] at ha
    obtain ⟨ha, hu⟩ := ha
    obtain rfl : pa = 0 := by simp only [ha]
    refine ⟨ws, ?_, ?_, ?_, unmarked_of (by simpa using ha.1.1.1.1.1.2), hw, ?_, ?_, fun i hi hl => (hu i hl).resolve_left (by omega)⟩ <;> first | simp only [ha] | exact ha.1.1.1.2
  · cases ha

/-- The target and the arguments that a request's block gives. -/
def asks (s : State) (h : Nat) : Option (Nat × List Word) :=
  (s.reqBlock h).map fun b => (bits (b.2.headD 0) 32 16, (List.range 6).map fun i => b.2.getD (2 + i) 0)

/-- Eight dwords of data for the block of the last channel. -/
theorem witness_RequestsEnd :
    let s := request 3 0 [0] [] State.reset
    s.PlainMain ∧ 7 < 8 ∧ (List.replicate 8 (0 : Word)).length ≤ 8 ∧ (0 : Nat) % 128 = 0 :=
  ⟨plain_of (by decide +kernel), by decide +kernel⟩

/-- An unused frame, a used one, a bad one; images, schedules, spillways, TVEC; the first reserved codes on both sides. -/
theorem witness_ConfigurationRequests :
    (∀ p ∈ ([(0x01, 1, [255, word (2 ^ 63 + 256)], 2), (0x01, 0, [0, word (2 ^ 63)], 2), (0x01, 1, [255, 0], 2), (0x01, 2, [0, 0], 2), (0x01, 0, [256, 0], 2),
          (0x02, 1, [255, 1], 2), (0x02, 2, [0, 0], 2), (0x03, 1, [255], 1), (0x03, 2, [0], 1), (0x04, 1, [255, 0x1001], 2), (0x04, 1, [255, 0], 2),
          (0x04, 2, [0, 0], 2), (0x05, 255, [0x100001000, 2, 0, 0, 0, 0], 6), (0x05, 0, [0x100001000, 2, 0, 0, 0, 0], 6), (0x06, 0, [0, 0], 2),
          (0x06, 0, [0, 1025], 2), (0x07, 1, [1], 1), (0x08, 0x1047, [0xFFFE], 1), (0x00, 0, [], 6), (0x15, 0, [], 6)] :
          List (Nat × Nat × List Word × Nat)),
        let s := request p.1 p.2.1 p.2.2.1 [0x7E, 0] begins
        (∃ ws, s.Requested 7 0 ws p.1 p.2.2.2) ∧ s.parked = [] ∧ (asks s 7) = some (p.2.1, p.2.2.1 ++ List.replicate (6 - p.2.2.1.length) 0)
          ∧ s.frameUsed 1 255 = false ∧ s.frameUsed 0 0 = true ∧ s.groupUsed 255 = false ∧ s.groupUsed 0 = true
          ∧ (s.hostBytes 0x100001000 2).isSome = true ∧ (s.dieAt 1).sluiceq = [] ∧ (s.dieAt 1).waiters = [] ∧ bit (s.dieAt 1).spill 0 = false
          ∧ bit (s.frameAt 1 255).fq 0 = false)
    ∧ (request 4 1 [255, 0x1001] [] State.reset).PlainMain
    ∧ (let s := (request 0x07 1 [1] [] State.reset).modDie 1 fun d => { d with waiters := [⟨⟨0, 0, 0⟩, 0, 0, 0, 0⟩], spill := 1 }
       (s.dieAt 1).waiters ≠ [] ∧ bit (s.dieAt 1).spill 0 = true ∧ (∀ b ∈ s.host.begun, b.chan ≠ 7))
    ∧ (let s := request 0x07 1 [1] [] State.reset
       askedB { s with host := { s.host with begun := [⟨7, 0, word (0x07 * 2 ^ 56 + 2 ^ 32) :: 0 :: List.replicate 14 0⟩] } } 7 0x07 1 = true) := by
  refine ⟨?_, plain_of (by decide +kernel), by decide +kernel, by decide +kernel⟩
  intro p hp s
  have h : askedB s 7 p.1 p.2.2.2 = true ∧ s.parked = [] ∧ (asks s 7) = some (p.2.1, p.2.2.1 ++ List.replicate (6 - p.2.2.1.length) 0)
      ∧ s.frameUsed 1 255 = false ∧ s.frameUsed 0 0 = true ∧ s.groupUsed 255 = false ∧ s.groupUsed 0 = true
      ∧ (s.hostBytes 0x100001000 2).isSome = true ∧ (s.dieAt 1).sluiceq = [] ∧ (s.dieAt 1).waiters = [] ∧ bit (s.dieAt 1).spill 0 = false
      ∧ bit (s.frameAt 1 255).fq 0 = false := by
    revert p
    decide +kernel
  exact ⟨asked_of h.1, h.2⟩

theorem witness_ServiceRequests :
    (∀ p ∈ ([(0x09, 0xFFFF, [0x2001], 1), (0x09, 255, [0x2001], 1), (0x0A, 0xFFFF, [0x100000000, 1], 2), (0x0A, 255, [0x100000000, 0], 2), (0x0B, 63, [0], 1),
          (0x0C, 0x1047, [0xFF], 1), (0x0D, 0, [0x100001000], 1), (0x0E, 4095, [0x100002000], 1), (0x0E, 1, [0x100002000], 1), (0x0F, 1, [0x100002000], 1),
          (0x10, 0, [0x100002000], 1), (0x11, 0, [], 0), (0x12, 15, [0x100001000, 32], 2), (0x13, 0, [0x100002000, 1024], 2)] :
          List (Nat × Nat × List Word × Nat)),
        let b := request p.1 p.2.1 p.2.2.1 (dwordBytes [0x10002, 0x20000, 0, 0]) begins
        let s := { b with sec := { b.sec with regions := [(1, { live := true, base := 9, limit := 9 })] } }
        (∃ ws, s.Requested 7 0 ws p.1 p.2.2.2) ∧ s.parked = [] ∧ (asks s 7) = some (p.2.1, p.2.2.1 ++ List.replicate (6 - p.2.2.1.length) 0)
          ∧ s.host.pins = [] ∧ s.inbound = [] ∧ s.ringq = [] ∧ s.engines = [] ∧ s.host.queues = [] ∧ s.formsIn = [] ∧ s.core.sb = []
          ∧ s.core.task.ex.wait = none ∧ s.core.task.ac.wait = none ∧ Tab.wf (0, 0) s.tlb = true ∧ (s.engineAt 63 0).halted = false
          ∧ (s.hostBytes 0x100001000 32).isSome = true ∧ (s.region 2).live = false ∧ (s.region 1).live = true ∧ (s.region 4095).live = false
          ∧ s.badDescriptor 0x10002 0x20000 0 = false ∧ (s.hostBuffer 0x100002000).isSome = true ∧ s.seqHeld = false ∧ s.meteredPending = false)
    ∧ (request 0x0E 1 [0x100002000] [] State.reset).PlainMain
    ∧ (let s := (request 0x0B 63 [0] [] State.reset).modEngine 63 0 fun e => { e with halted := true, queue := [{ aCmd with ill := true }] }
       (s.engineAt 63 0).halted = true)
    ∧ (let r := dwords 32 (launchRecord 0)
       let b := request 0x0F 1 [0x100002000] [] State.reset
       let s := b.modDie 0 fun d => { d with frames := [(0, { frame0 with metered := true })], pending := [(0, { live := true, record := r, cores := [0] })] }
       s.meteredPending = true) := by
  refine ⟨?_, plain_of (by decide +kernel), by decide +kernel, by decide +kernel⟩
  intro p hp b s
  have h : askedB s 7 p.1 p.2.2.2 = true ∧ s.parked = [] ∧ (asks s 7) = some (p.2.1, p.2.2.1 ++ List.replicate (6 - p.2.2.1.length) 0)
          ∧ s.host.pins = [] ∧ s.inbound = [] ∧ s.ringq = [] ∧ s.engines = [] ∧ s.host.queues = [] ∧ s.formsIn = [] ∧ s.core.sb = []
          ∧ s.core.task.ex.wait = none ∧ s.core.task.ac.wait = none ∧ Tab.wf (0, 0) s.tlb = true ∧ (s.engineAt 63 0).halted = false
          ∧ (s.hostBytes 0x100001000 32).isSome = true ∧ (s.region 2).live = false ∧ (s.region 1).live = true ∧ (s.region 4095).live = false
          ∧ s.badDescriptor 0x10002 0x20000 0 = false ∧ (s.hostBuffer 0x100002000).isSome = true ∧ s.seqHeld = false ∧ s.meteredPending = false := by
    revert p
    decide +kernel
  exact ⟨asked_of h.1, h.2⟩

/-- A debug request for core 0: slot 0, an item, an index, the buffer at PA 0x2000 of a size, and what item 10 writes. -/
def debugRequest (item index size handle : Nat) (s : State) : State :=
  request 0x14 0 [0, word item, word index, 0x100002000, word size, word handle] [] s

theorem witness_DebugRequests :
    let m := begins.modDie 0 fun d => { d with frames := [(0, { frame0 with metered := true })] }
    let h := { begins with core := { begins.core with dbg := { halted := true } } }
    (∀ p ∈ ([0, 1, 2, 7, 10].map fun i => (i, 0, 0, m)) ++ ([0, 10].map fun i => (i, 0, 0, begins)) ++ [(10, 0x21F, 0xFFFF, h), (10, 0x201, 1, h)]
          ++ ([0, 2, 9].map fun i => (i, 0, 0, h)) ++ [(1, 3), (4, 1), (5, 0x3F02), (6, 0x100000008), (8, 128)].map fun i => (i.1, i.2, 0, h),
        let s := debugRequest p.1 p.2.1 16384 p.2.2.1 p.2.2.2
        (∃ ws, s.Requested 7 0 ws 0x14 6) ∧ s.parked = []
          ∧ (asks s 7) = some (0, [0, word p.1, word p.2.1, 0x100002000, 16384, word p.2.2.1])
          ∧ ((s.coreAt 0).inSlot 0).isSome = true ∧ (s.coreAt 0).running = true ∧ (s.coreAt 0).task.info.slot = 0
          ∧ (s.vaPieces s.hostXlate true 0x100002000 16384).isSome = true ∧ (s.hostBytes 0x100002000 8).isSome = true
          ∧ s.handleOk 0 0 0xFFFF = true ∧ s.handleOk 0 0 1 = false)
    ∧ (let t := { begins.task with info := { begins.task.info with status := .blocked } }
       let s := { begins with core := { begins.core with running := false, slots := [(0, t)] } }
       (s.coreAt 0).inSlot 0 = some t ∧ t.info.status = .blocked)
    ∧ (let t := { begins.task with info := { begins.task.info with status := .ready, saved := true } }
       let s := { begins with core := { begins.core with running := false, slots := [(0, t)] } }
       (s.coreAt 0).inSlot 0 = some t ∧ t.info.status ≠ .running ∧ t.info.saved = true)
    -- a line of a registered region, and one of none
    ∧ (let b := debugRequest 8 128 16384 0 begins
       let s := { b with sec := { b.sec with regions := [(1, { live := true })] } }
       (s.regionOf 128).isSome = true ∧ b.regionOf 128 = none)
    ∧ (let s := debugRequest 3 3 48 0 (atBarrier [⟨3, 0, false, false⟩])
       ∃ t l b, (s.coreAt 0).inSlot 0 = some t ∧ t.info.launch = some l ∧ (s.dieAt l.die).barriers = [b] ∧ b.cores = [0] ∧ b.entry = l.entry ∧ b.tag = 3
         ∧ b.arrived = [] ∧ b.ended = [] ∧ (s.coreAt 0).tasks = [t] ∧ t.barIf 3 = some ⟨3, 0, false, false⟩
         ∧ (s.vaPieces s.hostXlate true 0x100002000 48).isSome = true) := by
  refine ⟨?_, by decide +kernel, by decide +kernel, by decide +kernel, _, _, _, rfl, rfl, rfl, by decide +kernel⟩
  intro p hp s
  have h : askedB s 7 0x14 6 = true ∧ s.parked = []
          ∧ (asks s 7) = some (0, [0, word p.1, word p.2.1, 0x100002000, 16384, word p.2.2.1])
          ∧ ((s.coreAt 0).inSlot 0).isSome = true ∧ (s.coreAt 0).running = true ∧ (s.coreAt 0).task.info.slot = 0
          ∧ (s.vaPieces s.hostXlate true 0x100002000 16384).isSome = true ∧ (s.hostBytes 0x100002000 8).isSome = true
          ∧ s.handleOk 0 0 0xFFFF = true ∧ s.handleOk 0 0 1 = false := by
    revert p
    decide +kernel
  exact ⟨asked_of h.1, h.2⟩

theorem witness_HaltingAndIllegalEncodings :
    begins.Parked ∧ (0x1047 ≤ 0x1047)
    ∧ (let d : CoreDebug := { stepping := true }
       let s := { State.reset with core := { State.reset.core with dbg := d } }
       (s.coreAt 0).dbg.stepping = true ∧ (s.coreAt 0).running = false)
    ∧ ((begins.coreAt 0).activeStream 0 = some begins.task.ex ∧ (begins.coreAt 0).task.info.carried = none ∧ (begins.coreAt 0).dbg.halted = false
        ∧ ((begins.coreAt 0).dbg.bp.toList.all fun b => !bit b 63 || decide (bits b 1 15 * 2 ≠ 0)) = true ∧ (begins.coreAt 0).dbg.pass = [])
    ∧ (let s := { begins with core := { begins.core with dbg := { bp := begins.core.dbg.bp.set 3 0x8000000000000000 } } }
       ∃ b ∈ (s.coreAt 0).dbg.bp.toList, bit b 63 = true ∧ bits b 1 15 * 2 = 0)
    ∧ begins.Ready
    ∧ (let s := start fun t => { t with info := { t.info with carried := some [0] } }
       s.core.running = true ∧ s.strm.wait = none ∧ s.strm.reply = none ∧ s.task.info.carried = some [0] ∧ bit ((1#32).setWidth 64) 0 = true) :=
  ⟨parked_of rfl, by decide, by decide +kernel, by decide +kernel, ⟨0x8000000000000000, by decide +kernel, by decide +kernel⟩, ready_of (by decide +kernel),
    by decide +kernel⟩

/-! ### The whole machine: the statements' hypotheses -/

/-- Labels {1} and {2} under handles 1 and 2: a product that exists (ALWAYS with 1), one that must be written (1 with 2), one that a nogood
clears, one where the table is full (NEXT = CAP, CAP = 0, NEXT past CAP), and one past 15 environments under either policy. -/
theorem witness_ProductAndInterning :
    (let s := assumed 2 (assumed 1 (labelled [] State.reset))
     let l := s.rawProduct 0 0 [1, 2]
     s.PlainMain ∧ 1 ≤ (s.frameAt 0 0).next.toNat ∧ (s.frameAt 0 0).next = 3 ∧ (s.frameAt 0 0).next.toNat ≤ (s.frameAt 0 0).cap.toNat
       ∧ l.envs = [6] ∧ s.labOf 0 0 1 ≠ l ∧ s.labOf 0 0 2 ≠ l ∧ s.rawProduct 0 0 [1] = s.labOf 0 0 1 ∧ (s.frameAt 0 0).next ≠ (s.frameAt 0 0).cap
       ∧ (s.rawProduct 0 0 [0, 0]).envs = [0])
    ∧ (let s := (assumed 2 (assumed 1 (labelled [] State.reset))).modDie 0 fun d => { d with frames := [(0, { frame0 with cap := 3, next := 3, nogoods := [6] })] }
       (s.rawProduct 0 0 [1, 2]).envs = [] ∧ (s.frameAt 0 0).next = (s.frameAt 0 0).cap ∧ 1 ≤ (s.frameAt 0 0).next.toNat)
    ∧ (∀ n ∈ [0, 2, 3], let s := (assumed 2 (assumed 1 (labelled [] State.reset))).modDie 0 fun d =>
         { d with frames := [(0, { frame0 with cap := BitVec.ofNat 16 n, next := 3 })] }
       (s.frameAt 0 0).cap.toNat ≤ (s.frameAt 0 0).next.toNat ∧ (s.rawProduct 0 0 [1, 2]).envs = [6] ∧ s.labOf 0 0 1 ≠ s.rawProduct 0 0 [1, 2]
         ∧ s.labOf 0 0 2 ≠ s.rawProduct 0 0 [1, 2])
    ∧ (∀ p ∈ [true, false], let es := (List.range 15).map fun n => BitVec.ofNat 64 (2 ^ n)
       let fs := (List.range 2).map fun n => BitVec.ofNat 64 (2 ^ (n + 20))
       let b := (labelled [] State.reset).modDie 0 fun d => { d with frames := [(0, { frame0 with cap := 16, next := 3, policy := p })] }
       let s := mainAt 256 (recordBytes 0 2 { envs := fs }) (mainAt 128 (recordBytes 0 1 { envs := es }) b)
       15 < (s.rawProduct 0 0 [1, 2]).envs.length ∧ (s.frameAt 0 0).policy = p ∧ (s.frameAt 0 0).next.toNat < (s.frameAt 0 0).cap.toNat
         ∧ s.PlainMain) := by
  refine ⟨⟨plain_of (by decide +kernel), by decide +kernel⟩, by decide +kernel, by decide +kernel, ?_⟩
  intro p hp
  simp only [List.mem_cons, List.not_mem_nil, or_false] at hp
  rcases hp with rfl | rfl <;> exact ⟨by decide +kernel, by decide +kernel, by decide +kernel, plain_of (by decide +kernel)⟩

/-- x2 and x3 under labels 1 and 2, whose Product must be written; and a result that goes to x0. -/
theorem writes_add {s : State} (h : s.Ready) : Writes (.add 1 2 3) s 4 1 (s.xv 2 + s.xv 3) [s.xl 2, s.xl 3] :=
  Writes.bin h rfl rfl rfl rfl

theorem writes_add_zero {s : State} (h : s.Ready) : Writes (.add 0 2 3) s 4 0 (s.xv 2 + s.xv 3) [s.xl 2, s.xl 3] :=
  Writes.bin h rfl rfl rfl rfl

/-- Two labelled operands in x2 and x3. -/
def twoLabelled : State :=
  (assumed 2 (assumed 1 (labelled [] begins))).modTask fun t =>
    { t with regs := { t.regs with x := (t.regs.x.set 2 ⟨5, 1⟩).set 3 ⟨7, 2⟩ } }

theorem witness_RegisterResultFrame :
    let s := twoLabelled
    s.Ready ∧ Writes (.add 1 2 3) s 4 1 (s.xv 2 + s.xv 3) [s.xl 2, s.xl 3] ∧ s.PlainMain ∧ Memory.wf s.mem = true
      ∧ ok (s.prod ([s.xl 2, s.xl 3] ++ [s.dep])) = true
      ∧ Writes (.add 0 2 3) begins 4 0 (begins.xv 2 + begins.xv 3) [begins.xl 2, begins.xl 3] := by
  have h : twoLabelled.Ready := ready_of (by decide +kernel)
  exact ⟨h, writes_add h, plain_of (by decide +kernel), by decide +kernel, by decide +kernel,
    writes_add_zero (ready_of (by decide +kernel))⟩

/-- Loop registers whose ends stand at the PC or not, with counts 0, 1 and 2. -/
def looped (le0 : Nat) (lc0 : Word) (le1 : Nat) (lc1 : Word) : State :=
  start fun t => { t with loops := { le0 := BitVec.ofNat 16 le0, lc0 := lc0, le1 := BitVec.ofNat 16 le1, lc1 := lc1 } }

theorem witness_RetirementAndLoops :
    (∀ s ∈ [looped 4 0 4 0, looped 0 2 4 0, looped 0 1 4 2, looped 0 1 0 2, looped 0 1 0 1, looped 4 2 0 2, looped 4 2 0 1, looped 0 0 0 (-1)],
      beginsB s = true ∧ s.actStream = 0 ∧ s.core.regs.act = false ∧ s.task.moot = false)
    ∧ (access id).Ready ∧ (access id).actStream = 1
    ∧ (0 ≤ (begins.pc : Int) + 2 * (0x3FF#11).toInt ∧ (begins.pc : Int) + 2 * (0x3FF#11).toInt ≤ 0xFFFE)
    ∧ (let s := { begins with core := { begins.core with regs := { begins.core.regs with tvec := 0x40 } } }
       s.Ready ∧ s.core.regs.act = false ∧ s.core.regs.tvec ≠ 0 ∧ s.task.moot = false) :=
  ⟨by decide +kernel, ready_of (by decide +kernel), by decide +kernel, by decide +kernel, ready_of (by decide +kernel), by decide +kernel⟩

/-- A core with its trap registers as given, frame 0's fault queue of one entry at PA 0x2000 enabled or not, TAIL as given. -/
def trapping (act stream : Bool) (tvec : BitVec 16) (q : Word) (tail : Nat) : State :=
  let b := mainAt 0x2000 (leBytes 8 tail) { begins with core := { begins.core with regs := { begins.core.regs with act := act, trapStream := stream, tvec := tvec } } }
  b.modDie 0 fun d => { d with frames := [(0, { frame0 with fq := q })] }

/-- A moot task, and a class-0 one. -/
theorem witness_TrapsOfMootAndClass0 :
    ∀ p ∈ [(start fun t => { t with info := { t.info with dead := true } }, true, false), (start fun t => { t with info := { t.info with carried := some [1, 0] } }, false, true)],
      let s := p.1
      s.core.running = true ∧ s.strm.wait = none ∧ s.strm.reply = none ∧ s.task.spCount < 1024 ∧ s.task.moot = p.2.1
        ∧ s.task.info.carried.isSome = p.2.2 ∧ s.core.regs.act = false := by decide +kernel

theorem witness_TrapsEnterOrRetire :
    (∀ p ∈ [(trapping false false 0x40 0 0, 0), (trapping true true 0x40 0 0, 1), (trapping true false 0x40 0 0, 2), (trapping false false 0 0 0, 2),
          (trapping false false 0 0x2001 0, 3), (trapping false false 0 0x2001 1, 4)],
        let s := p.1
        let k := s.core.regs
        let here := k.trapStream = decide (s.actStream = 1)
        let q := (s.frameAt s.die s.task.frame).fq
        let used := (leNat (s.mainBytes (bits q 12 36 * 4096) 8) + 2 ^ 64 - leNat (s.mainBytes (bits q 12 36 * 4096 + 8) 8)) % 2 ^ 64
        beginsB s = true ∧ s.actStream ≤ 1 ∧ s.task.moot = false ∧ s.storesLeft s.core.num s.task.info.uid = false
          ∧ (if p.2 = 0 then k.act = false ∧ k.tvec ≠ 0 else if p.2 = 1 then k.act = true ∧ ¬here
             else ((k.act = true ∧ here) ∨ (k.act = false ∧ k.tvec = 0)) ∧ (bit q 0 = decide (2 < p.2)) ∧ (p.2 = 3 → used < 2 ^ bits q 8 4)
               ∧ (p.2 = 4 → 2 ^ bits q 8 4 ≤ used)))
    ∧ (trapping false false 0 0x2001 0).PlainMain
    ∧ (let s := { begins with inbound := [aStore .main false []] }
       s.Ready ∧ s.core.regs.act = false ∧ s.core.regs.tvec = 0 ∧ s.storesLeft s.core.num s.task.info.uid = true) :=
  ⟨by decide +kernel, plain_of (by decide +kernel), ready_of (by decide +kernel), by decide +kernel⟩

/-- A 16-bit and a 32-bit form with their operands at the ends of their fields. -/
theorem witness_DecodeEncodeAgree :
    (∃ n w, encode (.cAddi 31 0x3F) = some (n, w) ∧ wellFormed (.cAddi 31 0x3F) = true)
    ∧ (∃ n w, encode (.addi 31 31 0xFFF) = some (n, w) ∧ wellFormed (.addi 31 31 0xFFF) = true)
    ∧ (∃ i, (0x57A2 : Nat) < 2 ^ 16 ∧ decodeTableWord 16 0x57A2 = some i) ∧ ∃ i, (0x00BCA503 : Nat) < 2 ^ 32 ∧ decodeTableWord 32 0x00BCA503 = some i :=
  ⟨⟨_, _, rfl, rfl⟩, ⟨_, _, rfl, rfl⟩, ⟨.cAddi 10 0x3D, by decide, by decide +kernel⟩, ⟨.or 10 10 11, by decide, by decide +kernel⟩⟩

theorem witness_StepRunsTheFetchedInstruction :
    -- a 32-bit instruction in the last four bytes of the store, and a 16-bit one in the last two
    (∀ p ∈ [(Instr.or 10 10 11, 0xFFFC), (.cAddi 10 0x3D, 0xFFFE)],
      let e := (encode p.1).getD (0, 0)
      let b := start (atPc p.2)
      let s := { b with mem := { b.mem with imem := Tab.fill 0 b.mem.imem p.2 (leBytes (e.1 / 8) e.2) } }
      encode p.1 = some e ∧ wellFormed p.1 = true ∧ s.task.info.carried = none ∧ s.pc + e.1 / 8 ≤ 65536
        ∧ (∀ k, k < e.1 / 8 → s.imemByte (groupOf s.core.num) (s.pc + k) = BitVec.ofNat 8 (e.2 / 256 ^ k)) ∧ s.fetch = .instr p.1
        ∧ s.core.atBreak s.actStream = false ∧ s.runnable = true ∧ s.schedule = [] ∧ s.turn = false ∧ s.bankLoses = false)
    -- a load whose bank another core has had in this cycle
    ∧ (let b := program 0 [((encode (.ldD 3 1 0)).getD (0, 0)).2] begins
       let s := { b with banks := [(bankOf 0, (b.cycle + 1, 5))] }
       s.fetch = .instr (.ldD 3 1 0) ∧ s.runnable = true ∧ s.bankLoses = true ∧ s.schedule = [] ∧ s.turn = false)
    ∧ (let s := { begins with schedule := [.stream 0 0, .event (.halt 0)] }
       s.schedule = .stream s.core.num s.actStream :: [.event (.halt 0)] ∧ s.fetch = .instr (.hint 0))
    ∧ (let b := program 0 [1] begins
       b.fetch = .illegal 1 ∧ b.core.atBreak b.actStream = false ∧ b.runnable = true ∧ b.schedule = [] ∧ b.turn = false ∧ b.bankLoses = false)
    ∧ begins.Parked ∧ begins.ringq = [] ∧ begins.host.queues = [] ∧ begins.host.debugq = [] ∧ begins.host.giariq = []
    ∧ ∀ d, d < 2 → (begins.dieAt d).barriers = [] :=
  ⟨by decide +kernel, by decide +kernel, by decide +kernel, by decide +kernel, parked_of rfl, by decide +kernel⟩

theorem witness_StepKeepsMemoryForm : Memory.wf begins.mem = true ∧ ∃ t, step begins = .next t := by
  refine ⟨by decide +kernel, ?_⟩
  have h : (outcome (step begins)).isSome = true := by decide +kernel
  cases hs : step begins with
  | next t => exact ⟨t, rfl⟩
  | fault f => rw [hs] at h; cases h
  | refused r => rw [hs] at h; cases h

theorem witness_StepKeepsTables : begins.Tables ∧ ∃ t, step begins = .next t :=
  ⟨⟨parked_of rfl, by decide +kernel, fun _ _ => rfl⟩, witness_StepKeepsMemoryForm.2⟩

/-- Of each format with infinities: the largest finite value, an infinity, a NaN and a zero; of E4M3 the largest value, and a NaN. -/
theorem witness_FloatingOperationsRound :
    (∀ p ∈ [(fp32, 0x7F7FFFFF), (fp16, 0x7BFF), (bf16, 0x7F7F)], let f := p.1
      p.2 < 2 ^ f.width ∧ f.Finite p.2 ∧ f.Infinite (p.2 + 1) ∧ f.NaN (p.2 + 2) ∧ p.2 + 2 < 2 ^ f.width ∧ f.Finite 0)
    ∧ e4m3.Finite 0x7E ∧ e4m3.NaN 0x7F ∧ e5m2.Infinite 0x7C ∧ (0 : Nat) < 8 := by
  unfold Fmt.Finite
  decide +kernel

/-- Zeros have the value 0, and 1.0 has another. -/
theorem witness_FloatingValues : fp32.real 0 = 0 ∧ fp32.real 0x80000000 = 0 ∧ fp32.real 0x3F800000 = 1 := by
  norm_num [Fmt.real, Fmt.signOf, Fmt.expOf, Fmt.fracOf, fp32]
/-! ### Results of single instructions -/

/-- x1 and x2 given, each instruction's x3 as the spec's sentence about it gives it (R210). -/
theorem test_integer : ∀ p ∈ ([
    (.add 3 1 2, -1, 2, 1), (.sub 3 1 2, 3, 5, 0xFFFFFFFFFFFFFFFE), (.xor 3 1 2, 0xF0, 0xFF, 0x0F), (.andn 3 1 2, 0xFF, 0x0F, 0xF0),
    (.orn 3 1 2, 1, 0xFFFFFFFFFFFFFFF0, 0x0F), (.xnor 3 1 2, 0xF0, 0xFF, 0xFFFFFFFFFFFFFFF0), (.or 3 1 2, 0xF0, 0x0F, 0xFF),
    (.and 3 1 2, 0xFC, 0x3F, 0x3C), (.shl 3 1 2, 3, 65, 6), (.shr 3 1 2, 0x8000000000000000, 63, 1),
    (.sar 3 1 2, 0x8000000000000000, 63, -1), (.rotl 3 1 2, 0x8000000000000001, 1, 3),
    (.rotr 3 1 2, 3, 1, 0x8000000000000001), (.cmplt 3 1 2, -1, 1, 1), (.cmpltu 3 1 2, -1, 1, 0), (.cmpeq 3 1 2, 4, 4, 1),
    (.min 3 1 2, -1, 1, -1), (.max 3 1 2, -1, 1, 1), (.minu 3 1 2, -1, 1, 1), (.maxu 3 1 2, -1, 1, -1),
    (.clz 3 1, 1, 0, 63), (.ctz 3 1, 0x80, 0, 7), (.pop 3 1, 0xFF00, 0, 8), (.clz 3 1, 0, 0, 64), (.ctz 3 1, 0, 0, 64),
    (.sextB 3 1, 0x80, 0, 0xFFFFFFFFFFFFFF80), (.sextH 3 1, 0x18000, 0, 0xFFFFFFFFFFFF8000), (.sextW 3 1, 0x180000000, 0, 0xFFFFFFFF80000000),
    (.zextB 3 1, 0x1FF, 0, 0xFF), (.zextH 3 1, 0x1FFFF, 0, 0xFFFF), (.zextW 3 1, -1, 0, 0xFFFFFFFF),
    (.bswap 3 1, 0x0102030405060708, 0, 0x0807060504030201), (.bitrev 3 1, 1, 0, 0x8000000000000000),
    (.mul 3 1 2, -1, 3, -3), (.mulxSs 3 1 2, -1, 3, -1), (.mulxUu 3 1 2, -1, 3, 2), (.mulxSu 3 1 2, -1, -1, -1),
    (.quot 3 1 2, -7, 2, -3), (.quotu 3 1 2, 7, 2, 3), (.remd 3 1 2, -7, 2, -1), (.remdu 3 1 2, 7, 2, 1),
    (.quot 3 1 2, 7, 0, 0), (.quotu 3 1 2, 7, 0, 0), (.remd 3 1 2, -7, 0, -7), (.remdu 3 1 2, 7, 0, 7)] : List (Instr × Word × Word × Word)),
    after p.1 (start (xs [(1, p.2.1), (2, p.2.2.1)])) (fun s => (s.xv 3, s.pc)) = some (p.2.2.2, 4) := by decide +kernel

/-- x1 given, x3 of the immediate forms (R211, R212, R214, R206); a compressed form advances the PC by 2. -/
theorem test_immediates : ∀ p ∈ ([
    (.addi 3 1 0xFFF, 1, 0), (.slli 3 1 63, 3, 0x8000000000000000), (.rotli 3 1 4, 0xF000000000000000, 0xF), (.cmplti 3 1 0, -1, 1),
    (.cmpltiu 3 1 0xFFF, 5, 1), (.xori 3 1 0xFFF, 0, -1), (.srli 3 1 60, -1, 0xF), (.srai 3 1 63, -1, -1), (.rotri 3 1 4, 0xF, 0xF000000000000000),
    (.ori 3 1 0x800, 1, 0xFFFFFFFFFFFFF801), (.andi 3 1 0xFF0, 0x1234, 0x1230), (.hiimm 3 0x80000, 0, 0xFFFFFFFF80000000)] : List (Instr × Word × Word)),
    after p.1 (start (xs [(1, p.2.1)])) (fun s => (s.xv 3, s.pc)) = some (p.2.2, 4) := by decide +kernel

theorem test_compressed : ∀ p ∈ ([
    (.cAddi 3 0x3F, 5, 4), (.cSet 3 0x20, 5, -32), (.cMv 3 1, 5, 7), (.cAdd 3 1, 5, 12), (.cSub 3 1, 5, -2), (.cAnd 3 1, 5, 5), (.cOr 3 1, 5, 7),
    (.cXor 3 1, 5, 2), (.cSlli 3 1, 5, 10), (.cSrli 3 2, 5, 1), (.cNop, 5, 5)] : List (Instr × Word × Word)),
    after p.1 (start (xs [(1, 7), (3, p.2.1)])) (fun s => (s.xv 3, s.pc)) = some (p.2.2, 2) := by decide +kernel

/-- At P = 0x40 with x1 = −1 and x2 = 1: the next PC (R213, R215, R217; R206's compressed branches at x10 = 0 and x9 = 5). -/
theorem test_control : ∀ p ∈ ([
    (.beq 1 1 8, 0x50), (.beq 2 1 8, 0x44), (.bne 2 1 0xFFF, 0x3E), (.blt 2 1 8, 0x50), (.bge 2 1 8, 0x44), (.bltu 2 1 8, 0x44),
    (.bgeu 2 1 8, 0x50), (.jump 5 0xFFFFF, 0x3E), (.jr 5 2 0x0FF, 0x100), (.cBz 2 0xFF, 0x3E), (.cBnz 2 4, 0x42), (.cBnz 1 4, 0x48),
    (.cJump 0x7FF, 0x3E), (.hint 77, 0x44)] : List (Instr × Nat)),
    after p.1 (start fun t => atPc 0x40 (xs [(1, -1), (2, 1), (9, 5)] t)) (·.pc) = some p.2 := by decide +kernel

theorem test_links : ∀ p ∈ ([(.jump 3 4, 0x44), (.jr 3 1 0, 0x44), (.pcadd 3 1 0xFFF, 0x13B)] : List (Instr × Word)),
    after p.1 (start fun t => atPc 0x40 (xs [(1, 0x100)] t)) (·.xv 3) = some p.2 := by decide +kernel

/-- Loop 1 over the next two instructions: LB, LE and LC (R217). -/
theorem test_loops : ∀ p ∈ ([(.loop 1 1 4, (4, 8, 9)), (.loopi 1 3 4, (4, 8, 3))] : List (Instr × BitVec 16 × BitVec 16 × Word)),
    after p.1 (start (xs [(1, 9)])) (fun s => (s.task.loops.lb1, s.task.loops.le1, s.task.loops.lc1)) = some p.2 := by decide +kernel
/-- Bytes 80 FF 7F 01 02 03 04 05 from byte address 0x100 of own scratchpad, x1 = 0x100: x3 of each load (R240, R206, R94). -/
theorem test_loads : ∀ p ∈ ([
    (.ldB 3 1 0, 0xFFFFFFFFFFFFFF80), (.ldH 3 1 0, 0xFFFFFFFFFFFFFF80), (.ldW 3 1 0, 0x017FFF80), (.ldD 3 1 0, 0x05040302017FFF80),
    (.ldBu 3 1 1, 0xFF), (.ldHu 3 1 0, 0xFF80), (.ldWu 3 1 4, 0x05040302), (.ldB 3 2 0xFFF, 5)] : List (Instr × Word)),
    after p.1 (scratch 0x100 [0x80, 0xFF, 0x7F, 1, 2, 3, 4, 5] (start (xs [(1, 0x100), (2, 0x108)]))) (·.xv 3) = some p.2 := by decide +kernel

theorem test_compressed_loads : ∀ p ∈ ([(.cLdD 3 1 1, 0x05040302017FFF80), (.cLdW 3 1 2, 0x017FFF80)] : List (Instr × Word)),
    after p.1 (scratch 0x100 [0x80, 0xFF, 0x7F, 1, 2, 3, 4, 5] (start (xs [(9, 0xF8)]))) (·.xv 11) = some p.2 := by decide +kernel

/-- x2 = −2: the address and the bytes that wait in the store buffer (R242, R206). -/
theorem test_stores : ∀ p ∈ ([
    (.stB 2 1 1, [(0x101, [0xFE])]), (.stH 2 1 2, [(0x102, [0xFE, 0xFF])]), (.stW 2 1 0xFFC, [(0xFC, [0xFE, 0xFF, 0xFF, 0xFF])]),
    (.stD 2 1 0, [(0x100, [0xFE, 0xFF, 0xFF, 0xFF, 0xFF, 0xFF, 0xFF, 0xFF])]),
    (.cStW 2 1 1, [(0x104, [7, 0, 0, 0])]), (.cStD 2 1 1, [(0x108, [7, 0, 0, 0, 0, 0, 0, 0])])] : List (Instr × List (Nat × List Byte))),
    after p.1 (start (xs [(1, 0x100), (2, -2), (9, 0x100), (10, 7)])) (fun s => s.core.sb.map fun e => (e.addr, e.bytes)) = some p.2 := by
  decide +kernel

/-- A dword of −5 at 0x100 of own scratchpad, x2 = 3, x3 = −5 before (R248): x3 after and the dword after. -/
theorem test_atomics : ∀ p ∈ ([
    (.amoAddD 3 1 2, -5, -2), (.amoAndD 3 1 2, -5, 3), (.amoOrD 3 1 2, -5, -5), (.amoXorD 3 1 2, -5, -8), (.amoMinD 3 1 2, -5, -5),
    (.amoMaxD 3 1 2, -5, 3), (.amoSwapD 3 1 2, -5, 3), (.amoCasD 3 1 2, -5, 3), (.amoMinuD 3 1 2, -5, 3), (.amoMaxuD 3 1 2, -5, -5),
    (.amoAddW 3 1 2, -5, 0xFFFFFFFFFFFFFFFE), (.amoAndW 3 1 2, -5, 0xFFFFFFFF00000003), (.amoOrW 3 1 2, -5, -5),
    (.amoXorW 3 1 2, -5, 0xFFFFFFFFFFFFFFF8), (.amoMinW 3 1 2, -5, -5), (.amoMaxW 3 1 2, -5, 0xFFFFFFFF00000003),
    (.amoSwapW 3 1 2, -5, 0xFFFFFFFF00000003), (.amoCasW 3 1 2, -5, 0xFFFFFFFF00000003), (.amoMinuW 3 1 2, 0xFFFFFFFB, 0xFFFFFFFF00000003),
    (.amoMaxuW 3 1 2, 0xFFFFFFFB, -5)] : List (Instr × Word × Word)),
    after p.1 (scratch 0x100 (leBytes 8 (2 ^ 64 - 5)) (start (xs [(1, 0x100), (2, 3), (3, -5)])))
      (fun s => (s.xv 3, word (leNat (s.spmAt 0x100 8)))) = some p.2 := by decide +kernel

/-- 1.5 + 2.25 = 3.75 in FP32; the bank keeps the high word (R152). -/
theorem test_atomic_fadd : after (.amoFadd 3 1 2) (scratch 0x100 (leBytes 8 0x123FC00000) (start (xs [(1, 0x100), (2, 0x40100000)])))
    (fun s => (s.xv 3, word (leNat (s.spmAt 0x100 8)))) = some (0x3FC00000, 0x1240700000) := by decide +kernel

/-- Queues: LDQ is written by the access stream and read by the execute stream (R222). -/
theorem test_queues : ∀ p ∈ ([
    (.qGet 3 0, start fun t => { t with ac := { active := true }, queues := { ldq := [⟨7, 0⟩, ⟨8, 0⟩] } }, (7, [⟨8, 0⟩])),
    (.qPut 1 0, access fun t => xs [(1, 9)] { t with queues := { ldq := [⟨7, 0⟩] } }, (0, [⟨7, 0⟩, ⟨9, 0⟩])),
    (.qCnt 3 0, access fun t => { t with queues := { ldq := [⟨7, 0⟩, ⟨8, 0⟩] } }, (2, [⟨7, 0⟩, ⟨8, 0⟩]))]
      : List (Instr × State × Word × List XReg)),
    after p.1 p.2.1 (fun s => (s.xv 3, s.task.queues.ldq)) = some p.2.2 := by decide +kernel

/-- Lanes of width `w`, the lowest first; the rest 0. -/
def lanesOf (w : Nat) (l : List Nat) : Lanes := BitVec.ofNat 512 (l.foldr (fun x n => x % 2 ^ w + 2 ^ w * n) 0)

/-- The first lanes of v[d] after an instruction on v1 = `a`, v2 = `b`, v3 = `c`, x1 = `x`, k1 = 5. -/
noncomputable def vafter (i : Instr) (w n : Nat) (a b c : List Nat) (x : Word) : Option (List Nat) :=
  after i (start fun t => let t := xs [(1, x)] (vs [(1, lanesOf w a), (2, lanesOf w b), (3, lanesOf w c)] t)
      { t with regs := { t.regs with k := t.regs.k.set 1 ⟨5, always⟩ } }) fun s => (List.range n).map fun j => (lane w (s.v 3).val j).toNat

/-- 8-bit lanes (R271): signed and unsigned readings, saturation, a shift count mod 8, and a mask that enables lanes 0 and 2. -/
theorem test_vector_integer : ∀ p ∈ ([
    (.vadd 3 1 2 2 0, [0x80, 0xFF, 3], [0x80, 2, 4], [0, 1, 7]), (.vsub 3 1 2 2 0, [0, 5, 3], [1, 2, 4], [0xFF, 3, 0xFF]),
    (.vmul 3 1 2 2 0, [0x81, 0xFF, 3], [2, 0xFF, 4], [2, 1, 12]), (.vmulh 3 1 2 2 0, [0x80, 0xFF, 0x7F], [0x80, 1, 0x7F], [0x40, 0xFF, 0x3F]),
    (.vmin 3 1 2 2 0, [0x80, 1, 3], [1, 0xFF, 3], [0x80, 0xFF, 3]), (.vmax 3 1 2 2 0, [0x80, 1, 3], [1, 0xFF, 3], [1, 1, 3]),
    (.vminu 3 1 2 2 0, [0x80, 1, 3], [1, 0xFF, 3], [1, 1, 3]), (.vmaxu 3 1 2 2 0, [0x80, 1, 3], [1, 0xFF, 3], [0x80, 0xFF, 3]),
    (.vadds 3 1 2 2 0, [0x80, 0x7F, 3], [0xFF, 1, 4], [0x80, 0x7F, 7]), (.vaddus 3 1 2 2 0, [0x80, 0xFE, 3], [0xFF, 1, 4], [0xFF, 0xFF, 7]),
    (.vsubs 3 1 2 2 0, [0x80, 0x7F, 3], [1, 0xFF, 4], [0x80, 0x7F, 0xFF]), (.vsubus 3 1 2 2 0, [0x80, 1, 3], [1, 0xFF, 4], [0x7F, 0, 0]),
    (.vand 3 1 2 2 0, [0xFC, 1, 3], [0x3F, 0, 2], [0x3C, 0, 2]), (.vor 3 1 2 2 0, [0xF0, 1, 3], [0x0F, 0, 4], [0xFF, 1, 7]),
    (.vxor 3 1 2 2 0, [0xF0, 1, 3], [0xFF, 0, 1], [0x0F, 1, 2]), (.vandn 3 1 2 2 0, [0xFF, 1, 3], [0x0F, 0, 1], [0xF0, 1, 2]),
    (.vsll 3 1 2 2 0, [0x81, 1, 3], [1, 9, 7], [2, 2, 0x80]), (.vsrl 3 1 2 2 0, [0x81, 2, 0xFF], [1, 9, 7], [0x40, 1, 1]),
    (.vsra 3 1 2 2 0, [0x81, 2, 0xFF], [1, 9, 7], [0xC0, 1, 0xFF]), (.vadd 3 1 2 2 1, [1, 2, 3], [1, 1, 1], [2, 9, 4]),
    (.vmv 3 1 2 1, [1, 2, 3], [1, 1, 1], [1, 9, 3]), (.vsplat 3 1 2 1, [], [], [0x34, 9, 0x34]), (.vins 3 1 1 2, [], [], [9, 9, 9]),
    (.vperm 3 1 2 2 0, [5, 6, 7], [2, 64, 1], [7, 5, 6]), (.vslide 3 1 1 2 0, [5, 6, 7], [], [0, 0, 0]),
    (.vcomp 3 1 2 1, [5, 6, 7], [], [5, 7, 0]), (.vrev 3 1 2 1, [5, 6, 7], [], [0, 9, 0])] : List (Instr × List Nat × List Nat × List Nat)),
    vafter p.1 8 3 p.2.1 p.2.2.1 [9, 9, 9] 0x1234 = some p.2.2.2 := by decide +kernel

theorem test_slide_and_insert :
    vafter (.vslide 3 1 1 0 0) 32 4 [5, 6, 7, 8] [] [9, 9, 9, 9] (-2) = some [0, 0, 5, 6]
    ∧ vafter (.vins 3 1 2 0) 32 4 [] [] [9, 9, 9, 9] 0xFFFFFFFF00000011 = some [0x11, 9, 9, 9]
    ∧ vafter (.vins 3 1 1 2) 8 0x36 [] [] (List.replicate 0x36 9) 0x1234 = some (List.replicate 0x34 9 ++ [0x34, 9]) := by decide +kernel

/-- FP32 lanes 1.5, −0, ∞ with 2.5, 0, −∞ and an addend of 1 (R81, R272): canonical NaNs, signs of zeros, one rounding. -/
theorem test_vector_float : ∀ p ∈ ([
    (.vfadd 3 1 2 0 0, [0x40800000, 0, 0x7FC00000]), (.vfsub 3 1 2 0 0, [0xBF800000, 0x80000000, 0x7F800000]),
    (.vfmul 3 1 2 0 0, [0x40700000, 0x80000000, 0xFF800000]), (.vfdiv 3 1 2 0 0, [0x3F19999A, 0x7FC00000, 0x7FC00000]),
    (.vfmin 3 1 2 0 0, [0x3FC00000, 0x80000000, 0xFF800000]), (.vfmax 3 1 2 0 0, [0x40200000, 0, 0x7F800000]),
    (.vfsqrt 3 1 0 0, [0x3F9CC471, 0x80000000, 0x7F800000]), (.vfma 3 1 2 0 0, [0x40980000, 0x3F800000, 0xFF800000]),
    (.vfnms 3 1 2 0 0, [0xC0300000, 0x3F800000, 0x7F800000])] : List (Instr × List Nat)),
    vafter p.1 32 3 [0x3FC00000, 0x80000000, 0x7F800000] [0x40200000, 0, 0xFF800000] [0x3F800000, 0x3F800000, 0x3F800000] 0 = some p.2 := by
  decide +kernel

/-- FP16: 1 + 2^−11 ties to even; BF16: 1 + 1 (R82). -/
theorem test_short_floats :
    vafter (.vfadd 3 1 2 1 0) 16 2 [0x3C00, 0x3C01] [0x1000, 0x1000] [] 0 = some [0x3C00, 0x3C02]
    ∧ vafter (.vfadd 3 1 2 2 0) 16 1 [0x3F80] [0x3F80] [] 0 = some [0x4000] := by decide +kernel

/-- Masks of compares, lanes as above; bits from N up are 0 and, for a lane that k1 = 5 disables, 0 (R271, R272). -/
theorem test_compares : ∀ p ∈ ([
    (.vcmpEq 2 1 2 2 1, 4), (.vcmpNe 2 1 2 2 1, 1), (.vcmpLt 2 1 2 2 1, 1), (.vcmpGe 2 1 2 2 1, 4), (.vcmpLtu 2 1 2 2 1, 0), (.vcmpGeu 2 1 2 2 1, 5),
    (.vfcmpEq 2 4 5 0 1, 4), (.vfcmpLt 2 4 5 0 1, 1), (.vfcmpLe 2 4 5 0 1, 5), (.kand 2 1 3, 4), (.kor 2 1 3, 0xD), (.kxor 2 1 3, 9), (.knot 2 1, -6),
    (.kfromx 2 1, 0x77), (.kand 2 0 3, 0xC)] : List (Instr × Word)),
    after p.1 (start fun t => let t := xs [(1, 0x77)] (vs [(1, lanesOf 8 [0x80, 1, 3]), (2, lanesOf 8 [1, 1, 3]),
        (4, lanesOf 32 [0x3FC00000, 0x7FC00000, 0x80000000]), (5, lanesOf 32 [0x40200000, 0x7FC00000, 0])] t)
      { t with regs := { t.regs with k := (t.regs.k.set 1 ⟨5, always⟩).set 3 ⟨0xC, always⟩ } }) (fun s => (s.kreg 2).val) = some p.2 := by
  decide +kernel

/-- Results in x3 under k1 = 5, whose lanes 0 and 2 hold 0x80 and 3 (R271, R278, R280). -/
theorem test_reductions : ∀ p ∈ ([
    (.vredsum 3 1 2 1, 0xFFFFFFFFFFFFFF83), (.vredmin 3 1 2 1, 0xFFFFFFFFFFFFFF80), (.vredmax 3 1 2 1, 3), (.vredminu 3 1 2 1, 3),
    (.vredmaxu 3 1 2 1, 0x80), (.vredmin 3 1 2 2, 0x7F), (.vredmax 3 1 2 2, 0xFFFFFFFFFFFFFF80), (.vredminu 3 1 2 2, 0xFF),
    (.vfredsum 3 4 1, 0x40800000), (.vfredmax 3 4 1, 0x40200000), (.vfredmin 3 4 1, 0x3FC00000), (.vfredmax 3 4 2, 0xFF800000), (.vfredsum 3 4 2, 0),
    (.vext 3 1 2 2, 0xFFFFFFFFFFFFFF80), (.ktox 3 1, 5), (.kpop 3 1, 2), (.kpop 3 0, 64)] : List (Instr × Word)),
    after p.1 (start fun t => let t := xs [(2, 64)] (vs [(1, lanesOf 8 [0x80, 1, 3]), (4, lanesOf 32 [0x3FC00000, 0x7FC00000, 0x40200000])] t)
      { t with regs := { t.regs with k := t.regs.k.set 1 ⟨5, always⟩ } }) (fun s => s.xv 3) = some p.2 := by decide +kernel

/-- Lanes 1.5, −300.7 and a NaN of FP32 narrowed, and what widens (R83, R274): the lanes of width `w` from lane `j`. -/
theorem test_conversions : ∀ p ∈ ([
    (.vcvtF16F32 3 1 1 0, 16, 16, [0x3E00, 0xDCB3, 0x7E00]), (.vcvtBf16F32 3 1 0 0, 16, 0, [0x3FC0, 0xC396, 0x7FC0]),
    (.vcvtE4m3F32 3 1 3 0, 8, 48, [0x3C, 0xF9, 0x7F]), (.vcvtE5m2F32 3 1 0 0, 8, 0, [0x3E, 0xDD, 0x7E]),
    (.vcvtI32F32 3 1 0 0, 32, 0, [2, 0xFFFFFED3, 0]), (.vcvtI32F32Rtz 3 1 0 0, 32, 0, [1, 0xFFFFFED4, 0]), (.vcvtUi32F32 3 1 0 0, 32, 0, [2, 0, 0]),
    (.vcvtUi32F32Rtz 3 1 0 0, 32, 0, [1, 0, 0]), (.vcvtI8F32 3 1 0 0, 8, 0, [2, 0x80, 0]), (.vcvtI8F32Rtz 3 1 0 0, 8, 0, [1, 0x80, 0]),
    (.vcvtUq8F32 3 1 0 0, 8, 0, [0xFF, 0, 0]), (.vcvtUq8F32Rtz 3 1 0 0, 8, 0, [0xFF, 0, 0]), (.vcvtI16F32 3 1 0 0, 16, 0, [2, 0xFED3, 0]),
    (.vcvtI16F32Rtz 3 1 0 0, 16, 0, [1, 0xFED4, 0]), (.vcvtF32I32 3 2 0 0, 32, 0, [0x3F800000, 0xBF800000, 0x4EFFFFFF]),
    (.vcvtF32Ui32 3 2 0 0, 32, 0, [0x3F800000, 0x4F800000, 0x4EFFFFFF]), (.vcvtI8I32 3 2 0 0, 8, 0, [1, 0xFF, 0x7F]),
    (.vcvtI16I32 3 2 0 0, 16, 0, [1, 0xFFFF, 0x7FFF]), (.vcvtI32I8 3 2 0 0, 32, 4, [0xFFFFFFFF, 0xFFFFFFFF, 0xFFFFFFFF]),
    (.vcvtI32I16 3 2 0 0, 32, 2, [0xFFFFFFFF, 0xFFFFFFFF, 0xFFFFFF80]), (.vcvtF32I8 3 2 0 0, 32, 4, [0xBF800000, 0xBF800000, 0xBF800000]),
    (.vcvtF32I16 3 2 0 0, 32, 0, [0x3F800000, 0, 0xBF800000]), (.vcvtF32Uq8 3 2 0 0, 32, 3, [0, 0x3F7F0000, 0x3F7F0000]),
    (.vcvtF32F16 3 4 0 0, 32, 0, [0x3FC00000, 0x33800000, 0x7FC00000]), (.vcvtF32Bf16 3 4 0 0, 32, 0, [0x3E000000, 0x00010000, 0x7E000000]),
    (.vcvtF32E4m3 3 5 0 0, 32, 0, [0x3FC00000, 0x3B000000, 0x7FC00000]), (.vcvtF32E5m2 3 5 0 0, 32, 0, [0x3F800000, 0x37800000, 0x7FC00000]),
    (.vcvtE4m3F16 3 4 0 0, 8, 0, [0x3C, 0, 0x7F]), (.vcvtF16E4m3 3 5 0 0, 16, 0, [0x3E00, 0x1800, 0x7E00])] : List (Instr × Nat × Nat × List Nat)),
    after p.1 (start (vs [(1, lanesOf 32 [0x3FC00000, 0xC396599A, 0x7FC00000]), (2, lanesOf 32 [1, 0xFFFFFFFF, 0x7FFFFF80]), (4, lanesOf 16 [0x3E00, 1, 0x7E00]),
        (5, lanesOf 8 [0x3C, 1, 0x7F])]))
      (fun s => (List.range 3).map fun j => (lane p.2.1 (s.v 3).val (p.2.2.1 + j)).toNat) = some p.2.2.2 := by decide +kernel
/-- The words that the spec writes out beside its examples. -/
theorem test_spec_words : ∀ p ∈ ([
    (0x00BCA503, .or 10 10 11), (0x02863A99, .ldD 21 3 40), (0x0806721B, .stD 4 7 128), (0x0052001D, .fenceRel 5), (0x0054001D, .fenceAcq 5),
    (0x00C0B51F, .amoAddD 10 11 12), (0x00C2B521, .syncAdd 10 11 12), (0x00000023, .barArrive 0), (0x00000427, .lblAssume 8 0),
    (0x0082D6A7, .lblWith 13 13 8), (0x0000B529, .launch 10 11), (0x0000702D, .vld 0 7 0 0), (0x0012A02D, .vst 10 1 0 0), (0x08040033, .qhist 0 0 1),
    (0x0006F733, .qstE4m3 14 15 0 0 0), (0x402011B1, .vfadd 3 1 2 0 1), (0x28003735, .vfredsum 14 3 0), (0x00100037, .repOpen 1),
    (0x02B2A037, .repRun 10 11 1), (0x04320539, .tmapRd 10 3 2), (0x0004B139, .tmapMov 2 11), (0x0001613B, .gangWld 2 22 0 0),
    (0x000200BB, .gangMma 1 0 0 0 0 0), (0x0171613F, .hotReg 2 22 23), (0x0002003F, .hotMig 0), (0x0004B53F, .hotCnt 10 11),
    (0x0003803D, .accSt 0 24 0), (0x0004043D, .accZero 1), (0x0001CCC1, .cpy 25 28), (0x0007CDC1, .engCancel 27 28)] : List (Nat × Instr)),
    decodeTableWord 32 p.1 = some p.2 := by decide +kernel

/-- Words that name no instruction (R201, R202): major 0x00 and a reserved major; reserved fields and codes; a vector register above 15. -/
theorem test_refused_words : ∀ w ∈ [0x00000001, 0x00000043, 0x00BCA503 + 2 ^ 31, 0x0086F733 + 2 ^ 30, 0x0000702D + 2 ^ 11, 0x08000037, 0x06000031],
    decodeTableWord 32 w = none := by decide +kernel

/-- "One register, two worlds": labels {A} and {B} in x11 and x13 meet in v3, so its label is {A,B}, written as record 3. -/
theorem test_two_worlds :
    let s := (assumed 1 (assumed 0 (labelled [] (start fun t => { t with ctx := 3 })))).modTask fun t =>
      { t with regs := { t.regs with
          v := ((t.regs.v.set 1 ⟨lanesOf 32 (List.replicate 16 0x3F800000), 0⟩).set 2 ⟨lanesOf 32 (List.replicate 16 0x40000000), 1⟩).set 3 ⟨0, 2⟩
          k := t.regs.k.set 1 ⟨0xFF, always⟩ } }
    after (.vfadd 3 1 2 0 1) s (fun t => ((t.v 3).val, (t.v 3).lbl, (t.frameAt 0 0).next, (t.labOf 0 0 3).envs))
      = some (lanesOf 32 (List.replicate 8 0x40400000), 3, 4, [3])
    ∧ (after (.vfadd 3 1 2 0 1) s fun t => after (.vfredsum 14 3 0) t fun t => (t.xv 14, t.xl 14)) = some (some (0x41C00000, 3)) := by
  decide +kernel

/-- "Label instructions after a comparison": x17 under {A}, x18 under {B}, x19 under {A,B}; then with {B} a nogood. -/
theorem test_label_forms :
    let x := fun (g : List Word) => (assumed 1 (assumed 0 (labelled [] (start fun t => { t with ctx := 3 })))).modTask (fun t =>
      { t with regs := { t.regs with x := (((t.regs.x.set 17 ⟨40, 1⟩).set 18 ⟨25, 2⟩).set 21 ⟨2, always⟩).set 20 ⟨25, 1⟩ } })
        |>.modDie 0 fun d => { d with frames := (d.frames.map fun p => (p.1, { p.2 with nogoods := g })) }
    after (.lblNogood 22 21) (x []) (fun t => (t.xv 22, (t.frameAt 0 0).nogoods)) = some (0, [2])
    ∧ after (.lblNogood 27 0) (x [2]) (fun t => (t.xv 27, (t.frameAt 0 0).nogoods)) = some (3, [2])
    ∧ after (.lblNogood 27 21) (x [2]) (fun t => (t.xv 27, (t.frameAt 0 0).nogoods)) = some (0, [2])
    ∧ (∀ p ∈ ([(.lblVis 23 18, 23, 0), (.lblVis 23 17, 23, 1), (.lblGet 25 18, 25, 2), (.lblAssume 26 1, 26, 0xFFFF), (.lblAssume 26 0, 26, 1),
        (.lblCtx 26 21, 26, 3), (.lblWith 26 17 21, 26, 40), (.lblMerge 26 18 20, 26, 25)] : List (Instr × BitVec 5 × Word)),
        after p.1 (x [2]) (fun t => t.xv p.2.1) = some p.2.2)
    ∧ after (.lblMerge 26 18 20) (x []) (fun t => (t.xl 26, (t.labOf 0 0 (t.xl 26)).envs)) = some (3, [1, 2])
    ∧ after (.lblMerge 19 17 18) (x []) (fun t => (t.xv 19, t.core.regs.act, (t.task.info.status))) = some (0, false, .ready) := by decide +kernel

/-- Loop 0 ends away from the tests' code. -/
def loops0 (t : Task) : Task := { t with loops := { le0 := 0x100 } }

/-- Reads of state registers at a task's start (R65, R230-R232): CTX, DEP, FRAME, TASK with PRIV, PRIO, CYCLE, CORE, SPDIST, a routine. -/
theorem test_state_reads : ∀ p ∈ ([
    (.srd 3 0, 3), (.srd 3 1, 0), (.srd 3 2, 0), (.srd 3 3, 0x200), (.srd 3 5, 0), (.srd 3 0xC, 0), (.srd 3 0xF, 0), (.srd 3 0x30, 1), (.srd 3 0x103, 0)]
      : List (Instr × Word)),
    after p.1 (start fun t => priv { t with ctx := 3, spCount := 1 }) (·.xv 3) = some p.2 := by decide +kernel

/-- What a write of −1 leaves, at the end of the cycle, of TVEC, LB0, LE0, LC0, SPFRAME's FRAME and CTX (R98, R229-R234). -/
theorem test_state_writes : ∀ p ∈ ([
    (0xB, [0xFFFE, 0, 0x100, 0, 0, 0]), (0x20, [0, 0xFFFE, 0x100, 0, 0, 0]), (0x21, [0, 0, 0xFFFE, 0, 0, 0]), (0x22, [0, 0, 0x100, -1, 0, 0]),
    (0x44, [0, 0, 0x100, 0, 0xFF, 0]), (0, [0, 0, 0x100, 0, 0, -1]), (0x30, [0, 0, 0x100, 0, 0, 0])] : List (BitVec 12 × List Word)),
    after (.swr 1 p.1) (start fun t => priv (xs [(1, -1)] (loops0 t))) (fun t => [t.core.regs.land.tvec.setWidth 64, t.task.loops.lb0.setWidth 64,
      t.task.loops.le0.setWidth 64, t.task.loops.lc0, t.core.regs.land.frm.setWidth 64, t.task.ctx]) = some p.2 := by decide +kernel

/-- Cause and TRAPVAL of a trap that enters the handler (R331, R365): misuse of operands and privilege. -/
theorem test_traps : ∀ p ∈ ([
    (.syncLd 3 1, 5, 1), (.ldW 3 2 0, 0x30, 0x2000000000000), (.jr 3 2 0, 2, 0x2000000000000), (.loopi 0 1 1, 9, 2), (.meterCkpt 3, 4, 0x000401AB), (.amoAddD 3 1 2, 5, 1),
    (.qGet 3 0, 0x1E, 0), (.spPut 1, 0x1D, 0x00041013), (.lblMerge 3 1 2, 0x1C, 0x2000000000001), (.lblWith 3 1 2, 0x19, 0x2000000000000),
    (.accTov 1 2 0, 0xF, 1), (.accLd 0 1 0, 5, 1), (.repRun 1 2 0, 0x23, 0)] : List (Instr × BitVec 8 × Word)),
    after p.1 (let s := start fun t => let t := xs [(1, 1), (2, 0x2000000000000)] t
        { t with regs := { t.regs with acc := t.regs.acc.set 1 { inv := true } } }
      { s with core := { s.core with regs := { s.core.regs with tvec := 0x40 } } })
      (fun t => (t.core.regs.act, t.core.regs.cause, t.core.regs.trapVal, t.pc)) = some (true, p.2.1, p.2.2, 0x40) := by decide +kernel

/-- Tiles: a row moved from and to v2, and what the whole-tile forms write (R286). -/
theorem test_tiles :
    let s := start fun t => let t := xs [(1, 0x7FFF)] (vs [(2, lanesOf 32 [1, 2, 3])] t)
      { t with regs := { t.regs with acc := (t.regs.acc.set 1 { cells := 7 <<< 512, sat := true }).set 2 { inv := true, cells := 5 } } }
    after (.accTov 1 3 1) s (fun t => (t.v 3).val) = some 7
    ∧ after (.accFromv 1 2 2) s (fun t => (t.acc 1).cells) = some (7 <<< 512 + (1 + 2 <<< 32 + 3 <<< 64) <<< 1024)
    ∧ after (.accZero 2) s (fun t => ((t.acc 2).cells, (t.acc 2).inv)) = some (0, false)
    ∧ after (.accFill 2 1) s (fun t => (((t.acc 2).cells.extractLsb' (512 * 15) 64).toNat, (t.acc 2).inv)) = some (0x00007FFF00007FFF, false)
    ∧ after (.accFill 1 1) s (fun t => (t.acc 1).sat) = some true := by decide +kernel

/-- A map moved and read (R282): BASE is bits 47:0 of dword 0, and FMT stands in bits 63:61 of dword 3. -/
theorem test_maps :
    after (.tmapMov 1 1) (start fun t => xs [(1, 0x1234)] (mapped 1 true t)) (fun t => ((t.mreg 1).d0, (t.mreg 1).d1)) = some (0x1234, 0x8000)
    ∧ after (.tmapRd 3 3 1) (start (mapped 1 true)) (·.xv 3) = some 0x2000000000000001
    ∧ after (.tmapRd 3 2 1) (start (mapped 1 true)) (·.xv 3) = some 0x00FF000000000100
    ∧ after (.tmapLd 1 1) (scratch 0x100 (List.replicate 32 0xFF) (start (xs [(1, 0x100)]))) (fun t => ((t.mreg 1).d0, (t.mreg 1).d1, (t.mreg 1).d2,
        (t.mreg 1).d3)) = some (0x0000FFFFFFFFFFFF, 0xFF00FFFFFFFFFFFF, -1, 0xFFFFFC0000000001) := by decide +kernel
/-- A word of −5 in the sluice space with x2 = 3 and x3 = −5: the word and x3 after (R149). -/
theorem test_sluice : ∀ p ∈ ([
    (.syncLd 3 1, -5), (.syncAdd 3 1 2, -2), (.syncAnd 3 1 2, 3), (.syncOr 3 1 2, -5), (.syncXor 3 1 2, -8), (.syncSwap 3 1 2, 3), (.syncCas 3 1 2, 3),
    (.syncMin 3 1 2, -5), (.syncMax 3 1 2, 3), (.syncMinu 3 1 2, 3), (.syncMaxu 3 1 2, -5)] : List (Instr × Word)),
    after p.1 ((spilled (start (xs [(1, 0x10), (2, 3), (3, -5)]))).modDie 0 fun d => { d with words := [(0x10, some { val := -5 })] })
      (fun s => ((s.sword 0 0x10).val, match s.strm.reply with
        | some (.value v _ _) => some v
        | _ => if s.strm.wait.isNone then some (s.xv 3) else none)) = some (p.2, some (-5)) := by decide +kernel

/-- Slot 0 passes core 0 in cycle 0 with key 5 and value −5; x2 = 3 and x3 = −5 (R147). -/
theorem test_ring : ∀ p ∈ ([
    (.ringCapRead 3 1 2, -5), (.ringCapAdd 3 1 2, -2), (.ringCapMin 3 1 2, -5), (.ringCapMax 3 1 2, 3), (.ringCapSwap 3 1 2, 3), (.ringCapCas 3 1 2, 3)]
      : List (Instr × Word)),
    after p.1 ((start (xs [(1, 5), (2, 3), (3, -5)])).putSlot 0 0 { v := true, key := 5, value := -5 })
      (fun s => ((s.slot 0 0).value, s.strm.reply, s.xv 3, s.ringq.length)) = some (p.2, none, -5, 0) := by decide +kernel

/-- Status 0 of a boarding on the empty slot, status 2 where the key is there already, status 3 under NEVER (R146). -/
theorem test_board :
    after (.ringBoard 3 1 2) (start (xs [(1, 5), (2, 3), (3, -5)])) (fun s => (s.xv 3, (s.slot 0 0).v, (s.slot 0 0).value)) = some (0, true, 3)
    ∧ after (.ringBoard 3 1 2) ((start (xs [(1, 5), (2, 3)])).putSlot 0 0 { v := true, key := 5, value := 9 }) (fun s => (s.xv 3, (s.slot 0 0).value))
      = some (2, 9)
    ∧ after (.ringBoard 3 1 2) (start fun t => { xs [(1, 5)] t with regs := { (xs [(1, 5)] t).regs with x := (xs [(1, 5)] t).regs.x.set 2 ⟨3, never⟩ } })
      (fun s => (s.xv 3, s.task.supp, (s.slot 0 0).v)) = some (3, true, false)
    ∧ after (.ringAlight 3 1 2) ((start (xs [(1, 5), (2, 0x100)])).putSlot 0 0 { v := true, key := 5, value := 9 })
      (fun s => (s.xv 3, (s.slot 0 0).v, s.inbound.map fun e => (e.addr, e.bytes))) = some (9, false, [(0x100, [9, 0, 0, 0, 0, 0, 0, 0])]) := by
  decide +kernel

/-- A trap's return: TRAPPC 0x20 with a write of ACT = 0 to TRAPCAUSE; outside a trap the same write changes no PC (R328). -/
theorem test_trap_return :
    let s := fun act => { begins with core := { begins.core with regs := { begins.core.regs with act := act, trapPc := 0x20, cause := 5 } } }
    after (.swr 1 9) (s true) (fun t => (t.core.regs.act, t.pc)) = some (false, 0x20)
    ∧ after (.swr 1 9) (s false) (fun t => (t.core.regs.act, t.pc)) = some (false, 4) := by decide +kernel

/-- PHASE saturates (R235); an access stream ends alone (R227); a fork starts it (R221). -/
theorem test_streams :
    after .phase begins (·.phase) = some 1 ∧ after .phase { begins with phase := 0xFFFFFFFF } (·.phase) = some 0xFFFFFFFF
    ∧ after .taskEnd (access id) (fun s => (s.task.ac.active, s.core.running)) = some (false, true)
    ∧ after .cTaskEnd begins (fun s => s.core.running) = some false
    ∧ after (.forkA 8) begins (fun s => (s.task.ac.active, s.task.ac.pc, s.pc)) = some (true, 0x10, 4)
    ∧ after (.safept 0) (start fun t => { t with spCount := 7 }) (fun s => (s.pc, s.task.spCount)) = some (4, 0) := by decide +kernel

/-- R352: an atom of a label record that an instruction reads is mended; one that it does not read keeps its mark. -/
theorem test_add_mends_record :
    let s := { twoLabelled with mem := { twoLabelled.mem with mainEcc := [(4, 3), (20, 1)] } }
    (match s.prod [s.xl 2, s.xl 3] with
      | .ok (h, s') => decide (s'.mem.mainEcc = [(20, 1)] ∧ h = 3)
      | .error _ => false) = true := by decide +kernel

/-- R353: a poisoned sluice word traps with cause 0x34 and takes a free value for its open address. -/
theorem test_syncLd_poisoned :
    let s0 := spilled (start (xs [(1, 0)]))
    let s1 := { s0 with core := { s0.core with regs := { s0.core.regs with tvec := 0x40 } } }
    let s := s1.modDie 0 fun d => { d with wordEcc := [(0, 2)] }
    (match exec (.syncLd 2 1) s with
      | .next y => decide (y.core.regs.cause = 0x34 ∧ y.pc = 0x40 ∧ y.free = 1)
      | _ => false) = true := by decide +kernel

end Sys2Proof.Tests
end

section
/-!
PROOFS. `msg.send` and the stream ports (R26, R27, R71, R223, R225): O7. First how an encoded instruction steps where its stream need not
be at the instruction's start, as at a port's later steps; then one lemma for each case of the four effects; then the obligation.
-/

namespace Sys2Proof.Machine

/-! ### A step that the instruction's own effect decides -/

/-- The acting stream's step is its instruction's own effect: no trap has answered it, its task stays where it is (R74), the bound of R52 is
not passed, and the code comes from the instruction store. Weaker than `State.Ready`: a wait or an answered value may be under way. -/
structure State.GoesOn (s : State) : Prop where
  answer : ∀ t, s.strm.reply ≠ some (.trap t)
  stays : s.leaves = false
  count : s.task.spCount < 1024
  stored : s.task.info.carried = none

namespace State.GoesOn

variable {s : State}

/-- A task that is not moot leaves no wait (R74). -/
theorem of_not_moot (hm : s.task.moot = false) (hc : s.task.spCount < 1024) (hi : s.task.info.carried = none)
    (hr : ∀ t, s.strm.reply ≠ some (.trap t)) : s.GoesOn :=
  ⟨hr, by simp [State.leaves, hm], hc, hi⟩

theorem complete_ok (h : s.GoesOn) {len enc : Nat} {b : Body} {d : Done} (hb : b s = .ok d) :
    s.complete len enc b = .next (s.retire len d) := by
  have hp : ¬ 1024 ≤ s.task.spCount := Nat.not_le.mpr h.count
  unfold State.complete
  split
  next t ht => exact absurd ht (h.answer t)
  next => simp [h.stays, hb, hp]

theorem complete_trap (h : s.GoesOn) {len enc : Nat} {b : Body} {t : Trap} (hb : b s = .error (.trap t)) :
    s.complete len enc b = .next (s.takeTrap (s.found s.die s.task.frame (t.fill enc s.task))) := by
  have hp : ¬ 1024 ≤ s.task.spCount := Nat.not_le.mpr h.count
  unfold State.complete
  split
  next u hu => exact absurd hu (h.answer u)
  next => simp [h.stays, hb, hp]

/-- A wait for a port is no blocking wait, so that a task that begins it goes on waiting (R74). -/
theorem complete_wait (h : s.GoesOn) {len enc : Nat} {b : Body} {k : WaitKind} {x : Option State}
    (hb : b s = .error (.wait k x)) (hk : k ≠ .wake ∧ k ≠ .barrier) : s.complete len enc b = .next ((x.getD s).await k) := by
  have hp : ¬ 1024 ≤ s.task.spCount := Nat.not_le.mpr h.count
  unfold State.complete
  split
  next t ht => exact absurd ht (h.answer t)
  next => simp [h.stays, hb, hp, State.awaits_of_ne _ hk]

/-- An encoded instruction's step is its effect, of the granules read early those kept that it may not disturb. -/
theorem run (h : s.GoesOn) {i : Instr} {n w : Nat} (b : Body) (he : encode i = some (n, w)) (hw : wellFormed i = true) :
    s.run i b = s.complete (n / 8) w fun s => (b s).map fun d => { d with st := d.st.passEarly s.pc i } := by
  simp [State.run, he, hw, h.stored]

theorem retires (h : s.GoesOn) {i : Instr} {w : Nat} {b : Body} {d : Done} (hx : exec i s = s.run i b)
    (he : encode i = some (32, w)) (hw : wellFormed i = true) (hb : b s = .ok d) : Retires i s 4 d := by
  refine hx.trans ((h.run b he hw).trans (h.complete_ok ?_))
  rw [hb]; rfl

theorem traps (h : s.GoesOn) {i : Instr} {n w : Nat} {b : Body} {t u : Trap} (hx : exec i s = s.run i b)
    (he : encode i = some (n, w)) (hw : wellFormed i = true) (hb : b s = .error (.trap t)) (hu : t.fill w s.task = u)
    (hc : t.cause ≠ 0x1A) : Traps i s u := by
  subst hu
  refine hx.trans ((h.run b he hw).trans ((h.complete_trap (t := t) ?_).trans ?_))
  · rw [hb]; rfl
  · rw [State.found_of_ne _ _ _ (by rw [Trap.fill_cause]; exact hc)]

theorem waits (h : s.GoesOn) {i : Instr} {n w : Nat} {b : Body} {k : WaitKind} {x : Option State} (hx : exec i s = s.run i b)
    (he : encode i = some (n, w)) (hw : wellFormed i = true) (hb : b s = .error (.wait k x)) (hk : k ≠ .wake ∧ k ≠ .barrier) :
    exec i s = .next ((x.getD s).await k) := by
  refine hx.trans ((h.run b he hw).trans (h.complete_wait ?_ hk))
  rw [hb]; rfl

end State.GoesOn

/-! ### The values that the traps of these forms carry (R331, R365) -/

/-- A trap of cause 0x08 keeps its value and takes the encoding as dword 5. -/
theorem Trap.fill_badMessage (v d : Word) (enc : Nat) (k : Task) :
    ({ cause := 0x08, val := v, d6 := d } : Trap).fill enc k = { cause := 0x08, val := v, d5 := word enc, d6 := d } := by
  simp [Trap.fill, Trap.valued, Trap.early]

/-- A trap of stream misuse has the encoding as its value. -/
theorem Trap.fill_streamMisuse (enc : Nat) (k : Task) : ({ cause := 0x1D } : Trap).fill enc k = { cause := 0x1D, val := word enc } := by
  simp [Trap.fill, Trap.valued, Trap.early]

/-! ### `msg.send` (R137, R223) -/

section Send

variable (r t : BitVec 5) (s : State)

/-- The number of payload dwords that the header in x[r] names (R25). -/
def State.sendLen : Nat := bits (s.xv r) 25 3

/-- The destination that the header in x[r] names (R25). -/
def State.sendDest : Nat := bits (s.xv r) 51 13

/-- The payload registers, from x[t] upward. -/
def State.sendRegs : List XReg := (List.range (s.sendLen r)).map fun i => s.x (regOff t i)

/-- The labels that the message rests on besides DEP (R27). -/
def State.sendLabels : List Handle := s.xl r :: (s.sendRegs r t).map (·.lbl)

/-- The message that is sent under label `l`: the header's fields with the sender's, and the payload (R26). -/
def State.sendMsg (l : Handle) : Msg where
  hdr := header (s.sendDest r) s.core.num (bits (s.xv r) 32 6) (bits (s.xv r) 28 4) (s.sendLen r) false s.task.frame l
  payload := payload7 ((s.sendRegs r t).map (·.val))

/-- The message goes out: its destination is a core, its payload ends at x31, and no earlier access holds it back (R137). -/
structure State.SendGoes : Prop where
  dest : s.sendDest r < 0x1048
  payload : s.sendLen r = 0 ∨ t.toNat + s.sendLen r - 1 ≤ 31
  free : s.heldIn (sendScope s.core.num (s.sendDest r)) = false

variable {r t s}

theorem sendMessage_badDest (h : 0x1048 ≤ s.sendDest r) : sendMessage r t s = .error (.trap { cause := 0x08, val := s.xv r }) :=
  if_pos h

theorem sendMessage_pastX31 (h : s.sendDest r < 0x1048) (hn : 0 < s.sendLen r) (hx : 31 < t.toNat + s.sendLen r - 1) :
    sendMessage r t s = .error (.trap { cause := 0x08, val := s.xv r, d6 := 1 }) := by
  have hp : (decide (0 < s.sendLen r) && decide (31 < t.toNat + s.sendLen r - 1)) = true := by simp [hn, hx]
  exact (if_neg (Nat.not_le.mpr h)).trans (if_pos hp)

/-- Past its three checks `msg.send` forms the label on the own die, and tests visibility for the other (R27, R71). -/
theorem sendMessage_goes (h : s.SendGoes r t) : sendMessage r t s =
    if dieOf (s.sendDest r) = s.die then do
      let (l, s') ← s.prod (s.sendLabels r t ++ [s.dep])
      if l = never then .ok { st := s.supp } else .ok { st := s'.send (s.sendMsg r t l) }
    else (do
      let (seen, s') ← s.judge (s.sendLabels r t)
      .ok { st := if seen then s'.send (s.sendMsg r t always) else s'.supp }) := by
  have hp : ¬ (decide (0 < s.sendLen r) && decide (31 < t.toNat + s.sendLen r - 1)) = true := by
    have := h.payload
    simp only [Bool.and_eq_true, decide_eq_true_eq]
    omega
  have hf : ¬ s.heldIn (sendScope s.core.num (s.sendDest r)) = true := by simp [h.free]
  exact (if_neg (Nat.not_le.mpr h.dest)).trans ((if_neg hp).trans (if_neg hf))

theorem sendMessage_ownDie (h : s.SendGoes r t) (hd : dieOf (s.sendDest r) = s.die) {l : Handle} {x : State}
    (hl : s.prod (s.sendLabels r t ++ [s.dep]) = .ok (l, x)) :
    sendMessage r t s = .ok { st := if l = never then s.supp else x.send (s.sendMsg r t l) } := by
  rw [sendMessage_goes h, if_pos hd, hl]
  by_cases hn : l = never <;> simp [bind, Except.bind, hn]

theorem sendMessage_otherDie (h : s.SendGoes r t) (hd : dieOf (s.sendDest r) ≠ s.die) {b : Bool} {x : State}
    (hj : s.judge (s.sendLabels r t) = .ok (b, x)) :
    sendMessage r t s = .ok { st := if b then x.send (s.sendMsg r t always) else x.supp } := by
  rw [sendMessage_goes h, if_neg hd, hj]; rfl

variable (hs : s.Ready)
include hs

theorem msgSend_traps {d : Word} (hb : sendMessage r t s = .error (.trap { cause := 0x08, val := s.xv r, d6 := d })) :
    Traps (.msgSend r t) s (withEnc (.msgSend r t) { cause := 0x08, val := s.xv r, d6 := d }) :=
  hs.traps rfl rfl rfl hb (Trap.fill_badMessage ..) (by simp)

theorem msgSend_retires {x : State} (hb : sendMessage r t s = .ok { st := x }) : Retires (.msgSend r t) s 4 { st := x } :=
  hs.retires32 rfl rfl rfl hb

end Send

/-! ### Stream ports (R225) -/

section Port

variable {d r t : BitVec 5} {s : State}

theorem State.modStrm_strm (s : State) (f : Stream → Stream) : (s.modStrm f).strm = f s.strm := by
  unfold State.strm State.modStrm State.modTask Task.modStrm
  by_cases h : s.actStream = 0 <;> simp [h]

/-- What `sp.open` finds good: no port is open, and x[r] and x[t] hold a package-scratchpad address and a handler word without reserved
bits (R225). -/
structure State.PortOpens (s : State) (r t : BitVec 5) : Prop where
  closed : s.strm.port = none
  word : (s.xv t).toNat < 65536
  low : 0x10000000 ≤ (s.xv r).toNat
  high : (s.xv r).toNat < 0x20000000
  aligned : (s.xv r).toNat % 8 = 0

/-- The transfer that `sp.open` begins under the number `id` (R138, R225). -/
def State.openedTransfer (s : State) (r t : BitVec 5) (id : Nat) : Transfer where
  id := id
  who := s.self
  frame := s.task.frame
  ctx := s.task.ctx
  prio := s.task.prio
  base := (s.xv r).toNat - 0x10000000
  hv := bit (s.xv t) 15
  handler := bits (s.xv t) 0 15 * 2
  words := []
  closed := false
  written := 0
  stopped := false
  taken := false
  lbls := []

/-- The port that `sp.open` opens (R225). -/
def State.openedPort (s : State) (r t : BitVec 5) (id : Nat) : Port where
  id := id
  base := s.xv r
  hv := bit (s.xv t) 15
  handler := bits (s.xv t) 0 15 * 2
  put := 0

/-- What `sp.open` leaves of the state `x` that holds the folded DEP: the port, and the transfer behind all others. -/
def State.opened (s : State) (r t : BitVec 5) (x : State) : State :=
  { x.modStrm fun k => { k with port := some (s.openedPort r t x.nextId) } with
    nextId := x.nextId + 1, transfers := x.transfers ++ [s.openedTransfer r t x.nextId] }

theorem State.opened_port (s x : State) : (s.opened r t x).strm.port = some (s.openedPort r t x.nextId) :=
  congrArg Stream.port (x.modStrm_strm _)

theorem portOpen_opens (h : s.PortOpens r t) {x : State} (hf : s.fold [s.xl r, s.xl t] = .ok x) :
    portOpen r t s = .ok { st := s.opened r t x } := by
  have hw : bits (s.xv t) 16 48 = 0 := by simp [bits, Nat.div_eq_of_lt h.word]
  have hg : ¬ (s.strm.port.isSome || decide (bits (s.xv t) 16 48 ≠ 0)
      || !(decide (0x10000000 ≤ (s.xv r).toNat) && decide ((s.xv r).toNat < 0x20000000))) = true := by
    simp [h.closed, hw, h.low, h.high]
  have ha : Machine.aligned (s.xv r) 8 = .ok () := if_pos h.aligned
  refine (if_neg hg).trans ?_
  rw [ha, hf]; rfl

/-- What `sp.put` leaves where the port is `p` and the word travels with the labels `ls` (R225). -/
def State.portPutBy (s : State) (r : BitVec 5) (p : Port) (x : State) (ls : List Handle) : State :=
  (x.modTransfer p.id fun k => { k with words := k.words ++ [⟨s.xv r, ls, s.task.ctx⟩] }).modStrm
    fun k => { k with port := some { p with put := p.put + 1 } }

/-- The core whose scratchpad a port's words go to (R225). -/
def Port.owner (p : Port) : Nat := (p.base.toNat - 0x10000000) / 65536

/-- In the labelled scratchpad of a core of the own die a word arrives with one label of the frame's table (R225, R288). -/
theorem State.portLabels_interned {p : Port} {hs : List Handle} (hd : dieOf p.owner = s.die)
    (hl : (s.coreAt p.owner).regs.lab = true) {h : Handle} {x : State} (hp : s.prod (hs ++ [s.dep]) = .ok (h, x)) :
    s.portLabels p.base hs = .ok ([h], x) := by
  have hc : (decide (dieOf p.owner = s.die) && (s.coreAt p.owner).regs.lab) = true := by simp [hd, hl]
  refine (if_pos hc).trans ?_
  rw [hp]; rfl

/-- Elsewhere a word takes the labels of its Product with it, unformed (R27, R225). -/
theorem State.portLabels_raw {p : Port} (hs : List Handle) (hd : dieOf p.owner ≠ s.die ∨ (s.coreAt p.owner).regs.lab = false) :
    s.portLabels p.base hs = .ok ((hs ++ [s.dep]).filter fun h => decide (h ≠ always), s) := by
  have hc : ¬ (decide (dieOf p.owner = s.die) && (s.coreAt p.owner).regs.lab) = true := by
    rcases hd with hd | hd <;> simp [hd]
  exact if_neg hc

theorem portPut_closed (h : s.strm.port = none) : portPut r s = .error (.trap { cause := 0x1D }) := by
  simp only [portPut, h]; rfl

theorem portPut_full {p : Port} (h : s.strm.port = some p) (ha : s.routeAccepts p.id = false) :
    portPut r s = .error (.wait .port none) := by
  simp [portPut, h, ha, wait]

theorem portPut_accepted {p : Port} (h : s.strm.port = some p) (ha : s.routeAccepts p.id = true) {ls : List Handle} {x : State}
    (hl : s.portLabels p.base [s.xl r] = .ok (ls, x)) : portPut r s = .ok { st := s.portPutBy r p x ls } := by
  simp only [portPut, h, ha, hl, Bool.not_true, Bool.false_eq_true, if_false]; rfl

theorem portClose_closed (h : s.strm.port = none) : portClose d s = .error (.trap { cause := 0x1D }) := by
  simp only [portClose, h]; rfl

theorem portClose_asks {p : Port} (h : s.strm.port = some p) (hr : s.strm.reply = none) :
    portClose d s = .error (.wait .port (some (s.modTransfer p.id fun k => { k with closed := true }))) := by
  simp only [portClose, h, hr]; rfl

theorem portClose_answered {p : Port} (h : s.strm.port = some p) {n : Word} {l e : Handle} (hr : s.strm.reply = some (.value n l e))
    {x : State} (hx : s.writeX d n [] = .ok x) :
    portClose d s = .ok { st := x.modStrm fun k => { k with port := none } } := by
  simp only [portClose, h, hr, hx]; rfl

/-- A port's instruction without an open port is stream misuse (R225, R364). -/
theorem traps_streamMisuse (hg : s.GoesOn) {i : Instr} {b : Body} {w : Nat} (hx : exec i s = s.run i b)
    (he : encode i = some (32, w)) (hw : wellFormed i = true) (hb : b s = .error (.trap { cause := 0x1D })) :
    Traps i s { cause := 0x1D, val := encWord i } :=
  hg.traps hx he hw hb (by rw [Trap.fill_streamMisuse, encWord, he]; rfl) (by decide)

end Port

end Sys2Proof.Machine

namespace Sys2Proof

open Machine

/-- Settles O7: each clause is one case of the effect of `msg.send`, `sp.open`, `sp.put` or `sp.close`. -/
theorem sendAndStreamPorts : Obligations.SendAndStreamPorts := by
  unfold Obligations.SendAndStreamPorts
  refine ⟨fun r t s hs => ⟨?badDest, ?pastX31, ?goes⟩, fun d r t s hc hi hm => ⟨?opens, ?inUse, ?answered, ?misuse⟩⟩
  case badDest => exact fun hd => msgSend_traps hs (sendMessage_badDest hd)
  case pastX31 => exact fun hd hn hx => msgSend_traps hs (sendMessage_pastX31 hd hn hx)
  case goes =>
    intro hd hn hf
    have hg : s.SendGoes r t := ⟨hd, hn, hf⟩
    refine ⟨fun own l x hl => ⟨fun hv => ?_, fun hv => ?_⟩, fun other b x hj => ⟨fun hb => ?_, fun hb => ?_⟩⟩
    · exact msgSend_retires hs ((sendMessage_ownDie hg own hl).trans (by rw [if_pos hv]))
    · exact msgSend_retires hs ((sendMessage_ownDie hg own hl).trans (by rw [if_neg hv]; rfl))
    · exact msgSend_retires hs ((sendMessage_otherDie hg other hj).trans (by rw [if_pos hb]; rfl))
    · exact msgSend_retires hs ((sendMessage_otherDie hg other hj).trans (by rw [hb]; rfl))
  case opens =>
    intro hr hp hw hlo hhi ha x hf
    have hg : s.GoesOn := .of_not_moot hm hc hi (by simp [hr])
    exact ⟨s.opened r t x, hg.retires rfl rfl rfl (portOpen_opens ⟨hp, hw, hlo, hhi, ha⟩ hf), s.opened_port x,
      s.openedTransfer r t x.nextId, rfl, rfl, rfl, rfl, rfl, rfl⟩
  case inUse =>
    intro hr p hp
    have hg : s.GoesOn := .of_not_moot hm hc hi (by simp [hr])
    refine ⟨fun ha => ⟨fun hd hl h x hx => ?_, fun hd => ?_⟩, fun ha => ?_, ?_⟩
    · exact hg.retires rfl rfl rfl (portPut_accepted hp ha (State.portLabels_interned hd hl hx))
    · exact hg.retires rfl rfl rfl (portPut_accepted hp ha (State.portLabels_raw _ hd))
    · exact hg.waits rfl rfl rfl (portPut_full hp ha) (by decide)
    · exact hg.waits rfl rfl rfl (portClose_asks hp hr) (by decide)
  case answered =>
    intro p n l e x hp hr hx
    have hg : s.GoesOn := .of_not_moot hm hc hi (by simp [hr])
    exact hg.retires rfl rfl rfl (portClose_answered hp hr hx)
  case misuse =>
    intro hr hp i hmem
    have hg : s.GoesOn := .of_not_moot hm hc hi (by simp [hr])
    simp only [List.mem_cons, List.not_mem_nil, or_false] at hmem
    rcases hmem with rfl | rfl
    · exact traps_streamMisuse hg rfl rfl rfl (portPut_closed hp)
    · exact traps_streamMisuse hg rfl rfl rfl (portClose_closed hp)

end Sys2Proof
end


section
/-!
PROOFS. The values of the integer forms (R210 to R212): O1. What the model computes with numbers, searches and lists of bits is what Lean's
own bit-vector arithmetic gives; then the obligation.
-/

namespace Sys2Proof.Machine

/-! ### Minimum and maximum -/

/-- Of two results that are the same where the compared values are equal, a strict and a weak comparison take the same one. -/
theorem ite_lt_eq_ite_le {α : Type} [LinearOrder α] {m n : α} {x y : Word} (h : m = n → x = y) :
    (if decide (m < n) then x else y) = if m ≤ n then x else y := by
  rcases lt_trichotomy m n with hlt | heq | hgt
  · simp [hlt, hlt.le]
  · simp [heq, h heq]
  · simp [hgt.not_gt, hgt.not_ge]

theorem ite_slt_eq_ite_toInt_le {a b x y : Word} (h : a = b → x = y) :
    (if a.slt b then x else y) = if a.toInt ≤ b.toInt then x else y :=
  ite_lt_eq_ite_le fun hn => h (BitVec.eq_of_toInt_eq hn)

theorem ite_ult_eq_ite_toNat_le {a b x y : Word} (h : a = b → x = y) :
    (if a.ult b then x else y) = if a.toNat ≤ b.toNat then x else y :=
  ite_lt_eq_ite_le fun hn => h (BitVec.eq_of_toNat_eq hn)

/-! ### Products, quotients and remainders -/

/-- The high dword of a product taken in 128 bits. -/
theorem extractLsb'_ofInt_eq_high64 (p : Int) : (BitVec.ofInt 128 p).extractLsb' 64 64 = high64 p := by
  apply BitVec.eq_of_toNat_eq
  simp only [BitVec.extractLsb'_toNat, BitVec.toNat_ofInt, Nat.shiftRight_eq_div_pow, high64, wrap64]
  omega

theorem setWidth_eq_ofInt (n : Nat) (a : Word) : a.setWidth n = BitVec.ofInt n a.toNat := by
  rw [BitVec.ofInt_natCast, BitVec.ofNat_toNat]

theorem mulxSs_eq (a b : Word) : (a.signExtend 128 * b.signExtend 128).extractLsb' 64 64 = high64 (a.toInt * b.toInt) := by
  rw [← extractLsb'_ofInt_eq_high64, BitVec.ofInt_mul]; rfl

theorem mulxUu_eq (a b : Word) : (a.setWidth 128 * b.setWidth 128).extractLsb' 64 64 = high64 ((a.toNat : Int) * b.toNat) := by
  rw [← extractLsb'_ofInt_eq_high64, BitVec.ofInt_mul, setWidth_eq_ofInt, setWidth_eq_ofInt]

theorem mulxSu_eq (a b : Word) : (a.signExtend 128 * b.setWidth 128).extractLsb' 64 64 = high64 (a.toInt * b.toNat) := by
  rw [← extractLsb'_ofInt_eq_high64, BitVec.ofInt_mul, setWidth_eq_ofInt]; rfl

theorem sdiv_eq_quotS (a b : Word) : (if b = 0 then 0 else a.sdiv b) = quotS a b := by
  have h : a.sdiv b = wrap64 (Int.tdiv a.toInt b.toInt) := by
    rw [← BitVec.toInt_inj, BitVec.toInt_sdiv, wrap64, BitVec.toInt_ofInt]
  simp only [quotS, h]

theorem srem_eq_remdS (a b : Word) : (if b = 0 then a else a.srem b) = remdS a b := by
  have h : a.srem b = wrap64 (a.toInt - b.toInt * Int.tdiv a.toInt b.toInt) := by
    rw [← Int.tmod_def, ← BitVec.toInt_srem, wrap64, BitVec.ofInt_toInt]
  simp only [remdS, h]

theorem udiv_eq_quotU (a b : Word) : (if b = 0 then 0 else a / b) = quotU a b := by
  have h : a / b = word (a.toNat / b.toNat) := by
    rw [word, ← BitVec.toNat_udiv, BitVec.ofNat_toNat, BitVec.setWidth_eq]
  simp only [quotU, h]

theorem umod_eq_remdU (a b : Word) : (if b = 0 then a else a % b) = remdU a b := by
  have h : a % b = word (a.toNat % b.toNat) := by
    rw [word, ← BitVec.toNat_umod, BitVec.ofNat_toNat, BitVec.setWidth_eq]
  simp only [remdU, h]

/-! ### Counts of bits -/

/-- A search through the first numbers looks at 0 and then at the successors. -/
theorem find?_range_succ (p : Nat → Bool) (n : Nat) :
    ((List.range (n + 1)).find? p).getD (n + 1) = if p 0 then 0 else 1 + ((List.range n).find? fun i => p (i + 1)).getD n := by
  rw [List.range_succ_eq_map, List.find?_cons]
  cases p 0 with
  | true => rfl
  | false =>
    rw [List.find?_map]
    show (((List.range n).find? fun i => p (i + 1)).map Nat.succ).getD (n + 1) = _
    cases (List.range n).find? fun i => p (i + 1) <;> simp [Nat.add_comm]

/-- The leading zeros below bit `n` are counted by a search from bit `n - 1` downward. -/
theorem leadZeros_eq_find? (a : Word) (n : Nat) :
    leadZeros a n = ((List.range n).find? fun i => a.getLsbD (n - 1 - i)).getD n := by
  induction n with
  | zero => rfl
  | succ n ih =>
    rw [find?_range_succ, leadZeros, ih]
    simp only [Nat.add_sub_cancel, Nat.sub_zero, Nat.sub_sub, Nat.add_comm 1]

/-- The trailing zeros of the upper `n` bits are counted by a search from bit `64 - n` upward. -/
theorem trailZeros_eq_find? (a : Word) {n : Nat} (hn : n ≤ 64) :
    trailZeros a n = ((List.range n).find? fun i => a.getLsbD (64 - n + i)).getD n := by
  induction n with
  | zero => rfl
  | succ n ih =>
    have hi : ∀ i, 64 - n + i = 63 - n + (i + 1) := by omega
    rw [find?_range_succ, trailZeros, ih (by omega)]
    simp only [hi, Nat.add_zero, Nat.reduceSubDiff]

theorem ctz_eq (a : Word) : ((List.range 64).find? fun i => a.getLsbD i).getD 64 = trailZeros a 64 := by
  simp only [trailZeros_eq_find? a le_rfl, Nat.sub_self, Nat.zero_add]

theorem popCount_eq_filter (n v : Nat) : popCount n v = ((List.range n).filter v.testBit).length := by
  induction n generalizing v with
  | zero => rfl
  | succ n ih =>
    have hs : v.testBit ∘ Nat.succ = (v / 2).testBit := funext fun i => Nat.testBit_succ v i
    rw [List.range_succ_eq_map, List.filter_cons, List.filter_map, hs, popCount, ih, Nat.testBit_zero]
    rcases Nat.mod_two_eq_zero_or_one v with h | h <;> simp [h, Nat.add_comm]

/-! ### Extensions and reversals -/

/-- The low `k` bits of a dword, masked out or cut off and extended. -/
theorem and_mask_eq_uimm (a : Word) (k : Nat) : a &&& BitVec.ofNat 64 (2 ^ k - 1) = uimm (a.setWidth k) := by
  ext i hi
  simp [uimm, ← BitVec.getLsbD_eq_getElem, BitVec.getLsbD_ofNat, Nat.testBit_two_pow_sub_one, hi, Bool.and_comm]

/-- A byte below others stands in the low eight bits of the number that they spell. -/
theorem ofNat_leNat_cons (w : Nat) (b : Byte) (bs : List Byte) :
    BitVec.ofNat (w + 8) (leNat (b :: bs)) = BitVec.ofNat w (leNat bs) ++ b := by
  have hb := b.isLt
  have hmod : (b.toNat + 256 * leNat bs) % 256 = b.toNat := by omega
  have hdiv : (b.toNat + 256 * leNat bs) / 256 = leNat bs := by omega
  apply BitVec.eq_of_toNat_eq
  rw [BitVec.toNat_append, ← Nat.shiftLeft_add_eq_or_of_lt b.isLt, Nat.shiftLeft_eq, leNat, BitVec.toNat_ofNat, BitVec.toNat_ofNat,
    Nat.add_comm w 8, Nat.pow_add, Nat.mod_mul, hmod, hdiv, Nat.add_comm, Nat.mul_comm]

theorem ofNat_leNat_singleton (b : Byte) : BitVec.ofNat 8 (leNat [b]) = b := by
  simp [leNat]

theorem leBytes_eq_map (n v : Nat) : leBytes n v = (List.range n).map fun i => BitVec.ofNat 8 (v >>> (8 * i)) := by
  induction n generalizing v with
  | zero => rfl
  | succ n ih =>
    have hs : ∀ i, v >>> (8 * (i + 1)) = (v / 256) >>> (8 * i) := by
      intro i
      rw [Nat.mul_add, Nat.add_comm, Nat.shiftRight_add, Nat.shiftRight_eq_div_pow v]
    rw [leBytes, ih, List.range_succ_eq_map]
    simp [hs]

theorem append_bytes_eq_bswap64 (a : Word) : a.extractLsb' 0 8 ++ a.extractLsb' 8 8 ++ a.extractLsb' 16 8 ++ a.extractLsb' 24 8
    ++ a.extractLsb' 32 8 ++ a.extractLsb' 40 8 ++ a.extractLsb' 48 8 ++ a.extractLsb' 56 8 = bswap64 a := by
  have hr : (bytesOf a).reverse = [56, 48, 40, 32, 24, 16, 8, 0].map fun k => a.extractLsb' k 8 := by
    rw [bytesOf, leBytes_eq_map]; rfl
  rw [bswap64, wordOf, word, hr]
  simp only [List.map_cons, List.map_nil]
  rw [ofNat_leNat_cons 56, ofNat_leNat_cons 48, ofNat_leNat_cons 40, ofNat_leNat_cons 32, ofNat_leNat_cons 24, ofNat_leNat_cons 16,
    ofNat_leNat_cons 8, ofNat_leNat_singleton]

theorem unpack_one_eq_map (n v : Nat) : unpack 1 n v = (List.range n).map fun i => v / 2 ^ i % 2 := by
  induction n generalizing v with
  | zero => rfl
  | succ n ih =>
    rw [unpack, ih, List.range_succ_eq_map]
    simp [Nat.div_div_eq_div_mul, Nat.pow_succ, Nat.mul_comm]

theorem testBit_pack_one (l : List Nat) (i : Nat) : (pack 1 l).testBit i = decide (l.getD i 0 % 2 = 1) := by
  induction l generalizing i with
  | nil => simp [pack]
  | cons v l ih =>
    cases i with
    | zero => simp [pack, Nat.add_mod]
    | succ i =>
      have htail : (v % 2 + 2 * pack 1 l) / 2 = pack 1 l := by omega
      simp [pack, Nat.testBit_succ, htail, ih]

theorem reverse_eq_bitrev64 (a : Word) : a.reverse = bitrev64 a := by
  apply BitVec.eq_of_getLsbD_eq
  intro i hi
  have hbit : (unpack 1 64 a.toNat).reverse.getD i 0 = a.toNat / 2 ^ (63 - i) % 2 := by
    simp [unpack_one_eq_map, List.getD_eq_getElem?_getD, hi]
  rw [BitVec.getLsbD_reverse, BitVec.getMsbD, bitrev64, word, BitVec.getLsbD_ofNat, testBit_pack_one, hbit]
  simp [hi, BitVec.getLsbD, Nat.testBit_eq_decide_div_mod_eq]

/-! ### Immediates -/

theorem slt_simm (a : Word) (i : BitVec 12) : a.slt (i.signExtend 64) = decide (a.toInt < i.toInt) := by
  rw [BitVec.slt, BitVec.toInt_signExtend_of_le (by decide)]

theorem signExtend_append_eq_wrap64 (u : BitVec 20) : (u ++ 0#12).signExtend 64 = wrap64 (u.toInt * 4096) := by
  rw [BitVec.signExtend, BitVec.toInt_append_zero, Int.mul_comm]; rfl

end Sys2Proof.Machine

namespace Sys2Proof

open Machine

/-- Settles O1: each form is one register write (`Writes.bin`, `Writes.un`), of a value that the lemmas above bring to the model's. -/
theorem integerForms : Obligations.IntegerForms := by
  unfold Obligations.IntegerForms
  refine ⟨fun d r t s hs => ?binary, fun d r s hs => ?unary, fun d r i n u s hs => ⟨?immediate, ?hiimm⟩⟩
  case binary =>
    simp only [List.forall_mem_cons, List.not_mem_nil, false_implies, implies_true, and_true]
    exact ⟨
      -- add, sub, xor, andn, orn, xnor, or, and
      .bin hs rfl rfl rfl rfl, .bin hs rfl rfl rfl rfl, .bin hs rfl rfl rfl rfl, .bin hs rfl rfl rfl rfl,
      .bin hs rfl rfl rfl rfl, .bin hs rfl rfl rfl rfl, .bin hs rfl rfl rfl rfl, .bin hs rfl rfl rfl rfl,
      -- shifts and rotations
      .bin hs rfl rfl rfl rfl, .bin hs rfl rfl rfl rfl, .bin hs rfl rfl rfl rfl, .bin hs rfl rfl rfl rfl, .bin hs rfl rfl rfl rfl,
      -- cmplt, cmpltu, cmpeq
      .bin hs rfl rfl rfl rfl, .bin hs rfl rfl rfl rfl, .bin hs rfl rfl rfl (by simp only [flag, decide_eq_true_eq]),
      -- min, max, minu, maxu
      .bin hs rfl rfl rfl (ite_slt_eq_ite_toInt_le id), .bin hs rfl rfl rfl (ite_slt_eq_ite_toInt_le Eq.symm),
      .bin hs rfl rfl rfl (ite_ult_eq_ite_toNat_le id), .bin hs rfl rfl rfl (ite_ult_eq_ite_toNat_le Eq.symm),
      -- mul, mulx.ss, mulx.uu, mulx.su
      .bin hs rfl rfl rfl rfl, .bin hs rfl rfl rfl (mulxSs_eq _ _), .bin hs rfl rfl rfl (mulxUu_eq _ _),
      .bin hs rfl rfl rfl (mulxSu_eq _ _),
      -- quot, quotu, remd, remdu
      .bin hs rfl rfl rfl (sdiv_eq_quotS _ _), .bin hs rfl rfl rfl (udiv_eq_quotU _ _),
      .bin hs rfl rfl rfl (srem_eq_remdS _ _), .bin hs rfl rfl rfl (umod_eq_remdU _ _)⟩
  case unary =>
    simp only [List.forall_mem_cons, List.not_mem_nil, false_implies, implies_true, and_true]
    exact ⟨
      -- clz, ctz, pop
      .un hs rfl rfl rfl (congrArg word (leadZeros_eq_find? _ 64).symm), .un hs rfl rfl rfl (congrArg word (ctz_eq _)),
      .un hs rfl rfl rfl (congrArg word (popCount_eq_filter 64 _).symm),
      -- sext.b, sext.h, sext.w, zext.b, zext.h, zext.w
      .un hs rfl rfl rfl rfl, .un hs rfl rfl rfl rfl, .un hs rfl rfl rfl rfl,
      .un hs rfl rfl rfl (and_mask_eq_uimm _ 8), .un hs rfl rfl rfl (and_mask_eq_uimm _ 16), .un hs rfl rfl rfl (and_mask_eq_uimm _ 32),
      -- bswap, bitrev
      .un hs rfl rfl rfl (append_bytes_eq_bswap64 _), .un hs rfl rfl rfl (reverse_eq_bitrev64 _)⟩
  case immediate =>
    simp only [List.forall_mem_cons, List.not_mem_nil, false_implies, implies_true, and_true]
    exact ⟨
      -- addi, slli, rotli
      .un hs rfl rfl rfl rfl, .un hs rfl rfl rfl rfl, .un hs rfl rfl rfl rfl,
      -- cmplti, cmpltiu
      .un hs rfl rfl rfl (by rw [slt_simm]; rfl), .un hs rfl rfl rfl rfl,
      -- xori, srli, srai, rotri, ori, andi
      .un hs rfl rfl rfl rfl, .un hs rfl rfl rfl rfl, .un hs rfl rfl rfl rfl, .un hs rfl rfl rfl rfl, .un hs rfl rfl rfl rfl,
      .un hs rfl rfl rfl rfl,
      -- pcadd
      .of_body (n := 32) rfl hs rfl rfl rfl⟩
  case hiimm => exact .of_body (n := 32) rfl hs rfl rfl (by rw [signExtend_append_eq_wrap64]; rfl)

end Sys2Proof
end

section
/-!
PROOFS. Jumps, branches and the set-up of hardware loops (R213 to R217): O4. First the values that their traps carry; then one lemma for each
case of the four effects `jumpTo`, `jumpReg`, `branch` and `setupLoop`; then the obligation.
-/

namespace Sys2Proof.Machine

/-! ### Traps that carry the encoding as dword 5 (R331, R365) -/

/-- The causes 0x02 and 0x09 take the encoding as dword 5 and keep their value. -/
theorem Trap.fill_codeTarget {t : Trap} (hc : t.cause = 0x02 ∨ t.cause = 0x09) (enc : Nat) (k : Task) :
    t.fill enc k = { t with d5 := word enc } := by
  rcases hc with hc | hc <;> simp [Trap.fill, Trap.valued, Trap.early, hc]

/-- A ready stream's instruction traps on its code target. -/
theorem State.Ready.traps_codeTarget {s : State} (h : s.Ready) {i : Instr} {n w : Nat} {b : Body} {t : Trap}
    (hx : exec i s = s.run i b) (he : encode i = some (n, w)) (hw : wellFormed i = true) (hb : b s = .error (.trap t))
    (hc : t.cause = 0x02 ∨ t.cause = 0x09) : Traps i s (withEnc i t) := by
  refine h.traps hx he hw hb ?_ ?_
  · rw [Trap.fill_codeTarget hc, withEnc, encWord, he]; rfl
  · rcases hc with hc | hc <;> simp [hc]

/-- An instruction of `len` bytes retires with what its effect gives. -/
theorem State.Ready.retires_len {s : State} (h : s.Ready) {i : Instr} {len w : Nat} {b : Body} {d : Done}
    (hx : exec i s = s.run i b) (he : encode i = some (8 * len, w)) (hw : wellFormed i = true) (hb : b s = .ok d) :
    Retires i s len d := by
  have hr := h.run_ok he hw hb
  rw [Nat.mul_div_cancel_left len (by decide)] at hr
  exact hx.trans hr

/-- A code target lies below the instruction store or past it. -/
theorem inStore_eq_false {t : Int} (h : t < 0 ∨ 0xFFFE < t) : inStore t = false := by
  simp only [inStore, Bool.and_eq_false_iff, decide_eq_false_iff_not]; omega

theorem inStore_eq_true {t : Int} (h : 0 ≤ t ∧ t ≤ 0xFFFE) : inStore t = true := by
  simp [inStore, h]

/-- Code of the instruction store may jump backward (R31). -/
theorem State.Ready.forward {s : State} (h : s.Ready) {n : Nat} (o : BitVec n) : s.forward o = .ok () := by
  simp [State.forward, State.carried, h.carried]

variable {s : State}

/-! ### `jump` and `c.jump` (R213) -/

section Jump

variable {n : Nat} {d : BitVec 5} {o : BitVec n} (hs : s.Ready)
include hs

theorem jumpTo_outside (ht : s.codeTarget o < 0 ∨ 0xFFFE < s.codeTarget o) :
    jumpTo d o s = .error (.trap { cause := 0x02, val := wrap64 (s.codeTarget o) }) := by
  unfold jumpTo
  rw [hs.forward]
  exact if_neg (by simp [inStore_eq_false ht])

/-- Within the store the jump is taken once the link is written. -/
theorem jumpTo_inside (ht : 0 ≤ s.codeTarget o ∧ s.codeTarget o ≤ 0xFFFE) {x : State}
    (hl : s.writeX d (word (s.pc + 4)) [] = .ok x) : jumpTo d o s = .ok { st := x, ctl := .jump (s.codeTarget o).toNat } := by
  unfold jumpTo
  rw [hs.forward]
  refine (if_pos (inStore_eq_true ht)).trans ?_
  rw [hl]; rfl

end Jump

/-! ### `jr` (R214) -/

section JumpReg

variable {d r : BitVec 5} {i : BitVec 12}

theorem jumpReg_bad (ht : (s.ea r i).getLsbD 0 = true ∨ 0xFFFE < (s.ea r i).toNat) :
    jumpReg d r i s = .error (.trap { cause := 0x02, val := s.ea r i }) :=
  if_pos (by simpa [bit] using ht)

theorem jumpReg_good (ht : (s.ea r i).getLsbD 0 = false ∧ (s.ea r i).toNat ≤ 0xFFFE) {x y : State} (hf : s.fold [s.xl r] = .ok x)
    (hl : x.writeX d (word (s.pc + 4)) [] = .ok y) : jumpReg d r i s = .ok { st := y, ctl := .jump (s.ea r i).toNat } := by
  refine (if_neg (by simpa [bit] using ht)).trans ?_
  rw [hf]
  show (x.writeX d (word (s.pc + 4)) [] >>= _) = _
  rw [hl]; rfl

end JumpReg

/-! ### Branches (R215) -/

section Branch

variable {n : Nat} {c : Word → Word → Bool} {t r : BitVec 5} {o : BitVec n} (hs : s.Ready)
include hs

theorem branch_outside (hc : c (s.xv r) (s.xv t) = true) (hg : s.codeTarget o < 0 ∨ 0xFFFE < s.codeTarget o) :
    branch c t r o s = .error (.trap { cause := 0x02, val := wrap64 (s.codeTarget o) }) := by
  unfold branch
  rw [hs.forward]
  exact if_pos (by simp [hc, inStore_eq_false hg])

/-- A branch that is not taken, or whose target lies in the store, folds both labels and goes on. -/
theorem branch_goes (hg : c (s.xv r) (s.xv t) = true → 0 ≤ s.codeTarget o ∧ s.codeTarget o ≤ 0xFFFE) {x : State}
    (hf : s.fold [s.xl r, s.xl t] = .ok x) : branch c t r o s =
      .ok { st := x, ctl := if c (s.xv r) (s.xv t) then .jump (s.codeTarget o).toNat else .next } := by
  unfold branch
  rw [hs.forward]
  refine (if_neg ?_).trans ?_
  · simpa using fun hc => inStore_eq_true (hg hc)
  · rw [hf]; rfl

variable (c) in
/-- What O4 states of a conditional branch, for every condition, offset width and length. -/
theorem branch_clauses {i : Instr} {len w : Nat} (hx : exec i s = s.run i (branch c t r o)) (he : encode i = some (8 * len, w))
    (hw : wellFormed i = true) :
    (c (s.xv r) (s.xv t) = true ∧ (s.codeTarget o < 0 ∨ 0xFFFE < s.codeTarget o) →
      Traps i s (withEnc i { cause := 0x02, val := wrap64 (s.codeTarget o) }))
    ∧ ∀ x, s.fold [s.xl r, s.xl t] = .ok x →
      (c (s.xv r) (s.xv t) = false → Retires i s len { st := x })
      ∧ (c (s.xv r) (s.xv t) = true ∧ 0 ≤ s.codeTarget o ∧ s.codeTarget o ≤ 0xFFFE →
          Retires i s len { st := x, ctl := .jump (s.codeTarget o).toNat }) := by
  refine ⟨fun ⟨hc, hg⟩ => ?_, fun x hf => ⟨fun hc => ?_, fun ⟨hc, hg⟩ => ?_⟩⟩
  · exact hs.traps_codeTarget hx he hw (branch_outside hs hc hg) (.inl rfl)
  · exact hs.retires_len hx he hw ((branch_goes hs (by simp [hc]) hf).trans (by rw [hc]; rfl))
  · exact hs.retires_len hx he hw ((branch_goes hs (fun _ => hg) hf).trans (by rw [hc]; rfl))

end Branch

/-! ### The set-up of hardware loops (R217) -/

section Loop

variable {l : BitVec 1} {n : State → Word} {ls : State → List Handle} {o : BitVec 12}

/-- Loop `l` set up by the acting stream's instruction: its body starts behind the instruction and ends at the target. -/
def State.loopSet (s : State) (l : BitVec 1) (o : BitVec 12) (x : State) (c : Word) : State :=
  x.modLoops fun k => k.setup l (BitVec.ofNat 16 (s.pc + 4)) (BitVec.ofNat 16 (s.codeTarget o).toNat) c

/-- Where the stream goes on after the set-up with a count: past the body where the count is 0 (R217). -/
def State.loopCtl (s : State) (o : BitVec 12) (c : Word) : Ctl :=
  if c = 0 then .jump ((s.codeTarget o).toNat + s.lenAt (s.codeTarget o).toNat) else .next

theorem State.execOnly_ok (ha : s.actStream = 0) : s.execOnly = .ok () := if_pos ha

theorem setupLoop_below (ha : s.actStream = 0) (hl : s.codeTarget o < s.pc + 4) :
    setupLoop l n ls o s = .error (.trap { cause := 0x09, val := wrap64 (s.codeTarget o), d6 := word s.pc }) := by
  unfold setupLoop
  rw [State.execOnly_ok ha]
  exact if_pos hl

theorem setupLoop_past (ha : s.actStream = 0) (hl : s.pc + 4 ≤ s.codeTarget o) (hp : 0xFFFE < s.codeTarget o) :
    setupLoop l n ls o s = .error (.trap { cause := 0x02, val := wrap64 (s.codeTarget o) }) := by
  unfold setupLoop
  rw [State.execOnly_ok ha]
  exact (if_neg (not_lt.mpr hl)).trans (if_pos hp)

/-- The two traps of a set-up on its loop's end, the same where a register and where a field gives the count. -/
theorem setupLoop_traps (hs : s.Ready) (ha : s.actStream = 0) {i : Instr} {m w : Nat} (hx : exec i s = s.run i (setupLoop l n ls o))
    (he : encode i = some (m, w)) (hw : wellFormed i = true) :
    (s.codeTarget o < s.pc + 4 → Traps i s (withEnc i { cause := 0x09, val := wrap64 (s.codeTarget o), d6 := word s.pc }))
    ∧ (s.pc + 4 ≤ s.codeTarget o ∧ 0xFFFE < s.codeTarget o →
        Traps i s (withEnc i { cause := 0x02, val := wrap64 (s.codeTarget o) })) :=
  ⟨fun hl => hs.traps_codeTarget hx he hw (setupLoop_below ha hl) (.inr rfl),
    fun ⟨hl, hp⟩ => hs.traps_codeTarget hx he hw (setupLoop_past ha hl hp) (.inl rfl)⟩

theorem setupLoop_inside (ha : s.actStream = 0) (hl : s.pc + 4 ≤ s.codeTarget o ∧ s.codeTarget o ≤ 0xFFFE) {x : State}
    (hf : (if ls s = [] then .ok s else s.fold (ls s)) = .ok x) :
    setupLoop l n ls o s = .ok { st := s.loopSet l o x (n s), ctl := s.loopCtl o (n s) } := by
  unfold setupLoop
  rw [State.execOnly_ok ha]
  refine (if_neg (not_lt.mpr hl.1)).trans ((if_neg (not_lt.mpr hl.2)).trans ?_)
  rw [hf]
  show (if n s = 0 then _ else _) = _
  by_cases hn : n s = 0
  · simp only [if_pos hn, State.loopSet, State.loopCtl]
  · simp only [if_neg hn, State.loopSet, State.loopCtl]

theorem loopClear_ok (ha : s.actStream = 0) :
    loopClear l s = .ok { st := s.modLoops fun k => if l = 0 then { k with lc0 := 0 } else { k with lc1 := 0 } } := by
  unfold loopClear
  rw [State.execOnly_ok ha]; rfl

end Loop

end Sys2Proof.Machine

namespace Sys2Proof

open Machine

/-- Settles O4: each clause is one case of an effect. That the skip of a body whose count is 0 counts as a jump, so that no enclosing loop
acts at it, is the model's choice (log 83). -/
theorem controlFlow : Obligations.ControlFlow := by
  unfold Obligations.ControlFlow
  refine ⟨fun d o c s hs => ⟨?jumps, ?jumpOutside, ?cJumps, ?cJumpOutside⟩, fun d r i s hs => ⟨?jrGood, ?jrBad⟩,
    fun r t o q c s hs => ?branches, fun l r n o s hs ha => ⟨?loopSets, ?loopTraps, ?loopClears⟩⟩
  case jumps =>
    refine fun ht => ⟨?_, fun hd h x hp => ?_⟩
    · rintro rfl
      exact hs.retires32 rfl rfl rfl (jumpTo_inside hs ht (s.writeX_zero _ _))
    · exact hs.retires32 rfl rfl rfl (jumpTo_inside hs ht (State.writeX_reg hd hp))
  case jumpOutside => exact fun ht => hs.traps_codeTarget rfl rfl rfl (jumpTo_outside hs ht) (.inl rfl)
  case cJumps => exact fun ht => hs.retires16 rfl rfl rfl (jumpTo_inside hs ht (s.writeX_zero _ _))
  case cJumpOutside => exact fun ht => hs.traps_codeTarget rfl rfl rfl (jumpTo_outside hs ht) (.inl rfl)
  case jrGood =>
    refine fun ht x hf => ⟨?_, fun hd h y hp => ?_⟩
    · rintro rfl
      exact hs.retires32 rfl rfl rfl (jumpReg_good ht hf (x.writeX_zero _ _))
    · exact hs.retires32 rfl rfl rfl (jumpReg_good ht hf (State.writeX_reg hd hp))
  case jrBad => exact fun ht => hs.traps_codeTarget rfl rfl rfl (jumpReg_bad ht) (.inl rfl)
  case branches =>
    simp only [List.forall_mem_cons, List.not_mem_nil, false_implies, implies_true, and_true]
    exact ⟨branch_clauses (fun a b => decide (a = b)) hs rfl rfl rfl, branch_clauses (fun a b => decide (a ≠ b)) hs rfl rfl rfl,
      branch_clauses (fun a b => a.slt b) hs rfl rfl rfl, branch_clauses (fun a b => b.sle a) hs rfl rfl rfl,
      branch_clauses (fun a b => a.ult b) hs rfl rfl rfl, branch_clauses (fun a b => b.ule a) hs rfl rfl rfl,
      -- the compressed branches compare with x0
      branch_clauses (t := 0) (fun a b => decide (a = b)) hs rfl rfl rfl,
      branch_clauses (t := 0) (fun a b => decide (a ≠ b)) hs rfl rfl rfl⟩
  case loopSets =>
    refine fun hl => ⟨fun x hf => ?_, ?_⟩
    · exact hs.retires32 rfl rfl rfl (setupLoop_inside ha hl (x := x) hf)
    · exact hs.retires32 rfl rfl rfl (setupLoop_inside ha hl (x := s) rfl)
  case loopTraps =>
    simp only [List.forall_mem_cons, List.not_mem_nil, false_implies, implies_true, and_true]
    exact ⟨setupLoop_traps hs ha rfl rfl rfl, setupLoop_traps hs ha rfl rfl rfl⟩
  case loopClears => exact hs.retires32 rfl rfl rfl (loopClear_ok ha)

end Sys2Proof
end
